-- ==== Sys2Proof/Word.lean ====
section
/-! DEFINITION. The machine's words and the plainest arithmetic on them (R3, R4, R8). -/

namespace Sys2Proof

/-- A byte (R3). -/
abbrev Byte := BitVec 8
/-- A 32-bit word (R3). -/
abbrev Word := BitVec 32
/-- A 64-bit dword (R3). -/
abbrev DWord := BitVec 64

/-- `Bits(x, hi, lo)` of R8 on an unsigned integer. -/
def bits (x hi lo : Nat) : Nat := x / 2 ^ lo % 2 ^ (hi - lo + 1)

/-- `Bits(x, n - 1, 0)` of R8 on an integer: its low `n` bits in two's complement. -/
def wrapInt (x : Int) (n : Nat) : Nat := (x % (2 ^ n : Int)).toNat

/-- `SignExt(x, n)` of R8. -/
def signExt (x n : Nat) : Int := if x % 2 ^ n < 2 ^ (n - 1) then (x % 2 ^ n : Nat) else (x % 2 ^ n : Nat) - (2 ^ n : Int)

/-- `Sat(x, lo, hi)` of R8. -/
def sat (x lo hi : Int) : Int := if x < lo then lo else if x > hi then hi else x

/-- One bit of an unsigned integer. -/
def bit (x i : Nat) : Bool := x / 2 ^ i % 2 = 1

/-- Rounded up quotient. -/
def ceilDiv (a b : Nat) : Nat := (a + b - 1) / b

/-- Rounded up to a multiple of `m`. -/
def roundUp (a m : Nat) : Nat := ceilDiv a m * m

end Sys2Proof
end

