-- ==== Sys2Proof/Machine/Flags.lean ====
section
/-! DEFINITION. The sticky flags and their computation from an exact value and its rounding (R111, R112). -/

namespace Sys2Proof.Machine

/-- The bits of FLAGS (R111). -/
def flagNV : Nat := 1
def flagDZ : Nat := 2
def flagOF : Nat := 4
def flagUF : Nat := 8
def flagNX : Nat := 16
def flagSAT : Nat := 32

/-- The flags of a rounding (R106, R111): NX where the result differs from the exact value, UF where a nonzero exact
value below the smallest normal magnitude was inexact, OF and NX at an overflow. -/
def roundFlags (inexact tiny overflow : Bool) : Nat :=
  if overflow then flagOF ||| flagNX
  else if inexact then (if tiny then flagUF ||| flagNX else flagNX) else 0

/-- The flags of a conversion to an integer (R107, R174): saturation sets SAT and NX, an inexact result NX. -/
def intFlags (inexact saturated : Bool) : Nat :=
  if saturated then flagSAT ||| flagNX else if inexact then flagNX else 0

end Sys2Proof.Machine
end

