-- ==== Sys2Proof/Machine/Float.lean ====
section
/-! DEFINITION. Number formats, exact values, the rounding modes, keyed stochastic rounding, the Cumulus accumulator,
and the correctly rounded functions (R97-R117, R168-R179). -/

namespace Sys2Proof.Machine

/-! ### Formats and exact values (R97-R101) -/

/-- A floating-point format: fraction and exponent widths, bias, whether it has infinities, whether it has NaN, and
the magnitude code of its largest finite value (R97, R98). -/
structure Fmt where
  mb : Nat
  eb : Nat
  bias : Int
  hasInf : Bool
  hasNan : Bool
  maxCode : Nat
  nan : Nat
  deriving DecidableEq, Repr

def fp32 : Fmt := { mb := 23, eb := 8, bias := 127, hasInf := true, hasNan := true, maxCode := 0x7F7FFFFF, nan := 0x7FC00000 }
def fp16 : Fmt := { mb := 10, eb := 5, bias := 15, hasInf := true, hasNan := true, maxCode := 0x7BFF, nan := 0x7E00 }
def bf16 : Fmt := { mb := 7, eb := 8, bias := 127, hasInf := true, hasNan := true, maxCode := 0x7F7F, nan := 0x7FC0 }
def e4m3 : Fmt := { mb := 3, eb := 4, bias := 7, hasInf := false, hasNan := true, maxCode := 0x7E, nan := 0x7F }
def e5m2 : Fmt := { mb := 2, eb := 5, bias := 15, hasInf := true, hasNan := true, maxCode := 0x7B, nan := 0x7E }
def e2m1 : Fmt := { mb := 1, eb := 2, bias := 1, hasInf := false, hasNan := false, maxCode := 0x7, nan := 0x0 }

/-- The format of a code of R126; E2M1X and INT8 have their own rules. -/
def fmtOf (c : Nat) : Fmt :=
  match c with
  | 0 => fp32
  | 1 => fp16
  | 2 => bf16
  | 3 => e4m3
  | 4 => e5m2
  | _ => e2m1

/-- The width in bits of an element of a format code (R97, R101). -/
def fmtBits (c : Nat) : Nat :=
  match c with
  | 0 => 32
  | 1 => 16
  | 2 => 16
  | 3 => 8
  | 4 => 8
  | 5 => 4
  | 6 => 4
  | _ => 8

/-- An exact value: NaN, an infinity, or `(-1)^neg × m × 2^e`; `m = 0` is a zero with its sign. -/
inductive Fp where
  | nan
  | inf (neg : Bool)
  | fin (neg : Bool) (m : Nat) (e : Int)
  deriving DecidableEq, Repr

namespace Fp

def isNan (x : Fp) : Bool := x == .nan

/-- The sign bit of a value. -/
def isNeg : Fp → Bool
  | .nan => false
  | .inf s => s
  | .fin s _ _ => s

/-- Whether a value is a zero. -/
def isZero : Fp → Bool
  | .fin _ m _ => m == 0
  | _ => false

/-- The value with its sign inverted. -/
def negate : Fp → Fp
  | .nan => .nan
  | .inf s => .inf (!s)
  | .fin s m e => .fin (!s) m e

/-- The magnitude of a value. -/
def abs : Fp → Fp
  | .nan => .nan
  | .inf _ => .inf false
  | .fin _ m e => .fin false m e

/-- A value times a power of two. -/
def scale (x : Fp) (k : Int) : Fp :=
  match x with
  | .fin s m e => .fin s m (e + k)
  | y => y

/-- A signed multiple of `2^e` as a finite value's mantissa at an exponent not above its own. -/
def mantAt (neg : Bool) (m : Nat) (e base : Int) : Int := (if neg then -1 else 1) * ((m * 2 ^ (e - base).toNat : Nat) : Int)

/-- An integer times `2^e` as a value, with the given sign when it is zero. -/
def ofInt (i : Int) (e : Int) (zneg : Bool) : Fp := if i == 0 then .fin zneg 0 e else .fin (i < 0) i.natAbs e

/-- The exact product: NaN for 0 × Inf. -/
def mul : Fp → Fp → Fp
  | .nan, _ => .nan
  | _, .nan => .nan
  | .inf s, .inf t => .inf (s != t)
  | .inf s, .fin t m _ => if m == 0 then .nan else .inf (s != t)
  | .fin s m _, .inf t => if m == 0 then .nan else .inf (s != t)
  | .fin s m e, .fin t n f => .fin (s != t) (m * n) (e + f)

/-- The exact sum, NaN for Inf − Inf; an exact zero sum of terms of unlike sign has the sign given (R168). -/
def add (zneg : Bool) : Fp → Fp → Fp
  | .nan, _ => .nan
  | _, .nan => .nan
  | .inf s, .inf t => if s == t then .inf s else .nan
  | .inf s, .fin _ _ _ => .inf s
  | .fin _ _ _, .inf t => .inf t
  | .fin s m e, .fin t n f =>
    let b := min e f
    let i := mantAt s m e b + mantAt t n f b
    ofInt i b (if m == 0 && n == 0 && s == t then s else zneg)

/-- Whether one value lies below another; false when either is NaN, and the zeros are equal. -/
def lt : Fp → Fp → Bool
  | .nan, _ => false
  | _, .nan => false
  | .inf s, .inf t => s && !t
  | .inf s, .fin _ _ _ => s
  | .fin _ _ _, .inf t => !t
  | .fin s m e, .fin t n f => let b := min e f; mantAt s m e b < mantAt t n f b

/-- Whether two values are equal; false when either is NaN, and the zeros are equal. -/
def eqv : Fp → Fp → Bool
  | .nan, _ => false
  | _, .nan => false
  | .inf s, .inf t => s == t
  | .fin s m e, .fin t n f => let b := min e f; mantAt s m e b == mantAt t n f b
  | _, _ => false

/-- The exponent of the leading bit of a finite nonzero magnitude: floor of its base-2 logarithm. -/
def msb (m : Nat) (e : Int) : Int := e + (m.log2 : Nat)

end Fp

/-- The value a code has in a format (R98). -/
def Fmt.decode (f : Fmt) (c : Nat) : Fp :=
  let s := bit c (f.mb + f.eb)
  let e := c / 2 ^ f.mb % 2 ^ f.eb
  let m := c % 2 ^ f.mb
  let top := 2 ^ f.eb - 1
  if f.hasInf && e == top then (if m == 0 then .inf s else .nan)
  else if f.hasNan && !f.hasInf && e == top && m == 2 ^ f.mb - 1 then .nan
  else if e == 0 then .fin s m (1 - f.bias - f.mb)
  else .fin s (2 ^ f.mb + m) (e - f.bias - f.mb)

/-- The sign bit of a format's code. -/
def Fmt.signBit (f : Fmt) (neg : Bool) : Nat := if neg then 2 ^ (f.mb + f.eb) else 0

/-! ### Rounding (R105-R108) -/

/-- The rounding modes (R105). -/
inductive RMode where
  | rne | rtz | rup | rdn
  | sr (u : Nat)
  deriving DecidableEq, Repr

/-- The mode of a code of R105 other than SR. -/
def rmodeOf (c : Nat) : RMode :=
  match c with
  | 1 => .rtz
  | 2 => .rup
  | 3 => .rdn
  | _ => .rne

/-- Whether a magnitude between `n` and `n + 1` units rounds up to `n + 1` (R106, R108): `num / den` is the fraction
above `n`, `neg` its sign and `odd` whether the lower neighbour's fraction field has bit 0 set. -/
def roundsUp (mode : RMode) (neg odd : Bool) (num den : Nat) : Bool :=
  match mode with
  | .rne => decide (den < 2 * num) || (2 * num == den && odd)
  | .rtz => false
  | .rup => !neg && num != 0
  | .rdn => neg && num != 0
  | .sr u => decide (u < 2 ^ 32 * num / den) && num != 0

/-- A magnitude `m × 2^e` rounded to a multiple of `2^q`: the multiple, and whether it was inexact. -/
def roundAt (mode : RMode) (neg : Bool) (m : Nat) (e q : Int) : Nat × Bool :=
  if q ≤ e then (m * 2 ^ (e - q).toNat, false)
  else
    let den := 2 ^ (q - e).toNat
    let n := m / den
    let r := m % den
    (if roundsUp mode neg (n % 2 == 1) r den then n + 1 else n, r != 0)

/-- The magnitude code of `n × 2^q`, with the exponent range unbounded above (R106). -/
def Fmt.magCode (f : Fmt) (n : Nat) (q : Int) : Nat :=
  if n < 2 ^ f.mb then n
  else
    let (n, q) := if n == 2 ^ (f.mb + 1) then (2 ^ f.mb, q + 1) else (n, q)
    (q + f.mb + f.bias).toNat * 2 ^ f.mb + (n - 2 ^ f.mb)

/-- The result of an overflow (R106). -/
def Fmt.overflowCode (f : Fmt) (mode : RMode) (neg : Bool) : Nat :=
  let infCode := (2 ^ f.eb - 1) * 2 ^ f.mb
  let mag := if !f.hasInf then f.maxCode
    else match mode with
      | .rtz => f.maxCode
      | .rup => if neg then f.maxCode else infCode
      | .rdn => if neg then infCode else f.maxCode
      | _ => infCode
  f.signBit neg + mag

/-- An exact value rounded into a format: the code and the flags (R106, R107, R111). -/
def Fmt.round (f : Fmt) (mode : RMode) (x : Fp) : Nat × Nat :=
  match x with
  | .nan => (f.nan, if f.hasNan then 0 else flagNV)
  | .inf s => if f.hasInf then (f.signBit s + (2 ^ f.eb - 1) * 2 ^ f.mb, 0) else (f.signBit s + f.maxCode, flagOF)
  | .fin s m e =>
    if m == 0 then (f.signBit s, 0)
    else
      let emin := 1 - f.bias
      let top := Fp.msb m e
      let q := max top emin - f.mb
      let (n, inexact) := roundAt mode s m e q
      let mag := f.magCode n q
      if f.maxCode < mag then (f.overflowCode mode s, roundFlags inexact false true)
      else (f.signBit s + mag, roundFlags inexact (top < emin) false)

/-- Rounded into FP32 under RNE, as the matrix unit, the accumulators and the vocabulary recurrences do (R105). -/
def rne32 (x : Fp) : Nat := (fp32.round .rne x).1

/-- `Mix64` of R109. -/
def mix64 (seed rank step index : Nat) : Nat :=
  let x := (seed % 2 ^ 64) ^^^ (rank % 2 ^ 20 * 2 ^ 40) ^^^ (index % 2 ^ 40)
  let x := x ^^^ (x / 2 ^ 31)
  let x := x * 0xD35A2D974B1C6E85 % 2 ^ 64
  let x := x ^^^ (x / 2 ^ 29) ^^^ (step % 2 ^ 32 * 2 ^ 16)
  let x := x * 0x8F6CA4B31D27E5C9 % 2 ^ 64
  let x := x ^^^ (x / 2 ^ 32)
  x % 2 ^ 32

/-! ### E2M1X blocks (R100, R103, R106) -/

/-- The magnitudes of the codes 0 to 7 of E2M1, in units of 2^-9 (R100). -/
def e2m1Units : List Int := [0, 256, 512, 768, 1024, 1536, 2048, 3072]

/-- An E4M3 code's value in units of 2^-9; none for NaN. -/
def outlierUnits (o : Nat) : Option Int :=
  match e4m3.decode o with
  | .fin s m e => some (Fp.mantAt s m e (-9))
  | _ => none

/-- The members of a block's set with their codes, in units of 2^-9: the ordinary codes, and the outlier where it is no
ordinary value (R103, R106). -/
def e2m1xSet (o : Nat) : List (Int × Nat) :=
  let pos := e2m1Units.zipIdx
  let neg := (e2m1Units.zipIdx.drop 1).map fun (v, i) => (-v, 8 + i)
  let base := pos ++ neg
  match outlierUnits o with
  | some v => if base.any fun p => p.1 == v then base else base ++ [(v, 8)]
  | none => base

/-- The magnitude after the largest member on its own ladder, in units of 2^-9, and whether the largest member's fraction
field has bit 0 set (R106): after 6 comes 8; after an outlier the next E4M3 value with an unbounded exponent. -/
def ladderNext (maxUnits : Int) (o : Nat) : Int × Bool :=
  if maxUnits == 3072 then (4096, true)
  else
    let c := o % 128
    let e := c / 8
    if c % 8 == 7 then (((16 : Nat) * 2 ^ (e - 1) : Nat), true)
    else (((8 + c % 8 + 1) * 2 ^ (e - 1) : Nat), c % 2 == 1)

/-- A scaled value rounded into an E2M1X block's set: the code and the flags (R106-R108). -/
def roundE2m1x (mode : RMode) (o : Nat) (x : Fp) : Nat × Nat :=
  match x with
  | .nan => (0, flagNV)
  | .inf s =>
    let set := (e2m1xSet o).filter fun p => if s then p.1 < 0 else 0 < p.1
    (((firstBy (fun a b => decide (b.1.natAbs < a.1.natAbs)) set).map fun p => p.2).getD 0, flagOF)
  | .fin s m e =>
    if m == 0 then (0, 0)
    else
      let b := min e (-9)
      let k : Int := (2 ^ (-9 - b).toNat : Nat)
      let y := Fp.mantAt false m e b
      let set := ((e2m1xSet o).filter fun p => if s then p.1 ≤ 0 else 0 ≤ p.1).map fun p => (p.1.natAbs, p.2)
      let tiny := y < 512 * k
      let below := set.filter fun p => (p.1 : Int) * k ≤ y
      let above := set.filter fun p => y < (p.1 : Int) * k
      let lo := (firstBy (fun p q => decide (q.1 < p.1)) below).getD (0, 0)
      let same := (lo.1 : Int) * k == y
      if same then (lo.2, 0)
      else
        let hi := firstBy (fun p q => decide (p.1 < q.1)) above
        match hi with
        | some hi =>
          let num := (y - (lo.1 : Int) * k).toNat
          let den := (((hi.1 : Int) - lo.1) * k).toNat
          let up := match mode with
            | .rne =>
              if 2 * num == den then
                (if lo.1 == 0 then false
                 else if lo.2 == 8 then true else if hi.2 == 8 then false else lo.2 % 2 == 1)
              else decide (den < 2 * num)
            | md => roundsUp md s false num den
          (if up then hi.2 else lo.2, roundFlags true tiny false)
        | none =>
          let (nx, odd) := ladderNext lo.1 o
          let num := (y - (lo.1 : Int) * k).toNat
          let den := ((nx - lo.1) * k).toNat
          if den ≤ num || roundsUp mode s odd num den then (lo.2, roundFlags true false true)
          else (lo.2, roundFlags true tiny false)
where
  /-- The first of a list under an order. -/
  firstBy {α : Type} (lt : α → α → Bool) : List α → Option α
    | [] => none
    | x :: xs => some (xs.foldl (fun best y => if lt y best then y else best) x)

/-! ### Integers (R107, R174) -/

/-- A value rounded to an integer in a mode and saturated to a range: the integer and the flags (R107). -/
def roundInt (mode : RMode) (lo hi : Int) (x : Fp) : Int × Nat :=
  match x with
  | .nan => (0, flagNV ||| flagSAT)
  | .inf s => (if s then lo else hi, intFlags true true)
  | .fin s m e =>
    let (n, inexact) := roundAt mode s m e 0
    let v : Int := if s then -(n : Int) else n
    if v < lo then (lo, intFlags inexact true) else if hi < v then (hi, intFlags inexact true) else (v, intFlags inexact false)

/-! ### Scaled narrow elements (R102, R103, R175, R177) -/

/-- The value of a narrow code under a scale and an outlier: NaN under scale 0xFF (R102, R103). -/
def narrowValue (fmt code scale outlier : Nat) : Fp :=
  if scale == 0xFF then .nan
  else
    let v := if fmt == 7 then Fp.ofInt (signExt code 8) 0 false
      else if fmt == 6 && code == 8 then e4m3.decode outlier
      else (fmtOf fmt).decode code
    v.scale ((scale : Int) - 127)

/-- A value under a scale quantised into a narrow format: the code and the flags (R175). -/
def quantise (fmt : Nat) (mode : RMode) (scale outlier : Nat) (x : Fp) : Nat × Nat :=
  if scale == 0xFF then
    (if fmt == 3 then e4m3.nan else if fmt == 4 then e5m2.nan else 0,
     if fmt == 5 || fmt == 6 then flagNV else if fmt == 7 then flagNV ||| flagSAT else 0)
  else
    let y := x.scale (127 - (scale : Int))
    if fmt == 7 then (let (v, f) := roundInt mode (-128) 127 y; (wrapInt v 8, f))
    else if fmt == 6 then roundE2m1x mode outlier y
    else (fmtOf fmt).round mode y

/-! ### The Cumulus accumulator (R113, R114) -/

/-- An accumulator: V in units of 2^-160, and its side flags (R113). -/
structure Acc320 where
  v : Int := 0
  nan : Bool := false
  pinf : Bool := false
  ninf : Bool := false
  empty : Bool := true
  nz : Bool := true
  deriving DecidableEq, Repr

namespace Acc320

/-- A term added (R113); V is kept modulo 2^320. -/
def add (a : Acc320) (x : Fp) : Acc320 :=
  let negZero := x == .fin true 0 0 || (x.isZero && x.isNeg)
  let a := match x with
    | .nan => { a with nan := true }
    | .inf true => { a with ninf := true }
    | .inf false => { a with pinf := true }
    | .fin s m e => { a with v := signExt (wrapInt (a.v + Fp.mantAt s m e (-160)) 320) 320 }
  { a with nz := a.nz && negZero, empty := false }

/-- The value read out (R114). -/
def value (a : Acc320) : Fp :=
  if a.nan || (a.pinf && a.ninf) then .nan
  else if a.pinf then .inf false
  else if a.ninf then .inf true
  else if a.v == 0 then .fin (a.nz && !a.empty) 0 0
  else Fp.ofInt a.v (-160) false

end Acc320

/-- The sum of terms in a cleared accumulator, in any order (R113-R115). -/
def cumulus (terms : List Fp) : Acc320 := terms.foldl Acc320.add {}

/-- An accumulator read out into FP32 under RNE (R114). -/
def readOut32 (a : Acc320) : Nat := rne32 a.value

/-! ### Correctly rounded functions (R117, R170) -/

/-- The integer square root, by bits from `2^k` down. -/
def isqrtFrom (n : Nat) : Nat → Nat → Nat
  | 0, r => if (r + 1) * (r + 1) ≤ n then r + 1 else r
  | k + 1, r => isqrtFrom n k (if (r + 2 ^ (k + 1)) * (r + 2 ^ (k + 1)) ≤ n then r + 2 ^ (k + 1) else r)

/-- The integer square root. -/
def isqrt (n : Nat) : Nat := isqrtFrom n (n.log2 / 2 + 1) 0

/-- A magnitude known to lie at `m × 2^e` exactly, or strictly between it and `(m + 1) × 2^e`, as a value that rounds the
same way where `m` has two bits to spare. -/
def sticky (neg : Bool) (m : Nat) (e : Int) (exact : Bool) : Fp := if exact then .fin neg m e else .fin neg (2 * m + 1) (e - 1)

/-- The value of 1 / x for a finite nonzero x. -/
def recip (s : Bool) (m : Nat) (e : Int) : Fp := let k := m.log2 + 64; sticky s (2 ^ k / m) (-e - k) (2 ^ k % m == 0)

/-- The square root of a positive x. -/
def sqrtv (m : Nat) (e : Int) : Fp :=
  let (m, e) := if e % 2 == 0 then (m, e) else (2 * m, e - 1)
  let n := m * 2 ^ 128
  let r := isqrt n
  sticky false r (e / 2 - 64) (r * r == n)

/-- The reciprocal square root of a positive x. -/
def rsqrtv (m : Nat) (e : Int) : Fp :=
  let (m, e) := if e % 2 == 0 then (m, e) else (2 * m, e - 1)
  let k := m.log2 + 128
  let n := 2 ^ (2 * k) / m
  let r := isqrt n
  sticky false r (-(e / 2) - k) (r * r * m == 2 ^ (2 * k))

/-- ln 2 in units of 2^-256, rounded down. -/
def ln2 : Nat := 0xB17217F7D1CF79ABC9E3B39803F2F6AF40F343267298B62D8A0D175B8BAAFA2B

/-- The exponential series in units of 2^-256, each term rounded down: `t` is the term before `n`. -/
def expSeries (y : Nat) : Nat → Nat → Nat → Nat → Nat
  | 0, _, _, acc => acc
  | fuel + 1, n, t, acc => let t := t * y / 2 ^ 256 / n; expSeries y fuel (n + 1) t (acc + t)

/-- 2^f in units of 2^-240 rounded down, for 0 < f < 1 with f in units of 2^-256. -/
def pow2Frac (f : Nat) : Nat := expSeries (f * ln2 / 2 ^ 256) 70 1 (2 ^ 256) (2 ^ 256) / 2 ^ 16

/-- The odd powers of `z` over odd numbers in units of 2^-256, each term rounded down. -/
def atanhSeries (z2 : Nat) : Nat → Nat → Nat → Nat → Nat
  | 0, _, _, acc => acc
  | fuel + 1, n, p, acc => atanhSeries z2 fuel (n + 2) (p * z2 / 2 ^ 256) (acc + p / n)

/-- log2 m in units of 2^-240 rounded down, for 1 < m < 2 with m in units of 2^-w. -/
def log2Frac (m w : Nat) : Nat :=
  let z := (m - 2 ^ w) * 2 ^ 256 / (m + 2 ^ w)
  let a := atanhSeries (z * z / 2 ^ 256) 90 1 z 0
  2 * a * 2 ^ 256 / ln2 / 2 ^ 16

/-- 2^x as a value that rounds as the exact power does (R117). -/
def exp2v (s : Bool) (m : Nat) (e : Int) : Fp :=
  let top := Fp.msb m e
  if m == 0 then .fin false 1 0
  else if 10 ≤ top then (if s then sticky false 1 (-400) false else sticky false 1 400 false)
  else
    let i := Fp.mantAt s m e (-256)
    if e < -256 then sticky false (if s then 2 ^ 240 - 1 else 2 ^ 240) (-240) false
    else
      let k := i / (2 ^ 256 : Int)
      let f := (i % (2 ^ 256 : Int)).toNat
      if f == 0 then .fin false 1 k else sticky false (pow2Frac f) (k - 240) false

/-- log2 x of a positive x as a value that rounds as the exact logarithm does (R170). -/
def log2v (m : Nat) (e : Int) : Fp :=
  let w := m.log2
  let k := e + w
  if m == 2 ^ w then Fp.ofInt k 0 false
  else
    let l := log2Frac m w
    if 0 ≤ k then sticky false (k.toNat * 2 ^ 240 + l) (-240) false
    else sticky true ((-k).toNat * 2 ^ 240 - l - 1) (-240) false

/-- Exp2 of an FP32 code under RNE: the code and the flags (R117). -/
def exp2Code (c : Nat) : Nat × Nat :=
  match fp32.decode c with
  | .nan => (fp32.nan, 0)
  | .inf s => (if s then 0 else 0x7F800000, 0)
  | .fin s m e => fp32.round .rne (exp2v s m e)

/-! ### FALU operations (R168-R172) -/

/-- A binary operation's invalid cases: Inf − Inf in a sum. -/
def addNv (a b : Fp) : Nat :=
  match a, b with
  | .inf s, .inf t => if s == t then 0 else flagNV
  | _, _ => 0

/-- The invalid case of a product: 0 × Inf. -/
def mulNv (a b : Fp) : Nat :=
  match a, b with
  | .inf _, .fin _ m _ => if m == 0 then flagNV else 0
  | .fin _ m _, .inf _ => if m == 0 then flagNV else 0
  | _, _ => 0

/-- A sum rounded once: code and flags. -/
def faddR (f : Fmt) (mode : RMode) (a b : Fp) : Nat × Nat :=
  let (c, fl) := f.round mode (Fp.add (mode == .rdn) a b)
  (c, fl ||| addNv a b)

/-- A product rounded once. -/
def fmulR (f : Fmt) (mode : RMode) (a b : Fp) : Nat × Nat :=
  let (c, fl) := f.round mode (Fp.mul a b)
  (c, fl ||| mulNv a b)

/-- A product and sum rounded once; 0 × Inf is invalid whatever the third operand (R168). -/
def ffmaR (f : Fmt) (mode : RMode) (a b d : Fp) : Nat × Nat :=
  let p := Fp.mul a b
  let (c, fl) := f.round mode (Fp.add (mode == .rdn) p d)
  (c, fl ||| mulNv a b ||| addNv p d)

/-- The lesser of two codes' values, −0 below +0; one NaN gives the other (R169). -/
def fminC (f : Fmt) (a b : Nat) : Nat :=
  let x := f.decode a
  let y := f.decode b
  if x.isNan then (if y.isNan then f.nan else b)
  else if y.isNan then a
  else if Fp.lt x y || (Fp.eqv x y && x.isNeg) then a else b

/-- The greater of two codes' values, under the same rules (R169). -/
def fmaxC (f : Fmt) (a b : Nat) : Nat :=
  let x := f.decode a
  let y := f.decode b
  if x.isNan then (if y.isNan then f.nan else b)
  else if y.isNan then a
  else if Fp.lt y x || (Fp.eqv x y && !x.isNeg) then a else b

/-- `frcp` (R170). -/
def frcpR (mode : RMode) (a : Fp) : Nat × Nat :=
  match a with
  | .nan => (fp32.nan, 0)
  | .inf s => (fp32.signBit s, 0)
  | .fin s m e => if m == 0 then (fp32.signBit s + 0x7F800000, flagDZ) else fp32.round mode (recip s m e)

/-- `frsq` (R170). -/
def frsqR (mode : RMode) (a : Fp) : Nat × Nat :=
  match a with
  | .nan => (fp32.nan, 0)
  | .inf s => if s then (fp32.nan, flagNV) else (0, 0)
  | .fin s m e =>
    if m == 0 then (fp32.signBit s + 0x7F800000, flagDZ)
    else if s then (fp32.nan, flagNV) else fp32.round mode (rsqrtv m e)

/-- `fsqr` (R170). -/
def fsqrR (mode : RMode) (a : Fp) : Nat × Nat :=
  match a with
  | .nan => (fp32.nan, 0)
  | .inf s => if s then (fp32.nan, flagNV) else (0x7F800000, 0)
  | .fin s m e => if m == 0 then (fp32.signBit s, 0) else if s then (fp32.nan, flagNV) else fp32.round mode (sqrtv m e)

/-- `flg2` (R170). -/
def flg2R (mode : RMode) (a : Fp) : Nat × Nat :=
  match a with
  | .nan => (fp32.nan, 0)
  | .inf s => if s then (fp32.nan, flagNV) else (0x7F800000, 0)
  | .fin s m e =>
    if m == 0 then (0xFF800000, flagDZ) else if s then (fp32.nan, flagNV) else fp32.round mode (log2v m e)

/-- The class mask of an FP32 code (R172). -/
def fclassC (c : Nat) : Nat :=
  match fp32.decode c with
  | .nan => 256
  | .inf s => if s then 1 else 128
  | .fin s m _ =>
    let normal := c / 2 ^ 23 % 256 != 0
    if m == 0 then (if s then 8 else 16) else if normal then (if s then 2 else 64) else (if s then 4 else 32)

/-- A float comparison under a condition code of R130 (R171). -/
def fcmpC (cc a b : Nat) : Bool :=
  let x := fp32.decode a
  let y := fp32.decode b
  let un := x.isNan || y.isNan
  match cc with
  | 0 => Fp.eqv x y
  | 1 => !Fp.eqv x y
  | 2 => Fp.lt x y
  | 3 => Fp.lt x y || Fp.eqv x y
  | 4 => Fp.lt y x
  | 5 => Fp.lt y x || Fp.eqv x y
  | 6 => un
  | _ => !un

end Sys2Proof.Machine
end

