-- ==== Sys2Proof/Config.lean ====
section
/-! DEFINITION. The free values: what the spec leaves open, and the constants an installation fixes. None has a
body, so no proof can rest on one. -/

namespace Sys2Proof.Config

/-- Which of the steps that may come next does come next, by the number of free values drawn so far: the spec fixes
no order among its agents beyond the rules the steps themselves keep. -/
opaque choice : Nat → Nat

/-- How many choices of what comes next are free between two that let nothing wait for ever (R42). -/
opaque patience : Nat

/-- Which of two admissible translations an access uses while a change of a valid table entry awaits its `tlbi`
(R405): the cached one when true. -/
opaque staleTranslation : Nat → Nat → Bool

/-- The signature an installation's fused keys give for a digest (R453, R454). -/
opaque signature : Nat → Nat → Nat

/-- The identity and alias certificate chain of a package (R453), as an integer. -/
opaque certChain : Nat → Nat → Nat

/-- SHAKE256 to 512 bits of an integer (R452). -/
opaque shake256 : Nat → Nat

/-- The measurement slots 0-3 that a boot of a package ends with (R451). -/
opaque measurement : Nat → Nat → Nat

/-- The boot failure code of a package's boot, 0 when every step succeeds (R451). -/
opaque bootCode : Nat → Nat → Nat

/-- The nonce drawn for an SPDM answer (R454), by the free values drawn so far. -/
opaque nonce : Nat → Nat

/-- The version bits an SPDM responder reports in its certificate and capability answers beyond R454. -/
opaque spdmDetail : Nat → Nat → Nat

/-- Whether a package's firmware configuration marks it as a grandmaster, and whether its signed configuration enables TAISEC (R457, R458). -/
opaque grandmaster : Nat → Bool
opaque taisec : Nat → Bool

/-- What the management engine measures as POWER and TEMP (R457), by the package and the free values drawn so far. -/
opaque power : Nat → Nat → Nat
opaque temperature : Nat → Nat → Nat

/-- Whether a host die is a candidate of the Zenith election, and its priority (R367). -/
opaque candidate : Nat → Bool
opaque priority : Nat → Nat

/-- The physical address of the reserved region of a package (R444). -/
opaque reservedRegion : Nat → Nat

/-- The package whose HBM holds a physical address: the home of its line (R92, R93). -/
opaque homePackage : Nat → Nat

/-- The channel controller of its home package that a physical address lies on, modulo 384, and the output port of a package by which its
requests leave for another, modulo 16 (R397, R400). -/
opaque channel : Nat → Nat
opaque outPort : Nat → Nat → Nat

/-- The switches that the fabric routes of a partition's communicator pass through (R324), a choice of the firmware. -/
opaque fabricPath : Nat → Nat → List Nat

/-- What the copy-queue entry of a saved copy says of the lines that the copy owns (R384). -/
opaque ownedLines : Nat → Nat

/-- Which workgroup slot's state a storage index of a core's error record lies in (R439, R441), by the index. -/
opaque erroneousSlot : Nat → Nat

/-- The line of D that a storage index of a die's Nimbus lies in, as `Loc.line` numbers it (R438, R441), by the die and the index. -/
opaque nimbusLine : Nat → Nat → Nat

/-- What a storage index of a die's Nimbus holds (R438, R439), by the die and the index: 1 a phaser, 2 a grid's binding table, otherwise a line of
D. The number of the phaser on its die, or of the grid, is the second. -/
opaque nimbusKind : Nat → Nat → Nat
opaque nimbusOwner : Nat → Nat → Nat

/-- The UNIT code that a dump's header gives for a fatal cause that R441 has no unit for (R442, R444). -/
opaque fatalUnit : Nat → Nat

/-- The time of sending and the payload of a firmware message in a dump (R424), by the free values drawn so far. -/
opaque messageRest : Nat → Nat

/-- The time in units of 2^-16 ns that passes at a package's clock between one step and the next (R365), by the package and the free
values drawn so far; and the clk that pass (R40). -/
opaque elapsed : Nat → Nat → Nat
opaque clocks : Nat → Nat

/-- The rate that a package's servo chooses after a Sync message (R365), reduced to its bound of 200 ppm. -/
opaque servo : Nat → Nat

/-- Whether a port of a package is a master port of its boundary clock (R364). -/
opaque masterPort : Nat → Nat → Bool

end Sys2Proof.Config
end

