-- ==== Sys2Proof/Syntax.lean ====
section
/-! DEFINITION. The instructions and events of the opcode table, and the operands they carry. -/

namespace Sys2Proof

/-- A logical core of the pod: package 0-511, die 0-3, core 0-63 (R11). -/
structure CoreRef where
  pkg : Nat
  die : Nat
  core : Nat
  deriving DecidableEq, Repr

/-- A thread, named by the core its context belongs to, the context's generation, its workgroup slot and its
local index (R9, R377). -/
structure ThreadRef where
  core : CoreRef
  gen : Nat
  wslot : Nat
  tid : Nat
  deriving DecidableEq, Repr

/-- A fault record, or with `rtype = 2` an arrival mask whose mask stands in `xpc` (R330, R331). -/
structure FaultRec where
  time : Nat := 0
  xpc : Nat := 0
  lane : Nat := 0
  die : Nat := 0
  core : Nat := 0
  tid : Nat := 0
  pkg : Nat := 0
  block : Nat := 0
  rtype : Nat := 0
  code : Nat := 0
  detail : Nat := 0
  gmask : Nat := 0
  addr : Nat := 0
  pc : Nat := 0
  deriving DecidableEq, Repr

/-- The message header fields of a firmware link message that an agent acts on (R424): the leaf's link on which
it travels, the requester's tag, and whether a reserved field is set. -/
structure Link where
  pkg : Nat
  die : Nat
  leaf : Nat
  tag : Nat := 0
  malformed : Bool := false
  deriving DecidableEq, Repr

/-- The payload of START (R425). -/
structure StartArgs where
  block : Nat
  core : Nat
  m : Nat
  n : Nat
  lbase : List Nat
  relaunch : Bool
  deriving DecidableEq, Repr

/-- The payload of COUNT (R425). -/
structure Deltas where
  started : Nat := 0
  completed : Nat := 0
  faulted : Nat := 0
  cancelled : Nat := 0
  relaunched : Nat := 0
  deriving DecidableEq, Repr

/-- An error record of the error log (R441), its SEQ apart. -/
structure ErrRec where
  addr : Nat := 0
  time : Nat := 0
  cid : Nat := 0
  unit : Nat := 0
  kind : Nat := 0
  core : Nat := 0xFF
  die : Nat := 0
  deriving DecidableEq, Repr

/-- What a heartbeat or a claim of the Zenith election carries (R367). -/
structure Beat where
  prio : Nat
  pid : Nat
  epoch : Nat
  version : Nat := 0
  deriving DecidableEq, Repr

/-- A late arrival (R378): a line of L with its byte mask, a result for a register or pair, or a phaser wait
result. -/
inductive LateItem where
  | line (off : Nat) (data : List Byte) (mask : Nat)
  | result (tslot reg : Nat) (pair : Bool) (value : Nat)
  | waitResult (tslot wslot handle value : Nat)
  deriving DecidableEq, Repr

/-- A queue of a PCIe function of a package; function 0 is the physical function and `f + 1` virtual function
`f` (R409, R410). -/
structure QRef where
  pkg : Nat
  fn : Nat
  q : Nat
  deriving DecidableEq, Repr

/-- A launch packet as its queue took it (R412): its address and the fields the device reads. -/
structure Packet where
  addr : Nat
  sigaddr : Nat := 0
  sigval : Nat := 0
  arg1 : Nat := 0
  arg0 : Nat := 0
  stream : Nat := 0
  deriving DecidableEq, Repr

/-- The page a register write reaches: that of a PCIe function (R410) or the management engine's (R457). -/
inductive RegRef where
  | fn (pkg fn : Nat)
  | mgmt (pkg : Nat)
  deriving DecidableEq, Repr

/-- An access of the host die: to G (R87) it reads, writes, or operates atomically with the operation and order
codes of R133; of a register it reads a word (R5, R410, R457). -/
inductive HostAccess where
  | read (addr n : Nat)
  | write (addr n value : Nat)
  | atomic (op ord addr b w : Nat)
  | register (r : RegRef) (off : Nat)
  deriving DecidableEq, Repr

/-- One constructor per row of the opcode table (R122-R136, R310, R350; the event rows are the steps of the
engines, dispatchers, firmware and board that the table lists beside the instruction words; those that only the
outside world or another unit brings stand last). The fields of an
instruction word are the table's, so a pair register is a 5-bit field and a quad a 4-bit one. -/
inductive Instr where
  /-- Adds two 32-bit registers with wrap-around. (R164) -/
  | addI32 (e : Bool) (d : BitVec 6) (a : BitVec 6) (b : BitVec 6)
  /-- Subtracts two 32-bit registers with wrap-around. (R164) -/
  | subI32 (e : Bool) (d : BitVec 6) (a : BitVec 6) (b : BitVec 6)
  /-- Adds with carry in and carry out through p6. (R164) -/
  | addcN32 (e : Bool) (d : BitVec 6) (a : BitVec 6) (b : BitVec 6)
  /-- Subtracts with borrow in and borrow out through p6. (R164) -/
  | subbN32 (e : Bool) (d : BitVec 6) (a : BitVec 6) (b : BitVec 6)
  /-- Writes the low 32 bits of a product. (R164) -/
  | mulI32 (e : Bool) (d : BitVec 6) (a : BitVec 6) (b : BitVec 6)
  /-- Writes the high 32 bits of a signed product. (R164) -/
  | mulhiI32 (e : Bool) (d : BitVec 6) (a : BitVec 6) (b : BitVec 6)
  /-- Writes the high 32 bits of an unsigned product. (R164) -/
  | mulhiN32 (e : Bool) (d : BitVec 6) (a : BitVec 6) (b : BitVec 6)
  /-- Multiplies two registers and adds the destination, with wrap-around. (R164) -/
  | madI32 (e : Bool) (d : BitVec 6) (a : BitVec 6) (b : BitVec 6)
  /-- Writes the signed minimum. (R164) -/
  | minI32 (e : Bool) (d : BitVec 6) (a : BitVec 6) (b : BitVec 6)
  /-- Writes the unsigned minimum. (R164) -/
  | minN32 (e : Bool) (d : BitVec 6) (a : BitVec 6) (b : BitVec 6)
  /-- Writes the signed maximum. (R164) -/
  | maxI32 (e : Bool) (d : BitVec 6) (a : BitVec 6) (b : BitVec 6)
  /-- Writes the unsigned maximum. (R164) -/
  | maxN32 (e : Bool) (d : BitVec 6) (a : BitVec 6) (b : BitVec 6)
  /-- Writes the absolute value of a signed register. (R164) -/
  | absI32 (e : Bool) (d : BitVec 6) (a : BitVec 6)
  /-- Writes the two's-complement negation. (R164) -/
  | negI32 (e : Bool) (d : BitVec 6) (a : BitVec 6)
  /-- Writes the bitwise AND. (R164) -/
  | andB32 (e : Bool) (d : BitVec 6) (a : BitVec 6) (b : BitVec 6)
  /-- Writes the bitwise OR. (R164) -/
  | orB32 (e : Bool) (d : BitVec 6) (a : BitVec 6) (b : BitVec 6)
  /-- Writes the bitwise XOR. (R164) -/
  | xorB32 (e : Bool) (d : BitVec 6) (a : BitVec 6) (b : BitVec 6)
  /-- Writes a AND NOT b. (R164) -/
  | andnB32 (e : Bool) (d : BitVec 6) (a : BitVec 6) (b : BitVec 6)
  /-- Writes the bitwise complement. (R164) -/
  | notB32 (e : Bool) (d : BitVec 6) (a : BitVec 6)
  /-- Shifts left by a register count. (R164) -/
  | shlB32 (e : Bool) (d : BitVec 6) (a : BitVec 6) (b : BitVec 6)
  /-- Shifts right logically by a register count. (R164) -/
  | shrB32 (e : Bool) (d : BitVec 6) (a : BitVec 6) (b : BitVec 6)
  /-- Shifts right arithmetically by a register count. (R164) -/
  | sarI32 (e : Bool) (d : BitVec 6) (a : BitVec 6) (b : BitVec 6)
  /-- Rotates left by the count modulo 32. (R164) -/
  | rolB32 (e : Bool) (d : BitVec 6) (a : BitVec 6) (b : BitVec 6)
  /-- Extracts a bit field, zero-extended. (R165) -/
  | bfxN32 (e : Bool) (d : BitVec 6) (a : BitVec 6) (b : BitVec 6)
  /-- Extracts a bit field, sign-extended. (R165) -/
  | bfxI32 (e : Bool) (d : BitVec 6) (a : BitVec 6) (b : BitVec 6)
  /-- Inserts a bit field into the destination. (R165) -/
  | bfsB32 (e : Bool) (d : BitVec 6) (a : BitVec 6) (b : BitVec 6)
  /-- Counts leading zero bits. (R164) -/
  | clzB32 (e : Bool) (d : BitVec 6) (a : BitVec 6)
  /-- Counts one bits. (R164) -/
  | popB32 (e : Bool) (d : BitVec 6) (a : BitVec 6)
  /-- Reverses the bit order. (R164) -/
  | brevB32 (e : Bool) (d : BitVec 6) (a : BitVec 6)
  /-- Permutes bytes of two registers under nibble control. (R165) -/
  | bpermB32 (e : Bool) (d : BitVec 6) (a : BitVec 6) (b : BitVec 6)
  /-- Compares signed values and writes a predicate. (R166) -/
  | cmpI32 (e : Bool) (p : BitVec 3) (c : BitVec 3) (a : BitVec 6) (b : BitVec 6)
  /-- Compares unsigned values and writes a predicate. (R166) -/
  | cmpN32 (e : Bool) (p : BitVec 3) (c : BitVec 3) (a : BitVec 6) (b : BitVec 6)
  /-- Copies a register. (R164) -/
  | movB32 (e : Bool) (d : BitVec 6) (a : BitVec 6)
  /-- Adds two 64-bit register pairs. (R164) -/
  | addI64 (e : Bool) (d : BitVec 5) (a : BitVec 5) (b : BitVec 5)
  /-- Subtracts two 64-bit register pairs. (R164) -/
  | subI64 (e : Bool) (d : BitVec 5) (a : BitVec 5) (b : BitVec 5)
  /-- Shifts a 64-bit pair left by a register count. (R164) -/
  | shlB64 (e : Bool) (d : BitVec 5) (a : BitVec 5) (b : BitVec 6)
  /-- Shifts a 64-bit pair right logically by a register count. (R164) -/
  | shrB64 (e : Bool) (d : BitVec 5) (a : BitVec 5) (b : BitVec 6)
  /-- Adds two FP32 values with one rounding. (R169) -/
  | faddF32 (e : Bool) (d : BitVec 6) (a : BitVec 6) (b : BitVec 6)
  /-- Subtracts two FP32 values with one rounding. (R169) -/
  | fsubF32 (e : Bool) (d : BitVec 6) (a : BitVec 6) (b : BitVec 6)
  /-- Multiplies two FP32 values with one rounding. (R169) -/
  | fmulF32 (e : Bool) (d : BitVec 6) (a : BitVec 6) (b : BitVec 6)
  /-- Fused multiply-add with one rounding. (R169) -/
  | ffmaF32 (e : Bool) (d : BitVec 6) (a : BitVec 6) (b : BitVec 6)
  /-- Writes the lesser FP32 value. (R169) -/
  | fminF32 (e : Bool) (d : BitVec 6) (a : BitVec 6) (b : BitVec 6)
  /-- Writes the greater FP32 value. (R169) -/
  | fmaxF32 (e : Bool) (d : BitVec 6) (a : BitVec 6) (b : BitVec 6)
  /-- Clears the sign bit of an FP32 value. (R169) -/
  | fabsF32 (e : Bool) (d : BitVec 6) (a : BitVec 6)
  /-- Inverts the sign bit of an FP32 value. (R169) -/
  | fnegF32 (e : Bool) (d : BitVec 6) (a : BitVec 6)
  /-- Writes the correctly rounded reciprocal. (R170) -/
  | frcpF32 (e : Bool) (d : BitVec 6) (a : BitVec 6)
  /-- Writes the correctly rounded reciprocal square root. (R170) -/
  | frsqF32 (e : Bool) (d : BitVec 6) (a : BitVec 6)
  /-- Writes the correctly rounded square root. (R170) -/
  | fsqrF32 (e : Bool) (d : BitVec 6) (a : BitVec 6)
  /-- Writes the correctly rounded power of two. (R117) -/
  | fex2F32 (e : Bool) (d : BitVec 6) (a : BitVec 6)
  /-- Writes the correctly rounded base-2 logarithm. (R170) -/
  | flg2F32 (e : Bool) (d : BitVec 6) (a : BitVec 6)
  /-- Compares FP32 values and writes a predicate. (R171) -/
  | fcmpF32 (e : Bool) (p : BitVec 3) (c : BitVec 3) (a : BitVec 6) (b : BitVec 6)
  /-- Writes a one-hot class mask of an FP32 value. (R172) -/
  | fclsF32 (e : Bool) (d : BitVec 6) (a : BitVec 6)
  /-- Adds two packed FP16 pairs. (R169) -/
  | hadd2F16 (e : Bool) (d : BitVec 6) (a : BitVec 6) (b : BitVec 6)
  /-- Multiplies two packed FP16 pairs. (R169) -/
  | hmul2F16 (e : Bool) (d : BitVec 6) (a : BitVec 6) (b : BitVec 6)
  /-- Fused multiply-add on packed FP16 pairs. (R169) -/
  | hfma2F16 (e : Bool) (d : BitVec 6) (a : BitVec 6) (b : BitVec 6)
  /-- Element-wise maximum of packed FP16 pairs. (R169) -/
  | hmax2F16 (e : Bool) (d : BitVec 6) (a : BitVec 6) (b : BitVec 6)
  /-- Element-wise minimum of packed FP16 pairs. (R169) -/
  | hmin2F16 (e : Bool) (d : BitVec 6) (a : BitVec 6) (b : BitVec 6)
  /-- Fused multiply-add on packed BF16 pairs. (R169) -/
  | bfma2Bf16 (e : Bool) (d : BitVec 6) (a : BitVec 6) (b : BitVec 6)
  /-- Converts between float formats. (R174) -/
  | fcvt (e : Bool) (d : BitVec 6) (a : BitVec 6) (s : BitVec 3) (t : BitVec 3)
  /-- Converts a float to a saturated signed integer. (R174) -/
  | fcviI32 (e : Bool) (d : BitVec 6) (a : BitVec 6) (s : BitVec 3)
  /-- Converts a float to a saturated unsigned integer. (R174) -/
  | fcviN32 (e : Bool) (d : BitVec 6) (a : BitVec 6) (s : BitVec 3)
  /-- Converts a signed integer to a float format. (R174) -/
  | icvfI32 (e : Bool) (d : BitVec 6) (a : BitVec 6) (t : BitVec 3)
  /-- Converts an unsigned integer to a float format. (R174) -/
  | icvfN32 (e : Bool) (d : BitVec 6) (a : BitVec 6) (t : BitVec 3)
  /-- Quantises one scaled FP32 element to a narrow format. (R175) -/
  | qcv (e : Bool) (d : BitVec 6) (a : BitVec 5) (t : BitVec 3)
  /-- Quantises one element under keyed stochastic rounding. (R176) -/
  | qcvs (e : Bool) (d : BitVec 6) (a : BitVec 4) (t : BitVec 3)
  /-- Dequantises a narrow code to a float format. (R177) -/
  | qdq (e : Bool) (d : BitVec 6) (a : BitVec 5) (s : BitVec 3) (t : BitVec 3)
  /-- Computes a block scale over a full group. (R178) -/
  | qsc (e : Bool) (d : BitVec 6) (a : BitVec 6) (t : BitVec 3)
  /-- Chooses an E2M1X outlier over a full group. (R179) -/
  | qox (e : Bool) (d : BitVec 6) (a : BitVec 6) (b : BitVec 6)
  /-- Packs two low halves into one register. (R180) -/
  | pkh (e : Bool) (d : BitVec 6) (a : BitVec 6) (b : BitVec 6)
  /-- Writes the AND of two predicates. (R182) -/
  | pand (e : Bool) (d : BitVec 3) (a : BitVec 3) (m : Bool) (b : BitVec 3) (n : Bool)
  /-- Writes the OR of two predicates. (R182) -/
  | por (e : Bool) (d : BitVec 3) (a : BitVec 3) (m : Bool) (b : BitVec 3) (n : Bool)
  /-- Writes the XOR of two predicates. (R182) -/
  | pxor (e : Bool) (d : BitVec 3) (a : BitVec 3) (m : Bool) (b : BitVec 3) (n : Bool)
  /-- Writes the complement of a predicate. (R182) -/
  | pnot (e : Bool) (d : BitVec 3) (a : BitVec 3) (m : Bool)
  /-- Copies a predicate. (R182) -/
  | pmov (e : Bool) (d : BitVec 3) (a : BitVec 3) (m : Bool)
  /-- Moves the predicates into a register as a byte. (R183) -/
  | vmovpToReg (e : Bool) (d : BitVec 6)
  /-- Sets predicates p0 to p6 from a register. (R183) -/
  | vmovpToPreds (e : Bool) (a : BitVec 6)
  /-- Reads a special register named by a 12-bit selector. (R185) -/
  | sreg (e : Bool) (d : BitVec 6) (s : BitVec 12)
  /-- Writes the pod time to three registers. (R186) -/
  | tnow (e : Bool) (d : BitVec 5)
  /-- Selects one of two registers by a predicate. (R184) -/
  | sel (e : Bool) (d : BitVec 6) (a : BitVec 6) (b : BitVec 6) (n : Bool) (q : BitVec 3)
  /-- Adds a sign-extended immediate. (R167) -/
  | addi (e : Bool) (d : BitVec 6) (a : BitVec 6) (i : BitVec 13)
  /-- ANDs a sign-extended immediate. (R167) -/
  | andi (e : Bool) (d : BitVec 6) (a : BitVec 6) (i : BitVec 13)
  /-- ORs a sign-extended immediate. (R167) -/
  | ori (e : Bool) (d : BitVec 6) (a : BitVec 6) (i : BitVec 13)
  /-- XORs a sign-extended immediate. (R167) -/
  | xori (e : Bool) (d : BitVec 6) (a : BitVec 6) (i : BitVec 13)
  /-- Shifts left by an immediate amount. (R129) -/
  | shli (e : Bool) (d : BitVec 6) (a : BitVec 6) (n : BitVec 5)
  /-- Shifts right logically by an immediate amount. (R129) -/
  | shri (e : Bool) (d : BitVec 6) (a : BitVec 6) (n : BitVec 5)
  /-- Shifts right arithmetically by an immediate amount. (R129) -/
  | sari (e : Bool) (d : BitVec 6) (a : BitVec 6) (n : BitVec 5)
  /-- Rotates left by an immediate amount. (R129) -/
  | roli (e : Bool) (d : BitVec 6) (a : BitVec 6) (n : BitVec 5)
  /-- Compares a register with an immediate and writes a predicate. (R167) -/
  | cmpi (e : Bool) (p : BitVec 3) (c : BitVec 3) (a : BitVec 6) (i : BitVec 13)
  /-- Loads a sign-extended immediate into a register. (R167) -/
  | lim (e : Bool) (d : BitVec 6) (i : BitVec 19)
  /-- Loads a 64-bit immediate into a register pair after two hx words. (R167) -/
  | limB64 (e : Bool) (d : BitVec 5) (i : BitVec 19)
  /-- Forms an L-tagged address from an offset register. (R129) -/
  | leaL (e : Bool) (d : BitVec 5) (a : BitVec 6)
  /-- Forms a D-tagged address on the own die. (R129) -/
  | leaD (e : Bool) (d : BitVec 5) (a : BitVec 6)
  /-- Forms a D-tagged address naming a die. (R129) -/
  | leaDDie (e : Bool) (d : BitVec 5) (a : BitVec 6) (n : BitVec 2)
  /-- Forms an S-tagged address of the thread. (R129) -/
  | leaS (e : Bool) (d : BitVec 5) (a : BitVec 6)
  /-- Branches per thread on a predicate and splits the group. (R188) -/
  | bra (e : Bool) (p : BitVec 3) (n : Bool) (o : BitVec 21)
  /-- Branches when all active threads agree, otherwise traps UNIFORMITY. (R29) -/
  | brau (e : Bool) (p : BitVec 3) (n : Bool) (o : BitVec 21)
  /-- Pushes a link entry, shifts the window and jumps. (R47) -/
  | call (e : Bool) (s : BitVec 6) (o : BitVec 19)
  /-- Does nothing. (R193) -/
  | nop (e : Bool)
  /-- Ends each active thread and drops its phaser registrations. (R194) -/
  | exit (e : Bool)
  /-- Pops a link entry and returns. (R48) -/
  | ret (e : Bool)
  /-- Stops the group to regather threads of its workgroup. (R34) -/
  | merge (e : Bool)
  /-- Ends the run and returns the group to READY. (R196) -/
  | yield (e : Bool)
  /-- Ends the thread's part in a PREEMPT save, or acts as yield. (R196) -/
  | yieldPd (e : Bool)
  /-- Calls a register target with a register shift. (R189) -/
  | callr (e : Bool) (a : BitVec 5) (b : BitVec 6)
  /-- Jumps to a register target. (R190) -/
  | jmpr (e : Bool) (a : BitVec 5)
  /-- Raises SOFTWARE with a 12-bit detail. (R197) -/
  | trap (e : Bool) (d : BitVec 12)
  /-- Grows the current allotment, stalling until registers are granted. (R199) -/
  | wgrow (e : Bool) (m : BitVec 6)
  /-- Shrinks the current allotment and releases registers. (R49) -/
  | wshr (e : Bool) (m : BitVec 6)
  /-- Makes the group wait a number of clk. (R198) -/
  | tslp (e : Bool) (a : BitVec 6)
  /-- Loads from L. (R205) -/
  | ldl (e : Bool) (d : BitVec 6) (b : BitVec 6) (s : BitVec 3) (l : BitVec 4) (o : BitVec 6)
  /-- Stores to L. (R205) -/
  | stl (e : Bool) (s : BitVec 6) (b : BitVec 6) (z : BitVec 3) (o : BitVec 6)
  /-- Loads from D of the own die. (R205) -/
  | ldd (e : Bool) (d : BitVec 6) (b : BitVec 6) (s : BitVec 3) (l : BitVec 4) (o : BitVec 6)
  /-- Stores to D of the own die. (R205) -/
  | std (e : Bool) (s : BitVec 6) (b : BitVec 6) (z : BitVec 3) (o : BitVec 6)
  /-- Loads from the thread's S. (R205) -/
  | lds (e : Bool) (d : BitVec 6) (b : BitVec 6) (s : BitVec 3) (l : BitVec 4) (o : BitVec 6)
  /-- Stores to the thread's S. (R205) -/
  | sts (e : Bool) (s : BitVec 6) (b : BitVec 6) (z : BitVec 3) (o : BitVec 6)
  /-- Atomically adds a 32-bit integer. (R208) -/
  | atmAddI32 (e : Bool) (d : BitVec 6) (a : BitVec 5) (b : BitVec 6) (l : BitVec 4) (o : BitVec 2)
  /-- Atomically adds an FP32 value with one rounding. (R208) -/
  | atmAddF32 (e : Bool) (d : BitVec 6) (a : BitVec 5) (b : BitVec 6) (l : BitVec 4) (o : BitVec 2)
  /-- Atomic signed maximum. (R208) -/
  | atmMaxI32 (e : Bool) (d : BitVec 6) (a : BitVec 5) (b : BitVec 6) (l : BitVec 4) (o : BitVec 2)
  /-- Atomic unsigned maximum. (R208) -/
  | atmMaxN32 (e : Bool) (d : BitVec 6) (a : BitVec 5) (b : BitVec 6) (l : BitVec 4) (o : BitVec 2)
  /-- Atomic signed minimum. (R208) -/
  | atmMinI32 (e : Bool) (d : BitVec 6) (a : BitVec 5) (b : BitVec 6) (l : BitVec 4) (o : BitVec 2)
  /-- Atomic unsigned minimum. (R208) -/
  | atmMinN32 (e : Bool) (d : BitVec 6) (a : BitVec 5) (b : BitVec 6) (l : BitVec 4) (o : BitVec 2)
  /-- Atomic maximum of FP32 magnitudes. (R208) -/
  | atmAmaxF32 (e : Bool) (d : BitVec 6) (a : BitVec 5) (b : BitVec 6) (l : BitVec 4) (o : BitVec 2)
  /-- Atomic AND of a 32-bit word. (R208) -/
  | atmAnd (e : Bool) (d : BitVec 6) (a : BitVec 5) (b : BitVec 6) (l : BitVec 4) (o : BitVec 2)
  /-- Atomic OR of a 32-bit word. (R208) -/
  | atmOr (e : Bool) (d : BitVec 6) (a : BitVec 5) (b : BitVec 6) (l : BitVec 4) (o : BitVec 2)
  /-- Atomic XOR of a 32-bit word. (R208) -/
  | atmXor (e : Bool) (d : BitVec 6) (a : BitVec 5) (b : BitVec 6) (l : BitVec 4) (o : BitVec 2)
  /-- Atomic swap of a 32-bit word. (R208) -/
  | atmSwp (e : Bool) (d : BitVec 6) (a : BitVec 5) (b : BitVec 6) (l : BitVec 4) (o : BitVec 2)
  /-- Atomic compare-and-swap of a 32-bit word. (R208) -/
  | atmCasB32 (e : Bool) (d : BitVec 6) (a : BitVec 5) (b : BitVec 5) (l : BitVec 4) (o : BitVec 2)
  /-- Atomically adds a 64-bit integer. (R208) -/
  | atmAddI64 (e : Bool) (d : BitVec 5) (a : BitVec 5) (b : BitVec 5) (l : BitVec 4) (o : BitVec 2)
  /-- Atomic compare-and-swap of a 64-bit word. (R208) -/
  | atmCasB64 (e : Bool) (d : BitVec 5) (a : BitVec 5) (b : BitVec 4) (l : BitVec 4) (o : BitVec 2)
  /-- Adds a one-record binding-table entry. (R214) -/
  | bind (e : Bool) (a : BitVec 4) (b : BitVec 5)
  /-- Adds a striped binding-table entry. (R214) -/
  | bindx (e : Bool) (a : BitVec 4) (b : BitVec 4)
  /-- Removes the binding entry that begins at an address. (R215) -/
  | unbind (e : Bool) (a : BitVec 5)
  /-- Makes the preceding relaxed atomic an acquire. (R217) -/
  | fenceAcq (e : Bool)
  /-- Makes the next relaxed atomic a release. (R217) -/
  | fenceRel (e : Bool)
  /-- Acts as both acquire and release fence. (R217) -/
  | fenceAr (e : Bool)
  /-- Waits for the thread's earlier copies into L. (R218) -/
  | drainL (e : Bool)
  /-- Waits for the thread's earlier copies into D. (R218) -/
  | drainD (e : Bool)
  /-- Waits for the thread's earlier copies into S. (R218) -/
  | drainS (e : Bool)
  /-- Waits for the thread's earlier copies into G. (R218) -/
  | drainG (e : Bool)
  /-- Allocates a grid phaser. (R224) -/
  | phal (e : Bool) (d : BitVec 6)
  /-- Frees a grid phaser and releases its waiters with GONE. (R224) -/
  | phfr (e : Bool) (a : BitVec 6)
  /-- Registers the thread on a phaser with a mode. (R224) -/
  | phrg (e : Bool) (a : BitVec 6) (b : BitVec 6)
  /-- Deregisters the thread from a phaser. (R224) -/
  | phdr (e : Bool) (a : BitVec 6)
  /-- Signals a phaser in phase SP. (R224) -/
  | phsg (e : Bool) (a : BitVec 6)
  /-- Waits for phase WP of a phaser to complete. (R224) -/
  | phwt (e : Bool) (d : BitVec 6) (a : BitVec 6)
  /-- Signals and then waits on a phaser as one instruction. (R224) -/
  | phsw (e : Bool) (d : BitVec 6) (a : BitVec 6)
  /-- Adds expected bytes to a phaser's pending counter. (R224) -/
  | phex (e : Bool) (a : BitVec 6) (b : BitVec 5)
  /-- Reads a phaser's phase count and status. (R224) -/
  | phqy (e : Bool) (d : BitVec 5) (a : BitVec 6)
  /-- Re-initialises a phaser to its opening phase. (R224) -/
  | phin (e : Bool) (a : BitVec 6)
  /-- Issues a linear copy. (R235) -/
  | cpy (e : Bool) (x : BitVec 5) (y : BitVec 5) (z : BitVec 3) (s : BitVec 2)
  /-- Issues a two-dimensional copy. (R236) -/
  | cpy2 (e : Bool) (x : BitVec 5) (y : BitVec 5) (z : BitVec 3) (s : BitVec 2)
  /-- Issues an indexed gather copy. (R237) -/
  | cpyg (e : Bool) (x : BitVec 5) (y : BitVec 5) (z : BitVec 3) (s : BitVec 2)
  /-- Issues an indexed scatter copy. (R238) -/
  | cpys (e : Bool) (x : BitVec 5) (y : BitVec 5) (z : BitVec 3) (s : BitVec 2)
  /-- Issues a reducing copy into its destination. (R239) -/
  | cpyr (e : Bool) (x : BitVec 5) (y : BitVec 5) (z : BitVec 3) (o : BitVec 2) (f : BitVec 2)
  /-- Writes a shape record from four registers. (R259) -/
  | mshp (e : Bool) (h : BitVec 4) (y : BitVec 4)
  /-- Queues an entry that builds B-store rows. (R261) -/
  | mbld (e : Bool) (b : BitVec 4) (s : BitVec 4) (c : BitVec 4)
  /-- Queues an entry that zeroes accumulator slots. (R260) -/
  | mzro (e : Bool) (m : BitVec 4)
  /-- Queues a matrix multiply-accumulate entry. (R262) -/
  | mlp (e : Bool) (k : BitVec 2) (a : BitVec 4) (b : BitVec 4) (z : BitVec 5) (s : BitVec 2)
  /-- Queues a drain of the tile to memory. (R265) -/
  | mdrn (e : Bool) (k : BitVec 2) (c : BitVec 4) (m : BitVec 3)
  /-- Queues a drain that also merges its amax into a word. (R266) -/
  | mdrnAmax (e : Bool) (k : BitVec 2) (c : BitVec 4) (z : BitVec 5) (m : BitVec 3)
  /-- Waits for the workgroup's earlier sequencer entries. (R268) -/
  | mwt (e : Bool)
  /-- Queues an entry that signals a phaser. (R268) -/
  | mwtSg (e : Bool) (a : BitVec 6)
  /-- Forms or dissolves a cooperative set. (R269) -/
  | mcop (e : Bool) (a : BitVec 6)
  /-- Projects a vocabulary shard onto hidden rows. (R287) -/
  | vpj (e : Bool) (s : BitVec 4) (w : BitVec 4) (h : BitVec 4) (p : BitVec 4)
  /-- Regenerates logits and forms gradients. (R291) -/
  | vpjb (e : Bool) (f : BitVec 4) (w : BitVec 4) (h : BitVec 4) (p : BitVec 4)
  /-- Folds one shard's state into an accumulated state. (R289) -/
  | vmrg (e : Bool) (d : BitVec 4) (s : BitVec 4)
  /-- Writes final records from a state area. (R290) -/
  | vfin (e : Bool) (f : BitVec 4) (s : BitVec 4)
  /-- Resumes a suspended projection. (R288) -/
  | vrsm (e : Bool) (s : BitVec 4)
  /-- Asks the root to launch a grid. (R312) -/
  | glch (e : Bool) (x : BitVec 5) (y : BitVec 5) (l : BitVec 4)
  /-- Cancels a grid. (R313) -/
  | gcan (e : Bool) (y : BitVec 5)
  /-- Waits for a grid to complete. (R314) -/
  | gwt (e : Bool) (y : BitVec 5)
  /-- Reads a counter of the grid's root node. (R315) -/
  | gqy (e : Bool) (x : BitVec 5) (y : BitVec 5) (s : BitVec 6) (l : BitVec 4)
  /-- Fires the block's collective slot early. (R318) -/
  | cfr (e : Bool) (y : BitVec 6)
  /-- Waits for a collective chunk to end. (R326) -/
  | cwt (e : Bool) (y : BitVec 6) (z : BitVec 6)
  /-- Reads a collective chunk's state. (R326) -/
  | cqy (e : Bool) (x : BitVec 6) (y : BitVec 6) (z : BitVec 6) (l : BitVec 4)
  /-- Reads a control and status register. (R351) -/
  | csrr (e : Bool) (d : BitVec 6) (n : BitVec 12)
  /-- Writes a control and status register. (R351) -/
  | csrw (e : Bool) (s : BitVec 6) (n : BitVec 12)
  /-- Invalidates translation-cache entries of the selected partition. (R358) -/
  | tlbi (e : Bool) (a : BitVec 5) (b : BitVec 6)
  /-- Saves a halted core context to a save area. (R356) -/
  | ctxs (e : Bool) (d : BitVec 6) (a : BitVec 5) (b : BitVec 5)
  /-- Loads a save area onto an empty core. (R357) -/
  | ctxl (e : Bool) (d : BitVec 6) (a : BitVec 5) (b : BitVec 5)
  /-- Returns from a trap handler. (R334) -/
  | eret (e : Bool)
  /-- Halts or resumes a selected core. (R355) -/
  | halt (e : Bool) (d : BitVec 6) (a : BitVec 5) (b : BitVec 6)
  /-- Writes one horizon-table entry whole. (R360) -/
  | hzn (e : Bool) (d : BitVec 6) (a : BitVec 3) (b : BitVec 6)
  /-- Holds or releases one phaser. (R359) -/
  | phld (e : Bool) (d : BitVec 6) (a : BitVec 6) (b : BitVec 6)
  /-- Reads one word of the debug read-back aperture. (R362) -/
  | dbgr (e : Bool) (d : BitVec 5) (a : BitVec 5)
  /-- Extends the immediate of its target. (R139) -/
  | hx (i : BitVec 22)
  /-- Predicates its target per thread. (R140) -/
  | hp (p : BitVec 3) (n : Bool)
  /-- Repeats its target with stepped register fields. (R141) -/
  | hrep (c : BitVec 8) (d : BitVec 2) (a : BitVec 2) (b : BitVec 2)
  /-- Overrides rounding mode or cache policy of its target. (R142) -/
  | hmod (r : Bool) (m : BitVec 3) (p : BitVec 2)
  /-- Between runs the scheduler slot goes to the next READY group in age order. (R39) -/
  | schedulerArbitration (c : CoreRef) (sched : Nat)
  /-- A STALLED group is exchanged with a P-READY group when one appears. (R40) -/
  | stallExchange (c : CoreRef) (sched : Nat)
  /-- A seedbed thread reaches FORM_AGE and its key becomes eligible. (R31) -/
  | formAgeExpiry (c : CoreRef) (wslot tid : Nat)
  /-- The group former builds a group from an eligible key when a slot is free. (R31) -/
  | groupFormation (c : CoreRef)
  /-- The former dissolves a victim group so an aged thread can be formed. (R33) -/
  | groupDissolution (c : CoreRef)
  /-- A merge wait reaches MERGE_WAIT and the group passes. (R34) -/
  | mergeWaitExpiry (c : CoreRef) (g : Nat)
  /-- A tslp wait ends and the group becomes READY. (R198) -/
  | tslpExpiry (c : CoreRef) (g : Nat)
  /-- The core grants registers to the oldest waiting wgrow. (R199) -/
  | wgrowGrant (c : CoreRef)
  /-- A D or S cache line fill returns and clears the stall. (R60) -/
  | cacheFillArrival (c : CoreRef) (g : Nat)
  /-- The home performs an atomic request once its release may complete. (R210) -/
  | atomicHomePerform (id : Nat)
  /-- An atomic's old value arrives and is written to the thread. (R212) -/
  | atomicResultArrival (id : Nat)
  /-- The binding table's home orders and checks a bind, bindx or unbind. (R81) -/
  | bindHomeOrder (id : Nat)
  /-- The home's answer to a binding request reaches the thread. (R216) -/
  | bindAnswer (id : Nat)
  /-- A switch fence counter completes a release once earlier writes have passed. (R92) -/
  | releaseCompletion (id : Nat)
  /-- A device-scope release is promoted to pod scope. (R93) -/
  | releasePromotion (id : Nat)
  /-- A gated copy's phase completes and the copy takes ownership and proceeds. (R241) -/
  | copyGateOpen (c : CoreRef) (id : Nat)
  /-- A copy engine writes destination lines and counts them down on its phaser. (R242) -/
  | copyLineWrite (c : CoreRef) (id : Nat)
  /-- A copy completes, releasing held releases and drains. (R90) -/
  | copyCompletion (c : CoreRef) (id : Nat)
  /-- The sequencer performs an mbld entry, building B rows. (R261) -/
  | mbldEntry (c : CoreRef)
  /-- The sequencer zeroes the selected accumulator slots. (R260) -/
  | mzroEntry (c : CoreRef)
  /-- The sequencer performs one K-step of an mlp entry. (R263) -/
  | mlpKstep (c : CoreRef)
  /-- The sequencer drains one chunk of the tile to memory. (R265) -/
  | mdrnChunk (c : CoreRef)
  /-- An mwt.sg entry reaches the head and signals its phasers. (R268) -/
  | mwtSgEntry (c : CoreRef)
  /-- A vocabulary instruction folds one 32-entry block into row state. (R281) -/
  | vocabBlockFold (c : CoreRef)
  /-- The context engine finishes zeroing a block's frames and the block may start. (R63) -/
  | frameClearingDone (c : CoreRef) (wslot : Nat)
  /-- The root receives and checks a launch and accepts or fails it. (R296) -/
  | launchRequest (id : Nat)
  /-- The result of a grid or SYS request arrives at the thread. (R311) -/
  | requestResultArrival (id : Nat)
  /-- The die leader searches rectangles and places the head neighbourhood. (R429) -/
  | neighbourhoodPlacement (pkg die : Nat)
  /-- Link command adding a dealt range to a die node. (R425) -/
  | deal (l : Link) (handle lo hi : Nat)
  /-- Link command admitting a workgroup on a core. (R427) -/
  | start (l : Link) (handle : Nat) (a : StartArgs)
  /-- Link command starting the admitted workgroups of a neighbourhood. (R427) -/
  | go (l : Link) (handle first : Nat)
  /-- Link command applying a cancellation at the receiver. (R307) -/
  | cancel (l : Link) (handle : Nat) (cmode : Bool)
  /-- Link command requesting another range of blocks. (R301) -/
  | demand (l : Link) (handle unstarted : Nat)
  /-- Link command adding block counts to a node and its ancestors. (R303) -/
  | count (l : Link) (handle : Nat) (d : Deltas)
  /-- Link command delivering a fault record or arrival mask to the fault area. (R306) -/
  | faultrec (l : Link) (handle : Nat) (r : FaultRec)
  /-- Link command loading a save area into a core's express slot. (R432) -/
  | xload (l : Link) (addr core : Nat)
  /-- Link command appending an error record to the error log. (R441) -/
  | error (l : Link) (r : ErrRec)
  /-- An engine translates a chunk's pages, or the chunk ends LOST. (R463) -/
  | chunkTranslation (handle b chunk rank : Nat)
  /-- An engine accepts a chunk once the communicator's buffer can hold it. (R323) -/
  | chunkAcceptance (handle b chunk rank : Nat)
  /-- At a chunk boundary an engine serves the highest class round-robin. (R323) -/
  | engineArbitration (pkg stack : Nat)
  /-- A chunk step completes, freeing its buffer and possibly making the chunk COMPLETE. (R342) -/
  | chunkStepCompletion (pkg stack : Nat)
  /-- Every group of a HALTING context stops and it becomes HALTED. (R354) -/
  | coreHalted (c : CoreRef)
  /-- A pre-fill finishes, releasing a delayed swap. (R372) -/
  | prefillDone (c : CoreRef)
  /-- The halted context is exchanged with the in-slot. (R375) -/
  | horizonSwap (c : CoreRef)
  /-- The out-slot drain to the save area completes. (R375) -/
  | outSlotDrainDone (c : CoreRef)
  /-- A drain write takes a second-stage fault and the save stalls. (R376) -/
  | drainWriteFault (c : CoreRef)
  /-- A background part is written to its save area before a new context touches it. (R449) -/
  | backgroundSave (c : CoreRef)
  /-- A resumed context's background part is restored into place. (R374) -/
  | backgroundRestore (c : CoreRef)
  /-- An accepted express request reaches a core and victims take PREEMPT. (R388) -/
  | expressArrival (c : CoreRef) (cid : Nat) (evict : Bool)
  /-- A wake from a watched word makes the queue read it again. (R414) -/
  | waitsigWake (pkg fn : Nat)
  /-- The global scheduler core takes the next packet of a ready queue. (R415) -/
  | queueService (pkg : Nat)
  /-- A migration operation finishes and STATUS is written. (R418) -/
  | migrationDone (pkg : Nat)
  /-- A translation walk completes or fails. (R405) -/
  | translationWalk (token : Nat)
  /-- The aperture read completes and APDATA becomes valid. (R457) -/
  | apertureReadDone (pkg : Nat)
  /-- A register-stack spill or fill to BSTORE completes and the call, return or wgrow stall clears. (R50) -/
  | spillFillCompletion (c : CoreRef) (g : Nat)
  /-- Link command halting a cluster and losing its workgroups. (R434) -/
  | retire (l : Link) (cluster : Nat)
  /-- Link command giving the spare cluster a logical identity. (R434) -/
  | remap (l : Link) (logical : Nat)
  /-- Link command stopping a cluster for the fatal dump. (R443) -/
  | quiesce (l : Link)
  /-- Link command probing a leaf for the watchdog. (R428) -/
  | ping (l : Link)
  /-- A response message arrives and its permit is returned. (R423) -/
  | linkResponse (l : Link) (op status : Nat)
  /-- Every 1 ms the global scheduler core pings every leaf and fails silent ones. (R428) -/
  | pingTimer (pkg : Nat)
  /-- A grid's TBUDGET expires and it is cancelled. (R300) -/
  | timeBudgetExpiry (handle : Nat)
  /-- Rank 0 requests reduction slots on the switches of a communicator's path. (R324) -/
  | switchSlotRequest (handle b : Nat)
  /-- Write to a register that has no row of its own. (R5) -/
  | registerWrite (r : RegRef) (offset value : Nat)
  /-- A PTP Sync message is received and the servo corrects the clock. (R364) -/
  | ptpSync (pkg : Nat) (offset : Int)
  /-- A port measures link delay by the peer-to-peer mechanism. (R364) -/
  | peerDelayExchange (pkg port delay : Nat)
  /-- Sync is lost or the offset exceeds limits and the clock enters HOLDOVER. (R366) -/
  | syncLoss (pkg : Nat)
  /-- HOLDOVER lasts 10 s and the clock becomes FREE. (R366) -/
  | holdoverTimeout (pkg : Nat)
  /-- The Zenith peer multicasts a heartbeat every 1 ms. (R367) -/
  | heartbeatTimer (pkg : Nat)
  /-- A candidate receives the Zenith peer's heartbeat. (R367) -/
  | heartbeat (pkg : Nat) (h : Beat)
  /-- A candidate misses three heartbeats and claims the role. (R367) -/
  | heartbeatLoss (pkg : Nat)
  /-- A claim message is received and the election is decided. (R367) -/
  | zenithClaim (pkg : Nat) (h : Beat)
  /-- A fabric horizon-table write from the Zenith peer is applied or discarded. (R368) -/
  | horizonTableWrite (pkg : Nat) (h : Beat) (index : Nat) (entry : BitVec 256)
  /-- At TIME minus 100 µs the incoming core part is copied into the in-slot. (R372) -/
  | horizonPrefill (pkg index : Nat)
  /-- At TIME the cores of an entry halt their contexts. (R371) -/
  | horizonFire (pkg index : Nat)
  /-- A packet for an absent generation is applied to a slot, logged or discarded. (R377) -/
  | lateArrival (c : CoreRef) (gen : Nat) (item : LateItem)
  /-- The PREEMPT budget runs out and the swap is forced. (R337) -/
  | preemptBudgetExpiry (c : CoreRef)
  /-- Packet creating, modifying or destroying a partition. (R394) -/
  | partset (q : QRef) (p : Packet)
  /-- Packet creating or destroying a job slot. (R395) -/
  | jobset (q : QRef) (p : Packet)
  /-- Packet creating or destroying a communicator. (R413) -/
  | commset (q : QRef) (p : Packet)
  /-- Packet making an express request. (R387) -/
  | express (q : QRef) (p : Packet)
  /-- Packet launching a grid as a glch from this package. (R413) -/
  | launch (q : QRef) (p : Packet)
  /-- Packet waiting until a sync word reaches a value. (R414) -/
  | waitsig (q : QRef) (p : Packet)
  /-- Packet waiting for all grids the queue launched to complete. (R413) -/
  | signal (q : QRef) (p : Packet)
  /-- A write to QTAIL makes packets available. (R411) -/
  | notify (q : QRef) (tail : Nat)
  /-- A write assigning and enabling a virtual function. (R409) -/
  | vfmapWrite (pkg f value : Nat)
  /-- Guest response resolving a first-stage fault. (R408) -/
  | xrespResolve (pkg fn token : Nat)
  /-- Guest response declining a first-stage fault. (R408) -/
  | xrespDecline (pkg fn token : Nat)
  /-- Hypervisor response resolving a second-stage fault. (R408) -/
  | hrespResolve (pkg token : Nat)
  /-- Hypervisor response declining a second-stage fault. (R408) -/
  | hrespDecline (pkg token : Nat)
  /-- MIGCTL operation saving a virtual function's queues. (R418) -/
  | save (pkg f : Nat)
  /-- MIGCTL operation restoring a virtual function from an image. (R418) -/
  | restore (pkg f : Nat)
  /-- A function-level reset of a virtual function. (R416) -/
  | functionLevelReset (pkg f : Nat)
  /-- A function-level reset of the physical function resetting every function. (R417) -/
  | pfFunctionLevelReset (pkg : Nat)
  /-- A 100 ms budget period ends and charges restart. (R396) -/
  | budgetPeriodEnd (pkg : Nat)
  /-- A channel controller serves a request by weighted fair queuing. (R397) -/
  | memoryRequestService (pkg ctrl : Nat)
  /-- A Moastinor output port arbitrates a flit among partitions. (R400) -/
  | portFlitArbitration (pkg port : Nat)
  /-- Patrol scrubbing reads a line. (R437) -/
  | patrolScrub (pkg : Nat) (line : Nat)
  /-- A correctable error is corrected, written back and counted. (R437) -/
  | correctableError (pkg : Nat) (r : ErrRec)
  /-- An uncorrectable error marks a location and its consumer acts. (R438) -/
  | uncorrectableError (pkg : Nat) (r : ErrRec)
  /-- A FATAL packet from another package is received. (R445) -/
  | fatalPacket (pkg sender : Nat)
  /-- PWRGOOD rises 10 ms after the last rail and the boot starts. (R459) -/
  | powerGood (pkg : Nat)
  /-- A rail falls below 90 % and asserts a cold reset. (R459) -/
  | railDrop (pkg rail : Nat)
  /-- Rails come up from off and everything resets. (R450) -/
  | coldReset (pkg : Nat)
  /-- RST_WARM_N held low resets the package except preserved state. (R450) -/
  | warmReset (pkg : Nat)
  /-- PERST_N asserted by the PCIe host resets as a warm reset. (R450) -/
  | perst (pkg : Nat)
  /-- SPDM request for versions. (R454) -/
  | getVersion (pkg : Nat)
  /-- SPDM request for capabilities. (R454) -/
  | getCapabilities (pkg : Nat)
  /-- SPDM request negotiating algorithms. (R454) -/
  | negotiateAlgorithms (pkg : Nat) (sig hash : Nat)
  /-- SPDM request for certificate digests. (R454) -/
  | getDigests (pkg : Nat)
  /-- SPDM request for the certificate chain. (R454) -/
  | getCertificate (pkg slot offset len : Nat)
  /-- SPDM challenge signed with the alias key. (R454) -/
  | challenge (pkg slot nonce : Nat)
  /-- SPDM request for MEAS0 to MEAS3. (R454) -/
  | getMeasurements (pkg index : Nat)
  /-- An unsupported SPDM request receives ERROR. (R454) -/
  | unsupportedRequest (pkg code : Nat)
  /-- A write of the aperture address starts an aperture read. (R457) -/
  | apaddr (pkg value : Nat)
  /-- I3C command performing a warm reset. (R457) -/
  | warm (pkg : Nat)
  /-- I3C command retiring the physical cluster named by CMDARG. (R457) -/
  | cmdRetire (pkg : Nat)
  /-- I3C command setting the TAI seconds of the next PPS_IN edge. (R457) -/
  | taisec (pkg : Nat)
  /-- A PPS_IN rising edge starts a second on a grandmaster. (R458) -/
  | ppsInEdge (pkg : Nat)
  /-- PPS_OUT rises at a whole second of pod time. (R458) -/
  | ppsOutSecond (pkg : Nat)
  /-- PPS_OUT falls 10 ms after it rose. (R458) -/
  | ppsOutFall (pkg : Nat)
  /-- Firmware throttles the arithmetic clock by a 1/16 step. (R460) -/
  | powerThrottle (pkg : Nat)
  /-- Power stays above the cap for 10 ms at the lowest step and the package goes fatal. (R460) -/
  | powerLimitTrip (pkg : Nat)
  /-- TEMP reaches 105 °C and the package goes fatal. (R460) -/
  | thermalTrip (pkg : Nat)
  /-- A partition's core-µs charge in the period reaches its TBUDGET or an ancestor's, and its queues and placements stop until the period ends. (R396) -/
  | partitionBudgetExhausted (pkg part : Nat)
  /-- The host die reads, writes or operates atomically on G, entering the modification order of the bytes. (R87) -/
  | hostDieAccess (pkg : Nat) (a : HostAccess)
  /-- The global scheduler core fails and the package goes fatal. (R442) -/
  | globalSchedulerCoreFailure (pkg : Nat)
  /-- Every Sync interval of 2^-7 s, the boundary clock sends two-step Sync on its master ports. (R364) -/
  | syncIntervalExpiry (pkg : Nat)
  /-- The I3C controller assigns the management engine a dynamic address in place of its static 0x3A. (R457) -/
  | dynamicAddressAssignment (pkg addr : Nat)
  deriving DecidableEq, Repr

end Sys2Proof
end

