-- ==== Sys2Proof/Machine/State.lean ====
section
/-! DEFINITION. The state of a pod of DT-8 packages as plain data, the reasons a step can stop, and the state
right after reset. Every structure names the rules that give it. -/

namespace Sys2Proof.Machine

/-- Bytes by address, addresses strictly rising, no entry 0 (an unlisted byte reads 0). -/
abbrev Mem := List Host.Cell

/-- Words by index, indices strictly rising, no entry 0. -/
abbrev Words := List (Nat × Word)

/-- Why a step stops with a fault. -/
inductive Fault where
  /-- raised by an instruction word's meaning when the issuing core has been stopped at once and waits for a reset
  (R443, R450); safe: a stopped core executes nothing -/
  | coreStopped
  deriving DecidableEq, Repr

/-- Why an instruction is refused. -/
inductive Refusal where
  /-- raised by Dispatch for an instruction without a meaning yet; safe -/
  | notModelled (mnemonic : String)
  /-- raised by an instruction word's meaning in a state in which no group is issuing, where no instruction can
  execute; safe: step never runs an instruction there -/
  | noIssuingGroup
  deriving DecidableEq, Repr

/-- A thread's status (R21). -/
inductive ThreadStatus where
  | none | grouped | seedbed | faulted | waitXlate | exited
  deriving DecidableEq, Repr

/-- A result owed to a register (R144, R146, R373): its first register and register count, the units of the
window still to issue, the value once it is there, and the request it comes from (0 for a load). -/
structure Owed where
  reg : Nat
  cnt : Nat
  left : Nat
  value : Option Nat
  id : Nat
  deriving DecidableEq, Repr

/-- What the instruction that a thread has begun still waits for (R40, R216, R228, R345). -/
inductive Pend where
  | none
  /-- a `phsg` or `phsw` whose signal waits for its phase, or is held for copies -/
  | signal (handle : Nat)
  /-- a `phwt` or `phsw` whose wait is pending -/
  | wait (handle : Nat)
  /-- a wait that has ended, with its result word (R225) -/
  | waited (result : Nat)
  /-- a request outstanding at its home -/
  | request (id : Nat)
  /-- the answer of a request that has arrived -/
  | answer (value : Nat)
  /-- this lane's part of the instruction is over -/
  | done
  deriving DecidableEq, Repr

/-- A thread's architectural state (R20, R383). `spare` holds the register-stack slots that a `wshr` has released and no window move has
written to the backing store yet (R49, R50); `obs` the binding changes that it has observed on each phaser, by
the phaser's number (R86); `sigAt` the `phsw` units whose signal has been counted while their wait has not ended, by
address and whether in a handler (R228); `entryRec` the record with which the thread entered its handler (R335); `arrNext` is the address after the unit with which it arrived at the barrier (R230). -/
structure Thread where
  tid : Nat
  status : ThreadStatus := .none
  pc : Nat := 0
  v : Words := []
  wb : Nat := 0
  c : Nat := 16
  links : Nat := 0
  pred : Nat := 0
  flags : Nat := 0
  rep : Nat := 0
  fault : FaultRec := {}
  age : Nat := 0
  aged : Bool := false
  selp : Nat := 0
  inHandler : Bool := false
  inPre : Bool := false
  yielded : Bool := false
  pbdiv : Option FaultRec := none
  pcan : Bool := false
  ppre : Bool := false
  preEvict : Bool := false
  sigAt : List (Nat × Bool) := []
  owed : List Owed := []
  pend : Pend := .none
  bstore : Nat := 0
  held : Option FaultRec := none
  xtoken : Option Nat := none
  known : List Nat := []
  obs : List (Nat × Nat) := []
  fenceRel : Bool := false
  lastReq : Nat := 0
  lastSeen : List Nat := []
  faultTrap : Nat := 0
  entryRec : FaultRec := {}
  entryLinks : Nat := 0
  spillPc : Option Nat := none
  spare : List (Nat × Nat) := []
  arrNext : Nat := 0
  deriving DecidableEq, Repr

/-- The causes of a stall or wait (R34, R40, R198). -/
inductive Stall where
  | none | result | phaser | binding | request | channel | copyQueue | mtxQueue | matrix | coop (value : Nat) | wgrow (m seq : Nat)
  | fill | spill | recall | vocab | drain | grid | chunk | merge | sleep | stage2 | background
  deriving DecidableEq, Repr

/-- The trap codes of R327. -/
inductive Code where
  | illegal | range | uniformity | barrier | misaligned | bound | kind | xlate | perm | shape | group | heap | phaser
  | stack | software | cancel | preempt | copyFault | bind | window
  deriving DecidableEq, Repr

/-- A trap that a thread takes: its code, detail, address, XPC, the PC of its record, the point that a handler
returns to, for a first-stage fault the KIND of its notice and the G address it holds, the group mask where it is not the whole group's, and the lane where a
group-wide check used another's operands. -/
structure TrapReq where
  tid : Nat
  code : Code
  detail : Nat := 0
  addr : Nat := 0
  xpc : Nat := 0
  pc : Nat
  ret : Nat
  kind : Nat := 0
  va : Nat := 0
  gmask : Option Nat := none
  lane : Option Nat := none
  deriving DecidableEq, Repr

/-- The hint words of a unit read so far (R136, R137): their number, the `hx` payloads in order, and the `hp`,
`hrep` and `hmod` fields. `act` holds the active lanes once the unit has begun to repeat (R201), `landed` whether
the results due at the unit have landed (R144), and `stalled` whether the unit has met a stall since (R145). `why` is the cause of the
unit's latest stall (R308); `traps` holds the traps of threads that have stopped in a repeating unit, and `issued` the pod time at which
that unit issued (R202, R338). -/
structure Hint where
  words : Nat := 0
  hx : List Nat := []
  hp : Option (Nat × Bool) := none
  hrep : Option (Nat × Nat × Nat × Nat) := none
  hmod : Option (Bool × Nat × Nat) := none
  act : Option (List Nat) := none
  landed : Bool := false
  stalled : Bool := false
  why : Stall := .none
  traps : List TrapReq := []
  issued : Option Nat := none
  deriving DecidableEq, Repr

/-- A group's scheduler state (R38). -/
inductive SState where
  | ready | running | stalled | waiting | pReady | pStalled | pWaiting
  deriving DecidableEq, Repr

/-- An issue group (R23-R41): its slot, scheduler, age rank, workgroup slot, members by lane, state, words of the
run, hint unit, stall, clk left and elapsed of a wait, whether it has run in this rotation and whether the rotation still waits for
its run (R39), whether the fill or spill that its unit waited for has come, whether its run is unfinished, when its last run ended, the
address of the `merge` it waits at (R34), the bytes of registers granted to its `wgrow` (R199), and when it last issued (R42). -/
structure Group where
  slot : Nat
  sched : Nat
  age : Nat
  wslot : Nat
  members : List Nat
  st : SState := .ready
  run : Nat := 0
  hint : Hint := {}
  stall : Stall := .none
  left : Nat := 0
  elapsed : Nat := 0
  ran : Bool := false
  mid : Bool := false
  endAt : Nat := 0
  fillOk : Bool := false
  due : Bool := false
  mergePc : Nat := 0
  granted : Nat := 0
  turn : Nat := 0
  deriving DecidableEq, Repr

/-- One member's allocation as the neighbourhood window shows it (R56, R57). -/
structure Member where
  core : Nat
  lbase : Nat
  lsize : Nat
  deriving DecidableEq, Repr

/-- A resident workgroup (R14, R57, R382); its thread `t` holds thread slot `tbase + t` of the core. `home` is the core on which its block was
placed, once its context stands on another (R185); `settled` tells that the end of its run has been dealt with (R303, R309), `counted` that it
counts as COMPLETED, and `firing` that its end fires the slots that it has not fired (R318); `cut` that its threads have been told of a CANCEL (R308). -/
structure Workgroup where
  slot : Nat
  grid : Nat
  block : Nat
  threads : List Thread := []
  tbase : Nat := 0
  shapes : List (Nat × BitVec 128) := []
  lbase : Nat := 0
  lsize : Nat := 0
  m : Nat := 0
  members : List Member := []
  home : Option CoreRef := none
  marked : List Nat := []
  relaunches : Nat := 0
  started : Bool := false
  cleared : Bool := false
  lost : Bool := false
  ended : Bool := false
  settled : Bool := false
  counted : Bool := false
  firing : Bool := false
  cancelled : Bool := false
  cut : Bool := false
  cfault : Bool := false
  deriving DecidableEq, Repr

/-- The state of a copy in the copy engine (R384). -/
inductive CopySt where
  | gated | active | ended
  deriving DecidableEq, Repr

/-- A copy (R231-R245, R384): its descriptor registers, bytes dealt with in order, its fault, the numbers of its counting
and gating phasers, and the bytes of lines it left unwritten for uncorrectable data. `own` orders the takings of line ownership (R91);
`ready` tells that the gate's phase has completed, with the binding changes its releases carried (R241); `snaps` holds the source lines read,
none for one that is uncorrectable (R89); `lines` the destination lines that a scatter has dealt with; `stuck` whether its latest access had
to wait. -/
structure CopyEntry where
  id : Nat
  wslot : Nat
  tid : Nat
  sub : Nat
  f : Nat
  x : Nat
  y : Nat
  desc : List Nat
  st : CopySt
  written : Nat := 0
  detail : Nat := 0
  faddr : Nat := 0
  pc : Nat := 0
  cnt : Option Nat := none
  gate : Option Nat := none
  lost : Bool := false
  lostBytes : Nat := 0
  reported : Bool := false
  own : Nat := 0
  ready : Bool := false
  acq : List Nat := []
  snaps : List (Nat × Option Nat) := []
  lines : List Nat := []
  stuck : Bool := false
  deriving DecidableEq, Repr

/-- A core's part of a tile (R269): its first row and rows, its first column and columns. -/
structure Part4 where
  m0 : Nat := 0
  mq : Nat := 0
  q0 : Nat := 0
  nq : Nat := 0
  deriving DecidableEq, Repr

/-- The kind of a sequencer entry with its captured operands (R253, R384). An `mlp` keeps the scale registers of every
lane, register `j` of lane `l` at `32 j + l`, and its number among the cooperative ones; an `mwt.sg` its threads with their
phasers' numbers. -/
inductive SeqOp where
  | mbld (b s c : BitVec 128) (p : Part4)
  | mzro (mask : Nat)
  | mlp (slot : Nat) (a b : BitVec 128) (n binc : Nat) (ainc : Int) (sel : Nat) (scales : Words) (p : Part4) (coop : Option Nat)
      (sbase : Nat)
  | mdrn (slot : Nat) (c : BitVec 128) (mode : Nat) (amax : Option Nat) (p : Part4) (coop : Bool)
  | mwtSg (signals : List (Nat × Nat))
  deriving DecidableEq, Repr

/-- A sequencer entry: its number, operation, issuing thread and unit, progress and running maximum (R384), and the
numbers of the copies that a drain and its merge count as (R267). `snaps` holds the source lines it has read (R261), `stuck` tells whether its
latest access had to wait, and `rel` that its merge is a release, with the binding changes it carries and the copies and atomics that hold it
(R217, R267). -/
structure SeqEntry where
  id : Nat
  op : SeqOp
  tid : Nat
  pc : Nat
  progress : Nat := 0
  rmax : Nat := 0
  copy : Nat := 0
  word : Nat := 0
  snaps : List (Nat × Option Nat) := []
  stuck : Bool := false
  rel : Option (List Nat × List Nat × List Nat) := none
  deriving DecidableEq, Repr

/-- The sequencer's state (R254). -/
inductive SeqSt where
  | idle | busy | partner | held
  deriving DecidableEq, Repr

/-- The matrix unit of a core (R246-R248, R254): its holder, the accumulator word of slot `k`, row `r`, column `c` at
`(128 k + r) 64 + c`, the B-store with 32 bytes a column and its side storage (scales kept as their difference from 0x7F),
the queue, a deferred fault, the cooperative set that stands and the value awaited, and the cooperative `mlp` entries
queued and completed (R270). -/
structure Matrix where
  holder : Option Nat := none
  acc : Words := []
  bdata : Mem := []
  bscale : Mem := []
  bout : Mem := []
  queue : List SeqEntry := []
  st : SeqSt := .idle
  fault : Option FaultRec := none
  coop : Option Nat := none
  coopWait : Option Nat := none
  cseq : Nat := 0
  cdone : Nat := 0
  deriving DecidableEq, Repr

/-- A hidden row's state in a projection (R276, R293); for a `vpjb` its final record's label slots, log2-normaliser and
number of labels (R291). -/
structure RowSt where
  m : Nat := 0
  s : Nat := 0
  lmax : Nat := 0
  lmask : Nat := 0
  rlo : Nat := 0
  rhi : Nat := 0
  llog : List Nat := []
  lidx : List Nat := []
  heap : List (Nat × Nat) := []
  nlab : Nat := 0
  lse : Nat := 0
  deriving DecidableEq, Repr

/-- A vocabulary instruction's phase (R384). -/
inductive VocSt where
  | none | active | suspended
  deriving DecidableEq, Repr

/-- The vocabulary state of a core (R287, R293, R384): whether a `vpjb` runs, the next block, the captured records (state
or final record, VW, VH, VPAR, the scale records of VW and VH, VDH, VDW), the rows, the issuing group and its lane 0, the
PC of the `vpj` and the address after it, whether a `vrsm` goes on with it, the lines of D and G read (R286), and once it has ended how: 0, or a
trap's code, detail and address. -/
structure Vocab where
  st : VocSt := .none
  back : Bool := false
  block : Nat := 0
  recs : List (BitVec 128) := []
  rows : List RowSt := []
  group : Nat := 0
  tid : Nat := 0
  pc : Nat := 0
  next : Nat := 0
  resumed : Bool := false
  snaps : List (Nat × Option Nat) := []
  result : Option (Nat × Nat × Nat) := none
  deriving DecidableEq, Repr

/-- A context's state as SYS instructions see it (R354); an EMPTY core has no context. -/
inductive CtxSt where
  | running | halting | halted
  deriving DecidableEq, Repr

/-- A core's context (R374). `kept` holds the translations that its engines keep until they end (R406): the agent, the
page and access, and the physical page; `formedAt` is the clk on which the former last built a group (R31); `express` tells that an express
pre-emption took the context off its core and it has not resumed since (R337); `vwait` is a vocabulary instruction that has passed its checks at
issue and waits for the sequencer, with the records it captured (R275, R285). -/
structure Ctx where
  gen : Nat
  cid : Nat
  st : CtxSt := .running
  wgs : List Workgroup := []
  groups : List Group := []
  copies : List CopyEntry := []
  mtx : Matrix := {}
  voc : Vocab := {}
  vwait : Option Vocab := none
  lmem : Mem := []
  rot : List Nat := [0, 0, 0, 0]
  saveHome : Nat := 0
  evicted : Bool := false
  forced : Bool := false
  express : Bool := false
  bgAway : Bool := false
  thalt : Nat := 0
  kept : List (Nat × Nat × Nat) := []
  formedAt : Option Nat := none
  deriving DecidableEq, Repr

/-- A context that stands in its save area (R374-R380): where it ran, its generation and CID, the address and the physical pages of
the area, its bytes as they were saved, and what of it the layout has no place for, as the machine keeps it. -/
structure Saved where
  core : CoreRef
  gen : Nat
  cid : Nat
  home : Nat
  pages : List Nat
  image : Mem
  shadow : Ctx
  deriving DecidableEq, Repr

/-- An entry of a core's translation cache for 64 KiB (R405): its address, intermediate and physical address, and the offset bits of
the page of each stage that it lies in. -/
structure TlbEntry where
  cid : Nat
  level : Nat
  page : Nat
  low1 : Nat
  ipa : Nat
  low2 : Nat
  pa : Nat
  r : Bool
  w : Bool
  x : Bool
  deriving DecidableEq, Repr

/-- What a core does with its context at a horizon or pre-emption in progress (R373, R376, R388): the table entry's incoming
generation and CID, whether it holds, and TIME; or the express job, whether it evicts, and the clk at which the budget is spent;
and whether the context that goes out was RUNNING. -/
inductive Swap where
  | none
  | horizon (ingen incid : Nat) (held : Bool) (at_ : Nat) (run : Bool)
  | express (cid : Nat) (evict : Bool) (limit : Nat) (run : Bool)
  deriving DecidableEq, Repr

/-- A core (R10, R354, R372, R387). `reserved` is the reservation of a `ctxs`; an in-slot that is filled while `inReady` is off holds the context
that comes to the core once the express job has left it (R390); `hznWait` lists the horizons that fell due while a pre-emption was in progress
(R388). -/
structure Core where
  at_ : CoreRef
  ctx : Option Ctx := none
  reserved : Bool := false
  inSlot : Option Ctx := none
  inReady : Bool := false
  outSlot : Option Ctx := none
  stalledDrain : Bool := false
  expSlot : Option Ctx := none
  victim : Bool := false
  swap : Swap := .none
  hznWait : List Nat := []
  tlb : List TlbEntry := []
  dtags : List (Nat × Nat) := []
  stags : List (Nat × Nat) := []
  counters : List (Nat × Nat) := []
  stopped : Bool := false
  deriving DecidableEq, Repr

/-- A phaser member (R220, R384): mode and pending mode as the bits of R224, with 0 pending for a
deregistration. -/
structure PhMember where
  t : ThreadRef
  grid : Nat
  mode : Nat
  change : Option Nat := none
  sp : Nat := 0
  wp : Nat := 0
  waiting : Bool := false
  sigWaiting : Bool := false
  deriving DecidableEq, Repr

/-- A phaser (R219-R223, R384). `uid` tells it from a later phaser of the same
handle; `owner` is the workgroup of a workgroup phaser, as core, generation and slot. `owed` counts the signals of departed members that are
held for copies (R90, R222); `carriedAt` holds the binding changes that the releases of each completed phase carried (R85). -/
structure Phaser where
  pkg : Nat
  die : Nat
  idx : Nat
  uid : Nat := 0
  handle : Nat
  grid : Nat
  owner : Option (CoreRef × Nat × Nat) := none
  phase : Nat := 0
  pending : Int := 0
  members : List PhMember := []
  departed : Nat := 0
  phexd : Bool := false
  opening : Bool := true
  marks : Nat := 0
  lastMarks : Nat := 0
  hist : List (Nat × Nat) := []
  fpc : Option Nat := none
  arrivals : List (Nat × List Nat) := []
  held : Bool := false
  owed : Nat := 0
  carriedAt : List (Nat × List Nat) := []
  curCarried : List Nat := []
  deriving DecidableEq, Repr

/-- Where an atomic, an access or a line of memory lies: D of a job on a die, L of a core's context, or physical G. -/
inductive Loc where
  | g (pa : Nat)
  | d (pkg die cid off : Nat)
  | l (core : CoreRef) (gen off : Nat)
  deriving DecidableEq, Repr

/-- One entry of a grid's binding table with its identity (R77, R78, R80). An entry of a `bind` holds where its
region begins and what it is bound to, resolved at the instruction (G by virtual address); a launch-record entry is
resolved for each copy and keeps the copies that changes have removed, as (copy, change). -/
structure BindEntry where
  id : Nat
  kind : Nat
  stride : Nat
  obj : Nat
  count : Nat
  size : Nat
  base : Nat
  launch : Bool
  where_ : ThreadRef
  at_ : Option Loc := none
  word : Option Loc := none
  ph : Option (Nat × Nat × Nat) := none
  removed : List (Nat × Nat) := []
  deriving DecidableEq, Repr

/-- A change of the binding table and the thread that made it (R83). -/
structure BindChange where
  id : Nat
  entry : Nat
  add : Bool
  by_ : ThreadRef
  deriving DecidableEq, Repr

/-- One lane of an aggregated atomic: thread index, operand, new value of a compare-and-swap, the old value it receives;
whether it releases, with the binding changes the release carries and the copies and earlier atomics that hold it; and whether it
acquires. -/
structure AtomLane where
  tid : Nat
  b : Nat
  w : Nat
  old : Nat := 0
  rel : Bool := false
  acq : Bool := false
  carries : List Nat := []
  copies : List Nat := []
  atoms : List Nat := []
  deriving DecidableEq, Repr

/-- What a request asks its home for (R210, R214, R312, R326, R355). -/
inductive ReqKind where
  | atomic (loc : Loc) (va : Nat) (n op ord : Nat) (lanes : List AtomLane) (amax : Bool)
  | bind (entry : BindEntry) | unbind (addr : Nat) (res : Loc)
  | launch (rec : Nat) (job : Nat) (level part : Nat) (pkg : Nat) (queue : Option (QRef × Packet))
  | halt (target : CoreRef) (gen : Nat)
  | value (v : Nat)
  deriving DecidableEq, Repr

/-- An outstanding request (R212, R216, R311, R345, R373) of a workgroup's threads; the home's answer once it has
been performed, the binding changes the atomic observed, and whether it waits for a promotion (R93). -/
structure Request where
  id : Nat
  t : ThreadRef
  kind : ReqKind
  answer : Option Nat := none
  seen : List Nat := []
  promote : Bool := false
  grid : Nat := 0
  deriving DecidableEq, Repr

/-- A synchronisation object (R72): a phaser by its home and index, or a sync word by its place and size. -/
inductive Obj where
  | ph (pkg die idx : Nat)
  | word (l : Loc) (size : Nat)
  deriving DecidableEq, Repr

/-- A release that has begun and is not yet complete (R85, R90, R92): its thread, the object it is on, the copies and atomics that hold it,
and the binding changes it carries. -/
structure Release where
  id : Nat
  t : ThreadRef
  obj : Obj
  copies : List Nat := []
  atoms : List Nat := []
  carries : List Nat := []
  deriving DecidableEq, Repr

/-- A sync word's identity (R72, R211) with the binding changes that releases on it have carried and the scope and
package of its latest release (R93). -/
structure SyncWord where
  loc : Loc
  size : Nat
  carried : List Nat := []
  pod : Bool := true
  pkg : Nat := 0
  rel : Nat := 0
  deriving DecidableEq, Repr

/-- An access that waits for a translation fault to be resolved or declined (R404, R407, R408). `stage` is 1 or 2;
`notified` tells whether its notice stands in a ring. -/
structure XWait where
  token : Nat
  t : ThreadRef
  engine : Bool
  stage : Nat
  part : Nat
  cid : Nat
  addr : Nat
  va : Nat
  kind : Nat
  time : Nat
  notified : Bool := false
  resolved : Bool := false
  declined : Bool := false
  deriving DecidableEq, Repr

/-- A launch record (R294). -/
structure LaunchRec where
  stkbase : Nat := 0
  rcba : Nat := 0
  caps : Nat := 0
  tbudget : Nat := 0
  thnd : Nat := 0
  phnd : Nat := 0
  fcap : Nat := 0
  npkg : Nat := 1
  ncoll : Nat := 0
  nbind : Nat := 0
  fdom : Nat := 0
  rcause : Nat := 0
  rmax : Nat := 0
  prio : Nat := 0
  cmode : Bool := false
  fpol : Bool := false
  after : Bool := false
  stream : Nat := 0
  sl : Nat := 1
  rstack : Nat := 256
  nbh : Nat := 1
  nbw : Nat := 1
  nbn : Nat := 1
  imgall : Bool := true
  wgsize : Nat := 32
  gz : Nat := 1
  gy : Nat := 1
  gx : Nat := 1
  pkgl : Nat := 0
  farea : Nat := 0
  ctab : Nat := 0
  btab : Nat := 0
  img : Nat := 0
  kimg : Nat := 0
  deriving DecidableEq, Repr

/-- A kernel header (R156). -/
structure Kernel where
  entry : Nat := 0x40
  codesize : Nat := 0
  datasize : Nat := 0
  allot : Nat := 16
  phasers : Nat := 0
  nbind : Nat := 0
  bindoff : Nat := 0
  dbytes : Nat := 0
  lbytes : Nat := 0
  caps : Nat := 0
  launchoff : Nat := 0
  deriving DecidableEq, Repr

/-- A region control block (R297, R298), with the ranges a dispatcher still holds to deal or place, the blocks whose first
start it has ordered, its share, and whether it has asked for more. -/
structure Node where
  self : Nat := 0
  parent : Nat := 0
  level : Nat := 0
  pkg : Nat := 0
  die : Nat := 0
  lo : Nat := 0
  hi : Nat := 0
  dealt : Nat := 0
  started : Nat := 0
  completed : Nat := 0
  faulted : Nat := 0
  cancelled : Nat := 0
  relaunched : Nat := 0
  cores : Nat := 0
  prio : Nat := 0
  fdom : Nat := 0
  ovr : Bool := false
  ccause : Nat := 0
  st : Nat := 0
  ranges : List (Nat × Nat) := []
  begun : Nat := 0
  share : Nat := 0
  asked : Bool := false
  deriving DecidableEq, Repr

/-- A collective binding entry (R316). -/
structure Coll where
  nch : Nat
  root : Nat
  chk : Nat
  efmt : Nat
  wfmt : Nat
  op : Nat
  comm : Nat
  dz : Nat
  dy : Nat
  dx : Nat
  dst : Nat
  src : Nat
  cseq : Nat := 0
  switch : Bool := false
  asked : Bool := false
  deriving DecidableEq, Repr

/-- A chunk of a binding (R325): its state code, the ranks whose engines have translated it with the pages found (access, page,
physical page), the ranks whose next step an engine has accepted, the sources read so far by rank, the ranks that have written
their destinations, and whether a translation failure lost it. -/
structure Chunk where
  b : Nat
  c : Nat
  st : Nat := 0
  translated : List Nat := []
  pages : List (Nat × Nat) := []
  accepted : List Nat := []
  src : List (Nat × Nat) := []
  written : List Nat := []
  xlost : Bool := false
  deriving DecidableEq, Repr

/-- A neighbourhood being placed or running on a die (R427, R429): its first block, the core and the physical L base of each
member, the members whose START has been answered OK, whether GO has been sent, and whether it is a relaunch. -/
structure Placed where
  first : Nat
  die : Nat
  pkg : Nat
  cores : List (Nat × Nat)
  ok : List Nat := []
  gone : Bool := false
  relaunch : Bool := false
  deriving DecidableEq, Repr

/-- A grid (R294-R309). `handle` is the physical address of its root node, which names it whatever the address under which
a job maps it; the faults gathered so far are the records written and dropped, the first fault, and the count of each
code (R305); `accepted` is the pod time of its acceptance. -/
structure Grid where
  handle : Nat
  lrec : LaunchRec := {}
  kern : Kernel := {}
  level : Nat := 0
  cid : Nat := 0
  gen : Nat := 0
  part : Nat := 0
  rootPkg : Nat := 0
  seq : Nat := 0
  pkgs : List Nat := []
  nodes : List Node := []
  binds : List BindEntry := []
  changes : List BindChange := []
  colls : List Coll := []
  chunks : List Chunk := []
  fires : List (Nat × Nat) := []
  placed : List Placed := []
  requeue : List Nat := []
  relaunches : List (Nat × Nat) := []
  ended : List Nat := []
  faultPkgs : List Nat := []
  complete : Bool := false
  counted : Bool := false
  queue : Option (QRef × Packet) := none
  nrec : Nat := 0
  ndrop : Nat := 0
  firstRec : Option FaultRec := none
  accepted : Nat := 0
  codes : List (Nat × Nat) := []
  deriving DecidableEq, Repr

/-- A partition across the pod (R391-R394) with its partition-scope CSRs (R347, R348). -/
structure Part where
  part : Nat
  parent : Nat
  depth : Nat
  s2root : Nat := 0
  ipaoff : Nat := 0
  ipalen : Nat := 0
  trapbGst : Nat := 0
  trapbHst : Nat := 0
  formMin : Nat := 8
  formAge : Nat := 256
  mergeWait : Nat := 64
  expr : Bool := false
  pbudget : Nat := 1400
  saveForced : Bool := false
  saveStalled : Bool := false
  deriving DecidableEq, Repr

/-- A partition's resources on one package (R391, R393), its charge of the period in units of 2^-16 core-ns and whether its budget
is spent (R396). -/
structure PartRes where
  part : Nat
  cores : Nat := 0
  dslice : List Nat := [0, 0, 0, 0]
  tbudget : Nat := 0
  hbmw : Nat := 1
  fabw : Nat := 1
  charge : Nat := 0
  spent : Bool := false
  deriving DecidableEq, Repr

/-- A job slot (R395). -/
structure Job where
  cid : Nat
  gen : Nat
  dunits : Nat
  evict : Bool
  s1root : Nat
  deriving DecidableEq, Repr

/-- A resident D allocation (R59, R386). -/
structure DAlloc where
  pkg : Nat
  die : Nat
  cid : Nat
  size : Nat
  deriving DecidableEq, Repr

/-- A communicator (R320, R323, R413). -/
structure Comm where
  part : Nat
  comm : Nat
  cls : Nat
  seed : Nat
  ranks : List Nat
  logbuf : Nat
  cseq : Nat := 0
  deriving DecidableEq, Repr

/-- A queue of a function (R410, R414). `busy` holds while its packet has not ended; `watch` is a pending
WAITSIG. -/
structure Queue where
  qbase : Nat := 0
  log2n : Nat := 0
  prio : Nat := 0
  en : Bool := false
  job : Nat := 0
  qhead : Nat := 0
  qtail : Nat := 0
  outOfRange : Bool := false
  rejected : Bool := false
  busy : Bool := false
  watch : Option (Packet × Nat × Nat) := none
  signal : Option Packet := none
  deriving DecidableEq, Repr

/-- A PCIe function (R409, R410). -/
structure Fn where
  fn : Nat
  vfmap : Nat := 0
  queues : List Queue := List.replicate 8 {}
  notdrop : Nat := 0
  frozen : Bool := false
  deriving DecidableEq, Repr

/-- The package clock's state (R366). -/
inductive ClockSt where
  | locked | holdover | free
  deriving DecidableEq, Repr

/-- The package clock and its part in the Zenith election (R364-R368): whole ns and fraction, state, consecutive good offset estimates,
the servo's rate in ppm, since when it holds over, the measured link delays, when the last Sync was sent, and whether the clock has been
LOCKED since the boot; then the candidate's mark and priority, whether it is the Zenith peer, the highest epoch seen with the pair of its
winner, when the last heartbeat was sent or heard, and the timetable's version. Instants are in ns since power-on. -/
structure Clock where
  ns : Nat := 0
  frac : Nat := 0
  st : ClockSt := .free
  good : Nat := 0
  slew : Int := 0
  heldAt : Nat := 0
  delays : List (Nat × Nat) := []
  syncAt : Nat := 0
  everLocked : Bool := false
  candidate : Bool := false
  prio : Nat := 0
  zenith : Bool := false
  epoch : Nat := 0
  best : Nat × Nat := (256, 512)
  beatAt : Nat := 0
  version : Nat := 0
  deriving DecidableEq, Repr

/-- The boot state of MSTAT (R451, R457). -/
inductive BootSt where
  | booting | ready | bootfail | fatal
  deriving DecidableEq, Repr

/-- The security and management engines (R450-R460): the boot, the measurements, the SPDM responder's state, the I3C registers, the PPS
input and output, the arithmetic clock's throttle, and whether the package is fatal. `rootPort` is the MODE strap (R456). -/
structure Mgmt where
  boot : BootSt := .booting
  code : Nat := 0
  meas : List Nat := [0, 0, 0, 0, 0, 0, 0, 0]
  frozen : Bool := false
  pcie : Bool := false
  recovery : Bool := false
  rootPort : Bool := false
  versionSeen : Bool := false
  negotiated : Bool := false
  i3caddr : Nat := 0x3A
  power : Nat := 0
  temp : Nat := 0
  apaddr : Nat := 0
  apdata : Nat := 0
  apbusy : Bool := false
  apstatus : Nat := 0
  cmdarg : Nat := 0
  cmdargh : Nat := 0
  tai : Option Nat := none
  ppsSeen : Bool := false
  ppsSec : Nat := 0
  ppsOut : Bool := false
  ppsRose : Nat := 0
  throttle : Nat := 0
  fatal : Bool := false
  deriving DecidableEq, Repr

/-- A partition's share at a memory channel or port (R397-R400): waiting requests and virtual finish time. -/
structure Share where
  part : Nat
  waiting : Nat := 0
  finish : Nat := 0
  deriving DecidableEq, Repr

/-- A Cumulus engine (R10, R323): accepted chunks waiting as (communicator's partition, communicator, grid, binding,
chunk, rank), the chunk in progress, the bytes reserved by each communicator, and for each class the place in the turn after the communicator last
served. -/
structure Engine where
  stack : Nat
  waiting : List (Nat × Nat × Nat × Nat × Nat × Nat) := []
  current : Option (Nat × Nat × Nat × Nat × Nat × Nat) := none
  used : List (Nat × Nat × Nat) := []
  lastComm : List (Nat × Nat) := []
  deriving DecidableEq, Repr

/-- A leaf controller's link and cluster (R421-R428, R434), with the times of its cluster's latest correctable errors and the storage
indices that have had an uncorrectable one (R433). -/
structure Leaf where
  die : Nat
  leaf : Nat
  logical : Option Nat
  missed : Nat := 0
  answered : Bool := true
  retired : Bool := false
  remapping : Bool := false
  corrected : List Nat := []
  bad : List Nat := []
  deriving DecidableEq, Repr

/-- A package (R10). `up16` is the time since its power-on in units of 2^-16 ns (R396). The horizon table holds entries as R369 lays them out, with
pre-fill or firing begun. -/
structure Package where
  id : Nat
  up16 : Nat := 0
  hznArm : Bool := false
  hznHold : Bool := false
  hzn : List (Nat × BitVec 256) := []
  hznBusy : List Nat := []
  clock : Clock := {}
  mgmt : Mgmt := {}
  parts : List PartRes := []
  fns : List Fn := []
  numVfs : Nat := 512
  migaddr : Nat := 0
  migFunc : Nat := 0
  migStatus : Nat := 0
  migBusy : Option (Nat × Nat) := none
  vtime : List (Nat × Nat) := []
  engines : List Engine := []
  leaves : List Leaf := []
  counters : List (Nat × Nat) := []
  dieCounters : List (Nat × Nat) := []
  errSeq : Nat := 0
  lastServed : Nat × Nat := (0, 0)
  budgetPeriod : Nat := 0
  pingAt : Nat := 0
  deriving DecidableEq, Repr

/-- The time since a package's power-on in whole ns. -/
def Package.up (p : Package) : Nat := p.up16 / 2 ^ 16

/-- Something the device shows the outside world: a result of a host read or atomic, a wake, an SPDM response, a
fatal indication or a PTP message (R87, R364, R443, R454). -/
inductive Output where
  | hostValue (pkg value : Nat)
  | spdm (pkg code : Nat) (payload : List Nat)
  | fatal (pkg : Nat)
  | ptpSync (pkg port : Nat)
  | heartbeat (b : Beat)
  | claim (b : Beat)
  | forwarded (pkg fn : Nat)
  deriving DecidableEq, Repr

/-- The whole machine. `agenda` holds the steps of the engines and the inputs from outside that have not happened
yet, oldest first; `cur` names the core and group slot that issue; `free` numbers the free values drawn so far. -/
structure State where
  packages : List Package
  cores : List Core := []
  grids : List Grid := []
  parts : List Part := []
  jobs : List Job := []
  dallocs : List DAlloc := []
  comms : List Comm := []
  phasers : List Phaser := []
  reqs : List Request := []
  releases : List Release := []
  syncs : List SyncWord := []
  xwaits : List XWait := []
  streams : List ((Nat × Nat) × Nat) := []
  switches : List (Nat × List (Nat × Nat × Nat)) := []
  saved : List Saved := []
  redirects : List ((Nat × Nat) × Option (Nat × Nat)) := []
  heldWakes : List (Nat × Nat) := []
  gmem : Mem := []
  dmem : Mem := []
  marks : List Nat := []
  channels : List ((Nat × Nat) × List Share) := []
  ports : List ((Nat × Nat) × List Share) := []
  agenda : List Instr := []
  cur : Option (CoreRef × Nat) := none
  clk : Nat := 0
  nextId : Nat := 1
  free : Nat := 0
  out : List Output := []
  deriving DecidableEq, Repr

/-- The 17 leaves of each die with the logical clusters they hold at reset: the spare, leaf 16, holds none (R10,
R421). -/
def resetLeaves : List Leaf :=
  (List.range 4).flatMap fun d => (List.range 17).map fun k => { die := d, leaf := k, logical := if k < 16 then some k else none }

/-- A package right after cold reset (R348, R366, R410, R440, R450, R451, R457): booting, nothing released. -/
def Package.reset (id : Nat) : Package :=
  { id := id, leaves := resetLeaves, engines := (List.range 12).map fun k => { stack := k } }

/-- The pod right after cold reset: one package, package 0 (how many packages a pod has is the installation's), in
state BOOTING, with no partition, job, grid or context, and memory with nothing listed. -/
def State.reset : State := { packages := [Package.reset 0] }

end Sys2Proof.Machine
end

