-- ==== Sys2Proof/Machine/Access.lean ====
section
/-! DEFINITION. Sparse maps in canonical form, memory, and the accessors of the parts of the state. -/

namespace Sys2Proof.Machine

/-! ### Sparse maps: keys strictly rising, no entry equal to the default -/

/-- The value at a key, the default where no entry stands. -/
def sget {α : Type} (d : α) : List (Nat × α) → Nat → α
  | [], _ => d
  | (k, v) :: rest, i => if k = i then v else if i < k then d else sget d rest i

/-- The map with one value changed, the canonical form kept. -/
def sset {α : Type} [DecidableEq α] (d : α) : List (Nat × α) → Nat → α → List (Nat × α)
  | [], i, x => if x = d then [] else [(i, x)]
  | (k, v) :: rest, i, x =>
    if i < k then (if x = d then (k, v) :: rest else (i, x) :: (k, v) :: rest)
    else if i = k then (if x = d then rest else (k, x) :: rest)
    else (k, v) :: sset d rest i x

/-- The map with every key of `[lo, lo + n)` back at the default. -/
def sclear {α : Type} (m : List (Nat × α)) (lo n : Nat) : List (Nat × α) := m.filter fun kv => !(lo ≤ kv.1 && kv.1 < lo + n)

/-- The canonical form of a sparse map. -/
abbrev SparseWf {α : Type} (d : α) (m : List (Nat × α)) : Prop :=
  m.Pairwise (fun a b => a.1 < b.1) ∧ ∀ kv ∈ m, kv.2 ≠ d

/-- The canonical form of a memory. -/
abbrev Memory.wf (m : Mem) : Prop := SparseWf (0 : Byte) m

/-- One byte of a memory. -/
def mbyte (m : Mem) (a : Nat) : Byte := sget 0 m a

/-- `n` bytes from `a` as a little-endian integer (R4). -/
def mread (m : Mem) (a : Nat) : Nat → Nat
  | 0 => 0
  | n + 1 => (mbyte m a).toNat + 256 * mread m (a + 1) n

/-- `n` bytes from `a` written with the low bytes of `v`, little-endian (R4). -/
def mwrite (m : Mem) (a : Nat) : Nat → Nat → Mem
  | 0, _ => m
  | n + 1, v => mwrite (sset 0 m a (BitVec.ofNat 8 v)) (a + 1) n (v / 256)

/-- A word of a sparse array of words. -/
def wget (m : Words) (i : Nat) : Nat := (sget (0 : Word) m i).toNat

/-- A sparse array of words with one word changed to the low 32 bits of `v`. -/
def wset (m : Words) (i v : Nat) : Words := sset (0 : Word) m i (BitVec.ofNat 32 v)

/-! ### Lists kept by key -/

/-- The list with the first element that satisfies `p` replaced, or `x` added at the end. -/
def upsert {α : Type} (p : α → Bool) (x : α) : List α → List α
  | [] => [x]
  | y :: ys => if p y then x :: ys else y :: upsert p x ys

/-- The list with `f` applied to every element that satisfies `p`. -/
def mapIf {α : Type} (p : α → Bool) (f : α → α) (l : List α) : List α := l.map fun y => if p y then f y else y

/-- The value a key has in a list of pairs, 0 where it has none. -/
def natAt (l : List (Nat × Nat)) (k : Nat) : Nat := sget 0 l k

/-- An element put into a list sorted by `le`, after its equals. -/
def insertBy {α : Type} (le : α → α → Bool) (x : α) : List α → List α
  | [] => [x]
  | y :: ys => if le y x then y :: insertBy le x ys else x :: y :: ys

/-- A list sorted by `le`, stably. -/
def sortBy {α : Type} (le : α → α → Bool) (l : List α) : List α := l.foldl (fun acc x => insertBy le x acc) []

/-- The element of a list that `lt` puts first, the earliest of equals. -/
def firstBy {α : Type} (lt : α → α → Bool) : List α → Option α
  | [] => none
  | x :: xs => some (xs.foldl (fun best y => if lt y best then y else best) x)

/-! ### The swap in progress on a core -/

/-- Whether the context that goes out was RUNNING as a swap began (R354). -/
def Swap.ran : Swap → Bool
  | .none => false
  | .horizon _ _ _ _ run => run
  | .express _ _ _ run => run

/-- A swap whose outgoing context is to resume RUNNING, or to stay HALTED. -/
def Swap.withRan (r : Bool) : Swap → Swap
  | .none => .none
  | .horizon g d held t _ => .horizon g d held t r
  | .express d ev limit _ => .express d ev limit r

/-- Whether the swap in progress on a core takes the context that stands there away: at a horizon that falls due while an express job holds the
core, it is the context of the express slot that goes (R390). -/
def Core.leaving (x : Core) : Bool :=
  match x.swap with
  | .none => false
  | .horizon _ _ _ _ _ => !x.victim
  | .express _ _ _ _ => true

/-- Whether the context of a core is HALTED (R354), also where it was so as a swap began that has still to be made. -/
def Core.isHalted (x : Core) (k : Ctx) : Bool := k.st == .halted && (!x.leaving || !x.swap.ran)

namespace State

/-! ### Agenda, numbers and counters -/

/-- Posts a step that may happen later. -/
def post (s : State) (i : Instr) : State := { s with agenda := s.agenda ++ [i] }

/-- Posts a step unless the same step is already there. -/
def postOnce (s : State) (i : Instr) : State := if i ∈ s.agenda then s else s.post i

/-- A number not used before. -/
def fresh (s : State) : Nat × State := (s.nextId, { s with nextId := s.nextId + 1 })

/-! ### Packages -/

/-- A package, as after reset where the state lists none of that number. -/
def pkg (s : State) (p : Nat) : Package := (s.packages.find? fun x => x.id == p).getD (Package.reset p)

/-- The state with one package replaced. -/
def setPkg (s : State) (x : Package) : State := { s with packages := upsert (fun y => y.id == x.id) x s.packages }

/-- The state with one package changed. -/
def modPkg (s : State) (p : Nat) (f : Package → Package) : State := s.setPkg (f (s.pkg p))

/-- Pod time as a package's clock gives it, in whole ns (R365). -/
def time (s : State) (p : Nat) : Nat := (s.pkg p).clock.ns

/-- A package-scope counter of R440 advanced, saturating. -/
def countPkg (s : State) (p off : Nat) : State :=
  s.modPkg p fun x => { x with counters := sset 0 x.counters off (min (natAt x.counters off + 1) (2 ^ 64 - 1)) }

/-- A die-scope counter of R440 advanced, saturating. -/
def countDie (s : State) (p die off : Nat) : State :=
  s.modPkg p fun x =>
    { x with dieCounters := sset 0 x.dieCounters (die * 0x1000 + off) (min (natAt x.dieCounters (die * 0x1000 + off) + 1) (2 ^ 64 - 1)) }

/-! ### Cores and contexts -/

/-- A core; one that the state does not list is EMPTY with empty slots. -/
def core (s : State) (c : CoreRef) : Core := (s.cores.find? fun x => x.at_ == c).getD { at_ := c }

/-- The state with one core replaced. -/
def setCore (s : State) (x : Core) : State := { s with cores := upsert (fun y => y.at_ == x.at_) x s.cores }

/-- The state with one core changed. -/
def modCore (s : State) (c : CoreRef) (f : Core → Core) : State := s.setCore (f (s.core c))

/-- The state with the context on a core changed, where there is one. -/
def modCtx (s : State) (c : CoreRef) (f : Ctx → Ctx) : State := s.modCore c fun x => { x with ctx := x.ctx.map f }

/-- A core-scope counter of R440 advanced by `n`, saturating. -/
def countCoreBy (s : State) (c : CoreRef) (off n : Nat) : State :=
  s.modCore c fun x => { x with counters := sset 0 x.counters off (min (natAt x.counters off + n) (2 ^ 64 - 1)) }

/-- A core-scope counter of R440 advanced by one. -/
def countCore (s : State) (c : CoreRef) (off : Nat) : State := s.countCoreBy c off 1

/-- The places of a core where a context may stand. -/
inductive Place where
  | active | inSlot | outSlot | expSlot
  deriving DecidableEq, Repr

/-- Where the context of a generation stands on a core (R377). -/
def place (s : State) (c : CoreRef) (gen : Nat) : Option Place :=
  let x := s.core c
  let has := fun (o : Option Ctx) => match o with
    | some k => k.gen == gen
    | none => false
  if has x.ctx then some .active else if has x.outSlot then some .outSlot
  else if has x.expSlot then some .expSlot else if has x.inSlot then some .inSlot else none

/-- The context of a generation at a core, wherever it stands there. -/
def ctxAt (s : State) (c : CoreRef) (gen : Nat) : Option Ctx :=
  let x := s.core c
  match s.place c gen with
  | some .active => x.ctx
  | some .inSlot => x.inSlot
  | some .outSlot => x.outSlot
  | some .expSlot => x.expSlot
  | none => none

/-- The context of a generation at a core changed, wherever it stands there. -/
def modCtxAt (s : State) (c : CoreRef) (gen : Nat) (f : Ctx → Ctx) : State :=
  match s.place c gen with
  | some .active => s.modCore c fun x => { x with ctx := x.ctx.map f }
  | some .inSlot => s.modCore c fun x => { x with inSlot := x.inSlot.map f }
  | some .outSlot => s.modCore c fun x => { x with outSlot := x.outSlot.map f }
  | some .expSlot => s.modCore c fun x => { x with expSlot := x.expSlot.map f }
  | none => s

end State

/-! ### Inside a context -/

namespace Ctx

/-- The workgroup in a slot. -/
def wg (k : Ctx) (w : Nat) : Option Workgroup := k.wgs.find? fun x => x.slot == w

/-- A workgroup changed. -/
def modWg (k : Ctx) (w : Nat) (f : Workgroup → Workgroup) : Ctx := { k with wgs := mapIf (fun x => x.slot == w) f k.wgs }

/-- The group in a slot. -/
def group (k : Ctx) (g : Nat) : Option Group := k.groups.find? fun x => x.slot == g

/-- A group changed. -/
def modGroup (k : Ctx) (g : Nat) (f : Group → Group) : Ctx := { k with groups := mapIf (fun x => x.slot == g) f k.groups }

/-- A group taken out of its slot. -/
def dropGroup (k : Ctx) (g : Nat) : Ctx := { k with groups := k.groups.filter fun x => x.slot != g }

/-- The group that a thread is a member of. -/
def groupOf (k : Ctx) (w t : Nat) : Option Group := k.groups.find? fun x => x.wslot == w && x.members.contains t

end Ctx

namespace Workgroup

/-- The thread of a local index. -/
def thread (w : Workgroup) (t : Nat) : Option Thread := w.threads.find? fun x => x.tid == t

/-- A thread changed. -/
def modThread (w : Workgroup) (t : Nat) (f : Thread → Thread) : Workgroup := { w with threads := mapIf (fun x => x.tid == t) f w.threads }

/-- A shape record; one never written is 0 (R249). -/
def shape (w : Workgroup) (h : Nat) : BitVec 128 := sget 0 w.shapes h

end Workgroup

namespace State

/-- A workgroup of the context on a core changed. -/
def modWg (s : State) (c : CoreRef) (w : Nat) (f : Workgroup → Workgroup) : State := s.modCtx c fun k => k.modWg w f

/-- A thread of the context on a core changed. -/
def modThread (s : State) (c : CoreRef) (w t : Nat) (f : Thread → Thread) : State := s.modWg c w fun x => x.modThread t f

/-- A group of the context on a core changed. -/
def modGroup (s : State) (c : CoreRef) (g : Nat) (f : Group → Group) : State := s.modCtx c fun k => k.modGroup g f

/-- The workgroup in a slot of the context on a core. -/
def wg (s : State) (c : CoreRef) (w : Nat) : Option Workgroup := (s.core c).ctx.bind fun k => k.wg w

/-- A thread of the context on a core. -/
def thread (s : State) (c : CoreRef) (w t : Nat) : Option Thread := (s.wg c w).bind fun x => x.thread t

/-- A thread named by a reference, wherever its context stands on its core. -/
def threadAt (s : State) (r : ThreadRef) : Option Thread :=
  (s.ctxAt r.core r.gen).bind fun k => (k.wg r.wslot).bind fun w => w.thread r.tid

/-- A thread named by a reference changed, wherever its context stands on its core. -/
def modThreadAt (s : State) (r : ThreadRef) (f : Thread → Thread) : State :=
  s.modCtxAt r.core r.gen fun k => k.modWg r.wslot fun w => w.modThread r.tid f

/-! ### Grids, partitions, jobs, phasers -/

/-- The grid of a handle (R297). -/
def grid (s : State) (h : Nat) : Option Grid := s.grids.find? fun x => x.handle == h

/-- A grid changed. -/
def modGrid (s : State) (h : Nat) (f : Grid → Grid) : State := { s with grids := mapIf (fun x => x.handle == h) f s.grids }

/-- A partition that exists. -/
def part (s : State) (p : Nat) : Option Part := s.parts.find? fun x => x.part == p

/-- A partition changed. -/
def modPart (s : State) (p : Nat) (f : Part → Part) : State := { s with parts := mapIf (fun x => x.part == p) f s.parts }

/-- A partition's resources on a package, none where it holds none there (R391). -/
def partRes (s : State) (pkg p : Nat) : PartRes := ((s.pkg pkg).parts.find? fun x => x.part == p).getD { part := p, hbmw := 0, fabw := 0 }

/-- A job slot that exists (R395). -/
def job (s : State) (cid : Nat) : Option Job := s.jobs.find? fun x => x.cid == cid

/-- The D allocation of a job on a die in bytes, 0 where it holds none (R59). -/
def dsize (s : State) (pkg die cid : Nat) : Nat :=
  match s.dallocs.find? fun x => x.pkg == pkg && x.die == die && x.cid == cid with
  | some a => a.size
  | none => 0

/-- The partition number of a CID (R395). -/
def partOfCid (cid : Nat) : Nat := cid / 4096

end State

/-! ### Where a byte lies -/

/-- The key of a byte of D in the store of all D allocations. -/
def dKey (pkg die cid off : Nat) : Nat := ((pkg * 4 + die) * 65536 + cid) * 2 ^ 32 + off

/-- A number for each location, so that lines of every store can be marked (R438). -/
def Loc.key : Loc → Nat
  | .g pa => pa
  | .d pk di cid o => 2 ^ 60 + dKey pk di cid o
  | .l cr gn o => 2 ^ 100 + (((cr.pkg * 4 + cr.die) * 64 + cr.core) * 65536 + gn) * 2 ^ 20 + o

/-- The 128-byte line of a location (R71). -/
def Loc.line (l : Loc) : Nat := l.key / 128

/-- A location `n` bytes further on in the same store. -/
def Loc.add : Loc → Nat → Loc
  | .g pa, n => .g (pa + n)
  | .d pk di cid o, n => .d pk di cid (o + n)
  | .l cr gn o, n => .l cr gn (o + n)

namespace State

/-- The memory a location lies in, and its address there. -/
def store (s : State) : Loc → Mem × Nat
  | .g pa => (s.gmem, pa)
  | .d p d c off => (s.dmem, dKey p d c off)
  | .l c gen off => (((s.ctxAt c gen).map fun k => k.lmem).getD [], off)

/-- `n` bytes at a location (`Mem` of R8). -/
def readLoc (s : State) (l : Loc) (n : Nat) : Nat := let (m, a) := s.store l; mread m a n

/-- Whether a location lies on a package that has gone fatal (R445). -/
def onFatal (s : State) (l : Loc) : Bool :=
  s.packages.any fun p => p.mgmt.fatal && p.id == match l with
    | .g pa => Config.homePackage pa
    | .d pk _ _ _ => pk
    | .l c _ _ => c.pkg

/-- Whether the line of a location is marked uncorrectable (R438), or counts as uncorrectable with its package (R445). -/
def marked (s : State) (l : Loc) : Bool := s.marks.contains l.line || s.onFatal l

/-- The marks after a write of `n` bytes: only a write of a whole line clears its mark (R438). -/
def unmark (s : State) (l : Loc) (n : Nat) : State :=
  if l.key % 128 = 0 ∧ 128 ≤ n then { s with marks := s.marks.filter fun x => x != l.line } else s

/-! ### The late-arrival log (R377, R378) -/

/-- The physical address of an offset of a save area. -/
def areaPa (pages : List Nat) (off : Nat) : Nat := (pages[off / 2 ^ 16]?).getD 0 + off % 2 ^ 16

/-- The save area of a context that is not at its core. -/
def savedOf (s : State) (c : CoreRef) (gen : Nat) : Option Saved := s.saved.find? fun v => v.core == c && v.gen == gen

/-- The context of a generation at a core, or as its save area stands for it. -/
def ctxAny (s : State) (c : CoreRef) (gen : Nat) : Option Ctx := (s.ctxAt c gen).or ((s.savedOf c gen).map fun v => v.shadow)

/-- A change of every context, wherever it stands. -/
def mapCtxs (s : State) (f : CoreRef → Ctx → Ctx) : State :=
  { s with
    cores := s.cores.map fun (x : Core) =>
      { x with ctx := x.ctx.map (f x.at_), inSlot := x.inSlot.map (f x.at_), outSlot := x.outSlot.map (f x.at_), expSlot := x.expSlot.map (f x.at_) },
    saved := s.saved.map fun (v : Saved) => { v with shadow := f v.core v.shadow } }

/-- A saved context changed. -/
def modSaved (s : State) (c : CoreRef) (gen : Nat) (f : Ctx → Ctx) : State :=
  { s with saved := mapIf (fun (v : Saved) => v.core == c && v.gen == gen) (fun (v : Saved) => { v with shadow := f v.shadow }) s.saved }

/-- A log entry's TYPE, TARGET, LEN and payload (R378). -/
def lateFields : LateItem → Nat × Nat × Nat × Nat
  | .line off data mask => (1, off, 160, data.foldr (fun (b : Byte) n => b.toNat + 256 * n) 0 % 2 ^ 1024 + 2 ^ 1024 * (mask % 2 ^ 128))
  | .result t r pair v => (2, t + r * 2 ^ 16, if pair then 8 else 4, if pair then v % 2 ^ 64 else v % 2 ^ 32)
  | .waitResult t w h v => (3, t + w * 2 ^ 16 + h * 2 ^ 32, 4, v % 2 ^ 32)

/-- A packet for a context that is away appended to the log of its save area; a packet for no context is discarded and counted
(R377). -/
def logItem (s : State) (c : CoreRef) (gen : Nat) (item : LateItem) : State :=
  match s.savedOf c gen with
  | none => s.countDie c.pkg c.die 0x1018
  | some v =>
    let len := mread s.gmem (areaPa v.pages 40) 4
    let (ty, target, n, pay) := lateFields item
    let size := 32 + roundUp n 32
    if 0x200000 < len + size then s
    else
      let all := ty * 2 ^ 56 + n * 2 ^ 96 + target % 2 ^ 64 * 2 ^ 128 + s.time c.pkg % 2 ^ 64 * 2 ^ 192 + pay * 2 ^ 256
      let m := (List.range (size / 32)).foldl (fun m i => mwrite m (areaPa v.pages (0x600000 + len + 32 * i)) 32 (all / 2 ^ (256 * i))) s.gmem
      { s with gmem := mwrite m (areaPa v.pages 40) 4 (len + size) }

/-- A write of `n` bytes of L of a context that is away, line by line. The fuel bounds the lines. -/
def logLines (s : State) (c : CoreRef) (gen : Nat) : Nat → Nat → Nat → Nat → State
  | 0, _, _, _ => s
  | fuel + 1, off, n, v =>
    if n == 0 then s
    else
      let o := off % 128
      let m := min n (128 - o)
      let data := (List.range 128).map fun i => BitVec.ofNat 8 (v * 2 ^ (8 * o) / 2 ^ (8 * i))
      (s.logItem c gen (.line (off - o) data ((2 ^ m - 1) * 2 ^ o))).logLines c gen fuel (off + m) (n - m) (v / 2 ^ (8 * m))

/-- Whether a place lies in L of a context that is not at its core: nothing reads it until it is back. -/
def away (s : State) : Loc → Bool
  | .l c gen _ => (s.place c gen).isNone
  | _ => false

/-- `n` bytes at a location written (R74); L of a context that is away by its log (R377). -/
def writeLoc (s : State) (l : Loc) (n v : Nat) : State :=
  let s := s.unmark l n
  match l with
  | .g pa => { s with gmem := mwrite s.gmem pa n v }
  | .d p d c off => { s with dmem := mwrite s.dmem (dKey p d c off) n v }
  | .l c gen off =>
    if (s.place c gen).isNone then s.logLines c gen (n / 128 + 2) off n v
    else s.modCtxAt c gen fun k => { k with lmem := mwrite k.lmem off n v }

/-- The result of a request for a thread whose context is away (R216, R373, R377): a result entry of its log, for the register that is owed
or for the instruction that waits. -/
def lateResult (s : State) (r : ThreadRef) (id v : Nat) : State :=
  match (s.savedOf r.core r.gen).bind fun x => (x.shadow.wg r.wslot).bind fun w => (w.thread r.tid).map fun t => (w, t) with
  | none => s.countDie r.core.pkg r.core.die 0x1018
  | some (w, t) =>
    match t.owed.find? fun o => o.id == id with
    | some o => s.logItem r.core r.gen (.result (w.tbase + r.tid) o.reg (o.cnt == 2) v)
    | none => s.logItem r.core r.gen (.result (w.tbase + r.tid) 0 (2 ^ 32 ≤ v) v)

end State

end Sys2Proof.Machine
end

