-- ==== Sys2Proof/Machine/Translate.lean ====
section
/-! DEFINITION. Two-stage translation, the translation caches, and the notice rings (R401-R408). -/

namespace Sys2Proof.Machine

/-- What an access does, as the KIND field of a notice names it (R407): a spill or fill writes or reads a frame. -/
inductive Acc where
  | read | write | atomic | fetch | spill | save | walk
  deriving DecidableEq, Repr

/-- The KIND code of R407. -/
def Acc.kind : Acc → Nat
  | .read => 0
  | .write => 1
  | .atomic => 2
  | .fetch => 3
  | .spill => 4
  | .save => 5
  | .walk => 6

/-- Whether the permissions of an entry or page suffice for an access (R404): a spill or fill needs R and W. -/
def Acc.allowed (a : Acc) (r w x : Bool) : Bool :=
  match a with
  | .read | .walk => r
  | .write | .save => w
  | .atomic | .spill => r && w
  | .fetch => x

/-- How a translation fails (R404): stage 1 invalid or malformed; a permission with its detail; stage 2 at an IPA,
with the KIND of its notice. -/
inductive XFail where
  | guest
  | perm (detail : Nat)
  | stage2 (ipa kind : Nat)
  deriving DecidableEq, Repr

/-- A page found by a walk: its address, the number of its offset bits, its permissions, and for a whole walk its intermediate address
and the offset bits of its second-stage page. -/
structure Leafed where
  addr : Nat
  low : Nat
  r : Bool
  w : Bool
  x : Bool
  ipa : Nat := 0
  low2 : Nat := 16
  deriving DecidableEq, Repr

/-- The lowest address bit that a table level indexes (R402). -/
def tableLow : Nat → Nat
  | 0 => 16
  | 1 => 21
  | 2 => 30
  | _ => 43

/-- The number of address bits that a table level indexes (R402). -/
def tableBits : Nat → Nat
  | 0 => 5
  | 1 => 9
  | _ => 13

/-- The alignment of a table of a level, as a power of two (R402). -/
def tableAlign : Nat → Nat
  | 0 => 8
  | 1 => 12
  | _ => 16

/-- Whether a table entry with V = 1 keeps the layout of R403 at its level. -/
def entryWf (level e : Nat) : Bool :=
  let leaf := bit e 1
  bits e 63 56 == 0 && bits e 7 5 == 0 && (level != 3 || !leaf) && (level != 0 || leaf) && (leaf || bits e 4 2 == 0) &&
    (bits e 55 8 * 256) % 2 ^ (if leaf then tableLow level else tableAlign (level - 1)) == 0

/-- A walk of one table and those below it (R402, R403). `rd` reads an entry; `bad` is the failure of an entry that
is invalid or malformed. -/
def walkTable (rd : Nat → Except XFail Nat) (bad : XFail) : Nat → Nat → Nat → Except XFail Leafed
  | 0, table, a => do
    let e ← rd (table + 8 * bits a 20 16)
    if bit e 0 && entryWf 0 e then .ok { addr := bits e 55 8 * 256, low := 16, r := bit e 2, w := bit e 3, x := bit e 4 } else .error bad
  | n + 1, table, a => do
    let e ← rd (table + 8 * bits a (tableLow (n + 1) + tableBits (n + 1) - 1) (tableLow (n + 1)))
    if !(bit e 0 && entryWf (n + 1) e) then .error bad
    else if bit e 1 then .ok { addr := bits e 55 8 * 256, low := tableLow (n + 1), r := bit e 2, w := bit e 3, x := bit e 4 }
    else walkTable rd bad n (bits e 55 8 * 256) a

/-- The address a page maps an address to. -/
def Leafed.map (l : Leafed) (a : Nat) : Nat := l.addr + a % 2 ^ l.low

namespace State

/-- The IPA of a partition in its top-level ancestor's space, and the ancestor's stage-2 root (R401): each level's
window is checked before its offset is added. The fuel is the depth limit of R392. -/
def topIpa (s : State) : Nat → Nat → Nat → Except XFail (Nat × Nat)
  | 0, _, _ => .error (.perm 9)
  | n + 1, p, ipa =>
    match s.part p with
    | none => .error (.perm 9)
    | some x =>
      if x.depth == 0 then .ok (x.s2root, ipa)
      else if ipa < x.ipalen * 2 ^ 30 then s.topIpa n x.parent (ipa + x.ipaoff * 2 ^ 30) else .error (.perm 9)

/-- A table entry as a walk reads it: uncorrectable data reads as V = 0 (R439). -/
def entryAtG (s : State) (pa : Nat) : Nat := if s.marked (.g pa) then 0 else s.readLoc (.g pa) 8

/-- Stage 2 for a partition (R401): the page and the physical address of an IPA. -/
def stage2 (s : State) (p ipa : Nat) (a : Acc) : Except XFail (Leafed × Nat) := do
  let (root, top) ← s.topIpa 3 p ipa
  let fail := XFail.stage2 ipa a.kind
  let l ← walkTable (fun e => .ok (s.entryAtG e)) fail 3 root top
  if a.allowed l.r l.w l.x then .ok (l, l.map top) else .error fail

/-- A whole walk for a level, CID and address (R401): the physical address and the permissions of both stages. -/
def walk (s : State) (level cid va : Nat) (a : Acc) : Except XFail Leafed := do
  let va := va % 2 ^ 56
  if 2 ≤ level then .ok { addr := va - va % 2 ^ 16, low := 16, r := true, w := true, x := true }
  else if level == 1 then
    let (l, pa) ← s.stage2 (partOfCid cid) va a
    .ok { addr := pa - pa % 2 ^ 16, low := 16, r := l.r, w := l.w, x := l.x, ipa := va - va % 2 ^ 16, low2 := l.low }
  else
    let root := ((s.job cid).map fun j => j.s1root).getD 0
    if root == 0 then .error .guest
    else
      let rd := fun e => do let (_, pa) ← s.stage2 (partOfCid cid) e .walk; .ok (s.entryAtG pa)
      let g ← walkTable rd .guest 3 root va
      if !a.allowed g.r g.w g.x then .error (.perm 0)
      else
        let (l, pa) ← s.stage2 (partOfCid cid) (g.map va) a
        .ok { addr := pa - pa % 2 ^ 16, low := g.low, r := g.r && l.r, w := g.w && l.w, x := g.x && l.x, ipa := g.map va - g.map va % 2 ^ 16, low2 := l.low }

/-- A core's translation of a G address (R401, R405): a cached translation that a table change has made stale may
still be used until a covering `tlbi`; a new one is cached. Levels HOST and ROM use the address as it is. -/
def xlate (s : State) (c : CoreRef) (level cid va : Nat) (a : Acc) : State × Except XFail Nat :=
  if 2 ≤ level then (s, .ok (va % 2 ^ 56))
  else
    let page := va % 2 ^ 56 / 2 ^ 16
    let fresh := s.walk level cid va a
    let hit := (s.core c).tlb.find? fun t => t.cid == cid && t.level == level && t.page == page
    let stale := match hit, fresh with
      | some t, .ok l => t.pa != l.addr && a.allowed t.r t.w t.x
      | some t, .error _ => a.allowed t.r t.w t.x
      | none, _ => false
    if stale && Config.staleTranslation s.free page then
      (s, .ok ((hit.map fun t => t.pa).getD 0 + va % 2 ^ 16))
    else
      match fresh with
      | .error f => (s, .error f)
      | .ok l =>
        let entry : TlbEntry := { cid := cid, level := level, page := page, low1 := l.low, ipa := l.ipa, low2 := l.low2, pa := l.addr, r := l.r, w := l.w, x := l.x }
        (s.modCore c fun x =>
          { x with tlb := (entry :: x.tlb.filter fun t => !(t.cid == cid && t.level == level && t.page == page)).take 256 },
         .ok (l.addr + va % 2 ^ 16))

/-- Whether a core's translation cache holds nothing for a G address, where the level translates at all (R40, R405). -/
def tlbMiss (s : State) (c : CoreRef) (level cid va : Nat) : Bool :=
  level < 2 && !(s.core c).tlb.any fun t => t.cid == cid && t.level == level && t.page == va % 2 ^ 56 / 2 ^ 16

/-! ### Requests at the channel controllers and ports (R397, R399, R400) -/

/-- The requests that a partition has waiting at a server of a list, which a package and a number name. -/
def shareLoad (l : List ((Nat × Nat) × List Share)) (srv : Nat × Nat) (part : Nat) : Nat :=
  (((l.find? fun x => x.1 == srv).bind fun x => x.2.find? fun y => y.part == part).map fun y => y.waiting).getD 0

/-- One more request of a partition at a server of a list. The queue holds 32 of them, and what it cannot hold waits at its requester and
follows as it drains (R397). -/
def shareAdd (l : List ((Nat × Nat) × List Share)) (srv : Nat × Nat) (part : Nat) : List ((Nat × Nat) × List Share) :=
  let q := ((l.find? fun x => x.1 == srv).map fun x => x.2).getD []
  let y := (q.find? fun y => y.part == part).getD { part := part }
  upsert (fun x => x.1 == srv) (srv, upsert (fun y => y.part == part) { y with waiting := y.waiting + 1 } q) l

/-- The channel controller of a physical address, with its home package. -/
def channelOf (pa : Nat) : Nat × Nat := (Config.homePackage pa, Config.channel pa % 384)

/-- Whether the queue of a partition at the channel controller of a physical address can take a request (R397). -/
def queueRoom (s : State) (part pa : Nat) : Bool := shareLoad s.channels (channelOf pa) part < 32

/-- A request for a line charged to a partition: at the channel controller of its physical address, and at the output port by which it leaves the
package that makes it (R399, R400). -/
def charge (s : State) (from_ part pa : Nat) : State :=
  let home := Config.homePackage pa
  { s with
    channels := shareAdd s.channels (channelOf pa) part,
    ports := if home == from_ then s.ports else shareAdd s.ports (from_, Config.outPort from_ home % 16) part }

/-- Requests charged for the lines of several physical addresses. -/
def chargeAll (s : State) (from_ part : Nat) (pas : List Nat) : State := pas.foldl (fun s pa => s.charge from_ part pa) s

/-- The table entries that a walk of a table and those below it reads. -/
def walkEntries (rd : Nat → Except XFail Nat) : Nat → Nat → Nat → List Nat
  | 0, table, a => [table + 8 * bits a 20 16]
  | n + 1, table, a =>
    let at_ := table + 8 * bits a (tableLow (n + 1) + tableBits (n + 1) - 1) (tableLow (n + 1))
    at_ :: match rd at_ with
      | .ok e => if bit e 0 && entryWf (n + 1) e && !bit e 1 then walkEntries rd n (bits e 55 8 * 256) a else []
      | .error _ => []

/-- The physical addresses of the second-stage entries that the walk of an IPA reads. -/
def stage2Reads (s : State) (p ipa : Nat) : List Nat :=
  match s.topIpa 3 p ipa with
  | .ok (root, top) => walkEntries (fun e => .ok (s.entryAtG e)) 3 root top
  | .error _ => []

/-- The physical addresses that a walk of both stages reads (R401). -/
def walkReads (s : State) (level cid va : Nat) : List Nat :=
  let part := partOfCid cid
  let va := va % 2 ^ 56
  let pa := fun (ipa : Nat) (a : Acc) => match s.stage2 part ipa a with
    | .ok x => [x.2]
    | .error _ => []
  if 2 ≤ level then []
  else if level == 1 then s.stage2Reads part va
  else
    let rd := fun e => do let (_, pa) ← s.stage2 part e .walk; .ok (s.entryAtG pa)
    let root := ((s.job cid).map fun j => j.s1root).getD 0
    if root == 0 then []
    else (walkEntries rd 3 root va).flatMap (fun e => s.stage2Reads part e ++ pa e .walk) ++
      match walkTable rd .guest 3 root va with
      | .ok g => s.stage2Reads part (g.map va)
      | .error _ => []

/-- The requests of a walk charged to the partition whose access it serves (R399). -/
def chargeWalk (s : State) (from_ level cid va : Nat) : State := s.chargeAll from_ (partOfCid cid) (s.walkReads level cid va)

/-- A request for a line charged to a partition, where the line lies in G: D and L have no channel. -/
def chargeLoc (s : State) (from_ part : Nat) : Loc → State
  | .g pa => s.charge from_ part pa
  | _ => s

/-- Whether the line of a place can be requested now (R397). -/
def locRoom (s : State) (part : Nat) : Loc → Bool
  | .g pa => s.queueRoom part pa
  | _ => true

/-! ### Notices (R407, R408) -/

/-- The top-level ancestor of a partition (R392, R401). -/
def topPart (s : State) : Nat → Nat → Nat
  | 0, p => p
  | n + 1, p =>
    match s.part p with
    | some x => if x.depth == 0 then p else s.topPart n x.parent
    | none => p

/-- The physical address of the ring that an access's notice goes to, if it has one: the partition's guest ring in
the guest's own mappings, or its top-level partition's hypervisor ring (R407). -/
def ringBase (s : State) (x : XWait) : Option Nat :=
  if x.stage == 1 then
    match s.part x.part with
    | some p => if p.trapbGst == 0 then none else
      match s.walk 1 (x.part * 4096) p.trapbGst .atomic with
      | .ok l => some (l.addr + p.trapbGst % 2 ^ 16)
      | .error _ => none
    | none => none
  else
    match s.part (s.topPart 3 x.part) with
    | some p => if p.trapbHst == 0 then none else some p.trapbHst
    | none => none

/-- The 64 bytes of a notice as an integer (R407). `tslot` is 0x7FF for an engine. -/
def noticeWord (s : State) (x : XWait) : Nat :=
  let tslot := if x.engine then 0x7FF else
    ((((s.ctxAt x.t.core x.t.gen).bind fun k => k.wg x.t.wslot).map fun w => w.tbase).getD 0 + x.t.tid) % 0x800
  x.addr % 2 ^ 64 * 2 ^ 448 + x.time % 2 ^ 64 * 2 ^ 384 + x.token % 2 ^ 32 * 2 ^ 352 + x.cid % 2 ^ 16 * 2 ^ 336 +
    x.t.core.pkg % 512 * 2 ^ 327 + x.t.core.die % 4 * 2 ^ 325 + x.t.core.core % 64 * 2 ^ 319 + tslot * 2 ^ 308 + x.kind % 16 * 2 ^ 304

/-- Whether two accesses' notices go to one ring. -/
def sameRing (s : State) (x y : XWait) : Bool :=
  x.stage == y.stage && (if x.stage == 1 then x.part == y.part else s.topPart 3 x.part == s.topPart 3 y.part)

/-- A waiting access's notice written into its ring, where the ring has room and no earlier notice of the ring
waits; PROD advances after the write (R407). Otherwise it is tried again later. -/
def tryNotify (s : State) (token : Nat) : State :=
  match s.xwaits.find? fun x => x.token == token with
  | none => s
  | some x =>
    if x.notified then s
    else
      let first := match s.xwaits.find? fun y => !y.notified && s.sameRing x y with
        | some y => y.token == token
        | none => true
      match s.ringBase x with
      | none => s.postOnce (.translationWalk token)
      | some base =>
        let prod := s.readLoc (.g base) 4
        let cons := s.readLoc (.g (base + 4)) 4
        if !first || (prod + 2 ^ 32 - cons) % 2 ^ 32 ≥ 256 then s.postOnce (.translationWalk token)
        else
          let s := s.writeLoc (.g (base + 128 + 64 * (prod % 256))) 64 (s.noticeWord x)
          let s := s.writeLoc (.g base) 4 ((prod + 1) % 2 ^ 32)
          { s with xwaits := mapIf (fun y => y.token == token) (fun y => { y with notified := true }) s.xwaits }

/-- A new waiting access with its notice. -/
def addWait (s : State) (x : XWait) : State :=
  let (token, s) := s.fresh
  let s := { s with xwaits := s.xwaits ++ [{ x with token := token % 2 ^ 32 }] }
  s.tryNotify (token % 2 ^ 32)

end State

end Sys2Proof.Machine
end

