-- ==== Sys2Proof/Machine/Space.lean ====
section
/-! DEFINITION. The memory spaces L, D, S and G: tagged addresses, bounds, frames, and the place a thread's access
reaches (R55-R71). -/

namespace Sys2Proof.Machine

/-! ### Trap codes (R327) -/

/-- The number of a trap code (R327). -/
def Code.num : Code → Nat
  | .illegal => 0x01
  | .range => 0x02
  | .uniformity => 0x03
  | .barrier => 0x04
  | .misaligned => 0x05
  | .bound => 0x06
  | .kind => 0x07
  | .xlate => 0x08
  | .perm => 0x09
  | .shape => 0x0A
  | .group => 0x0B
  | .heap => 0x0C
  | .phaser => 0x0D
  | .stack => 0x0E
  | .software => 0x10
  | .cancel => 0x11
  | .preempt => 0x12
  | .copyFault => 0x13
  | .bind => 0x15
  | .window => 0x16

/-! ### Places -/

/-- The offset of a place in its store. -/
def Loc.off : Loc → Nat
  | .g pa => pa
  | .d _ _ _ o => o
  | .l _ _ o => o

/-- Whether two places lie in one store. -/
def Loc.sameStore : Loc → Loc → Bool
  | .g _, .g _ => true
  | .d p1 d1 c1 _, .d p2 d2 c2 _ => p1 == p2 && d1 == d2 && c1 == c2
  | .l c1 g1 _, .l c2 g2 _ => c1 == c2 && g1 == g2
  | _, _ => false

/-- Whether two byte ranges share a byte. -/
def overlap (a : Loc) (n : Nat) (b : Loc) (m : Nat) : Bool := a.sameStore b && a.off < b.off + m && b.off < a.off + n

/-! ### Tagged addresses (R64) -/

/-- What a tagged address names: an L offset, a D offset on a die, an S offset, or a G virtual address. -/
inductive Tgt where
  | inL (off : Nat)
  | inD (die off : Nat)
  | inS (off : Nat)
  | inG (va : Nat)
  deriving DecidableEq, Repr

/-- The target of a tagged address for a thread of a die; none where R64 raises SPACE_KIND. -/
def parseTag (die a : Nat) : Option Tgt :=
  let sel := bits a 63 56
  if sel == 0 then some (.inG (bits a 55 0))
  else if sel == 0xF1 then (if bits a 55 32 == 0 then some (.inL (bits a 31 0)) else none)
  else if sel == 0xF2 then
    if bits a 55 35 != 0 then none
    else if bit a 34 then some (.inD (bits a 33 32) (bits a 31 0))
    else if bits a 33 32 == 0 then some (.inD die (bits a 31 0)) else none
  else if sel == 0xF3 then (if bits a 55 32 == 0 then some (.inS (bits a 31 0)) else none)
  else none

/-- The four spaces as a selector of an operand's permitted spaces (R66). -/
inductive Spc where
  | l | d | s | g
  deriving DecidableEq, Repr

/-- The space of a target. -/
def Tgt.spc : Tgt → Spc
  | .inL _ => .l
  | .inD _ _ => .d
  | .inS _ => .s
  | .inG _ => .g

/-- The offset of a target in its space. -/
def Tgt.off : Tgt → Nat
  | .inL o => o
  | .inD _ o => o
  | .inS o => o
  | .inG v => v

/-- A target `n` bytes on, modulo the size of its space (R69). -/
def Tgt.add : Tgt → Nat → Tgt
  | .inL o, n => .inL ((o + n) % 2 ^ 32)
  | .inD di o, n => .inD di ((o + n) % 2 ^ 32)
  | .inS o, n => .inS ((o + n) % 2 ^ 32)
  | .inG v, n => .inG ((v + n) % 2 ^ 64)

/-- The line of a target, by its space and offset. -/
def Tgt.lineNo : Tgt → Nat
  | .inL o => 4 * (o / 128)
  | .inD di o => 4 * (2 ^ 32 * di + o / 128) + 1
  | .inS o => 4 * (o / 128) + 2
  | .inG v => 4 * (v / 128) + 3

/-- The tagged address of a plain load or store's offset, whose space the opcode fixes (R70). -/
def plainTag : Spc → Nat → Nat
  | .l, o => 0xF1 * 2 ^ 56 + o
  | .d, o => 0xF2 * 2 ^ 56 + o
  | .s, o => 0xF3 * 2 ^ 56 + o
  | .g, o => o

/-! ### A thread in its place -/

/-- One lane of an issuing group, or a thread on whose behalf an engine acts: its name, lane number, thread, workgroup
and grid. -/
structure Lane where
  r : ThreadRef
  lane : Nat := 0
  t : Thread
  w : Workgroup
  g : Grid
  deriving DecidableEq, Repr

/-- Why an access stops: a trap with its detail and address (a first-stage fault carries the KIND of its notice), a
wait for the hypervisor, a line that a copy engine owns, or data that is uncorrectable. -/
inductive Stop where
  | trap (c : Code) (detail addr : Nat)
  | xguest (va kind addr : Nat)
  | stage2 (va ipa kind : Nat)
  | owned
  | lost
  deriving DecidableEq, Repr

namespace Grid

/-- Threads per workgroup, blocks of the grid, and FRAME in bytes (R63, R294). -/
def blocks (g : Grid) : Nat := g.lrec.gx * g.lrec.gy * g.lrec.gz
def frame (g : Grid) : Nat := g.lrec.sl * 4096 + roundUp (g.lrec.rstack * 4) 4096
/-- The frame of a thread of a block (R63). -/
def frameBase (g : Grid) (block tid : Nat) : Nat := g.lrec.stkbase + (block * g.lrec.wgsize + tid) * g.frame
/-- The backing store of a thread's register stack (R63). -/
def bstore (g : Grid) (block tid : Nat) : Nat := g.frameBase block tid + g.lrec.sl * 4096
/-- The S limit in bytes (R61). -/
def slimit (g : Grid) : Nat := g.lrec.sl * 4096

end Grid

namespace State

/-- The lane of a thread reference, wherever its context stands. -/
def laneOf (s : State) (r : ThreadRef) : Option Lane := do
  let k ← s.ctxAt r.core r.gen
  let w ← k.wg r.wslot
  let t ← w.thread r.tid
  let g ← s.grid w.grid
  pure { r := r, t := t, w := w, g := g }

/-- The allocation that an L offset names and the offset in it: core, physical base, size, offset (R56, R57). -/
def lWhere (ln : Lane) (off : Nat) : Option (Nat × Nat × Nat × Nat) :=
  if off < 0x1000000 then some (ln.r.core.core, ln.w.lbase, ln.w.lsize, off)
  else if 0x40000000 ≤ off && off < 0x58000000 then
    let m := (off - 0x40000000) / 0x1000000
    match ln.w.members[m]? with
    | some x => some (x.core, x.lbase, x.lsize, off % 0x1000000)
    | none => none
  else none

/-- Whether `n` bytes at an offset of L, D or S lie inside their allocation or limit (R56, R59, R61); G has no bound
here. -/
def inBound (s : State) (ln : Lane) (t : Tgt) (n : Nat) : Bool :=
  match t with
  | .inL o => match lWhere ln o with
    | some (_, _, size, off) => off + n ≤ size
    | none => false
  | .inD die o => o + n ≤ s.dsize ln.r.core.pkg die ln.g.cid
  | .inS o => o + n ≤ ln.g.slimit
  | .inG _ => true

/-- The place of a byte of L or D that lies inside its bound. -/
def placeLD (ln : Lane) : Tgt → Option Loc
  | .inL o => (lWhere ln o).map fun (core, base, _, off) =>
    .l { pkg := ln.r.core.pkg, die := ln.r.core.die, core := core } ln.r.gen (base + off)
  | .inD die o => some (.d ln.r.core.pkg die ln.g.cid o)
  | _ => none

/-- The G virtual address behind an S offset or a G target (R63). -/
def gva (ln : Lane) : Tgt → Nat
  | .inS o => ln.g.frameBase ln.w.block ln.r.tid + o
  | t => t.off

/-- The thread's wait for the hypervisor at an address that has been declined, if there is one (R408). -/
def declinedAt (s : State) (r : ThreadRef) (va : Nat) : Bool :=
  s.xwaits.any fun x => x.stage == 2 && !x.engine && x.t == r && x.va == va && x.declined

/-- A G address of a thread translated (R401, R404): the physical address, or why the access stops. `addr` is the
address a record of the failure carries. -/
def xlateFor (s : State) (ln : Lane) (va addr : Nat) (a : Acc) : State × Except Stop Nat :=
  if s.declinedAt ln.r va then (s, .error (.trap .perm 8 addr))
  else
    match s.xlate ln.r.core ln.g.level ln.g.cid va a with
    | (s, .ok pa) => (s, .ok pa)
    | (s, .error .guest) => (s, .error (.xguest va a.kind addr))
    | (s, .error (.perm d)) => (s, .error (.trap .perm d addr))
    | (s, .error (.stage2 ipa k)) => (s, .error (.stage2 va ipa k))

/-! ### Lines owned by copy engines (R91) -/

/-- The number of bytes that a copy writes (R235-R239). -/
def copyTotal (k : CopyEntry) : Nat :=
  let v := fun i => (k.desc[i]?).getD 0
  if k.sub == 0 || k.sub == 4 then v 0 else v 0 * v 1

/-- The number of bytes in one row or record of a copy. -/
def copyRow (k : CopyEntry) : Nat := (k.desc[0]?).getD 0

/-- The number of rows or records of a copy. -/
def copyRows (k : CopyEntry) : Nat := if k.sub == 0 || k.sub == 4 then 1 else (k.desc[1]?).getD 0

/-- The address of an index of a copy's list, as a tagged address (R232). -/
def copyIdx (k : CopyEntry) : Nat := (k.desc[2]?).getD 0 + 2 ^ 32 * (k.desc[3]?).getD 0

/-- The place of `t`'s byte for reading without any check, as an engine of the thread reads it: none where G is not
mapped. -/
def peek (s : State) (ln : Lane) (t : Tgt) (a : Acc) : Option Loc :=
  match t with
  | .inL _ | .inD _ _ => if s.inBound ln t 1 then placeLD ln t else none
  | _ => match s.walk ln.g.level ln.g.cid (gva ln t) a with
    | .ok l => some (.g (l.addr + gva ln t % 2 ^ 16))
    | .error _ => none

/-- A copy's snapshot of the line of a place, where it has read it: none inside for a line that was uncorrectable (R89, R244). -/
def snapAt (k : CopyEntry) (l : Loc) : Option (Option Nat) := (k.snaps.find? fun x => x.1 == l.line).map fun x => x.2

/-- Index `i` of a copy's index list: from its snapshot of the line where it has one (R89, R237). -/
def copyIndex (s : State) (ln : Lane) (k : CopyEntry) (i : Nat) : Nat :=
  match parseTag ln.r.core.die (copyIdx k) with
  | some t => match s.peek ln (t.add (4 * i)) .read with
    | some l => match snapAt k l with
      | some (some v) => v / 2 ^ (8 * (l.off % 128)) % 2 ^ 32
      | _ => s.readLoc l 4
    | none => 0
  | none => 0

/-- The start of a copy's destination row or record `i` as a target (R235-R239). -/
def copyDstRow (s : State) (ln : Lane) (k : CopyEntry) (i : Nat) : Option Tgt :=
  let v := fun j => (k.desc[j]?).getD 0
  (parseTag ln.r.core.die k.x).map fun t =>
    if k.sub == 1 then t.add (i * v 2)
    else if k.sub == 2 then t.add (i * v 0)
    else if k.sub == 3 then t.add (s.copyIndex ln k i * v 0)
    else t

/-- The start of a copy's source row or record `i` as a target (R235-R239). -/
def copySrcRow (s : State) (ln : Lane) (k : CopyEntry) (i : Nat) : Option Tgt :=
  let v := fun j => (k.desc[j]?).getD 0
  (parseTag ln.r.core.die k.y).map fun t =>
    if k.sub == 1 then t.add (i * v 3)
    else if k.sub == 2 then t.add (s.copyIndex ln k i * v 0)
    else if k.sub == 3 then t.add (i * v 0)
    else t

/-- The pieces of a row of a destination, one for each line it meets: the offset in the row and the length. -/
def rowPieces (t : Tgt) (row : Nat) : List (Nat × Nat) :=
  let first := 128 - t.off % 128
  (List.range (row / 128 + 2)).filterMap fun j =>
    let o := if j == 0 then 0 else first + 128 * (j - 1)
    if o < row then some (o, min row (first + 128 * j) - o) else none

/-- The destination ranges of a copy, as targets with lengths: what a release is held for (R90). -/
def copyRanges (s : State) (ln : Lane) (k : CopyEntry) : List (Tgt × Nat) :=
  (List.range (copyRows k)).filterMap fun i => (s.copyDstRow ln k i).map fun t => (t, copyRow k)

/-- The destination ranges of a copy that it has still to write: whose lines the engine owns (R91). -/
def copyDst (s : State) (ln : Lane) (k : CopyEntry) : List (Tgt × Nat) :=
  let row := copyRow k
  (List.range (copyRows k)).flatMap fun i =>
    match s.copyDstRow ln k i with
    | none => []
    | some t =>
      if k.sub == 3 then (rowPieces t row).filterMap fun p => if k.lines.contains (t.add p.1).lineNo then none else some (t.add p.1, p.2)
      else
        let done := min row (k.written - min k.written (i * row))
        if done < row then [(t.add done, row - done)] else []

/-- Whether a line of a place lies in a range of the destination that a copy has still to write. -/
def ownsLine (s : State) (ln : Lane) (k : CopyEntry) (l : Loc) : Bool :=
  (s.copyDst ln k).any fun (t, n) =>
    (List.range (n / 128 + 2)).any fun j =>
      let o := min (128 * j) (n - 1)
      match s.peek ln (t.add o) .write with
      | some x => x.line == l.line
      | none => false

/-- The thread of a copy as a lane: a copy outlives its thread's exit but not its workgroup's record. -/
def copyLane (s : State) (c : CoreRef) (gen : Nat) (k : CopyEntry) : Option Lane :=
  s.laneOf { core := c, gen := gen, wslot := k.wslot, tid := k.tid }

/-- Whether a copy that has not ended has still to write into a line. -/
def coversLine (s : State) (c : CoreRef) (k : Ctx) (e : CopyEntry) (l : Loc) : Bool :=
  e.st != .ended && match s.copyLane c k.gen e with
    | some ln => s.ownsLine ln e l
    | none => false

/-- Whether a copy stands behind an earlier copy of its thread into a line, gated or not: they write it in program order (R240). -/
def standsBehind (s : State) (c : CoreRef) (k : Ctx) (e : CopyEntry) (l : Loc) : Bool :=
  k.copies.any fun o => o.id < e.id && o.wslot == e.wslot && o.tid == e.tid && s.coversLine c k o l

/-- Whether a copy owns a line (R91): it is in progress and has still to write it, on a core that has not halted, and follows no earlier copy
of its thread into it. -/
def holdsLine (s : State) (c : CoreRef) (k : Ctx) (e : CopyEntry) (l : Loc) : Bool :=
  k.st != .halted && e.st == .active && s.coversLine c k e l && !s.standsBehind c k e l

/-- Whether an agent's access to a line waits: a copy owns it, or a copy of the accessing thread itself, gated or not, has still to write it
(R89, R91). -/
def lineOwned (s : State) (by_ : Option ThreadRef) (l : Loc) : Bool :=
  s.cores.any fun x =>
    match x.ctx with
    | none => false
    | some k => k.copies.any fun cp =>
      s.holdsLine x.at_ k cp l || (by_ == some { core := x.at_, gen := k.gen, wslot := cp.wslot, tid := cp.tid } && s.coversLine x.at_ k cp l)

/-- Whether a thread has an atomic outstanding on bytes of a place: its own later accesses to them wait (R75). -/
def ownAtomic (s : State) (r : ThreadRef) (l : Loc) (n before : Nat) : Bool :=
  s.reqs.any fun q => q.id < before && q.answer.isNone && q.t.core == r.core && q.t.gen == r.gen && q.t.wslot == r.wslot &&
    match q.kind with
    | .atomic loc _ m _ _ lanes _ => overlap loc m l n && lanes.any fun x => x.tid == r.tid
    | _ => false

/-! ### The access of a thread -/

/-- The place that a thread's access of `n` bytes reaches, after the checks of R69 in their order: alignment, bound,
translation and permission; then the wait for a line that a copy engine owns, and the refusal of uncorrectable data
on a read. `addr` is the tagged address a record carries. -/
def reach (s : State) (ln : Lane) (t : Tgt) (addr n : Nat) (a : Acc) : State × Except Stop Loc :=
  if t.off % n != 0 then (s, .error (.trap .misaligned 0 addr))
  else if !s.inBound ln t n then (s, .error (.trap .bound 0 addr))
  else
    let r : State × Except Stop Loc := match placeLD ln t with
      | some l => (s, .ok l)
      | none =>
        match s.xlateFor ln (gva ln t) addr a with
        | (s, .ok pa) => (s, .ok (.g pa))
        | (s, .error e) => (s, .error e)
    match r with
    | (s, .error e) => (s, .error e)
    | (s, .ok l) =>
      if (a != .write && s.away l) || s.lineOwned (some ln.r) l || (a != .atomic && s.ownAtomic ln.r l n s.nextId) then (s, .error .owned)
      else if a != .write && s.marked l then (s, .error .lost)
      else (s, .ok l)

/-! ### The register stack's backing store (R46, R50) -/

/-- The physical address of a register-stack slot of a thread, or why it cannot be reached. -/
def slotAt (s : State) (ln : Lane) (slot : Nat) : State × Except Stop Nat :=
  let va := ln.g.bstore ln.w.block ln.r.tid + 4 * slot
  s.xlateFor ln va va .spill

/-- Slots written to the backing store, lowest first; stops at the first that cannot be reached. -/
def spill (s : State) (ln : Lane) : List (Nat × Nat) → State × Except Stop Unit
  | [] => (s, .ok ())
  | (slot, v) :: rest =>
    match s.slotAt ln slot with
    | (s, .error e) => (s, .error e)
    | (s, .ok pa) => (s.writeLoc (.g pa) 4 v).spill ln rest

/-- Slots read back from the backing store. -/
def fill (s : State) (ln : Lane) : List Nat → State × Except Stop (List (Nat × Nat))
  | [] => (s, .ok [])
  | slot :: rest =>
    match s.slotAt ln slot with
    | (s, .error e) => (s, .error e)
    | (s, .ok pa) =>
      if s.marked (.g pa) then (s, .error .lost)
      else
        match s.fill ln rest with
        | (s, .error e) => (s, .error e)
        | (s, .ok l) => (s, .ok ((slot, s.readLoc (.g pa) 4) :: l))

/-- The requests of slots of a thread's register stack, charged by the line (R399). -/
def chargeSlots (s : State) (ln : Lane) (slots : List Nat) : State :=
  let vas := (slots.map fun n => (ln.g.bstore ln.w.block ln.r.tid + 4 * n) / 128).eraseDups
  s.chargeAll ln.r.core.pkg ln.g.part (vas.filterMap fun l => (s.walk ln.g.level ln.g.cid (128 * l) .spill).toOption.map fun x => x.addr + 128 * l % 2 ^ 16)

/-- A thread's window moved to a new base and allotment: slots that leave it are spilled, with those that a `wshr` has released, slots
that enter it are filled, and the rest stay (R47-R50). -/
def moveWindow (s : State) (ln : Lane) (wb c : Nat) : State × Except Stop Thread :=
  let t := ln.t
  let old := (List.range t.c).map (fun i => (t.wb + i, wget t.v i)) ++ t.spare
  let out := old.filter fun p => !(wb ≤ p.1 && p.1 < wb + c)
  let need := ((List.range c).map fun i => wb + i).filter fun x => !old.any fun p => p.1 == x
  match s.fill ln need with
  | (s, .error e) => (s, .error e)
  | (s, .ok got) =>
    match s.spill ln out with
    | (s, .error e) => (s, .error e)
    | (s, .ok ()) =>
      let s := if out.isEmpty && need.isEmpty then s else s.countCoreBy ln.r.core 0 ((if out.isEmpty then 0 else 1) + if need.isEmpty then 0 else 1)
      let s := s.chargeSlots ln (need ++ out.map Prod.fst)
      let v := (List.range c).foldl (fun (m : Words) i =>
        let slot := wb + i
        wset m i (match (old ++ got).find? fun p => p.1 == slot with
          | some p => p.2
          | none => 0)) []
      (s, .ok { t with v := v, wb := wb, c := c, spare := [] })

/-- The bottom slot of a thread's link stack: the lowest slot that its link entries occupy, or the number of slots
when it has none (R46). -/
def linkBottom (g : Grid) (t : Thread) : Nat := g.lrec.rstack - 4 * t.links

/-- A link entry pushed: the return PC, the shift and a word of zero (R46). -/
def pushLink (s : State) (ln : Lane) (t : Thread) (pc n : Nat) : State × Except Stop Thread :=
  let base := linkBottom ln.g t - 4
  match s.spill ln [(base, pc % 2 ^ 32), (base + 1, pc / 2 ^ 32), (base + 2, n), (base + 3, 0)] with
  | (s, .error e) => (s, .error e)
  | (s, .ok ()) => (s, .ok { t with links := t.links + 1 })

/-- The top link entry: its return PC and shift. -/
def topLink (s : State) (ln : Lane) (t : Thread) : State × Except Stop (Nat × Nat) :=
  let base := linkBottom ln.g t
  match s.fill ln [base, base + 1, base + 2] with
  | (s, .error e) => (s, .error e)
  | (s, .ok got) => (s, .ok (natAt got base + 2 ^ 32 * natAt got (base + 1), natAt got (base + 2)))

end State

end Sys2Proof.Machine
end

