-- ==== Sys2Proof/Machine/Bindings.lean ====
section
/-! DEFINITION. Binding tables: entries, threads' views of them, and what a release on an object is held for
(R77-R86, R90). -/

namespace Sys2Proof.Machine

/-- The place of a target, G by its virtual address; none for S and for an address that names nothing. -/
def bindLoc (ln : Lane) (t : Tgt) : Option Loc :=
  match t with
  | .inG va => some (.g va)
  | .inS _ => none
  | _ => State.placeLD ln t

/-- The record of an entry that is bound to the sync word at `w`, when the word of record 0 is at `w0` (R77). -/
def recordOf (e : BindEntry) (w0 w : Loc) : Option Nat :=
  if !w0.sameStore w || w.off < w0.off then none
  else if w.off == w0.off then some 0
  else if e.stride == 0 || (w.off - w0.off) % e.stride != 0 then none
  else if (w.off - w0.off) / e.stride < e.count then some ((w.off - w0.off) / e.stride) else none

/-- The size of an entry's sync words. -/
def BindEntry.wordSize (e : BindEntry) : Nat := if e.kind == 1 then 4 else 8

/-- The bytes of a resolved entry that are bound to an object: a start and a length (R77). -/
def BindEntry.part (e : BindEntry) (base : Loc) (word : Option Loc) (ph : Option (Nat × Nat × Nat)) (o : Obj) : Option (Loc × Nat) :=
  match o with
  | .ph p di i => if e.kind == 0 && ph == some (p, di, i) then some (base, e.count * e.size) else none
  | .word l n =>
    if e.kind == 0 || e.wordSize != n then none
    else word.bind fun w0 => (recordOf e w0 l).map fun i => (base.add (i * e.size), e.size)

/-- The number of a copy of a launch-record entry: of a workgroup by its block, of a die, or the one copy in G. -/
def copyOfBlock (block : Nat) : Nat := block
def copyOfDie (pkg die : Nat) : Nat := 2 ^ 32 + pkg * 4 + die
def copyOfG : Nat := 2 ^ 40

namespace State

/-- The phaser of a workgroup's handle (R219). -/
def wgPhaser (s : State) (c : CoreRef) (gen wslot h : Nat) : Option Phaser :=
  s.phasers.find? fun p => p.owner == some (c, gen, wslot) && p.handle == h

/-- A grid phaser by its handle (R219). -/
def gridPhaser (s : State) (grid h : Nat) : Option Phaser :=
  s.phasers.find? fun p => p.owner == none && p.grid == grid && p.handle == h

/-- The resident workgroup of a grid whose allocation holds an L place. -/
def lOwner (s : State) (grid : Nat) (c : CoreRef) (gen off : Nat) : Option Workgroup :=
  (s.ctxAny c gen).bind fun k => k.wgs.find? fun w => w.grid == grid && !w.ended && w.lbase ≤ off && off < w.lbase + w.lsize

/-- A launch-record entry as it stands for the copy at a place: its base, word, phaser, and the copy's number (R80). DESIGN CHOICE (log 82): a
die-tagged D word of an entry whose region lies in G is on the grid's root package. -/
def launchCopy (s : State) (g : Grid) (e : BindEntry) (at_ : Loc) : Option (Loc × Option Loc × Option (Nat × Nat × Nat) × Nat) :=
  match parseTag 4 e.base, at_ with
  | some (.inL b), .l c gen off =>
    match s.lOwner g.handle c gen off with
    | none => none
    | some w =>
      let word := if e.kind == 0 then none else
        (parseTag c.die e.obj).bind fun t => match t with
          | .inD di o => some (.d c.pkg di g.cid o)
          | .inG va => some (.g va)
          | _ => none
      let ph := if e.kind == 0 then (s.wgPhaser c gen w.slot e.obj).map fun p => (p.pkg, p.die, p.idx) else none
      some (.l c gen (w.lbase + b), word, ph, copyOfBlock w.block)
  | some (.inD dn b), .d p di cid _ =>
    if dn != 4 && dn != di then none
    else
      let word := (parseTag di e.obj).bind fun t => match t with
        | .inD dd o => some (.d p dd cid o)
        | .inG va => some (.g va)
        | _ => none
      some (.d p di cid b, word, none, copyOfDie p di)
  | some (.inG b), .g _ =>
    let word := (parseTag 4 e.obj).bind fun t => match t with
      | .inG va => some (.g va)
      | .inD dd o => if dd == 4 then none else some (.d g.rootPkg dd g.cid o)
      | _ => none
    some (.g b, word, none, copyOfG)
  | _, _ => none

/-- An entry as it stands at a place for a set of known changes, or for all changes where `known` is none: its base,
word and phaser, when it exists there (R80, R83). -/
def entryAt (s : State) (g : Grid) (known : Option (List Nat)) (e : BindEntry) (at_ : Loc) :
    Option (Loc × Option Loc × Option (Nat × Nat × Nat)) :=
  let seen := fun id => match known with
    | some l => l.contains id
    | none => true
  if e.launch then
    match s.launchCopy g e at_ with
    | some (b, w, p, n) => if e.removed.any fun r => r.1 == n && seen r.2 then none else some (b, w, p)
    | none => none
  else
    let added := g.changes.any fun x => x.entry == e.id && x.add && seen x.id
    let gone := g.changes.any fun x => x.entry == e.id && !x.add && seen x.id
    match e.at_ with
    | some b => if added && !gone && b.sameStore at_ then some (b, e.word, e.ph) else none
    | none => none

/-- The range of bytes an entry takes at a place. -/
def entryRange (s : State) (g : Grid) (known : Option (List Nat)) (e : BindEntry) (at_ : Loc) : Option (Loc × Nat) :=
  (s.entryAt g known e at_).map fun (b, _, _) => (b, e.count * e.size)

/-- Offsets left of a range once the offsets of others are taken out of it. -/
def cutOut : List (Nat × Nat) → List (Nat × Nat) → List (Nat × Nat)
  | left, [] => left
  | left, (lo, n) :: rest =>
    cutOut (left.flatMap fun (a, m) =>
      (if a < lo then [(a, min m (lo - a))] else []) ++ (if lo + n < a + m then [(max a (lo + n), a + m - max a (lo + n))] else [])) rest

/-- Whether a range of bytes holds one that a view binds to an object: by an entry, or by the default binding of L
to the barrier (R82, R85). -/
def boundTo (s : State) (g : Grid) (known : List Nat) (at_ : Loc) (n : Nat) (o : Obj) : Bool :=
  let byEntry := g.binds.any fun e =>
    match s.entryAt g (some known) e at_ with
    | some (b, w, p) => match e.part b w p o with
      | some (x, m) => overlap x m at_ n
      | none => false
    | none => false
  let byDefault :=
    match o, at_ with
    | .ph pk di ix, .l c gen off =>
      match s.lOwner g.handle c gen off with
      | some w =>
        (match s.wgPhaser c gen w.slot 0 with
         | some p => p.pkg == pk && p.die == di && p.idx == ix
         | none => false) &&
        !(cutOut [(off, n)] (g.binds.filterMap fun e => (s.entryRange g (some known) e at_).map fun (x, m) => (x.off, m))).isEmpty
      | none => false
    | _, _ => false
  byEntry || byDefault

/-- The copies that hold a release of a thread on an object: its earlier copies that have not completed and whose destination overlaps bytes
that the thread's view binds to the object (R90). -/
def heldBy (s : State) (ln : Lane) (o : Obj) : List Nat :=
  match s.ctxAny ln.r.core ln.r.gen with
  | none => []
  | some k => (k.copies.filter fun cp =>
    cp.st != .ended && cp.wslot == ln.r.wslot && cp.tid == ln.r.tid &&
      (s.copyRanges ln cp).any fun (t, n) => match bindLoc ln t with
        | some l => s.boundTo ln.g ln.t.known l n o
        | none => false).map fun cp => cp.id

/-- Whether any of a list of copies of a context, wherever it stands, is still to end. -/
def copiesLeft (s : State) (r : ThreadRef) (ids : List Nat) : Bool :=
  match s.ctxAny r.core r.gen with
  | none => false
  | some k => k.copies.any fun cp => cp.st != .ended && ids.contains cp.id

/-- A thread's atomics that are still to be performed at their homes and satisfy a condition. -/
def pendingAtomics (s : State) (r : ThreadRef) (p : Loc → Nat → Nat → List AtomLane → Bool) : List Nat :=
  (s.reqs.filter fun q => q.answer.isNone && q.t.core == r.core && q.t.gen == r.gen && q.t.wslot == r.wslot &&
    match q.kind with
    | .atomic loc va n _ _ lanes _ => (lanes.any fun l => l.tid == r.tid) && p loc va n lanes
    | _ => false).map fun q => q.id

/-- A thread's releasing atomics that are still to be performed. -/
def releasesLeft (s : State) (r : ThreadRef) : List Nat := s.pendingAtomics r fun _ _ _ lanes => lanes.any fun l => l.tid == r.tid && l.rel

/-- Whether a releasing atomic of a thread is still to be performed: no later release of the thread overtakes it (R211). -/
def releasing (s : State) (r : ThreadRef) (before : Nat) : Bool := (s.releasesLeft r).any fun id => id < before

/-- The earlier atomics that hold a release of a thread on an object: those into bytes that its view binds to the object (R85, R92). -/
def atomsBound (s : State) (ln : Lane) (o : Obj) : List Nat :=
  s.pendingAtomics ln.r fun loc va n _ => s.boundTo ln.g ln.t.known (match loc with
    | .g _ => .g va
    | l => l) n o

/-- Whether any of a list of atomics is still to be performed. -/
def atomsLeft (s : State) (ids : List Nat) : Bool := s.reqs.any fun q => q.answer.isNone && ids.contains q.id

/-- Whether a release of a thread on an object must wait for what the thread issued before a request (R90, R92, R211, R268). -/
def heldBefore (s : State) (ln : Lane) (o : Obj) (before : Nat) : Bool :=
  (s.heldBy ln o).any (fun id => id < before) || (s.atomsBound ln o).any (fun id => id < before) || s.releasing ln.r before

/-- Whether a release of a thread on an object must wait (R90, R92, R211). -/
def heldRelease (s : State) (ln : Lane) (o : Obj) : Bool := s.heldBefore ln o s.nextId

/-- The binding changes a thread has made (R85). -/
def ownChanges (ln : Lane) : List Nat := ln.g.changes.filterMap fun x => if x.by_ == ln.r then some x.id else none

/-- The binding changes that a release of a thread on the phaser of a number carries: the thread's own, and those it has observed on that
phaser (R85, R86). -/
def releaseCarries (ln : Lane) (uid : Nat) : List Nat := ownChanges ln ++ (ln.t.obs.filter fun x => x.1 == uid).map fun x => x.2

end State

/-- Two lists of numbers joined without repeats. -/
def joinNat (a b : List Nat) : List Nat := a ++ b.filter fun x => !a.contains x

/-- A thread that has acquired on the phaser of a number, observing releases that carry binding changes (R83, R86). -/
def Thread.acquired (t : Thread) (uid : Nat) (seen : List Nat) : Thread :=
  { t with known := joinNat t.known seen, obs := t.obs ++ (seen.map fun i => (uid, i)).filter fun x => !t.obs.contains x }

end Sys2Proof.Machine
end

