-- ==== Sys2Proof/Machine/Sched.lean ====
section
/-! DEFINITION. Group slots, the schedulers' states and exchanges, the seedbed and the group former (R21-R41). -/

namespace Sys2Proof.Machine

/-- Every lookahead window of a thread closed: its results land at its next unit (R145). -/
def Thread.closeWindows (t : Thread) : Thread := { t with owed := t.owed.map fun o => { o with left := 0 } }

namespace Group

/-- Whether a group is in its scheduler's active set (R38). -/
def isActive (g : Group) : Bool := g.st == .ready || g.st == .running || g.st == .stalled || g.st == .waiting

end Group

namespace Ctx

/-- The groups on a scheduler. -/
def onSched (k : Ctx) (sc : Nat) : List Group := k.groups.filter fun g => g.sched == sc

/-- The oldest of a list of groups by age (R39). -/
def oldestOf (l : List Group) : Option Group := firstBy (fun a b => a.age < b.age) l

/-- The oldest P-READY group of a scheduler (R40, R41). -/
def oldestReady (k : Ctx) (sc : Nat) : Option Group := oldestOf ((k.onSched sc).filter fun g => g.st == .pReady)

/-- The group that runs on a scheduler. -/
def runningOn (k : Ctx) (sc : Nat) : Option Group := (k.onSched sc).find? fun g => g.st == .running

/-- A pending group that has become ready taken into the active set: mid-run it runs when the slot is free and
otherwise waits for it ahead of arbitration, between runs it is READY (R38, R40, R41). -/
def activate (k : Ctx) (g : Group) : Ctx :=
  let st := if !g.mid then SState.ready else if (k.runningOn g.sched).isNone then .running else .stalled
  k.modGroup g.slot fun x => { x with st := st, stall := .none }

/-- Free active places filled from the pending set, oldest first (R41). The fuel is the size of the active set. -/
def promote (sc : Nat) : Nat → Ctx → Ctx
  | 0, k => k
  | n + 1, k =>
    if ((k.onSched sc).filter Group.isActive).length < 8 then
      match k.oldestReady sc with
      | some g => promote sc n (k.activate g)
      | none => k
    else k

/-- A group whose stall has cleared resumes its run ahead of arbitration when the slot is free (R38). -/
def resume (k : Ctx) (sc : Nat) : Ctx :=
  if (k.runningOn sc).isSome then k
  else match oldestOf ((k.onSched sc).filter fun g => g.st == .stalled && g.stall == .none) with
    | some g => k.modGroup g.slot fun x => { x with st := .running }
    | none => k

/-- The stall of a group has cleared (R38): from STALLED it goes on when the slot is free, from P-STALLED it becomes
P-READY with its run unfinished. -/
def clearStall (k : Ctx) (slot : Nat) : Ctx :=
  k.modGroup slot fun g =>
    match g.st with
    | .stalled => { g with stall := .none }
    | .pStalled => { g with stall := .none, st := .pReady }
    | _ => g

/-- A wait of a group between runs has ended (R38). -/
def endWait (k : Ctx) (slot : Nat) : Ctx :=
  k.modGroup slot fun g =>
    match g.st with
    | .waiting => { g with stall := .none, st := .ready, left := 0, elapsed := 0 }
    | .pWaiting => { g with stall := .none, st := .pReady, left := 0, elapsed := 0 }
    | _ => g

end Ctx

namespace State

/-- The scheduler of a core put in order after a change of its groups: places filled, a cleared stall resumed, and the
steps that can follow posted: arbitration when the slot is free, an exchange when a stalled group could give way
(R38-R41). -/
def reschedOne (s : State) (c : CoreRef) (sc : Nat) : State :=
  match (s.core c).ctx with
  | none => s
  | some k =>
    if k.st != .running then s
    else
      let s := s.modCtx c fun k => (Ctx.promote sc 8 k).resume sc
      match (s.core c).ctx with
      | none => s
      | some k =>
        let gs := k.onSched sc
        let s := if (k.runningOn sc).isNone && gs.any (fun g => g.st == .ready) then s.postOnce (.schedulerArbitration c sc) else s
        if gs.any (fun g => g.st == .stalled && g.stall != .none) && (k.oldestReady sc).isSome then s.postOnce (.stallExchange c sc) else s

/-- All four schedulers of a core put in order. -/
def resched (s : State) (c : CoreRef) : State := (List.range 4).foldl (fun s sc => s.reschedOne c sc) s

/-- A group that meets a long-latency stall: exchanged with the oldest P-READY group, or STALLED (R40). -/
def stallGroup (s : State) (c : CoreRef) (slot : Nat) (why : Stall) : State :=
  match (s.core c).ctx with
  | none => s
  | some k =>
    match k.group slot with
    | none => s
    | some g =>
      let s := match k.oldestReady g.sched with
        | some _ => s.modGroup c slot fun x => { x with st := .pStalled, stall := why, mid := true }
        | none => s.modGroup c slot fun x => { x with st := .stalled, stall := why, mid := true }
      s.resched c

/-- The stall of a group of a context cleared, wherever the context stands. -/
def clearStall (s : State) (c : CoreRef) (gen slot : Nat) : State :=
  (s.modCtxAt c gen fun k => k.clearStall slot).resched c

/-- The group of a thread woken from its stall to issue its instruction again. -/
def wake (s : State) (r : ThreadRef) : State :=
  match (s.ctxAt r.core r.gen).bind fun k => k.groupOf r.wslot r.tid with
  | some g => if g.stall != .none && (g.st == .stalled || g.st == .pStalled) then s.clearStall r.core r.gen g.slot else s
  | none => s

/-- Every group of a core that stalls for one of the given reasons woken. -/
def wakeAll (s : State) (c : CoreRef) (p : Stall → Bool) : State :=
  match (s.core c).ctx with
  | none => s
  | some k =>
    (k.groups.filter fun g => p g.stall && (g.st == .stalled || g.st == .pStalled)).foldl (fun s g => s.clearStall c k.gen g.slot) s

/-- The groups of every core that wait for a line that a copy engine owned, woken. -/
def wakeRecalls (s : State) : State := s.cores.foldl (fun s x => s.wakeAll x.at_ fun w => w == .recall) s

/-- The run of a group ends (R35): it is READY, its lookahead windows close at its next unit (R145), and its scheduler
arbitrates. -/
def endRun (s : State) (c : CoreRef) (slot : Nat) : State :=
  match (s.core c).ctx.bind fun k => k.group slot with
  | none => s
  | some g =>
    let s := g.members.foldl (fun s t => s.modThread c g.wslot t Thread.closeWindows) s
    let s := s.modCtx c fun k =>
      { k.modGroup slot (fun x => { x with st := .ready, run := 0, mid := false, ran := true, due := false, endAt := s.clk, stall := .none }) with
        rot := k.rot.set g.sched g.age }
    s.resched c

/-- A group waits between runs, at `merge` or `tslp` (R34, R198): its run ends. -/
def waitGroup (s : State) (c : CoreRef) (slot : Nat) (why : Stall) (left : Nat) : State :=
  let s := s.endRun c slot
  s.modGroup c slot fun x => { x with st := if x.st == .pReady then .pWaiting else .waiting, stall := why, left := left, elapsed := 0 }

/-- The values of GFC in force for a partition (R30). -/
def gfc (s : State) (part : Nat) : Nat × Nat × Nat :=
  match s.part part with
  | some p => (p.formMin, p.formAge, p.mergeWait)
  | none => (8, 256, 64)

/-- The lowest free group slot of a context (R32). -/
def freeSlot (k : Ctx) : Option Nat := (List.range 64).find? fun i => !k.groups.any fun g => g.slot == i

/-- The scheduler with the most free slots, the lowest-numbered on a tie (R32). -/
def freestSched (k : Ctx) : Nat :=
  (firstBy (fun a b => (k.onSched a).length < (k.onSched b).length) (List.range 4)).getD 0

/-- A new group of threads of a workgroup placed in a slot (R24, R32): its members by ascending index, in the active
set where it has room. -/
def placeGroup (s : State) (c : CoreRef) (wslot : Nat) (tids : List Nat) : State :=
  match (s.core c).ctx with
  | none => s
  | some k =>
    match freeSlot k with
    | none => s
    | some slot =>
      let sc := freestSched k
      if 16 ≤ (k.onSched sc).length then s
      else
        let (age, s) := s.fresh
        let st := if ((k.onSched sc).filter Group.isActive).length < 8 then SState.ready else .pReady
        let g : Group := { slot := slot, sched := sc, age := age, wslot := wslot, members := sortBy (fun a b => a ≤ b) tids, st := st }
        let s := tids.foldl (fun s t => s.modThread c wslot t fun x => { x with status := .grouped, aged := false }) s
        (s.modCtx c fun k => { k with groups := k.groups ++ [g] }).resched c

/-- The threads of a core's context in the seedbed, ready: their workgroup slot and thread (R28, R31). -/
def seedbed (k : Ctx) : List (Nat × Thread) :=
  k.wgs.flatMap fun w => if w.started then (w.threads.filter fun t => t.status == .seedbed).map fun t => (w.slot, t) else []

/-- The groups that wait at the `merge` at an address in a workgroup (R34). -/
def mergesAt (k : Ctx) (wslot pc : Nat) : List Group :=
  k.groups.filter fun g => g.wslot == wslot && g.stall == .merge && (g.st == .waiting || g.st == .pWaiting) && g.mergePc == pc

/-- Whether a seedbed thread comes before another: it entered earlier, or on the same clk with the lower index
(R31). -/
def seedBefore (a b : Nat × Thread) : Bool := a.2.age < b.2.age || (a.2.age == b.2.age && a.2.tid < b.2.tid)

/-- The threads of a key by seedbed entry, at most 32 (R31). -/
def keyThreads (k : Ctx) (wslot pc : Nat) : List Nat :=
  ((sortBy (fun a b => !seedBefore b a) ((seedbed k).filter fun x => x.1 == wslot && x.2.pc == pc)).take 32).map fun x => x.2.tid

/-- Whether a thread has reached FORM_AGE. -/
def agedOut (s : State) (k : Ctx) (t : Thread) : Bool := t.aged || s.clk - t.age ≥ (s.gfc (partOfCid k.cid)).2.1

/-- The seedbed threads whose key is eligible (R31): the key holds FORM_MIN threads, or one of its threads has reached
FORM_AGE; and no group of the workgroup waits at a `merge` at that address. -/
def eligible (s : State) (k : Ctx) : List (Nat × Thread) :=
  let sb := seedbed k
  sb.filter fun x =>
    let key := sb.filter fun y => y.1 == x.1 && y.2.pc == x.2.pc
    (key.length ≥ (s.gfc (partOfCid k.cid)).1 || key.any fun y => s.agedOut k y.2) && (mergesAt k x.1 x.2.pc).isEmpty

/-- Whether every thread of a workgroup that could still come is a member of a group, or the group is full (R34,
condition 1). -/
def mergeFull (k : Ctx) (g : Group) : Bool :=
  g.members.length ≥ 32 ||
    match k.wg g.wslot with
    | some w => w.threads.all fun t => (t.status != .grouped && t.status != .seedbed) || g.members.contains t.tid
    | none => true

/-- A group that has waited at a `merge` goes on at the next word in a new run (R34). -/
def passMerge (s : State) (c : CoreRef) (slot : Nat) : State :=
  match (s.core c).ctx.bind fun k => k.group slot with
  | none => s
  | some g =>
    let s := g.members.foldl (fun s t => s.modThread c g.wslot t fun x => { x with pc := (g.mergePc + 4) % 2 ^ 64 }) s
    (s.modCtx c fun k => (k.endWait slot).modGroup slot fun x => { x with hint := {} }).resched c

/-- Two groups that wait at one `merge` joined: the younger's threads join the older, whose slot and age stand (R34). -/
def mergeGroups (s : State) (c : CoreRef) (older younger : Group) : State :=
  let s := s.modGroup c older.slot fun g => { g with members := sortBy (fun a b => a ≤ b) (older.members ++ younger.members) }
  s.modCtx c fun k => k.dropGroup younger.slot

/-- Two groups that wait at one `merge` and together hold no more than 32 threads, the older first (R34): the oldest such pair. -/
def mergePair (k : Ctx) : Option (Group × Group) :=
  (sortBy (fun (a b : Group) => a.age ≤ b.age) k.groups).findSome? fun a =>
    if a.stall != .merge then none
    else (firstBy (fun (x y : Group) => x.age < y.age) ((mergesAt k a.wslot a.mergePc).filter fun b =>
      a.age < b.age && a.members.length + b.members.length ≤ 32)).bind fun b => if (a.st == .waiting || a.st == .pWaiting) then some (a, b) else none

/-- Every such pair joined. The fuel bounds the group slots. -/
def mergePairs (c : CoreRef) : Nat → State → State
  | 0, s => s
  | n + 1, s => match (s.core c).ctx.bind mergePair with
    | some (a, b) => mergePairs c n (s.mergeGroups c a b)
    | none => s

/-- Groups that wait at one `merge` join where they may; seedbed threads at a waiting group's `merge` join it, oldest first, until it holds
32; a group that is then full or complete passes (R34). -/
def mergeJoin (s : State) (c : CoreRef) : State :=
  let s := mergePairs c 64 s
  match (s.core c).ctx with
  | none => s
  | some k =>
    (k.groups.filter fun g => g.stall == .merge && (g.st == .waiting || g.st == .pWaiting)).foldl (fun s g =>
      match (s.core c).ctx with
      | none => s
      | some k =>
        let join := (keyThreads k g.wslot g.mergePc).take (32 - g.members.length)
        let s := join.foldl (fun s i => s.modThread c g.wslot i fun x => { x with status := .grouped, aged := false }) s
        let s := s.modGroup c g.slot fun x => { x with members := sortBy (fun a b => a ≤ b) (x.members ++ join) }
        match (s.core c).ctx with
        | none => s
        | some k => match k.group g.slot with
          | some g => if mergeFull k g then s.passMerge c g.slot else s
          | none => s) s

/-- After threads have entered the seedbed of a core: joins at waiting merges, and the former's steps posted (R31,
R34). -/
def seeded (s : State) (c : CoreRef) : State :=
  let s := s.mergeJoin c
  match (s.core c).ctx with
  | none => s
  | some k =>
    let sb := seedbed k
    let s := sb.foldl (fun s x => if x.2.aged then s else s.postOnce (.formAgeExpiry c x.1 x.2.tid)) s
    if (s.eligible k).isEmpty then s else s.postOnce (.groupFormation c)

/-- Threads leave a group with a new status (R25, R28), their lookahead windows closed with their run (R145); a group left empty frees
its slot at once. -/
def leave (s : State) (c : CoreRef) (slot : Nat) (tids : List Nat) (st : ThreadStatus) : State :=
  match (s.core c).ctx.bind fun k => k.group slot with
  | none => s
  | some g =>
    let s := tids.foldl (fun s t => s.modThread c g.wslot t fun x => { x.closeWindows with status := st, age := s.clk, aged := false }) s
    let s := s.modGroup c slot fun x => { x with members := x.members.filter fun t => !tids.contains t }
    let s := if (g.members.filter fun t => !tids.contains t).isEmpty then
        s.modCtx c fun k => { k.dropGroup slot with rot := if g.st == .running then k.rot.set g.sched g.age else k.rot }
      else s
    (s.resched c).seeded c

/-- Whether a core's context has a free group slot for waiting threads. -/
def slotsFull (k : Ctx) : Bool := (freeSlot k).isNone

end State

end Sys2Proof.Machine
end

