-- ==== Sys2Proof/Machine/Phaser.lean ====
section
/-! DEFINITION. Phasers: their operations at the home, in one total order (R219-R230, R359). -/

namespace Sys2Proof.Machine

/-- The name of a phaser. -/
def Phaser.key (p : Phaser) : Nat × Nat × Nat := (p.pkg, p.die, p.idx)

/-- The object a phaser is. -/
def Phaser.obj (p : Phaser) : Obj := .ph p.pkg p.die p.idx

/-- The phase after one, of a count of 32 bits (R220). -/
def phNext (a : Nat) : Nat := (a + 1) % 2 ^ 32

/-- Whether a phase comes before another: phase comparisons are made modulo 2^32 (R224). -/
def phLt (a b : Nat) : Bool := 0 < (b + 2 ^ 32 - a) % 2 ^ 32 && (b + 2 ^ 32 - a) % 2 ^ 32 < 2 ^ 31

namespace PhMember

/-- A member's mode in a phase: a change during the current phase is in force from the next (R222, R226). -/
def modeIn (m : PhMember) (cur k : Nat) : Nat := if phLt cur k then m.change.getD m.mode else m.mode

/-- Whether a member signals or waits under a mode. -/
def signals (mode : Nat) : Bool := mode % 2 == 1
def waits (mode : Nat) : Bool := mode / 2 % 2 == 1

end PhMember

namespace Phaser

/-- The member of a thread. -/
def member (p : Phaser) (r : ThreadRef) : Option PhMember := p.members.find? fun m => m.t == r

/-- A member changed. -/
def modMember (p : Phaser) (r : ThreadRef) (f : PhMember → PhMember) : Phaser := { p with members := mapIf (fun m => m.t == r) f p.members }

/-- Whether the current phase is over (R221): nothing pending, no hold, no signal of a departed member that is held for copies (R90), and
every registered signaller has signalled in it, or there is none and a `phex` has been applied. -/
def isOver (p : Phaser) : Bool :=
  let sig := p.members.filter fun m => PhMember.signals m.mode
  !p.held && p.owed == 0 && p.pending == 0 && (if !sig.isEmpty || p.departed != 0 then sig.all fun m => phLt p.phase m.sp else p.phexd)

/-- The number of registered signallers (R224). -/
def signallers (p : Phaser) : Nat := (p.members.filter fun m => PhMember.signals m.mode).length

/-- Whether a wait is pending on the phaser (R226, detail 1). -/
def busy (p : Phaser) : Bool := p.members.any fun m => m.waiting || m.sigWaiting

/-- The wait result for a completed phase (R225). -/
def result (p : Phaser) (phase : Nat) : Nat := natAt p.hist phase % 4 * 256

/-- The binding changes that the releases of a completed phase carried (R85). -/
def carriedIn (p : Phaser) (phase : Nat) : List Nat := ((p.carriedAt.find? fun x => x.1 == phase).map fun x => x.2).getD []

/-- Whether a phase has completed, given the number of phases that have (R224, R241). -/
def past (p : Phaser) (phase : Nat) : Bool := phLt phase p.phase

end Phaser

namespace State

/-- A phaser by its name. -/
def phaser (s : State) (k : Nat × Nat × Nat) : Option Phaser := s.phasers.find? fun p => p.key == k

/-- A phaser changed. -/
def modPhaser (s : State) (k : Nat × Nat × Nat) (f : Phaser → Phaser) : State := { s with phasers := mapIf (fun p => p.key == k) f s.phasers }

/-- The phaser that a handle register names for a thread (R219). -/
def phaserOf (s : State) (ln : Lane) (h : Nat) : Option Phaser :=
  if h < 0x8000 then (if h ≤ ln.g.kern.phasers then s.wgPhaser ln.r.core ln.r.gen ln.r.wslot h else none)
  else if h < 0x10000 then s.gridPhaser ln.g.handle h else none

/-- The gated copies of every resident context asked to look at their gates again (R241). -/
def wakeGates (s : State) : State :=
  s.cores.foldl (fun s x => match x.ctx with
    | some k => k.copies.foldl (fun s cp => if cp.st == .gated then s.postOnce (.copyGateOpen x.at_ cp.id) else s) s
    | none => s) s

/-- The gates on a phase of a phaser that has just completed: the copies behind them, wherever their contexts stand, may open, each with
what the phase's releases carried (R241). -/
def openGates (s : State) (uid phase : Nat) (carried : List Nat) : State :=
  s.mapCtxs fun _ k => { k with copies := mapIf (fun (e : CopyEntry) => e.st == .gated && !e.ready && e.gate == some uid && (e.desc[6]?).getD 0 == phase)
                                  (fun (e : CopyEntry) => { e with ready := true, acq := carried }) k.copies }

/-- A wait's end delivered to its thread: its result word, with the binding changes that it observes on the phaser of a number (R83, R225); by
the log of a context that is away (R378). -/
def deliverWait (s : State) (r : ThreadRef) (uid handle result : Nat) (seen : List Nat) : State :=
  if (s.place r.core r.gen).isNone then
    let slot := (((s.savedOf r.core r.gen).bind fun v => v.shadow.wg r.wslot).map fun (w : Workgroup) => w.tbase).getD 0 + r.tid
    (s.logItem r.core r.gen (.waitResult slot r.wslot handle result)).modSaved r.core r.gen fun k =>
      k.modWg r.wslot fun w => w.modThread r.tid fun t => t.acquired uid seen
  else (s.modThreadAt r fun t => { t.acquired uid seen with pend := .waited result }).wake r

/-- The current phase completed where it is over (R221), in one step: the count rises, the marks become those of the
last completed phase, waiters are released, changes take effect, and the opening phase ends. -/
def tryComplete (s : State) (k : Nat × Nat × Nat) : State :=
  match s.phaser k with
  | none => s
  | some p =>
    if !p.isOver then s
    else
      let c := p.phase
      let released := p.members.filter fun m => m.waiting && m.wp == c
      let again := p.members.filter fun m => m.sigWaiting
      let members := (p.members.filter fun m => m.change != some 0).map fun m =>
        let m := if m.waiting && m.wp == c then { m with waiting := false, wp := phNext m.wp } else m
        { m with mode := m.change.getD m.mode, change := none }
      let s := s.modPhaser k fun p =>
        { p with phase := phNext c, lastMarks := p.marks, hist := sset 0 p.hist c p.marks, marks := 0, phexd := false,
                 opening := false, departed := 0, fpc := none, arrivals := [], members := members,
                 carriedAt := (p.carriedAt.filter fun x => x.1 != c) ++ (if p.curCarried.isEmpty then [] else [(c, p.curCarried)]),
                 curCarried := [] }
      let s := s.openGates p.uid c p.curCarried
      let s := released.foldl (fun s m => s.deliverWait m.t p.uid p.handle (p.marks % 4 * 256) p.curCarried) s
      let s := again.foldl (fun s m => s.wake m.t) s
      s.wakeGates

/-- A member's signal counted in the current phase with the binding changes made before a request: a release (R73, R224, R268). -/
def countSignalUpTo (s : State) (k : Nat × Nat × Nat) (r : ThreadRef) (before : Nat) : State :=
  match s.phaser k with
  | none => s
  | some p =>
    let carries := match s.laneOf r with
      | some ln => (releaseCarries ln p.uid).filter fun id => id < before
      | none => []
    let s := s.modPhaser k fun p =>
      { p.modMember r fun m => { m with sp := phNext p.phase, sigWaiting := false } with curCarried := joinNat p.curCarried carries }
    s.tryComplete k

/-- A member's signal counted in the current phase: a release (R73, R224). -/
def countSignal (s : State) (k : Nat × Nat × Nat) (r : ThreadRef) : State := s.countSignalUpTo k r s.nextId

/-- A member's wait (R224): the result at once where its phase has completed, otherwise the wait is pending. -/
def beginWait (s : State) (k : Nat × Nat × Nat) (r : ThreadRef) : State × Option Nat :=
  match s.phaser k with
  | none => (s, some 1)
  | some p =>
    match p.member r with
    | none => (s, some 1)
    | some m =>
      if phLt m.wp p.phase then
        let s := s.modPhaser k fun p => p.modMember r fun m => { m with wp := phNext m.wp }
        (s.modThreadAt r fun t => t.acquired p.uid (p.carriedIn m.wp), some (p.result m.wp))
      else (s.modPhaser k fun p => p.modMember r fun m => { m with waiting := true }, none)

/-- A registration or change of mode (R222, R224): at once in the opening phase, otherwise from the next. -/
def register (s : State) (k : Nat × Nat × Nat) (r : ThreadRef) (grid mode : Nat) : State :=
  let s := s.modPhaser k fun p =>
    match p.member r with
    | some m =>
      if p.opening then p.modMember r fun m => { m with mode := mode, change := none }
      else p.modMember r fun _ => { m with change := some mode, wp := if m.change == some 0 then phNext p.phase else m.wp }
    | none =>
      if p.opening then { p with members := p.members ++ [{ t := r, grid := grid, mode := mode, sp := p.phase, wp := p.phase }] }
      else { p with members := p.members ++ [{ t := r, grid := grid, mode := 0, change := some mode, sp := phNext p.phase, wp := phNext p.phase }] }
  s.tryComplete k

/-- A member out of a phaser: in the opening phase at once, where a departed signaller still counts as one that has
signalled; otherwise from the next phase (R222). -/
def depart (s : State) (k : Nat × Nat × Nat) (r : ThreadRef) : State :=
  s.modPhaser k fun p =>
    match p.member r with
    | none => p
    | some m =>
      if p.opening then
        { p with members := p.members.filter fun x => x.t != r, departed := p.departed + if PhMember.signals m.mode then 1 else 0 }
      else p.modMember r fun m => { m with change := some 0, waiting := false, sigWaiting := false,
                                           sp := if PhMember.signals m.mode && !phLt p.phase m.sp then phNext p.phase else m.sp }

/-- A deregistration (R222): a signal that a signaller owes in the current phase is counted at that moment, and is
held, as any release, for the thread's copies into bytes bound to the phaser (R90). -/
def deregister (s : State) (k : Nat × Nat × Nat) (r : ThreadRef) : State :=
  match s.phaser k with
  | none => s
  | some p =>
    match p.member r with
    | none => s
    | some m =>
      let owes := PhMember.signals m.mode && !phLt p.phase m.sp
      match (if owes then s.laneOf r else none) with
      | none => (s.depart k r).tryComplete k
      | some ln =>
        let carries := releaseCarries ln p.uid
        if s.heldRelease ln p.obj then
          let (id, s) := s.fresh
          let s := (s.depart k r).modPhaser k fun p => { p with owed := p.owed + 1 }
          let held : Release := { id := id, t := r, obj := p.obj, copies := s.heldBy ln p.obj, atoms := s.atomsBound ln p.obj ++ s.releasesLeft ln.r, carries := carries }
          ({ s with releases := s.releases ++ [held] } : State).post (.releaseCompletion id)
        else ((s.depart k r).modPhaser k fun p => { p with curCarried := joinNat p.curCarried carries }).tryComplete k

/-- Every registration of a thread dropped, workgroup and grid phasers alike (R22, R222). -/
def dropAll (s : State) (r : ThreadRef) : State :=
  (s.phasers.filter fun p => (p.member r).isSome).foldl (fun s p => s.deregister p.key r) s

/-- The entries of a grid's table bound to a phaser removed, as by an `unbind` of a thread (R84). -/
def unbindPhaser (s : State) (grid : Nat) (p : Phaser) (r : ThreadRef) : State :=
  match s.grid grid with
  | none => s
  | some g =>
    let own := match p.owner with
      | some (c, gen, w) => ((s.ctxAt c gen).bind fun k => k.wg w).map fun (x : Workgroup) => (x.block, p.handle)
      | none => none
    (g.binds).foldl (fun s e =>
      let (id, s) := s.fresh
      let learn := fun (s : State) => s.modThreadAt r fun t => { t with known := joinNat t.known [id] }
      if !e.launch && e.ph == some p.key && !(g.changes.any fun x => x.entry == e.id && !x.add) then
        learn (s.modGrid grid fun g => { g with changes := g.changes ++ [{ id := id, entry := e.id, add := false, by_ := r }] })
      else if e.launch && e.kind == 0 then
        match own with
        | some (block, h) =>
          if e.obj == h then
            learn (s.modGrid grid fun g =>
              { g with binds := mapIf (fun (x : BindEntry) => x.id == e.id) (fun (x : BindEntry) => { x with removed := x.removed ++ [(copyOfBlock block, id)] }) g.binds,
                       changes := g.changes ++ [{ id := id, entry := e.id, add := false, by_ := r }] })
          else s
        | none => s
      else s) s

/-- A phaser freed (R224, R227): pending waits return GONE, members go, and gated copies see it. -/
def freePhaser (s : State) (k : Nat × Nat × Nat) : State :=
  match s.phaser k with
  | none => s
  | some p =>
    let s := { s with phasers := s.phasers.filter fun x => x.key != k, releases := s.releases.filter fun x => x.obj != p.obj }
    let s := (p.members.filter fun m => m.waiting || m.sigWaiting).foldl (fun s m => s.deliverWait m.t p.uid p.handle 1 []) s
    s.wakeGates

/-- A copy's bytes counted down on a phaser in its current phase, with a fault mark (R242). -/
def arrive (s : State) (k : Nat × Nat × Nat) (bytes mark : Nat) (carries : List Nat) : State :=
  (s.modPhaser k fun p =>
    { p with pending := p.pending - bytes, marks := p.marks ||| mark, curCarried := joinNat p.curCarried carries }).tryComplete k

/-- Back to the opening phase with phase 0 and no members (R224); bindings stand, and a signal still held for copies is discarded with its
phase (R227). -/
def reinit (s : State) (k : Nat × Nat × Nat) : State :=
  { s.modPhaser k (fun p =>
      { p with phase := 0, pending := 0, members := [], departed := 0, marks := 0, lastMarks := 0, hist := [], phexd := false,
               opening := true, fpc := none, arrivals := [], owed := 0, carriedAt := [], curCarried := [] }) with
    releases := s.releases.filter fun x => x.obj != .ph k.1 k.2.1 k.2.2 }

/-- Held or released (R359): a held phaser completes no phase. -/
def holdPhaser (s : State) (k : Nat × Nat × Nat) (on : Bool) : State := (s.modPhaser k fun p => { p with held := on }).tryComplete k

/-- Phasers in use on a die (R219). -/
def phasersOn (s : State) (pkg die : Nat) : Nat := (s.phasers.filter fun p => p.pkg == pkg && p.die == die).length

/-- The lowest free phaser index of a die. -/
def freePhaserIdx (s : State) (pkg die : Nat) : Option Nat :=
  let used := (s.phasers.filter fun p => p.pkg == pkg && p.die == die).map fun p => p.idx
  if 65536 ≤ used.length then none else (List.range (used.length + 1)).find? fun i => !used.contains i

/-- A new phaser (R219, R224). -/
def addPhaser (s : State) (pkg die handle grid : Nat) (owner : Option (CoreRef × Nat × Nat)) (members : List PhMember) : State :=
  match s.freePhaserIdx pkg die with
  | none => s
  | some i => { s with nextId := s.nextId + 1,
                       phasers := s.phasers ++ [{ pkg := pkg, die := die, idx := i, uid := s.nextId, handle := handle, grid := grid, owner := owner, members := members }] }

/-- The lowest free grid handle of a grid (R219). DESIGN CHOICE (log 80): the spec does not say which free handle `phal` gives. -/
def freeHandle (s : State) (grid : Nat) : Option Nat :=
  let used := (s.phasers.filter fun p => p.owner == none && p.grid == grid).map fun p => p.handle
  if 32768 ≤ used.length then none else ((List.range (used.length + 1)).map fun i => 0x8000 + i).find? fun h => !used.contains h

/-! ### The barrier (R229, R230) -/

/-- The leaf link of a core (R11, R421). -/
def coreLink (s : State) (c : CoreRef) : Link :=
  let k := 4 * (c.core / 16) + c.core % 8 / 2
  match (s.pkg c.pkg).leaves.find? fun l => l.die == c.die && l.logical == some k with
  | some l => { pkg := c.pkg, die := c.die, leaf := l.leaf }
  | none => { pkg := c.pkg, die := c.die, leaf := k }

/-- A record or arrival mask sent towards its grid's fault area (R306). -/
def report (s : State) (c : CoreRef) (grid : Nat) (fr : FaultRec) : State := s.post (.faultrec (s.coreLink c) grid fr)

/-- The arrival masks of a broken barrier (R331). -/
def arrivalMasks (s : State) (c : CoreRef) (w : Workgroup) (first : Nat) (arrivals : List (Nat × List Nat)) : List FaultRec :=
  arrivals.flatMap fun (pc, tids) => (List.range 16).filterMap fun i =>
    let mask := ((List.range 64).filter fun j => tids.contains (64 * i + j)).foldl (fun m j => m + 2 ^ j) 0
    if mask == 0 then none
    else some { time := s.time c.pkg, xpc := mask, die := c.die, core := c.core, pkg := c.pkg, block := w.block, rtype := 2,
                code := Code.barrier.num, detail := i, addr := first, pc := pc }

/-- The barrier broken by arrivals at different addresses (R230): every live thread of the workgroup owes a
BARRIER_DIVERGENCE, the masks go to the fault area, and the phase count rises with no release or acquire. -/
def breakBarrier (s : State) (r : ThreadRef) (p : Phaser) (first : Nat) (arrivals : List (Nat × List Nat)) : State :=
  match s.laneOf r with
  | none => s
  | some ln =>
    let fr : FaultRec := { detail := arrivals.length, addr := first }
    let pcOf := fun (tid : Nat) => (arrivals.find? fun a => a.2.contains tid).map fun a => a.1
    let live := ln.w.threads.filter fun t => t.status == .grouped || t.status == .seedbed || t.status == .waitXlate
    let s := live.foldl (fun s t => s.modThreadAt { r with tid := t.tid } fun t =>
      { t with pbdiv := some { fr with pc := (pcOf t.tid).getD 0, rtype := if (pcOf t.tid).isSome then 1 else 0 } }) s
    let s := (s.arrivalMasks r.core ln.w first arrivals).foldl (fun s m => s.report r.core ln.g.handle m) s
    let s := s.modPhaser p.key fun p =>
      { p with phase := phNext p.phase, opening := false, departed := 0, fpc := none, arrivals := [], curCarried := [],
               members := (p.members.filter fun m => m.change != some 0).map fun m =>
                 { m with sp := phNext p.phase, wp := phNext p.phase, waiting := false, sigWaiting := false } }
    live.foldl (fun s t => s.wake { r with tid := t.tid }) s

/-- An arrival of a thread at the barrier with its unit's address (R230): true when it broke the phase. -/
def arriveBarrier (s : State) (r : ThreadRef) (p : Phaser) (pc : Nat) : State × Bool :=
  let first := p.fpc.getD pc
  let arrivals := if p.arrivals.any fun a => a.1 == pc then
      p.arrivals.map fun a => if a.1 == pc then (a.1, a.2 ++ [r.tid]) else a
    else p.arrivals ++ [(pc, [r.tid])]
  let s := s.modPhaser p.key fun p => { p with fpc := some first, arrivals := arrivals }
  if pc == first then (s, false) else (s.breakBarrier r p first arrivals, true)

end State

end Sys2Proof.Machine
end

