-- ==== Sys2Proof/Machine/Block.lean ====
section
/-! DEFINITION. The end of a block: its counts, its fires, its relaunch, and the release of its residency (R12, R22,
R303, R309, R318, R461, R462). -/

namespace Sys2Proof.Machine

/-- The chunk size of a collective binding in bytes. -/
def Coll.cb (b : Coll) : Nat := 2 ^ (if b.chk == 0 then 16 else b.chk)

namespace Grid

/-- The slot of a collective binding that a block selects (R317). -/
def slotOf (g : Grid) (b : Coll) (block : Nat) : Nat :=
  let x := block % g.lrec.gx
  let y := block / g.lrec.gx % g.lrec.gy
  let z := block / (g.lrec.gx * g.lrec.gy)
  x / b.dx + ceilDiv g.lrec.gx b.dx * (y / b.dy + ceilDiv g.lrec.gy b.dy * (z / b.dz))

/-- The blocks of a slot of a binding. -/
def slotBlocks (g : Grid) (b : Coll) (slot : Nat) : List Nat := (List.range g.blocks).filter fun k => g.slotOf b k == slot

/-- Whether all blocks of a slot have fired it (R318). -/
def slotFired (g : Grid) (i : Nat) (b : Coll) (slot : Nat) : Bool := (g.slotBlocks b slot).all fun k => g.fires.contains (i, k)

/-- The node of a die (R297). -/
def dieNode (g : Grid) (pkg die : Nat) : Option Node := g.nodes.find? fun n => n.level == 2 && n.pkg == pkg && n.die == die

/-- Whether a node is cancelled. -/
def Node.isCancelled (n : Node) : Bool := n.st == 3 || n.ccause != 0

/-- The root node (R297). -/
def root (g : Grid) : Node := (g.nodes.find? fun n => n.level == 0).getD {}

/-- Whether the subtree of a die is cancelled, as its node knows it (R307). -/
def cancelledAt (g : Grid) (pkg die : Nat) : Bool := g.nodes.any fun n => n.level == 2 && n.pkg == pkg && n.die == die && n.st == 3

end Grid

namespace State

/-- The communicator that a binding of a grid names. -/
def commOf (s : State) (g : Grid) (b : Coll) : Option Comm := s.comms.find? fun c => c.part == g.part && c.comm == b.comm

/-- Whether the slots that a chunk counts have fired (R321, R325). -/
def chunkFired (s : State) (g : Grid) (i : Nat) (b : Coll) (c : Nat) : Bool :=
  match commOf s g b with
  | none => false
  | some cm => if b.op == 3 then g.slotFired i b (b.root * b.nch + c) else (List.range cm.ranks.length).all fun r => g.slotFired i b (r * b.nch + c)

/-- The place of a switch-slot request in a contest (R324): its time, then the partition, then the communicator. -/
def switchKey (s : State) (x : Nat × Nat × Nat) : Nat × Nat × Nat :=
  match (s.grid x.2.1).bind fun g => (g.colls[x.2.2]?).map fun b => (g, b) with
  | some (g, b) => (x.1, g.part, b.comm)
  | none => (x.1, 16, 64)

/-- Whether one request comes before another in a contest. -/
def switchBefore (a b : Nat × Nat × Nat) : Bool :=
  a.1 < b.1 || (a.1 == b.1 && (a.2.1 < b.2.1 || (a.2.1 == b.2.1 && a.2.2 < b.2.2)))

/-- A collective's slots given up on every switch, for good (R324). -/
def dropSwitch (s : State) (h i : Nat) : State :=
  { (s.modGrid h fun g => { g with colls := g.colls.zipIdx.map fun (b : Coll × Nat) => if b.2 == i then { b.1 with switch := false } else b.1 }) with
    switches := s.switches.map fun w => (w.1, w.2.filter fun x => !(x.2.1 == h && x.2.2 == i)) }

/-- One reduction slot requested on every switch of the communicator's path, once, for a collective that is eligible (R324): it
is granted on all of them or runs on the Cumulus path. It takes a last slot from the latest of the requests that come after it in the contest. -/
def switchRequest (s : State) (h i : Nat) : State :=
  match (s.grid h).bind fun g => (g.colls[i]?).map fun b => (g, b) with
  | none => s
  | some (g, b) =>
    if b.asked then s
    else
      let s := s.modGrid h fun g => { g with colls := g.colls.zipIdx.map fun (y : Coll × Nat) => if y.2 == i then { y.1 with asked := true } else y.1 }
      match commOf s g b with
      | none => s
      | some cm =>
        if 2 ≤ b.op || 2 ^ 16 < b.nch * b.cb then s
        else
          let path := Config.fabricPath cm.part cm.comm
          let me := (s.time (cm.ranks.headD 0), h, i)
          let held := fun (w : Nat) => ((s.switches.find? fun x => x.1 == w).map fun x => x.2).getD []
          let loser := fun (w : Nat) => firstBy (fun a b => switchBefore (s.switchKey b) (s.switchKey a)) ((held w).filter fun x => switchBefore (s.switchKey me) (s.switchKey x))
          if path.all fun w => (held w).length < 32 || (loser w).isSome then
            let out := path.filterMap fun w => if (held w).length < 32 then none else loser w
            let s := out.foldl (fun s x => s.dropSwitch x.2.1 x.2.2) s
            let s := path.foldl (fun s w =>
              { s with switches := upsert (fun x => x.1 == w) (w, (((s.switches.find? fun x => x.1 == w).map fun x => x.2).getD []) ++ [me]) s.switches }) s
            s.modGrid h fun g => { g with colls := g.colls.zipIdx.map fun (y : Coll × Nat) => if y.2 == i then { y.1 with switch := !path.isEmpty } else y.1 }
          else s

/-- The engines of a chunk of which a slot has fired asked to accept it (R318, R323): of a broadcast the root's slot alone counts. The first
chunk that fires asks for switch slots (R324). -/
def slotReady (s : State) (h i slot : Nat) : State :=
  match (s.grid h).bind fun g => (g.colls[i]?).map fun b => (g, b) with
  | none => s
  | some (g, b) =>
    if !g.slotFired i b slot then s
    else
      let c := slot % b.nch
      let s := if b.op == 3 && slot / b.nch != b.root then s
        else (List.range (((commOf s g b).map fun m => m.ranks.length).getD 0)).foldl (fun s r => s.postOnce (.chunkAcceptance h i c r)) s
      if s.chunkFired g i b c then s.switchRequest h i else s

/-- A block's slot of a binding fired on its behalf, once (R318). -/
def fire (s : State) (h i block : Nat) : State :=
  match s.grid h with
  | none => s
  | some g =>
    match g.colls[i]? with
    | none => s
    | some b =>
      if g.fires.contains (i, block) then s
      else (s.modGrid h fun g => { g with fires := g.fires ++ [(i, block)] }).slotReady h i (g.slotOf b block)

/-- Counts sent to a block's die node (R303, R425). -/
def sendCount (s : State) (c : CoreRef) (h : Nat) (d : Deltas) : State := s.post (.count (s.coreLink c) h d)

/-- The relaunches that a block has had. -/
def relaunchesOf (g : Grid) (block : Nat) : Nat := natAt g.relaunches block

/-- Whether a marked block qualifies for its relaunch (R309): each cause allowed, its relaunches fewer than RMAX, its
subtree not cancelled. -/
def qualifies (g : Grid) (c : CoreRef) (w : Workgroup) : Bool :=
  w.marked.all (fun cause => bit g.lrec.rcause cause) && relaunchesOf g w.block < g.lrec.rmax && !g.cancelledAt c.pkg c.die

/-- The cores and workgroups of a block's neighbourhood that stand on its die. -/
def memberWgs (s : State) (c : CoreRef) (gen : Nat) (w : Workgroup) : List (CoreRef × Workgroup) :=
  w.members.zipIdx.filterMap fun m =>
    let cr := { c with core := m.1.core }
    ((s.ctxAny cr gen).bind fun k => k.wgs.find? fun x => x.grid == w.grid && x.members == w.members && x.m == m.2 && !x.settled).map fun x => (cr, x)

/-- Whether a block that counts as COMPLETED counts in FAULTED as well (R303). -/
def blockBad (w : Workgroup) : Bool :=
  w.lost || !w.marked.isEmpty || w.cfault || w.threads.any fun t => t.status == .faulted && t.fault.code != Code.cancel.num

/-- A block that has ended and is not relaunched counted (R303). -/
def countEnd (s : State) (c : CoreRef) (w : Workgroup) : State :=
  if w.cancelled then s.sendCount c w.grid { cancelled := 1 }
  else s.sendCount c w.grid { completed := 1, faulted := (blockBad w).toNat }

/-- A mark of a fault or of lost data put on a workgroup; its block counts in FAULTED from then on, also where the mark
comes from work that outlasts the block (R243, R244, R256, R303). -/
def noteWg (s : State) (c : CoreRef) (gen wslot : Nat) (f : Workgroup → Workgroup) : State :=
  match (s.ctxAt c gen).bind fun k => k.wg wslot with
  | none => s
  | some w =>
    let s := s.modCtxAt c gen fun k => k.modWg wslot f
    if w.counted && !blockBad w && blockBad (f w) then s.sendCount c w.grid { faulted := 1 } else s

/-- A workgroup marked for relaunch with a cause (R309). -/
def Workgroup.mark (cause : Nat) (w : Workgroup) : Workgroup := { w with marked := joinNat w.marked [cause] }

/-- The record of a matrix sequencer's fault that no `mwt` has reported goes to the fault area once the holder has ended (R256). -/
def reportHeld (s : State) (c : CoreRef) (gen : Nat) : State :=
  match s.ctxAt c gen with
  | none => s
  | some k =>
    match k.mtx.fault, k.mtx.holder.bind fun x => k.wg x with
    | some f, some w =>
      if w.ended then
        ((s.modCtxAt c gen fun k => { k with mtx := { k.mtx with fault := none } }).noteWg c gen w.slot fun w => { w with cfault := true }).report c w.grid f
      else s
    | _, _ => s

/-- A cooperative set dissolved at the end of a member's workgroup (R271). -/
def dissolveCoop (s : State) (c : CoreRef) (gen : Nat) (w : Workgroup) : State :=
  match (s.ctxAt c gen).bind fun k => if k.mtx.holder == some w.slot then k.mtx.coop else none with
  | none => s
  | some v => w.members.foldl (fun s y =>
      let d := { c with core := y.core }
      (s.modCtxAt d gen fun k =>
        if k.mtx.coop == some v && k.wgs.any (fun x => k.mtx.holder == some x.slot && x.grid == w.grid && x.members == w.members) then
          { k with mtx := { k.mtx with coop := none, st := if k.mtx.st == .partner then .busy else k.mtx.st } } else k).wakeAll d fun x => match x with
        | .coop _ => true
        | _ => false) s

/-- Whether an earlier copy of a thread, or of any thread of a workgroup, whose destination overlaps bytes of G has still to complete: a fire
is held for it (R341). -/
def fireHeld (s : State) (c : CoreRef) (gen wslot : Nat) (tid : Option Nat) (va n : Nat) : Bool :=
  match s.ctxAt c gen with
  | none => false
  | some k => k.copies.any fun e => e.wslot == wslot && tid.all (fun t => t == e.tid) && e.st != .ended &&
      match s.copyLane c gen e with
      | some ln => (s.copyRanges ln e).any fun d => (d.1.spc == .g || d.1.spc == .s) && gva ln d.1 < va + n && va < gva ln d.1 + d.2
      | none => false

/-- The address of a block's slot of a binding's source (R317). -/
def slotSrc (g : Grid) (b : Coll) (block : Nat) : Nat := b.src + g.slotOf b block * b.cb

/-- The slots of an ended block that nothing holds fired, each once; those held for copies follow when these have completed
(R318, R341). -/
def fireAll (s : State) (c : CoreRef) (gen wslot : Nat) : State :=
  match (s.ctxAt c gen).bind fun k => (k.wg wslot).bind fun w => (s.grid w.grid).map fun g => (w, g) with
  | none => s
  | some (w, g) =>
    if !w.firing then s
    else g.colls.zipIdx.foldl (fun s b => if s.fireHeld c gen wslot none (slotSrc g b.1 w.block) b.1.cb then s else s.fire g.handle b.2 w.block) s

/-- Whether work that a workgroup issued goes on: its copies, and, where it holds the matrix unit, sequencer entries and a projection
(R245, R247, R461). -/
def workLeft (k : Ctx) (wslot : Nat) : Bool :=
  k.copies.any (fun cp => cp.wslot == wslot && cp.st != .ended) || (k.mtx.holder == some wslot && (!k.mtx.queue.isEmpty || k.voc.st == .active))

/-- Every context that the machine holds, with its core. -/
def allCtxs (s : State) : List (CoreRef × Ctx) :=
  s.cores.flatMap (fun x => ([x.ctx, x.inSlot, x.outSlot, x.expSlot].filterMap id).map fun k => (x.at_, k)) ++ s.saved.map fun v => (v.core, v.shadow)

/-- The work that blocks of a grid have issued and that goes on (R87): whether a unit or an atomic is at it, and the copies with their contexts. -/
def gridWork (s : State) (h : Nat) : Bool × List (CoreRef × Ctx × CopyEntry) :=
  let mine := fun (k : Ctx) (w : Nat) => (k.wg w).any fun x => x.grid == h
  (s.allCtxs.any (fun x => (x.2.mtx.holder.any fun w => mine x.2 w) && (!x.2.mtx.queue.isEmpty || x.2.voc.st == .active)) ||
      s.reqs.any fun q => q.grid == h && q.answer.isNone,
   s.allCtxs.flatMap fun x => (x.2.copies.filter fun e => e.st != .ended && mine x.2 e.wslot).map fun e => (x.1, x.2, e))

/-- Whether a copy can go on no more once the grid's threads have ended: it is gated on one of the grid's phasers, or its next line is one that an
earlier copy of its thread, gated so, has still to write (R240, R241). -/
def gateStuck (s : State) (h : Nat) (c : CoreRef) (k : Ctx) (e : CopyEntry) : Bool :=
  (e.st == .gated && !e.ready && s.phasers.any fun p => p.owner == none && p.grid == h && e.gate == some p.uid) ||
    match s.copyLane c k.gen e with
    | none => false
    | some ln => match (s.copyDst ln e).head?.bind fun d => s.peek ln d.1 .write with
      | some l => s.standsBehind c k e l
      | none => false

/-- The root of a grid whose blocks have all been counted told to look whether the grid completes (R87, R304). -/
def workOver (s : State) (c : CoreRef) (h : Nat) : State :=
  match s.grid h with
  | some g => if !g.complete && g.root.completed + g.root.cancelled == g.blocks then s.sendCount c h {} else s
  | none => s

/-- The matrix unit of a holder that has ended freed once its queue is empty (R247). -/
def freeUnit (s : State) (c : CoreRef) (gen wslot : Nat) : State :=
  s.modCtxAt c gen fun k =>
    if k.mtx.holder == some wslot && ((k.wg wslot).map fun w => w.ended).getD true && k.mtx.queue.isEmpty && k.voc.st != .active then
      { k with mtx := {}, voc := {} } else k

/-- What is left of a workgroup that has ended and been settled taken away once no work of it goes on; its core is EMPTY when nothing
is left there. Until then its record stands for that work alone. -/
def reapWg (s : State) (c : CoreRef) (gen wslot : Nat) : State :=
  let s := (s.fireAll c gen wslot).freeUnit c gen wslot
  match (s.ctxAt c gen).bind fun k => (k.wg wslot).map fun w => (k, w) with
  | none => s
  | some (k, w) =>
    if !w.ended || !w.settled || workLeft k wslot then s
    else
      let s := s.modCtxAt c gen fun k => { k with wgs := k.wgs.filter fun x => x.slot != wslot, copies := k.copies.filter fun cp => cp.wslot != wslot }
      let s := s.modCore c fun x => match x.ctx with
        | some k => if k.gen == gen && k.wgs.isEmpty then { x with ctx := none } else x
        | none => x
      let s := if (s.core c).victim && (s.core c).ctx.isNone then s.postOnce (.horizonSwap c) else s
      (s.workOver c w.grid).postOnce (.neighbourhoodPlacement c.pkg c.die)

/-- What follows when every member of a block's neighbourhood has ended (R303, R309, R462): a relaunch at the head of
the die's placement order, or the counts. -/
def settle (s : State) (c : CoreRef) (gen : Nat) (w : Workgroup) : State :=
  match s.grid w.grid with
  | none => s
  | some g =>
    let ms := s.memberWgs c gen w
    let marked := ms.filter fun x => !x.2.marked.isEmpty
    let again := !marked.isEmpty && marked.all (fun x => qualifies g x.1 x.2) &&
      ms.all (fun x => relaunchesOf g x.2.block < g.lrec.rmax) && !g.cancelledAt c.pkg c.die && !ms.any fun x => x.2.cancelled
    let s :=
      if again then
        let first := w.block / g.lrec.nbn * g.lrec.nbn
        let s := s.modGrid g.handle fun g =>
          { g with requeue := first :: g.requeue,
                   placed := mapIf (fun p => p.first == first) (fun p => { p with relaunch := true, ok := [], gone := false }) g.placed,
                   relaunches := ms.foldl (fun l x => sset 0 l x.2.block (natAt l x.2.block + 1)) g.relaunches }
        s.sendCount c g.handle { relaunched := ms.length }
      else
        let s := ms.foldl (fun s x => s.countEnd x.1 x.2) s
        s.modGrid g.handle fun g => { g with placed := g.placed.filter fun p => p.first != w.block / g.lrec.nbn * g.lrec.nbn }
    let s := ms.foldl (fun s x => s.modCtxAt x.1 gen fun k => k.modWg x.2.slot fun w =>
      { w with settled := true, counted := !again && !w.cancelled, firing := w.firing || (!again && !w.cancelled) }) s
    ms.foldl (fun s x => s.reapWg x.1 gen x.2.slot) s

/-- The report of a thread's ended copies that faulted, to the fault area (R243). -/
def lateReport (s : State) (c : CoreRef) (k : Ctx) (e : CopyEntry) : State :=
  match (k.wg e.wslot).bind fun w => (w.thread e.tid).map fun t => (w, t) with
  | none => s
  | some (w, t) =>
    let f : FaultRec := { time := s.time c.pkg, xpc := e.pc, die := c.die, core := c.core, tid := e.tid, pkg := c.pkg, block := w.block,
                          rtype := 1, code := Code.copyFault.num, detail := e.detail, addr := e.faddr, pc := t.pc }
    let s := s.noteWg c k.gen e.wslot fun w => ({ w with cfault := true } : Workgroup).modThread e.tid fun t => { t with fault := f }
    (s.modCtxAt c k.gen fun k => { k with copies := k.copies.filter fun x => x.id != e.id }).report c w.grid f

/-- Copies of a workgroup that have ended with a fault which no thread can take any longer, reported and taken away (R243). -/
def lateCopies (s : State) (c : CoreRef) (gen wslot : Nat) (p : CopyEntry → Bool) : State :=
  match s.ctxAt c gen with
  | none => s
  | some k => (k.copies.filter fun e => e.wslot == wslot && e.st == .ended && e.detail != 0 && !e.reported && p e).foldl (fun s e => s.lateReport c k e) s

/-- A thread's copies that have ended with a fault it never took, reported as it exits (R243). -/
def exitCopies (s : State) (r : ThreadRef) : State := s.lateCopies r.core r.gen r.wslot fun e => e.tid == r.tid

/-- What a workgroup that has ended gives up at once (R22, R80, R219, R271): its phasers with the bindings to them, its place in a cooperative
set, its registers, thread slots and L; its fires follow its copies (R318). -/
def releaseWg (s : State) (c : CoreRef) (gen : Nat) (w : Workgroup) : State :=
  let s := ((s.modCtxAt c gen fun k => k.modWg w.slot fun w => { w with ended := true, firing := w.marked.isEmpty && !w.cancelled }).lateCopies c gen w.slot fun _ => true).reportHeld c gen
  let s := (s.fireAll c gen w.slot).dissolveCoop c gen w
  let s := (s.phasers.filter fun p => p.owner == some (c, gen, w.slot)).foldl (fun s p =>
    (s.unbindPhaser w.grid p { core := c, gen := gen, wslot := w.slot, tid := 0 }).freePhaser p.key) s
  ((s.freeUnit c gen w.slot).wakeAll c fun x => match x with
    | .wgrow _ _ => true
    | _ => false).postOnce (.neighbourhoodPlacement c.pkg c.die)

/-- The end of a workgroup, when none of its threads is GROUPED, SEEDBED or WAIT_XLATE (R22): it releases its residency, and the
block settles with its neighbourhood. -/
def checkEnd (s : State) (c : CoreRef) (gen wslot : Nat) : State :=
  match (s.ctxAt c gen).bind fun k => k.wg wslot with
  | none => s
  | some w =>
    if w.ended || !w.started || w.threads.any (fun t => t.status == .grouped || t.status == .seedbed || t.status == .waitXlate) then s
    else
      let s := s.releaseWg c gen w
      if (s.memberWgs c gen w).all fun x => x.2.ended then s.settle c gen w else s

/-- A block lost (R434, R439, R461): its threads stop at once, acting on phasers as at an `exit`, and the block is
marked with the cause. -/
def loseBlock (s : State) (c : CoreRef) (gen wslot cause : Nat) : State :=
  match (s.ctxAt c gen).bind fun k => k.wg wslot with
  | none => s
  | some w =>
    let live := w.threads.filter fun t => t.status != .exited && t.status != .none
    let s := if cause == 1 then s.countDie c.pkg c.die 0x1010 else s
    let s := s.modCtxAt c gen fun k =>
      { k.modWg wslot (fun w => { w with lost := true, marked := joinNat w.marked [cause],
                                         threads := w.threads.map fun t => { t with status := .exited, owed := [], pend := .none } }) with
        groups := k.groups.filter fun g => g.wslot != wslot }
    let s := live.foldl (fun s t => s.dropAll { core := c, gen := gen, wslot := wslot, tid := t.tid }) s
    (s.resched c).checkEnd c gen wslot

/-- A copy of the context on a core. -/
def copyOf (s : State) (c : CoreRef) (id : Nat) : Option (Ctx × CopyEntry) :=
  (s.core c).ctx.bind fun k => (k.copies.find? fun e => e.id == id).map fun e => (k, e)

/-- A copy of the context on a core changed. -/
def modCopy (s : State) (c : CoreRef) (id : Nat) (f : CopyEntry → CopyEntry) : State :=
  s.modCtx c fun k => { k with copies := mapIf (fun e => e.id == id) f k.copies }

end State

end Sys2Proof.Machine
end

