-- ==== Sys2Proof/Machine/Ops.lean ====
section
/-! DEFINITION. The shared operations of instruction words: the issuing group, the lanes of a unit, taking a trap and
returning from a handler, and the end of a unit (R24-R36, R135-R148, R327-R338). -/

namespace Sys2Proof.Machine

/-! ### Registers and predicates of a thread (R44) -/

namespace Thread

/-- A register's value. -/
def reg (t : Thread) (i : Nat) : Nat := wget t.v i

/-- A register pair's value, the even register low. -/
def pair (t : Thread) (i : Nat) : Nat := wget t.v i + 2 ^ 32 * wget t.v (i + 1)

/-- `n` registers from `i` upward as one integer, the lowest register low. -/
def span (t : Thread) (i : Nat) : Nat → Nat
  | 0 => 0
  | n + 1 => wget t.v i + 2 ^ 32 * span t (i + 1) n

/-- A register written with the low 32 bits of a value. -/
def setReg (t : Thread) (i v : Nat) : Thread := { t with v := wset t.v i v }

/-- `n` registers from `i` upward written with the words of a value, the lowest register low. -/
def setSpan (t : Thread) (i : Nat) : Nat → Nat → Thread
  | 0, _ => t
  | n + 1, v => (t.setReg i v).setSpan (i + 1) n (v / 2 ^ 32)

/-- A predicate's value; p7 reads 1. -/
def getP (t : Thread) (i : Nat) : Bool := i == 7 || bit t.pred i

/-- A predicate written; a write to p7 is discarded. -/
def setP (t : Thread) (i : Nat) (b : Bool) : Thread :=
  if i == 7 then t else { t with pred := t.pred - (if bit t.pred i then 2 ^ i else 0) + (if b then 2 ^ i else 0) }

/-- Whether a thread is active under the predicate of an `hp`, or under none (R140). -/
def meets (t : Thread) : Option (Nat × Bool) → Bool
  | none => true
  | some (p, n) => t.getP p != n

/-- FLAGS bits set; they are sticky (R111). -/
def setFlags (t : Thread) (f : Nat) : Thread := { t with flags := t.flags ||| f }

/-- One owed result put into its registers (R144). -/
def landOne (t : Thread) (o : Owed) : Thread := t.setSpan o.reg o.cnt (o.value.getD 0)

/-- Every owed result landed, in program order (R144, R146). -/
def landAll (t : Thread) : Thread := { (t.owed.foldl landOne t) with owed := [] }

/-- The results that must land before a unit issues: those whose window is over and every older one, or all at a
closing unit (R144, R145). -/
def due (t : Thread) (closing : Bool) : Nat :=
  if closing then t.owed.length else (t.owed.zipIdx.foldl (fun n x => if x.1.left == 0 then x.2 + 1 else n) 0)

/-- The results that are due landed, and the others one unit nearer the end of their windows. -/
def landDue (t : Thread) (closing : Bool) : Thread :=
  let n := t.due closing
  { ((t.owed.take n).foldl landOne t) with owed := (t.owed.drop n).map fun o => { o with left := o.left - 1 } }

/-- The oldest results whose windows are over landed, up to the first that has not arrived: what a halt does for a thread (R146). -/
def landHalted (t : Thread) : Thread :=
  let l := t.owed.takeWhile fun o => o.left == 0 && o.value.isSome
  { (l.foldl landOne t) with owed := t.owed.drop l.length }

/-- Whether a result that is due has not arrived. -/
def missing (t : Thread) (closing : Bool) : Bool := (t.owed.take (t.due closing)).any fun o => o.value.isNone

end Thread

/-! ### The issuing group -/

/-- The group that issues: its core, context, group, workgroup and grid. -/
structure Iss where
  c : CoreRef
  k : Ctx
  g : Group
  w : Workgroup
  grid : Grid
  deriving DecidableEq, Repr

namespace State

/-- The issuing group of a state, where there is one. -/
def issuing (s : State) : Option Iss := do
  let (c, slot) ← s.cur
  let k ← (s.core c).ctx
  let g ← k.group slot
  let w ← k.wg g.wslot
  let grid ← s.grid w.grid
  pure { c := c, k := k, g := g, w := w, grid := grid }

/-- A step of the issuing group: refused where no group issues, a fault where its core has been stopped at once. -/
def onIssue (s : State) (f : Iss → State) : Host.Outcome State Fault Refusal :=
  match s.issuing with
  | none => .refused .noIssuingGroup
  | some x => if (s.core x.c).stopped then .fault .coreStopped else .next (f x)

end State

namespace Iss

/-- The address of the unit's first word (R137). -/
def upc (x : Iss) : Nat :=
  match (x.g.members.head?).bind fun t => x.w.thread t with
  | some t => t.pc
  | none => 0

/-- The address of the target word itself. -/
def tpc (x : Iss) : Nat := x.upc + 4 * x.g.hint.words

/-- The address of the word after the unit. -/
def next (x : Iss) : Nat := (x.tpc + 4) % 2 ^ 64

/-- The lane number of a member (R24). -/
def laneNo (x : Iss) (tid : Nat) : Nat := x.g.members.findIdx fun t => t == tid

/-- The group mask of the members in a list of threads. -/
def mask (x : Iss) (tids : List Nat) : Nat :=
  (x.g.members.zipIdx.filter fun m => tids.contains m.1).foldl (fun a m => a + 2 ^ m.2) 0

/-- The active members (R140, R201): as the unit's first iteration found them, or by the predicate of `hp`; a saved
repeat counter goes on, and one that stands at COUNT has no iteration left (R143, R202). -/
def active (x : Iss) : List Nat :=
  match x.g.hint.act with
  | some l => x.g.members.filter fun t => l.contains t
  | none =>
    x.g.members.filter fun t => match x.w.thread t with
      | some th => (match x.g.hint.hrep with
          | some (cnt, _, _, _) => th.rep < cnt && (th.rep != 0 || th.meets x.g.hint.hp)
          | none => th.meets x.g.hint.hp)
      | none => false

/-- The name of a member. -/
def ref (x : Iss) (tid : Nat) : ThreadRef := { core := x.c, gen := x.k.gen, wslot := x.g.wslot, tid := tid }

/-- The bits of the unit's `hx` words with a field of `w` bits below them, and their total width (R139). -/
def ext (x : Iss) (fieldBits w : Nat) : Nat × Nat :=
  (x.g.hint.hx.foldl (fun a v => a * 2 ^ 22 + v) 0 * 2 ^ w + fieldBits % 2 ^ w, 22 * x.g.hint.hx.length + w)

/-- A signed immediate extended by the unit's `hx` words, as its low `n` bits (R121, R139). -/
def simm (x : Iss) (fieldBits w n : Nat) : Nat := let (v, b) := x.ext fieldBits w; wrapInt (signExt v b) n

/-- The rounding override of the unit's `hmod` (R142). -/
def rm (x : Iss) : Option Nat :=
  match x.g.hint.hmod with
  | some (true, m, _) => some m
  | _ => none

/-- The cache policy of the unit's `hmod` (R136). -/
def policy (x : Iss) : Nat :=
  match x.g.hint.hmod with
  | some (_, _, p) => p
  | none => 0

end Iss

/-- A stride of `hrep` from its code (R136). -/
def strideOf (code : Nat) : Nat := if code == 3 then 4 else code

/-! ### Traps -/

namespace State

/-- The fault record of a trap of a member (R330): its TIME is that of the unit's issue (R338). -/
def trapRec (s : State) (x : Iss) (q : TrapReq) : FaultRec :=
  { time := x.g.hint.issued.getD (s.time x.c.pkg), xpc := q.xpc, lane := q.lane.getD (x.laneNo q.tid), die := x.c.die, core := x.c.core, tid := q.tid,
    pkg := x.c.pkg, block := x.w.block, rtype := 1, code := q.code.num, detail := q.detail,
    gmask := q.gmask.getD (2 ^ x.g.members.length - 1), addr := q.addr, pc := q.pc }

/-- The 64 bytes of a fault record (R330). -/
def recWord (f : FaultRec) : Nat :=
  f.time % 2 ^ 64 * 2 ^ 448 + f.xpc % 2 ^ 64 * 2 ^ 384 + f.lane % 32 * 2 ^ 322 + f.die % 4 * 2 ^ 320 + f.core % 64 * 2 ^ 314 +
    f.tid % 1024 * 2 ^ 304 + f.pkg % 2 ^ 16 * 2 ^ 288 + f.block % 2 ^ 32 * 2 ^ 256 + f.rtype % 256 * 2 ^ 200 + f.code % 256 * 2 ^ 192 +
    f.detail % 2 ^ 32 * 2 ^ 160 + f.gmask % 2 ^ 32 * 2 ^ 128 + f.addr % 2 ^ 64 * 2 ^ 64 + f.pc % 2 ^ 64

/-- A thread parked FAULTED with its record (R332): out of its group, its registrations dropped, the record sent except
for CANCEL and PREEMPT; a CANCEL makes the block count as CANCELLED. -/
def park (s : State) (r : ThreadRef) (slot : Option Nat) (f : FaultRec) : State :=
  let s := s.modThreadAt r fun t => { t with fault := f, pend := .none, held := none }
  let s := match slot with
    | some g => s.leave r.core g [r.tid] .faulted
    | none => s.modThreadAt r fun t => { t with status := .faulted }
  let s := s.dropAll r
  let grid := (((s.ctxAt r.core r.gen).bind fun k => k.wg r.wslot).map fun w => w.grid).getD 0
  let s := if f.code == Code.cancel.num then s.modCtxAt r.core r.gen fun k => k.modWg r.wslot fun w => { w with cancelled := true }
    else if f.code == Code.preempt.num then s else s.report r.core grid f
  s.checkEnd r.core r.gen r.wslot

/-- A thread parked WAIT_XLATE with its record and its notice (R332, R407). -/
def parkXlate (s : State) (r : ThreadRef) (slot : Option Nat) (f : FaultRec) (va kind : Nat) : State :=
  let token := s.nextId % 2 ^ 32
  let cid := ((s.ctxAt r.core r.gen).map fun k => k.cid).getD 0
  let s := s.addWait { token := 0, t := r, engine := false, stage := 1, part := partOfCid cid, cid := cid, addr := va, va := va,
                       kind := kind, time := f.time }
  let s := s.modThreadAt r fun t => { t with fault := f, pend := .none, xtoken := some token }
  match slot with
  | some g => s.leave r.core g [r.tid] .waitXlate
  | none => s.modThreadAt r fun t => { t with status := .waitXlate }

/-- A wait for the hypervisor noted, with its notice, unless the same wait stands (R407). -/
def noteStage2 (s : State) (r : ThreadRef) (engine : Bool) (va ipa kind : Nat) : State :=
  if s.xwaits.any fun x => x.stage == 2 && x.t == r && x.engine == engine && x.va == va then s
  else
    let cid := ((s.ctxAt r.core r.gen).map fun k => k.cid).getD 0
    s.addWait { token := 0, t := r, engine := engine, stage := 2, part := partOfCid cid, cid := cid, addr := ipa, va := va,
                kind := kind, time := s.time r.core.pkg }

/-- A thread's declined waits forgotten once their trap is taken. -/
def dropDeclined (s : State) (r : ThreadRef) : State :=
  { s with xwaits := s.xwaits.filter fun x => !(x.stage == 2 && !x.engine && x.t == r && x.declined) }

/-- Entry of a handler in one step (R333): the record to the top of S, the link push, the window above the
interrupted one, the code and detail in v0 and v1. When the stack has no room the record stays written and the
answer is none. -/
def enterHandler (s : State) (ln : Lane) (f : FaultRec) (ret handler : Nat) : State × Except Stop (Option Thread) :=
  let va := ln.g.frameBase ln.w.block ln.r.tid + (ln.g.slimit - 64)
  match s.xlateFor ln va va .write with
  | (s, .error e) => (s, .error e)
  | (s, .ok pa) =>
    let t := ln.t
    if t.wb + 2 * t.c + 4 > linkBottom ln.g t then (s.writeLoc (.g pa) 64 (recWord f), .ok none)
    else
      match s.moveWindow ln (t.wb + t.c) t.c with
      | (s, .error e) => (s, .error e)
      | (s, .ok t1) =>
        match s.pushLink ln t1 ret t.c with
        | (s, .error e) => (s, .error e)
        | (s, .ok t2) =>
          let t3 := (t2.setReg 0 f.code).setReg 1 f.detail
          (s.writeLoc (.g pa) 64 (recWord f),
           .ok (some { t3 with
             pc := handler, inHandler := true, entryLinks := t2.links, faultTrap := f.code, fault := f, entryRec := f, held := none,
             spillPc := none, ppre := false, yielded := t3.yielded || t3.ppre }))

/-- The handler that a trap enters, if one is named and the thread is in none (R332, R335, R336). -/
def handlerFor (g : Grid) (t : Thread) (code : Code) : Option Nat :=
  if t.inHandler || code == .xlate then none
  else if code == .preempt then (if g.lrec.phnd == 0 then none else some (g.lrec.kimg + g.lrec.phnd))
  else if g.lrec.thnd == 0 then none else some (g.lrec.kimg + g.lrec.thnd)

/-- The second record of an entry that could not reach the thread's frame (R333). -/
def entryFailed (f : FaultRec) (detail addr : Nat) : FaultRec := { f with code := Code.perm.num, detail := detail, addr := addr, xpc := 0 }

/-- One thread's trap taken: WAIT_XLATE, parked, or into its handler (R332, R333, R335). The group slot is none for a
thread that is in no group. A wait that the entry meets leaves the thread as it was. -/
def takeTrap (s : State) (r : ThreadRef) (slot : Option Nat) (f : FaultRec) (q : TrapReq) : State :=
  let s := (s.dropDeclined r).modThreadAt r Thread.landAll
  match s.laneOf r with
  | none => s
  | some ln =>
    if q.code == .xlate then s.parkXlate r slot f q.va q.kind
    else
      match handlerFor ln.g ln.t q.code with
      | none => s.park r slot f
      | some h =>
        match s.enterHandler ln f q.ret h with
        | (s, .ok (some t)) =>
          let s := s.modThreadAt r fun _ => { t with pend := .none }
          -- a pre-emption counts a thread that has entered a user handler as one that has yielded (R335, R336)
          if ln.t.ppre then s.postOnce (.horizonSwap r.core) else s
        | (s, .ok none) => s.park r slot f
        | (s, .error (.xguest va kind _)) =>
          (s.parkXlate r slot f va kind).modThreadAt r fun t => { t with held := some f, spillPc := some q.ret }
        | (s, .error (.trap _ d a)) =>
          let grid := ln.w.grid
          (if q.code == .cancel || q.code == .preempt then s else s.report r.core grid f).park r slot (entryFailed f d a)
        | (s, .error .lost) => s.loseBlock r.core r.gen r.wslot 1
        | (s, .error _) => s

/-- The wait that a thread's trap would meet, and what it notes: a result that is owed, or the hypervisor or an owned line at the frame
(R146, R333). -/
def entryWaits (s : State) (r : ThreadRef) (code : Code) (f : FaultRec) (ret : Nat) : Option (Stall × (State → State)) :=
  match s.laneOf r with
  | none => none
  | some ln =>
    if ln.t.missing true then some (.result, id)
    else
      match handlerFor ln.g ln.t code with
      | none => none
      | some h =>
        match s.enterHandler { ln with t := ln.t.landAll } f ret h with
        | (_, .error (.stage2 va ipa k)) => some (.stage2, fun s => s.noteStage2 ln.r false va ipa k)
        | (_, .error .owned) => some (.recall, id)
        | _ => none

/-- The wait that a trap of the issuing group would meet. -/
def trapWait (s : State) (x : Iss) (q : TrapReq) : Option (Stall × (State → State)) :=
  s.entryWaits (x.ref q.tid) q.code (s.trapRec x q) q.ret

/-- The threads of a group split as at a `call` (R26): the smaller subset leaves, the taken one on a tie. -/
def splitTaken (s : State) (c : CoreRef) (slot : Nat) (taken : Nat → Bool) : State :=
  match (s.core c).ctx.bind fun k => k.group slot with
  | none => s
  | some g =>
    let tk := g.members.filter taken
    let ft := g.members.filter fun t => !taken t
    if tk.isEmpty || ft.isEmpty then s
    else s.leave c slot (if tk.length ≤ ft.length then tk else ft) .seedbed

/-- The threads of a group split by their next address (R27): the largest part stays, the part of the lowest lane on a
tie. -/
def splitByPc (s : State) (c : CoreRef) (slot : Nat) : State :=
  match (s.core c).ctx.bind fun k => (k.group slot).bind fun g => (k.wg g.wslot).map fun w => (g, w) with
  | none => s
  | some (g, w) =>
    let pcOf := fun t => ((w.thread t).map fun (th : Thread) => th.pc).getD 0
    let count := fun pc => (g.members.filter fun t => pcOf t == pc).length
    match firstBy (fun a b => count (pcOf a) > count (pcOf b)) g.members with
    | none => s
    | some best =>
      let out := g.members.filter fun t => pcOf t != pcOf best
      if out.isEmpty then s else s.leave c slot out .seedbed

/-- The traps of one unit taken, in ascending lane order and with one time (R338); entry of a handler splits the group
as a `call` does (R333). -/
def takeTraps (s : State) (x : Iss) (qs : List TrapReq) : State :=
  let s := qs.foldl (fun s q => s.takeTrap (x.ref q.tid) (some x.g.slot) (s.trapRec x q) q) s
  let entered := fun t => qs.any (fun q => q.tid == t) && match s.thread x.c x.g.wslot t with
    | some th => th.status == .grouped && th.inHandler
    | none => false
  s.splitTaken x.c x.g.slot entered

/-! ### Boundary traps (R329) -/

/-- Whether an instruction that waits for a cause has not yet taken effect, so that a CANCEL or PREEMPT is taken at the wait (R308). -/
def notYet (st : Stall) : Bool :=
  match st with
  | .phaser | .grid | .chunk | .merge | .sleep | .wgrow _ _ | .copyQueue | .mtxQueue => true
  | _ => false

/-- The boundary trap that a thread takes before its next unit issues, in the order of R329; inside a user handler only
CANCEL is taken (R335). -/
def boundaryTrap (g : Grid) (t : Thread) : Option TrapReq :=
  if t.ppre && !t.inHandler && g.lrec.phnd != 0 then some { tid := t.tid, code := .preempt, detail := if t.preEvict then 2 else 0, pc := t.pc, ret := t.pc }
  else if t.pcan then some { tid := t.tid, code := .cancel, pc := t.pc, ret := t.pc }
  else
    match t.pbdiv with
    | some f =>
      if t.inHandler then none
      else some { tid := t.tid, code := .barrier, detail := f.detail, addr := f.addr, pc := if f.rtype == 1 then f.pc else t.pc,
                  ret := if f.rtype == 1 then t.arrNext else t.pc }
    | none => none

/-- A boundary trap no longer pending on a thread once it is taken (R329): a CANCEL discards a broken barrier's. -/
def clearBoundary (code : Code) (t : Thread) : Thread :=
  match code with
  | .preempt => { t with ppre := false, inPre := true }
  | .cancel => { t with pcan := false, pbdiv := none }
  | .barrier => { t with pbdiv := none }
  | _ => t

/-- A thread's wait on phasers ended without effect; a signal that a `phsw` had counted is remembered (R228, R308). -/
def unwait (s : State) (r : ThreadRef) : State :=
  let waiting := s.phasers.any fun p => p.members.any fun m => m.t == r && m.waiting
  let s := { s with phasers := s.phasers.map fun (p : Phaser) => p.modMember r fun m => { m with waiting := false, sigWaiting := false } }
  s.modThreadAt r fun t => match t.pend with
    | .wait _ => { t with pend := .none, sigAt := if waiting then t.sigAt else t.sigAt.filter fun x => x != (t.pc, t.inHandler) }
    | _ => { t with pend := .none }

/-- Why the issuing group's unit waits, or has waited since it began to issue. -/
def waitsFor (x : Iss) : Stall := if x.g.stall == .none then x.g.hint.why else x.g.stall

/-- Whether a thread of the issuing group takes a boundary trap now (R230, R308, R329): before a unit that has not begun to issue any; in
a wait CANCEL and PREEMPT where the instruction has not taken effect, and BARRIER_DIVERGENCE at the `phsw` with which the thread arrived. -/
def boundaryOf (x : Iss) (tid : Nat) : Option TrapReq :=
  match x.w.thread tid with
  | none => none
  | some t =>
    match boundaryTrap x.grid t with
    | none => none
    | some q =>
      if x.g.hint.act.isSome then none
      else if waitsFor x == .none then some q
      else
        match q.code, t.pend with
        | .barrier, .wait _ => if (t.pbdiv.map fun f => f.rtype) == some 1 then some q else none
        | .barrier, _ => none
        | _, .none => if notYet (waitsFor x) then some q else none
        | _, .wait _ => some q
        | _, .signal _ => some q
        | _, _ => none

/-- A group taken out of a wait that a boundary trap ends (R308, R336): from a wait between runs it issues its instruction again, and threads
that have come to one `merge` by different units part. -/
def cutWait (s : State) (c : CoreRef) (gen : Nat) (g : Group) : State :=
  if g.st == .waiting || g.st == .pWaiting then
    ((s.modCtxAt c gen fun k => (k.endWait g.slot).modGroup g.slot fun x => { x with hint := {} }).splitByPc c g.slot).resched c
  else s.clearStall c gen g.slot

/-! ### The end of a unit -/

/-- How a unit ends for the group: its threads' next addresses stand in the threads; whether the group then splits, and
whether the unit ends the run (R26, R27, R35). -/
inductive Split where
  | none
  | taken (tids : List Nat)
  | byPc
  deriving DecidableEq, Repr

/-- The unit completed for the group (R35): the words counted, the hints forgotten, the split made, and the run ended at
the end-of-run flag, after 24 words, at a taken transfer or a stop. -/
def endUnit (s : State) (x : Iss) (e stop : Bool) (sp : Split) : State :=
  let s := match sp with
    | .none => s
    | .taken tids => s.splitTaken x.c x.g.slot fun t => tids.contains t
    | .byPc => s.splitByPc x.c x.g.slot
  match (s.core x.c).ctx.bind fun k => (k.group x.g.slot).bind fun g => (k.wg g.wslot).map fun w => (g, w) with
  | none => s
  | some (g, w) =>
    if g.age != x.g.age then s
    else
      let run := x.g.run + x.g.hint.words + 1
      let pc := ((g.members.head?).bind fun t => w.thread t).map fun (t : Thread) => t.pc
      let s := s.modGroup x.c x.g.slot fun g => { g with hint := {}, fillOk := false, granted := 0, run := run, mid := true, turn := s.free }
      if e || stop || 24 ≤ run || pc != some x.next then s.endRun x.c x.g.slot else s

/-- Members that did not trap move to the next word; a unit that repeats returns their counters to 0 (R202). -/
def advance (s : State) (x : Iss) (trapped : List Nat) : State :=
  x.g.members.foldl (fun s t => if trapped.contains t then s else
    s.modThread x.c x.g.wslot t fun th => { th with pc := x.next, rep := if x.g.hint.hrep.isSome then 0 else th.rep, pend := .none }) s

/-- The unit's instruction stalls the group and issues again later (R40); a boundary trap that ends the wait wakes it at
once. -/
def stallUnit (s : State) (x : Iss) (why : Stall) : State :=
  let s := (s.modGroup x.c x.g.slot fun g => { g with turn := s.free, hint := { g.hint with stalled := true, why := why } }).stallGroup x.c x.g.slot why
  match (s.core x.c).ctx.bind fun k => (k.group x.g.slot).bind fun g => (k.wg g.wslot).map fun w => (k, g, w) with
  | none => s
  | some (k, g, w) =>
    if g.members.any fun t => (boundaryOf { x with k := k, g := g, w := w } t).isSome then s.clearStall x.c k.gen g.slot else s

/-- Traps of a unit taken, or the wait that taking them meets, which leaves the state as it was before the unit (R161); `after` is what
follows for the threads that did not trap. -/
def trapsOr (s0 s : State) (x : Iss) (qs : List TrapReq) (after : State → State) : State :=
  match qs.findSome? fun q => s.trapWait x q with
  | some (why, note) => (note s0).stallUnit x why
  | none => after (s.takeTraps x qs)

/-- The traps of a unit that has had no other effect. -/
def withTraps (s : State) (x : Iss) (qs : List TrapReq) (after : State → State) : State := s.trapsOr s x qs after

/-- A unit that raises one trap in each of a list of members and has no other effect; its E still ends the run of the others (R35). -/
def trapAll (s : State) (x : Iss) (e : Bool) (tids : List Nat) (q : Nat → TrapReq) : State :=
  s.withTraps x (tids.map q) fun s =>
    let s := s.advance x tids
    s.endUnit x e false .none

/-- ILLEGAL_ENCODING at a unit, taken by every member (R138). -/
def illegal (s : State) (x : Iss) : State := s.trapAll x false x.g.members fun t => { tid := t, code := .illegal, pc := x.upc, ret := x.upc }

end State

/-! ### Instructions that act lane by lane -/

/-- The registers an instruction names: first register and number of registers of the fields D, A and B; a number of 0
means that the field names no register. -/
structure Fields where
  d : Nat := 0
  dn : Nat := 0
  a : Nat := 0
  an : Nat := 0
  b : Nat := 0
  bn : Nat := 0
  deriving DecidableEq, Repr

/-- What one lane's instruction sees: its lane, the issuing group, and its register fields, stepped under `hrep`. -/
structure LaneIn where
  ln : Lane
  x : Iss
  d : Nat
  a : Nat
  b : Nat
  deriving DecidableEq, Repr

/-- How one lane's instruction ends: done with the thread changed; stopped; a COPY_FAULT with the PC of its unit; or it
waits and issues again. -/
inductive LaneRes where
  | ok (t : Thread)
  | stop (w : Stop)
  | copyFault (detail addr xpc : Nat)
  | wait (t : Thread) (why : Stall)
  deriving DecidableEq, Repr

/-- One lane's part of an instruction. -/
abbrev LaneFn := State → LaneIn → State × LaneRes

/-- What the lanes of a unit have done so far; whether a lane's access waits for the hypervisor or for a line, so that the unit takes no
effect yet (R161), and the waits for the hypervisor to note. -/
structure LaneAcc where
  s : State
  traps : List TrapReq := []
  wait : Option Stall := none
  undo : Bool := false
  notes : List (ThreadRef × Nat × Nat × Nat) := []
  lost : Bool := false
  deriving DecidableEq, Repr

namespace Fields

/-- Whether every register named, over the whole stepped span, lies below the allotment (R45, R141). -/
def within (f : Fields) (c : Nat) (rep : Option (Nat × Nat × Nat × Nat)) : Bool :=
  let n := match rep with
    | some (cnt, _, _, _) => cnt - 1
    | none => 0
  let st := match rep with
    | some (_, sd, sa, sb) => (strideOf sd, strideOf sa, strideOf sb)
    | none => (0, 0, 0)
  (f.dn == 0 || f.d + n * st.1 + f.dn ≤ c) && (f.an == 0 || f.a + n * st.2.1 + f.an ≤ c) && (f.bn == 0 || f.b + n * st.2.2 + f.bn ≤ c)

end Fields

namespace State

/-- The input of one lane at its iteration. -/
def laneIn (s : State) (x : Iss) (fs : Fields) (tid : Nat) : Option LaneIn :=
  match s.thread x.c x.g.wslot tid, s.wg x.c x.g.wslot, s.grid x.w.grid with
  | some t, some w, some g =>
    let st := match x.g.hint.hrep with
      | some (_, sd, sa, sb) => (strideOf sd, strideOf sa, strideOf sb)
      | none => (0, 0, 0)
    some { ln := { r := x.ref tid, lane := x.laneNo tid, t := t, w := w, g := g }, x := x,
           d := fs.d + t.rep * st.1, a := fs.a + t.rep * st.2.1, b := fs.b + t.rep * st.2.2 }
  | _, _, _ => none

/-- One lane's part carried out and recorded. -/
def laneStep (x : Iss) (fs : Fields) (f : LaneFn) (acc : LaneAcc) (tid : Nat) : LaneAcc :=
  match acc.s.laneIn x fs tid with
  | none => acc
  | some i =>
    let q := fun (code : Code) (detail addr xpc kind va : Nat) =>
      ({ tid := tid, code := code, detail := detail, addr := addr, xpc := xpc, pc := x.upc, kind := kind, va := va,
         ret := if code == .software then x.next else x.upc } : TrapReq)
    if i.ln.t.pend == .done then acc
    else if !fs.within i.ln.t.c x.g.hint.hrep then { acc with traps := acc.traps ++ [q .range 0 0 0 0 0] }
    else
      let put := fun (s : State) (t : Thread) => s.modThread x.c x.g.wslot tid fun _ => t
      match f acc.s i with
      | (s, .ok t) => { acc with s := put s { t with pend := .done } }
      | (s, .wait t why) => { acc with s := put s t, wait := some why }
      | (s, .copyFault d a p) => { acc with s := s, traps := acc.traps ++ [q .copyFault d a p 0 0] }
      | (s, .stop (.trap c d a)) => { acc with s := s, traps := acc.traps ++ [q c d a 0 0 0] }
      | (s, .stop (.xguest va k a)) => { acc with s := s, traps := acc.traps ++ [q .xlate 0 a 0 k va] }
      | (s, .stop (.stage2 va ipa k)) => { acc with s := s, undo := true, notes := acc.notes ++ [(x.ref tid, va, ipa, k)], wait := some .stage2 }
      | (s, .stop .owned) => { acc with s := s, undo := true, wait := some .recall }
      | (s, .stop .lost) => { acc with s := s, lost := true }

/-- The state in which a unit waits: that before the unit, with its waits for the hypervisor noted, where a lane's access must wait (R161);
otherwise as the lanes have left it. -/
def laneWaits (acc : LaneAcc) (s : State) : State :=
  if acc.undo then acc.notes.foldl (fun s n => s.noteStage2 n.1 false n.2.1 n.2.2.1 n.2.2.2) s else acc.s

/-- An iteration of a unit that repeats is over for its lanes (R141, R202): the counters go on, a thread that trapped has stopped, and when
no thread has an iteration left the traps are taken, in lane order, and the unit is over (R338). -/
def endIteration (x : Iss) (e : Bool) (cnt : Nat) (acc : LaneAcc) (s0 : State) : State :=
  let act := x.active
  let now := acc.traps.map fun q => q.tid
  let s := act.foldl (fun s t => if now.contains t then s else
    s.modThread x.c x.g.wslot t fun th => { th with pend := .none, rep := th.rep + 1 }) acc.s
  let traps := x.g.hint.traps ++ acc.traps
  let left := act.filter fun t => !now.contains t && match s.thread x.c x.g.wslot t with
    | some th => th.rep < cnt
    | none => false
  if left.isEmpty then
    let qs := sortBy (fun a b => x.laneNo a.tid ≤ x.laneNo b.tid) traps
    s0.trapsOr s x qs fun s => (s.advance x (qs.map fun q => q.tid)).endUnit x e false .none
  else
    s.modGroup x.c x.g.slot fun g =>
      { g with fillOk := false, turn := s.free, hint := { g.hint with act := some left, traps := traps, issued := some (x.g.hint.issued.getD (s.time x.c.pkg)) } }

/-- The unit carried out lane by lane in ascending lane order (R223): one iteration of an `hrep` (R141, R202). A lane
that must wait leaves the group stalled and its unit to issue again; lanes that are done are not done again. -/
def perLane (x : Iss) (e : Bool) (fs : Fields) (f : LaneFn) (s : State) : State :=
  match x.g.hint.hrep with
  | some (0, _, _, _) => (s.advance x []).endUnit x e false .none
  | rep =>
    let acc := x.active.foldl (laneStep x fs f) { s := s }
    if acc.lost then acc.s.loseBlock x.c x.k.gen x.g.wslot 1
    else
      match acc.wait with
      | some why => (laneWaits acc s).stallUnit x why
      | none =>
        match rep with
        | none => s.trapsOr acc.s x acc.traps fun s => (s.advance x (acc.traps.map fun q => q.tid)).endUnit x e false .none
        | some (cnt, _, _, _) => endIteration x e cnt acc s

/-- A word that acts lane by lane, for the issuing group. -/
def execLanes (e : Bool) (fs : Fields) (f : LaneFn) (s : State) : Host.Outcome State Fault Refusal := s.onIssue fun x => perLane x e fs f s

/-! ### The return from a handler (R334, R335) -/

/-- A thread's return from its handler: entries above the one pushed at entry are discarded, the window and the PC are
restored, and the handler is over (R334). -/
def handlerReturn (s : State) (ln : Lane) : State × Except Stop Thread :=
  let t := { ln.t with links := ln.t.entryLinks }
  match s.topLink ln t with
  | (s, .error e) => (s, .error e)
  | (s, .ok (pc, n)) =>
    match s.moveWindow { ln with t := { t with links := t.links - 1 } } (t.wb - n) t.c with
    | (s, .error e) => (s, .error e)
    | (s, .ok t) => (s, .ok { t with pc := pc, inHandler := false, inPre := false, faultTrap := 0, entryLinks := 0 })

end State

end Sys2Proof.Machine
end

