-- ==== Sys2Proof/Machine/Operands.lean ====
section
/-! DEFINITION. The operand forms of the instruction words: registers, pairs, quads, predicates, immediates and packed
halves (R44, R119-R126, R139), each a function of the values that a lane reads. -/

namespace Sys2Proof.Machine

/-- A lane that completes with its thread changed. -/
def laneOk (f : LaneIn → Thread) : LaneFn := fun s i => (s, .ok (f i))

/-- D from A and B. -/
def opBin (e : Bool) (d a b : BitVec 6) (f : Nat → Nat → Nat) : State → Host.Outcome State Fault Refusal :=
  State.execLanes e { d := d.toNat, dn := 1, a := a.toNat, an := 1, b := b.toNat, bn := 1 }
    (laneOk fun i => i.ln.t.setReg i.d (f (i.ln.t.reg i.a) (i.ln.t.reg i.b)))

/-- D from D, A and B. -/
def opTer (e : Bool) (d a b : BitVec 6) (f : Nat → Nat → Nat → Nat) : State → Host.Outcome State Fault Refusal :=
  State.execLanes e { d := d.toNat, dn := 1, a := a.toNat, an := 1, b := b.toNat, bn := 1 }
    (laneOk fun i => i.ln.t.setReg i.d (f (i.ln.t.reg i.d) (i.ln.t.reg i.a) (i.ln.t.reg i.b)))

/-- D from A. -/
def opUn (e : Bool) (d a : BitVec 6) (f : Nat → Nat) : State → Host.Outcome State Fault Refusal :=
  State.execLanes e { d := d.toNat, dn := 1, a := a.toNat, an := 1 } (laneOk fun i => i.ln.t.setReg i.d (f (i.ln.t.reg i.a)))

/-- D and p6 from A, B and p6 (R164). -/
def opCarry (e : Bool) (d a b : BitVec 6) (f : Nat → Nat → Nat → Nat × Bool) : State → Host.Outcome State Fault Refusal :=
  State.execLanes e { d := d.toNat, dn := 1, a := a.toNat, an := 1, b := b.toNat, bn := 1 }
    (laneOk fun i =>
      let r := f (i.ln.t.reg i.a) (i.ln.t.reg i.b) (i.ln.t.getP 6).toNat
      (i.ln.t.setReg i.d r.1).setP 6 r.2)

/-- A predicate from A and B. -/
def opCmp (e : Bool) (p : BitVec 3) (a b : BitVec 6) (f : Nat → Nat → Bool) : State → Host.Outcome State Fault Refusal :=
  State.execLanes e { a := a.toNat, an := 1, b := b.toNat, bn := 1 }
    (laneOk fun i => i.ln.t.setP p.toNat (f (i.ln.t.reg i.a) (i.ln.t.reg i.b)))

/-- The pair D from the pairs A and B; a pair field holds half the register number (R120). -/
def opPair (e : Bool) (d a b : BitVec 5) (f : Nat → Nat → Nat) : State → Host.Outcome State Fault Refusal :=
  State.execLanes e { d := 2 * d.toNat, dn := 2, a := 2 * a.toNat, an := 2, b := 2 * b.toNat, bn := 2 }
    (laneOk fun i => i.ln.t.setSpan i.d 2 (f (i.ln.t.pair i.a) (i.ln.t.pair i.b)))

/-- The pair D from the pair A and the register B. -/
def opPairReg (e : Bool) (d a : BitVec 5) (b : BitVec 6) (f : Nat → Nat → Nat) : State → Host.Outcome State Fault Refusal :=
  State.execLanes e { d := 2 * d.toNat, dn := 2, a := 2 * a.toNat, an := 2, b := b.toNat, bn := 1 }
    (laneOk fun i => i.ln.t.setSpan i.d 2 (f (i.ln.t.pair i.a) (i.ln.t.reg i.b)))

/-- D from A and a 13-bit immediate, extended by `hx` and reduced to 32 bits (R139, R167). -/
def opImm (e : Bool) (d a : BitVec 6) (im : BitVec 13) (f : Nat → Nat → Nat) : State → Host.Outcome State Fault Refusal :=
  State.execLanes e { d := d.toNat, dn := 1, a := a.toNat, an := 1 }
    (laneOk fun i => i.ln.t.setReg i.d (f (i.ln.t.reg i.a) (i.x.simm im.toNat 13 32)))

/-- The pair D as a tagged address over the offset in A (R129). -/
def opLea (e : Bool) (d : BitVec 5) (a : BitVec 6) (f : Nat → Nat) : State → Host.Outcome State Fault Refusal :=
  State.execLanes e { d := 2 * d.toNat, dn := 2, a := a.toNat, an := 1 } (laneOk fun i => i.ln.t.setSpan i.d 2 (f (i.ln.t.reg i.a)))

/-- The rounding mode of a unit that takes one (R163). -/
def modeOf (i : LaneIn) : RMode := rmodeOf (i.x.rm.getD 0)

/-- D and flags from A under the unit's rounding mode. -/
def opRound1 (e : Bool) (d a : BitVec 6) (f : RMode → Nat → Nat × Nat) : State → Host.Outcome State Fault Refusal :=
  State.execLanes e { d := d.toNat, dn := 1, a := a.toNat, an := 1 }
    (laneOk fun i => let r := f (modeOf i) (i.ln.t.reg i.a); (i.ln.t.setReg i.d r.1).setFlags r.2)

/-- D and flags from D, A and B under the unit's rounding mode. -/
def opRound3 (e : Bool) (d a b : BitVec 6) (f : RMode → Nat → Nat → Nat → Nat × Nat) : State → Host.Outcome State Fault Refusal :=
  State.execLanes e { d := d.toNat, dn := 1, a := a.toNat, an := 1, b := b.toNat, bn := 1 }
    (laneOk fun i =>
      let r := f (modeOf i) (i.ln.t.reg i.d) (i.ln.t.reg i.a) (i.ln.t.reg i.b)
      (i.ln.t.setReg i.d r.1).setFlags r.2)

/-- A packed operation carried out on both 16-bit elements, with their flags joined (R168, R169). -/
def packed (f : Nat → Nat → Nat → Nat × Nat) (d a b : Nat) : Nat × Nat :=
  let lo := f (d % 2 ^ 16) (a % 2 ^ 16) (b % 2 ^ 16)
  let hi := f (d / 2 ^ 16) (a / 2 ^ 16) (b / 2 ^ 16)
  (lo.1 + 2 ^ 16 * hi.1, lo.2 ||| hi.2)

/-- A predicate operand, written negated when its flag is set (R120). -/
def predIn (t : Thread) (p : BitVec 3) (neg : Bool) : Bool := t.getP p.toNat != neg

/-- A predicate from two predicates. -/
def opPred (e : Bool) (d a : BitVec 3) (m : Bool) (b : BitVec 3) (n : Bool) (f : Bool → Bool → Bool) :
    State → Host.Outcome State Fault Refusal :=
  State.execLanes e {} (laneOk fun i => i.ln.t.setP d.toNat (f (predIn i.ln.t a m) (predIn i.ln.t b n)))

/-- A value of the special register's thread, written to D. -/
def opRead (e : Bool) (d : BitVec 6) (f : LaneIn → Nat) : State → Host.Outcome State Fault Refusal :=
  State.execLanes e { d := d.toNat, dn := 1 } (laneOk fun i => i.ln.t.setReg i.d (f i))

/-! ### Integer operations (R164, R165) -/

/-- A 32-bit value as a signed integer. -/
def sx32 (a : Nat) : Int := signExt a 32

/-- Bits `hi:lo` of an integer. -/
def bitsI (x : Int) (hi lo : Nat) : Nat := bits (wrapInt x (hi + 1)) hi lo

/-- A condition of R130 on two integers. -/
def condI (cc : Nat) (a b : Int) : Bool :=
  match cc with
  | 0 => a == b
  | 1 => a != b
  | 2 => decide (a < b)
  | 3 => decide (a ≤ b)
  | 4 => decide (a > b)
  | _ => decide (a ≥ b)

/-- Shifts and rotates of a 32-bit value (R164). -/
def shl32 (a n : Nat) : Nat := if n < 32 then a * 2 ^ n % 2 ^ 32 else 0
def shr32 (a n : Nat) : Nat := if n < 32 then a / 2 ^ n else 0
def sar32 (a n : Nat) : Nat := wrapInt (sx32 a / (2 ^ min n 31 : Nat)) 32
def rol32 (a n : Nat) : Nat := (a * 2 ^ (n % 32) + a / 2 ^ (32 - n % 32)) % 2 ^ 32

/-- The position and length of a field from its control (R165). -/
def fieldOf (b : Nat) : Nat × Nat := (bits b 4 0, min (bits b 13 8) (32 - bits b 4 0))

/-- `bfx` (R165). -/
def bfx (signed : Bool) (a b : Nat) : Nat :=
  let (pos, len) := fieldOf b
  if len == 0 then 0
  else
    let f := bits a (pos + len - 1) pos
    if signed then wrapInt (signExt f len) 32 else f

/-- `bfs` (R165). -/
def bfs (d a b : Nat) : Nat :=
  let (pos, len) := fieldOf b
  if len == 0 then d else d - bits d (pos + len - 1) pos * 2 ^ pos + a % 2 ^ len * 2 ^ pos

/-- `bperm` (R165). -/
def bperm (d a b : Nat) : Nat :=
  let q := d * 2 ^ 32 + a
  let byte := fun i => let g := bits b (4 * i + 3) (4 * i); if 8 ≤ g then 0 else q / 2 ^ (8 * g) % 256
  byte 0 + 2 ^ 8 * byte 1 + 2 ^ 16 * byte 2 + 2 ^ 24 * byte 3

/-- Leading zero bits of a 32-bit value. -/
def clz32 (a : Nat) : Nat := if a == 0 then 32 else 31 - a.log2

/-- The 1 bits of a 32-bit value. -/
def pop32 (a : Nat) : Nat := (List.range 32).foldl (fun n i => n + (bit a i).toNat) 0

/-- The bit order of a 32-bit value reversed. -/
def brev32 (a : Nat) : Nat := (List.range 32).foldl (fun n i => n + (bit a (31 - i)).toNat * 2 ^ i) 0

end Sys2Proof.Machine
end

