-- ==== Sys2Proof/Machine/Int.lean ====
section
/-! DEFINITION. The integer instructions of MAJ 0x00 (R123, R164-R166). -/

namespace Sys2Proof.Machine

/-- What an instruction word of this family does: a step of the issuing group. -/
abbrev Meaning := State → Host.Outcome State Fault Refusal

/-- `add.i32`: the sum modulo 2^32 (R164). -/
def execAddI32 (e : Bool) (d a b : BitVec 6) : Meaning := opBin e d a b fun a b => a + b

/-- `sub.i32`: the difference modulo 2^32 (R164). -/
def execSubI32 (e : Bool) (d a b : BitVec 6) : Meaning := opBin e d a b fun a b => a + (2 ^ 32 - b)

/-- `addc.n32`: the sum with p6, and its carry into p6 (R164). -/
def execAddcN32 (e : Bool) (d a b : BitVec 6) : Meaning := opCarry e d a b fun a b p => (a + b + p, decide (2 ^ 32 ≤ a + b + p))

/-- `subb.n32`: the difference less p6, and its borrow into p6 (R164). -/
def execSubbN32 (e : Bool) (d a b : BitVec 6) : Meaning := opCarry e d a b fun a b p => (a + 2 ^ 33 - b - p, decide (a < b + p))

/-- `mul.i32`: the low half of the product (R164). -/
def execMulI32 (e : Bool) (d a b : BitVec 6) : Meaning := opBin e d a b fun a b => a * b

/-- `mulhi.i32`: the high half of the signed product (R164). -/
def execMulhiI32 (e : Bool) (d a b : BitVec 6) : Meaning := opBin e d a b fun a b => bitsI (sx32 a * sx32 b) 63 32

/-- `mulhi.n32`: the high half of the unsigned product (R164). -/
def execMulhiN32 (e : Bool) (d a b : BitVec 6) : Meaning := opBin e d a b fun a b => a * b / 2 ^ 32

/-- `mad.i32` (R164). -/
def execMadI32 (e : Bool) (d a b : BitVec 6) : Meaning := opTer e d a b fun d a b => a * b + d

/-- `min.i32` (R164). -/
def execMinI32 (e : Bool) (d a b : BitVec 6) : Meaning := opBin e d a b fun a b => if sx32 a ≤ sx32 b then a else b

/-- `min.n32` (R164). -/
def execMinN32 (e : Bool) (d a b : BitVec 6) : Meaning := opBin e d a b fun a b => min a b

/-- `max.i32` (R164). -/
def execMaxI32 (e : Bool) (d a b : BitVec 6) : Meaning := opBin e d a b fun a b => if sx32 a ≤ sx32 b then b else a

/-- `max.n32` (R164). -/
def execMaxN32 (e : Bool) (d a b : BitVec 6) : Meaning := opBin e d a b fun a b => max a b

/-- `abs.i32`: 0x8000_0000 gives itself (R164). -/
def execAbsI32 (e : Bool) (d a : BitVec 6) : Meaning := opUn e d a fun a => (sx32 a).natAbs

/-- `neg.i32` (R164). -/
def execNegI32 (e : Bool) (d a : BitVec 6) : Meaning := opUn e d a fun a => 2 ^ 32 - a

/-- `and.b32` (R164). -/
def execAndB32 (e : Bool) (d a b : BitVec 6) : Meaning := opBin e d a b fun a b => a &&& b

/-- `or.b32` (R164). -/
def execOrB32 (e : Bool) (d a b : BitVec 6) : Meaning := opBin e d a b fun a b => a ||| b

/-- `xor.b32` (R164). -/
def execXorB32 (e : Bool) (d a b : BitVec 6) : Meaning := opBin e d a b fun a b => a ^^^ b

/-- `andn.b32` (R164). -/
def execAndnB32 (e : Bool) (d a b : BitVec 6) : Meaning := opBin e d a b fun a b => a &&& (2 ^ 32 - 1 - b)

/-- `not.b32` (R164). -/
def execNotB32 (e : Bool) (d a : BitVec 6) : Meaning := opUn e d a fun a => 2 ^ 32 - 1 - a

/-- `shl.b32`: by the whole unsigned count (R164). -/
def execShlB32 (e : Bool) (d a b : BitVec 6) : Meaning := opBin e d a b shl32

/-- `shr.b32` (R164). -/
def execShrB32 (e : Bool) (d a b : BitVec 6) : Meaning := opBin e d a b shr32

/-- `sar.i32` (R164). -/
def execSarI32 (e : Bool) (d a b : BitVec 6) : Meaning := opBin e d a b sar32

/-- `rol.b32` (R164). -/
def execRolB32 (e : Bool) (d a b : BitVec 6) : Meaning := opBin e d a b rol32

/-- `bfx.n32` (R164, R165). -/
def execBfxN32 (e : Bool) (d a b : BitVec 6) : Meaning := opBin e d a b (bfx false)

/-- `bfx.i32` (R164, R165). -/
def execBfxI32 (e : Bool) (d a b : BitVec 6) : Meaning := opBin e d a b (bfx true)

/-- `bfs.b32` (R164, R165). -/
def execBfsB32 (e : Bool) (d a b : BitVec 6) : Meaning := opTer e d a b bfs

/-- `clz.b32` (R164). -/
def execClzB32 (e : Bool) (d a : BitVec 6) : Meaning := opUn e d a clz32

/-- `pop.b32` (R164). -/
def execPopB32 (e : Bool) (d a : BitVec 6) : Meaning := opUn e d a pop32

/-- `brev.b32` (R164). -/
def execBrevB32 (e : Bool) (d a : BitVec 6) : Meaning := opUn e d a brev32

/-- `bperm.b32` (R164, R165). -/
def execBpermB32 (e : Bool) (d a b : BitVec 6) : Meaning := opTer e d a b bperm

/-- `mov.b32` (R164). -/
def execMovB32 (e : Bool) (d a : BitVec 6) : Meaning := opUn e d a fun a => a

/-- `cmp.i32`: a predicate from signed values (R166). -/
def execCmpI32 (e : Bool) (p c : BitVec 3) (a b : BitVec 6) : Meaning := opCmp e p a b fun a b => condI c.toNat (sx32 a) (sx32 b)

/-- `cmp.n32`: a predicate from unsigned values (R166). -/
def execCmpN32 (e : Bool) (p c : BitVec 3) (a b : BitVec 6) : Meaning := opCmp e p a b fun a b => condI c.toNat a b

/-- `add.i64` on pairs (R164). -/
def execAddI64 (e : Bool) (d a b : BitVec 5) : Meaning := opPair e d a b fun a b => a + b

/-- `sub.i64` on pairs (R164). -/
def execSubI64 (e : Bool) (d a b : BitVec 5) : Meaning := opPair e d a b fun a b => a + (2 ^ 64 - b)

/-- `shl.b64`: a pair by a register count (R164). -/
def execShlB64 (e : Bool) (d a : BitVec 5) (b : BitVec 6) : Meaning := opPairReg e d a b fun a n => if n < 64 then a * 2 ^ n else 0

/-- `shr.b64` (R164). -/
def execShrB64 (e : Bool) (d a : BitVec 5) (b : BitVec 6) : Meaning := opPairReg e d a b fun a n => if n < 64 then a / 2 ^ n else 0

/-! ### Immediate instructions (R129, R167) -/

/-- `addi`. -/
def execAddi (e : Bool) (d a : BitVec 6) (i : BitVec 13) : Meaning := opImm e d a i fun a m => a + m

/-- `andi`. -/
def execAndi (e : Bool) (d a : BitVec 6) (i : BitVec 13) : Meaning := opImm e d a i fun a m => a &&& m

/-- `ori`. -/
def execOri (e : Bool) (d a : BitVec 6) (i : BitVec 13) : Meaning := opImm e d a i fun a m => a ||| m

/-- `xori`. -/
def execXori (e : Bool) (d a : BitVec 6) (i : BitVec 13) : Meaning := opImm e d a i fun a m => a ^^^ m

/-- `shli`: as `shl.b32` with the count in the word. -/
def execShli (e : Bool) (d a : BitVec 6) (n : BitVec 5) : Meaning := opUn e d a fun a => shl32 a n.toNat

/-- `shri`. -/
def execShri (e : Bool) (d a : BitVec 6) (n : BitVec 5) : Meaning := opUn e d a fun a => shr32 a n.toNat

/-- `sari`. -/
def execSari (e : Bool) (d a : BitVec 6) (n : BitVec 5) : Meaning := opUn e d a fun a => sar32 a n.toNat

/-- `roli`. -/
def execRoli (e : Bool) (d a : BitVec 6) (n : BitVec 5) : Meaning := opUn e d a fun a => rol32 a n.toNat

/-- `cmpi`: signed conditions, and the unsigned `ltn` and `gen` (R130, R167). -/
def execCmpi (e : Bool) (p c : BitVec 3) (a : BitVec 6) (i : BitVec 13) : Meaning :=
  State.execLanes e { a := a.toNat, an := 1 }
    (laneOk fun l =>
      let x := l.ln.t.reg l.a
      let m := l.x.simm i.toNat 13 32
      l.ln.t.setP p.toNat (if c.toNat == 6 then decide (x < m) else if c.toNat == 7 then decide (m ≤ x) else condI c.toNat (sx32 x) (sx32 m)))

/-- `lim`: a register, with no or one `hx` (R139). -/
def execLim (e : Bool) (d : BitVec 6) (i : BitVec 19) : Meaning :=
  State.execLanes e { d := d.toNat, dn := 1 } (laneOk fun l => l.ln.t.setReg l.d (l.x.simm i.toNat 19 32))

/-- `lim.b64`: the 63-bit immediate of two `hx`, sign-extended into a pair (R139). -/
def execLimB64 (e : Bool) (d : BitVec 5) (i : BitVec 19) : Meaning :=
  State.execLanes e { d := 2 * d.toNat, dn := 2 } (laneOk fun l => l.ln.t.setSpan l.d 2 (l.x.simm i.toNat 19 64))

/-- `lea.l` (R64, R129). -/
def execLeaL (e : Bool) (d : BitVec 5) (a : BitVec 6) : Meaning := opLea e d a fun o => 0xF1 * 2 ^ 56 + o

/-- `lea.d` on the thread's own die. -/
def execLeaD (e : Bool) (d : BitVec 5) (a : BitVec 6) : Meaning := opLea e d a fun o => 0xF2 * 2 ^ 56 + o

/-- `lea.d` with a die number. -/
def execLeaDDie (e : Bool) (d : BitVec 5) (a : BitVec 6) (n : BitVec 2) : Meaning :=
  opLea e d a fun o => 0xF2 * 2 ^ 56 + 2 ^ 34 + n.toNat * 2 ^ 32 + o

/-- `lea.s`. -/
def execLeaS (e : Bool) (d : BitVec 5) (a : BitVec 6) : Meaning := opLea e d a fun o => 0xF3 * 2 ^ 56 + o

end Sys2Proof.Machine
end

