-- ==== Sys2Proof/Machine/Falu.lean ====
section
/-! DEFINITION. The floating-point instructions of MAJ 0x01 and the conversions and quantisers of MAJ 0x02 (R124-R126,
R168-R181). -/

namespace Sys2Proof.Machine

/-- An FP32 operand's value. -/
def f32 (a : Nat) : Fp := fp32.decode a

/-- `fadd.f32` (R169). -/
def execFaddF32 (e : Bool) (d a b : BitVec 6) : Meaning := opRound3 e d a b fun m _ a b => faddR fp32 m (f32 a) (f32 b)

/-- `fsub.f32`. -/
def execFsubF32 (e : Bool) (d a b : BitVec 6) : Meaning := opRound3 e d a b fun m _ a b => faddR fp32 m (f32 a) (f32 b).negate

/-- `fmul.f32`. -/
def execFmulF32 (e : Bool) (d a b : BitVec 6) : Meaning := opRound3 e d a b fun m _ a b => fmulR fp32 m (f32 a) (f32 b)

/-- `ffma.f32`: one rounding. -/
def execFfmaF32 (e : Bool) (d a b : BitVec 6) : Meaning := opRound3 e d a b fun m d a b => ffmaR fp32 m (f32 a) (f32 b) (f32 d)

/-- `fmin.f32`. -/
def execFminF32 (e : Bool) (d a b : BitVec 6) : Meaning := opBin e d a b (fminC fp32)

/-- `fmax.f32`. -/
def execFmaxF32 (e : Bool) (d a b : BitVec 6) : Meaning := opBin e d a b (fmaxC fp32)

/-- `fabs.f32`: a NaN gives the canonical NaN. -/
def execFabsF32 (e : Bool) (d a : BitVec 6) : Meaning := opUn e d a fun a => if (f32 a).isNan then fp32.nan else a % 2 ^ 31

/-- `fneg.f32`: a NaN gives the canonical NaN. -/
def execFnegF32 (e : Bool) (d a : BitVec 6) : Meaning := opUn e d a fun a => if (f32 a).isNan then fp32.nan else a ^^^ 2 ^ 31

/-- `frcp.f32` (R170). -/
def execFrcpF32 (e : Bool) (d a : BitVec 6) : Meaning := opRound1 e d a fun m a => frcpR m (f32 a)

/-- `frsq.f32` (R170). -/
def execFrsqF32 (e : Bool) (d a : BitVec 6) : Meaning := opRound1 e d a fun m a => frsqR m (f32 a)

/-- `fsqr.f32` (R170). -/
def execFsqrF32 (e : Bool) (d a : BitVec 6) : Meaning := opRound1 e d a fun m a => fsqrR m (f32 a)

/-- `fex2.f32`: rounds RNE only (R117, R163). -/
def execFex2F32 (e : Bool) (d a : BitVec 6) : Meaning := opRound1 e d a fun _ a => exp2Code a

/-- `flg2.f32` (R170). -/
def execFlg2F32 (e : Bool) (d a : BitVec 6) : Meaning := opRound1 e d a fun m a => flg2R m (f32 a)

/-- `fcmp.f32` (R171). -/
def execFcmpF32 (e : Bool) (p c : BitVec 3) (a b : BitVec 6) : Meaning := opCmp e p a b (fcmpC c.toNat)

/-- `fcls.f32` (R172). -/
def execFclsF32 (e : Bool) (d a : BitVec 6) : Meaning := opUn e d a fclassC

/-- `hadd2.f16` (R169). -/
def execHadd2F16 (e : Bool) (d a b : BitVec 6) : Meaning :=
  opRound3 e d a b fun m => packed fun _ a b => faddR fp16 m (fp16.decode a) (fp16.decode b)

/-- `hmul2.f16`. -/
def execHmul2F16 (e : Bool) (d a b : BitVec 6) : Meaning :=
  opRound3 e d a b fun m => packed fun _ a b => fmulR fp16 m (fp16.decode a) (fp16.decode b)

/-- `hfma2.f16`. -/
def execHfma2F16 (e : Bool) (d a b : BitVec 6) : Meaning :=
  opRound3 e d a b fun m => packed fun d a b => ffmaR fp16 m (fp16.decode a) (fp16.decode b) (fp16.decode d)

/-- `hmax2.f16`. -/
def execHmax2F16 (e : Bool) (d a b : BitVec 6) : Meaning := opBin e d a b fun a b => (packed (fun _ a b => (fmaxC fp16 a b, 0)) 0 a b).1

/-- `hmin2.f16`. -/
def execHmin2F16 (e : Bool) (d a b : BitVec 6) : Meaning := opBin e d a b fun a b => (packed (fun _ a b => (fminC fp16 a b, 0)) 0 a b).1

/-- `bfma2.bf16`. -/
def execBfma2Bf16 (e : Bool) (d a b : BitVec 6) : Meaning :=
  opRound3 e d a b fun m => packed fun d a b => ffmaR bf16 m (bf16.decode a) (bf16.decode b) (bf16.decode d)

/-! ### Conversions (R174) -/

/-- `fcvt`: a NaN gives the destination's canonical NaN. -/
def execFcvt (e : Bool) (d a : BitVec 6) (s t : BitVec 3) : Meaning :=
  opRound1 e d a fun m a => (fmtOf t.toNat).round m ((fmtOf s.toNat).decode a)

/-- `fcvi.i32`. -/
def execFcviI32 (e : Bool) (d a : BitVec 6) (s : BitVec 3) : Meaning :=
  opRound1 e d a fun m a => let r := roundInt m (-(2 ^ 31)) (2 ^ 31 - 1) ((fmtOf s.toNat).decode a); (wrapInt r.1 32, r.2)

/-- `fcvi.n32`. -/
def execFcviN32 (e : Bool) (d a : BitVec 6) (s : BitVec 3) : Meaning :=
  opRound1 e d a fun m a => let r := roundInt m 0 (2 ^ 32 - 1) ((fmtOf s.toNat).decode a); (wrapInt r.1 32, r.2)

/-- `icvf.i32`. -/
def execIcvfI32 (e : Bool) (d a : BitVec 6) (t : BitVec 3) : Meaning :=
  opRound1 e d a fun m a => (fmtOf t.toNat).round m (Fp.ofInt (sx32 a) 0 false)

/-- `icvf.n32`. -/
def execIcvfN32 (e : Bool) (d a : BitVec 6) (t : BitVec 3) : Meaning :=
  opRound1 e d a fun m a => (fmtOf t.toNat).round m (Fp.ofInt a 0 false)

/-! ### Block quantisation (R173-R181) -/

/-- `qcv`: the element in the pair's low register, scale and outlier in the high one (R175). -/
def execQcv (e : Bool) (d : BitVec 6) (a : BitVec 5) (t : BitVec 3) : Meaning :=
  State.execLanes e { d := d.toNat, dn := 1, a := 2 * a.toNat, an := 2 }
    (laneOk fun i =>
      let so := i.ln.t.reg (i.a + 1)
      let r := quantise t.toNat (modeOf i) (bits so 7 0) (bits so 15 8) (f32 (i.ln.t.reg i.a))
      (i.ln.t.setReg i.d r.1).setFlags r.2)

/-- `qcvs`: keyed stochastic rounding with the key in the registers after the scale (R108, R109, R176). -/
def execQcvs (e : Bool) (d : BitVec 6) (a : BitVec 4) (t : BitVec 3) : Meaning :=
  State.execLanes e { d := d.toNat, dn := 1, a := 4 * a.toNat, an := 7 }
    (laneOk fun i =>
      let r := fun n => i.ln.t.reg (i.a + n)
      let u := mix64 (r 4 + 2 ^ 32 * r 5) (bits (r 3) 27 8) (r 6) (r 2 + 2 ^ 32 * bits (r 3) 7 0)
      let q := quantise t.toNat (.sr u) (bits (r 1) 7 0) (bits (r 1) 15 8) (f32 (r 0))
      (i.ln.t.setReg i.d q.1).setFlags q.2)

/-- `qdq` (R177). -/
def execQdq (e : Bool) (d : BitVec 6) (a : BitVec 5) (s t : BitVec 3) : Meaning :=
  State.execLanes e { d := d.toNat, dn := 1, a := 2 * a.toNat, an := 2 }
    (laneOk fun i =>
      let so := i.ln.t.reg (i.a + 1)
      let c := i.ln.t.reg i.a % 2 ^ fmtBits s.toNat
      let r := (fmtOf t.toNat).round (modeOf i) (narrowValue s.toNat c (bits so 7 0) (bits so 15 8))
      (i.ln.t.setReg i.d r.1).setFlags r.2)

/-- The value of a register in every lane of the group before the unit's iteration; none when the group is not 32 active threads (R181).
DESIGN CHOICE (log 95): a lane that raises REGISTER_RANGE itself still contributes what stands behind its register. -/
def groupRegs (i : LaneIn) (reg : Nat) : Option (List Nat) :=
  if i.x.g.members.length == 32 && i.x.active.length == 32 then
    some (i.x.g.members.map fun t => ((i.x.w.thread t).map fun (th : Thread) => th.reg reg).getD 0)
  else none

/-- `floor(log2 m)` of a finite nonzero magnitude. -/
def floorLog2 : Fp → Int
  | .fin _ m e => Fp.msb m e
  | _ => 0

/-- The exponent of the largest value of a narrow format (R178). -/
def emaxOf (fmt : Nat) : Int :=
  match fmt with
  | 3 => 8
  | 4 => 15
  | 7 => 6
  | _ => 2

/-- The scale code of a block of values (R178). -/
def blockScale (fmt : Nat) (xs : List Fp) : Nat :=
  let vs := xs.map Fp.abs
  if vs.any Fp.isNan then 0xFF
  else
    match vs.foldl (fun m v => if Fp.lt m v then v else m) (.fin false 0 0) with
    | .inf _ => 0xFE
    | m => if m.isZero then 0x7F else (sat (floorLog2 m - emaxOf fmt + 127) 0 254).toNat

/-- `qsc`: a group instruction (R178, R181). -/
def execQsc (e : Bool) (d a : BitVec 6) (t : BitVec 3) : Meaning :=
  State.execLanes e { d := d.toNat, dn := 1, a := a.toNat, an := 1 } fun s i =>
    match groupRegs i i.a with
    | none => (s, .stop (.trap .group 0 0))
    | some xs => (s, .ok (i.ln.t.setReg i.d (blockScale t.toNat (xs.map f32))))

/-- The error of a scaled element against E2M1 under RNE (R179): an infinity, or a magnitude. -/
def outlierError (y : Fp) : Fp :=
  match y with
  | .nan => .fin false 0 0
  | .inf _ => .inf false
  | v => (Fp.add false v (e2m1.decode (e2m1.round .rne v).1).negate).abs

/-- The outlier of a block (R179). -/
def blockOutlier (scale : Nat) (xs : List Fp) : Nat :=
  if scale == 0xFF then 0
  else
    let ys := xs.map fun x => x.scale (127 - (scale : Int))
    let best := ys.foldl (fun (b : Fp × Fp) y => if Fp.lt b.1 (outlierError y) then (outlierError y, y) else b) (.fin false 0 0, .fin false 0 0)
    if best.1.isZero then 0 else (e4m3.round .rne best.2).1

/-- `qox`: a group instruction with the scale of lane 0 (R179, R181). -/
def execQox (e : Bool) (d a b : BitVec 6) : Meaning :=
  State.execLanes e { d := d.toNat, dn := 1, a := a.toNat, an := 1, b := b.toNat, bn := 1 } fun s i =>
    match groupRegs i i.a, groupRegs i i.b with
    | some xs, some bs => (s, .ok (i.ln.t.setReg i.d (blockOutlier (bits (bs.headD 0) 7 0) (xs.map f32))))
    | _, _ => (s, .stop (.trap .group 0 0))

/-- `pkh` (R180). -/
def execPkh (e : Bool) (d a b : BitVec 6) : Meaning := opBin e d a b fun a b => b % 2 ^ 16 * 2 ^ 16 + a % 2 ^ 16

end Sys2Proof.Machine
end

