-- ==== Sys2Proof/Machine/Misc.lean ====
section
/-! DEFINITION. Predicates, selection and special registers: MAJ 0x03 (R127, R182-R186). -/

namespace Sys2Proof.Machine

/-- `pand` (R182). -/
def execPand (e : Bool) (d a : BitVec 3) (m : Bool) (b : BitVec 3) (n : Bool) : Meaning := opPred e d a m b n and

/-- `por`. -/
def execPor (e : Bool) (d a : BitVec 3) (m : Bool) (b : BitVec 3) (n : Bool) : Meaning := opPred e d a m b n or

/-- `pxor`. -/
def execPxor (e : Bool) (d a : BitVec 3) (m : Bool) (b : BitVec 3) (n : Bool) : Meaning := opPred e d a m b n (fun p q => p != q)

/-- `pnot`. -/
def execPnot (e : Bool) (d a : BitVec 3) (m : Bool) : Meaning := opPred e d a m a m fun p _ => !p

/-- `pmov`. -/
def execPmov (e : Bool) (d a : BitVec 3) (m : Bool) : Meaning := opPred e d a m a m fun p _ => p

/-- `vmovp vD`: the predicates as a byte, p7 reading 1 (R183). -/
def execVmovpToReg (e : Bool) (d : BitVec 6) : Meaning := opRead e d fun i => 128 + i.ln.t.pred % 128

/-- `vmovp preds, vA` (R183). -/
def execVmovpToPreds (e : Bool) (a : BitVec 6) : Meaning :=
  State.execLanes e { a := a.toNat, an := 1 } (laneOk fun i => { i.ln.t with pred := i.ln.t.reg i.a % 128 })

/-- The value a special-register selector names (R185). -/
def sregValue (i : LaneIn) (sel : Nat) : Nat :=
  let g := i.ln.g
  let blk := i.ln.w.block
  let home := i.ln.w.home.getD i.ln.r.core
  match sel with
  | 0x000 => i.ln.t.tid
  | 0x001 => g.lrec.wgsize
  | 0x002 => blk % g.lrec.gx
  | 0x003 => blk / g.lrec.gx % g.lrec.gy
  | 0x004 => blk / (g.lrec.gx * g.lrec.gy)
  | 0x005 => blk
  | 0x006 => g.lrec.gx
  | 0x007 => g.lrec.gy
  | 0x008 => g.lrec.gz
  | 0x009 => i.ln.w.m
  | 0x00A => i.ln.w.members.length
  | 0x00B => i.ln.lane
  | 0x00C => i.x.g.members.length
  | 0x00D => i.x.mask i.x.active
  | 0x010 => i.ln.t.flags
  | 0x011 => i.ln.t.flags
  | 0x012 => i.ln.t.c
  | 0x013 => g.kern.allot
  | 0x014 => i.ln.t.links
  | 0x020 => home.core
  | 0x021 => home.die
  | 0x022 => home.pkg
  | _ => i.x.g.sched

/-- `sreg`: `flagsclr` also clears FLAGS (R185). -/
def execSreg (e : Bool) (d : BitVec 6) (s : BitVec 12) : Meaning :=
  State.execLanes e { d := d.toNat, dn := 1 }
    (laneOk fun i =>
      let t := i.ln.t.setReg i.d (sregValue i s.toNat)
      if s.toNat == 0x011 then { t with flags := 0 } else t)

/-- `tnow`: whole ns into a pair and the fraction into the next register, one reading for the group (R186). -/
def execTnow (e : Bool) (d : BitVec 5) : Meaning :=
  State.execLanes e { d := 2 * d.toNat, dn := 3 } fun s i =>
    let clock := (s.pkg i.ln.r.core.pkg).clock
    (s, .ok (i.ln.t.setSpan i.d 3 (clock.ns % 2 ^ 64 + 2 ^ 64 * (clock.frac % 2 ^ 16))))

/-- `sel`: A where the predicate, written negated when `n`, is 1, else B (R184). -/
def execSel (e : Bool) (d a b : BitVec 6) (n : Bool) (q : BitVec 3) : Meaning :=
  State.execLanes e { d := d.toNat, dn := 1, a := a.toNat, an := 1, b := b.toNat, bn := 1 }
    (laneOk fun i => i.ln.t.setReg i.d (if predIn i.ln.t q n then i.ln.t.reg i.a else i.ln.t.reg i.b))

end Sys2Proof.Machine
end

