-- ==== Sys2Proof/Machine/Ctrl.lean ====
section
/-! DEFINITION. Branches, calls and returns, and the ends, pauses and resizes of threads: MAJ 0x0C-0x0F (R26-R34,
R47-R50, R131, R187-R199). -/

namespace Sys2Proof.Machine

namespace State

/-- A control transfer carried out by the active lanes: each sets its own PC, inactive lanes go to the next word, and the
group splits (R192). -/
def transfer (x : Iss) (e : Bool) (fs : Fields) (sp : List Nat → Split) (f : LaneFn) (s : State) : State :=
  let act := x.active
  let acc := act.foldl (laneStep x fs f) { s := s }
  if acc.lost then acc.s.loseBlock x.c x.k.gen x.g.wslot 1
  else
    match acc.wait with
    | some why => (laneWaits acc s).stallUnit x why
    | none =>
      let trapped := acc.traps.map fun q => q.tid
      s.trapsOr acc.s x acc.traps fun s =>
        let s := act.foldl (fun s t => if trapped.contains t then s else s.modThread x.c x.g.wslot t fun th => { th with pend := .none }) s
        let s := s.advance x (trapped ++ act)
        s.endUnit x e false (sp (act.filter fun t => !trapped.contains t))

/-- A control transfer as the issuing group's step. -/
def execTransfer (e : Bool) (fs : Fields) (sp : List Nat → Split) (f : LaneFn) (s : State) : Host.Outcome State Fault Refusal :=
  s.onIssue fun x => transfer x e fs sp f s

/-- The target of a branch or call: the address of its own word plus four times the offset (R121, R139). -/
def target (x : Iss) (off w : Nat) : Nat := (x.tpc + 4 * x.simm off w 64) % 2 ^ 64

/-- A spill or fill that a window move needs stalls the group once before the unit is carried out (R40, R50). -/
def spillWait (x : Iss) (moves : List Nat) (s : State) (k : State → State) : State :=
  if moves.isEmpty || x.g.fillOk then k s else (s.stallUnit x .spill).postOnce (.spillFillCompletion x.c x.g.slot)

/-- The checks and effect of a call with shift `n` to a target (R47): nothing changes where it traps. -/
def callLane (n target : Nat) : LaneFn := fun s i =>
  let t := i.ln.t
  if t.c < n then (s, .stop (.trap .window 0 0))
  else if linkBottom i.ln.g t < t.wb + n + t.c + 4 then (s, .stop (.trap .stack 0 0))
  else
    match s.moveWindow i.ln (t.wb + n) t.c with
    | (s, .error w) => (s, .stop w)
    | (s, .ok t1) =>
      match s.pushLink i.ln t1 i.x.next n with
      | (s, .error w) => (s, .stop w)
      | (s, .ok t2) => (s, .ok { t2 with pc := target })

end State

open State

/-- `bra` (R26, R188). -/
def execBra (e : Bool) (p : BitVec 3) (n : Bool) (o : BitVec 21) : Meaning := fun s => s.onIssue fun x =>
  let tg := target x o.toNat 21
  let taken := x.active.filter fun t => match x.w.thread t with
    | some th => predIn th p n
    | none => false
  transfer x e {} (fun _ => .taken taken)
    (laneOk fun i => { i.ln.t with pc := if predIn i.ln.t p n then tg else i.x.next }) s

/-- `brau`: as `bra` where the active threads agree, otherwise UNIFORMITY (R29). -/
def execBrau (e : Bool) (p : BitVec 3) (n : Bool) (o : BitVec 21) : Meaning := fun s => s.onIssue fun x =>
  let tg := target x o.toNat 21
  let taken := x.active.filter fun t => match x.w.thread t with
    | some th => predIn th p n
    | none => false
  if taken.isEmpty || taken.length == x.active.length then
    transfer x e {} (fun _ => .taken taken)
      (laneOk fun i => { i.ln.t with pc := if predIn i.ln.t p n then tg else i.x.next }) s
  else
    s.trapAll x e x.active fun t =>
      { tid := t, code := .uniformity, detail := x.mask taken, pc := x.upc, ret := x.upc, gmask := some (x.mask x.active) }

/-- `call`: the calling threads are the taken subset (R47, R192). -/
def execCall (e : Bool) (sh : BitVec 6) (o : BitVec 19) : Meaning := fun s => s.onIssue fun x =>
  let tg := target x o.toNat 19
  spillWait x (if sh.toNat == 0 then [] else x.active) s (transfer x e {} (fun l => .taken l) (callLane sh.toNat tg))

/-- `callr`: MISALIGNED, WINDOW_SHIFT, then STACK_LIMIT (R189); the group splits by destination (R27). -/
def execCallr (e : Bool) (a : BitVec 5) (b : BitVec 6) : Meaning := fun s => s.onIssue fun x =>
  let moves := x.active.filter fun t => match x.w.thread t with
    | some th => th.reg b.toNat != 0
    | none => false
  spillWait x moves s (transfer x e { a := 2 * a.toNat, an := 2, b := b.toNat, bn := 1 } (fun _ => .byPc) fun s i =>
    let tg := i.ln.t.pair i.a
    if tg % 4 != 0 then (s, .stop (.trap .misaligned 0 tg)) else callLane (i.ln.t.reg i.b) tg s i)

/-- `jmpr` (R190). -/
def execJmpr (e : Bool) (a : BitVec 5) : Meaning :=
  execTransfer e { a := 2 * a.toNat, an := 2 } (fun _ => .byPc) fun s i =>
    let tg := i.ln.t.pair i.a
    if tg % 4 != 0 then (s, .stop (.trap .misaligned 0 tg)) else (s, .ok { i.ln.t with pc := tg })

/-- `ret`: the top link entry popped and its window restored; an empty link stack is STACK_LIMIT with detail 1 (R48). -/
def execRet (e : Bool) : Meaning := fun s => s.onIssue fun x =>
  spillWait x x.active s (transfer x e {} (fun _ => .byPc) fun s i =>
    let t := i.ln.t
    if t.links == 0 then (s, .stop (.trap .stack 1 0))
    else
      match s.topLink i.ln t with
      | (s, .error w) => (s, .stop w)
      | (s, .ok (pc, n)) =>
        match s.moveWindow { i.ln with t := { t with links := t.links - 1 } } (t.wb - n) t.c with
        | (s, .error w) => (s, .stop w)
        | (s, .ok t) => (s, .ok { t with pc := pc }))

/-- `nop` (R193). -/
def execNop (e : Bool) : Meaning := fun s => s.onIssue fun x => (s.advance x []).endUnit x e false .none

/-- `exit`: each active thread drops its registrations and leaves EXITED; the workgroup may end (R22, R194). -/
def execExit (e : Bool) : Meaning := fun s => s.onIssue fun x =>
  let act := x.active
  let s := act.foldl (fun s t => (s.dropAll (x.ref t)).exitCopies (x.ref t)) s
  let s := s.advance x act
  let s := act.foldl (fun s t => s.modThread x.c x.g.wslot t fun th => { th with pend := .none }) s
  let s := if act.isEmpty then s else s.leave x.c x.g.slot act .exited
  (s.endUnit x e false .none).checkEnd x.c x.k.gen x.g.wslot

/-- `merge`: the group passes at once, or waits for others of its workgroup (R34, R195); `hp` does not apply. Its threads stand at their unit's
first word until the wait is over (R137). -/
def execMerge (_e : Bool) : Meaning := fun s => s.onIssue fun x =>
  if mergeFull x.k x.g then (s.advance x []).endUnit x true true .none
  else
    let s := (s.waitGroup x.c x.g.slot .merge (s.gfc (partOfCid x.k.cid)).2.2).modGroup x.c x.g.slot fun g =>
      { g with hint := {}, fillOk := false, mergePc := x.tpc }
    let s := s.seeded x.c
    match (s.core x.c).ctx.bind fun k => (x.g.members.head?).bind fun t => k.groupOf x.g.wslot t with
    | none => s
    | some g =>
      if g.stall != .merge then s
      else if (s.gfc (partOfCid x.k.cid)).2.2 == 0 then s.passMerge x.c g.slot
      else s.postOnce (.mergeWaitExpiry x.c g.slot)

/-- `yield`: the run ends (R196). -/
def execYield (e : Bool) : Meaning := fun s => s.onIssue fun x => (s.advance x []).endUnit x e true .none

/-- Whether an express swap is in progress on a core (R337). -/
def expressPending (s : State) (c : CoreRef) : Bool :=
  match (s.core c).swap with
  | .express _ _ _ _ => true
  | _ => false

/-- `yield.pd`: in a PREEMPT handler whose swap is pending, the end of the thread's part in the save (R196, R337). -/
def execYieldPd (e : Bool) : Meaning := fun s => s.onIssue fun x =>
  let inPre := x.g.members.filter fun t => match x.w.thread t with
    | some th => th.inPre
    | none => false
  let s' := (s.advance x []).endUnit x e true .none
  if inPre.isEmpty || !expressPending s x.c then s'
  else
    let s := inPre.foldl (fun s t => s.modThread x.c x.g.wslot t fun th => { th with yielded := true }) s'
    (s.waitGroup x.c x.g.slot .drain 0).postOnce (.horizonSwap x.c)

/-- `trap`: SOFTWARE in each active thread (R197). -/
def execTrap (e : Bool) (d : BitVec 12) : Meaning := execLanes e {} fun s _ => (s, .stop (.trap .software d.toNat 0))

/-! ### Allotments (R15, R49, R199) -/

/-- The register slices that a core's resident threads hold, in bytes, with those granted to a `wgrow` (R15, R199). -/
def regBytes (k : Ctx) : Nat :=
  (k.wgs.filter fun w => !w.ended).foldl (fun n w => w.threads.foldl (fun n t => n + 4 * t.c) n) 0 + k.groups.foldl (fun n g => n + g.granted) 0

/-- Whether a `wgrow` by `m` raises REGISTER_RANGE in a thread (R49). -/
def growBad (x : Iss) (m : Nat) (t : Thread) : Bool := m % 8 != 0 || x.grid.kern.allot < t.c + m

/-- The bytes of registers that a `wgrow` of a group asks for: those of its active lanes that do not trap (R49, R199). -/
def growBytes (x : Iss) (m : Nat) : Nat := 4 * m * (x.active.filter fun t => match x.w.thread t with
  | some th => th.pend != .done && !growBad x m th
  | none => false).length

/-- The order of a group's waiting `wgrow`, if it waits (R199). -/
def growSeq (g : Group) : Option Nat :=
  match g.stall with
  | .wgrow _ n => some n
  | _ => none

/-- Whether the core grants a group's `wgrow` now: it has granted the registers, or no earlier one waits and the registers are there
(R199). -/
def canGrow (x : Iss) (m : Nat) : Bool :=
  x.g.granted != 0 || (!x.k.groups.any fun g => g.slot != x.g.slot && (growSeq g).isSome) && regBytes x.k + growBytes x m ≤ 512 * 1024

/-- `wgrow`: C grows by m with the new registers and their slots 0, once the core grants them (R49, R199). -/
def execWgrow (e : Bool) (m : BitVec 6) : Meaning := fun s => s.onIssue fun x =>
  let n := m.toNat
  if growBytes x n != 0 && !canGrow x n then
    let (seq, s) := s.fresh
    (s.stallUnit x (.wgrow n seq)).postOnce (.wgrowGrant x.c)
  else
    perLane x e {} (fun s i =>
      let t := i.ln.t
      if growBad x n t then (s, .stop (.trap .range 0 0))
      else if n == 0 then (s, .ok t)
      else
        let slots := (List.range n).map fun j => (t.wb + t.c + j, 0)
        match s.spill i.ln (slots.filter fun p => p.1 < i.ln.g.lrec.rstack) with
        | (s, .error w) => (s, .stop w)
        | (s, .ok ()) => (s, .ok { ((List.range n).foldl (fun (t : Thread) j => t.setReg (i.ln.t.c + j) 0) t) with
                               c := t.c + n, spare := t.spare.filter fun p => !(t.wb + t.c ≤ p.1 && p.1 < t.wb + t.c + n) })) s

/-- A thread after a `wshr` by `n`: its registers above go back to the core, and what their slots hold is written at the thread's next
window move (R49, R50). -/
def shrunk (n : Nat) (t : Thread) : Thread :=
  { t with c := t.c - n, v := t.v.filter (fun p => p.1 < t.c - n),
           spare := t.spare ++ (List.range n).map fun j => (t.wb + (t.c - n + j), wget t.v (t.c - n + j)) }

/-- `wshr`: C shrinks by m (R49). DESIGN CHOICE (log 55): the released registers reach their backing slots not here but at the thread's next
window move. -/
def execWshr (e : Bool) (m : BitVec 6) : Meaning := fun s => s.onIssue fun x =>
  let n := m.toNat
  let s := perLane x e {} (fun s i =>
    if n % 8 != 0 || i.ln.t.c < 8 + n then (s, .stop (.trap .range 0 0)) else (s, .ok (shrunk n i.ln.t))) s
  let s := if x.k.groups.any fun g => (growSeq g).isSome then s.postOnce (.wgrowGrant x.c) else s
  s.postOnce (.neighbourhoodPlacement x.c.pkg x.c.die)

/-- `tslp`: the group waits for the largest v(A) among the active lanes; 0 acts as `yield` (R198). DESIGN CHOICE (log 96): threads that stay
behind in the seedbed, where the others take a trap to a handler and keep the group, do not wait. -/
def execTslp (e : Bool) (a : BitVec 6) : Meaning := fun s => s.onIssue fun x =>
  let traps := x.active.filter fun t => match x.w.thread t with
    | some th => th.c ≤ a.toNat
    | none => false
  let d := (x.active.filter fun t => !traps.contains t).foldl (fun m t => max m (((x.w.thread t).map fun (th : Thread) => th.reg a.toNat).getD 0)) 0
  s.withTraps x (traps.map fun t => { tid := t, code := .range, pc := x.upc, ret := x.upc }) fun s =>
    let s := (s.advance x traps).endUnit x e true .none
    match (s.core x.c).ctx.bind fun k => k.group x.g.slot with
    | some g =>
      if d == 0 || g.age != x.g.age || g.members.any fun t => traps.contains t then s
      else
        -- the sleepers stand at their unit until the wait is over (R308)
        let s := g.members.foldl (fun s t => s.modThread x.c x.g.wslot t fun th => { th with pc := x.upc }) s
        let s := (s.waitGroup x.c x.g.slot .sleep d).modGroup x.c x.g.slot fun g => { g with hint := { words := x.g.hint.words } }
        s.postOnce (.tslpExpiry x.c x.g.slot)
    | none => s

end Sys2Proof.Machine
end

