-- ==== Sys2Proof/Machine/LoadStore.lean ====
section
/-! DEFINITION. Loads and stores of L, D and S: MAJ 0x10-0x15 (R60, R68-R71, R132, R204-R206). -/

namespace Sys2Proof.Machine

/-- The bytes of an access of a size code (R132). -/
def sizeBytes (sz : Nat) : Nat :=
  match sz with
  | 0 => 1
  | 1 => 2
  | 2 => 4
  | 3 => 8
  | 4 => 16
  | 5 => 1
  | _ => 2

/-- The registers an access of a size code names. -/
def sizeRegs (sz : Nat) : Nat :=
  match sz with
  | 3 => 2
  | 4 => 4
  | _ => 1

/-- The value of a load's registers from the bytes it read (R205). -/
def loadValue (sz m : Nat) : Nat :=
  match sz with
  | 5 => wrapInt (signExt m 8) 32
  | 6 => wrapInt (signExt m 16) 32
  | _ => m

/-- The offset that a plain access names (R121, R205): the base register plus the unsigned scaled offset, modulo
2^32. -/
def plainOff (x : Iss) (base off n : Nat) : Nat := (base + (x.ext off 6).1 * n) % 2 ^ 32

/-- The target of a plain access in its space. -/
def plainTgt (sp : Spc) (die off : Nat) : Tgt :=
  match sp with
  | .l => .inL off
  | .d => .inD die off
  | .s => .inS off
  | .g => .inG off

/-- A result that is there at once, or lands when the window of its lookahead closes (R144). -/
def owe (t : Thread) (la reg cnt v : Nat) : Thread :=
  if la == 0 then t.setSpan reg cnt v else { t with owed := t.owed ++ [{ reg := reg, cnt := cnt, left := la, value := some v, id := 0 }] }

/-- One lane of a load (R205). -/
def loadLane (sp : Spc) (sz la off : Nat) : LaneFn := fun s i =>
  let n := sizeBytes sz
  let o := plainOff i.x (i.ln.t.reg i.a) off n
  match s.reach i.ln (plainTgt sp i.ln.r.core.die o) (plainTag sp o) n .read with
  | (s, .error w) => (s, .stop w)
  | (s, .ok l) => (s, .ok (owe i.ln.t la i.d (sizeRegs sz) (loadValue sz (s.readLoc l n))))

/-- One lane of a store (R205). -/
def storeLane (sp : Spc) (sz off : Nat) : LaneFn := fun s i =>
  let n := sizeBytes sz
  let o := plainOff i.x (i.ln.t.reg i.a) off n
  match s.reach i.ln (plainTgt sp i.ln.r.core.die o) (plainTag sp o) n .write with
  | (s, .error w) => (s, .stop w)
  | (s, .ok l) => (s.writeLoc l n (i.ln.t.span i.d (sizeRegs sz)), .ok i.ln.t)

/-! ### The D and S caches (R60, R206): timing only -/

/-- The tag of the line that a lane's access finds in the D or S cache: the CID and the line; none for L and for an
access that traps. -/
def cacheTag (s : State) (x : Iss) (sp : Spc) (n off a tid : Nat) : Option (Nat × Nat) :=
  match s.laneIn x { a := a } tid with
  | none => none
  | some i =>
    if sp == .l || i.ln.t.pend == .done || i.ln.t.c ≤ i.a then none
    else
      let t := plainTgt sp i.ln.r.core.die (plainOff x (i.ln.t.reg i.a) off n)
      if t.off % n != 0 || !s.inBound i.ln t n then none else (s.peek i.ln t .read).map fun l => (i.ln.g.cid, l.line)

/-- The tags of a unit's lines that its core's cache does not hold. -/
def cacheMisses (s : State) (x : Iss) (sp : Spc) (n off a : Nat) : List (Nat × Nat) :=
  let held := if sp == .d then (s.core x.c).dtags else (s.core x.c).stags
  (x.active.filterMap fun t => cacheTag s x sp n off a t).filter fun t => !held.contains t

/-- Whether a unit skips its target: an `hrep` of 0 (R141). -/
def Iss.skips (x : Iss) : Bool := match x.g.hint.hrep with
  | some (0, _, _, _) => true
  | _ => false

/-- The G addresses at which an active lane's access, of `n` bytes at the target that `tgt` gives, misses its core's translation
cache (R40). -/
def xlateMisses (s : State) (x : Iss) (fs : Fields) (n : Nat) (tgt : LaneIn → Option Tgt) : List Nat :=
  x.active.filterMap fun tid => (s.laneIn x fs tid).bind fun i =>
    if i.ln.t.pend == .done || !fs.within i.ln.t.c x.g.hint.hrep then none
    else (tgt i).bind fun t =>
      if t.off % n != 0 || !s.inBound i.ln t n || (State.placeLD i.ln t).isSome then none
      else
        let va := State.gva i.ln t
        if s.tlbMiss x.c i.ln.g.level i.ln.g.cid va then some va else none

/-- A group's stall for a fill of its caches (R40): its walks and the lines it fetches are requests of its partition (R399). One that meets a
full queue stalls for that first (R397). `f` notes the fill. -/
def fillStall (s : State) (x : Iss) (vas lines : List Nat) (f : State → State) : State :=
  if !lines.all fun pa => s.queueRoom x.grid.part pa then s.stallUnit x .channel
  else
    let s := vas.foldl (fun s va => s.chargeWalk x.c.pkg x.grid.level x.grid.cid va) (f s)
    ((s.chargeAll x.c.pkg x.grid.part lines).stallUnit x .fill).postOnce (.cacheFillArrival x.c x.g.slot)

/-- A load or store: a miss in the D or S cache, or in the translation cache, stalls the group once until the fill arrives (R40); the lanes
then act. -/
def execAccess (e : Bool) (sp : Spc) (n off : Nat) (fs : Fields) (f : LaneFn) : Meaning := fun s => s.onIssue fun x =>
  let miss := if x.g.fillOk || x.skips then [] else cacheMisses s x sp n off fs.a
  let far := if x.g.fillOk || x.skips then [] else xlateMisses s x fs n fun i => some (plainTgt sp i.ln.r.core.die (plainOff x (i.ln.t.reg i.a) off n))
  if miss.isEmpty && far.isEmpty then State.perLane x e fs f s
  else
    fillStall s x far (if sp == .s then miss.map fun l => 128 * l.2 else []) fun s => if x.policy == 1 then s else
      s.modCore x.c fun c => if sp == .d then { c with dtags := c.dtags ++ miss } else { c with stags := c.stags ++ miss }

/-- A load of a space. -/
def execLoad (sp : Spc) (e : Bool) (d b : BitVec 6) (s : BitVec 3) (l : BitVec 4) (o : BitVec 6) : Meaning :=
  execAccess e sp (sizeBytes s.toNat) o.toNat { d := d.toNat, dn := sizeRegs s.toNat, a := b.toNat, an := 1 }
    (loadLane sp s.toNat l.toNat o.toNat)

/-- A store to a space. -/
def execStore (sp : Spc) (e : Bool) (r b : BitVec 6) (z : BitVec 3) (o : BitVec 6) : Meaning :=
  execAccess e sp (sizeBytes z.toNat) o.toNat { d := r.toNat, dn := sizeRegs z.toNat, a := b.toNat, an := 1 }
    (storeLane sp z.toNat o.toNat)

/-- `ldl`. -/
def execLdl (e : Bool) (d b : BitVec 6) (s : BitVec 3) (l : BitVec 4) (o : BitVec 6) : Meaning := execLoad .l e d b s l o

/-- `stl`. -/
def execStl (e : Bool) (s b : BitVec 6) (z : BitVec 3) (o : BitVec 6) : Meaning := execStore .l e s b z o

/-- `ldd`: the issuing core's die. -/
def execLdd (e : Bool) (d b : BitVec 6) (s : BitVec 3) (l : BitVec 4) (o : BitVec 6) : Meaning := execLoad .d e d b s l o

/-- `std`. -/
def execStd (e : Bool) (s b : BitVec 6) (z : BitVec 3) (o : BitVec 6) : Meaning := execStore .d e s b z o

/-- `lds`. -/
def execLds (e : Bool) (d b : BitVec 6) (s : BitVec 3) (l : BitVec 4) (o : BitVec 6) : Meaning := execLoad .s e d b s l o

/-- `sts`. -/
def execSts (e : Bool) (s b : BitVec 6) (z : BitVec 3) (o : BitVec 6) : Meaning := execStore .s e s b z o

end Sys2Proof.Machine
end

