-- ==== Sys2Proof/Machine/Atomic.lean ====
section
/-! DEFINITION. Atomics: MAJ 0x16-0x1C, their aggregation, and the home that performs them (R92-R96, R133,
R207-R212). -/

namespace Sys2Proof.Machine

/-- The bytes of an atomic operation (R208). -/
def atomBytes (op : Nat) : Nat := if op == 12 || op == 13 then 8 else 4

/-- The magnitude maximum of `atm.amax.f32` (R208). -/
def amaxCode (old b : Nat) : Nat :=
  if (f32 old).isNan || (f32 b).isNan then fp32.nan else max (old % 2 ^ 31) (b % 2 ^ 31)

/-- The new value of an operation from the old one (R208); none where a compare-and-swap fails. -/
def atomNew (op old b w : Nat) : Option Nat :=
  match op with
  | 0 => some ((old + b) % 2 ^ 32)
  | 1 => some (readOut32 (cumulus [f32 old, f32 b]))
  | 2 => some (if sx32 old ≤ sx32 b then b else old)
  | 3 => some (max old b)
  | 4 => some (if sx32 old ≤ sx32 b then old else b)
  | 5 => some (min old b)
  | 6 => some (amaxCode old b)
  | 7 => some (old &&& b)
  | 8 => some (old ||| b)
  | 9 => some (old ^^^ b)
  | 10 => some b
  | 11 => if old == b then some w else none
  | 12 => some ((old + b) % 2 ^ 64)
  | _ => if old == b then some w else none

/-- The lanes of an aggregated atomic in order (R210): each with its old value and whether it wrote, and the final
value. `terms` are the values an `atm.add.f32` has added so far, the initial value first. -/
def atomFold (op : Nat) : List AtomLane → Nat → List Fp → List (AtomLane × Bool) × Nat
  | [], x, _ => ([], x)
  | l :: rest, x, terms =>
    let terms' := terms ++ [f32 l.b]
    let new := if op == 1 then some (readOut32 (cumulus terms')) else atomNew op x l.b l.w
    let r := atomFold op rest (new.getD x) terms'
    (({ l with old := x }, new.isSome) :: r.1, r.2)

/-- The target of an atomic's address, which must lie in G or D (R209). -/
def atomTgt (ln : Lane) (addr : Nat) : Option Tgt :=
  match parseTag ln.r.core.die addr with
  | some (.inG v) => some (.inG v)
  | some (.inD di o) => some (.inD di o)
  | _ => none

/-- The checks of an atomic's address (R209). -/
def atomReach (s : State) (ln : Lane) (addr n : Nat) : State × Except Stop Loc :=
  match atomTgt ln addr with
  | none => (s, .error (.trap .kind 0 addr))
  | some t => s.reach ln t addr n .atomic

/-- The wait that some active lane's access meets, found before any lane acts. -/
def firstWait (s : State) (x : Iss) (fs : Fields) (chk : State → LaneIn → State × Except Stop Loc) : Option (Stall × State) :=
  x.active.findSome? fun tid =>
    match s.laneIn x fs tid with
    | none => none
    | some i =>
      if !fs.within i.ln.t.c none then none
      else
        match chk s i with
        | (_, .error (.stage2 va ipa k)) => some (.stage2, s.noteStage2 i.ln.r false va ipa k)
        | (_, .error .owned) => some (.recall, s)
        | _ => none

/-- One lane's atomic added to its set: the request of this instruction for the same location, by virtual address in G
(R210). `base` is the first request number of the instruction. -/
def joinAtomic (s : State) (base op ord n : Nat) (r : ThreadRef) (grid : Nat) (loc : Loc) (va : Nat) (l : AtomLane) : State × Nat :=
  let same := fun (q : Request) => base ≤ q.id && match q.kind with
    | .atomic loc' va' _ _ _ _ _ => loc' == loc && va' == va
    | _ => false
  match s.reqs.find? same with
  | some q =>
    ({ s with reqs := mapIf (fun (y : Request) => y.id == q.id) (fun (y : Request) => match y.kind with
        | .atomic loc' va' n' op' ord' ls am => { y with kind := .atomic loc' va' n' op' ord' (ls ++ [l]) am }
        | _ => y) s.reqs }, q.id)
  | none =>
    let (id, s) := s.fresh
    (({ s with reqs := s.reqs ++ [{ id := id, t := r, kind := .atomic loc va n op ord [l] false, grid := grid }] } : State).post (.atomicHomePerform id), id)

/-- One lane of an atomic: its operand captured, its result owed (R144, R207-R211). -/
def atomLane (base op ord la : Nat) : LaneFn := fun s i =>
  let t := i.ln.t
  let n := atomBytes op
  let addr := t.pair i.a
  match atomReach s i.ln addr n with
  | (s, .error w) => (s, .stop w)
  | (s, .ok loc) =>
    let va := match atomTgt i.ln addr with
      | some (.inG v) => v
      | _ => 0
    let b := if n == 8 then t.pair i.b else t.reg i.b
    let w := if op == 11 then t.reg (i.b + 1) else if op == 13 then t.pair (i.b + 2) else 0
    let rel := ord == 2 || ord == 3 || (ord == 0 && t.fenceRel)
    let o := Obj.word (match loc with | .g _ => .g va | l => l) n
    let l : AtomLane := { tid := t.tid, b := b, w := w, rel := rel, acq := ord == 1 || ord == 3,
                          carries := if rel then State.ownChanges i.ln else [], copies := if rel then s.heldBy i.ln o else [],
                          atoms := if rel then s.atomsBound i.ln o else [] }
    let (s, id) := joinAtomic s base op ord n i.ln.r i.ln.g.handle loc va l
    (s, .ok { t with fenceRel := false, lastReq := id, lastSeen := [],
                     owed := t.owed ++ [{ reg := i.d, cnt := n / 4, left := la, value := none, id := id }] })

/-- An atomic instruction: a miss in the translation cache stalls the group once (R40); then the waits of its lanes first, and all of them
together (R210). -/
def execAtomic (op : Nat) (e : Bool) (ord la : Nat) (fs : Fields) : Meaning := fun s => s.onIssue fun x =>
  let far := if x.g.fillOk || x.skips then [] else xlateMisses s x fs (atomBytes op) fun i => atomTgt i.ln (i.ln.t.pair i.a)
  if !far.isEmpty then fillStall s x far [] id
  else match firstWait s x fs fun s i => atomReach s i.ln (i.ln.t.pair i.a) (atomBytes op) with
  | some (why, s) => s.stallUnit x why
  | none => State.perLane x e fs (atomLane s.nextId op ord la) s

/-- `atm.add.i32`. -/
def execAtmAddI32 (e : Bool) (d : BitVec 6) (a : BitVec 5) (b : BitVec 6) (l : BitVec 4) (o : BitVec 2) : Meaning :=
  execAtomic 0 e o.toNat l.toNat { d := d.toNat, dn := 1, a := 2 * a.toNat, an := 2, b := b.toNat, bn := 1 }

/-- `atm.add.f32`. -/
def execAtmAddF32 (e : Bool) (d : BitVec 6) (a : BitVec 5) (b : BitVec 6) (l : BitVec 4) (o : BitVec 2) : Meaning :=
  execAtomic 1 e o.toNat l.toNat { d := d.toNat, dn := 1, a := 2 * a.toNat, an := 2, b := b.toNat, bn := 1 }

/-- `atm.max.i32`. -/
def execAtmMaxI32 (e : Bool) (d : BitVec 6) (a : BitVec 5) (b : BitVec 6) (l : BitVec 4) (o : BitVec 2) : Meaning :=
  execAtomic 2 e o.toNat l.toNat { d := d.toNat, dn := 1, a := 2 * a.toNat, an := 2, b := b.toNat, bn := 1 }

/-- `atm.max.n32`. -/
def execAtmMaxN32 (e : Bool) (d : BitVec 6) (a : BitVec 5) (b : BitVec 6) (l : BitVec 4) (o : BitVec 2) : Meaning :=
  execAtomic 3 e o.toNat l.toNat { d := d.toNat, dn := 1, a := 2 * a.toNat, an := 2, b := b.toNat, bn := 1 }

/-- `atm.min.i32`. -/
def execAtmMinI32 (e : Bool) (d : BitVec 6) (a : BitVec 5) (b : BitVec 6) (l : BitVec 4) (o : BitVec 2) : Meaning :=
  execAtomic 4 e o.toNat l.toNat { d := d.toNat, dn := 1, a := 2 * a.toNat, an := 2, b := b.toNat, bn := 1 }

/-- `atm.min.n32`. -/
def execAtmMinN32 (e : Bool) (d : BitVec 6) (a : BitVec 5) (b : BitVec 6) (l : BitVec 4) (o : BitVec 2) : Meaning :=
  execAtomic 5 e o.toNat l.toNat { d := d.toNat, dn := 1, a := 2 * a.toNat, an := 2, b := b.toNat, bn := 1 }

/-- `atm.amax.f32`. -/
def execAtmAmaxF32 (e : Bool) (d : BitVec 6) (a : BitVec 5) (b : BitVec 6) (l : BitVec 4) (o : BitVec 2) : Meaning :=
  execAtomic 6 e o.toNat l.toNat { d := d.toNat, dn := 1, a := 2 * a.toNat, an := 2, b := b.toNat, bn := 1 }

/-- `atm.and`. -/
def execAtmAnd (e : Bool) (d : BitVec 6) (a : BitVec 5) (b : BitVec 6) (l : BitVec 4) (o : BitVec 2) : Meaning :=
  execAtomic 7 e o.toNat l.toNat { d := d.toNat, dn := 1, a := 2 * a.toNat, an := 2, b := b.toNat, bn := 1 }

/-- `atm.or`. -/
def execAtmOr (e : Bool) (d : BitVec 6) (a : BitVec 5) (b : BitVec 6) (l : BitVec 4) (o : BitVec 2) : Meaning :=
  execAtomic 8 e o.toNat l.toNat { d := d.toNat, dn := 1, a := 2 * a.toNat, an := 2, b := b.toNat, bn := 1 }

/-- `atm.xor`. -/
def execAtmXor (e : Bool) (d : BitVec 6) (a : BitVec 5) (b : BitVec 6) (l : BitVec 4) (o : BitVec 2) : Meaning :=
  execAtomic 9 e o.toNat l.toNat { d := d.toNat, dn := 1, a := 2 * a.toNat, an := 2, b := b.toNat, bn := 1 }

/-- `atm.swp`. -/
def execAtmSwp (e : Bool) (d : BitVec 6) (a : BitVec 5) (b : BitVec 6) (l : BitVec 4) (o : BitVec 2) : Meaning :=
  execAtomic 10 e o.toNat l.toNat { d := d.toNat, dn := 1, a := 2 * a.toNat, an := 2, b := b.toNat, bn := 1 }

/-- `atm.cas.b32`: expected and new value in a pair. -/
def execAtmCasB32 (e : Bool) (d : BitVec 6) (a b : BitVec 5) (l : BitVec 4) (o : BitVec 2) : Meaning :=
  execAtomic 11 e o.toNat l.toNat { d := d.toNat, dn := 1, a := 2 * a.toNat, an := 2, b := 2 * b.toNat, bn := 2 }

/-- `atm.add.i64`. -/
def execAtmAddI64 (e : Bool) (d a b : BitVec 5) (l : BitVec 4) (o : BitVec 2) : Meaning :=
  execAtomic 12 e o.toNat l.toNat { d := 2 * d.toNat, dn := 2, a := 2 * a.toNat, an := 2, b := 2 * b.toNat, bn := 2 }

/-- `atm.cas.b64`: expected and new value in a quad. -/
def execAtmCasB64 (e : Bool) (d a : BitVec 5) (b : BitVec 4) (l : BitVec 4) (o : BitVec 2) : Meaning :=
  execAtomic 13 e o.toNat l.toNat { d := 2 * d.toNat, dn := 2, a := 2 * a.toNat, an := 2, b := 4 * b.toNat, bn := 4 }

/-! ### At the home -/

namespace State

/-- A sync word changed, or made one (R72). -/
def modSync (s : State) (loc : Loc) (n : Nat) (f : SyncWord → SyncWord) : State :=
  let old := (s.syncs.find? fun y => y.loc == loc && y.size == n).getD { loc := loc, size := n }
  { s with syncs := upsert (fun y => y.loc == loc && y.size == n) (f old) s.syncs }

/-- Whether an atomic request may be performed: the earlier copies and releases that hold it are over, earlier atomics of
its threads on the bytes have been performed, and no engine owns the line (R75, R90, R91, R211). -/
def atomReady (s : State) (q : Request) (loc : Loc) (n : Nat) (lanes : List AtomLane) : Bool :=
  (lanes.all fun l =>
    let r := { q.t with tid := l.tid }
    !s.copiesLeft r l.copies && !s.atomsLeft l.atoms && !(l.rel && s.releasing r q.id) && !s.ownAtomic r loc n q.id) && !s.lineOwned none loc

/-- Whether an acquire must wait for the promotion of the word's latest release (R93). -/
def needsPromotion (s : State) (q : Request) (loc : Loc) (n : Nat) (lanes : List AtomLane) : Option SyncWord :=
  if lanes.any fun l => l.acq then
    (s.syncs.find? fun y => y.loc == loc && y.size == n).bind fun y => if !y.pod && y.pkg != q.t.core.pkg then some y else none
  else none

/-- A request's lanes performed on memory in one step (R210): the word written once with the final value, releases made,
what acquires observe noted, and the result on its way. -/
def performAtomic (s : State) (q : Request) (loc : Loc) (va n op ord : Nat) (lanes : List AtomLane) (amax : Bool) : State :=
  let x := s.readLoc loc n
  let (done, final) := atomFold op lanes x [f32 x]
  let seen := ((s.syncs.find? fun y => y.loc == loc && y.size == n).map fun y => y.carried).getD []
  let rels : List (AtomLane × Bool) := done.filter fun l => l.1.rel && l.2
  let s := if done.any fun l => l.2 then s.writeLoc loc n final else s
  let s := if rels.isEmpty then s else
    s.modSync loc n fun y => { y with carried := rels.foldl (fun c (l : AtomLane × Bool) => joinNat c l.1.carries) y.carried, pod := false, pkg := q.t.core.pkg, rel := q.id }
  let s := { s with reqs := mapIf (fun (y : Request) => y.id == q.id)
                      (fun (y : Request) => { y with kind := .atomic loc va n op ord (done.map Prod.fst) amax, answer := some 0, seen := seen }) s.reqs }
  ((s.wakeRecalls).wakeAll q.t.core fun w => w == .phaser).post (.atomicResultArrival q.id)

end State

/-- The home performs an atomic request, charged to its threads' partition (R399), or it waits (R90-R93, R210, R397). -/
def execAtomicHomePerform (id : Nat) : Meaning := fun s =>
  match s.reqs.find? fun q => q.id == id && q.answer.isNone with
  | none => .next s
  | some q =>
    match q.kind with
    | .atomic loc va n op ord lanes amax =>
      let part := ((s.grid q.grid).map Grid.part).getD 0
      if !s.atomReady q loc n lanes || !s.locRoom part loc then .next (s.post (.atomicHomePerform id))
      else
        match s.needsPromotion q loc n lanes with
        | some y =>
          .next (({ s with reqs := mapIf (fun (z : Request) => z.id == id) (fun (z : Request) => { z with promote := true }) s.reqs } : State).postOnce
            (.releasePromotion y.rel))
        | none =>
          if s.marked loc then .next (({ s with reqs := s.reqs.filter fun z => z.id != id } : State).loseBlock q.t.core q.t.gen q.t.wslot 1)
          else .next (((s.performAtomic q loc va n op ord lanes amax).chargeLoc q.t.core.pkg part loc).workOver q.t.core q.grid)
    | _ => .next s

/-- A release at device scope promoted to pod scope; the acquires that wait for it go on (R93). -/
def execReleasePromotion (id : Nat) : Meaning := fun s =>
  let s := { s with syncs := mapIf (fun (y : SyncWord) => y.rel == id) (fun (y : SyncWord) => { y with pod := true }) s.syncs }
  let waiting := s.reqs.filter fun q => q.promote
  let s := { s with reqs := s.reqs.map fun (q : Request) => { q with promote := false } }
  .next (waiting.foldl (fun s q => s.postOnce (.atomicHomePerform q.id)) s)

/-- An owed result of a request filled in with its value. -/
def Thread.fillOwed (t : Thread) (id v : Nat) : Thread :=
  { t with owed := t.owed.map fun o => if o.id == id && o.value.isNone then { o with value := some v } else o }

/-- An atomic's old values delivered to its lanes, with what their acquires observe (R83, R212). A context that is away
receives them by its log (R377). -/
def execAtomicResultArrival (id : Nat) : Meaning := fun s =>
  match s.reqs.find? fun q => q.id == id && q.answer.isSome with
  | none => .next s
  | some q =>
    match q.kind with
    | .atomic _ _ _ op ord lanes _ =>
      let away := (s.place q.t.core q.t.gen).isNone
      let r := lanes.foldl (fun (acc : State × List Nat) l =>
        let r := { q.t with tid := l.tid }
        let learn := fun (t : Thread) => { t with known := if l.acq then joinNat t.known acc.2 else t.known,
                                                  lastSeen := if t.lastReq == id && ord == 0 then acc.2 else t.lastSeen }
        let s := if away then (acc.1.lateResult r id l.old).modSaved r.core r.gen fun k => k.modWg r.wslot fun w => w.modThread r.tid learn
          else (acc.1.modThreadAt r fun t => learn (t.fillOwed id l.old)).wake r
        (s, if l.rel && (atomNew op l.old l.b l.w).isSome then joinNat acc.2 l.carries else acc.2)) (s, q.seen)
      .next { r.1 with reqs := r.1.reqs.filter fun z => z.id != id }
    | _ => .next s

end Sys2Proof.Machine
end

