-- ==== Sys2Proof/WellFormed.lean ====
section
/-! DEFINITION. The well-formedness of an instruction's fields beyond what its row of the opcode table fixes
(R120, R125, R126, R130, R132, R136, R147, R173, R185, R231, R258, R315, R347). -/

namespace Sys2Proof

/-- The checks an instruction's fields can fail, by name. -/
inductive WfError where
  /-- a reserved condition code (R130) -/
  | condition
  /-- a format pairing the entry does not accept (R125, R173) -/
  | formatPair
  /-- a misaligned pair or quad register (R120, R132) -/
  | registerAlign
  /-- a reserved size, or a signed size on a store (R132) -/
  | size
  /-- an unlisted `sreg` selector (R185) -/
  | selector
  /-- a reserved OP or FMT of `cpyr` (R231) -/
  | copyCode
  /-- a reserved rounding mode (R105, R136, R258) -/
  | rounding
  /-- a reserved cache policy (R136) -/
  | policy
  /-- a `gqy` selector above 8 (R315) -/
  | gridSelector
  /-- a CSR number not listed (R347) -/
  | csr
  deriving DecidableEq, Repr

/-- Why the decoder refuses a word (R147). -/
inductive Reject where
  | major
  | minorOrReserved
  | check (e : WfError)
  | truncated
  deriving DecidableEq, Repr

/-- The float format codes of R126: FP32, FP16 and BF16. -/
def isFloatFmt (f : Nat) : Bool := f < 3
/-- The narrow format codes of R126. -/
def isNarrowFmt (f : Nat) : Bool := 3 ≤ f && f < 8

/-- The selectors listed by R185. -/
def sregListed (s : Nat) : Bool := s ≤ 0xD || (0x10 ≤ s && s ≤ 0x14) || (0x20 ≤ s && s ≤ 0x23)

/-- The CSR numbers listed by R347. -/
def csrListed (n : Nat) : Bool :=
  n ≤ 2 || (4 ≤ n && n ≤ 7) || (0x10 ≤ n && n ≤ 0x13) || n == 0x20 || n == 0x21 || n == 0x24 || n == 0x28 ||
    n == 0x30 || n == 0x32 || n == 0x33

/-- The data register's alignment for a load or store size (R132). -/
def sizeAligned (sz reg : Nat) : Bool := if sz == 3 then reg % 2 == 0 else if sz == 4 then reg % 4 == 0 else true

/-- A named check: nothing when it holds. -/
def req (ok : Bool) (e : WfError) : Option WfError := if ok then none else some e

/-- The fields of a load (R132). -/
def checkLoad (d : BitVec 6) (s : BitVec 3) : Option WfError :=
  (req (s.toNat < 7) .size).or (req (sizeAligned s.toNat d.toNat) .registerAlign)

/-- The fields of a store (R132). -/
def checkStore (r : BitVec 6) (z : BitVec 3) : Option WfError :=
  (req (z.toNat < 5) .size).or (req (sizeAligned z.toNat r.toNat) .registerAlign)

/-- The check that an instruction's fields fail, if any. Events carry no fields of a word. -/
def Instr.check : Instr → Option WfError
  | .cmpI32 _ _ c _ _ | .cmpN32 _ _ c _ _ => req (c.toNat < 6) .condition
  | .fcvt _ _ _ s t => req (isFloatFmt s.toNat && isFloatFmt t.toNat && s.toNat != t.toNat) .formatPair
  | .fcviI32 _ _ _ s | .fcviN32 _ _ _ s => req (isFloatFmt s.toNat) .formatPair
  | .icvfI32 _ _ _ t | .icvfN32 _ _ _ t => req (isFloatFmt t.toNat) .formatPair
  | .qcv _ _ _ t | .qcvs _ _ _ t | .qsc _ _ _ t => req (isNarrowFmt t.toNat) .formatPair
  | .qdq _ _ _ s t => req (isNarrowFmt s.toNat && isFloatFmt t.toNat) .formatPair
  | .sreg _ _ s => req (sregListed s.toNat) .selector
  | .ldl _ d _ s _ _ | .ldd _ d _ s _ _ | .lds _ d _ s _ _ => checkLoad d s
  | .stl _ s _ z _ | .std _ s _ z _ | .sts _ s _ z _ => checkStore s z
  | .cpyr _ _ _ _ o f => req (o.toNat < 3 && f.toNat < 3) .copyCode
  | .mdrn _ _ _ m | .mdrnAmax _ _ _ _ m => req (m.toNat < 4) .rounding
  | .gqy _ _ _ s _ => req (s.toNat < 9) .gridSelector
  | .csrr _ _ n | .csrw _ _ n => req (csrListed n.toNat) .csr
  | .hmod r m p =>
    (req (if r then m.toNat < 5 else m.toNat == 0) .rounding).or (req (p.toNat < 3) .policy)
  | _ => none

/-- A well-formed instruction. -/
abbrev Instr.Wf (i : Instr) : Prop := i.check = none

end Sys2Proof
end

