-- ==== Sys2Proof/Decode.lean ====
section
/-! DEFINITION. The decoder of instruction words (R118-R148), total on any word, and the encoder. -/

namespace Sys2Proof

/-- Bits `lo + n - 1 : lo` of a word. -/
def fld (w lo n : Nat) : Nat := w / 2 ^ lo % 2 ^ n

/-- A field of a word as a bit vector. -/
def bvf (w lo n : Nat) : BitVec n := BitVec.ofNat n (w / 2 ^ lo)

/-- One bit of a word. -/
def flg (w lo : Nat) : Bool := w / 2 ^ lo % 2 == 1

/-- The rows of MAJ 0x00 (R122). -/
def decodeMaj00 (w : Nat) : Option Instr :=
  if fld w 0 7 = 1 then some (.addI32 (flg w 31) (bvf w 19 6) (bvf w 13 6) (bvf w 7 6)) else
  if fld w 0 7 = 2 then some (.subI32 (flg w 31) (bvf w 19 6) (bvf w 13 6) (bvf w 7 6)) else
  if fld w 0 7 = 3 then some (.addcN32 (flg w 31) (bvf w 19 6) (bvf w 13 6) (bvf w 7 6)) else
  if fld w 0 7 = 4 then some (.subbN32 (flg w 31) (bvf w 19 6) (bvf w 13 6) (bvf w 7 6)) else
  if fld w 0 7 = 5 then some (.mulI32 (flg w 31) (bvf w 19 6) (bvf w 13 6) (bvf w 7 6)) else
  if fld w 0 7 = 6 then some (.mulhiI32 (flg w 31) (bvf w 19 6) (bvf w 13 6) (bvf w 7 6)) else
  if fld w 0 7 = 7 then some (.mulhiN32 (flg w 31) (bvf w 19 6) (bvf w 13 6) (bvf w 7 6)) else
  if fld w 0 7 = 8 then some (.madI32 (flg w 31) (bvf w 19 6) (bvf w 13 6) (bvf w 7 6)) else
  if fld w 0 7 = 9 then some (.minI32 (flg w 31) (bvf w 19 6) (bvf w 13 6) (bvf w 7 6)) else
  if fld w 0 7 = 10 then some (.minN32 (flg w 31) (bvf w 19 6) (bvf w 13 6) (bvf w 7 6)) else
  if fld w 0 7 = 11 then some (.maxI32 (flg w 31) (bvf w 19 6) (bvf w 13 6) (bvf w 7 6)) else
  if fld w 0 7 = 12 then some (.maxN32 (flg w 31) (bvf w 19 6) (bvf w 13 6) (bvf w 7 6)) else
  if fld w 0 7 = 13 ∧ fld w 7 6 = 0 then some (.absI32 (flg w 31) (bvf w 19 6) (bvf w 13 6)) else
  if fld w 0 7 = 14 ∧ fld w 7 6 = 0 then some (.negI32 (flg w 31) (bvf w 19 6) (bvf w 13 6)) else
  if fld w 0 7 = 16 then some (.andB32 (flg w 31) (bvf w 19 6) (bvf w 13 6) (bvf w 7 6)) else
  if fld w 0 7 = 17 then some (.orB32 (flg w 31) (bvf w 19 6) (bvf w 13 6) (bvf w 7 6)) else
  if fld w 0 7 = 18 then some (.xorB32 (flg w 31) (bvf w 19 6) (bvf w 13 6) (bvf w 7 6)) else
  if fld w 0 7 = 19 then some (.andnB32 (flg w 31) (bvf w 19 6) (bvf w 13 6) (bvf w 7 6)) else
  if fld w 0 7 = 20 ∧ fld w 7 6 = 0 then some (.notB32 (flg w 31) (bvf w 19 6) (bvf w 13 6)) else
  if fld w 0 7 = 24 then some (.shlB32 (flg w 31) (bvf w 19 6) (bvf w 13 6) (bvf w 7 6)) else
  if fld w 0 7 = 25 then some (.shrB32 (flg w 31) (bvf w 19 6) (bvf w 13 6) (bvf w 7 6)) else
  if fld w 0 7 = 26 then some (.sarI32 (flg w 31) (bvf w 19 6) (bvf w 13 6) (bvf w 7 6)) else
  if fld w 0 7 = 27 then some (.rolB32 (flg w 31) (bvf w 19 6) (bvf w 13 6) (bvf w 7 6)) else
  if fld w 0 7 = 28 then some (.bfxN32 (flg w 31) (bvf w 19 6) (bvf w 13 6) (bvf w 7 6)) else
  if fld w 0 7 = 29 then some (.bfxI32 (flg w 31) (bvf w 19 6) (bvf w 13 6) (bvf w 7 6)) else
  if fld w 0 7 = 30 then some (.bfsB32 (flg w 31) (bvf w 19 6) (bvf w 13 6) (bvf w 7 6)) else
  if fld w 0 7 = 32 ∧ fld w 7 6 = 0 then some (.clzB32 (flg w 31) (bvf w 19 6) (bvf w 13 6)) else
  if fld w 0 7 = 33 ∧ fld w 7 6 = 0 then some (.popB32 (flg w 31) (bvf w 19 6) (bvf w 13 6)) else
  if fld w 0 7 = 34 ∧ fld w 7 6 = 0 then some (.brevB32 (flg w 31) (bvf w 19 6) (bvf w 13 6)) else
  if fld w 0 7 = 35 then some (.bpermB32 (flg w 31) (bvf w 19 6) (bvf w 13 6) (bvf w 7 6)) else
  if fld w 0 7 = 40 then some (.cmpI32 (flg w 31) (bvf w 22 3) (bvf w 19 3) (bvf w 13 6) (bvf w 7 6)) else
  if fld w 0 7 = 41 then some (.cmpN32 (flg w 31) (bvf w 22 3) (bvf w 19 3) (bvf w 13 6) (bvf w 7 6)) else
  if fld w 0 7 = 44 ∧ fld w 7 6 = 0 then some (.movB32 (flg w 31) (bvf w 19 6) (bvf w 13 6)) else
  if fld w 0 7 = 48 ∧ fld w 7 1 = 0 ∧ fld w 13 1 = 0 ∧ fld w 19 1 = 0 then some (.addI64 (flg w 31) (bvf w 20 5) (bvf w 14 5) (bvf w 8 5)) else
  if fld w 0 7 = 49 ∧ fld w 7 1 = 0 ∧ fld w 13 1 = 0 ∧ fld w 19 1 = 0 then some (.subI64 (flg w 31) (bvf w 20 5) (bvf w 14 5) (bvf w 8 5)) else
  if fld w 0 7 = 50 ∧ fld w 13 1 = 0 ∧ fld w 19 1 = 0 then some (.shlB64 (flg w 31) (bvf w 20 5) (bvf w 14 5) (bvf w 7 6)) else
  if fld w 0 7 = 51 ∧ fld w 13 1 = 0 ∧ fld w 19 1 = 0 then some (.shrB64 (flg w 31) (bvf w 20 5) (bvf w 14 5) (bvf w 7 6)) else
  none

/-- The rows of MAJ 0x01 (R122). -/
def decodeMaj01 (w : Nat) : Option Instr :=
  if fld w 0 7 = 1 then some (.faddF32 (flg w 31) (bvf w 19 6) (bvf w 13 6) (bvf w 7 6)) else
  if fld w 0 7 = 2 then some (.fsubF32 (flg w 31) (bvf w 19 6) (bvf w 13 6) (bvf w 7 6)) else
  if fld w 0 7 = 3 then some (.fmulF32 (flg w 31) (bvf w 19 6) (bvf w 13 6) (bvf w 7 6)) else
  if fld w 0 7 = 4 then some (.ffmaF32 (flg w 31) (bvf w 19 6) (bvf w 13 6) (bvf w 7 6)) else
  if fld w 0 7 = 5 then some (.fminF32 (flg w 31) (bvf w 19 6) (bvf w 13 6) (bvf w 7 6)) else
  if fld w 0 7 = 6 then some (.fmaxF32 (flg w 31) (bvf w 19 6) (bvf w 13 6) (bvf w 7 6)) else
  if fld w 0 7 = 7 ∧ fld w 7 6 = 0 then some (.fabsF32 (flg w 31) (bvf w 19 6) (bvf w 13 6)) else
  if fld w 0 7 = 8 ∧ fld w 7 6 = 0 then some (.fnegF32 (flg w 31) (bvf w 19 6) (bvf w 13 6)) else
  if fld w 0 7 = 9 ∧ fld w 7 6 = 0 then some (.frcpF32 (flg w 31) (bvf w 19 6) (bvf w 13 6)) else
  if fld w 0 7 = 10 ∧ fld w 7 6 = 0 then some (.frsqF32 (flg w 31) (bvf w 19 6) (bvf w 13 6)) else
  if fld w 0 7 = 11 ∧ fld w 7 6 = 0 then some (.fsqrF32 (flg w 31) (bvf w 19 6) (bvf w 13 6)) else
  if fld w 0 7 = 12 ∧ fld w 7 6 = 0 then some (.fex2F32 (flg w 31) (bvf w 19 6) (bvf w 13 6)) else
  if fld w 0 7 = 13 ∧ fld w 7 6 = 0 then some (.flg2F32 (flg w 31) (bvf w 19 6) (bvf w 13 6)) else
  if fld w 0 7 = 14 then some (.fcmpF32 (flg w 31) (bvf w 22 3) (bvf w 19 3) (bvf w 13 6) (bvf w 7 6)) else
  if fld w 0 7 = 15 ∧ fld w 7 6 = 0 then some (.fclsF32 (flg w 31) (bvf w 19 6) (bvf w 13 6)) else
  if fld w 0 7 = 16 then some (.hadd2F16 (flg w 31) (bvf w 19 6) (bvf w 13 6) (bvf w 7 6)) else
  if fld w 0 7 = 17 then some (.hmul2F16 (flg w 31) (bvf w 19 6) (bvf w 13 6) (bvf w 7 6)) else
  if fld w 0 7 = 18 then some (.hfma2F16 (flg w 31) (bvf w 19 6) (bvf w 13 6) (bvf w 7 6)) else
  if fld w 0 7 = 19 then some (.hmax2F16 (flg w 31) (bvf w 19 6) (bvf w 13 6) (bvf w 7 6)) else
  if fld w 0 7 = 20 then some (.hmin2F16 (flg w 31) (bvf w 19 6) (bvf w 13 6) (bvf w 7 6)) else
  if fld w 0 7 = 24 then some (.bfma2Bf16 (flg w 31) (bvf w 19 6) (bvf w 13 6) (bvf w 7 6)) else
  none

/-- The rows of MAJ 0x02 (R122). -/
def decodeMaj02 (w : Nat) : Option Instr :=
  if fld w 0 7 = 1 then some (.fcvt (flg w 31) (bvf w 19 6) (bvf w 13 6) (bvf w 10 3) (bvf w 7 3)) else
  if fld w 0 7 = 2 ∧ fld w 7 3 = 0 then some (.fcviI32 (flg w 31) (bvf w 19 6) (bvf w 13 6) (bvf w 10 3)) else
  if fld w 0 7 = 3 ∧ fld w 7 3 = 0 then some (.fcviN32 (flg w 31) (bvf w 19 6) (bvf w 13 6) (bvf w 10 3)) else
  if fld w 0 7 = 4 ∧ fld w 10 3 = 0 then some (.icvfI32 (flg w 31) (bvf w 19 6) (bvf w 13 6) (bvf w 7 3)) else
  if fld w 0 7 = 5 ∧ fld w 10 3 = 0 then some (.icvfN32 (flg w 31) (bvf w 19 6) (bvf w 13 6) (bvf w 7 3)) else
  if fld w 0 7 = 8 ∧ fld w 10 4 = 0 then some (.qcv (flg w 31) (bvf w 19 6) (bvf w 14 5) (bvf w 7 3)) else
  if fld w 0 7 = 9 ∧ fld w 10 5 = 0 then some (.qcvs (flg w 31) (bvf w 19 6) (bvf w 15 4) (bvf w 7 3)) else
  if fld w 0 7 = 10 ∧ fld w 13 1 = 0 then some (.qdq (flg w 31) (bvf w 19 6) (bvf w 14 5) (bvf w 10 3) (bvf w 7 3)) else
  if fld w 0 7 = 11 ∧ fld w 10 3 = 0 then some (.qsc (flg w 31) (bvf w 19 6) (bvf w 13 6) (bvf w 7 3)) else
  if fld w 0 7 = 12 then some (.qox (flg w 31) (bvf w 19 6) (bvf w 13 6) (bvf w 7 6)) else
  if fld w 0 7 = 13 then some (.pkh (flg w 31) (bvf w 19 6) (bvf w 13 6) (bvf w 7 6)) else
  none

/-- The rows of MAJ 0x03 (R122). -/
def decodeMaj03 (w : Nat) : Option Instr :=
  if fld w 0 7 = 1 ∧ fld w 7 2 = 0 ∧ fld w 13 2 = 0 ∧ fld w 19 3 = 0 then some (.pand (flg w 31) (bvf w 22 3) (bvf w 16 3) (flg w 15) (bvf w 10 3) (flg w 9)) else
  if fld w 0 7 = 2 ∧ fld w 7 2 = 0 ∧ fld w 13 2 = 0 ∧ fld w 19 3 = 0 then some (.por (flg w 31) (bvf w 22 3) (bvf w 16 3) (flg w 15) (bvf w 10 3) (flg w 9)) else
  if fld w 0 7 = 3 ∧ fld w 7 2 = 0 ∧ fld w 13 2 = 0 ∧ fld w 19 3 = 0 then some (.pxor (flg w 31) (bvf w 22 3) (bvf w 16 3) (flg w 15) (bvf w 10 3) (flg w 9)) else
  if fld w 0 7 = 4 ∧ fld w 7 8 = 0 ∧ fld w 19 3 = 0 then some (.pnot (flg w 31) (bvf w 22 3) (bvf w 16 3) (flg w 15)) else
  if fld w 0 7 = 5 ∧ fld w 7 8 = 0 ∧ fld w 19 3 = 0 then some (.pmov (flg w 31) (bvf w 22 3) (bvf w 16 3) (flg w 15)) else
  if fld w 0 7 = 8 ∧ fld w 7 12 = 0 then some (.vmovpToReg (flg w 31) (bvf w 19 6)) else
  if fld w 0 7 = 8 ∧ fld w 7 6 = 1 ∧ fld w 19 6 = 0 then some (.vmovpToPreds (flg w 31) (bvf w 13 6)) else
  if fld w 0 7 = 12 then some (.sreg (flg w 31) (bvf w 19 6) (bvf w 7 12)) else
  if fld w 0 7 = 13 ∧ fld w 7 13 = 0 then some (.tnow (flg w 31) (bvf w 20 5)) else
  if fld w 4 3 = 1 then some (.sel (flg w 31) (bvf w 19 6) (bvf w 13 6) (bvf w 7 6) (flg w 3) (bvf w 0 3)) else
  none

/-- The rows of MAJ 0x04 (R122). -/
def decodeMaj04 (w : Nat) : Option Instr :=
  some (.addi (flg w 31) (bvf w 19 6) (bvf w 13 6) (bvf w 0 13))

/-- The rows of MAJ 0x05 (R122). -/
def decodeMaj05 (w : Nat) : Option Instr :=
  some (.andi (flg w 31) (bvf w 19 6) (bvf w 13 6) (bvf w 0 13))

/-- The rows of MAJ 0x06 (R122). -/
def decodeMaj06 (w : Nat) : Option Instr :=
  some (.ori (flg w 31) (bvf w 19 6) (bvf w 13 6) (bvf w 0 13))

/-- The rows of MAJ 0x07 (R122). -/
def decodeMaj07 (w : Nat) : Option Instr :=
  some (.xori (flg w 31) (bvf w 19 6) (bvf w 13 6) (bvf w 0 13))

/-- The rows of MAJ 0x08 (R122). -/
def decodeMaj08 (w : Nat) : Option Instr :=
  if fld w 5 2 = 0 ∧ fld w 7 6 = 0 then some (.shli (flg w 31) (bvf w 19 6) (bvf w 13 6) (bvf w 0 5)) else
  if fld w 5 2 = 0 ∧ fld w 7 6 = 16 then some (.shri (flg w 31) (bvf w 19 6) (bvf w 13 6) (bvf w 0 5)) else
  if fld w 5 2 = 0 ∧ fld w 7 6 = 32 then some (.sari (flg w 31) (bvf w 19 6) (bvf w 13 6) (bvf w 0 5)) else
  if fld w 5 2 = 0 ∧ fld w 7 6 = 48 then some (.roli (flg w 31) (bvf w 19 6) (bvf w 13 6) (bvf w 0 5)) else
  none

/-- The rows of MAJ 0x09 (R122). -/
def decodeMaj09 (w : Nat) : Option Instr :=
  some (.cmpi (flg w 31) (bvf w 22 3) (bvf w 19 3) (bvf w 13 6) (bvf w 0 13))

/-- The rows of MAJ 0x0A (R122). -/
def decodeMaj0A (nhx w : Nat) : Option Instr :=
  if nhx < 2 then some (.lim (flg w 31) (bvf w 19 6) (bvf w 0 19)) else
  if fld w 19 1 = 0 ∧ nhx = 2 then some (.limB64 (flg w 31) (bvf w 20 5) (bvf w 0 19)) else
  none

/-- The rows of MAJ 0x0B (R122). -/
def decodeMaj0B (w : Nat) : Option Instr :=
  if fld w 0 7 = 0 ∧ fld w 7 6 = 0 ∧ fld w 19 1 = 0 then some (.leaL (flg w 31) (bvf w 20 5) (bvf w 13 6)) else
  if fld w 0 7 = 0 ∧ fld w 7 6 = 16 ∧ fld w 19 1 = 0 then some (.leaD (flg w 31) (bvf w 20 5) (bvf w 13 6)) else
  if fld w 0 7 = 0 ∧ fld w 7 1 = 0 ∧ fld w 10 3 = 3 ∧ fld w 19 1 = 0 then some (.leaDDie (flg w 31) (bvf w 20 5) (bvf w 13 6) (bvf w 8 2)) else
  if fld w 0 7 = 0 ∧ fld w 7 6 = 32 ∧ fld w 19 1 = 0 then some (.leaS (flg w 31) (bvf w 20 5) (bvf w 13 6)) else
  none

/-- The rows of MAJ 0x0C (R122). -/
def decodeMaj0C (w : Nat) : Option Instr :=
  some (.bra (flg w 31) (bvf w 22 3) (flg w 21) (bvf w 0 21))

/-- The rows of MAJ 0x0D (R122). -/
def decodeMaj0D (w : Nat) : Option Instr :=
  some (.brau (flg w 31) (bvf w 22 3) (flg w 21) (bvf w 0 21))

/-- The rows of MAJ 0x0E (R122). -/
def decodeMaj0E (w : Nat) : Option Instr :=
  some (.call (flg w 31) (bvf w 19 6) (bvf w 0 19))

/-- The rows of MAJ 0x0F (R122). -/
def decodeMaj0F (w : Nat) : Option Instr :=
  if fld w 0 7 = 0 ∧ fld w 7 18 = 0 then some (.nop (flg w 31)) else
  if fld w 0 7 = 1 ∧ fld w 7 18 = 0 then some (.exit (flg w 31)) else
  if fld w 0 7 = 2 ∧ fld w 7 18 = 0 then some (.ret (flg w 31)) else
  if fld w 0 7 = 3 ∧ fld w 7 18 = 0 then some (.merge (flg w 31)) else
  if fld w 0 7 = 4 ∧ fld w 7 18 = 0 then some (.yield (flg w 31)) else
  if fld w 0 7 = 5 ∧ fld w 7 18 = 0 then some (.yieldPd (flg w 31)) else
  if fld w 0 7 = 8 ∧ fld w 13 1 = 0 ∧ fld w 19 6 = 0 then some (.callr (flg w 31) (bvf w 14 5) (bvf w 7 6)) else
  if fld w 0 7 = 9 ∧ fld w 7 7 = 0 ∧ fld w 19 6 = 0 then some (.jmpr (flg w 31) (bvf w 14 5)) else
  if fld w 0 7 = 10 ∧ fld w 19 6 = 0 then some (.trap (flg w 31) (bvf w 7 12)) else
  if fld w 0 7 = 12 ∧ fld w 13 12 = 0 then some (.wgrow (flg w 31) (bvf w 7 6)) else
  if fld w 0 7 = 13 ∧ fld w 13 12 = 0 then some (.wshr (flg w 31) (bvf w 7 6)) else
  if fld w 0 7 = 14 ∧ fld w 7 6 = 0 ∧ fld w 19 6 = 0 then some (.tslp (flg w 31) (bvf w 13 6)) else
  none

/-- The rows of MAJ 0x10 (R122). -/
def decodeMaj10 (w : Nat) : Option Instr :=
  some (.ldl (flg w 31) (bvf w 19 6) (bvf w 13 6) (bvf w 10 3) (bvf w 6 4) (bvf w 0 6))

/-- The rows of MAJ 0x11 (R122). -/
def decodeMaj11 (w : Nat) : Option Instr :=
  if fld w 6 1 = 0 ∧ fld w 7 3 = 0 then some (.stl (flg w 31) (bvf w 19 6) (bvf w 13 6) (bvf w 10 3) (bvf w 0 6)) else
  none

/-- The rows of MAJ 0x12 (R122). -/
def decodeMaj12 (w : Nat) : Option Instr :=
  some (.ldd (flg w 31) (bvf w 19 6) (bvf w 13 6) (bvf w 10 3) (bvf w 6 4) (bvf w 0 6))

/-- The rows of MAJ 0x13 (R122). -/
def decodeMaj13 (w : Nat) : Option Instr :=
  if fld w 6 1 = 0 ∧ fld w 7 3 = 0 then some (.std (flg w 31) (bvf w 19 6) (bvf w 13 6) (bvf w 10 3) (bvf w 0 6)) else
  none

/-- The rows of MAJ 0x14 (R122). -/
def decodeMaj14 (w : Nat) : Option Instr :=
  some (.lds (flg w 31) (bvf w 19 6) (bvf w 13 6) (bvf w 10 3) (bvf w 6 4) (bvf w 0 6))

/-- The rows of MAJ 0x15 (R122). -/
def decodeMaj15 (w : Nat) : Option Instr :=
  if fld w 6 1 = 0 ∧ fld w 7 3 = 0 then some (.sts (flg w 31) (bvf w 19 6) (bvf w 13 6) (bvf w 10 3) (bvf w 0 6)) else
  none

/-- The rows of MAJ 0x16 (R122). -/
def decodeMaj16 (w : Nat) : Option Instr :=
  if fld w 2 1 = 0 ∧ fld w 13 1 = 0 then some (.atmAddI32 (flg w 31) (bvf w 19 6) (bvf w 14 5) (bvf w 7 6) (bvf w 3 4) (bvf w 0 2)) else
  if fld w 2 1 = 1 ∧ fld w 13 1 = 0 then some (.atmAddF32 (flg w 31) (bvf w 19 6) (bvf w 14 5) (bvf w 7 6) (bvf w 3 4) (bvf w 0 2)) else
  none

/-- The rows of MAJ 0x17 (R122). -/
def decodeMaj17 (w : Nat) : Option Instr :=
  if fld w 2 1 = 0 ∧ fld w 13 1 = 0 then some (.atmMaxI32 (flg w 31) (bvf w 19 6) (bvf w 14 5) (bvf w 7 6) (bvf w 3 4) (bvf w 0 2)) else
  if fld w 2 1 = 1 ∧ fld w 13 1 = 0 then some (.atmMaxN32 (flg w 31) (bvf w 19 6) (bvf w 14 5) (bvf w 7 6) (bvf w 3 4) (bvf w 0 2)) else
  none

/-- The rows of MAJ 0x18 (R122). -/
def decodeMaj18 (w : Nat) : Option Instr :=
  if fld w 2 1 = 0 ∧ fld w 13 1 = 0 then some (.atmMinI32 (flg w 31) (bvf w 19 6) (bvf w 14 5) (bvf w 7 6) (bvf w 3 4) (bvf w 0 2)) else
  if fld w 2 1 = 1 ∧ fld w 13 1 = 0 then some (.atmMinN32 (flg w 31) (bvf w 19 6) (bvf w 14 5) (bvf w 7 6) (bvf w 3 4) (bvf w 0 2)) else
  none

/-- The rows of MAJ 0x19 (R122). -/
def decodeMaj19 (w : Nat) : Option Instr :=
  if fld w 2 1 = 0 ∧ fld w 13 1 = 0 then some (.atmAmaxF32 (flg w 31) (bvf w 19 6) (bvf w 14 5) (bvf w 7 6) (bvf w 3 4) (bvf w 0 2)) else
  if fld w 2 1 = 1 ∧ fld w 13 1 = 0 then some (.atmAnd (flg w 31) (bvf w 19 6) (bvf w 14 5) (bvf w 7 6) (bvf w 3 4) (bvf w 0 2)) else
  none

/-- The rows of MAJ 0x1A (R122). -/
def decodeMaj1A (w : Nat) : Option Instr :=
  if fld w 2 1 = 0 ∧ fld w 13 1 = 0 then some (.atmOr (flg w 31) (bvf w 19 6) (bvf w 14 5) (bvf w 7 6) (bvf w 3 4) (bvf w 0 2)) else
  if fld w 2 1 = 1 ∧ fld w 13 1 = 0 then some (.atmXor (flg w 31) (bvf w 19 6) (bvf w 14 5) (bvf w 7 6) (bvf w 3 4) (bvf w 0 2)) else
  none

/-- The rows of MAJ 0x1B (R122). -/
def decodeMaj1B (w : Nat) : Option Instr :=
  if fld w 2 1 = 0 ∧ fld w 13 1 = 0 then some (.atmSwp (flg w 31) (bvf w 19 6) (bvf w 14 5) (bvf w 7 6) (bvf w 3 4) (bvf w 0 2)) else
  if fld w 2 1 = 1 ∧ fld w 7 1 = 0 ∧ fld w 13 1 = 0 then some (.atmCasB32 (flg w 31) (bvf w 19 6) (bvf w 14 5) (bvf w 8 5) (bvf w 3 4) (bvf w 0 2)) else
  none

/-- The rows of MAJ 0x1C (R122). -/
def decodeMaj1C (w : Nat) : Option Instr :=
  if fld w 2 1 = 0 ∧ fld w 7 1 = 0 ∧ fld w 13 1 = 0 ∧ fld w 19 1 = 0 then some (.atmAddI64 (flg w 31) (bvf w 20 5) (bvf w 14 5) (bvf w 8 5) (bvf w 3 4) (bvf w 0 2)) else
  if fld w 2 1 = 1 ∧ fld w 7 2 = 0 ∧ fld w 13 1 = 0 ∧ fld w 19 1 = 0 then some (.atmCasB64 (flg w 31) (bvf w 20 5) (bvf w 14 5) (bvf w 9 4) (bvf w 3 4) (bvf w 0 2)) else
  none

/-- The rows of MAJ 0x1D (R122). -/
def decodeMaj1D (w : Nat) : Option Instr :=
  if fld w 0 7 = 1 ∧ fld w 7 1 = 0 ∧ fld w 13 2 = 0 ∧ fld w 19 6 = 0 then some (.bind (flg w 31) (bvf w 15 4) (bvf w 8 5)) else
  if fld w 0 7 = 2 ∧ fld w 7 2 = 0 ∧ fld w 13 2 = 0 ∧ fld w 19 6 = 0 then some (.bindx (flg w 31) (bvf w 15 4) (bvf w 9 4)) else
  if fld w 0 7 = 3 ∧ fld w 7 7 = 0 ∧ fld w 19 6 = 0 then some (.unbind (flg w 31) (bvf w 14 5)) else
  if fld w 0 7 = 8 ∧ fld w 7 18 = 0 then some (.fenceAcq (flg w 31)) else
  if fld w 0 7 = 9 ∧ fld w 7 18 = 0 then some (.fenceRel (flg w 31)) else
  if fld w 0 7 = 10 ∧ fld w 7 18 = 0 then some (.fenceAr (flg w 31)) else
  if fld w 0 7 = 16 ∧ fld w 7 18 = 0 then some (.drainL (flg w 31)) else
  if fld w 0 7 = 17 ∧ fld w 7 18 = 0 then some (.drainD (flg w 31)) else
  if fld w 0 7 = 18 ∧ fld w 7 18 = 0 then some (.drainS (flg w 31)) else
  if fld w 0 7 = 19 ∧ fld w 7 18 = 0 then some (.drainG (flg w 31)) else
  none

/-- The rows of MAJ 0x1E (R122). -/
def decodeMaj1E (w : Nat) : Option Instr :=
  if fld w 0 7 = 1 ∧ fld w 7 12 = 0 then some (.phal (flg w 31) (bvf w 19 6)) else
  if fld w 0 7 = 2 ∧ fld w 7 6 = 0 ∧ fld w 19 6 = 0 then some (.phfr (flg w 31) (bvf w 13 6)) else
  if fld w 0 7 = 3 ∧ fld w 19 6 = 0 then some (.phrg (flg w 31) (bvf w 13 6) (bvf w 7 6)) else
  if fld w 0 7 = 4 ∧ fld w 7 6 = 0 ∧ fld w 19 6 = 0 then some (.phdr (flg w 31) (bvf w 13 6)) else
  if fld w 0 7 = 5 ∧ fld w 7 6 = 0 ∧ fld w 19 6 = 0 then some (.phsg (flg w 31) (bvf w 13 6)) else
  if fld w 0 7 = 6 ∧ fld w 7 6 = 0 then some (.phwt (flg w 31) (bvf w 19 6) (bvf w 13 6)) else
  if fld w 0 7 = 7 ∧ fld w 7 6 = 0 then some (.phsw (flg w 31) (bvf w 19 6) (bvf w 13 6)) else
  if fld w 0 7 = 8 ∧ fld w 7 1 = 0 ∧ fld w 19 6 = 0 then some (.phex (flg w 31) (bvf w 13 6) (bvf w 8 5)) else
  if fld w 0 7 = 9 ∧ fld w 7 6 = 0 ∧ fld w 19 1 = 0 then some (.phqy (flg w 31) (bvf w 20 5) (bvf w 13 6)) else
  if fld w 0 7 = 10 ∧ fld w 7 6 = 0 ∧ fld w 19 6 = 0 then some (.phin (flg w 31) (bvf w 13 6)) else
  none

/-- The rows of MAJ 0x1F (R122). -/
def decodeMaj1F (w : Nat) : Option Instr :=
  if fld w 0 3 = 0 ∧ fld w 5 2 = 0 ∧ fld w 7 3 = 0 ∧ fld w 13 1 = 0 ∧ fld w 19 1 = 0 then some (.cpy (flg w 31) (bvf w 20 5) (bvf w 14 5) (bvf w 10 3) (bvf w 3 2)) else
  if fld w 0 3 = 1 ∧ fld w 5 2 = 0 ∧ fld w 7 3 = 0 ∧ fld w 13 1 = 0 ∧ fld w 19 1 = 0 then some (.cpy2 (flg w 31) (bvf w 20 5) (bvf w 14 5) (bvf w 10 3) (bvf w 3 2)) else
  if fld w 0 3 = 2 ∧ fld w 5 2 = 0 ∧ fld w 7 3 = 0 ∧ fld w 13 1 = 0 ∧ fld w 19 1 = 0 then some (.cpyg (flg w 31) (bvf w 20 5) (bvf w 14 5) (bvf w 10 3) (bvf w 3 2)) else
  if fld w 0 3 = 3 ∧ fld w 5 2 = 0 ∧ fld w 7 3 = 0 ∧ fld w 13 1 = 0 ∧ fld w 19 1 = 0 then some (.cpys (flg w 31) (bvf w 20 5) (bvf w 14 5) (bvf w 10 3) (bvf w 3 2)) else
  if fld w 0 3 = 4 ∧ fld w 7 3 = 0 ∧ fld w 13 1 = 0 ∧ fld w 19 1 = 0 then some (.cpyr (flg w 31) (bvf w 20 5) (bvf w 14 5) (bvf w 10 3) (bvf w 5 2) (bvf w 3 2)) else
  none

/-- The rows of MAJ 0x20 (R122). -/
def decodeMaj20 (w : Nat) : Option Instr :=
  if fld w 0 7 = 0 ∧ fld w 7 8 = 0 ∧ fld w 23 2 = 0 then some (.mshp (flg w 31) (bvf w 19 4) (bvf w 15 4)) else
  if fld w 0 7 = 1 ∧ fld w 11 2 = 0 ∧ fld w 17 2 = 0 ∧ fld w 23 2 = 0 then some (.mbld (flg w 31) (bvf w 19 4) (bvf w 13 4) (bvf w 7 4)) else
  if fld w 0 7 = 2 ∧ fld w 7 12 = 0 ∧ fld w 23 2 = 0 then some (.mzro (flg w 31) (bvf w 19 4)) else
  if fld w 0 3 = 3 ∧ fld w 5 2 = 0 ∧ fld w 7 1 = 0 ∧ fld w 17 2 = 0 then some (.mlp (flg w 31) (bvf w 23 2) (bvf w 19 4) (bvf w 13 4) (bvf w 8 5) (bvf w 3 2)) else
  if fld w 0 3 = 4 ∧ fld w 6 1 = 0 ∧ fld w 7 12 = 0 then some (.mdrn (flg w 31) (bvf w 23 2) (bvf w 19 4) (bvf w 3 3)) else
  if fld w 0 3 = 4 ∧ fld w 6 1 = 0 ∧ fld w 7 1 = 0 ∧ fld w 13 6 = 1 then some (.mdrnAmax (flg w 31) (bvf w 23 2) (bvf w 19 4) (bvf w 8 5) (bvf w 3 3)) else
  if fld w 0 7 = 5 ∧ fld w 7 18 = 0 then some (.mwt (flg w 31)) else
  if fld w 0 7 = 13 ∧ fld w 7 6 = 0 ∧ fld w 19 6 = 0 then some (.mwtSg (flg w 31) (bvf w 13 6)) else
  if fld w 0 7 = 6 ∧ fld w 7 6 = 0 ∧ fld w 19 6 = 0 then some (.mcop (flg w 31) (bvf w 13 6)) else
  none

/-- The rows of MAJ 0x21 (R122). -/
def decodeMaj21 (w : Nat) : Option Instr :=
  if fld w 0 3 = 0 ∧ fld w 11 2 = 0 ∧ fld w 17 2 = 0 ∧ fld w 23 2 = 0 then some (.vpj (flg w 31) (bvf w 19 4) (bvf w 13 4) (bvf w 7 4) (bvf w 3 4)) else
  if fld w 0 3 = 1 ∧ fld w 11 2 = 0 ∧ fld w 17 2 = 0 ∧ fld w 23 2 = 0 then some (.vpjb (flg w 31) (bvf w 19 4) (bvf w 13 4) (bvf w 7 4) (bvf w 3 4)) else
  if fld w 0 7 = 2 ∧ fld w 7 6 = 0 ∧ fld w 17 2 = 0 ∧ fld w 23 2 = 0 then some (.vmrg (flg w 31) (bvf w 19 4) (bvf w 13 4)) else
  if fld w 0 7 = 3 ∧ fld w 7 6 = 0 ∧ fld w 17 2 = 0 ∧ fld w 23 2 = 0 then some (.vfin (flg w 31) (bvf w 19 4) (bvf w 13 4)) else
  if fld w 0 7 = 4 ∧ fld w 7 12 = 0 ∧ fld w 23 2 = 0 then some (.vrsm (flg w 31) (bvf w 19 4)) else
  none

/-- The rows of MAJ 0x22 (R122). -/
def decodeMaj22 (w : Nat) : Option Instr :=
  if fld w 0 3 = 0 ∧ fld w 7 7 = 0 ∧ fld w 19 1 = 0 then some (.glch (flg w 31) (bvf w 20 5) (bvf w 14 5) (bvf w 3 4)) else
  if fld w 0 7 = 1 ∧ fld w 7 7 = 0 ∧ fld w 19 6 = 0 then some (.gcan (flg w 31) (bvf w 14 5)) else
  if fld w 0 7 = 2 ∧ fld w 7 7 = 0 ∧ fld w 19 6 = 0 then some (.gwt (flg w 31) (bvf w 14 5)) else
  if fld w 0 3 = 3 ∧ fld w 13 1 = 0 ∧ fld w 19 1 = 0 then some (.gqy (flg w 31) (bvf w 20 5) (bvf w 14 5) (bvf w 7 6) (bvf w 3 4)) else
  if fld w 0 7 = 4 ∧ fld w 7 6 = 0 ∧ fld w 19 6 = 0 then some (.cfr (flg w 31) (bvf w 13 6)) else
  if fld w 0 7 = 5 ∧ fld w 19 6 = 0 then some (.cwt (flg w 31) (bvf w 13 6) (bvf w 7 6)) else
  if fld w 0 3 = 6 then some (.cqy (flg w 31) (bvf w 19 6) (bvf w 13 6) (bvf w 7 6) (bvf w 3 4)) else
  none

/-- The rows of MAJ 0x23 (R122). -/
def decodeMaj23 (w : Nat) : Option Instr :=
  if fld w 0 7 = 1 then some (.csrr (flg w 31) (bvf w 19 6) (bvf w 7 12)) else
  if fld w 0 7 = 2 then some (.csrw (flg w 31) (bvf w 19 6) (bvf w 7 12)) else
  if fld w 0 7 = 3 ∧ fld w 13 1 = 0 ∧ fld w 19 6 = 0 then some (.tlbi (flg w 31) (bvf w 14 5) (bvf w 7 6)) else
  if fld w 0 7 = 4 ∧ fld w 7 1 = 0 ∧ fld w 13 1 = 0 then some (.ctxs (flg w 31) (bvf w 19 6) (bvf w 14 5) (bvf w 8 5)) else
  if fld w 0 7 = 5 ∧ fld w 7 1 = 0 ∧ fld w 13 1 = 0 then some (.ctxl (flg w 31) (bvf w 19 6) (bvf w 14 5) (bvf w 8 5)) else
  if fld w 0 7 = 6 ∧ fld w 7 18 = 0 then some (.eret (flg w 31)) else
  if fld w 0 7 = 7 ∧ fld w 13 1 = 0 then some (.halt (flg w 31) (bvf w 19 6) (bvf w 14 5) (bvf w 7 6)) else
  if fld w 0 7 = 8 ∧ fld w 13 3 = 0 then some (.hzn (flg w 31) (bvf w 19 6) (bvf w 16 3) (bvf w 7 6)) else
  if fld w 0 7 = 9 then some (.phld (flg w 31) (bvf w 19 6) (bvf w 13 6) (bvf w 7 6)) else
  if fld w 0 7 = 10 ∧ fld w 7 7 = 0 ∧ fld w 19 1 = 0 then some (.dbgr (flg w 31) (bvf w 20 5) (bvf w 14 5)) else
  none

/-- The rows of MAJ 0x3F (R122). -/
def decodeMaj3F (w : Nat) : Option Instr :=
  if fld w 22 3 = 0 ∧ fld w 31 1 = 0 then some (.hx (bvf w 0 22)) else
  if fld w 0 7 = 0 ∧ fld w 7 11 = 0 ∧ fld w 22 3 = 1 ∧ fld w 31 1 = 0 then some (.hp (bvf w 19 3) (flg w 18)) else
  if fld w 0 7 = 0 ∧ fld w 7 1 = 0 ∧ fld w 22 3 = 2 ∧ fld w 31 1 = 0 then some (.hrep (bvf w 14 8) (bvf w 12 2) (bvf w 10 2) (bvf w 8 2)) else
  if fld w 0 7 = 0 ∧ fld w 7 9 = 0 ∧ fld w 22 3 = 3 ∧ fld w 31 1 = 0 then some (.hmod (flg w 21) (bvf w 18 3) (bvf w 16 2)) else
  none

/-- The row of the table that a word matches, whatever its reserved codes say (R148, steps 2 to 5). -/
def decodeRow (nhx w : Nat) : Option Instr :=
  match fld w 25 6 with
  | 0 => decodeMaj00 w
  | 1 => decodeMaj01 w
  | 2 => decodeMaj02 w
  | 3 => decodeMaj03 w
  | 4 => decodeMaj04 w
  | 5 => decodeMaj05 w
  | 6 => decodeMaj06 w
  | 7 => decodeMaj07 w
  | 8 => decodeMaj08 w
  | 9 => decodeMaj09 w
  | 10 => decodeMaj0A nhx w
  | 11 => decodeMaj0B w
  | 12 => decodeMaj0C w
  | 13 => decodeMaj0D w
  | 14 => decodeMaj0E w
  | 15 => decodeMaj0F w
  | 16 => decodeMaj10 w
  | 17 => decodeMaj11 w
  | 18 => decodeMaj12 w
  | 19 => decodeMaj13 w
  | 20 => decodeMaj14 w
  | 21 => decodeMaj15 w
  | 22 => decodeMaj16 w
  | 23 => decodeMaj17 w
  | 24 => decodeMaj18 w
  | 25 => decodeMaj19 w
  | 26 => decodeMaj1A w
  | 27 => decodeMaj1B w
  | 28 => decodeMaj1C w
  | 29 => decodeMaj1D w
  | 30 => decodeMaj1E w
  | 31 => decodeMaj1F w
  | 32 => decodeMaj20 w
  | 33 => decodeMaj21 w
  | 34 => decodeMaj22 w
  | 35 => decodeMaj23 w
  | 63 => decodeMaj3F w
  | _ => none

/-- The majors of R122 that hold no instruction. -/
def majAssigned (maj : Nat) : Bool := maj < 0x24 || maj == 0x3F

/-- Decoding one word (R148). `nhx` is the number of `hx` words already in the unit. A word outside the table is
refused by name: its major, its minor or a reserved field, or the check of WellFormed it fails. -/
def decodeWord (nhx w : Nat) : Except Reject Instr :=
  if majAssigned (fld w 25 6) = false then .error .major
  else
    match decodeRow nhx w with
    | none => .error .minorOrReserved
    | some i =>
      match i.check with
      | none => .ok i
      | some e => .error (.check e)

/-- The little-endian bytes of a word (R4, R118). -/
def wordBytes (w : Nat) : List Byte := [BitVec.ofNat 8 w, BitVec.ofNat 8 (w / 2 ^ 8), BitVec.ofNat 8 (w / 2 ^ 16), BitVec.ofNat 8 (w / 2 ^ 24)]

/-- A word from its little-endian bytes (R4, R118). -/
def bytesWord (bs : List Byte) : Nat := bs.foldr (fun b acc => b.toNat + 256 * acc) 0

/-- Decoding any list of bytes: the first instruction, with the rest of the list. -/
def decodeBytes (nhx : Nat) (bs : List Byte) : Except Reject (Instr × List Byte) :=
  match bs with
  | b0 :: b1 :: b2 :: b3 :: rest =>
    match decodeWord nhx (bytesWord [b0, b1, b2, b3]) with
    | .ok i => .ok (i, rest)
    | .error e => .error e
  | _ => .error .truncated

/-- The instruction the decoder reads from the first word of an instruction numbered as the opcode table numbers
its bits; every instruction of the table is one word. -/
def decodeTableWord (nbits w : Nat) : Option Instr :=
  if nbits = 32 then
    match decodeBytes 0 (wordBytes w) with
    | .ok (i, _) => some i
    | .error _ => none
  else none

/-- A field value placed in a word whose field is still zero. -/
def put (w lo v : Nat) : Nat := w + v * 2 ^ lo

/-- The word of an instruction (R119-R136), fields placed by the table; an event has no word. -/
def encode : Instr → Option Nat
  | .addI32 e d a b => some (put (put (put (put 0x00000001 31 e.toNat) 19 d.toNat) 13 a.toNat) 7 b.toNat)
  | .subI32 e d a b => some (put (put (put (put 0x00000002 31 e.toNat) 19 d.toNat) 13 a.toNat) 7 b.toNat)
  | .addcN32 e d a b => some (put (put (put (put 0x00000003 31 e.toNat) 19 d.toNat) 13 a.toNat) 7 b.toNat)
  | .subbN32 e d a b => some (put (put (put (put 0x00000004 31 e.toNat) 19 d.toNat) 13 a.toNat) 7 b.toNat)
  | .mulI32 e d a b => some (put (put (put (put 0x00000005 31 e.toNat) 19 d.toNat) 13 a.toNat) 7 b.toNat)
  | .mulhiI32 e d a b => some (put (put (put (put 0x00000006 31 e.toNat) 19 d.toNat) 13 a.toNat) 7 b.toNat)
  | .mulhiN32 e d a b => some (put (put (put (put 0x00000007 31 e.toNat) 19 d.toNat) 13 a.toNat) 7 b.toNat)
  | .madI32 e d a b => some (put (put (put (put 0x00000008 31 e.toNat) 19 d.toNat) 13 a.toNat) 7 b.toNat)
  | .minI32 e d a b => some (put (put (put (put 0x00000009 31 e.toNat) 19 d.toNat) 13 a.toNat) 7 b.toNat)
  | .minN32 e d a b => some (put (put (put (put 0x0000000A 31 e.toNat) 19 d.toNat) 13 a.toNat) 7 b.toNat)
  | .maxI32 e d a b => some (put (put (put (put 0x0000000B 31 e.toNat) 19 d.toNat) 13 a.toNat) 7 b.toNat)
  | .maxN32 e d a b => some (put (put (put (put 0x0000000C 31 e.toNat) 19 d.toNat) 13 a.toNat) 7 b.toNat)
  | .absI32 e d a => some (put (put (put 0x0000000D 31 e.toNat) 19 d.toNat) 13 a.toNat)
  | .negI32 e d a => some (put (put (put 0x0000000E 31 e.toNat) 19 d.toNat) 13 a.toNat)
  | .andB32 e d a b => some (put (put (put (put 0x00000010 31 e.toNat) 19 d.toNat) 13 a.toNat) 7 b.toNat)
  | .orB32 e d a b => some (put (put (put (put 0x00000011 31 e.toNat) 19 d.toNat) 13 a.toNat) 7 b.toNat)
  | .xorB32 e d a b => some (put (put (put (put 0x00000012 31 e.toNat) 19 d.toNat) 13 a.toNat) 7 b.toNat)
  | .andnB32 e d a b => some (put (put (put (put 0x00000013 31 e.toNat) 19 d.toNat) 13 a.toNat) 7 b.toNat)
  | .notB32 e d a => some (put (put (put 0x00000014 31 e.toNat) 19 d.toNat) 13 a.toNat)
  | .shlB32 e d a b => some (put (put (put (put 0x00000018 31 e.toNat) 19 d.toNat) 13 a.toNat) 7 b.toNat)
  | .shrB32 e d a b => some (put (put (put (put 0x00000019 31 e.toNat) 19 d.toNat) 13 a.toNat) 7 b.toNat)
  | .sarI32 e d a b => some (put (put (put (put 0x0000001A 31 e.toNat) 19 d.toNat) 13 a.toNat) 7 b.toNat)
  | .rolB32 e d a b => some (put (put (put (put 0x0000001B 31 e.toNat) 19 d.toNat) 13 a.toNat) 7 b.toNat)
  | .bfxN32 e d a b => some (put (put (put (put 0x0000001C 31 e.toNat) 19 d.toNat) 13 a.toNat) 7 b.toNat)
  | .bfxI32 e d a b => some (put (put (put (put 0x0000001D 31 e.toNat) 19 d.toNat) 13 a.toNat) 7 b.toNat)
  | .bfsB32 e d a b => some (put (put (put (put 0x0000001E 31 e.toNat) 19 d.toNat) 13 a.toNat) 7 b.toNat)
  | .clzB32 e d a => some (put (put (put 0x00000020 31 e.toNat) 19 d.toNat) 13 a.toNat)
  | .popB32 e d a => some (put (put (put 0x00000021 31 e.toNat) 19 d.toNat) 13 a.toNat)
  | .brevB32 e d a => some (put (put (put 0x00000022 31 e.toNat) 19 d.toNat) 13 a.toNat)
  | .bpermB32 e d a b => some (put (put (put (put 0x00000023 31 e.toNat) 19 d.toNat) 13 a.toNat) 7 b.toNat)
  | .cmpI32 e p c a b => some (put (put (put (put (put 0x00000028 31 e.toNat) 22 p.toNat) 19 c.toNat) 13 a.toNat) 7 b.toNat)
  | .cmpN32 e p c a b => some (put (put (put (put (put 0x00000029 31 e.toNat) 22 p.toNat) 19 c.toNat) 13 a.toNat) 7 b.toNat)
  | .movB32 e d a => some (put (put (put 0x0000002C 31 e.toNat) 19 d.toNat) 13 a.toNat)
  | .addI64 e d a b => some (put (put (put (put 0x00000030 31 e.toNat) 20 d.toNat) 14 a.toNat) 8 b.toNat)
  | .subI64 e d a b => some (put (put (put (put 0x00000031 31 e.toNat) 20 d.toNat) 14 a.toNat) 8 b.toNat)
  | .shlB64 e d a b => some (put (put (put (put 0x00000032 31 e.toNat) 20 d.toNat) 14 a.toNat) 7 b.toNat)
  | .shrB64 e d a b => some (put (put (put (put 0x00000033 31 e.toNat) 20 d.toNat) 14 a.toNat) 7 b.toNat)
  | .faddF32 e d a b => some (put (put (put (put 0x02000001 31 e.toNat) 19 d.toNat) 13 a.toNat) 7 b.toNat)
  | .fsubF32 e d a b => some (put (put (put (put 0x02000002 31 e.toNat) 19 d.toNat) 13 a.toNat) 7 b.toNat)
  | .fmulF32 e d a b => some (put (put (put (put 0x02000003 31 e.toNat) 19 d.toNat) 13 a.toNat) 7 b.toNat)
  | .ffmaF32 e d a b => some (put (put (put (put 0x02000004 31 e.toNat) 19 d.toNat) 13 a.toNat) 7 b.toNat)
  | .fminF32 e d a b => some (put (put (put (put 0x02000005 31 e.toNat) 19 d.toNat) 13 a.toNat) 7 b.toNat)
  | .fmaxF32 e d a b => some (put (put (put (put 0x02000006 31 e.toNat) 19 d.toNat) 13 a.toNat) 7 b.toNat)
  | .fabsF32 e d a => some (put (put (put 0x02000007 31 e.toNat) 19 d.toNat) 13 a.toNat)
  | .fnegF32 e d a => some (put (put (put 0x02000008 31 e.toNat) 19 d.toNat) 13 a.toNat)
  | .frcpF32 e d a => some (put (put (put 0x02000009 31 e.toNat) 19 d.toNat) 13 a.toNat)
  | .frsqF32 e d a => some (put (put (put 0x0200000A 31 e.toNat) 19 d.toNat) 13 a.toNat)
  | .fsqrF32 e d a => some (put (put (put 0x0200000B 31 e.toNat) 19 d.toNat) 13 a.toNat)
  | .fex2F32 e d a => some (put (put (put 0x0200000C 31 e.toNat) 19 d.toNat) 13 a.toNat)
  | .flg2F32 e d a => some (put (put (put 0x0200000D 31 e.toNat) 19 d.toNat) 13 a.toNat)
  | .fcmpF32 e p c a b => some (put (put (put (put (put 0x0200000E 31 e.toNat) 22 p.toNat) 19 c.toNat) 13 a.toNat) 7 b.toNat)
  | .fclsF32 e d a => some (put (put (put 0x0200000F 31 e.toNat) 19 d.toNat) 13 a.toNat)
  | .hadd2F16 e d a b => some (put (put (put (put 0x02000010 31 e.toNat) 19 d.toNat) 13 a.toNat) 7 b.toNat)
  | .hmul2F16 e d a b => some (put (put (put (put 0x02000011 31 e.toNat) 19 d.toNat) 13 a.toNat) 7 b.toNat)
  | .hfma2F16 e d a b => some (put (put (put (put 0x02000012 31 e.toNat) 19 d.toNat) 13 a.toNat) 7 b.toNat)
  | .hmax2F16 e d a b => some (put (put (put (put 0x02000013 31 e.toNat) 19 d.toNat) 13 a.toNat) 7 b.toNat)
  | .hmin2F16 e d a b => some (put (put (put (put 0x02000014 31 e.toNat) 19 d.toNat) 13 a.toNat) 7 b.toNat)
  | .bfma2Bf16 e d a b => some (put (put (put (put 0x02000018 31 e.toNat) 19 d.toNat) 13 a.toNat) 7 b.toNat)
  | .fcvt e d a s t => some (put (put (put (put (put 0x04000001 31 e.toNat) 19 d.toNat) 13 a.toNat) 10 s.toNat) 7 t.toNat)
  | .fcviI32 e d a s => some (put (put (put (put 0x04000002 31 e.toNat) 19 d.toNat) 13 a.toNat) 10 s.toNat)
  | .fcviN32 e d a s => some (put (put (put (put 0x04000003 31 e.toNat) 19 d.toNat) 13 a.toNat) 10 s.toNat)
  | .icvfI32 e d a t => some (put (put (put (put 0x04000004 31 e.toNat) 19 d.toNat) 13 a.toNat) 7 t.toNat)
  | .icvfN32 e d a t => some (put (put (put (put 0x04000005 31 e.toNat) 19 d.toNat) 13 a.toNat) 7 t.toNat)
  | .qcv e d a t => some (put (put (put (put 0x04000008 31 e.toNat) 19 d.toNat) 14 a.toNat) 7 t.toNat)
  | .qcvs e d a t => some (put (put (put (put 0x04000009 31 e.toNat) 19 d.toNat) 15 a.toNat) 7 t.toNat)
  | .qdq e d a s t => some (put (put (put (put (put 0x0400000A 31 e.toNat) 19 d.toNat) 14 a.toNat) 10 s.toNat) 7 t.toNat)
  | .qsc e d a t => some (put (put (put (put 0x0400000B 31 e.toNat) 19 d.toNat) 13 a.toNat) 7 t.toNat)
  | .qox e d a b => some (put (put (put (put 0x0400000C 31 e.toNat) 19 d.toNat) 13 a.toNat) 7 b.toNat)
  | .pkh e d a b => some (put (put (put (put 0x0400000D 31 e.toNat) 19 d.toNat) 13 a.toNat) 7 b.toNat)
  | .pand e d a m b n => some (put (put (put (put (put (put 0x06000001 31 e.toNat) 22 d.toNat) 16 a.toNat) 15 m.toNat) 10 b.toNat) 9 n.toNat)
  | .por e d a m b n => some (put (put (put (put (put (put 0x06000002 31 e.toNat) 22 d.toNat) 16 a.toNat) 15 m.toNat) 10 b.toNat) 9 n.toNat)
  | .pxor e d a m b n => some (put (put (put (put (put (put 0x06000003 31 e.toNat) 22 d.toNat) 16 a.toNat) 15 m.toNat) 10 b.toNat) 9 n.toNat)
  | .pnot e d a m => some (put (put (put (put 0x06000004 31 e.toNat) 22 d.toNat) 16 a.toNat) 15 m.toNat)
  | .pmov e d a m => some (put (put (put (put 0x06000005 31 e.toNat) 22 d.toNat) 16 a.toNat) 15 m.toNat)
  | .vmovpToReg e d => some (put (put 0x06000008 31 e.toNat) 19 d.toNat)
  | .vmovpToPreds e a => some (put (put 0x06000088 31 e.toNat) 13 a.toNat)
  | .sreg e d s => some (put (put (put 0x0600000C 31 e.toNat) 19 d.toNat) 7 s.toNat)
  | .tnow e d => some (put (put 0x0600000D 31 e.toNat) 20 d.toNat)
  | .sel e d a b n q => some (put (put (put (put (put (put 0x06000010 31 e.toNat) 19 d.toNat) 13 a.toNat) 7 b.toNat) 3 n.toNat) 0 q.toNat)
  | .addi e d a i => some (put (put (put (put 0x08000000 31 e.toNat) 19 d.toNat) 13 a.toNat) 0 i.toNat)
  | .andi e d a i => some (put (put (put (put 0x0A000000 31 e.toNat) 19 d.toNat) 13 a.toNat) 0 i.toNat)
  | .ori e d a i => some (put (put (put (put 0x0C000000 31 e.toNat) 19 d.toNat) 13 a.toNat) 0 i.toNat)
  | .xori e d a i => some (put (put (put (put 0x0E000000 31 e.toNat) 19 d.toNat) 13 a.toNat) 0 i.toNat)
  | .shli e d a n => some (put (put (put (put 0x10000000 31 e.toNat) 19 d.toNat) 13 a.toNat) 0 n.toNat)
  | .shri e d a n => some (put (put (put (put 0x10000800 31 e.toNat) 19 d.toNat) 13 a.toNat) 0 n.toNat)
  | .sari e d a n => some (put (put (put (put 0x10001000 31 e.toNat) 19 d.toNat) 13 a.toNat) 0 n.toNat)
  | .roli e d a n => some (put (put (put (put 0x10001800 31 e.toNat) 19 d.toNat) 13 a.toNat) 0 n.toNat)
  | .cmpi e p c a i => some (put (put (put (put (put 0x12000000 31 e.toNat) 22 p.toNat) 19 c.toNat) 13 a.toNat) 0 i.toNat)
  | .lim e d i => some (put (put (put 0x14000000 31 e.toNat) 19 d.toNat) 0 i.toNat)
  | .limB64 e d i => some (put (put (put 0x14000000 31 e.toNat) 20 d.toNat) 0 i.toNat)
  | .leaL e d a => some (put (put (put 0x16000000 31 e.toNat) 20 d.toNat) 13 a.toNat)
  | .leaD e d a => some (put (put (put 0x16000800 31 e.toNat) 20 d.toNat) 13 a.toNat)
  | .leaDDie e d a n => some (put (put (put (put 0x16000C00 31 e.toNat) 20 d.toNat) 13 a.toNat) 8 n.toNat)
  | .leaS e d a => some (put (put (put 0x16001000 31 e.toNat) 20 d.toNat) 13 a.toNat)
  | .bra e p n o => some (put (put (put (put 0x18000000 31 e.toNat) 22 p.toNat) 21 n.toNat) 0 o.toNat)
  | .brau e p n o => some (put (put (put (put 0x1A000000 31 e.toNat) 22 p.toNat) 21 n.toNat) 0 o.toNat)
  | .call e s o => some (put (put (put 0x1C000000 31 e.toNat) 19 s.toNat) 0 o.toNat)
  | .nop e => some (put 0x1E000000 31 e.toNat)
  | .exit e => some (put 0x1E000001 31 e.toNat)
  | .ret e => some (put 0x1E000002 31 e.toNat)
  | .merge e => some (put 0x1E000003 31 e.toNat)
  | .yield e => some (put 0x1E000004 31 e.toNat)
  | .yieldPd e => some (put 0x1E000005 31 e.toNat)
  | .callr e a b => some (put (put (put 0x1E000008 31 e.toNat) 14 a.toNat) 7 b.toNat)
  | .jmpr e a => some (put (put 0x1E000009 31 e.toNat) 14 a.toNat)
  | .trap e d => some (put (put 0x1E00000A 31 e.toNat) 7 d.toNat)
  | .wgrow e m => some (put (put 0x1E00000C 31 e.toNat) 7 m.toNat)
  | .wshr e m => some (put (put 0x1E00000D 31 e.toNat) 7 m.toNat)
  | .tslp e a => some (put (put 0x1E00000E 31 e.toNat) 13 a.toNat)
  | .ldl e d b s l o => some (put (put (put (put (put (put 0x20000000 31 e.toNat) 19 d.toNat) 13 b.toNat) 10 s.toNat) 6 l.toNat) 0 o.toNat)
  | .stl e s b z o => some (put (put (put (put (put 0x22000000 31 e.toNat) 19 s.toNat) 13 b.toNat) 10 z.toNat) 0 o.toNat)
  | .ldd e d b s l o => some (put (put (put (put (put (put 0x24000000 31 e.toNat) 19 d.toNat) 13 b.toNat) 10 s.toNat) 6 l.toNat) 0 o.toNat)
  | .std e s b z o => some (put (put (put (put (put 0x26000000 31 e.toNat) 19 s.toNat) 13 b.toNat) 10 z.toNat) 0 o.toNat)
  | .lds e d b s l o => some (put (put (put (put (put (put 0x28000000 31 e.toNat) 19 d.toNat) 13 b.toNat) 10 s.toNat) 6 l.toNat) 0 o.toNat)
  | .sts e s b z o => some (put (put (put (put (put 0x2A000000 31 e.toNat) 19 s.toNat) 13 b.toNat) 10 z.toNat) 0 o.toNat)
  | .atmAddI32 e d a b l o => some (put (put (put (put (put (put 0x2C000000 31 e.toNat) 19 d.toNat) 14 a.toNat) 7 b.toNat) 3 l.toNat) 0 o.toNat)
  | .atmAddF32 e d a b l o => some (put (put (put (put (put (put 0x2C000004 31 e.toNat) 19 d.toNat) 14 a.toNat) 7 b.toNat) 3 l.toNat) 0 o.toNat)
  | .atmMaxI32 e d a b l o => some (put (put (put (put (put (put 0x2E000000 31 e.toNat) 19 d.toNat) 14 a.toNat) 7 b.toNat) 3 l.toNat) 0 o.toNat)
  | .atmMaxN32 e d a b l o => some (put (put (put (put (put (put 0x2E000004 31 e.toNat) 19 d.toNat) 14 a.toNat) 7 b.toNat) 3 l.toNat) 0 o.toNat)
  | .atmMinI32 e d a b l o => some (put (put (put (put (put (put 0x30000000 31 e.toNat) 19 d.toNat) 14 a.toNat) 7 b.toNat) 3 l.toNat) 0 o.toNat)
  | .atmMinN32 e d a b l o => some (put (put (put (put (put (put 0x30000004 31 e.toNat) 19 d.toNat) 14 a.toNat) 7 b.toNat) 3 l.toNat) 0 o.toNat)
  | .atmAmaxF32 e d a b l o => some (put (put (put (put (put (put 0x32000000 31 e.toNat) 19 d.toNat) 14 a.toNat) 7 b.toNat) 3 l.toNat) 0 o.toNat)
  | .atmAnd e d a b l o => some (put (put (put (put (put (put 0x32000004 31 e.toNat) 19 d.toNat) 14 a.toNat) 7 b.toNat) 3 l.toNat) 0 o.toNat)
  | .atmOr e d a b l o => some (put (put (put (put (put (put 0x34000000 31 e.toNat) 19 d.toNat) 14 a.toNat) 7 b.toNat) 3 l.toNat) 0 o.toNat)
  | .atmXor e d a b l o => some (put (put (put (put (put (put 0x34000004 31 e.toNat) 19 d.toNat) 14 a.toNat) 7 b.toNat) 3 l.toNat) 0 o.toNat)
  | .atmSwp e d a b l o => some (put (put (put (put (put (put 0x36000000 31 e.toNat) 19 d.toNat) 14 a.toNat) 7 b.toNat) 3 l.toNat) 0 o.toNat)
  | .atmCasB32 e d a b l o => some (put (put (put (put (put (put 0x36000004 31 e.toNat) 19 d.toNat) 14 a.toNat) 8 b.toNat) 3 l.toNat) 0 o.toNat)
  | .atmAddI64 e d a b l o => some (put (put (put (put (put (put 0x38000000 31 e.toNat) 20 d.toNat) 14 a.toNat) 8 b.toNat) 3 l.toNat) 0 o.toNat)
  | .atmCasB64 e d a b l o => some (put (put (put (put (put (put 0x38000004 31 e.toNat) 20 d.toNat) 14 a.toNat) 9 b.toNat) 3 l.toNat) 0 o.toNat)
  | .bind e a b => some (put (put (put 0x3A000001 31 e.toNat) 15 a.toNat) 8 b.toNat)
  | .bindx e a b => some (put (put (put 0x3A000002 31 e.toNat) 15 a.toNat) 9 b.toNat)
  | .unbind e a => some (put (put 0x3A000003 31 e.toNat) 14 a.toNat)
  | .fenceAcq e => some (put 0x3A000008 31 e.toNat)
  | .fenceRel e => some (put 0x3A000009 31 e.toNat)
  | .fenceAr e => some (put 0x3A00000A 31 e.toNat)
  | .drainL e => some (put 0x3A000010 31 e.toNat)
  | .drainD e => some (put 0x3A000011 31 e.toNat)
  | .drainS e => some (put 0x3A000012 31 e.toNat)
  | .drainG e => some (put 0x3A000013 31 e.toNat)
  | .phal e d => some (put (put 0x3C000001 31 e.toNat) 19 d.toNat)
  | .phfr e a => some (put (put 0x3C000002 31 e.toNat) 13 a.toNat)
  | .phrg e a b => some (put (put (put 0x3C000003 31 e.toNat) 13 a.toNat) 7 b.toNat)
  | .phdr e a => some (put (put 0x3C000004 31 e.toNat) 13 a.toNat)
  | .phsg e a => some (put (put 0x3C000005 31 e.toNat) 13 a.toNat)
  | .phwt e d a => some (put (put (put 0x3C000006 31 e.toNat) 19 d.toNat) 13 a.toNat)
  | .phsw e d a => some (put (put (put 0x3C000007 31 e.toNat) 19 d.toNat) 13 a.toNat)
  | .phex e a b => some (put (put (put 0x3C000008 31 e.toNat) 13 a.toNat) 8 b.toNat)
  | .phqy e d a => some (put (put (put 0x3C000009 31 e.toNat) 20 d.toNat) 13 a.toNat)
  | .phin e a => some (put (put 0x3C00000A 31 e.toNat) 13 a.toNat)
  | .cpy e x y z s => some (put (put (put (put (put 0x3E000000 31 e.toNat) 20 x.toNat) 14 y.toNat) 10 z.toNat) 3 s.toNat)
  | .cpy2 e x y z s => some (put (put (put (put (put 0x3E000001 31 e.toNat) 20 x.toNat) 14 y.toNat) 10 z.toNat) 3 s.toNat)
  | .cpyg e x y z s => some (put (put (put (put (put 0x3E000002 31 e.toNat) 20 x.toNat) 14 y.toNat) 10 z.toNat) 3 s.toNat)
  | .cpys e x y z s => some (put (put (put (put (put 0x3E000003 31 e.toNat) 20 x.toNat) 14 y.toNat) 10 z.toNat) 3 s.toNat)
  | .cpyr e x y z o f => some (put (put (put (put (put (put 0x3E000004 31 e.toNat) 20 x.toNat) 14 y.toNat) 10 z.toNat) 5 o.toNat) 3 f.toNat)
  | .mshp e h y => some (put (put (put 0x40000000 31 e.toNat) 19 h.toNat) 15 y.toNat)
  | .mbld e b s c => some (put (put (put (put 0x40000001 31 e.toNat) 19 b.toNat) 13 s.toNat) 7 c.toNat)
  | .mzro e m => some (put (put 0x40000002 31 e.toNat) 19 m.toNat)
  | .mlp e k a b z s => some (put (put (put (put (put (put 0x40000003 31 e.toNat) 23 k.toNat) 19 a.toNat) 13 b.toNat) 8 z.toNat) 3 s.toNat)
  | .mdrn e k c m => some (put (put (put (put 0x40000004 31 e.toNat) 23 k.toNat) 19 c.toNat) 3 m.toNat)
  | .mdrnAmax e k c z m => some (put (put (put (put (put 0x40002004 31 e.toNat) 23 k.toNat) 19 c.toNat) 8 z.toNat) 3 m.toNat)
  | .mwt e => some (put 0x40000005 31 e.toNat)
  | .mwtSg e a => some (put (put 0x4000000D 31 e.toNat) 13 a.toNat)
  | .mcop e a => some (put (put 0x40000006 31 e.toNat) 13 a.toNat)
  | .vpj e s w h p => some (put (put (put (put (put 0x42000000 31 e.toNat) 19 s.toNat) 13 w.toNat) 7 h.toNat) 3 p.toNat)
  | .vpjb e f w h p => some (put (put (put (put (put 0x42000001 31 e.toNat) 19 f.toNat) 13 w.toNat) 7 h.toNat) 3 p.toNat)
  | .vmrg e d s => some (put (put (put 0x42000002 31 e.toNat) 19 d.toNat) 13 s.toNat)
  | .vfin e f s => some (put (put (put 0x42000003 31 e.toNat) 19 f.toNat) 13 s.toNat)
  | .vrsm e s => some (put (put 0x42000004 31 e.toNat) 19 s.toNat)
  | .glch e x y l => some (put (put (put (put 0x44000000 31 e.toNat) 20 x.toNat) 14 y.toNat) 3 l.toNat)
  | .gcan e y => some (put (put 0x44000001 31 e.toNat) 14 y.toNat)
  | .gwt e y => some (put (put 0x44000002 31 e.toNat) 14 y.toNat)
  | .gqy e x y s l => some (put (put (put (put (put 0x44000003 31 e.toNat) 20 x.toNat) 14 y.toNat) 7 s.toNat) 3 l.toNat)
  | .cfr e y => some (put (put 0x44000004 31 e.toNat) 13 y.toNat)
  | .cwt e y z => some (put (put (put 0x44000005 31 e.toNat) 13 y.toNat) 7 z.toNat)
  | .cqy e x y z l => some (put (put (put (put (put 0x44000006 31 e.toNat) 19 x.toNat) 13 y.toNat) 7 z.toNat) 3 l.toNat)
  | .csrr e d n => some (put (put (put 0x46000001 31 e.toNat) 19 d.toNat) 7 n.toNat)
  | .csrw e s n => some (put (put (put 0x46000002 31 e.toNat) 19 s.toNat) 7 n.toNat)
  | .tlbi e a b => some (put (put (put 0x46000003 31 e.toNat) 14 a.toNat) 7 b.toNat)
  | .ctxs e d a b => some (put (put (put (put 0x46000004 31 e.toNat) 19 d.toNat) 14 a.toNat) 8 b.toNat)
  | .ctxl e d a b => some (put (put (put (put 0x46000005 31 e.toNat) 19 d.toNat) 14 a.toNat) 8 b.toNat)
  | .eret e => some (put 0x46000006 31 e.toNat)
  | .halt e d a b => some (put (put (put (put 0x46000007 31 e.toNat) 19 d.toNat) 14 a.toNat) 7 b.toNat)
  | .hzn e d a b => some (put (put (put (put 0x46000008 31 e.toNat) 19 d.toNat) 16 a.toNat) 7 b.toNat)
  | .phld e d a b => some (put (put (put (put 0x46000009 31 e.toNat) 19 d.toNat) 13 a.toNat) 7 b.toNat)
  | .dbgr e d a => some (put (put (put 0x4600000A 31 e.toNat) 20 d.toNat) 14 a.toNat)
  | .hx i => some (put 0x7E000000 0 i.toNat)
  | .hp p n => some (put (put 0x7E400000 19 p.toNat) 18 n.toNat)
  | .hrep c d a b => some (put (put (put (put 0x7E800000 14 c.toNat) 12 d.toNat) 10 a.toNat) 8 b.toNat)
  | .hmod r m p => some (put (put (put 0x7EC00000 21 r.toNat) 18 m.toNat) 16 p.toNat)
  | .schedulerArbitration _ _ => none
  | .stallExchange _ _ => none
  | .formAgeExpiry _ _ _ => none
  | .groupFormation _ => none
  | .groupDissolution _ => none
  | .mergeWaitExpiry _ _ => none
  | .tslpExpiry _ _ => none
  | .wgrowGrant _ => none
  | .cacheFillArrival _ _ => none
  | .atomicHomePerform _ => none
  | .atomicResultArrival _ => none
  | .bindHomeOrder _ => none
  | .bindAnswer _ => none
  | .releaseCompletion _ => none
  | .releasePromotion _ => none
  | .copyGateOpen _ _ => none
  | .copyLineWrite _ _ => none
  | .copyCompletion _ _ => none
  | .mbldEntry _ => none
  | .mzroEntry _ => none
  | .mlpKstep _ => none
  | .mdrnChunk _ => none
  | .mwtSgEntry _ => none
  | .vocabBlockFold _ => none
  | .frameClearingDone _ _ => none
  | .launchRequest _ => none
  | .requestResultArrival _ => none
  | .neighbourhoodPlacement _ _ => none
  | .deal _ _ _ _ => none
  | .start _ _ _ => none
  | .go _ _ _ => none
  | .cancel _ _ _ => none
  | .demand _ _ _ => none
  | .count _ _ _ => none
  | .faultrec _ _ _ => none
  | .xload _ _ _ => none
  | .error _ _ => none
  | .chunkTranslation _ _ _ _ => none
  | .chunkAcceptance _ _ _ _ => none
  | .engineArbitration _ _ => none
  | .chunkStepCompletion _ _ => none
  | .coreHalted _ => none
  | .prefillDone _ => none
  | .horizonSwap _ => none
  | .outSlotDrainDone _ => none
  | .drainWriteFault _ => none
  | .backgroundSave _ => none
  | .backgroundRestore _ => none
  | .expressArrival _ _ _ => none
  | .waitsigWake _ _ => none
  | .queueService _ => none
  | .migrationDone _ => none
  | .translationWalk _ => none
  | .apertureReadDone _ => none
  | .spillFillCompletion _ _ => none
  | .retire _ _ => none
  | .remap _ _ => none
  | .quiesce _ => none
  | .ping _ => none
  | .linkResponse _ _ _ => none
  | .pingTimer _ => none
  | .timeBudgetExpiry _ => none
  | .switchSlotRequest _ _ => none
  | .registerWrite _ _ _ => none
  | .ptpSync _ _ => none
  | .peerDelayExchange _ _ _ => none
  | .syncLoss _ => none
  | .holdoverTimeout _ => none
  | .heartbeatTimer _ => none
  | .heartbeat _ _ => none
  | .heartbeatLoss _ => none
  | .zenithClaim _ _ => none
  | .horizonTableWrite _ _ _ _ => none
  | .horizonPrefill _ _ => none
  | .horizonFire _ _ => none
  | .lateArrival _ _ _ => none
  | .preemptBudgetExpiry _ => none
  | .partset _ _ => none
  | .jobset _ _ => none
  | .commset _ _ => none
  | .express _ _ => none
  | .launch _ _ => none
  | .waitsig _ _ => none
  | .signal _ _ => none
  | .notify _ _ => none
  | .vfmapWrite _ _ _ => none
  | .xrespResolve _ _ _ => none
  | .xrespDecline _ _ _ => none
  | .hrespResolve _ _ => none
  | .hrespDecline _ _ => none
  | .save _ _ => none
  | .restore _ _ => none
  | .functionLevelReset _ _ => none
  | .pfFunctionLevelReset _ => none
  | .budgetPeriodEnd _ => none
  | .memoryRequestService _ _ => none
  | .portFlitArbitration _ _ => none
  | .patrolScrub _ _ => none
  | .correctableError _ _ => none
  | .uncorrectableError _ _ => none
  | .fatalPacket _ _ => none
  | .powerGood _ => none
  | .railDrop _ _ => none
  | .coldReset _ => none
  | .warmReset _ => none
  | .perst _ => none
  | .getVersion _ => none
  | .getCapabilities _ => none
  | .negotiateAlgorithms _ _ _ => none
  | .getDigests _ => none
  | .getCertificate _ _ _ _ => none
  | .challenge _ _ _ => none
  | .getMeasurements _ _ => none
  | .unsupportedRequest _ _ => none
  | .apaddr _ _ => none
  | .warm _ => none
  | .cmdRetire _ => none
  | .taisec _ => none
  | .ppsInEdge _ => none
  | .ppsOutSecond _ => none
  | .ppsOutFall _ => none
  | .powerThrottle _ => none
  | .powerLimitTrip _ => none
  | .thermalTrip _ => none
  | .partitionBudgetExhausted _ _ => none
  | .hostDieAccess _ _ => none
  | .globalSchedulerCoreFailure _ => none
  | .syncIntervalExpiry _ => none
  | .dynamicAddressAssignment _ _ => none

end Sys2Proof
end

