-- ==== Sys2Proof/Machine/Copy.lean ====
section
/-! DEFINITION. Copies: their issue, MAJ 0x1F, and the copy engines (R89-R91, R231-R245). -/

namespace Sys2Proof.Machine

/-- The element size of a copy (R231). -/
def copyElem (sub f : Nat) : Nat :=
  if sub == 4 then (if f % 4 == 0 then 4 else 2)
  else match f % 4 with
    | 0 => 1
    | 1 => 4
    | 2 => 16
    | _ => 128

/-- The space of a target in which `drain` looks for it (R218). -/
def spaceOf (die a : Nat) : Option Spc := (parseTag die a).map Tgt.spc

namespace State

/-! ### The checks at issue (R233) -/

/-- What a copy's checks at issue find. -/
inductive CopyCheck where
  | fine
  | trap (c : Code) (detail addr : Nat)
  | fault (detail addr : Nat)
  deriving DecidableEq, Repr

/-- The ranges of bytes that a copy is known at issue to write or read: rows of targets with their length. -/
def rowsOf (t : Tgt) (rows stride len : Nat) : List (Tgt × Nat) := (List.range rows).map fun i => (t.add (i * stride), len)

/-- The store and first byte of a target, G and S by virtual address. -/
def rangeLoc (ln : Lane) (t : Tgt) : Option Loc :=
  match t with
  | .inL _ | .inD _ _ => placeLD ln t
  | _ => some (.g (gva ln t))

/-- Whether some range of one list shares a byte with one of another (R240). -/
def crosses (ln : Lane) (a b : List (Tgt × Nat)) : Bool :=
  a.any fun x => b.any fun y => match rangeLoc ln x.1, rangeLoc ln y.1 with
    | some l, some m => overlap l x.2 m y.2
    | _, _ => false

/-- Whether a span of a target lies inside its bound; G has none here. -/
def spanOk (s : State) (ln : Lane) (t : Tgt) (n : Nat) : Bool := n == 0 || s.inBound ln t n

/-- Whether every row of a range lies inside its bound (R233); the rows may stand in the allocations of different members of a
neighbourhood (R56). -/
def rowsOk (s : State) (ln : Lane) (t : Tgt) (rows stride len : Nat) : Bool :=
  len == 0 || t.spc == .g || (List.range rows).all fun i => t.off + i * stride + len ≤ 2 ^ 32 && s.inBound ln (t.add (i * stride)) len

/-- The rows that a copy's operands name at its issue, an indexed record by its index as it stands then: destination and source. -/
def issueRows (s : State) (ln : Lane) (sub f x y : Nat) (v : List Nat) : List (Tgt × Nat) × List (Tgt × Nat) :=
  let e : CopyEntry := { id := 0, wslot := 0, tid := 0, sub := sub, f := f, x := x, y := y, desc := v, st := .active }
  let rows := fun (g : State → Lane → CopyEntry → Nat → Option Tgt) => (List.range (copyRows e)).filterMap fun i => (g s ln e i).map fun t => (t, copyRow e)
  (rows copyDstRow, rows copySrcRow)

/-- The checks of R233 from step 2 on, for the registers of the descriptor. -/
def checkCopy (s : State) (ln : Lane) (sub f x y : Nat) (v : List Nat) : CopyCheck :=
  let w := fun i => (v[i]?).getD 0
  let es := copyElem sub f
  let it := w 2 + 2 ^ 32 * w 3
  let indexed := sub == 2 || sub == 3
  let die := ln.r.core.die
  match parseTag die x, parseTag die y, (if indexed then parseTag die it else some (.inG 0)) with
  | none, _, _ => .trap .kind 0 x
  | _, none, _ => .trap .kind 0 y
  | _, _, none => .trap .kind 0 it
  | some dt, some st, some ix =>
    if dt.spc == .s && (st.spc == .s || sub == 4) then .trap .kind 0 x
    else if dt.off % es != 0 then .trap .misaligned 0 x
    else if st.off % es != 0 then .trap .misaligned 0 y
    else if w 0 % es != 0 || (sub == 1 && (w 2 % es != 0 || w 3 % es != 0)) then .trap .misaligned 0 x
    else if indexed && ix.off % 4 != 0 then .trap .misaligned 0 it
    else
      let rows := if sub == 0 || sub == 4 then 1 else w 1
      let total := rows * w 0
      let ds := if sub == 1 then w 2 else w 0
      let ss := if sub == 1 then w 3 else w 0
      let dspan := if total == 0 || sub == 3 then 0 else (rows - 1) * ds + w 0
      let sspan := if total == 0 || sub == 2 then 0 else (rows - 1) * ss + w 0
      let ispan := if indexed then 4 * rows else 0
      if sub != 3 && !s.rowsOk ln dt rows ds (w 0) then .trap .bound 0 x
      else if sub != 2 && !s.rowsOk ln st rows ss (w 0) then .trap .bound 0 y
      else if !s.rowsOk ln ix 1 0 ispan then .trap .bound 0 it
      else
        let bad := fun h => h != 0 && (s.phaserOf ln h).isNone
        let far := fun (t : Tgt) n => t.spc == .g && 2 ^ 56 < t.off + n
        let (drows, srows) := s.issueRows ln sub f x y v
        if bad (w 4) || bad (w 5) then .trap .phaser 2 0
        else if total != 0 && ((sub == 1 && 1 < rows && ds < w 0) || crosses ln drows srows || (indexed && crosses ln drows [(ix, ispan)])) then .fault 1 x
        else if far dt dspan then .fault 2 x
        else if far st sspan then .fault 2 y
        else if far ix ispan then .fault 2 it
        else .fine

/-- The marks in `sub` of a drain and of a projection as agents (R406). -/
def drainSub : Nat := 9
def vocSub : Nat := 8

/-- The mark in `f` of an entry that stands for a matrix drain or its merge (R267). -/
def drainF : Nat := 16

/-- The copies that a context's copy-issue queue holds (R234). -/
def queued (k : Ctx) : Nat := (k.copies.filter fun c => c.st != .ended && c.f != drainF).length

/-- One lane's copy issued (R232-R234, R241): checked, and entered in the core's queue, which may be full; a gate whose phase has completed
may open. DESIGN CHOICE (log 81): a gather or scatter of records of SIZE 0 is complete at once, as the zero fields that R234 lists. -/
def copyIssue (sub f z : Nat) : LaneFn := fun s i =>
  let t := i.ln.t
  let x := t.pair i.d
  let y := t.pair i.a
  let v := (List.range 8).map fun j => t.reg (z + j)
  let w := fun j => (v[j]?).getD 0
  match s.checkCopy i.ln sub f x y v with
  | .trap c d a => (s, .stop (.trap c d a))
  | .fault d a => (s, .copyFault d a 0)
  | .fine =>
    let rows := if sub == 0 || sub == 4 then 1 else w 1
    if rows * w 0 == 0 then (s, .ok t)
    else
      match s.ctxAt i.ln.r.core i.ln.r.gen with
      | none => (s, .ok t)
      | some k =>
        if 64 ≤ queued k then (s, .wait t .copyQueue)
        else
          let (id, s) := s.fresh
          let ph := fun h => if h == 0 then none else s.phaserOf i.ln h
          let past := (ph (w 5)).any fun p => p.past (w 6)
          let e : CopyEntry := { id := id, wslot := i.ln.r.wslot, tid := t.tid, sub := sub, f := f, x := x, y := y, desc := v,
                                 st := if w 5 == 0 then .active else .gated, pc := i.x.upc, cnt := (ph (w 4)).map Phaser.uid,
                                 gate := (ph (w 5)).map Phaser.uid, own := id, ready := past,
                                 acq := if past then ((ph (w 5)).map fun p => p.carriedIn (w 6)).getD [] else [] }
          let s := s.modCtxAt i.ln.r.core i.ln.r.gen fun k => { k with copies := k.copies ++ [e] }
          (s.post (if w 5 == 0 then .copyLineWrite i.ln.r.core id else .copyGateOpen i.ln.r.core id), .ok t)

/-! ### The engine -/

/-- An engine's translation of a page, made once and kept until the engine ends (R406); a drain's are not kept. A
projection is agent 0. -/
def xlateKept (s : State) (ln : Lane) (me : CopyEntry) (va : Nat) (a : Acc) : State × Except XFail Nat :=
  let agent := if me.sub == vocSub then 0 else me.id
  let key := va % 2 ^ 56 / 2 ^ 16 * 8 + a.kind
  let c := ln.r.core
  match (s.ctxAt c ln.r.gen).bind fun k => k.kept.find? fun x => x.1 == agent && x.2.1 == key with
  | some x => (s, .ok (x.2.2 + va % 2 ^ 16))
  | none =>
    let s := if s.tlbMiss c ln.g.level ln.g.cid va then s.chargeWalk c.pkg ln.g.level ln.g.cid va else s
    match s.xlate c ln.g.level ln.g.cid va a with
    | (s, .ok pa) =>
      (if me.sub == drainSub then s else s.modCtxAt c ln.r.gen fun k => { k with kept := k.kept ++ [(agent, key, pa - pa % 2 ^ 16)] }, .ok pa)
    | r => r

/-- The translations that an engine kept, dropped at its end (R406). -/
def dropKept (s : State) (c : CoreRef) (agent : Nat) : State := s.modCtx c fun k => { k with kept := k.kept.filter fun x => x.1 != agent }

/-- A phaser by its number. -/
def phaserUid (s : State) (u : Option Nat) : Option Phaser := u.bind fun n => s.phasers.find? fun p => p.uid == n

/-- Bytes of a copy counted down on its phaser, with the marks of its end (R242). -/
def countCopy (s : State) (c : CoreRef) (gen : Nat) (e : CopyEntry) (bytes marks : Nat) : State :=
  match s.phaserUid e.cnt with
  | none => s
  | some p =>
    let carries := ((s.copyLane c gen e).map fun ln => releaseCarries ln p.uid).getD []
    s.arrive p.key bytes marks carries

/-- An end of a copy (R90, R242-R244): what it did not write is counted down with its marks, and everyone who waits for
it looks again. -/
def endCopy (s : State) (c : CoreRef) (id : Nat) : State :=
  match s.copyOf c id with
  | none => s
  | some (k, e) =>
    if e.st == .ended then s
    else
      let marks := (if e.detail != 0 then 1 else 0) + (if e.lostBytes != 0 then 2 else 0)
      let s := s.countCopy c k.gen e (copyTotal e - min (copyTotal e) e.written + e.lostBytes) marks
      let s := (s.modCopy c id fun e => { e with st := .ended, lost := e.lostBytes != 0, snaps := [], lines := [] }).dropKept c id
      let s := if e.lostBytes != 0 then
          (s.countDie c.pkg c.die 0x1010).noteWg c k.gen e.wslot (Workgroup.mark 1)
        else s
      s.postOnce (.copyCompletion c id)

/-- A copy stopped by a deferred fault (R243). -/
def faultCopy (s : State) (c : CoreRef) (id detail addr : Nat) : State :=
  (s.modCopy c id fun e => { e with detail := detail, faddr := addr }).endCopy c id

/-- Why the engine's access to bytes of a copy cannot be made now: a fault with its detail and address, a wait, or data
that is uncorrectable. -/
inductive EngStop where
  | fault (detail addr : Nat)
  | wait
  | lost
  deriving DecidableEq, Repr

/-- The tagged address of a target with the selector of another address in the same space. -/
def retag (addr : Nat) (t : Tgt) : Nat := match t with
  | .inG v => v
  | t => addr - addr % 2 ^ 32 + t.off

/-- Whether a line is owned by a copy that comes before this one: one that took its lines earlier, or an earlier copy of the same thread,
gated or not (R89, R91, R240). -/
def ownedBefore (s : State) (c : CoreRef) (gen : Nat) (me : CopyEntry) (l : Loc) : Bool :=
  s.cores.any fun x => match x.ctx with
    | none => false
    | some k => k.copies.any fun e =>
      (e.own < me.own && s.holdsLine x.at_ k e l) ||
        (x.at_ == c && k.gen == gen && e.wslot == me.wslot && e.tid == me.tid && e.id < me.id && s.coversLine x.at_ k e l)

/-- The place of `n` bytes of an engine's access for a thread's copy (R233, R243): a record outside its space, a translation or permission
failure, or the wait for the hypervisor. -/
def engPlace (s : State) (ln : Lane) (me : CopyEntry) (t : Tgt) (addr n : Nat) (a : Acc) : State × Except EngStop Loc :=
  let tg := retag addr t
  if !s.inBound ln t n || (t.spc == .g && 2 ^ 56 < t.off + n) then (s, .error (.fault 6 tg))
  else
    match placeLD ln t with
    | some l => (s, .ok l)
    | none =>
      let va := gva ln t
      let mine := fun (x : XWait) => x.stage == 2 && x.engine && x.t == ln.r && x.va == va
      if s.xwaits.any fun x => mine x && x.declined then ({ s with xwaits := s.xwaits.filter fun x => !mine x }, .error (.fault 9 tg))
      else if s.xwaits.any mine then (s, .error .wait)
      else
        match s.xlateKept ln me va a with
        | (s, .ok pa) => (s, .ok (.g pa))
        | (s, .error .guest) => (s, .error (.fault 8 tg))
        | (s, .error (.perm _)) => (s, .error (.fault 9 tg))
        | (s, .error (.stage2 ipa k)) => (s.noteStage2 ln.r true va ipa k, .error .wait)

/-- Whether an engine's access to `n` bytes of a place must wait (R75, R89, R91, R397). -/
def engWaits (s : State) (ln : Lane) (me : CopyEntry) (l : Loc) (n : Nat) (a : Acc) : Bool :=
  (me.f != drainF && !s.locRoom ln.g.part l) || (a != .write && s.away l) || s.ownedBefore ln.r.core ln.r.gen me l || s.ownAtomic ln.r l n me.id

/-- The place of `n` bytes that an engine reads or writes now. -/
def engLoc (s : State) (ln : Lane) (me : CopyEntry) (t : Tgt) (addr n : Nat) (a : Acc) : State × Except EngStop Loc :=
  match s.engPlace ln me t addr n a with
  | (s, .error e) => (s, .error e)
  | (s, .ok l) =>
    if s.engWaits ln me l n a then (s, .error .wait)
    else if a != .write && s.marked l then (s, .error .lost)
    else (s, .ok l)

/-- `n` bytes that an engine reads line by line, now. The fuel bounds the lines they lie in. -/
def engRead (s : State) (ln : Lane) (me : CopyEntry) (t : Tgt) (addr : Nat) : Nat → Nat → State × Except EngStop Nat
  | 0, _ => (s, .ok 0)
  | fuel + 1, n =>
    if n == 0 then (s, .ok 0)
    else
      let m := min n (128 - t.off % 128)
      match s.engLoc ln me t addr m .read with
      | (s, .error e) => (s, .error e)
      | (s, .ok l) =>
        let v := s.readLoc l m
        let s := s.chargeLoc ln.r.core.pkg ln.g.part l
        match s.engRead ln me (t.add m) addr fuel (n - m) with
        | (s, .error e) => (s, .error e)
        | (s, .ok r) => (s, .ok (v + 2 ^ (8 * m) * r))

/-- The first byte of the line of a place. -/
def lineStart : Loc → Loc
  | .g pa => .g (pa - pa % 128)
  | .d p di c o => .d p di c (o - o % 128)
  | .l c g o => .l c g (o - o % 128)

/-- `n` bytes of one line of a copy's source or index list, from the copy's one snapshot of the line, which is taken now if it has none
(R89): none for data that is uncorrectable (R244). -/
def engSnap (s : State) (ln : Lane) (me : CopyEntry) (t : Tgt) (addr n : Nat) : State × CopyEntry × Except EngStop (Option Nat) :=
  match s.engPlace ln me t addr n .read with
  | (s, .error e) => (s, me, .error e)
  | (s, .ok l) =>
    let cut := fun (v : Nat) => v / 2 ^ (8 * (l.off % 128)) % 2 ^ (8 * n)
    match snapAt me l with
    | some v => (s, me, .ok (v.map cut))
    | none =>
      if s.engWaits ln me l n .read then (s, me, .error .wait)
      else
        let v := if s.marked l then none else some (s.readLoc (lineStart l) 128)
        (s.chargeLoc ln.r.core.pkg ln.g.part l, { me with snaps := me.snaps ++ [(l.line, v)] }, .ok (v.map cut))

/-- `n` bytes of a copy's source from its snapshots. The fuel bounds the lines they lie in. -/
def engSource (s : State) (ln : Lane) (me : CopyEntry) (t : Tgt) (addr : Nat) : Nat → Nat → State × CopyEntry × Except EngStop (Option Nat)
  | 0, _ => (s, me, .ok (some 0))
  | fuel + 1, n =>
    if n == 0 then (s, me, .ok (some 0))
    else
      let m := min n (128 - t.off % 128)
      match s.engSnap ln me t addr m with
      | (s, me, .error e) => (s, me, .error e)
      | (s, me, .ok v) =>
        match s.engSource ln me (t.add m) addr fuel (n - m) with
        | (s, me, .error e) => (s, me, .error e)
        | (s, me, .ok r) => (s, me, .ok (v.bind fun v => r.map fun r => v + 2 ^ (8 * m) * r))

/-- One element of a reduction (R239). -/
def reduceElem (op fmt d x : Nat) : Nat :=
  let f := if fmt == 0 then fp32 else if fmt == 1 then bf16 else fp16
  match op with
  | 0 => (f.round .rne (cumulus [f.decode d, f.decode x]).value).1
  | 1 => if (f.decode d).isNan || (f.decode x).isNan then f.nan else fmaxC f d x
  | _ => if (f.decode d).isNan || (f.decode x).isNan then f.nan else max (d % 2 ^ (f.mb + f.eb)) (x % 2 ^ (f.mb + f.eb))

/-- A reduction of `n` bytes element by element (R239). -/
def reduceBytes (op fmt d x n : Nat) : Nat :=
  let es := if fmt == 0 then 4 else 2
  (List.range (n / es)).foldl (fun acc j =>
    acc + reduceElem op fmt (d / 2 ^ (8 * es * j) % 2 ^ (8 * es)) (x / 2 ^ (8 * es * j) % 2 ^ (8 * es)) * 2 ^ (8 * es * j)) 0

/-- A record named by an index as its target: its address is formed in 64 bits for G and modulo 2^32 otherwise, and a
record whose offset wraps lies outside its space (R237, R238). -/
def recordWraps (ln : Lane) (base idx size : Nat) : Bool :=
  match parseTag ln.r.core.die base with
  | some (.inG v) => 2 ^ 56 < v + idx * size + size
  | some t => 2 ^ 32 < t.off + idx * size + size
  | none => true

/-- The fault of a record that its index puts outside its space: the detail and the address (R237, R238). -/
def recordFault (s : State) (ln : Lane) (me : CopyEntry) (ix : Nat) : Option EngStop :=
  let base := if me.sub == 2 then me.y else me.x
  let row := copyRow me
  match parseTag ln.r.core.die base with
  | none => some (.fault 6 base)
  | some t =>
    if recordWraps ln base ix row then some (.fault 6 ((base + ix * row) % 2 ^ 64))
    else if !s.inBound ln (t.add (ix * row)) row then some (.fault 6 (retag base (t.add (ix * row))))
    else none

/-- The index of record `i` from the copy's snapshot of its list (R237): none where it is uncorrectable. -/
def engIndex (s : State) (ln : Lane) (me : CopyEntry) (i : Nat) : State × CopyEntry × Except EngStop (Option Nat) :=
  match parseTag ln.r.core.die (copyIdx me) with
  | none => (s, me, .ok none)
  | some t => s.engSnap ln me (t.add (4 * i)) (copyIdx me) 4

/-- The records of a scatter that its index list names, from record `i` on: up to the first that stops the copy, with those whose index is
uncorrectable left out, and what the first stops for (R238, R243, R244). -/
def scatterRows (s : State) (ln : Lane) (me : CopyEntry) : Nat → Nat → State × CopyEntry × List Nat × Option EngStop
  | 0, _ => (s, me, [], none)
  | fuel + 1, i =>
    match s.engIndex ln me i with
    | (s, me, .error e) => (s, me, [], some e)
    | (s, me, .ok none) => s.scatterRows ln me fuel (i + 1)
    | (s, me, .ok (some ix)) =>
      match s.recordFault ln me ix with
      | some e => (s, me, [], some e)
      | none =>
        let (s, me, l, e) := s.scatterRows ln me fuel (i + 1)
        (s, me, i :: l, e)

/-- The pieces of a copy that lie in its next destination line, from a byte of it on: row or record, offset in it and length. -/
def nextPieces (s : State) (ln : Lane) (me : CopyEntry) (line : Nat) : Nat → Nat → List (Nat × Nat × Nat)
  | 0, _ => []
  | fuel + 1, pos =>
    if copyTotal me ≤ pos then []
    else
      let i := pos / copyRow me
      let o := pos % copyRow me
      match s.copyDstRow ln me i with
      | none => []
      | some t =>
        let d := t.add o
        let n := min (copyRow me - o) (128 - d.off % 128)
        if d.lineNo == line then (i, o, n) :: s.nextPieces ln me line fuel (pos + n) else []

/-- The pieces of a list of a scatter's records that lie in the first line of theirs that the copy has not dealt with, and that line. -/
def scatterPieces (s : State) (ln : Lane) (me : CopyEntry) (rows : List Nat) : Option (Nat × List (Nat × Nat × Nat)) :=
  let all := rows.flatMap fun i => match s.copyDstRow ln me i with
    | none => []
    | some t => (rowPieces t (copyRow me)).map fun p => ((t.add p.1).lineNo, i, p.1, p.2)
  (all.find? fun x => !me.lines.contains x.1).map fun x => (x.1, (all.filter fun y => y.1 == x.1).map fun y => y.2)

/-- What an engine has gathered for a destination line: the state, its entry, the pieces with their values, the bytes dealt with, whether some
data was uncorrectable, and what it stopped for. -/
structure Gather where
  s : State
  me : CopyEntry
  parts : List (Nat × Nat × Nat × Nat) := []
  bytes : Nat := 0
  lost : Bool := false
  stop : Option EngStop := none
  deriving DecidableEq, Repr

/-- One piece of a destination line gathered (R235-R239). -/
def gatherPiece (ln : Lane) (acc : Gather) (p : Nat × Nat × Nat) : Gather :=
  let me := acc.me
  let read := fun (s : State) (me : CopyEntry) =>
    match s.copySrcRow ln me p.1 with
    | none => { acc with s := s, me := me, stop := some .wait }
    | some t =>
      match s.engSource ln me (t.add p.2.1) me.y 3 p.2.2 with
      | (s, me, .error e) => { acc with s := s, me := me, stop := some e }
      | (s, me, .ok none) => { acc with s := s, me := me, bytes := acc.bytes + p.2.2, lost := true }
      | (s, me, .ok (some v)) => { acc with s := s, me := me, bytes := acc.bytes + p.2.2, parts := acc.parts ++ [(p.1, p.2.1, p.2.2, v)] }
  if acc.stop.isSome then acc
  else if me.sub == 2 then
    match acc.s.engIndex ln me p.1 with
    | (s, me, .error e) => { acc with s := s, me := me, stop := some e }
    | (s, me, .ok none) => { acc with s := s, me := me, bytes := acc.bytes + p.2.2, lost := true }
    | (s, me, .ok (some ix)) =>
      match s.recordFault ln me ix with
      | some e => { acc with s := s, me := me, stop := some e }
      | none => read s me
  else read acc.s me

/-- The snapshots that a copy keeps: of a plain copy the latest, of others all. -/
def keptSnaps (me : CopyEntry) : List (Nat × Option Nat) := if me.sub == 0 || me.sub == 4 then me.snaps.drop (me.snaps.length - 1) else me.snaps

/-- An engine's entry put back as a step has left it. -/
def putCopy (s : State) (c : CoreRef) (me : CopyEntry) (f : CopyEntry → CopyEntry) : State :=
  s.modCopy c me.id fun e => f { e with snaps := keptSnaps me }

/-- A destination line written with its pieces in one step (R91, R239), or left as it is where data was uncorrectable (R244). The number is
of the bytes to count down. -/
def writePieces (ln : Lane) (c : CoreRef) (line : Nat) (dl : Loc) (g : Gather) : State × Nat :=
  let me := g.me
  if g.lost || (me.sub == 4 && g.s.marked dl) then
    (g.s.putCopy c me fun e => { e with written := e.written + g.bytes, lostBytes := e.lostBytes + g.bytes, stuck := false, lines := if me.sub == 3 then e.lines ++ [line] else [] }, 0)
  else
    let s := g.parts.foldl (fun (s : State) x =>
      match s.copyDstRow ln me x.1 with
      | none => s
      | some t =>
        let at_ := (lineStart dl).add ((t.add x.2.1).off % 128)
        let v := if me.sub == 4 then reduceBytes (me.f / 4) (me.f % 4) (s.readLoc at_ x.2.2.1) x.2.2.2 x.2.2.1 else x.2.2.2
        s.writeLoc at_ x.2.2.1 v) (g.s.chargeLoc c.pkg ln.g.part dl)
    (s.putCopy c me fun e => { e with written := e.written + g.bytes, stuck := false, lines := if me.sub == 3 then e.lines ++ [line] else [] }, g.bytes)

/-- A destination line of a copy gathered from its pieces and written: how many bytes to count down, or what it stopped for. A gather that
stops at a record writes those before it (R237). -/
def writeLine (s : State) (c : CoreRef) (ln : Lane) (me : CopyEntry) (line : Nat) (ps : List (Nat × Nat × Nat)) : State × Except EngStop Nat :=
  match (ps.head?).bind fun p => (s.copyDstRow ln me p.1).map fun t => (t.add p.2.1, p.2.2) with
  | none => (s, .error .wait)
  | some (d, n) =>
    match s.engLoc ln me d me.x n .write with
    | (s, .error e) => (s.putCopy c me id, .error e)
    | (s, .ok dl) =>
      let g := ps.foldl (gatherPiece ln) { s := s, me := me }
      match g.stop with
      | none => let r := writePieces ln c line dl g; (r.1, .ok r.2)
      | some .wait => (g.s.putCopy c g.me id, .error .wait)
      | some e =>
        if me.sub == 2 && g.bytes != 0 then let r := writePieces ln c line dl g; (r.1, .ok r.2)
        else (g.s.putCopy c g.me id, .error e)

/-- The next destination line of a copy written (R235-R239). -/
def copyPiece (s : State) (c : CoreRef) (k : Ctx) (e : CopyEntry) : State × Except EngStop Nat :=
  match s.copyLane c k.gen e with
  | none => (s, .error .wait)
  | some ln =>
    if e.sub == 3 then
      match s.scatterRows ln e (copyRows e) 0 with
      | (s, me, _, some .wait) => (s.putCopy c me id, .error .wait)
      | (s, me, rows, stop) =>
        match s.scatterPieces ln me rows with
        | some (line, ps) => s.writeLine c ln me line ps
        | none =>
          match stop with
          | some e => (s.putCopy c me id, .error e)
          | none =>
            -- what is left are the records whose index was uncorrectable
            (s.putCopy c me fun e => { e with written := copyTotal e, lostBytes := e.lostBytes + (copyTotal e - min (copyTotal e) e.written) }, .ok 0)
    else
      match s.copyDstRow ln e (e.written / copyRow e) with
      | none => (s, .error .wait)
      | some t =>
        let line := (t.add (e.written % copyRow e)).lineNo
        s.writeLine c ln e line (s.nextPieces ln e line 129 e.written)

/-- Whether a copy stands at the end of a 512-byte chunk of its destination (R91, R245): the line it would write next lies in another chunk
than the last. -/
def chunkOver (s : State) (ln : Lane) (e : CopyEntry) : Bool :=
  let last := if e.sub == 3 then e.lines.getLast?
    else if e.written == 0 then none
    else (s.copyDstRow ln e ((e.written - 1) / copyRow e)).map fun t => (t.add ((e.written - 1) % copyRow e)).lineNo
  let next := (s.copyDst ln e).head?.map fun x => x.1.lineNo
  match last, next with
  | some a, some b => (a / 16, a % 4) != (b / 16, b % 4)
  | _, _ => true

/-- Whether a copy lets its context halt (R91, R245): it is not in progress, or stands at the end of a chunk, or its next line must wait. -/
def mayHalt (s : State) (c : CoreRef) (k : Ctx) (e : CopyEntry) : Bool :=
  e.st != .active || e.f == drainF || e.stuck || match s.copyLane c k.gen e with
    | some ln => s.chunkOver ln e
    | none => true

/-- The copies that a thread's `drain` of a space looks at. -/
def drained (k : Ctx) (r : ThreadRef) (sp : Spc) : List CopyEntry :=
  k.copies.filter fun e => e.wslot == r.wslot && e.tid == r.tid && spaceOf r.core.die e.x == some sp

/-- The first of a thread's ended copies with a fault that has not been reported and satisfies a condition (R243). -/
def unreported (k : Ctx) (r : ThreadRef) (p : CopyEntry → Bool) : Option CopyEntry :=
  k.copies.find? fun e => e.wslot == r.wslot && e.tid == r.tid && e.st == .ended && e.detail != 0 && !e.reported && p e

/-- One lane of a `drain` (R218). -/
def drainLane (sp : Spc) : LaneFn := fun s i =>
  match s.ctxAt i.ln.r.core i.ln.r.gen with
  | none => (s, .ok i.ln.t)
  | some k =>
    if (drained k i.ln.r sp).any fun e => e.st != .ended then (s, .wait i.ln.t .drain)
    else
      match unreported k i.ln.r fun e => e.cnt.isNone && spaceOf i.ln.r.core.die e.x == some sp with
      | some e => (s.modCopy i.ln.r.core e.id fun e => { e with reported := true }, .copyFault e.detail e.faddr e.pc)
      | none => (s, .ok i.ln.t)

end State

open State

/-- A copy instruction (R231). -/
def execCopy (sub f : Nat) (e : Bool) (x y : BitVec 5) (z : BitVec 3) : Meaning :=
  State.execLanes e { d := 2 * x.toNat, dn := 2, a := 2 * y.toNat, an := 2, b := 8 * z.toNat, bn := 8 } (State.copyIssue sub f (8 * z.toNat))

/-- `cpy` (R235). -/
def execCpy (e : Bool) (x y : BitVec 5) (z : BitVec 3) (s : BitVec 2) : Meaning := execCopy 0 s.toNat e x y z

/-- `cpy2` (R236). -/
def execCpy2 (e : Bool) (x y : BitVec 5) (z : BitVec 3) (s : BitVec 2) : Meaning := execCopy 1 s.toNat e x y z

/-- `cpyg` (R237). -/
def execCpyg (e : Bool) (x y : BitVec 5) (z : BitVec 3) (s : BitVec 2) : Meaning := execCopy 2 s.toNat e x y z

/-- `cpys` (R238). -/
def execCpys (e : Bool) (x y : BitVec 5) (z : BitVec 3) (s : BitVec 2) : Meaning := execCopy 3 s.toNat e x y z

/-- `cpyr` (R239). -/
def execCpyr (e : Bool) (x y : BitVec 5) (z : BitVec 3) (o f : BitVec 2) : Meaning := execCopy 4 (4 * o.toNat + f.toNat) e x y z

/-- `drain l` (R218). -/
def execDrainL (e : Bool) : Meaning := State.execLanes e {} (State.drainLane .l)

/-- `drain d`. -/
def execDrainD (e : Bool) : Meaning := State.execLanes e {} (State.drainLane .d)

/-- `drain s`. -/
def execDrainS (e : Bool) : Meaning := State.execLanes e {} (State.drainLane .s)

/-- `drain g`. -/
def execDrainG (e : Bool) : Meaning := State.execLanes e {} (State.drainLane .g)

/-! ### The engines' steps -/

/-- A gated copy looks at its gate (R241): the phase completed, it acquires for its thread and proceeds; the phaser
freed, it ends with COPY_FAULT 0x40. -/
def execCopyGateOpen (c : CoreRef) (id : Nat) : Meaning := fun s =>
  match s.copyOf c id with
  | none => .next s
  | some (k, e) =>
    if e.st != .gated || e.f == drainF || k.st == .halted || k.bgAway then .next s
    else if e.ready then
      let s := s.modThreadAt { core := c, gen := k.gen, wslot := e.wslot, tid := e.tid } fun t => t.acquired (e.gate.getD 0) e.acq
      let (own, s) := s.fresh
      .next ((s.modCopy c id fun e => { e with st := .active, own := own }).post (.copyLineWrite c id))
    else if (s.phaserUid e.gate).isNone then .next (s.faultCopy c id 0x40 0)
    else .next s

/-- The engine writes the next destination line of a copy and counts it down (R235-R244). -/
def execCopyLineWrite (c : CoreRef) (id : Nat) : Meaning := fun s =>
  match s.copyOf c id with
  | none => .next s
  | some (k, e) =>
    if e.st != .active || k.st == .halted || k.bgAway then .next s
    else if copyTotal e ≤ e.written then .next (s.endCopy c id)
    else if k.st == .halting && s.mayHalt c k e then .next s
    else
      match s.copyPiece c k e with
      | (s, .error (.fault d a)) => .next (s.faultCopy c id d a)
      | (s, .error _) => .next ((s.modCopy c id fun e => { e with stuck := true }).post (.copyLineWrite c id))
      | (s, .ok n) =>
        let s := if n == 0 then s else s.countCopy c k.gen e n 0
        let s := if copyTotal e ≤ (((s.copyOf c id).map fun x => x.2.written).getD 0) then s.endCopy c id else s.post (.copyLineWrite c id)
        .next s.wakeRecalls

/-- Whether the thread of a copy is no longer there to take its report: it has exited, or its workgroup has ended (R243). -/
def copyGone (k : Ctx) (e : CopyEntry) : Bool :=
  match (k.wg e.wslot).bind fun w => (w.thread e.tid).map fun t => (w, t) with
  | some (w, t) => w.ended || t.status == .exited
  | none => true

/-- A copy has ended (R90, R234, R243): its queue place, and the releases, drains and gates that waited for it, are free;
a fault that a thread no longer here to take it is reported late. -/
def execCopyCompletion (c : CoreRef) (id : Nat) : Meaning := fun s =>
  match s.copyOf c id with
  | none => .next s
  | some (k, e) =>
    if e.st != .ended then .next s
    else
      let s := if e.detail != 0 && !e.reported && copyGone k e then s.lateReport c k e else s
      let s := if e.detail == 0 || copyGone k e then s.modCtx c fun k => { k with copies := k.copies.filter fun x => x.id != id } else s
      let s := (s.wakeAll c fun w => w == .copyQueue || w == .drain || w == .phaser).wakeRecalls
      .next (s.reapWg c k.gen e.wslot)

end Sys2Proof.Machine
end

