-- ==== Sys2Proof/Machine/Sync.lean ====
section
/-! DEFINITION. Bindings, fences and phasers: MAJ 0x1D and 0x1E (R77-R86, R96, R213-R230). -/

namespace Sys2Proof.Machine

open State

/-! ### Bindings (R213-R216) -/

/-- The registers of a `bind` or `bindx` as an entry's fields (R213): BASE, SIZE, COUNT, OBJ, STRIDE and the KIND word. -/
structure BindRegs where
  base : Nat
  size : Nat
  count : Nat
  obj : Nat
  stride : Nat
  kind : Nat
  deriving DecidableEq, Repr

/-- An entry's target for its region: L, D or G (R66). -/
def regionTgt (die a : Nat) : Option Tgt :=
  match parseTag die a with
  | some (.inS _) => none
  | t => t

/-- An entry's target for its sync word: D or G (R66). -/
def wordTgt (die a : Nat) : Option Tgt :=
  match parseTag die a with
  | some (.inS _) | some (.inL _) => none
  | t => t

/-- Whether an entry is malformed (R79, R214). -/
def bindMalformed (s : State) (ln : Lane) (b : BindRegs) : Bool :=
  let kind := b.kind % 4
  let top := fun (t : Option Tgt) => match t with
    | some (.inG v) => decide (2 ^ 56 < v + b.count * b.size)
    | some t => decide (2 ^ 32 < t.off + b.count * b.size)
    | none => true
  let ws := if kind == 1 then 4 else 8
  b.kind / 4 != 0 || b.count / 2 ^ 24 != 0 || kind == 3 || top (regionTgt ln.r.core.die b.base) ||
    (kind == 0 && (s.phaserOf ln b.obj).isNone) ||
    (kind != 0 && (b.obj % ws != 0 || (1 < b.count && (b.stride == 0 || b.stride % ws != 0))))

/-- A request of a thread sent to a home, and the step there. -/
def ask (s : State) (r : ThreadRef) (kind : ReqKind) (ev : Nat → Instr) : State × Nat :=
  let (id, s) := s.fresh
  (({ s with reqs := s.reqs ++ [{ id := id, t := r, kind := kind }] } : State).post (ev id), id)

/-- One lane that waits for a home's answer: it asks when it is fresh, waits while its request is outstanding, and ends
with the answer. -/
def askLane (why : Stall) (ev : Nat → Instr) (first : State → LaneIn → State × Except Stop (Option ReqKind))
    (last : State → LaneIn → Nat → State × LaneRes) : LaneFn := fun s i =>
  match i.ln.t.pend with
  | .answer v => last s i v
  | .request _ => (s, .wait i.ln.t why)
  | _ =>
    match first s i with
    | (s, .error w) => (s, .stop w)
    | (s, .ok none) => (s, .ok i.ln.t)
    | (s, .ok (some kind)) =>
      let (s, id) := ask s i.ln.r kind ev
      (s, .wait { i.ln.t with pend := .request id } why)

/-- The end of a binding instruction: 0 is success, otherwise BIND_CONFLICT with the detail (R216). -/
def bindEnd (s : State) (i : LaneIn) (v : Nat) : State × LaneRes :=
  if v == 0 then (s, .ok i.ln.t) else (s, .stop (.trap .bind v 0))

/-- The checks of a `bind` or `bindx` and its request (R66, R214). A malformed entry goes to the home as KIND 3. -/
def bindFirst (s : State) (i : LaneIn) (b : BindRegs) : State × Except Stop (Option ReqKind) :=
  let die := i.ln.r.core.die
  let kind := b.kind % 4
  let word := kind == 1 || kind == 2
  let ws := if kind == 1 then 4 else 8
  match regionTgt die b.base with
  | none => (s, .error (.trap .kind 0 b.base))
  | some t =>
    let w := wordTgt die b.obj
    if word && w.isNone then (s, .error (.trap .kind 0 b.obj))
    else if b.size == 0 || b.count == 0 then (s, .ok none)
    else if !s.spanOk i.ln t (b.size * b.count) then (s, .error (.trap .bound 0 b.base))
    else
      let wt := w.getD (.inG 0)
      if word && !s.spanOk i.ln wt ((b.count - 1) * b.stride + ws) then (s, .error (.trap .bound 0 b.obj))
      else
        let (id, s) := s.fresh
        let bad := bindMalformed s i.ln b
        (s, .ok (some (.bind { id := id, kind := if bad then 3 else kind, stride := if kind == 0 then 0 else b.stride, obj := b.obj, count := b.count,
                               size := b.size, base := b.base, launch := false, where_ := i.ln.r, at_ := bindLoc i.ln t,
                               word := if word then bindLoc i.ln wt else none,
                               ph := if kind == 0 then (s.phaserOf i.ln b.obj).map Phaser.key else none })))

/-- `bind` (R213). -/
def execBind (e : Bool) (a : BitVec 4) (b : BitVec 5) : Meaning :=
  execLanes e { a := 4 * a.toNat, an := 4, b := 2 * b.toNat, bn := 2 }
    (askLane .binding .bindHomeOrder
      (fun s i =>
        let t := i.ln.t
        bindFirst s i { base := t.pair i.a, size := t.reg (i.a + 2), count := 1, obj := t.pair i.b, stride := 0, kind := t.reg (i.a + 3) })
      bindEnd)

/-- `bindx` (R213). -/
def execBindx (e : Bool) (a b : BitVec 4) : Meaning :=
  execLanes e { a := 4 * a.toNat, an := 4, b := 4 * b.toNat, bn := 4 }
    (askLane .binding .bindHomeOrder
      (fun s i =>
        let t := i.ln.t
        bindFirst s i { base := t.pair i.a, size := t.reg (i.a + 2), count := t.reg (i.a + 3), obj := t.pair i.b, stride := t.reg (i.b + 2),
                        kind := t.reg (i.b + 3) })
      bindEnd)

/-- `unbind` (R215). -/
def execUnbind (e : Bool) (a : BitVec 5) : Meaning :=
  execLanes e { a := 2 * a.toNat, an := 2 }
    (askLane .binding .bindHomeOrder
      (fun s i =>
        let addr := i.ln.t.pair i.a
        match regionTgt i.ln.r.core.die addr with
        | none => (s, .error (.trap .kind 0 addr))
        | some t => (s, .ok ((bindLoc i.ln t).map fun l => .unbind addr l)))
      bindEnd)

/-- Whether an entry stands in the table as all its changes leave it (R81, R215). -/
def standing (s : State) (g : Grid) (e : BindEntry) : Bool :=
  if e.launch then
    let copies := match parseTag 4 e.base with
      | some (.inL _) => g.blocks
      | some (.inD 4 _) => 4 * g.lrec.npkg
      | some (.inD _ _) => g.lrec.npkg
      | _ => 1
    e.removed.length < copies
  else match e.at_ with
    | some b => (s.entryAt g none e b).isSome
    | none => false

/-- Whether a new entry's bytes meet those of an entry that stands (R81). -/
def conflicts (s : State) (g : Grid) (e : BindEntry) : Bool :=
  match e.at_ with
  | none => false
  | some l => g.binds.any fun o => match s.entryRange g none o l with
    | some (b, n) => overlap b n l (e.count * e.size)
    | none => false

/-- The request's answer at its home: 0, or the detail of R81; the change it makes. -/
def answerBind (s : State) (q : Request) : State :=
  let put := fun (s : State) (v : Nat) (seen : List Nat) =>
    ({ s with reqs := mapIf (fun (y : Request) => y.id == q.id) (fun (y : Request) => { y with answer := some v, seen := seen }) s.reqs } : State).post
      (.bindAnswer q.id)
  match (s.ctxAny q.t.core q.t.gen).bind fun k => (k.wg q.t.wslot).bind fun w => s.grid w.grid with
  | none => s
  | some g =>
    match q.kind with
    | .bind e =>
      if e.kind == 3 then put s 3 []
      else if conflicts s g e then put s 1 []
      else if 4096 ≤ (g.binds.filter fun o => standing s g o).length then put s 2 []
      else
        let (id, s) := s.fresh
        put (s.modGrid g.handle fun g =>
          { g with binds := g.binds ++ [e], changes := g.changes ++ [{ id := id, entry := e.id, add := true, by_ := q.t }] }) 0 [id]
    | .unbind _ l =>
      match g.binds.find? fun e => match s.entryAt g none e l with
        | some (b, _, _) => b == l
        | none => false with
      | none => put s 0 []
      | some e =>
        let (id, s) := s.fresh
        let copy := match s.launchCopy g e l with
          | some (_, _, _, n) => n
          | none => 0
        put (s.modGrid g.handle fun g =>
          { g with binds := if e.launch then mapIf (fun (y : BindEntry) => y.id == e.id) (fun (y : BindEntry) => { y with removed := y.removed ++ [(copy, id)] }) g.binds
                            else g.binds,
                   changes := g.changes ++ [{ id := id, entry := e.id, add := false, by_ := q.t }] }) 0 [id]
    | _ => s

/-- The home of the binding table orders one request; requests of one workgroup keep their lanes' order (R81, R214). -/
def execBindHomeOrder (id : Nat) : Meaning := fun s =>
  match s.reqs.find? fun q => q.id == id && q.answer.isNone with
  | none => .next s
  | some q =>
    let earlier := s.reqs.any fun y => y.id < id && y.answer.isNone && y.t.core == q.t.core && y.t.gen == q.t.gen && y.t.wslot == q.t.wslot &&
      match y.kind with
      | .bind _ | .unbind _ _ => true
      | _ => false
    if earlier then .next (s.post (.bindHomeOrder id)) else .next (answerBind s q)

/-- A home's answer delivered to its thread, with the binding changes it brings (R83, R216, R373). -/
def deliverAnswer (s : State) (q : Request) (v : Nat) : State :=
  let s := if (s.place q.t.core q.t.gen).isNone then
      (s.lateResult q.t q.id v).modSaved q.t.core q.t.gen fun k => k.modWg q.t.wslot fun w => w.modThread q.t.tid fun t =>
        { t with known := joinNat t.known q.seen }
    else (s.modThreadAt q.t fun t =>
      match t.pend with
      | .request id => if id == q.id then { t with pend := .answer v, known := joinNat t.known q.seen } else t
      | _ => { t.fillOwed q.id v with known := joinNat t.known q.seen }).wake q.t
  { s with reqs := s.reqs.filter fun y => y.id != q.id }

/-- The answer of a binding request arrives (R216). -/
def execBindAnswer (id : Nat) : Meaning := fun s =>
  match s.reqs.find? fun q => q.id == id && q.answer.isSome with
  | none => .next s
  | some q => .next (deliverAnswer s q (q.answer.getD 0))

/-! ### Fences (R96, R217) -/

/-- What an acquire fence does: the last atomic becomes an acquire. -/
def fenceAcquire (t : Thread) : Thread := { t with known := joinNat t.known t.lastSeen }

/-- One lane of an acquire fence, which waits for the merge of a drain where that is the thread's last atomic (R217, R267). -/
def fenceLane (f : Thread → Thread) : LaneFn := fun s i =>
  match s.ctxAt i.ln.r.core i.ln.r.gen with
  | none => (s, .ok (f i.ln.t))
  | some k => if k.copies.any fun e => e.id == i.ln.t.lastReq && e.st != .ended then (s, .wait i.ln.t .drain) else (s, .ok (f i.ln.t))

/-- `fence.acq`. -/
def execFenceAcq (e : Bool) : Meaning := execLanes e {} (fenceLane fenceAcquire)

/-- `fence.rel`: the next atomic becomes a release if it is relaxed. -/
def execFenceRel (e : Bool) : Meaning := execLanes e {} (laneOk fun i => { i.ln.t with fenceRel := true })

/-- `fence.ar`. -/
def execFenceAr (e : Bool) : Meaning := execLanes e {} (fenceLane fun t => { fenceAcquire t with fenceRel := true })

/-! ### Phasers (R219-R230) -/

/-- A lane's thread as the state now has it. -/
def nowT (s : State) (i : LaneIn) : Thread := (s.threadAt i.ln.r).getD i.ln.t

/-- PHASER_BUSY with a detail (R226). -/
def phBusy (s : State) (d : Nat) : State × LaneRes := (s, .stop (.trap .phaser d 0))

/-- A phaser instruction's phaser, after the checks of R226 that hold for every one of them (details 2 and 3). -/
def withPhaser (s : State) (i : LaneIn) (h : Nat) (onBarrier onWg : Bool) (f : Phaser → State × LaneRes) : State × LaneRes :=
  match s.phaserOf i.ln h with
  | none => phBusy s 2
  | some p => if (h == 0 && !onBarrier) || (h < 0x8000 && !onWg) then phBusy s 3 else f p

/-- `phal` (R224). -/
def execPhal (e : Bool) (d : BitVec 6) : Meaning :=
  execLanes e { d := d.toNat, dn := 1 } fun s i =>
    let c := i.ln.r.core
    match s.freeHandle i.ln.g.handle, s.freePhaserIdx c.pkg c.die with
    | some h, some _ => (s.addPhaser c.pkg c.die h i.ln.g.handle none [], .ok (i.ln.t.setReg i.d h))
    | _, _ => (s, .ok (i.ln.t.setReg i.d 0xFFFFFFFF))

/-- `phfr`: waiters return GONE, bindings to the phaser go (R84, R224). -/
def execPhfr (e : Bool) (a : BitVec 6) : Meaning :=
  execLanes e { a := a.toNat, an := 1 } fun s i =>
    withPhaser s i (i.ln.t.reg i.a) false false fun p =>
      let s := (s.unbindPhaser i.ln.g.handle p i.ln.r).freePhaser p.key
      (s, .ok (nowT s i))

/-- `phrg` (R222, R224). -/
def execPhrg (e : Bool) (a b : BitVec 6) : Meaning :=
  execLanes e { a := a.toNat, an := 1, b := b.toNat, bn := 1 } fun s i =>
    let mode := i.ln.t.reg i.b
    withPhaser s i (i.ln.t.reg i.a) false true fun p =>
      if mode == 0 || 4 ≤ mode then phBusy s 6
      else if (p.member i.ln.r).isNone && (if p.owner.isSome then 1024 else 65536) ≤ p.members.length then phBusy s 7
      else
        let s := s.register p.key i.ln.r i.ln.g.handle mode
        (s, .ok (nowT s i))

/-- `phdr` (R222). -/
def execPhdr (e : Bool) (a : BitVec 6) : Meaning :=
  execLanes e { a := a.toNat, an := 1 } fun s i =>
    withPhaser s i (i.ln.t.reg i.a) false true fun p =>
      let s := s.deregister p.key i.ln.r
      (s, .ok (nowT s i))

/-- Whether a thread may signal, or wait, in the phase it would act on (R226, detail 4). -/
def maySignal (p : Phaser) (r : ThreadRef) : Bool := match p.member r with
  | some m => PhMember.signals (m.modeIn p.phase m.sp)
  | none => false
def mayWait (p : Phaser) (r : ThreadRef) : Bool := match p.member r with
  | some m => PhMember.waits (m.modeIn p.phase m.wp)
  | none => false

/-- A signal that cannot be counted yet: its phase is not the current one, or it is held (R90, R224). -/
def signalWaits (s : State) (i : LaneIn) (p : Phaser) : Option (State × LaneRes) :=
  match p.member i.ln.r with
  | none => none
  | some m =>
    let h := i.ln.t.reg i.a
    if phLt p.phase m.sp then
      let s := s.modPhaser p.key fun p => p.modMember i.ln.r fun m => { m with sigWaiting := true }
      some (s, .wait { nowT s i with pend := .signal h } .phaser)
    else if s.heldRelease i.ln p.obj then some (s, .wait { i.ln.t with pend := .signal h } .phaser)
    else none

/-- `phsg` (R224). -/
def execPhsg (e : Bool) (a : BitVec 6) : Meaning :=
  execLanes e { a := a.toNat, an := 1 } fun s i =>
    match i.ln.t.pend with
    | .waited _ => (s, .ok i.ln.t)
    | _ =>
      withPhaser s i (i.ln.t.reg i.a) false true fun p =>
        if !maySignal p i.ln.r then phBusy s 4
        else
          match signalWaits s i p with
          | some r => r
          | none =>
            let s := s.countSignal p.key i.ln.r
            (s, .ok (nowT s i))

/-- A thread's own counted copy that ended with a fault, taken at its next wait on the counting phaser (R243). -/
def copyReport (s : State) (i : LaneIn) (p : Phaser) : Option (State × LaneRes) :=
  match s.ctxAt i.ln.r.core i.ln.r.gen with
  | none => none
  | some k =>
    match unreported k i.ln.r fun e => e.cnt == some p.uid with
    | some e => some (s.modCtx i.ln.r.core fun k => { k with copies := k.copies.filter fun x => x.id != e.id }, .copyFault e.detail e.faddr e.pc)
    | none => none

/-- A `phsw` at an address is over: its signal is no longer remembered (R228). -/
def Thread.signalMet (t : Thread) (pc : Nat) : Thread := { t with sigAt := t.sigAt.filter fun x => x != (pc, t.inHandler) }

/-- Whether the signal of the `phsw` at an address has been counted (R228). -/
def Thread.signalled (t : Thread) (pc : Nat) : Bool := t.sigAt.contains (pc, t.inHandler)

/-- The wait of a `phwt` or `phsw` begun (R224): its result at once, or pending. -/
def waitBegin (s : State) (i : LaneIn) (p : Phaser) : State × LaneRes :=
  match s.beginWait p.key i.ln.r with
  | (s, some r) => (s, .ok { ((nowT s i).setReg i.d r).signalMet i.x.upc with pend := .none })
  | (s, none) => (s, .wait { nowT s i with pend := .wait (i.ln.t.reg i.a) } .phaser)

/-- `phwt` (R224, R225). -/
def execPhwt (e : Bool) (d a : BitVec 6) : Meaning :=
  execLanes e { d := d.toNat, dn := 1, a := a.toNat, an := 1 } fun s i =>
    match i.ln.t.pend with
    | .waited r => (s, .ok (i.ln.t.setReg i.d r))
    | .wait _ => (s, .wait i.ln.t .phaser)
    | _ =>
      withPhaser s i (i.ln.t.reg i.a) false true fun p =>
        if !mayWait p i.ln.r then phBusy s 4
        else
          match copyReport s i p with
          | some r => r
          | none => waitBegin s i p

/-- The arrival of a `phsw`: the address after its unit is noted, and on the barrier the unit's address compared, which breaks the phase where it
differs from the first arrival's (R228, R230). -/
def phArrive (s : State) (i : LaneIn) (p : Phaser) : State × Bool :=
  let s := s.modThreadAt i.ln.r fun t => { t with arrNext := i.x.next }
  if p.handle == 0 && p.owner.isSome then s.arriveBarrier i.ln.r p i.x.upc else (s, false)

/-- The signal of a `phsw` counted: it is remembered until the wait ends (R228). -/
def phSignal (s : State) (i : LaneIn) (p : Phaser) : State :=
  (s.modThreadAt i.ln.r fun t => { t with sigAt := (i.x.upc, t.inHandler) :: t.sigAt, pend := .none }).countSignal p.key i.ln.r

/-- `phsw`: signal and wait; on the barrier the arrival's address is compared (R224, R228, R230). -/
def execPhsw (e : Bool) (d a : BitVec 6) : Meaning :=
  execLanes e { d := d.toNat, dn := 1, a := a.toNat, an := 1 } fun s i =>
    let t := i.ln.t
    match t.pend with
    | .waited r => (s, .ok ((t.setReg i.d r).signalMet i.x.upc))
    | .wait _ => (s, .wait t .phaser)
    | pend =>
      withPhaser s i (t.reg i.a) true true fun p =>
        if (!t.signalled i.x.upc && !maySignal p i.ln.r) || !mayWait p i.ln.r then phBusy s 4
        else
          match if pend == .none then copyReport s i p else none with
          | some r => r
          | none =>
            if t.signalled i.x.upc then waitBegin s i p
            else
              match signalWaits s i p with
              | some r => r
              | none =>
                match phArrive s i p with
                | (s, true) => (s, .wait { nowT s i with pend := .wait 0 } .phaser)
                | (s, false) =>
                  let s := phSignal s i p
                  match s.phaser p.key with
                  | none => (s, .ok (((nowT s i).setReg i.d 1).signalMet i.x.upc))
                  | some p => waitBegin s i p

/-- `phex` (R224). -/
def execPhex (e : Bool) (a : BitVec 6) (b : BitVec 5) : Meaning :=
  execLanes e { a := a.toNat, an := 1, b := 2 * b.toNat, bn := 2 } fun s i =>
    let n : Nat := i.ln.t.pair i.b % 2 ^ 56
    withPhaser s i (i.ln.t.reg i.a) false true fun p =>
      if p.pending + (n : Int) > 2 ^ 55 - 1 then phBusy s 5
      else
        let s := (s.modPhaser p.key fun p => { p with pending := p.pending + (n : Int), phexd := true }).tryComplete p.key
        (s, .ok (nowT s i))

/-- `phqy` (R224). -/
def execPhqy (e : Bool) (d : BitVec 5) (a : BitVec 6) : Meaning :=
  execLanes e { d := 2 * d.toNat, dn := 2, a := a.toNat, an := 1 } fun s i =>
    withPhaser s i (i.ln.t.reg i.a) true true fun p =>
      let status := p.opening.toNat + (if p.pending == 0 then 0 else 2) + p.marks % 4 * 4 + min p.signallers 0xFFFF * 2 ^ 16
      (s, .ok (i.ln.t.setSpan i.d 2 (p.phase % 2 ^ 32 + 2 ^ 32 * status)))

/-- `phin` (R224): busy while a wait is pending. -/
def execPhin (e : Bool) (a : BitVec 6) : Meaning :=
  execLanes e { a := a.toNat, an := 1 } fun s i =>
    withPhaser s i (i.ln.t.reg i.a) false true fun p =>
      if p.busy then phBusy s 1 else (s.reinit p.key, .ok i.ln.t)

/-- A release held for copies and atomics is complete once they are over (R90, R92), wherever its thread's context stands: the signal that a
departing thread owed is counted. -/
def execReleaseCompletion (id : Nat) : Meaning := fun s =>
  match s.releases.find? fun q => q.id == id with
  | none => .next s
  | some q =>
    if s.copiesLeft q.t q.copies || s.atomsLeft q.atoms then .next (s.post (.releaseCompletion id))
    else
      let s := { s with releases := s.releases.filter fun y => y.id != id }
      match q.obj with
      | .word _ _ => .next s
      | .ph pk di ix =>
        .next ((s.modPhaser (pk, di, ix) fun p => { p with owed := p.owed - 1, curCarried := joinNat p.curCarried q.carries }).tryComplete (pk, di, ix))

end Sys2Proof.Machine
end

