-- ==== Sys2Proof/Machine/Matrix.lean ====
section
/-! DEFINITION. The matrix unit: shape records, the instructions of MAJ 0x20, and the sequencer (R104, R116, R246-R272). -/

namespace Sys2Proof.Machine

open State

/-! ### Shape records (R249-R251) -/

/-- The fields of a shape record (R249). -/
def rKind (r : BitVec 128) : Nat := bits r.toNat 127 124
def rFmt (r : BitVec 128) : Nat := bits r.toNat 123 121
def rSpace (r : BitVec 128) : Nat := bits r.toNat 120 119
def rDt (r : BitVec 128) : Nat := bits r.toNat 118 118
def rDie (r : BitVec 128) : Nat := bits r.toNat 117 116
/-- Bytes between rows. -/
def rStride (r : BitVec 128) : Nat := bits r.toNat 115 96 * 16
def rCols (r : BitVec 128) : Nat := bits r.toNat 95 80
def rRows (r : BitVec 128) : Nat := bits r.toNat 79 64
def rXs (r : BitVec 128) : Nat := bits r.toNat 63 56
def rBase (r : BitVec 128) : Nat := bits r.toNat 55 0

/-- The K-step length of a format (R250). -/
def kStep (fmt : Nat) : Nat := if fmt == 1 || fmt == 2 then 16 else 32

/-- Whether a format's elements are narrow (R102). -/
def isNarrow (fmt : Nat) : Bool := 3 ≤ fmt

/-- What a record's kind requires (R250, R273): spaces, formats, the largest ROWS and COLS alone and in a cooperative
set, which dimension is K, and whether BASE must be a multiple of 16. -/
structure KindRule where
  spaces : List Nat
  fmts : List Nat
  rows : Nat
  coopRows : Nat
  cols : Nat
  coopCols : Nat
  kRows : Bool := false
  kCols : Bool := false
  base16 : Bool := true
  rowsUsed : Bool := true
  big : Nat := 5
  deriving DecidableEq, Repr

/-- The rule of a matrix kind (R250). SPACE codes: 0 G, 1 L, 2 D, 3 B-store. -/
def kindRule (kind : Nat) : KindRule :=
  let narrow := [1, 2, 3, 4, 5, 6, 7]
  match kind with
  | 1 => { spaces := [1], fmts := narrow, rows := 128, coopRows := 256, cols := 32768, coopCols := 32768, kCols := true }
  | 2 => { spaces := [3], fmts := narrow, rows := 32768, coopRows := 32768, cols := 256, coopCols := 512, kRows := true, base16 := false }
  | 3 => { spaces := [0, 2], fmts := narrow, rows := 32768, coopRows := 32768, cols := 256, coopCols := 512, kRows := true }
  | 4 => { spaces := [0, 2], fmts := narrow, rows := 32768, coopRows := 32768, cols := 256, coopCols := 512, kRows := true, base16 := false }
  | _ => { spaces := [1, 2], fmts := [0, 1, 2, 3, 4], rows := 128, coopRows := 256, cols := 256, coopCols := 512 }

/-- The SHAPE_MISMATCH detail of a record for a use under a kind and its rule, 0 where it passes (R251, R275). -/
def checkRec (r : BitVec 128) (kind : Nat) (q : KindRule) (coop : Bool) : Nat :=
  let sp := rSpace r
  if rKind r == 6 || rKind r == 7 then 6
  else if rKind r != kind then 1
  else if !q.spaces.contains sp || (sp != 2 && (rDt r != 0 || rDie r != 0)) then 2
  else if !q.fmts.contains (rFmt r) then 3
  else if (q.rowsUsed && rRows r == 0) || rCols r == 0 || (rXs r != 0 && kind != 5) || (sp == 2 && rDt r == 0 && rDie r != 0) ||
      ((sp == 1 || sp == 2) && rBase r / 2 ^ 32 != 0) || (sp == 3 && rBase r / 2 ^ 10 != 0) || (kind == 2 && rStride r != 0) ||
      (q.base16 && rBase r % 16 != 0) then 6
  else if (q.kRows && rRows r % kStep (rFmt r) != 0) || (q.kCols && rCols r % kStep (rFmt r) != 0) then 4
  else if (q.rowsUsed && (if coop then q.coopRows else q.rows) < rRows r) || (if coop then q.coopCols else q.cols) < rCols r then q.big
  else 0

/-- The check of a matrix record (R251). -/
def checkKind (r : BitVec 128) (kind : Nat) (coop : Bool) : Nat := checkRec r kind (kindRule kind) coop

/-- Formats that an `mlp` takes together (R251). -/
def compatible (fa fb : Nat) : Bool :=
  ((fa == 3 || fa == 4) && (fb == 3 || fb == 4)) || ((fa == 5 || fa == 6) && (fb == 5 || fb == 6)) || (fa == fb && (fa == 1 || fa == 2 || fa == 7))

/-- The first of a list of details that is not 0. -/
def firstDetail (l : List Nat) : Nat := (l.find? fun d => d != 0).getD 0

/-- The target of a byte of a record's buffer. -/
def recTgt (ln : Lane) (r : BitVec 128) (off : Nat) : Tgt :=
  match rSpace r with
  | 0 => .inG (rBase r + off)
  | 1 => .inL (rBase r + off)
  | _ => .inD (if rDt r == 1 then rDie r else ln.r.core.die) (rBase r + off)

/-- The tagged address of a byte of a record's buffer. -/
def recAddr (r : BitVec 128) (off : Nat) : Nat :=
  match rSpace r with
  | 0 => rBase r + off
  | 1 => plainTag .l ((rBase r + off) % 2 ^ 32)
  | _ => 0xF2 * 2 ^ 56 + rDt r * 2 ^ 34 + (if rDt r == 1 then rDie r * 2 ^ 32 else 0) + (rBase r + off) % 2 ^ 32

/-- Bytes of a record's buffer from an offset to BASE, none where it lies before the start of its space. -/
def recByte (ln : Lane) (r : BitVec 128) (off : Int) : Option Tgt :=
  let a := (rBase r : Int) + off
  if a < 0 then none
  else match recTgt ln r 0 with
    | .inL _ => some (.inL a.toNat)
    | .inD di _ => some (.inD di a.toNat)
    | t => some t

/-- The bounds of the L or D ranges of a record's buffer, by offset to BASE and length, checked at issue; the ranges may lie in several
members' allocations (R56, R262). G ranges are checked when the sequencer reaches them (R255, R256). -/
def recBound (s : State) (ln : Lane) (r : BitVec 128) (rows : List (Int × Nat)) : Option (Code × Nat × Nat) :=
  if rSpace r == 0 || rSpace r == 3 then none
  else
    let ok := fun (x : Int × Nat) => x.2 == 0 || match recByte ln r x.1 with
      | some t => t.off + x.2 ≤ 2 ^ 32 && s.inBound ln t x.2
      | none => false
    (rows.find? fun x => !ok x).map fun x => (Code.bound, 0, recAddr r (x.1 % (2 ^ 32 : Int)).toNat)

/-! ### Issue (R246, R253, R255) -/

/-- How a matrix or vocabulary instruction's checks and effect end: an effect, a trap of every active thread, or a wait. -/
inductive UnitRes where
  | ok (s : State)
  | trap (c : Code) (detail addr xpc : Nat)
  | trapLane (c : Code) (lane : Nat)
  | wait (s : State) (why : Stall)
  | again (s : State)
  deriving DecidableEq, Repr

/-- The matrix unit of the context on a core changed. -/
def modMtx (s : State) (c : CoreRef) (f : Matrix → Matrix) : State := s.modCtx c fun k => { k with mtx := f k.mtx }

/-- The unit claimed for a workgroup: everything in it reads as R247 gives. -/
def claim (s : State) (c : CoreRef) (wslot : Nat) : State :=
  modMtx s c fun m => if m.holder.isSome then m else { holder := some wslot }

/-- What a projection in progress or suspended means for an instruction (R275, R285): `mshp` goes on in both, `mwt` and
`vrsm` while one is suspended, the others in neither. -/
inductive Beside where
  | always | suspended | never
  deriving DecidableEq, Repr

/-- Whether the background part of a victim in the express slot still occupies the matrix unit's storage (R374, R449). -/
def backHeld (s : State) (c : CoreRef) : Bool :=
  let x := s.core c
  x.victim && match x.expSlot with
    | some k => k.mtx.holder.isSome && !k.bgAway
    | none => false

/-- Whether another group's vocabulary instruction has its turn on a context's unit: it runs, or waits for the sequencer (R285). -/
def vocTurn (k : Ctx) (slot : Nat) : Bool :=
  (k.voc.st == .active && k.voc.group != slot) || k.vwait.any fun v => v.group != slot && k.groups.any fun g => g.slot == v.group && (g.stall == .matrix || g.stall == .recall)

/-- An instruction of MAJ 0x20 or 0x21 (R255, R285): nothing with no active lane; REGISTER_RANGE of its fields in any
active lane; a wait while another group's projection runs; MATRIX_GROUP with detail 2 while another workgroup holds the
unit and 3 while a projection is suspended; then its own checks and effect, with the operands of the lowest active
lane. Traps name that lane, or lane 0 for a vocabulary instruction. -/
def execUnitAt (voc : Bool) (e : Bool) (b : Beside) (fs : Fields) (f : Iss → LaneIn → State → UnitRes) : Meaning := fun s => s.onIssue fun x =>
  let act := x.active
  match act.head?.bind fun t => s.laneIn x fs t with
  | none => (s.advance x []).endUnit x e false .none
  | some i =>
    let all := fun (s : State) (c : Code) (d a p lane : Nat) =>
      s.trapAll x e act fun t => { tid := t, code := c, detail := d, addr := a, xpc := p, pc := x.upc, ret := x.upc, lane := some lane }
    let named := if voc then 0 else i.ln.lane
    let short := act.find? fun t => match x.w.thread t with
      | some th => !fs.within th.c none
      | none => false
    match short with
    | some t => all s .range 0 0 0 (x.laneNo t)
    | none =>
      if backHeld s x.c then (s.postOnce (.backgroundSave x.c)).stallUnit x .background
      else if x.k.mtx.holder.isSome && x.k.mtx.holder != some x.g.wslot then all s .group 2 0 0 named
      else if b != .always && vocTurn x.k x.g.slot then s.stallUnit x .vocab
      else if b == .never && x.k.voc.st == .suspended then all s .group 3 0 0 named
      else
        match f x i s with
        | .trap c d a p => all s c d a p named
        | .trapLane c l => all s c 0 0 0 l
        | .wait s why => s.stallUnit x why
        | .again s => s
        | .ok s => ((claim s x.c x.g.wslot).advance x []).endUnit x e false .none

/-- An instruction of MAJ 0x20. -/
def execUnit (e : Bool) (b : Beside) (fs : Fields) (f : Iss → LaneIn → State → UnitRes) : Meaning := execUnitAt false e b fs f

/-- A trap of every active member that is reported once: what it reports is cleared when it is taken, not while taking it
waits. -/
def trapOnce (s : State) (x : Iss) (e : Bool) (q : Nat → TrapReq) (clear : State → State) : State :=
  if (x.active.map q).any fun q => (s.trapWait x q).isSome then s.trapAll x e x.active q else (clear s).trapAll x e x.active q

/-- The step of a core's sequencer posted for the entry at the head of its queue (R253). -/
def seqPost (s : State) (c : CoreRef) : State :=
  match (s.core c).ctx with
  | none => s
  | some k =>
    if k.st == .halted || k.bgAway then s
    else match k.mtx.queue.head? with
    | none => s
    | some q => match q.op with
      | .mbld _ _ _ _ => s.postOnce (.mbldEntry c)
      | .mzro _ => s.postOnce (.mzroEntry c)
      | .mlp _ _ _ _ _ _ _ _ _ _ _ => s.postOnce (.mlpKstep c)
      | .mdrn _ _ _ _ _ _ => s.postOnce (.mdrnChunk c)
      | .mwtSg _ => s.postOnce (.mwtSgEntry c)

/-- An entry put into the queue of eight, or the wait for room (R253). -/
def enqueue (x : Iss) (i : LaneIn) (s : State) (op : SeqOp) (more : State → SeqEntry → State × SeqEntry) : UnitRes :=
  if 8 ≤ x.k.mtx.queue.length then .wait s .mtxQueue
  else
    let s := claim s x.c x.g.wslot
    let (id, s) := s.fresh
    let (s, q) := more s { id := id, op := op, tid := i.ln.t.tid, pc := x.upc }
    .ok (seqPost (modMtx s x.c fun m => { m with queue := m.queue ++ [q], st := if m.st == .idle then .busy else m.st }) x.c)

/-- A record of the issuing workgroup as its lane's workgroup holds it. -/
def recOf (i : LaneIn) (h : Nat) : BitVec 128 := i.ln.w.shape h

/-- The issuing core's part of a tile (R269): by its place in the cooperative set where a record is cooperative. -/
def partOf (x : Iss) (tile : Bool) (rows cols : Nat) : Part4 :=
  match x.k.mtx.coop, tile with
  | some v, true =>
    let pos := ((List.range 4).find? fun j => v / 2 ^ (8 * j) % 256 == x.w.m).getD 0
    { m0 := 128 * (pos / 2), mq := min 128 (rows - 128 * (pos / 2)), q0 := 256 * (pos % 2), nq := min 256 (cols - 256 * (pos % 2)) }
  | _, _ => { m0 := 0, mq := rows, q0 := 0, nq := cols }

/-- `mshp` (R249, R259). -/
def execMshp (e : Bool) (h y : BitVec 4) : Meaning :=
  execUnit e .always { a := 4 * y.toNat, an := 4 } fun x i s =>
    .ok (s.modWg x.c x.g.wslot fun w => { w with shapes := sset 0 w.shapes h.toNat (BitVec.ofNat 128 (i.ln.t.span i.a 4)) })

/-- `mzro` (R260). -/
def execMzro (e : Bool) (m : BitVec 4) : Meaning := execUnit e .never {} fun x i s => enqueue x i s (.mzro m.toNat) fun s q => (s, q)

/-- `mbld` (R261). -/
def execMbld (e : Bool) (b r c : BitVec 4) : Meaning :=
  execUnit e .never {} fun x i s =>
    let rb := recOf i b.toNat
    let rs := recOf i r.toNat
    let rc := recOf i c.toNat
    let coop := x.k.mtx.coop.isSome
    let fmt := rFmt rb
    let p := partOf x (coop && 256 < rCols rb) 0 (rCols rb)
    let narrow := isNarrow fmt
    let h := if p.nq ≤ 128 then 1 else 2
    let det := firstDetail [checkKind rb 2 coop, checkKind rs 3 coop, if narrow then checkKind rc 4 coop else 0,
      if rFmt rs != fmt || (narrow && rFmt rc != fmt) then 3 else 0,
      if rRows rs != rRows rb || rCols rs != rCols rb || (narrow && (rRows rc != rRows rb || rCols rc != rCols rb)) then 4 else 0,
      if 1024 < rRows rb / kStep fmt * h then 5 else 0]
    if det != 0 then .trap .shape det 0 0
    else
      let eb := fmtBits fmt
      let w := if fmt == 6 then 2 else 1
      let src := if p.nq == 0 then none else
        recBound s i.ln rs ((List.range (rRows rb)).map fun k => (((k * rStride rs + p.q0 * eb / 8 : Nat) : Int), (p.nq * eb + 7) / 8))
      let scl := if p.nq == 0 || !narrow then none else
        recBound s i.ln rc ((List.range (rRows rb / 32)).map fun k => (((k * rStride rc + p.q0 * w : Nat) : Int), p.nq * w))
      match src.or scl with
      | some (c, d, a) => .trap c d a 0
      | none => enqueue x i s (.mbld rb rs rc p) fun s q => (s, q)

/-- `mlp` (R262). -/
def execMlp (e : Bool) (k : BitVec 2) (a b : BitVec 4) (z : BitVec 5) (sel : BitVec 2) : Meaning :=
  execUnit e .never { a := 2 * z.toNat, an := 2 } fun x i s =>
    if x.g.members.length != 32 || x.active.length != 32 then .trap .group 1 0 0
    else
      let ra := recOf i a.toNat
      let rb := recOf i b.toNat
      let d := i.ln.t.reg i.a
      let ainc := sx32 (i.ln.t.reg (i.a + 1))
      let n := bits d 10 0
      let binc := bits d 20 11
      let sbase := bits d 26 21
      let coop := x.k.mtx.coop.isSome
      let tile := coop && (128 < rRows ra || 256 < rCols rb)
      let p := partOf x tile (rRows ra) (rCols rb)
      let ks := kStep (rFmt ra)
      let det := firstDetail [checkKind ra 1 coop, checkKind rb 2 coop, if compatible (rFmt ra) (rFmt rb) then 0 else 3,
        if d / 2 ^ 27 != 0 || 1024 < n || ainc % 16 != 0 then 6 else 0,
        if rCols ra != rRows rb || rCols ra < n * ks then 4 else 0,
        if 4 < k.toNat + ceilDiv p.nq 64 then 5 else 0]
      if det != 0 then .trap .shape det 0 0
      else
        let nreg := if !isNarrow (rFmt ra) then 0 else if rFmt ra == 6 then 2 * n else n
        let short := x.g.members.find? fun t => match x.w.thread t with
          | some th => nreg != 0 && th.c < sbase + nreg
          | none => false
        match short with
        | some t => .trapLane .range (x.laneNo t)
        | none =>
          let rows := (List.range n).flatMap fun (j : Nat) => (List.range p.mq).map fun m =>
            ((((p.m0 + m) * rStride ra : Nat) : Int) + (j : Int) * ainc, ks * fmtBits (rFmt ra) / 8)
          match recBound s i.ln ra rows with
          | some (c, d, a) => .trap c d a 0
          | none =>
            let scales := x.g.members.zipIdx.foldl (fun (m : Words) tl =>
              match x.w.thread tl.1 with
              | some th => (List.range nreg).foldl (fun (m : Words) j => wset m (32 * j + tl.2) (th.reg (sbase + j))) m
              | none => m) []
            let num := if tile then some x.k.mtx.cseq else none
            enqueue x i s (.mlp k.toNat ra rb n binc ainc sel.toNat scales p num sbase) fun s q =>
              (if tile then modMtx s x.c fun m => { m with cseq := m.cseq + 1 } else s, q)

/-- The copies that a drain and its merge count as (R267): rows written at the record's place, and the word. The merge is the thread's latest
atomic, and a release after a `fence.rel` (R217). -/
def drainCopies (x : Iss) (i : LaneIn) (s : State) (rc : BitVec 128) (p : Part4) (word : Option Nat) (q : SeqEntry) : State × SeqEntry :=
  let eb := fmtBits (rFmt rc) / 8
  let rel := match word.bind (atomTgt i.ln) with
    | some t => if i.ln.t.fenceRel then (bindLoc i.ln t).map fun l => (ownChanges i.ln, s.heldBy i.ln (.word l 4), s.atomsBound i.ln (.word l 4) ++ s.releasesLeft i.ln.r)
      else none
    | none => none
  let (id, s) := s.fresh
  let e : CopyEntry := { id := id, wslot := x.g.wslot, tid := i.ln.t.tid, sub := 1, f := drainF, x := recAddr rc (p.m0 * rStride rc + p.q0 * eb), y := 0,
                         desc := [p.nq * eb, if p.nq == 0 then 0 else p.mq, rStride rc, 0], st := .active, pc := x.upc, own := id }
  let s := s.modCtx x.c fun k => { k with copies := k.copies ++ [e] }
  match word with
  | none => (s, { q with copy := id })
  | some a =>
    let (wid, s) := s.fresh
    let w : CopyEntry := { id := wid, wslot := x.g.wslot, tid := i.ln.t.tid, sub := 0, f := drainF, x := a, y := 0, desc := [4], st := .gated, pc := x.upc }
    let s := s.modThread x.c x.g.wslot i.ln.t.tid fun t => { t with fenceRel := false, lastReq := wid, lastSeen := [] }
    (s.modCtx x.c fun k => { k with copies := k.copies ++ [w] }, { q with copy := id, word := wid, rel := rel })

/-- A drain's issue (R265, R266); the checks of its ranges and its word in the order of R69 (R255). -/
def drainUnit (e : Bool) (fs : Fields) (slot c mode : Nat) (amax : Bool) : Meaning :=
  execUnit e .never fs fun x i s =>
    let rc := recOf i c
    let coop := x.k.mtx.coop.isSome
    let tile := coop && (128 < rRows rc || 256 < rCols rc)
    let p := partOf x tile (rRows rc) (rCols rc)
    let det := firstDetail [checkKind rc 5 coop, if 4 < slot + ceilDiv p.nq 64 then 5 else 0]
    if det != 0 then .trap .shape det 0 0
    else
      let eb := fmtBits (rFmt rc) / 8
      let rows := (List.range p.mq).map fun m => ((((p.m0 + m) * rStride rc + p.q0 * eb : Nat) : Int), p.nq * eb)
      let addr := i.ln.t.pair i.a
      let kindBad := if !amax then none else
        match atomTgt i.ln addr with
        | none => some (Code.kind, 0, addr)
        | some t => if t.off % 4 != 0 then some (.misaligned, 0, addr) else none
      let wordBad := if !amax then none else
        match atomTgt i.ln addr with
        | none => none
        | some t => if s.inBound i.ln t 4 then none else some (Code.bound, 0, addr)
      match (kindBad.or (recBound s i.ln rc rows)).or wordBad with
      | some (c, d, a) => .trap c d a 0
      | none =>
        let word := if amax then some addr else none
        enqueue x i s (.mdrn slot rc mode word p tile) fun s q => drainCopies x i s rc p word q

/-- `mdrn` (R265). -/
def execMdrn (e : Bool) (k : BitVec 2) (c : BitVec 4) (m : BitVec 3) : Meaning := drainUnit e {} k.toNat c.toNat m.toNat false

/-- `mdrn` with an amax word (R266). -/
def execMdrnAmax (e : Bool) (k : BitVec 2) (c : BitVec 4) (z : BitVec 5) (m : BitVec 3) : Meaning :=
  drainUnit e { a := 2 * z.toNat, an := 2 } k.toNat c.toNat m.toNat true

/-- `mwt` (R256, R268): waits for the entries queued before it, and reports a deferred fault. -/
def execMwt (e : Bool) : Meaning :=
  execUnit e .suspended {} fun x i s =>
    let last := match i.ln.t.pend with
      | .request n => n
      | _ => ((x.k.mtx.queue.getLast?).map fun q => q.id).getD 0
    if x.k.mtx.queue.any fun q => q.id ≤ last then
      .wait (x.active.foldl (fun s t => s.modThread x.c x.g.wslot t fun th => { th with pend := .request last }) (claim s x.c x.g.wslot)) .matrix
    else
      match x.k.mtx.fault with
      | some f =>
        -- what stands in the queue is discarded first: the report leaves an empty queue (R254)
        if !x.k.mtx.queue.isEmpty then .wait (claim s x.c x.g.wslot) .matrix
        else .again (trapOnce s x e (fun t =>
            { tid := t, code := .copyFault, detail := f.detail, addr := f.addr, xpc := f.xpc, pc := x.upc, ret := x.upc, lane := some i.ln.lane })
          fun s => modMtx s x.c fun m => { m with fault := none, st := .idle })
      | none => .ok s

/-- `mwt.sg` (R268): the checks of `phsg` for each active thread, then an entry that signals for them. -/
def execMwtSg (e : Bool) (a : BitVec 6) : Meaning :=
  execUnit e .never { a := a.toNat, an := 1 } fun x i s =>
    let each := x.active.filterMap fun t => s.laneIn x { a := a.toNat, an := 1 } t
    let detail := fun (l : LaneIn) =>
      let h := l.ln.t.reg l.a
      match s.phaserOf l.ln h with
      | none => 2
      | some p => if h == 0 then 3 else if maySignal p l.ln.r then 0 else 4
    let det := firstDetail (each.map detail)
    if det != 0 then .trap .phaser det 0 0
    else
      let sigs := each.filterMap fun l => (s.phaserOf l.ln (l.ln.t.reg l.a)).map fun p => (l.ln.t.tid, p.uid)
      enqueue x i s (.mwtSg sigs) fun s q => (s, q)

/-! ### Cooperative sets (R269-R271) -/

/-- The member numbers of a set's value, in the order of its bytes. -/
def coopMembers (v : Nat) : List Nat := (List.range 4).map fun j => v / 2 ^ (8 * j) % 256

/-- The core of a neighbourhood member. -/
def memberCore (x : Iss) (m : Nat) : Option CoreRef := (x.w.members[m]?).map fun y => { x.c with core := y.core }

/-- Whether a set's value is valid for its issuer (R269). -/
def coopValid (x : Iss) (v : Nat) : Bool :=
  let ms := coopMembers v
  let cs := ms.map fun m => (x.w.members[m]?).map fun y => y.core
  ms.contains x.w.m && ms.eraseDups.length == 4 && ms.all (fun m => m < x.w.members.length) &&
    match cs with
    | [some a, some b, some c, some d] => a % 8 < 7 && a / 8 < 7 && b == a + 1 && c == a + 8 && d == a + 9
    | _ => false

/-- Whether a context's unit is held by the workgroup of a member of a neighbourhood (R57, R269). -/
def holdsMember (k : Ctx) (w : Workgroup) (m : Nat) : Bool := k.wgs.any fun y => k.mtx.holder == some y.slot && y.grid == w.grid && y.block + w.m == w.block + m

/-- The unit of a member of the neighbourhood, where its workgroup holds it. -/
def unitOf (s : State) (x : Iss) (m : Nat) : Option Matrix :=
  (memberCore x m).bind fun c => (s.ctxAt c x.k.gen).bind fun k => if holdsMember k x.w m then some k.mtx else none

/-- The units of a set's members changed and those who wait for the set woken. -/
def coopAll (s : State) (x : Iss) (ms : List Nat) (f : Matrix → Matrix) : State :=
  ms.foldl (fun s m => match memberCore x m with
    | some c => seqPost ((s.modCtxAt c x.k.gen fun k => if holdsMember k x.w m then { k with mtx := f k.mtx } else k).wakeAll c fun w => match w with
        | .coop _ => true
        | _ => false) c
    | none => s) s

/-- Whether a queue holds a cooperative entry. -/
def hasCoop (m : Matrix) : Bool := m.queue.any fun q => match q.op with
  | .mbld b _ _ _ => 256 < rCols b
  | .mlp _ _ _ _ _ _ _ _ _ c _ => c.isSome
  | .mdrn _ _ _ _ _ c => c
  | _ => false

/-- `mcop` (R269, R271): forms the set its value names once all four members have asked for it, or dissolves the one that
stands. -/
def execMcop (e : Bool) (a : BitVec 6) : Meaning :=
  execUnit e .never { a := a.toNat, an := 1 } fun x i s =>
    let v := i.ln.t.reg i.a
    let mine := x.k.mtx.coop
    let ask := fun (ms : List Nat) (ready : Matrix → Bool) (f : Matrix → Matrix) =>
      let s := modMtx (claim s x.c x.g.wslot) x.c fun m => { m with coopWait := some v }
      if ms.all fun m => match unitOf s x m with
          | some u => u.coopWait == some v && ready u
          | none => false then
        .ok (coopAll s x ms f)
      else UnitRes.wait s (.coop v)
    if v == 0xFFFFFFFF then
      match mine with
      | none => .ok s
      | some set => ask (coopMembers set) (fun u => !hasCoop u) fun u => { u with coop := none, coopWait := none, cseq := 0, cdone := 0 }
    else
      match mine with
      | some set => if set == v then .ok s else .trap .shape 7 0 0
      | none =>
        let ms := coopMembers v
        let clash := ms.any fun m => match unitOf s x m with
          | some u => u.coopWait.isSome && u.coopWait != some v
          | none => false
        if !coopValid x v || clash then .trap .shape 7 0 0
        else ask ms (fun _ => true) fun u => { u with coop := some v, coopWait := none, cseq := 0, cdone := 0 }

/-! ### The sequencer (R253-R256, R260-R271) -/

/-- The lane for which an entry acts. -/
def seqLane (s : State) (c : CoreRef) (k : Ctx) (tid : Nat) : Option Lane :=
  k.mtx.holder.bind fun w => s.laneOf { core := c, gen := k.gen, wslot := w, tid := tid }

/-- The head entry done: out of the queue, and everyone who waits for it looks again. -/
def retire (s : State) (c : CoreRef) (k : Ctx) (q : SeqEntry) : State :=
  let wasCoop := match q.op with
    | .mlp _ _ _ _ _ _ _ _ _ co _ => co.isSome
    | _ => false
  let s := modMtx (s.dropKept c q.id) c fun m =>
    let rest := m.queue.filter fun y => y.id != q.id
    { m with queue := rest, cdone := m.cdone + if wasCoop then 1 else 0,
             st := if m.fault.isSome then (if rest.isEmpty then .held else .held) else if rest.isEmpty then .idle else .busy }
  let s := s.wakeAll c fun w => match w with
    | .matrix | .mtxQueue | .coop _ | .vocab => true
    | _ => false
  let s := s.wakeRecalls
  match k.mtx.holder with
  | some w => ((seqPost s c).reportHeld c k.gen).reapWg c k.gen w
  | none => s

/-- The copies that a drain counted as ended without a report. -/
def endDrain (s : State) (c : CoreRef) (q : SeqEntry) : State :=
  let done := fun (s : State) (id : Nat) => if id == 0 then s else
    match s.copyOf c id with
    | some _ => (s.modCopy c id fun e => { e with st := .ended }).postOnce (.copyCompletion c id)
    | none => s
  (done (done s q.copy) q.word).wakeRecalls

/-- A deferred fault of the head entry (R256): the sequencer is HELD and the entry is discarded. -/
def seqFault (s : State) (c : CoreRef) (k : Ctx) (q : SeqEntry) (detail addr : Nat) : State :=
  match seqLane s c k q.tid with
  | none => s
  | some ln =>
    let f : FaultRec := { time := s.time c.pkg, xpc := q.pc, die := c.die, core := c.core, tid := q.tid, pkg := c.pkg, block := ln.w.block,
                          rtype := 1, code := Code.copyFault.num, detail := detail, addr := addr, pc := q.pc }
    retire (endDrain (modMtx s c fun m => { m with fault := some f, st := .held }) c q) c k q

/-- A member's part of a cooperative tile (R269). -/
def memberPart (v m rows cols : Nat) : Part4 :=
  let pos := ((List.range 4).find? fun j => v / 2 ^ (8 * j) % 256 == m).getD 0
  { m0 := 128 * (pos / 2), mq := min 128 (rows - 128 * (pos / 2)), q0 := 256 * (pos % 2), nq := min 256 (cols - 256 * (pos % 2)) }

/-- The contexts of the partners of a workgroup in a cooperative set that have a part of a tile, none for one that is not on its core. -/
def partners (s : State) (c : CoreRef) (k : Ctx) (w : Workgroup) (rows cols : Nat) : List (Option Ctx) :=
  match k.mtx.coop with
  | none => []
  | some v => ((coopMembers v).filter fun m => m != w.m && (memberPart v m rows cols).mq != 0 && (memberPart v m rows cols).nq != 0).map fun m =>
      (w.members[m]?).bind fun y => (s.ctxAt { c with core := y.core } k.gen).bind fun k' => if holdsMember k' w m && k'.mtx.coop == some v then some k' else none

/-- The K-step that a context's unit performs next of the cooperative step of a number: none where it has not come to it, or has it behind
(R270). -/
def coopAt (k : Ctx) (num : Nat) : Option (Nat × Nat) :=
  (k.mtx.queue.head?).bind fun q => match q.op with
    | .mlp _ _ _ n _ _ _ _ _ (some n') _ => if n' == num then some (q.progress, n) else none
    | _ => none

/-- The place of a drain's next bytes and how many of them lie in one line (R265). -/
def drainPiece (ln : Lane) (rc : BitVec 128) (p : Part4) (at_ : Nat) : Tgt × Nat :=
  let eb := fmtBits (rFmt rc) / 8
  let row := p.nq * eb
  let t := recTgt ln rc ((p.m0 + at_ / row) * rStride rc + p.q0 * eb + at_ % row)
  (t, min (row - at_ % row) (128 - t.off % 128))

/-- Whether the sequencer may halt at its head entry (R272): between the K-steps of an `mlp`, where no partner has gone on to a later K-step
of the same cooperative step; at a 512-byte chunk of an `mdrn`; between the rows of an `mbld`; and where its access must wait. -/
def headHalts (s : State) (c : CoreRef) (k : Ctx) (q : SeqEntry) (ln : Lane) : Bool :=
  q.stuck || match q.op with
    | .mlp _ ra rb n _ _ _ _ _ (some num) _ =>
      n ≤ q.progress || (partners s c k ln.w (rRows ra) (rCols rb)).all fun y => match y with
        | none => true
        | some k' => (match coopAt k' num with
            | some (j, _) => j ≤ q.progress
            | none => true)
    | .mdrn _ rc _ _ p _ =>
      q.progress == 0 || p.mq * (p.nq * (fmtBits (rFmt rc) / 8)) ≤ q.progress ||
        ((drainPiece ln rc p (q.progress - 1)).1.lineNo / 16, (drainPiece ln rc p (q.progress - 1)).1.lineNo % 4) !=
          ((drainPiece ln rc p q.progress).1.lineNo / 16, (drainPiece ln rc p q.progress).1.lineNo % 4)
    | _ => true

/-- Whether a context's sequencer stands where a halt may find it (R272). -/
def seqMayHalt (s : State) (c : CoreRef) (k : Ctx) : Bool :=
  match k.mtx.queue.head? with
  | none => true
  | some q => match seqLane s c k q.tid with
    | none => true
    | some ln => headHalts s c k q ln

/-- An entry of a kind at the head of a core's queue, performed by `f`; a context that halts goes on to the place where it may (R272). -/
def onHead (c : CoreRef) (f : State → Ctx → SeqEntry → Lane → Option State) : Meaning := fun s =>
  match (s.core c).ctx with
  | none => .next s
  | some k =>
    match k.mtx.queue.head? with
    | none => .next s
    | some q =>
      if k.st == .halted || k.bgAway then .next s
      else
        match seqLane s c k q.tid with
        | none => .next (retire s c k q)
        | some ln =>
          if k.st == .halting && headHalts s c k q ln then .next s
          else
            match f s k q ln with
            | none => .next s
            | some s => .next s

/-- The head entry's progress changed, and its next step posted. -/
def progress (s : State) (c : CoreRef) (q : SeqEntry) (f : SeqEntry → SeqEntry) : State :=
  seqPost (modMtx s c fun m => { m with queue := mapIf (fun (y : SeqEntry) => y.id == q.id) (fun y => { f y with stuck := false }) m.queue }) c

/-- The head entry waits: its step is tried again, with the source lines that it has read (R261). -/
def seqWait (s : State) (c : CoreRef) (q : SeqEntry) (snaps : List (Nat × Option Nat)) : State :=
  seqPost (modMtx s c fun m => { m with queue := mapIf (fun (y : SeqEntry) => y.id == q.id) (fun y => { y with stuck := true, snaps := snaps }) m.queue }) c

/-- The entry as a copy of no thread, so that only copies in progress make its accesses wait (R264). -/
def seqAgent (s : State) (q : SeqEntry) : CopyEntry :=
  { id := q.id, wslot := 2 ^ 20, tid := 0, sub := 0, f := drainF, x := 0, y := 0, desc := [], st := .active, pc := q.pc, own := s.nextId, snaps := q.snaps }

/-- A drain or its merge as the copy of its thread that it counts as (R267). -/
def drainAgent (s : State) (c : CoreRef) (ln : Lane) (q : SeqEntry) (id : Nat) : CopyEntry :=
  let own := match s.copyOf c id with
    | some (_, e) => if e.own == 0 then s.nextId else e.own
    | none => s.nextId
  { id := id, wslot := ln.r.wslot, tid := ln.r.tid, sub := drainSub, f := drainF, x := 0, y := 0, desc := [], st := .active, pc := q.pc, own := own }

/-- Several ranges of a record's buffer read as a copy reads its source, each line from one snapshot (R89, R261): none for a range whose data
is uncorrectable; or the first that stops. -/
def seqReads (s : State) (ln : Lane) (me : CopyEntry) : List (BitVec 128 × Nat × Nat) → State × CopyEntry × Except EngStop (List (Option Nat))
  | [] => (s, me, .ok [])
  | (r, off, n) :: rest =>
    match s.engSource ln me (recTgt ln r off) (recAddr r 0) (n / 128 + 2) n with
    | (s, me, .error e) => (s, me, .error e)
    | (s, me, .ok v) =>
      match seqReads s ln me rest with
      | (s, me, .error e) => (s, me, .error e)
      | (s, me, .ok l) => (s, me, .ok (v :: l))

/-- Element `i` of a row of packed elements (R102). -/
def elemAt (fmt row i : Nat) : Nat := row / 2 ^ (fmtBits fmt * i) % 2 ^ fmtBits fmt

/-- Data lost to an entry: its block is marked (R256). -/
def seqLost (s : State) (c : CoreRef) (k : Ctx) : State :=
  match k.mtx.holder with
  | none => s
  | some w => (s.countDie c.pkg c.die 0x1010).noteWg c k.gen w (Workgroup.mark 1)

/-- How a sequencer step goes on after a read that stopped: a fault, a wait that is tried again, or data that is lost. -/
def seqStop (s : State) (c : CoreRef) (k : Ctx) (q : SeqEntry) (w : EngStop) (lost : State → State) : State :=
  match w with
  | .fault d a => seqFault s c k q d a
  | .wait => seqWait s c q q.snaps
  | .lost => lost (seqLost s c k)

/-- A B row's column written (R248): data of 32 bytes, scale and outlier. -/
def putB (m : Matrix) (row col data scale outlier : Nat) : Matrix :=
  let ix := row * 128 + col
  { m with bdata := mwrite m.bdata (ix * 32) 32 data, bscale := sset 0 m.bscale ix (BitVec.ofNat 8 (scale ^^^ 0x7F)),
           bout := sset 0 m.bout ix (BitVec.ofNat 8 outlier) }

/-- The scale and outlier of a B row's column. -/
def bScale (m : Matrix) (row col : Nat) : Nat := (mbyte m.bscale (row * 128 + col)).toNat ^^^ 0x7F
def bOut (m : Matrix) (row col : Nat) : Nat := (mbyte m.bout (row * 128 + col)).toNat

/-- What a 512-byte chunk of a B row reads in a K-step of an `mbld` (R261): its 16 columns in the rows of the source, and their scales in a
narrow format. -/
def buildReads (rb rs rc : BitVec 128) (p : Part4) (j c0 : Nat) : List (BitVec 128 × Nat × Nat) :=
  let fmt := rFmt rb
  let ks := kStep fmt
  let eb := fmtBits fmt
  let w := if fmt == 6 then 2 else 1
  let n := min 16 (p.nq - c0)
  if n == 0 then []
  else (List.range ks).map (fun kk => (rs, (j * ks + kk) * rStride rs + (p.q0 + c0) * eb / 8, (n * eb + 7) / 8)) ++
    (if isNarrow fmt then [(rc, j * rStride rc + (p.q0 + c0) * w, n * w)] else [])

/-- The data, scale and outlier that an `mbld` puts in a column from the ranges read for its chunk (R248, R261). -/
def buildColumn (m : Matrix) (fmt : Nat) (rows : List Nat) (row col cc : Nat) : Matrix :=
  let ks := kStep fmt
  let eb := fmtBits fmt
  let w := if fmt == 6 then 2 else 1
  let scl := (rows[ks]?).getD 0
  let data := (List.range ks).foldl (fun d kk => d + elemAt fmt ((rows[kk]?).getD 0) cc * 2 ^ (eb * kk)) 0
  putB m row col data (if isNarrow fmt then scl / 2 ^ (8 * w * cc) % 256 else bScale m row col)
    (if fmt == 6 then scl / 2 ^ (8 * (2 * cc + 1)) % 256 else bOut m row col)

/-- A chunk of a B row written; columns beyond the part are cleared (R261). -/
def buildChunk (rb : BitVec 128) (p : Part4) (row half ch : Nat) (rows : List Nat) (m : Matrix) : Matrix :=
  (List.range 16).foldl (fun (m : Matrix) i =>
    let col := 16 * ch + i
    if 128 * half + col < p.nq then buildColumn m (rFmt rb) rows row col i else putB m row col 0 0x7F 0) m

/-- The chunks of a B row from chunk `ch` on with what they read: those before the first that stops, and what it stops for. -/
def rowChunks (s : State) (ln : Lane) (rb rs rc : BitVec 128) (p : Part4) (j half : Nat) :
    Nat → Nat → CopyEntry → State × CopyEntry × List (Nat × List (Option Nat)) × Option EngStop
  | 0, _, me => (s, me, [], none)
  | fuel + 1, ch, me =>
    match seqReads s ln me (buildReads rb rs rc p j (128 * half + 16 * ch)) with
    | (s, me, .error e) => (s, me, [], some e)
    | (s, me, .ok l) =>
      let r := rowChunks s ln rb rs rc p j half fuel (ch + 1) me
      (r.1, r.2.1, (ch, l) :: r.2.2.1, r.2.2.2)

/-- The next B row of an `mbld` entry, whose progress counts 512-byte chunks, eight to a row (R261, R272): a row with uncorrectable data keeps
its earlier contents, and at a failing chunk those before it stand (R256). -/
def execMbldEntry (c : CoreRef) : Meaning := onHead c fun s k q ln =>
  match q.op with
  | .mbld rb rs rc p =>
    let h := if p.nq ≤ 128 then 1 else 2
    let j := q.progress / (8 * h)
    let half := q.progress / 8 % h
    let ch := q.progress % 8
    if k.mtx.fault.isSome || p.nq == 0 || rRows rb / kStep (rFmt rb) ≤ j then some (retire s c k q)
    else
      match rowChunks s ln rb rs rc p j half (8 - ch) ch (seqAgent s q) with
      | (s, me, _, some .wait) => some (seqWait s c q me.snaps)
      | (s, me, l, stop) =>
        let lost := l.any fun x => x.2.any fun v => v.isNone
        let row := (rBase rb + j * h + half) % 1024
        let s := if lost then seqLost s c k else
          modMtx s c fun m => l.foldl (fun (m : Matrix) x => buildChunk rb p row half x.1 (x.2.map fun v => v.getD 0) m) m
        match stop with
        | some (.fault d a) => some (seqFault s c k q d a)
        | _ => some (progress s c q fun q => { q with progress := q.progress + 8 - ch, snaps := me.snaps })
  | _ => none

/-- The accumulator index of a slot, row and column of a tile part. -/
def accIx (slot m cc : Nat) : Nat := (128 * (slot + cc / 64) + m) * 64 + cc % 64

/-- `mzro` at the head: the slots of the mask zeroed (R260). -/
def execMzroEntry (c : CoreRef) : Meaning := onHead c fun s k q _ =>
  match q.op with
  | .mzro mask =>
    let s := if k.mtx.fault.isSome then s else
      modMtx s c fun m => { m with acc := (List.range 4).foldl (fun a j => if bit mask j then sclear a (j * 8192) 8192 else a) m.acc }
    some (retire s c k q)
  | _ => none

/-- Whether the partners of a cooperative step's K-step are ready (R270): each has finished that step, or has it at its head at that K-step,
on a core that has not halted there (R272), or later. -/
def partnersReady (s : State) (c : CoreRef) (k : Ctx) (w : Workgroup) (rows cols num j : Nat) : Bool :=
  (partners s c k w rows cols).all fun y => match y with
    | none => k.mtx.coop.isNone
    | some k' => num < k'.mtx.cdone || match coopAt k' num with
      | some (j', n) => n ≤ j || j < j' || (j' == j && k'.st != .halted)
      | none => false

/-- The exact value of an element of A or B (R98, R102, R103). -/
def matValue (fmt code scale outlier : Nat) : Fp := if isNarrow fmt then narrowValue fmt code scale outlier else (fmtOf fmt).decode code

/-- A value of the integers, whose zero has no sign (R116). -/
def intValue (x : Fp) : Fp := if x.isZero then .fin false 0 0 else x

/-- The exact sum of a K-step's products (R116). -/
def dotExact : List (Fp × Fp) → Fp
  | [] => .fin false 0 0
  | [(a, b)] => Fp.mul a b
  | (a, b) :: rest => Fp.add false (Fp.mul a b) (dotExact rest)

/-- The rows of A that a K-step of an `mlp` reads, one by one, none for a row whose data is lost; or what a read stopped for. -/
def readRowsA (s : State) (ln : Lane) (q : SeqEntry) (ra : BitVec 128) (p : Part4) (j : Nat) (ainc : Int) : State × Option EngStop × List (Option Nat) :=
  let bytes := kStep (rFmt ra) * fmtBits (rFmt ra) / 8
  (List.range p.mq).foldl (fun (acc : State × Option EngStop × List (Option Nat)) m =>
    match acc with
    | (s, some e, l) => (s, some e, l)
    | (s, none, l) =>
      let t : Tgt := match recTgt ln ra 0 with
        | .inL o => .inL (((o : Int) + (((p.m0 + m) * rStride ra : Nat) + (j : Int) * ainc)).toNat)
        | t => t
      match s.engRead ln (seqAgent s q) t (recAddr ra 0) 3 bytes with
      | (s, .ok v) => (s, none, l ++ [some v])
      | (s, .error .lost) => (s, none, l ++ [none])
      | (s, .error e) => (s, some e, l)) (s, none, [])

/-- The sum of products that a K-step adds to one element (R98, R116, R263): row `m` of A, column `cc` of B. -/
def kstepSum (mx : Matrix) (ra rb : BitVec 128) (n j binc sel : Nat) (scales : Words) (m cc arow : Nat) : Fp :=
  let fa := rFmt ra
  let fb := rFmt rb
  let ks := kStep fa
  let byte := fun (reg : Nat) => wget scales (32 * reg + m % 32) / 2 ^ (8 * ((m / 32) ^^^ sel)) % 256
  let row := (rBase rb + j * binc + cc / 128) % 1024
  let col := cc % 128
  let data := mread mx.bdata ((row * 128 + col) * 32) 32
  let avals := (List.range ks).map fun kk => matValue fa (elemAt fa arow kk) (byte j) (if fa == 6 then byte (n + j) else 0)
  let bvals := (List.range ks).map fun kk => matValue fb (elemAt fb data kk) (bScale mx row col) (bOut mx row col)
  let sum := dotExact (avals.zip bvals)
  if fa == 7 then intValue sum else sum

/-- The accumulators after a K-step (R263): each element's sum added and rounded to nearest even; a row that was lost keeps its own. -/
def kstepAcc (slot : Nat) (ra rb : BitVec 128) (n j binc sel : Nat) (scales : Words) (p : Part4) (rows : List (Option Nat)) (mx : Matrix) : Matrix :=
  rows.zipIdx.foldl (fun (mx : Matrix) rm =>
    match rm.1 with
    | none => mx
    | some arow =>
      (List.range p.nq).foldl (fun (mx : Matrix) cc =>
        let ix := accIx slot rm.2 cc
        { mx with acc := wset mx.acc ix (rne32 (Fp.add false (f32 (wget mx.acc ix)) (kstepSum mx ra rb n j binc sel scales rm.2 cc arow))) }) mx) mx

/-- One K-step of an `mlp` entry (R116, R263); a cooperative one waits for its partners (R270). -/
def execMlpKstep (c : CoreRef) : Meaning := onHead c fun s k q ln =>
  match q.op with
  | .mlp slot ra rb n binc ainc sel scales p num _ =>
    let j := q.progress
    if k.mtx.fault.isSome || n ≤ j || p.mq == 0 || p.nq == 0 then some (retire s c k q)
    else if num.any fun i => !partnersReady s c k ln.w (rRows ra) (rCols rb) i j then
      some ((modMtx s c fun m => { m with st := .partner }).postOnce (.mlpKstep c))
    else
      let s := modMtx s c fun m => { m with st := .busy }
      let next := fun (s : State) => progress s c q fun q => { q with progress := j + 1 }
      match readRowsA s ln q ra p j ainc with
      | (s, some e, _) => some (seqStop s c k q e next)
      | (s, none, rows) =>
        let s := if rows.any fun r => r.isNone then seqLost s c k else s
        some (next (modMtx s c (kstepAcc slot ra rb n j binc sel scales p rows)))
  | _ => none

/-- The larger of two magnitudes as FP32 codes, NaN where either is (R266). -/
def maxMag (a b : Nat) : Nat := amaxCode a b

/-- A drained element (R265). -/
def drainElem (fmt mode xs acc : Nat) : Nat :=
  if xs == 0xFF then (fmtOf fmt).nan else ((fmtOf fmt).round (rmodeOf mode) ((f32 acc).scale (127 - (xs : Int)))).1

/-- The accumulators that a piece of `n` bytes of a drain reads (R265). -/
def drainAccs (mx : Matrix) (slot : Nat) (rc : BitVec 128) (p : Part4) (at_ n : Nat) : List Nat :=
  let eb := fmtBits (rFmt rc) / 8
  let row := p.nq * eb
  (List.range (n / eb)).map fun i => wget mx.acc (accIx slot (at_ / row) (at_ % row / eb + i))

/-- The bytes of drained accumulators (R265). -/
def drainBytes (rc : BitVec 128) (mode : Nat) (accs : List Nat) : Nat :=
  accs.zipIdx.foldl (fun v x => v + drainElem (rFmt rc) mode (rXs rc) x.1 * 2 ^ (8 * (fmtBits (rFmt rc) / 8) * x.2)) 0

/-- The maximum of a drain merged into its word, as a relaxed atomic of the thread, or as a release after a `fence.rel` (R217, R266, R267). -/
def mergeMax (s : State) (c : CoreRef) (k : Ctx) (q : SeqEntry) (ln : Lane) (l : Loc) : State :=
  let seen := ((s.syncs.find? fun y => y.loc == l && y.size == 4).map fun y => y.carried).getD []
  let s := (s.chargeLoc c.pkg ln.g.part l).writeLoc l 4 (amaxCode (s.readLoc l 4) q.rmax)
  let s := match q.rel with
    | some (carries, _, _) => s.modSync l 4 fun y => { y with carried := joinNat y.carried carries, pod := false, pkg := c.pkg, rel := q.word }
    | none => s
  s.modThreadAt { core := c, gen := k.gen, wslot := ln.r.wslot, tid := q.tid } fun t => if t.lastReq == q.word then { t with lastSeen := seen } else t

/-- The bytes of a drain that lie in the next destination line written, or its maximum merged and the entry completed
(R265, R266). -/
def execMdrnChunk (c : CoreRef) : Meaning := onHead c fun s k q ln =>
  match q.op with
  | .mdrn slot rc mode amax p _ =>
    if k.mtx.fault.isSome then some (retire (endDrain s c q) c k q)
    else if q.progress < p.mq * (p.nq * (fmtBits (rFmt rc) / 8)) then
      let (t, n) := drainPiece ln rc p q.progress
      match s.engLoc ln (drainAgent s c ln q q.copy) t (recAddr rc 0) n .write with
      | (s, .error e) => some (seqStop s c k q e fun s => s)
      | (s, .ok l) =>
        let accs := drainAccs k.mtx slot rc p q.progress n
        let s := ((s.chargeLoc c.pkg ln.g.part l).writeLoc l n (drainBytes rc mode accs)).modCopy c q.copy fun e => { e with written := q.progress + n }
        let rmax := accs.foldl (fun r a => maxMag r (a % 2 ^ 31)) q.rmax
        some ((progress s c q fun q => { q with progress := q.progress + n, rmax := rmax }).wakeRecalls)
    else
      match amax with
      | none => some (retire (endDrain s c q) c k q)
      | some addr =>
        match atomTgt ln addr with
        | none => some (retire (endDrain s c q) c k q)
        | some t =>
          let held := match q.rel with
            | some (_, copies, atoms) => s.copiesLeft ln.r copies || s.atomsLeft atoms
            | none => false
          if held then some (seqWait s c q q.snaps)
          else
            match s.engLoc ln (drainAgent s c ln q q.word) t addr 4 .atomic with
            | (s, .error e) => some (seqStop s c k q e fun s => retire (endDrain s c q) c k q)
            | (s, .ok l) => some (retire (endDrain (mergeMax s c k q ln l) c q) c k q)
  | _ => none

/-- One signal of an `mwt.sg` entry, as the thread's `phsg` (R224, R268): the next thread's, when it may be counted. -/
def execMwtSgEntry (c : CoreRef) : Meaning := onHead c fun s k q ln =>
  match q.op with
  | .mwtSg sigs =>
    match sigs[q.progress]? with
    | none => some (retire s c k q)
    | some (tid, uid) =>
      let r := { ln.r with tid := tid }
      let next := fun (s : State) => progress s c q fun q => { q with progress := q.progress + 1 }
      match s.phaserUid (some uid) with
      | none => some (next s)
      | some p =>
        match p.member r with
        | none => some (next s)
        | some m =>
          let held := match s.laneOf r with
            | some ln => s.heldBefore ln p.obj q.id
            | none => false
          if phLt p.phase m.sp || held then some (seqWait s c q [])
          else
            let s := if k.mtx.fault.isSome then s.modPhaser p.key fun p => { p with marks := p.marks ||| 1 } else s
            some (next (s.countSignalUpTo p.key r q.id))
  | _ => none

end Sys2Proof.Machine
end

