-- ==== Sys2Proof/Machine/Vocab.lean ====
section
/-! DEFINITION. Vocabulary projection: MAJ 0x21 and the steps of its engine (R273-R293). -/

namespace Sys2Proof.Machine

open State

/-! ### Records (R273-R275) -/

/-- The rule of a vocabulary kind (R273); a VSC's spaces are those of its use. -/
def vocRule (kind : Nat) (spaces : List Nat) : KindRule :=
  let narrow := [1, 2, 3, 4, 5, 6, 7]
  match kind with
  | 8 => { spaces := spaces, fmts := narrow, rows := 32768, coopRows := 0, cols := 32768, coopCols := 0, kCols := true, big := 6 }
  | 9 => { spaces := spaces, fmts := narrow, rows := 128, coopRows := 0, cols := 32768, coopCols := 0, big := 6 }
  | 10 => { spaces := spaces, fmts := narrow, rows := 65535, coopRows := 0, cols := 32768, coopCols := 0, base16 := false, big := 6 }
  | 14 => { spaces := spaces, fmts := [0], rows := 128, coopRows := 0, cols := 32768, coopCols := 0, big := 6 }
  | 15 => { spaces := spaces, fmts := [0, 2], rows := 65535, coopRows := 0, cols := 32768, coopCols := 0, rowsUsed := false, big := 6 }
  | _ => { spaces := spaces, fmts := [0], rows := 128, coopRows := 0, cols := 65535, coopCols := 0, big := 6 }

/-- The check of a vocabulary record. -/
def checkVoc (r : BitVec 128) (kind : Nat) (spaces : List Nat) : Nat := checkRec r kind (vocRule kind spaces) false

/-- The fields of a VPAR record (R274). -/
def pMode (p : BitVec 128) : Bool := bit p.toNat 123
def pNlab (p : BitVec 128) : Nat := bits p.toNat 122 119
def pK (p : BitVec 128) : Nat := bits p.toNat 118 112
def pRank (p : BitVec 128) : Nat := bits p.toNat 111 96
def pVbase (p : BitVec 128) : Nat := bits p.toNat 95 64
def pDelta (p : BitVec 128) : Nat := bits p.toNat 63 32
def pC (p : BitVec 128) : Nat := bits p.toNat 31 0

/-- Whether an FP32 code is finite. -/
def finite32 (c : Nat) : Bool := c / 2 ^ 23 % 256 != 255

/-- Whether a VPAR record's fields lie in their ranges for a shard of `nb` blocks (R274, R275). -/
def vparOk (p : BitVec 128) (nb : Nat) : Bool :=
  let d := pDelta p
  pNlab p ≤ 8 && pVbase p + 32 * nb ≤ 2 ^ 32 && finite32 (pC p) && !bit (pC p) 31 && pC p != 0 &&
    (if pMode p then pK p == 0 && finite32 d && (!bit d 31 || d == 2 ^ 31) else 1 ≤ pK p && pK p ≤ 64 && (d == 0 || d == 2 ^ 31))

/-- The FORM word (R279). -/
def formOf (w h p : BitVec 128) : Nat :=
  rCols w / 16 * 2 ^ 18 + pK p * 2 ^ 11 + pNlab p * 2 ^ 7 + (if pMode p then 64 else 0) + rFmt h * 8 + rFmt w

/-- Bytes of a row of elements and of a row of scales over `h` elements. -/
def rowBytes (fmt h : Nat) : Nat := (h * fmtBits fmt + 7) / 8
def sclBytes (fmt h : Nat) : Nat := h / 32 * (if fmt == 6 then 2 else 1)

/-- The captured records by name: state or final record, VW, VH, VPAR, scales of VW and VH, VDH, VDW. -/
def Vocab.rc (v : Vocab) (i : Nat) : BitVec 128 := (v.recs[i]?).getD 0

/-- The records that a `vpj` or `vpjb` captures (R284). -/
def vocRecs (i : LaneIn) (back : Bool) (h w z p : Nat) : List (BitVec 128) :=
  let rw := recOf i w
  let rz := recOf i z
  let extra := fun (n : Nat) => if back then recOf i ((h + n) % 16) else 0
  [recOf i h, rw, rz, recOf i p, if isNarrow (rFmt rw) then recOf i ((w + 1) % 16) else 0,
   if isNarrow (rFmt rz) then recOf i ((z + 1) % 16) else 0,
   if rKind (extra 1) == 0 then 0 else extra 1, if rKind (extra 2) == 0 then 0 else extra 2]

/-- The SHAPE_MISMATCH detail of the records of a `vpj` or `vpjb`, 0 where they pass (R275). DEDUCED (log 84): the ROWS of a VSC record are
those of the record it scales, NB for a VW. -/
def vocDetail (back : Bool) (v : Vocab) : Nat :=
  let x := v.rc 0
  let w := v.rc 1
  let z := v.rc 2
  let p := v.rc 3
  let ws := v.rc 4
  let zs := v.rc 5
  let dh := v.rc 6
  let dw := v.rc 7
  let nw := isNarrow (rFmt w)
  let nz := isNarrow (rFmt z)
  let h := rCols w
  firstDetail [checkVoc w 8 [0, 2], checkVoc z 9 [1], if rKind p == 6 || rKind p == 7 then 6 else if rKind p != 11 then 1 else 0,
    if back then checkVoc x 13 [1, 2] else checkVoc x 12 [1], if nw then checkVoc ws 10 [0, 2] else 0, if nz then checkVoc zs 10 [1] else 0,
    if dh == 0 then 0 else checkVoc dh 14 [1], if dw == 0 then 0 else checkVoc dw 15 [0, 2],
    if compatible (rFmt w) (rFmt z) && (!nw || rFmt ws == rFmt w) && (!nz || rFmt zs == rFmt z) then 0 else 3,
    if rCols z != h || (nw && rCols ws != h) || (nz && rCols zs != h) || rRows x != rRows z ||
        (dh != 0 && (rCols dh != h || rRows dh != rRows z)) || rStride w < rowBytes (rFmt w) h || rStride z < rowBytes (rFmt z) h ||
        (nw && rStride ws < sclBytes (rFmt w) h) || (nz && rStride zs < sclBytes (rFmt z) h) || rStride x < 128 + 8 * rCols x ||
        (dh != 0 && rStride dh < 4 * h) || (dw != 0 && rStride dw < rowBytes (rFmt dw) h) || (!pMode p && rCols x < pK p) then 4 else 0,
    if !vparOk p (rRows w) || (nw && rRows ws != rRows w) || (nz && rRows zs != rRows z) || (dw != 0 && rCols dw != h) then 6 else 0]

/-- The first L or D range of a list of records, each with its rows and row bytes, that leaves its bound. -/
def vocBound (s : State) (ln : Lane) (l : List (BitVec 128 × Nat × Nat)) : Option (Code × Nat × Nat) :=
  l.findSome? fun (r, rows, n) => if r == 0 then none else recBound s ln r ((List.range rows).map fun i => (((i * rStride r : Nat) : Int), n))

/-- The bound check of the records of a `vpj` or `vpjb` (R285). -/
def vocRanges (s : State) (ln : Lane) (v : Vocab) : Option (Code × Nat × Nat) :=
  let h := rCols (v.rc 1)
  let nb := rRows (v.rc 1)
  let b := rRows (v.rc 2)
  vocBound s ln [(v.rc 0, b, 128 + 8 * rCols (v.rc 0)), (v.rc 1, 32 * nb, rowBytes (rFmt (v.rc 1)) h), (v.rc 2, b, rowBytes (rFmt (v.rc 2)) h),
    (v.rc 4, 32 * nb, sclBytes (rFmt (v.rc 1)) h), (v.rc 5, b, sclBytes (rFmt (v.rc 2)) h), (v.rc 6, b, 4 * h),
    (v.rc 7, 32 * nb, rowBytes (rFmt (v.rc 7)) h)]

/-! ### Memory -/

/-- The instruction as an agent of no thread: its accesses wait for copies in progress (R264, R286). -/
def vocAgent (s : State) (pc : Nat) : CopyEntry :=
  { id := s.nextId, wslot := 2 ^ 20, tid := 0, sub := vocSub, f := drainF, x := 0, y := 0, desc := [], st := .active, pc := pc, own := s.nextId }

/-- Ranges of records read, or the first that stops: lines of D and G from one snapshot each (R261, R286), lines of L as they stand (R264). -/
def vocReadsFrom (s : State) (ln : Lane) (snaps : List (Nat × Option Nat)) :
    List (BitVec 128 × Nat × Nat) → State × List (Nat × Option Nat) × Except EngStop (List Nat)
  | [] => (s, snaps, .ok [])
  | (r, off, n) :: rest =>
    let me := { vocAgent s 0 with snaps := if rSpace r == 1 then [] else snaps }
    match s.engSource ln me (recTgt ln r off) (recAddr r 0) (n / 128 + 2) n with
    | (s, me, res) =>
      let snaps := if rSpace r == 1 then snaps else me.snaps
      match res with
      | .error e => (s, snaps, .error e)
      | .ok none => (s, snaps, .error .lost)
      | .ok (some v) =>
        match vocReadsFrom s ln snaps rest with
        | (s, snaps, .error e) => (s, snaps, .error e)
        | (s, snaps, .ok l) => (s, snaps, .ok (v :: l))

/-- Ranges of records read at once. -/
def vocReads (s : State) (ln : Lane) (l : List (BitVec 128 × Nat × Nat)) : State × Except EngStop (List Nat) :=
  let r := vocReadsFrom s ln [] l
  (r.1, r.2.2)

/-- The places of `n` bytes to be written, line by line, with their values. The fuel bounds the lines. -/
def vocPieces (s : State) (ln : Lane) (t : Tgt) (addr : Nat) : Nat → Nat → Nat → State × Except EngStop (List (Loc × Nat × Nat))
  | 0, _, _ => (s, .ok [])
  | fuel + 1, n, v =>
    if n == 0 then (s, .ok [])
    else
      let m := min n (128 - t.off % 128)
      match s.engLoc ln (vocAgent s 0) t addr m .write with
      | (s, .error e) => (s, .error e)
      | (s, .ok l) =>
        match vocPieces (s.chargeLoc ln.r.core.pkg ln.g.part l) ln (t.add m) addr fuel (n - m) (v / 2 ^ (8 * m)) with
        | (s, .error e) => (s, .error e)
        | (s, .ok rest) => (s, .ok ((l, m, v % 2 ^ (8 * m)) :: rest))

/-- The places of several ranges of records to be written, with their values. -/
def vocPlaces (s : State) (ln : Lane) : List (BitVec 128 × Nat × Nat × Nat) → State × Except EngStop (List (Loc × Nat × Nat))
  | [] => (s, .ok [])
  | (r, off, n, v) :: rest =>
    match vocPieces s ln (recTgt ln r off) (recAddr r 0) (n / 128 + 2) n v with
    | (s, .error e) => (s, .error e)
    | (s, .ok l) =>
      match vocPlaces s ln rest with
      | (s, .error e) => (s, .error e)
      | (s, .ok l') => (s, .ok (l ++ l'))

/-- Places written. -/
def writePieces (s : State) (l : List (Loc × Nat × Nat)) : State := l.foldl (fun s p => s.writeLoc p.1 p.2.1 p.2.2) s

/-- Word `i` of an integer. -/
def word (v i : Nat) : Nat := v / 2 ^ (32 * i) % 2 ^ 32

/-- Words joined, the first lowest. -/
def joinWords : List Nat → Nat
  | [] => 0
  | w :: ws => w % 2 ^ 32 + 2 ^ 32 * joinWords ws

/-! ### Row blocks and heaps (R276, R277, R282) -/

/-- A row block as read: the row's state, the header's reserved fields, and its form, c, Δ and count. -/
structure RowBlk where
  st : RowSt
  res : Nat
  form : Nat
  c : Nat
  delta : Nat
  cnt : Nat
  deriving DecidableEq, Repr

/-- A row block's header and heap read from their bytes (R276). -/
def parseRow (v cap : Nat) : RowBlk :=
  let cnt := word v 3
  { st := { m := word v 0, s := word v 1, lmax := word v 2, lmask := word v 4, rlo := word v 5, rhi := word v 6,
            lidx := (List.range 8).map fun j => word v (16 + j), llog := (List.range 8).map fun j => word v (24 + j),
            heap := (List.range (min cnt cap)).map fun j => (word v (32 + 2 * j), word v (33 + 2 * j)) },
    res := bits v 511 320 + bits v 255 254, form := word v 7, c := word v 8, delta := word v 9, cnt := cnt }

/-- Whether a heap entry is better than another (R277). -/
def better (a b : Nat × Nat) : Bool :=
  match (f32 a.1).isNan, (f32 b.1).isNan with
  | true, true => a.2 < b.2
  | true, false => false
  | false, true => true
  | false, false => Fp.lt (f32 b.1) (f32 a.1) || (!Fp.lt (f32 a.1) (f32 b.1) && a.2 < b.2)

/-- A heap best first. -/
def bestFirst (h : List (Nat × Nat)) : List (Nat × Nat) := sortBy (fun a b => !better b a) h

/-- A heap reduced (R282): the `k` best, or those with logits of at least T. -/
def reduceHeap (mode : Bool) (k lmax delta : Nat) (h : List (Nat × Nat)) : List (Nat × Nat) :=
  if mode then
    let t := f32 (faddR fp32 .rne (f32 lmax) (f32 delta).negate).1
    bestFirst (h.filter fun x => !(f32 x.1).isNan && !t.isNan && !Fp.lt (f32 x.1) t)
  else (bestFirst h).take k

/-- A heap's bytes, a NaN written canonical. -/
def heapBytes (h : List (Nat × Nat)) : Nat :=
  joinWords (h.flatMap fun x => [if (f32 x.1).isNan then fp32.nan else x.1, x.2])

/-- What a row block's write stores, by offset, size and value: all but LIDX and the entries above CNT (R276, R283). -/
def rowWrites (r : BitVec 128) (i : Nat) (st : RowSt) (form c delta nlab : Nat) : List (BitVec 128 × Nat × Nat × Nat) :=
  let o := i * rStride r
  let llog := (List.range 8).map fun j => if j < nlab then (st.llog[j]?).getD 0 else 0
  let n := st.heap.length
  [(r, o, 64, joinWords ([st.m, st.s, st.lmax, n, st.lmask, st.rlo, st.rhi, form, c, delta, 0, 0, 0, 0, 0, 0])),
   (r, o + 96, 32, joinWords llog)] ++ (if n == 0 then [] else [(r, o + 128, 8 * n, heapBytes (bestFirst st.heap))])

/-! ### A block folded in (R280-R283) -/

/-- FP32 operations rounded to nearest even. -/
def fadd32 (a b : Nat) : Nat := (faddR fp32 .rne (f32 a) (f32 b)).1
def fsub32 (a b : Nat) : Nat := (faddR fp32 .rne (f32 a) (f32 b).negate).1
def fmul32 (a b : Nat) : Nat := (fmulR fp32 .rne (f32 a) (f32 b)).1
def fexp2 (a : Nat) : Nat := (exp2Code a).1

/-- The values of a row of `h` elements with its scale row (R102, R273). -/
def rowVals (fmt data scl h : Nat) : List Fp :=
  (List.range h).map fun i =>
    let b := i / 32
    matValue fmt (elemAt fmt data i) (if fmt == 6 then scl / 2 ^ (16 * b) % 256 else scl / 2 ^ (8 * b) % 256)
      (if fmt == 6 then scl / 2 ^ (16 * b + 8) % 256 else 0)

/-- The logit of a hidden row and an entry (R280). -/
def logit (ks : Nat) (hd w : List Fp) : Nat :=
  (List.range (hd.length / ks)).foldl (fun acc j =>
    rne32 (Fp.add false (f32 acc) (dotExact (((hd.drop (j * ks)).take ks).zip ((w.drop (j * ks)).take ks))))) 0

/-- One level of the pairwise tree. -/
def pairUp : List Nat → List Nat
  | a :: b :: rest => fadd32 a b :: pairUp rest
  | l => l

/-- A state's sum brought to a new maximum; an empty state gives +0 (R281, R289). -/
def rescale (m s mn : Nat) : Nat := if m == 0xFF800000 then 0 else fmul32 s (fexp2 (fsub32 m mn))

/-- The normaliser after the scaled logits of a block (R281). -/
def normStep (m s : Nat) (zs : List Nat) : Nat × Nat :=
  if (f32 m).isNan || zs.any fun z => !finite32 z then (fp32.nan, fp32.nan)
  else
    let mn := zs.foldl (fmaxC fp32) m
    let t := pairUp (pairUp (pairUp (pairUp (pairUp (zs.map fun z => fexp2 (fsub32 z mn))))))
    (mn, fadd32 (rescale m s mn) ((t.head?).getD 0))

/-- A row after a block whose first index is `first` (R281-R283). -/
def rowStep (p : BitVec 128) (first : Nat) (lg : List Nat) (st : RowSt) : RowSt :=
  let (m, s) := normStep st.m st.s (lg.map fun l => fmul32 (pC p) l)
  let ents := (lg.zipIdx.map fun x => (x.1, first + x.2)).filter fun x => !(f32 x.1).isNan
  let lmax := ents.foldl (fun a x => fmaxC fp32 a x.1) st.lmax
  let found := (List.range (pNlab p)).filter fun j => let v := (st.lidx[j]?).getD 0; first ≤ v && v < first + 32
  { st with m := m, s := s, lmax := lmax, heap := reduceHeap (pMode p) (pK p) lmax (pDelta p) (st.heap ++ ents),
            llog := found.foldl (fun l j => l.set j ((lg[(st.lidx[j]?).getD 0 - first]?).getD 0)) st.llog,
            lmask := found.foldl (fun a j => a ||| 2 ^ j) st.lmask }

/-! ### Issue (R285) -/

/-- Whether the issuing group is complete (R246, R285). -/
def fullGroup (x : Iss) : Bool := x.g.members.length == 32 && x.active.length == 32

/-- The vocabulary state of the context on a core changed. -/
def modVoc (s : State) (c : CoreRef) (f : Vocab → Vocab) : State := s.modCtx c fun k => { k with voc := f k.voc }

/-- The block step of a core's projection posted. -/
def vocPost (s : State) (c : CoreRef) : State :=
  match (s.core c).ctx with
  | none => s
  | some k => if k.voc.st == .active && k.voc.result.isNone && k.st != .halted then s.postOnce (.vocabBlockFold c) else s

/-- The number of a trap code that a projection ends with. -/
def vocCode (n : Nat) : Code := if n == Code.heap.num then .heap else .copyFault

/-- The returns of the HEAP_SPILL handlers of a list of threads moved to the address after the `vpj` (R288), in each thread's link entry of
its handler, or the wait that reaching a frame meets; DESIGN CHOICE (log 85): a frame that a first-stage failure hides stays as it is. -/
def moveReturns (x : Iss) (pc next : Nat) (s : State) : List Nat → Except (Stall × State) State
  | [] => .ok s
  | tid :: rest =>
    match s.laneOf (x.ref tid) with
    | none => moveReturns x pc next s rest
    | some ln =>
      if !ln.t.inHandler || ln.t.faultTrap != Code.heap.num || ln.t.fault.pc != pc then moveReturns x pc next s rest
      else
        let base := ln.g.lrec.rstack - 4 * ln.t.entryLinks
        match s.spill ln [(base, next % 2 ^ 32), (base + 1, next / 2 ^ 32 % 2 ^ 32)] with
        | (s, .ok ()) => moveReturns x pc next s rest
        | (s, .error (.stage2 va ipa k)) => .error (.stage2, s.noteStage2 ln.r false va ipa k)
        | (s, .error .owned) => .error (.recall, s)
        | (_, .error _) => moveReturns x pc next s rest

/-- A vocabulary instruction that acts on the unit (R285): its group's own projection ends here with what it left; a new one is checked at
issue, captures its records (R275), waits for the sequencer, and begins; a trap that it meets then leaves a suspended projection as it was. -/
def execVoc (e : Bool) (b : Beside) (check : Iss → LaneIn → State → Except (Code × Nat × Nat) Vocab)
    (begin_ : Iss → LaneIn → State → Vocab → UnitRes) : Meaning :=
  execUnitAt true e b {} fun x i s =>
    if x.k.voc.st == .active && x.k.voc.group == x.g.slot then
      match x.k.voc.result with
      | none => .wait s .vocab
      | some (0, _, _) =>
        match (if x.k.voc.resumed then moveReturns x x.k.voc.pc x.k.voc.next s x.active else .ok s) with
        | .error (why, s) => .wait s why
        | .ok s => .ok ((modVoc s x.c fun _ => {}).wakeAll x.c fun w => w == .vocab)
      | some (code, d, a) =>
        let cc := vocCode code
        .again (trapOnce s x e (fun t => { tid := t, code := cc, detail := d, addr := a, xpc := if cc == .copyFault then x.upc else 0,
                                           pc := x.upc, ret := x.upc, lane := some 0 })
          fun s => (modVoc s x.c fun v => if cc == .heap then { v with st := .suspended, result := none, resumed := false } else {}).wakeAll x.c fun w => w == .vocab)
    else if !fullGroup x then .trap .group 1 0 0
    else
      let mine := x.k.vwait.bind fun v => if v.group == x.g.slot && v.tid == i.ln.t.tid && x.g.hint.why != .none then some v else none
      let captured : Except (Code × Nat × Nat) Vocab := match mine with
        | some v => .ok v
        | none => check x i s
      match captured with
      | .error (c, d, a) => .trap c d a 0
      | .ok v =>
        let wait := fun (w : Option Vocab) (s : State) => s.modCtx x.c fun k => { k with vwait := w }
        if !x.k.mtx.queue.isEmpty then .wait (wait (some v) (claim s x.c x.g.wslot)) .matrix
        else
          match begin_ x i (wait none s) v with
          | .ok s => .ok (s.wakeAll x.c fun w => w == Stall.vocab)
          | .trap c d a p =>
            let s := (wait none s).trapAll x e x.active fun t =>
              { tid := t, code := c, detail := d, addr := a, xpc := p, pc := x.upc, ret := x.upc, lane := some 0 }
            .again (s.wakeAll x.c fun w => w == Stall.vocab)
          | .wait s .recall => .wait (wait (some v) s) .recall
          | r => r

/-- The trap, wait or loss that a read of row blocks at issue ends in. -/
def vocStop (x : Iss) (s : State) (w : EngStop) : UnitRes :=
  match w with
  | .fault d a => .trap .copyFault d a x.upc
  | .wait => .wait s .recall
  | .lost => .again (s.loseBlock x.c x.k.gen x.g.wslot 1)

/-- The row blocks of an area read. -/
def readRows (s : State) (ln : Lane) (r : BitVec 128) : State × Except EngStop (List RowBlk) :=
  let n := 128 + 8 * rCols r
  match vocReads s ln ((List.range (rRows r)).map fun i => (r, i * rStride r, n)) with
  | (s, .error e) => (s, .error e)
  | (s, .ok l) => (s, .ok (l.map fun v => parseRow v (rCols r)))

/-- A projection begun: the group stalls until the engine is done with it. -/
def beginVoc (x : Iss) (s : State) (v : Vocab) : UnitRes :=
  .wait (vocPost (modVoc (claim s x.c x.g.wslot) x.c fun _ => { v with st := .active, result := none }) x.c) .vocab

/-- `vpj` and `vpjb` (R287, R291). -/
def projUnit (e back : Bool) (h w z p : Nat) : Meaning :=
  execVoc e .never (fun x i s =>
    let v : Vocab := { recs := vocRecs i back h w z p, back := back, group := x.g.slot, tid := i.ln.t.tid, pc := x.upc, next := x.next }
    let det := vocDetail back v
    if det != 0 then .error (.shape, det, 0)
    else
      match vocRanges s i.ln v with
      | some t => .error t
      | none => .ok v) fun x i s v =>
    let par := v.rc 3
    let b := rRows (v.rc 2)
    if !back then
      match vocReads s i.ln ((List.range b).map fun r => (v.rc 0, r * rStride (v.rc 0) + 64, 32)) with
      | (s, .error stop) => vocStop x s stop
      | (s, .ok ls) =>
        let rows := ls.map fun l =>
          ({ m := 0xFF800000, s := 0, lmax := 0xFF800000, rlo := pRank par, rhi := pRank par,
             llog := (List.range 8).map fun j => if j < pNlab par then fp32.nan else 0,
             lidx := (List.range 8).map fun j => word l j } : RowSt)
        beginVoc x s { v with rows := rows }
    else
      match vocReads s i.ln ((List.range b).map fun r => (v.rc 0, r * rStride (v.rc 0), 96)) with
      | (s, .error stop) => vocStop x s stop
      | (s, .ok ls) =>
        -- header words of R278: LSE, CNT, LMASK, RLO, RHI, FORM, C, DELTA, then LIDX; FORM's reserved bits are 0 (R279)
        let bad := ls.any fun l =>
          let form := word l 5
          form / 2 ^ 30 != 0 || form % 8 != rFmt (v.rc 1) || form / 8 % 8 != rFmt (v.rc 2) || form / 2 ^ 18 % 4096 != rCols (v.rc 1) / 16 ||
            word l 6 != pC par || pRank par < word l 3 || word l 4 < pRank par
        if bad then .trap .shape 10 0 0
        else beginVoc x s { v with rows := ls.map fun l =>
          { lse := word l 0, nlab := word l 5 / 2 ^ 7 % 16, lidx := (List.range 8).map fun j => word l (8 + j) } }

/-- `vpj` (R287). -/
def execVpj (e : Bool) (h w z p : BitVec 4) : Meaning := projUnit e false h.toNat w.toNat z.toNat p.toNat

/-- `vpjb` (R291). -/
def execVpjb (e : Bool) (h w z p : BitVec 4) : Meaning := projUnit e true h.toNat w.toNat z.toNat p.toNat

/-- Two rows of `vmrg` folded (R289). -/
def mergeRows (d src : RowBlk) : RowSt :=
  let a := d.st
  let b := src.st
  let (m, s) := if (f32 a.m).isNan || (f32 b.m).isNan then (fp32.nan, fp32.nan)
    else let mn := fmaxC fp32 a.m b.m; (mn, fadd32 (rescale a.m a.s mn) (rescale b.m b.s mn))
  let nlab := d.form / 2 ^ 7 % 16
  let lmax := fmaxC fp32 a.lmax b.lmax
  { a with m := m, s := s, lmax := lmax, heap := reduceHeap (bit d.form 6) (d.form / 2 ^ 11 % 128) lmax d.delta (a.heap ++ b.heap),
           llog := (List.range 8).map fun j =>
             if j < nlab && bit b.lmask j && !bit a.lmask j then (b.llog[j]?).getD 0 else (a.llog[j]?).getD 0,
           lmask := a.lmask ||| b.lmask, rhi := b.rhi }

/-- The checks that two areas' records make together (R275). -/
def areaDetail (x y : BitVec 128) (kx : Nat) (spx : List Nat) : Nat :=
  firstDetail [checkVoc x kx spx, checkVoc y 12 [1], if rRows x != rRows y || rStride x < 128 + 8 * rCols x || rStride y < 128 + 8 * rCols y then 4 else 0]

/-- The row and the largest count of the rows that exceed a capacity, as HEAP_SPILL names them (R287, R289). -/
def overCap (cap block : Nat) (counts : List Nat) : Option (Nat × Nat) :=
  match counts.findIdx? fun n => cap < n with
  | some r => some (r, block + 2 ^ 32 * counts.foldl max 0)
  | none => none

/-- The records of two areas checked and captured (R275, R285). -/
def areaCheck (kx : Nat) (spx : List Nat) (h y : Nat) (x : Iss) (i : LaneIn) (s : State) : Except (Code × Nat × Nat) Vocab :=
  let rx := recOf i h
  let ry := recOf i y
  let det := areaDetail rx ry kx spx
  if det != 0 then .error (.shape, det, 0)
  else
    match vocBound s i.ln [(rx, rRows rx, 128 + 8 * rCols rx), (ry, rRows ry, 128 + 8 * rCols ry)] with
    | some t => .error t
    | none => .ok { x.k.voc with recs := [rx, ry], group := x.g.slot, tid := i.ln.t.tid }

/-- `vmrg` (R289): all rows checked, then all folded, in one step. -/
def execVmrg (e : Bool) (h y : BitVec 4) : Meaning :=
  execVoc e .never (areaCheck 12 [1] h.toNat y.toNat) fun x i s v =>
    let rd := v.rc 0
    let rs := v.rc 1
    match readRows s i.ln rd with
    | (s, .error w) => vocStop x s w
    | (s, .ok ds) =>
      match readRows s i.ln rs with
      | (s, .error w) => vocStop x s w
      | (s, .ok ss) =>
        let both := ds.zip ss
        let head := both.any fun (d, t) =>
          let nlab := d.form / 2 ^ 7 % 16
          d.res + t.res != 0 || d.form != t.form || d.c != t.c || d.delta != t.delta || d.st.lidx.take nlab != t.st.lidx.take nlab ||
            rCols rd < d.cnt || rCols rs < t.cnt
        let rank := both.any fun (d, t) => t.st.rlo != t.st.rhi || t.st.rlo != d.st.rhi + 1
        if head then .trap .shape 8 0 0
        else if rank then .trap .shape 9 0 0
        else
          let rows := both.map fun (d, t) => mergeRows d t
          match overCap (rCols rd) 0 (rows.map fun r => r.heap.length) with
          | some (r, a) => .trap .heap r a 0
          | none =>
            let ws := (rows.zip ds).zipIdx.flatMap fun ((st, d), n) => rowWrites rd n st d.form d.c d.delta (d.form / 2 ^ 7 % 16)
            match vocPlaces s i.ln ws with
            | (s, .error w) => vocStop x s w
            | (s, .ok l) => .ok (writePieces s l)

/-- The final row block's bytes of a row (R278, R290). -/
def finalBytes (b : RowBlk) : Nat :=
  let st := b.st
  let nlab := b.form / 2 ^ 7 % 16
  let lse := fadd32 st.m (flg2R .rne (f32 st.s)).1
  let slot := fun (f : Nat → Nat) => (List.range 8).map fun j => if j < nlab then f j else 0
  let loss := slot fun j => if bit st.lmask j then fsub32 lse (fmul32 b.c ((st.llog[j]?).getD 0)) else fp32.nan
  joinWords ([lse, b.cnt, st.lmask, st.rlo, st.rhi, b.form, b.c, b.delta] ++ slot (fun j => (st.lidx[j]?).getD 0) ++
    slot (fun j => (st.llog[j]?).getD 0) ++ loss) + 2 ^ 1024 * heapBytes (bestFirst st.heap)

/-- `vfin` (R290). -/
def execVfin (e : Bool) (h y : BitVec 4) : Meaning :=
  execVoc e .never (areaCheck 13 [1, 2] h.toNat y.toNat) fun x i s v =>
    let rf := v.rc 0
    let rs := v.rc 1
    match readRows s i.ln rs with
    | (s, .error w) => vocStop x s w
    | (s, .ok rows) =>
      if rows.any fun r => r.res != 0 || rCols rs < r.cnt then .trap .shape 8 0 0
      else
        match overCap (rCols rf) 0 (rows.map fun r => r.cnt) with
        | some (r, a) => .trap .heap r a 0
        | none =>
          match vocPlaces s i.ln (rows.zipIdx.map fun (r, n) => (rf, n * rStride rf, 128 + 8 * r.cnt, finalBytes r)) with
          | (s, .error w) => vocStop x s w
          | (s, .ok l) => .ok (writePieces s l)

/-- `vrsm` (R288): the suspended projection goes on with the rows of an area as they stand. -/
def execVrsm (e : Bool) (h : BitVec 4) : Meaning :=
  execVoc e .suspended (fun x i s =>
    if x.k.voc.st != .suspended then .error (.group, 4, 0)
    else
      let v := x.k.voc
      let r := recOf i h.toNat
      let det := firstDetail [checkVoc r 12 [1], if rRows r != v.rows.length || rStride r < 128 + 8 * rCols r then 4 else 0]
      if det != 0 then .error (.shape, det, 0)
      else
        match vocBound s i.ln [(r, rRows r, 128 + 8 * rCols r)] with
        | some t => .error t
        | none => .ok { v with recs := r :: v.recs.drop 1, group := x.g.slot, tid := i.ln.t.tid, resumed := true }) fun x i s v =>
    let r := v.rc 0
    match readRows s i.ln r with
    | (s, .error w) => vocStop x s w
    | (s, .ok bs) =>
      if bs.any fun b => b.res != 0 || rCols r < b.cnt then .trap .shape 8 0 0
      else
        let rows := (bs.zip v.rows).map fun (b, old) =>
          { old with m := b.st.m, s := b.st.s, lmax := b.st.lmax, lmask := b.st.lmask, llog := b.st.llog, heap := b.st.heap }
        beginVoc x s { v with rows := rows }

/-! ### The engine's blocks (R287, R291-R293) -/

/-- The projection of a core over, with what its group gets: the B-store reads as at a claim, and the group looks again;
a group that is gone leaves nothing behind. -/
def endVoc (s : State) (c : CoreRef) (k : Ctx) (res : Nat × Nat × Nat) : State :=
  let s := (modMtx (s.dropKept c 0) c fun m => { m with bdata := [], bscale := [], bout := [] }).wakeRecalls
  match k.group k.voc.group, k.mtx.holder with
  | some g, _ => (modVoc s c fun v => { v with result := some res }).clearStall c k.gen g.slot
  | none, some w => (modVoc s c fun _ => {}).reapWg c k.gen w
  | none, none => modVoc s c fun _ => {}

/-- A `vpj`'s rows written back, and its end (R287). -/
def endProj (s : State) (c : CoreRef) (k : Ctx) (ln : Lane) (res : Nat × Nat × Nat) : State :=
  let v := k.voc
  if v.back then endVoc s c k res
  else
    let p := v.rc 3
    let ws := v.rows.zipIdx.flatMap fun (st, n) => rowWrites (v.rc 0) n st (formOf (v.rc 1) (v.rc 2) p) (pC p) (pDelta p) (pNlab p)
    match vocPlaces s ln ws with
    | (s, .ok l) => endVoc (writePieces s l) c k res
    | (s, .error _) => vocPost s c

/-- The next block, after this one. -/
def nextBlock (s : State) (c : CoreRef) (f : Vocab → Vocab) : State := vocPost (modVoc s c fun v => { f v with block := v.block + 1 }) c

/-- The gradient g of a row's entry (R291). -/
def gradOf (p : BitVec 128) (st : RowSt) (v lg : Nat) : Nat :=
  let cnt := ((st.lidx.take st.nlab).filter fun x => x == v).length
  let y := if st.nlab == 0 || cnt == 0 then 0 else rne32 (sticky false (cnt * 2 ^ 64 / st.nlab) (-64) (cnt * 2 ^ 64 % st.nlab == 0))
  fmul32 (pC p) (fsub32 (fexp2 (fsub32 (fmul32 (pC p) lg) st.lse)) y)

/-- What a block of a `vpjb` writes (R291): VDH rows accumulated on what they hold, and VDW rows. -/
def gradWrites (v : Vocab) (hs ws : List (List Fp)) (gs : List (List Nat)) (dh : List Nat) : List (BitVec 128 × Nat × Nat × Nat) :=
  let h := rCols (v.rc 1)
  let out := rFmt (v.rc 7)
  let ob := fmtBits out
  let hout := if v.rc 6 == 0 then [] else (gs.zip dh).zipIdx.map fun ((g, old), i) =>
    (v.rc 6, i * rStride (v.rc 6), 4 * h, joinWords ((List.range h).map fun k =>
      rne32 (Fp.add false (f32 (word old k)) (dotExact ((g.zip ws).map fun x => (f32 x.1, (x.2[k]?).getD .nan))))))
  let wout := if v.rc 7 == 0 then [] else (List.range 32).map fun e =>
    (v.rc 7, (32 * v.block + e) * rStride (v.rc 7), h * ob / 8, (List.range h).foldl (fun a k =>
      a + ((fmtOf out).round .rne (dotExact ((gs.zip hs).map fun x => (f32 ((x.1[e]?).getD 0), (x.2[k]?).getD .nan)))).1 * 2 ^ (ob * k)) 0)
  hout ++ wout

/-- What a block of a projection reads (R280, R291): 32 rows of the weights, the hidden rows, their scales, and the gradients so far. -/
def blockReads (v : Vocab) : List (BitVec 128 × Nat × Nat) :=
  let w := v.rc 1
  let z := v.rc 2
  let h := rCols w
  let ents := List.range 32
  let bs := List.range (rRows z)
  (ents.map fun e => (w, (32 * v.block + e) * rStride w, rowBytes (rFmt w) h)) ++
    (if isNarrow (rFmt w) then ents.map fun e => (v.rc 4, (32 * v.block + e) * rStride (v.rc 4), sclBytes (rFmt w) h) else []) ++
    (bs.map fun i => (z, i * rStride z, rowBytes (rFmt z) h)) ++
    (if isNarrow (rFmt z) then bs.map fun i => (v.rc 5, i * rStride (v.rc 5), sclBytes (rFmt z) h) else []) ++
    (if v.back && v.rc 6 != 0 then bs.map fun i => (v.rc 6, i * rStride (v.rc 6), 4 * h) else [])

/-- Where the hidden rows, their scales and the gradients begin in what was read. -/
def hidAt (v : Vocab) : Nat := if isNarrow (rFmt (v.rc 1)) then 64 else 32
def gradAt (v : Vocab) : Nat := hidAt v + rRows (v.rc 2) + if isNarrow (rFmt (v.rc 2)) then rRows (v.rc 2) else 0

/-- The weights and the hidden rows of a block as values (R280). -/
def blockW (v : Vocab) (ds : List Nat) : List (List Fp) :=
  (List.range 32).map fun e => rowVals (rFmt (v.rc 1)) ((ds[e]?).getD 0) (if isNarrow (rFmt (v.rc 1)) then (ds[32 + e]?).getD 0 else 0) (rCols (v.rc 1))
def blockH (v : Vocab) (ds : List Nat) : List (List Fp) :=
  (List.range (rRows (v.rc 2))).map fun i => rowVals (rFmt (v.rc 2)) ((ds[hidAt v + i]?).getD 0)
    (if isNarrow (rFmt (v.rc 2)) then (ds[hidAt v + rRows (v.rc 2) + i]?).getD 0 else 0) (rCols (v.rc 1))

/-- The logits of a block, row by row (R281). -/
def blockLogits (v : Vocab) (ds : List Nat) : List (List Nat) :=
  (blockH v ds).map fun hd => (blockW v ds).map fun wr => logit (kStep (rFmt (v.rc 1))) hd wr

/-- The rows of a `vpj` after a block (R282, R287). -/
def blockRows (v : Vocab) (ds : List Nat) : List RowSt :=
  (v.rows.zip (blockLogits v ds)).map fun x => rowStep (v.rc 3) (pVbase (v.rc 3) + 32 * v.block) x.2 x.1

/-- What a `vpjb` writes after a block (R291). -/
def blockWrites (v : Vocab) (ds : List Nat) : List (BitVec 128 × Nat × Nat × Nat) :=
  gradWrites v (blockH v ds) (blockW v ds)
    ((v.rows.zip (blockLogits v ds)).map fun x => x.2.zipIdx.map fun y => gradOf (v.rc 3) x.1 (pVbase (v.rc 3) + 32 * v.block + y.2) y.1)
    ((List.range (rRows (v.rc 2))).map fun i => (ds[gradAt v + i]?).getD 0)

/-- One block of the projection on a core (R280-R283, R287, R291, R292). -/
def execVocabBlockFold (c : CoreRef) : Meaning := fun s =>
  match (s.core c).ctx with
  | none => .next s
  | some k =>
    let v := k.voc
    if v.st != .active || v.result.isSome || k.st == .halted then .next s
    else
      match k.mtx.holder.bind fun w => s.laneOf { core := c, gen := k.gen, wslot := w, tid := v.tid } with
      | none => .next (modVoc s c fun _ => {})
      | some ln =>
        if rRows (v.rc 1) ≤ v.block then .next (endProj s c k ln (0, 0, 0))
        else
          match vocReadsFrom s ln v.snaps (blockReads v) with
          | (s, _, .error (.fault d a)) => .next (endProj s c k ln (Code.copyFault.num, d, a))
          | (s, snaps, .error .wait) => .next (vocPost (modVoc s c fun v => { v with snaps := snaps }) c)
          | (s, snaps, .error .lost) =>
            let s := seqLost s c k
            .next (nextBlock s c fun v => { v with snaps := snaps, rows := if v.back then v.rows else v.rows.map fun r => { r with lmask := r.lmask ||| 2 ^ 31 } })
          | (s, snaps, .ok ds) =>
            if !v.back then
              let rows := blockRows v ds
              match overCap (rCols (v.rc 0)) v.block (rows.map fun r => r.heap.length) with
              | some (r, a) => .next (endProj s c k ln (Code.heap.num, r, a))
              | none => .next (nextBlock s c fun v => { v with rows := rows, snaps := snaps })
            else
              match vocPlaces s ln (blockWrites v ds) with
              | (s, .error (.fault d a)) => .next (endProj s c k ln (Code.copyFault.num, d, a))
              | (s, .error _) => .next (vocPost (modVoc s c fun v => { v with snaps := snaps }) c)
              | (s, .ok l) => .next (nextBlock (writePieces s l) c fun v => { v with snaps := snaps })

end Sys2Proof.Machine
end

