-- ==== Sys2Proof/Machine/Hint.lean ====
section
/-! DEFINITION. Hint words, and the issue of a unit: boundary traps, fetch, decode, the suitability of hints, and the landing
of lookahead results (R35, R118, R136-R148, R329). -/

namespace Sys2Proof.Machine

open State

/-! ### Hint words (R136, R137) -/

/-- A hint word added to the issuing group's unit; a composition that R137 excludes is ILLEGAL_ENCODING. -/
def execHint (f : Hint → Option Hint) : Meaning := fun s => s.onIssue fun x =>
  match f x.g.hint with
  | none => s.illegal x
  | some h => s.modGroup x.c x.g.slot fun g => { g with hint := { h with words := h.words + 1 } }

/-- `hx`: at most two (R137, R139). -/
def execHx (v : BitVec 22) : Meaning := execHint fun h => if h.hx.length < 2 then some { h with hx := h.hx ++ [v.toNat] } else none

/-- `hp` (R140). -/
def execHp (p : BitVec 3) (n : Bool) : Meaning := execHint fun h => if h.hp.isNone then some { h with hp := some (p.toNat, n) } else none

/-- `hrep` (R141). -/
def execHrep (c : BitVec 8) (d a b : BitVec 2) : Meaning :=
  execHint fun h => if h.hrep.isNone then some { h with hrep := some (c.toNat, d.toNat, a.toNat, b.toNat) } else none

/-- `hmod` (R142). -/
def execHmod (r : Bool) (m : BitVec 3) (p : BitVec 2) : Meaning :=
  execHint fun h => if h.hmod.isNone then some { h with hmod := some (r, m.toNat, p.toNat) } else none

/-! ### Suitability of hints for their target (R139, R141, R142) -/

/-- How many `hx` words a major takes (R122). -/
def hxCount (maj : Nat) : Nat :=
  if maj == 0x0A || (0x10 ≤ maj && maj ≤ 0x15) then 2
  else if (0x04 ≤ maj && maj ≤ 0x07) || maj == 0x09 || (0x0C ≤ maj && maj ≤ 0x0E) then 1 else 0

/-- The width in registers of what a register field names, 0 for a field that names no v register, of the fields D, A
and B. -/
def loadKinds (sz : BitVec 3) : Nat × Nat × Nat := (if sz.toNat == 3 then 2 else if sz.toNat == 4 then 4 else 1, 1, 0)

/-- The fields of an instruction that `hrep` may step (R141). -/
def strideKinds : Instr → Nat × Nat × Nat
  | .addI64 .. | .subI64 .. => (2, 2, 2)
  | .shlB64 .. | .shrB64 .. => (2, 2, 1)
  | .absI32 .. | .negI32 .. | .notB32 .. | .clzB32 .. | .popB32 .. | .brevB32 .. | .movB32 .. | .fabsF32 .. | .fnegF32 .. | .frcpF32 ..
  | .frsqF32 .. | .fsqrF32 .. | .fex2F32 .. | .flg2F32 .. | .fclsF32 .. | .fcvt .. | .fcviI32 .. | .fcviN32 .. | .icvfI32 .. | .icvfN32 ..
  | .qsc .. => (1, 1, 0)
  | .cmpI32 .. | .cmpN32 .. | .fcmpF32 .. => (0, 1, 1)
  | .qcv .. | .qdq .. => (1, 2, 0)
  | .qcvs .. => (1, 4, 0)
  | .pand .. | .por .. | .pxor .. | .pnot .. | .pmov .. => (0, 0, 0)
  | .vmovpToReg .. | .sreg .. | .lim .. => (1, 0, 0)
  | .vmovpToPreds .. | .cmpi .. => (0, 1, 0)
  | .tnow .. | .limB64 .. => (2, 0, 0)
  | .addi .. | .andi .. | .ori .. | .xori .. | .shli .. | .shri .. | .sari .. | .roli .. => (1, 1, 0)
  | .leaL .. | .leaD .. | .leaDDie .. | .leaS .. => (2, 1, 0)
  | .ldl _ _ _ s _ _ | .ldd _ _ _ s _ _ | .lds _ _ _ s _ _ => loadKinds s
  | .stl _ _ _ z _ | .std _ _ _ z _ | .sts _ _ _ z _ => loadKinds z
  | _ => (1, 1, 1)

/-- Whether a stride suits a field: none on a field that names no register, and none that misaligns it. -/
def strideOk (kind code : Nat) : Bool := code == 0 || (kind != 0 && strideOf code % kind == 0)

/-- Whether `hrep` suits its target (R141). -/
def hrepOk (maj w : Nat) (i : Instr) (sd sa sb : Nat) : Bool :=
  let (kd, ka, kb) := strideKinds i
  (maj ≤ 0x0B || (0x10 ≤ maj && maj ≤ 0x15)) && (maj < 0x10 || fld w 6 4 == 0) && strideOk kd sd && strideOk ka sa && strideOk kb sb

/-- Whether a rounding override suits its target (R105, R142, R162, R163). -/
def roundingOk (maj m : Nat) : Instr → Bool
  | .qcvs .. => m == 4
  | .fex2F32 .. | .qox .. => m == 0
  | _ => (maj == 1 || maj == 2) && m < 4

/-- Whether `hmod` suits its target (R142). -/
def hmodOk (maj : Nat) (i : Instr) (re : Bool) (m p : Nat) : Bool :=
  (!re || roundingOk maj m i) && (p == 0 || (0x10 ≤ maj && maj ≤ 0x1C) || maj == 0x1F)

/-- Whether a unit's hints suit the target word `w`, decoded as `i` (R148, step 6). -/
def suits (h : Hint) (w : Nat) (i : Instr) : Bool :=
  let maj := fld w 25 6
  h.hx.length ≤ hxCount maj &&
    (match h.hrep with
     | some (_, sd, sa, sb) => hrepOk maj w i sd sa sb
     | none => true) &&
    match h.hmod with
    | some (re, m, p) => hmodOk maj i re m p
    | none => true

/-- Whether a word is a hint. -/
def isHint (w : Nat) : Bool := fld w 25 6 == 0x3F

/-- Whether a target's unit closes every open lookahead window (R145): the majors of R145, and an atomic that waits for its
own result. -/
def closesWindows (w : Nat) : Bool :=
  let maj := fld w 25 6
  (0x0C ≤ maj && maj ≤ 0x0F) || (0x1D ≤ maj && maj ≤ 0x23) || (0x16 ≤ maj && maj ≤ 0x1C && fld w 3 4 == 0)

/-! ### The issue of a unit -/

/-- What follows when members take boundary traps at a unit (R329): the others go on with the unit, and the run ends when
every member has left for a handler. -/
def afterBoundary (s : State) (x : Iss) (qs : List TrapReq) : State :=
  match (s.core x.c).ctx.bind fun k => k.group x.g.slot with
  | none => s
  | some g =>
    if g.age != x.g.age then s
    else
      let s := s.modGroup x.c x.g.slot fun g => { g with granted := 0, hint := { landed := g.hint.landed, stalled := g.hint.stalled, why := waitsFor x } }
      if x.g.members.all fun t => qs.any fun q => q.tid == t then s.endRun x.c x.g.slot else s

/-- The boundary traps of the issuing group taken, where it has any (R308, R329). -/
def boundaryStep (s : State) (x : Iss) : Option State :=
  let qs := x.g.members.filterMap (boundaryOf x)
  if qs.isEmpty then none
  else
    match qs.findSome? fun q => s.trapWait x q with
    | some (why, note) => some (((note s).stallUnit x why).modGroup x.c x.g.slot fun g => { g with hint := { g.hint with why := waitsFor x } })
    | none =>
      let s := qs.foldl (fun s q => (s.unwait (x.ref q.tid)).modThread x.c x.g.wslot q.tid (clearBoundary q.code)) s
      let s := if qs.any fun q => q.code == .cancel then s.modWg x.c x.g.wslot fun w => { w with cancelled := true } else s
      let s := afterBoundary (s.takeTraps x qs) x qs
      some (if x.k.vwait.isSome then s.wakeAll x.c fun w => w == .vocab else s)

/-- Whether an address lies in the code section of a grid's kernel (R118, R157). -/
def inCode (g : Grid) (a : Nat) : Bool := g.lrec.kimg + 0x40 ≤ a && a + 4 ≤ g.lrec.kimg + 0x40 + g.kern.codesize

/-- The word at the issuing group's next address, or the state after what the fetch met (R118, R138, R404, R439); a miss in the translation
cache stalls the group (R40). -/
def fetchWord (s : State) (x : Iss) : Except State (State × Nat) :=
  let bad := fun (s : State) (c : Code) (d kind : Nat) =>
    s.trapAll x false x.g.members fun t =>
      { tid := t, code := c, detail := d, addr := x.tpc % 2 ^ 56, pc := x.upc, ret := x.upc, kind := kind, va := x.tpc % 2 ^ 56 }
  if !inCode x.grid x.tpc then .error (bad s .illegal 0 0)
  else if s.tlbMiss x.c x.grid.level x.grid.cid x.tpc && !x.g.fillOk then .error (fillStall s x [x.tpc] [] id)
  else
    match (x.g.members.head?).bind fun t => s.laneIn x {} t with
    | none => .error s
    | some i =>
      match s.reach i.ln (.inG x.tpc) x.tpc 4 .fetch with
      | (u, .ok l) =>
        -- the fill that this fetch waited for is spent
        let u := if s.tlbMiss x.c x.grid.level x.grid.cid x.tpc then u.modGroup x.c x.g.slot fun g => { g with fillOk := false } else u
        .ok (u, u.readLoc l 4)
      | (s, .error (.trap c d _)) => .error (bad s c d 0)
      | (s, .error (.xguest _ k _)) => .error (bad s .xlate 0 k)
      | (s, .error (.stage2 va ipa k)) => .error ((s.noteStage2 i.ln.r false va ipa k).stallUnit x .stage2)
      | (s, .error .owned) => .error (s.stallUnit x .recall)
      | (s, .error .lost) => .error (s.loseBlock x.c x.k.gen x.g.wslot 1)

/-- The lookahead results due at the unit landed (R144, R145), or the wait for one that has not arrived. -/
def landUnit (s : State) (x : Iss) (w : Nat) : Except State State :=
  let h := x.g.hint
  if h.landed && !h.stalled then .ok s
  else
    let closing := h.stalled || closesWindows w
    let ths := x.g.members.filterMap fun t => x.w.thread t
    if ths.any fun t => t.missing closing then .error (s.stallUnit x .result)
    else
      let s := x.g.members.foldl (fun s t => s.modThread x.c x.g.wslot t fun th => th.landDue closing) s
      .ok (s.modGroup x.c x.g.slot fun g => { g with hint := { g.hint with landed := true, stalled := false } })

/-- The next word of the issuing group fetched and made ready: the state in which its instruction is carried out, or the
state after what came before it (R148). -/
def issueWord (s : State) (x : Iss) : State × Option Instr :=
  match boundaryStep s x with
  | some s => (s, none)
  | none =>
    if x.g.run != 0 && 24 < x.g.run + x.g.hint.words + 1 then
      ((s.modGroup x.c x.g.slot fun g => { g with hint := {} }).endRun x.c x.g.slot, none)
    else
      match fetchWord s x with
      | .error s => (s, none)
      | .ok (s, w) =>
        match decodeWord x.g.hint.hx.length w with
        | .error _ => (s.illegal x, none)
        | .ok i =>
          if isHint w then (s, some i)
          else if !suits x.g.hint w i then (s.illegal x, none)
          else
            match landUnit s x w with
            | .error s => (s, none)
            | .ok s => (s, some i)

/-- Whether a thread's lookahead window of a load is open (R146). -/
def windowOpen (t : Thread) : Bool := t.owed.any fun o => o.id == 0 && o.left != 0

/-- Whether a running group's window of a load keeps its context from halting (R146). -/
def openLoad (g : Group) (w : Workgroup) : Bool := g.st == .running && g.members.any fun t => match w.thread t with
  | some th => windowOpen th
  | none => false

/-- Whether a group may issue in its context's state: while the context halts, only to close a window (R146, R354). -/
def mayIssue (k : Ctx) (g : Group) (w : Workgroup) : Bool :=
  g.st == .running && !k.bgAway && (k.st == .running || (k.st == .halting && openLoad g w))

/-- The group in a slot of a core issues its next word. -/
def issue (s : State) (c : CoreRef) (slot : Nat) : State × Option Instr :=
  let s := { s with cur := some (c, slot) }
  match s.issuing with
  | some x => if (s.core c).stopped || !mayIssue x.k x.g x.w then (s, none) else issueWord s x
  | none => (s, none)

end Sys2Proof.Machine
end

