-- ==== Sys2Proof/Machine/Launch.lean ====
section
/-! DEFINITION. Launching a grid: its record and checks, its region tree, dealing, cancellation and completion, and the grid
instructions `glch`, `gcan`, `gwt` and `gqy` (R294-R315). -/

namespace Sys2Proof.Machine

open State

/-! ### G as a dispatcher or an engine reaches it -/

/-- The physical address of a G address under a level and CID, or why there is none. -/
def gPa (s : State) (level cid va : Nat) (a : Acc) : Except XFail Nat := (s.walk level cid va a).map fun l => l.addr + va % 2 ^ 16

/-- `n` bytes of G read page by page; uncorrectable data is no data (R439). The fuel bounds the pages. -/
def gRead (s : State) (level cid : Nat) : Nat → Nat → Nat → Except XFail Nat
  | 0, _, _ => .ok 0
  | fuel + 1, va, n =>
    if n == 0 then .ok 0
    else
      let m := min n (2 ^ 16 - va % 2 ^ 16)
      match gPa s level cid va .read with
      | .error e => .error e
      | .ok pa =>
        if (List.range (m / 128 + 2)).any fun i => s.marked (.g (min (pa + 128 * i) (pa + m - 1))) then .error .guest
        else
          match gRead s level cid fuel (va + m) (n - m) with
          | .error e => .error e
          | .ok r => .ok (s.readLoc (.g pa) m + 2 ^ (8 * m) * r)

/-- `n` bytes of G read. -/
def gBytes (s : State) (level cid va n : Nat) : Except XFail Nat := gRead s level cid (n / 2 ^ 16 + 2) va n

/-- Whether a line of a range of G is one that a copy engine owns: an access to it waits (R91). -/
def gHeld (s : State) (level cid va n : Nat) : Bool :=
  (List.range (n / 128 + 1)).any fun i => match gPa s level cid (min (va + 128 * i) (va + n - 1)) .read with
    | .ok pa => s.lineOwned none (.g pa)
    | .error _ => false

/-- `n` bytes of G written page by page; a page that is not mapped is left out. -/
def gWrite (s : State) (level cid : Nat) : Nat → Nat → Nat → Nat → State
  | 0, _, _, _ => s
  | fuel + 1, va, n, v =>
    if n == 0 then s
    else
      let m := min n (2 ^ 16 - va % 2 ^ 16)
      let s := match gPa s level cid va .write with
        | .ok pa => s.writeLoc (.g pa) m v
        | .error _ => s
      gWrite s level cid fuel (va + m) (n - m) (v / 2 ^ (8 * m))

/-- `n` bytes of G written. -/
def gPut (s : State) (level cid va n v : Nat) : State := gWrite s level cid (n / 2 ^ 16 + 2) va n v

/-- Whether every page of a range of G is mapped for an access (R296, step 5). -/
def gMapped (s : State) (level cid va n : Nat) (a : Acc) : Bool :=
  n == 0 || (List.range (n / 2 ^ 16 + 2)).all fun i =>
    match gPa s level cid (min (va + 2 ^ 16 * i) (va + n - 1)) a with
    | .ok _ => true
    | .error _ => false

/-! ### The launch record and the kernel header (R156, R294) -/

/-- A launch record's fields from its 128 bytes (R294). -/
def parseLaunch (v : Nat) : LaunchRec :=
  { stkbase := bits v 1023 960, rcba := bits v 959 896, caps := bits v 895 768, tbudget := bits v 735 704, thnd := bits v 703 672,
    phnd := bits v 671 640, fcap := bits v 639 608, npkg := bits v 585 576, ncoll := bits v 566 560, nbind := bits v 556 544,
    fdom := bits v 539 539, rcause := bits v 538 537, rmax := bits v 536 533, prio := bits v 532 531, cmode := bit v 530,
    fpol := bit v 529, after := bit v 528, stream := bits v 527 512, sl := bits v 510 496, rstack := bits v 495 480,
    nbh := bits v 478 474, nbw := bits v 473 469, nbn := bits v 468 464, imgall := bit v 459, wgsize := bits v 458 448,
    gz := bits v 447 432, gy := bits v 431 416, gx := bits v 415 384, pkgl := bits v 383 320, farea := bits v 319 256,
    ctab := bits v 255 192, btab := bits v 191 128, img := bits v 127 64, kimg := bits v 63 0 }

/-- Threads of a grid that its image area holds records for (R51). -/
def imageRecords (r : LaunchRec) : Nat := if r.imgall then 1 else r.gx * r.gy * r.gz * r.wgsize

/-- Bytes of a register-stack frame (R63). -/
def frameBytes (r : LaunchRec) : Nat := r.sl * 4096 + roundUp (r.rstack * 4) 4096

/-- Whether a record's own fields pass step 2 of R296. -/
def recordOk (v : Nat) : Bool :=
  let r := parseLaunch v
  let al := fun (a m : Nat) => a % m == 0 && a / 2 ^ 56 == 0
  bits v 767 736 == 0 && bits v 607 586 == 0 && bits v 575 567 == 0 && bits v 559 557 == 0 && bits v 543 540 == 0 && bits v 511 511 == 0 &&
    bits v 479 479 == 0 && bits v 463 460 == 0 && r.fcap ≤ 16777216 && 1 ≤ r.npkg && r.npkg ≤ 512 && r.ncoll ≤ 64 && r.nbind ≤ 4096 &&
    1 ≤ r.sl && r.sl ≤ 16384 && 1 ≤ r.gx && 1 ≤ r.gy && 1 ≤ r.gz && r.gx * r.gy * r.gz < 2 ^ 32 && al r.stkbase (2 ^ 16) && al r.rcba 128 &&
    al r.pkgl 2 && al r.farea 128 && al r.ctab 32 && al r.btab 32 && al r.img 128 && al r.kimg 128 &&
    r.stkbase + r.gx * r.gy * r.gz * r.wgsize * frameBytes r ≤ 2 ^ 56

/-- A kernel header's fields from its 64 bytes (R156). -/
def parseKernel (v : Nat) : Kernel :=
  { launchoff := bits v 479 448, allot := bits v 423 416, phasers := bits v 415 400, nbind := bits v 399 384, bindoff := bits v 383 352,
    dbytes := bits v 351 320, lbytes := bits v 319 288, datasize := bits v 287 256, codesize := bits v 255 224, entry := bits v 223 192,
    caps := bits v 191 64 }

/-- Where a kernel image's data section begins (R157). -/
def dataStart (k : Kernel) : Nat := roundUp (0x40 + k.codesize) 128

/-- Whether a kernel header passes R156 and R157. -/
def kernelOk (v : Nat) : Bool :=
  let k := parseKernel v
  let inData := fun (off n : Nat) => dataStart k ≤ off && off + n ≤ dataStart k + k.datasize
  bits v 31 0 == 0x4F44564E && bits v 47 32 == 1 && bits v 63 48 == 0x40 && bits v 511 480 == 0 && bits v 447 424 == 0 &&
    16 ≤ k.allot && k.allot ≤ 64 && k.allot % 8 == 0 && k.phasers ≤ 1024 && k.nbind ≤ 4096 && k.bindoff % 32 == 0 &&
    (if k.nbind == 0 then k.bindoff == 0 else inData k.bindoff (32 * k.nbind)) && k.lbytes ≤ 2 ^ 20 && k.codesize != 0 && k.codesize % 4 == 0 &&
    k.entry % 4 == 0 && 0x40 ≤ k.entry && k.entry < 0x40 + k.codesize && (k.launchoff == 0 || inData k.launchoff 128)

/-- Whether a handler's offset lies in the code section, or is 0 (R296, R333). -/
def handlerOk (k : Kernel) (off : Nat) : Bool := off == 0 || (off % 4 == 0 && 0x40 ≤ off && off < 0x40 + k.codesize)

/-- Items of a table in G: `n` entries of `size` bytes. -/
def gTable (s : State) (level cid va n size : Nat) : List Nat :=
  (List.range n).map fun i => match gBytes s level cid (va + size * i) size with
    | .ok v => v
    | .error _ => 0

/-- A binding-table entry of a launch (R78). -/
def parseBind (id v : Nat) : BindEntry :=
  { id := id, kind := bits v 225 224, stride := bits v 223 192, obj := bits v 191 128, count := bits v 119 96, size := bits v 95 64,
    base := bits v 63 0, launch := true, where_ := { core := { pkg := 0, die := 0, core := 0 }, gen := 0, wslot := 0, tid := 0 } }

/-- Whether a launch's entry is malformed (R79, R80), for a kernel's L request and PHASERS and a job's D bytes per die. -/
def launchBindBad (k : Kernel) (dbytes v : Nat) : Bool :=
  let e := parseBind 0 v
  let ws := e.wordSize
  let size := e.count * e.size
  let tagged := bit e.base 34
  let obj := parseTag 4 e.obj
  let regionBad := match parseTag 4 e.base with
    | some (.inL o) => k.lbytes < o + size
    | some (.inD _ o) => dbytes < o + size
    | some (.inG a) => 2 ^ 56 < a + size
    | _ => true
  let wordBad := match obj with
    | some (.inG a) => 2 ^ 56 < a + (e.count - 1) * e.stride + ws
    | some (.inD n o) => dbytes < o + (e.count - 1) * e.stride + ws ||
        (n == 4 && match parseTag 4 e.base with
          | some (.inG _) => true
          | some (.inD _ _) => tagged
          | _ => false)
    | _ => true
  bits v 255 226 != 0 || bits v 127 120 != 0 || e.kind == 3 || e.count == 0 || e.size == 0 || regionBad ||
    (if e.kind == 0 then k.phasers < e.obj || (match parseTag 4 e.base with
        | some (.inL _) => false
        | _ => true)
     else wordBad || e.obj % ws != 0 || (e.count != 1 && (e.stride == 0 || e.stride % ws != 0)))

/-- Whether two entries of a launch meet (R81): in one space, an untagged D region being the same offsets on every die. -/
def launchMeet (a b : BindEntry) : Bool :=
  let near := fun (x y : Nat) => x < y + b.count * b.size && y < x + a.count * a.size
  match parseTag 4 a.base, parseTag 4 b.base with
  | some (.inL x), some (.inL y) => near x y
  | some (.inD n x), some (.inD m y) => (n == m || n == 4 || m == 4) && near x y
  | some (.inG x), some (.inG y) => near x y
  | _, _ => false

/-- Whether any two entries of a list meet. -/
def anyMeet : List BindEntry → Bool
  | [] => false
  | a :: rest => rest.any (launchMeet a) || anyMeet rest

/-- A collective entry (R316). -/
def parseColl (v : Nat) : Coll :=
  { nch := bits v 255 224, root := bits v 216 208, chk := bits v 204 200, efmt := bits v 194 192, wfmt := bits v 189 187, op := bits v 186 184,
    comm := bits v 181 176, dz := bits v 175 160, dy := bits v 159 144, dx := bits v 143 128, dst := bits v 127 64, src := bits v 63 0 }

/-- Whether a collective entry keeps R316 and R317 for a grid of a partition. -/
def collOk (s : State) (part : Nat) (r : LaunchRec) (v : Nat) : Bool :=
  let b := parseColl v
  bits v 223 217 == 0 && bits v 207 205 == 0 && bits v 199 195 == 0 && bits v 191 190 == 0 && bits v 183 182 == 0 && 1 ≤ b.nch &&
    (b.chk == 0 || (12 ≤ b.chk && b.chk ≤ 20)) && (b.efmt == 0 || b.efmt == 2) && (b.wfmt ≤ 4 || b.wfmt == 6) && b.op ≤ 4 &&
    1 ≤ b.dx && 1 ≤ b.dy && 1 ≤ b.dz && b.dst % 128 == 0 && b.src % 128 == 0 && b.dst / 2 ^ 56 == 0 && b.src / 2 ^ 56 == 0 &&
    (b.op == 3 || b.op == 4 || b.root == 0) &&
    match s.comms.find? fun c => c.part == part && c.comm == b.comm with
    | none => false
    | some c => ceilDiv r.gx b.dx * ceilDiv r.gy b.dy * ceilDiv r.gz b.dz == c.ranks.length * b.nch && b.cb ≤ 2 ^ c.logbuf && b.root < c.ranks.length

/-- Whether an image record holds zero in every field but the registers and predicates (R52). -/
def imageOk (v : Nat) : Bool := v / 2 ^ 2168 == 0 && bits v 2159 2048 == 0

/-- Bytes of an L allocation (R56). -/
def lBytes (k : Kernel) : Nat := roundUp k.lbytes 128

/-- Workgroups on one cell of a neighbourhood (R295). -/
def perCell (r : LaunchRec) : Nat := if r.nbn == 1 then 1 else r.nbn / (r.nbw * r.nbh)

/-- Whether a launch's shape passes R16 and R295 with a job's D bytes per die. -/
def shapeOk (r : LaunchRec) (k : Kernel) (dbytes : Nat) : Bool :=
  let q := perCell r
  1 ≤ r.wgsize && r.wgsize ≤ 1024 && 1 ≤ r.nbn && r.nbn ≤ 24 &&
    (r.nbn == 1 || (1 ≤ r.nbw && r.nbw ≤ 8 && 1 ≤ r.nbh && r.nbh ≤ 8 && r.nbw * r.nbh ≤ 24 && r.nbn % (r.nbw * r.nbh) == 0)) &&
    k.allot + 4 ≤ r.rstack && q ≤ 16 && q * r.wgsize ≤ 2048 && q * r.wgsize * k.allot * 4 ≤ 2 ^ 19 && q * lBytes k ≤ 2 ^ 20 && k.dbytes ≤ dbytes

/-- Cores granted to a partition on a die (R299). -/
def granted (s : State) (pkg die part : Nat) : List Nat := (List.range 64).filter fun k => bit (s.partRes pkg part).cores (64 * die + k)

/-- What a launch that passes its checks brings. -/
structure Launching where
  r : LaunchRec
  k : Kernel
  pkgs : List Nat
  binds : List BindEntry
  colls : List Coll
  deriving DecidableEq, Repr

/-- Bytes of a failing-block bitmap (R305). -/
def bitmapBytes (nb : Nat) : Nat := roundUp (ceilDiv nb 8) 128

/-- Bytes of a grid's fault area (R305). -/
def faultBytes (r : LaunchRec) : Nat := roundUp (0x100 + 64 * r.fcap) 128 + 4 * r.npkg * bitmapBytes (r.gx * r.gy * r.gz)

/-- The checks of a launch at its root (R296), in their order: its status, or what it brings. -/
def checkLaunch (s : State) (level cid rec : Nat) : Except Nat Launching :=
  if rec % 128 != 0 || rec / 2 ^ 56 != 0 then .error 1
  else
    match gBytes s level cid rec 128 with
    | .error _ => .error 2
    | .ok v =>
      let r := parseLaunch v
      if !recordOk v then .error 1
      else
        match gBytes s level cid r.kimg 64 with
        | .error _ => .error 2
        | .ok kv =>
          let k := parseKernel kv
          let ok := fun (va n : Nat) (a : Acc) => gMapped s level cid va n a
          if !kernelOk kv then .error 3
          else if !handlerOk k r.thnd || !handlerOk k r.phnd then .error 1
          else if !(ok r.kimg (dataStart k + k.datasize) .read && ok r.pkgl (2 * r.npkg) .read && ok r.btab (32 * r.nbind) .read &&
              ok r.ctab (32 * r.ncoll) .read && ok r.img (384 * imageRecords r) .read && ok r.rcba (128 * (1 + 5 * r.npkg)) .write &&
              ok r.farea (faultBytes r) .write) then .error 2
          else
            let pkgs := gTable s level cid r.pkgl r.npkg 2
            let part := partOfCid cid
            let job := s.job cid
            let dbytes := ((job.map fun j => j.dunits).getD 0) * 2 ^ 16
            let bvs := gTable s level cid (r.kimg + k.bindoff) k.nbind 32 ++ gTable s level cid r.btab r.nbind 32
            let cvs := gTable s level cid r.ctab r.ncoll 32
            let binds := bvs.zipIdx.map fun x => parseBind x.2 x.1
            if (r.caps ||| k.caps) / 2 ^ 8 != 0 then .error 4
            else if pkgs.eraseDups.length != pkgs.length || pkgs.any fun p => (s.partRes p part).cores == 0 then .error 5
            else if !shapeOk r k dbytes then .error 6
            else if 4096 < bvs.length || bvs.any (launchBindBad k dbytes) || anyMeet binds then .error 7
            else if cvs.any fun c => !collOk s part r c then .error 8
            else if (gTable s level cid r.img (imageRecords r) 384).any fun i => !imageOk i then .error 9
            else .ok { r := r, k := k, pkgs := pkgs, binds := binds, colls := cvs.map parseColl }

/-! ### The region tree (R297-R299) -/

namespace Grid

/-- A node of a grid changed. -/
def modNode (g : Grid) (p : Node → Bool) (f : Node → Node) : Grid := { g with nodes := mapIf p f g.nodes }

/-- The node of a package. -/
def pkgNode (g : Grid) (p : Nat) : Option Node := g.nodes.find? fun n => n.level == 1 && n.pkg == p

end Grid

/-- Whether a node is the root, a package's, or a die's. -/
def isRoot (n : Node) : Bool := n.level == 0
def isPkg (p : Nat) (n : Node) : Bool := n.level == 1 && n.pkg == p
def isDie (p d : Nat) (n : Node) : Bool := n.level == 2 && n.pkg == p && n.die == d
/-- Whether a node is a die's or one of its ancestors. -/
def onPath (p d : Nat) (n : Node) : Bool := isRoot n || isPkg p n || isDie p d n

/-- A node's 128 bytes (R298). -/
def nodeWord (g : Grid) (n : Node) (fbmap : Nat) : Nat :=
  fbmap % 2 ^ 64 * 2 ^ 576 + n.ccause % 8 * 2 ^ 570 + (if n.ovr then 2 ^ 569 else 0) + n.fdom % 2 * 2 ^ 568 + n.prio % 4 * 2 ^ 566 + n.level % 4 * 2 ^ 564 +
    n.st % 16 * 2 ^ 560 + g.seq % 2 ^ 32 * 2 ^ 528 + g.lrec.stream % 2 ^ 16 * 2 ^ 512 + n.pkg % 2 ^ 16 * 2 ^ 496 + n.cores % 2 ^ 16 * 2 ^ 480 +
    g.lrec.tbudget % 2 ^ 32 * 2 ^ 448 + g.blocks % 2 ^ 32 * 2 ^ 384 + n.relaunched % 2 ^ 32 * 2 ^ 352 + n.cancelled % 2 ^ 32 * 2 ^ 320 +
    n.faulted % 2 ^ 32 * 2 ^ 288 + n.completed % 2 ^ 32 * 2 ^ 256 + n.started % 2 ^ 32 * 2 ^ 224 + n.dealt % 2 ^ 32 * 2 ^ 192 + n.hi % 2 ^ 32 * 2 ^ 160 +
    n.lo % 2 ^ 32 * 2 ^ 128 + n.parent % 2 ^ 64 * 2 ^ 64 + n.self % 2 ^ 64

/-- Where the failing-block bitmap of the die at place `i` of a grid lies (R305). -/
def bitmapAddr (g : Grid) (i : Nat) : Nat := g.lrec.farea + roundUp (0x100 + 64 * g.lrec.fcap) 128 + i * bitmapBytes g.blocks

/-- The place of a die among a grid's die nodes. -/
def dieIndex (g : Grid) (pkg die : Nat) : Nat := 4 * (g.pkgs.findIdx fun p => p == pkg) + die

/-- Every region control block of a grid written (R297, R304). -/
def writeNodes (s : State) (g : Grid) : State :=
  g.nodes.foldl (fun s n => gPut s g.level g.cid n.self 128 (nodeWord g n (if n.level == 2 then bitmapAddr g (dieIndex g n.pkg n.die) else 0))) s

/-- The nodes of a new grid (R297-R299), with what software wrote into them where OVR is set. -/
def makeNodes (s : State) (level cid root : Nat) (l : Launching) : List Node :=
  let r := l.r
  let n := l.pkgs.length
  let old := fun (a : Nat) => match gBytes s level cid a 128 with
    | .ok v => v
    | .error _ => 0
  let put := fun (x : Node) (parent : Node) =>
    let v := old x.self
    if bit v 569 then { x with ovr := true, cores := bits v 495 480, prio := bits v 567 566, fdom := bits v 568 568 }
    else { x with cores := parent.cores, prio := parent.prio, fdom := parent.fdom }
  let rootN := put { self := r.rcba, level := 0, pkg := root } { cores := 0, prio := r.prio, fdom := r.fdom }
  let part := partOfCid cid
  let lim := fun (c g : Nat) => if c == 0 then g else min c g
  let need := (s.job cid).map fun j => j.dunits
  let fits : Nat → Nat → Bool := fun p d => match need with
    | none => true
    | some u =>
      let held := s.dallocs.filter fun a => a.pkg == p && a.die == d
      let kids := s.parts.filter fun x => x.part != part && x.depth != 0 && x.parent == part
      held.any (fun a => a.cid == cid) ||
        decide (u + (held.filter fun a => partOfCid a.cid == part).foldl (fun t a => t + a.size / 2 ^ 16) 0 +
            kids.foldl (fun t x => t + (((s.partRes p x.part).dslice[d]?).getD 0)) 0 ≤ (((s.partRes p part).dslice[d]?).getD 0))
  let pkgNs := l.pkgs.zipIdx.map fun (p, i) => put { self := r.rcba + 128 * (1 + i), parent := r.rcba, level := 1, pkg := p } rootN
  let dieNs := pkgNs.zipIdx.flatMap fun (pn, i) => (List.range 4).map fun d =>
    let x := put { self := r.rcba + 128 * (1 + n + 4 * i + d), parent := pn.self, level := 2, pkg := pn.pkg, die := d } pn
    { x with share := if fits pn.pkg d then lim x.cores (granted s pn.pkg d part).length else 0 }
  let pkgNs := pkgNs.map fun pn => { pn with share := lim pn.cores ((List.range 4).foldl (fun t d => t + (granted s pn.pkg d part).length) 0) }
  { rootN with ranges := [(0, r.gx * r.gy * r.gz)] } :: pkgNs ++ dieNs

/-! ### Dealing (R301) -/

/-- Blocks that a list of ranges holds. -/
def rangeSize (l : List (Nat × Nat)) : Nat := l.foldl (fun t r => t + (r.2 - r.1)) 0

/-- The first `n` blocks of a list of ranges, as one range from the first of them, and the rest. -/
def takeRange : List (Nat × Nat) → Nat → Option (Nat × Nat) × List (Nat × Nat)
  | [], _ => (none, [])
  | (lo, hi) :: rest, n => if hi ≤ lo then takeRange rest n else if n == 0 then (none, (lo, hi) :: rest)
    else (some (lo, min hi (lo + n)), if lo + n < hi then (lo + n, hi) :: rest else rest)

/-- Neighbourhoods dealt one at a time, in turn, to those with a share, until they hold at least `d` blocks (R301). -/
def dealRest (nbn d : Nat) (shares : List Nat) : Nat → Nat → List Nat → List Nat
  | 0, _, cs => cs
  | fuel + 1, i, cs =>
    if d ≤ cs.foldl (fun a b => a + b) 0 then cs
    else
      let j := i % shares.length
      dealRest nbn d shares fuel (i + 1) (if ((shares[j]?).getD 0) == 0 then cs else cs.set j (((cs[j]?).getD 0) + nbn))

/-- The first deal of `avail` blocks over shares, in whole neighbourhoods (R301): the range that holds the last block, which comes last, may be
shorter. -/
def firstDeal (nbn avail : Nat) (shares : List Nat) : List Nat :=
  let sum := shares.foldl (fun a b => a + b) 0
  if sum == 0 then shares.map fun _ => 0
  else
    let d := min avail (2 * sum)
    dealRest nbn d shares (2 * shares.length * (d / nbn + 2)) 0 (shares.map fun g => d * g / sum / nbn * nbn)

/-- The die leader's link of a die: the working leaf of lowest physical number (R421). -/
def leaderLink (s : State) (pkg die : Nat) : Link :=
  match (s.pkg pkg).leaves.find? fun l => l.die == die && !l.retired with
  | some l => { pkg := pkg, die := die, leaf := l.leaf }
  | none => { pkg := pkg, die := die, leaf := 0 }

/-- A range of a package dealt to a die, by a DEAL to its leader (R301, R425). -/
def dealDie (s : State) (h pkg die n : Nat) : State :=
  match (s.grid h).bind fun g => g.pkgNode pkg with
  | none => s
  | some p =>
    match takeRange p.ranges n with
    | (none, _) => s
    | (some (lo, hi), rest) =>
      (s.modGrid h fun g => g.modNode (isPkg pkg) fun x => { x with ranges := rest }).post (.deal (leaderLink s pkg die) h lo hi)

/-- A range of the root dealt to a package (R301). -/
def dealPkg (s : State) (h pkg n : Nat) : State :=
  match s.grid h with
  | none => s
  | some g =>
    match takeRange g.root.ranges n with
    | (none, _) => s
    | (some (lo, hi), rest) =>
      s.modGrid h fun g =>
        (g.modNode isRoot fun x =>
          { x with ranges := rest, dealt := x.dealt + (hi - lo), lo := lo, hi := hi, st := if x.st == 1 && rest.isEmpty then 2 else x.st }).modNode (isPkg pkg) fun x =>
          { x with ranges := x.ranges ++ [(lo, hi)], dealt := x.dealt + (hi - lo), lo := lo, hi := hi, st := if x.st == 0 then 1 else x.st }

/-- Blocks rounded up to whole neighbourhoods. -/
def wholeNb (g : Grid) (n : Nat) : Nat := roundUp n g.lrec.nbn

/-- A die whose dealt blocks that have not started fall below its share asks its package for more (R301). -/
def askMore (s : State) (h pkg die : Nat) : State :=
  match (s.grid h).bind fun g => g.dieNode pkg die with
  | none => s
  | some n =>
    if n.asked || n.st == 3 || n.share ≤ n.dealt - n.begun then s
    else (s.modGrid h fun g => g.modNode (isDie pkg die) fun n => { n with asked := true }).post (.demand (leaderLink s pkg die) h (n.dealt - n.begun))

/-- A package that has too few unstarted blocks asks the root, and its dies that wait for blocks are served (R301). -/
def servePkg (s : State) (h pkg : Nat) : State :=
  match (s.grid h).bind fun g => (g.pkgNode pkg).map fun p => (g, p) with
  | none => s
  | some (g, p) =>
    let s := if p.dealt - p.begun < p.share && !Grid.Node.isCancelled g.root && !Grid.Node.isCancelled p then dealPkg s h pkg (wholeNb g (min p.share (rangeSize g.root.ranges))) else s
    (List.range 4).foldl (fun s d =>
      match (s.grid h).bind fun g => (g.pkgNode pkg).bind fun p => (g.dieNode pkg d).map fun n => (g, p, n) with
      | none => s
      | some (g, p, n) =>
        if !n.asked || p.ranges.isEmpty || Grid.Node.isCancelled p then s
        else dealDie (s.modGrid h fun g => g.modNode (isDie pkg d) fun x => { x with asked := false }) h pkg d (wholeNb g (min n.share (rangeSize p.ranges)))) s

/-- The first deals of a grid, at its root and at its packages; a package or die that they leave below its share asks for more (R301). -/
def firstDeals (s : State) (h : Nat) : State :=
  match s.grid h with
  | none => s
  | some g =>
    let shares := g.pkgs.map fun p => ((g.pkgNode p).map fun n => n.share).getD 0
    let s := (g.pkgs.zip (firstDeal g.lrec.nbn g.blocks shares)).foldl (fun s x => if x.2 == 0 then s else dealPkg s h x.1 x.2) s
    let s := s.modGrid h fun g => g.modNode isRoot fun x => { x with st := if x.ranges.isEmpty then 2 else 1 }
    let s := g.pkgs.foldl (fun s p =>
      match (s.grid h).bind fun g => g.pkgNode p with
      | none => s
      | some n =>
        let ds := (List.range 4).map fun d => ((g.dieNode p d).map fun x => x.share).getD 0
        (firstDeal g.lrec.nbn (rangeSize n.ranges) ds).zipIdx.foldl (fun s x => if x.1 == 0 then askMore s h p x.2 else dealDie s h p x.2 x.1) s) s
    g.pkgs.foldl (fun s p => servePkg s h p) s

/-! ### Faults, cancellation and completion (R303-R307) -/

/-- A count added at a die's node and its ancestors (R303). -/
def addCount (s : State) (h pkg die : Nat) (d : Deltas) : State :=
  s.modGrid h fun g => g.modNode (onPath pkg die) fun n =>
    { n with started := n.started + d.started, completed := n.completed + d.completed, faulted := n.faulted + d.faulted,
             cancelled := n.cancelled + d.cancelled, relaunched := n.relaunched + d.relaunched }

/-- The die leaders of a grid's nodes sent a CANCEL (R307); tag 0 marks a leader's. -/
def sendCancels (s : State) (g : Grid) (p : Node → Bool) : State :=
  (g.nodes.filter fun n => n.level == 2 && p n).foldl (fun s n => s.post (.cancel (leaderLink s n.pkg n.die) g.handle g.lrec.cmode)) s

/-- The undealt blocks of a package's node counted CANCELLED there and at the root, the node CANCELLING (R307). -/
def cancelPkg (g : Grid) (cause : Nat) (pkg : Nat) : Grid :=
  match g.pkgNode pkg with
  | none => g
  | some p =>
    if Grid.Node.isCancelled p then g
    else
      let n := rangeSize p.ranges
      (g.modNode (isPkg pkg) fun x => { x with ranges := [], cancelled := x.cancelled + n, st := 3, ccause := x.ccause ||| cause }).modNode isRoot fun x =>
        { x with cancelled := x.cancelled + n }

/-- A cancellation of a whole grid (R307): at the root and the packages at once, then down to the dies. -/
def cancelGrid (s : State) (h cause : Nat) : State :=
  match s.grid h with
  | none => s
  | some g =>
    if g.complete || g.root.st == 3 then s
    else
      let was := fun (n : Node) => match g.pkgNode n.pkg with
        | some p => !Grid.Node.isCancelled p
        | none => false
      let g' := g.modNode isRoot fun x => { x with ranges := [], cancelled := x.cancelled + rangeSize x.ranges, st := 3, ccause := x.ccause ||| cause }
      let g' := g.pkgs.foldl (fun g p => cancelPkg g cause p) g'
      let g' := g'.modNode (fun n => n.level == 2 && was n) fun x => { x with ccause := x.ccause ||| cause }
      sendCancels (s.modGrid h fun _ => g') g was

/-- A cancellation of one package's subtree by the fault policy (R306): the blocks left go to the packages that are not
cancelled, or are cancelled when none is left. -/
def cancelSub (s : State) (h pkg : Nat) : State :=
  match s.grid h with
  | none => s
  | some g =>
    match g.pkgNode pkg with
    | none => s
    | some p =>
      if g.complete || Grid.Node.isCancelled p || g.root.st == 3 then s
      else
        let g' := (cancelPkg g 2 pkg).modNode (fun n => n.level == 2 && n.pkg == pkg) fun x => { x with ccause := x.ccause ||| 2 }
        let none_ := g'.pkgs.all fun q => match g'.pkgNode q with
          | some n => Grid.Node.isCancelled n
          | none => true
        let g' := if none_ then g'.modNode isRoot fun x => { x with ranges := [], cancelled := x.cancelled + rangeSize x.ranges } else g'
        sendCancels (s.modGrid h fun _ => g') g fun n => n.pkg == pkg

/-- The fault area's header (R305). -/
def faultHeader (g : Grid) : Nat :=
  let f := g.firstRec.getD {}
  (List.range 32).foldl (fun v i => v + natAt g.codes i % 2 ^ 32 * 2 ^ (768 + 32 * i)) 0 + g.ndrop % 2 ^ 32 * 2 ^ 672 + g.nrec % 2 ^ 32 * 2 ^ 640 +
    f.die % 4 * 2 ^ 624 + f.pkg % 2 ^ 16 * 2 ^ 608 + f.block % 2 ^ 32 * 2 ^ 576 + f.time % 2 ^ 64 * 2 ^ 512 + (if g.firstRec.isSome then recWord f else 0)

/-- Whether a fault record comes before another as the first fault (R306). -/
def firstFault (a b : FaultRec) : Bool :=
  let k := fun (f : FaultRec) => ((((f.time % 2 ^ 64) * 2 ^ 16 + f.pkg) * 4 + f.die) * 64 + f.core) * 1024 + f.tid
  k a < k b

/-- The 64 bytes of a record or an arrival mask (R330, R331). -/
def anyRec (f : FaultRec) : Nat :=
  if f.rtype == 2 then
    f.time % 2 ^ 64 * 2 ^ 448 + f.xpc % 2 ^ 64 * 2 ^ 384 + f.die % 4 * 2 ^ 320 + f.core % 64 * 2 ^ 314 + f.pkg % 2 ^ 16 * 2 ^ 288 + f.block % 2 ^ 32 * 2 ^ 256 +
      2 * 2 ^ 200 + f.code % 256 * 2 ^ 192 + f.detail % 2 ^ 32 * 2 ^ 160 + f.addr % 2 ^ 64 * 2 ^ 64 + f.pc % 2 ^ 64
  else recWord f

/-- A record that reaches the root written to the fault area and counted (R306). -/
def takeFault (s : State) (h : Nat) (f : FaultRec) : State :=
  match s.grid h with
  | none => s
  | some g =>
    let room := g.nrec < g.lrec.fcap
    let s := if room then gPut s g.level g.cid (g.lrec.farea + 0x100 + 64 * g.nrec) 64 (anyRec f) else s
    let g' := { g with nrec := g.nrec + (if room then 1 else 0), ndrop := g.ndrop + (if room then 0 else 1) }
    let g' := if f.rtype == 2 then g' else
      { g' with codes := sset 0 g'.codes (f.code % 32) (natAt g'.codes (f.code % 32) + 1),
                firstRec := match g'.firstRec with
                  | some x => if firstFault f x then some f else some x
                  | none => some f }
    let s := s.modGrid h fun _ => g'
    let s := gPut s g.level g.cid g.lrec.farea 0x100 (faultHeader g')
    if f.rtype == 2 then s
    else
      let ba := bitmapAddr g (dieIndex g f.pkg f.die) + f.block / 8
      let s := match gBytes s g.level g.cid ba 1 with
        | .ok v => gPut s g.level g.cid ba 1 (v ||| 2 ^ (f.block % 8))
        | .error _ => s
      if !g.lrec.fpol then s
      else if g.root.fdom == 0 then (if g.faultPkgs.isEmpty then cancelGrid (s.modGrid h fun g => { g with faultPkgs := [f.pkg] }) h 2 else s)
      else if g.faultPkgs.contains f.pkg then s
      else cancelSub (s.modGrid h fun g => { g with faultPkgs := g.faultPkgs ++ [f.pkg] }) h f.pkg

/-- The state of a chunk of a binding (R325). -/
def chunkState (g : Grid) (i c : Nat) : Nat := ((g.chunks.find? fun x => x.b == i && x.c == c).map fun x => x.st).getD 0

/-- A chunk of a grid changed; one not listed is WAITING. -/
def modChunk (g : Grid) (i c : Nat) (f : Chunk → Chunk) : Grid :=
  let p := fun (x : Chunk) => x.b == i && x.c == c
  { g with chunks := if g.chunks.any p then mapIf p f g.chunks else g.chunks ++ [f { b := i, c := c }] }

/-- The groups of every core that wait for a reason woken. -/
def wakeEvery (s : State) (p : Stall → Bool) : State := s.cores.foldl (fun s x => s.wakeAll x.at_ p) s

/-- The end of a queue's packet (R414): STATUS and RESULT, then the release swap of its sync word. -/
def endPacket (s : State) (q : QRef) (level cid : Nat) (p : Packet) (status result : Nat) (signal : Bool) : State :=
  let s := gPut s level cid (p.addr + 19) 1 status
  let s := gPut s level cid (p.addr + 24) 8 result
  let s := if signal && p.sigaddr != 0 then gPut s level cid p.sigaddr 8 p.sigval else s
  let _ := q
  s

/-- A grid completed where everything of it has ended (R304): chunks with an unfired slot are CANCELLED, the nodes are
written back, its phasers are freed, and those who wait for it go on. Its release covers every write of its threads, so it follows the copies,
sequencer entries and atomics that they have issued (R87); copies that only a phaser of the grid holds end with it (R241). DEDUCED (log 86). -/
def tryFinish (s : State) (h : Nat) : State :=
  match s.grid h with
  | none => s
  | some g =>
    let busy := s.agenda.any fun i => match i with
      | .faultrec _ x _ => x == h
      | .count _ x _ => x == h
      | _ => false
    if g.complete || busy || g.root.completed + g.root.cancelled != g.blocks then s
    else
      let idx := (List.range g.colls.length).flatMap fun i => match g.colls[i]? with
        | some b => (List.range b.nch).map fun c => (i, b, c)
        | none => []
      let g' := idx.foldl (fun g x => if chunkState g x.1 x.2.2 == 0 && !chunkFired s g x.1 x.2.1 x.2.2 then modChunk g x.1 x.2.2 fun k => { k with st := 3 } else g) g
      let s := s.modGrid h fun _ => g'
      let s := wakeEvery s fun w => w == .chunk
      let ps := s.phasers.filter fun p => p.owner == none && p.grid == h
      let work := s.gridWork h
      if idx.any fun x => chunkState g' x.1 x.2.2 < 2 then s
      else if work.1 || !work.2.isEmpty then
        if !work.1 && work.2.all fun x => s.gateStuck h x.1 x.2.1 x.2.2 then ps.foldl (fun s p => s.freePhaser p.key) s else s
      else
        let g' := { g' with complete := true, nodes := g'.nodes.map fun n => { n with st := 4 } }
        let s := writeNodes (s.modGrid h fun _ => g') g'
        let s := ps.foldl (fun s p => s.freePhaser p.key) s
        let s := { s with switches := s.switches.map fun w => (w.1, w.2.filter fun x => x.2.1 != h) }
        let s := match g'.queue with
          | some (q, p) =>
            let j := g'.cid
            let s := if bit p.arg1 0 && p.sigaddr != 0 then gPut s g'.level j p.sigaddr 8 p.sigval else s
            s.postOnce (.queueService q.pkg)
          | none => s
        let s := wakeEvery s fun w => w == .grid
        s.packages.foldl (fun s p => (List.range 4).foldl (fun s d => s.postOnce (.neighbourhoodPlacement p.id d)) s) s

/-! ### Acceptance (R296, R300, R320) -/

/-- A launch accepted (R300): its sequence number, region tree, fault area and first deals; the answer is its handle. -/
def accept (s : State) (level cid root : Nat) (l : Launching) (queue : Option (QRef × Packet)) : State :=
  let r := l.r
  let seq := ((s.streams.find? fun x => x.1 == (root, r.stream)).map fun x => x.2).getD 0
  let key := match gPa s level cid r.rcba .read with
    | .ok pa => pa
    | .error _ => r.rcba
  let nodes := makeNodes s level cid root l
  let colls := l.colls.foldl (fun (acc : List Coll × List Comm) b =>
    let p := fun (c : Comm) => c.part == partOfCid cid && c.comm == b.comm
    let cs := ((acc.2.find? p).map fun c => c.cseq).getD 0
    (acc.1 ++ [{ b with cseq := cs }], mapIf p (fun c => { c with cseq := c.cseq + 1 }) acc.2)) ([], s.comms)
  let g : Grid := { handle := key, lrec := r, kern := l.k, level := level, cid := cid, gen := ((s.job cid).map fun j => j.gen).getD 0, part := partOfCid cid,
                    rootPkg := root, seq := seq, pkgs := l.pkgs, nodes := nodes, binds := l.binds, colls := colls.1, queue := queue, accepted := s.time root }
  let s := { s with grids := (s.grids.filter fun x => x.handle != key) ++ [g], comms := colls.2,
                    streams := upsert (fun x => x.1 == (root, r.stream)) ((root, r.stream), (seq + 1) % 2 ^ 32) s.streams }
  let s := gPut s level cid r.farea 0x100 0
  let s := writeNodes s g
  firstDeals s key

/-! ### Grid instructions (R310-R315) -/

/-- Whether a thread's writes before a launch are still under way: its copies, drains and atomics (R87, R312). -/
def launchHeld (s : State) (q : Request) : Bool :=
  (match s.ctxAny q.t.core q.t.gen with
    | none => false
    | some k => k.copies.any fun e => e.id < q.id && e.wslot == q.t.wslot && e.tid == q.t.tid && e.st != .ended) ||
  (s.pendingAtomics q.t fun _ _ _ _ => true).any fun id => id < q.id

/-- The request of a `glch` reaches its root (R296, R300): launches of one workgroup in the order they were made. The launch is a release that
covers all earlier writes of its issuer, and is held for them (R87, R312). -/
def execLaunchRequest (id : Nat) : Meaning := fun s =>
  match s.reqs.find? fun q => q.id == id && q.answer.isNone with
  | none => .next s
  | some q =>
    match q.kind with
    | .launch rec cid level _ pkg queue =>
      let earlier := s.reqs.any fun y => y.id < id && y.answer.isNone && y.t.core == q.t.core && y.t.gen == q.t.gen && y.t.wslot == q.t.wslot &&
        match y.kind with
        | .launch _ _ _ _ _ _ => true
        | _ => false
      if earlier || (queue.isNone && launchHeld s q) || gHeld s level cid rec 128 then .next (s.post (.launchRequest id))
      else
        let (s, v) := match checkLaunch s level cid rec with
          | .error st => (s, st + 0xFFFFFFFF * 2 ^ 32)
          | .ok l => (accept s level cid pkg l queue, l.r.rcba)
        .next (({ s with reqs := mapIf (fun y => y.id == id) (fun y => { y with answer := some v }) s.reqs } : State).post (.requestResultArrival id))
    | _ => .next s

/-- The result of a grid or SYS request arrives (R311, R345, R373). -/
def execRequestResultArrival (id : Nat) : Meaning := fun s =>
  match s.reqs.find? fun q => q.id == id && q.answer.isSome with
  | none => .next s
  | some q => .next (deliverAnswer s q (q.answer.getD 0))

/-- The address checks of a grid instruction's operand (R311). -/
def gridAddr (a : Nat) : Option Stop :=
  if bits a 63 56 != 0 then some (.trap .kind 0 a) else if a % 128 != 0 then some (.trap .misaligned 0 a) else none

/-- The grid that a handle names (R311): the physical address of its root node and the node as memory holds it. -/
def handleOf (s : State) (ln : Lane) (a : Nat) : State × Except Stop (Nat × Nat) :=
  match gridAddr a with
  | some w => (s, .error w)
  | none =>
    match s.xlateFor ln a a .read with
    | (s, .error w) => (s, .error w)
    | (s, .ok pa) =>
      let v := s.readLoc (.g pa) 128
      if s.marked (.g pa) then (s, .error .lost)
      else if bits v 63 0 != a || bits v 565 564 != 0 then (s, .error (.trap .perm 1 a))
      else (s, .ok (pa, v))

/-- `glch` (R312). -/
def execGlch (e : Bool) (x y : BitVec 5) (l : BitVec 4) : Meaning :=
  execLanes e { d := 2 * x.toNat, dn := 2, a := 2 * y.toNat, an := 2 } fun s i =>
    let a := i.ln.t.pair i.a
    match gridAddr a with
    | some w => (s, .stop w)
    | none =>
      let g := i.ln.g
      let (s, id) := ask s i.ln.r (.launch a g.cid g.level g.part i.ln.r.core.pkg none) .launchRequest
      (s, .ok { i.ln.t with owed := i.ln.t.owed ++ [{ reg := i.d, cnt := 2, left := l.toNat, value := none, id := id }] })

/-- `gcan` (R313). -/
def execGcan (e : Bool) (y : BitVec 5) : Meaning :=
  execLanes e { a := 2 * y.toNat, an := 2 } fun s i =>
    match handleOf s i.ln (i.ln.t.pair i.a) with
    | (s, .error w) => (s, .stop w)
    | (s, .ok (key, _)) => (tryFinish (cancelGrid s key 1) key, .ok i.ln.t)

/-- `gwt` (R314): a wait until the grid has completed; PERMISSION for the thread's own grid, and for a grid whose root's
package has gone fatal (R445). -/
def execGwt (e : Bool) (y : BitVec 5) : Meaning :=
  execLanes e { a := 2 * y.toNat, an := 2 } fun s i =>
    let a := i.ln.t.pair i.a
    match handleOf s i.ln a with
    | (s, .error w) => (s, .stop w)
    | (s, .ok (key, _)) =>
      if key == i.ln.g.handle then (s, .stop (.trap .perm 2 a))
      else
        match s.grid key with
        | none => (s, .ok i.ln.t)
        | some g =>
          if !g.complete && (s.pkg g.rootPkg).mgmt.fatal then (s, .stop (.trap .perm 10 a))
          else if g.complete then (s, .ok i.ln.t) else (s, .wait i.ln.t .grid)

/-- A counter of a grid's root (R315). -/
def gqyValue (s : State) (key v sel : Nat) : Nat :=
  let word := fun (lo : Nat) => v / 2 ^ lo % 2 ^ 32
  match s.grid key with
  | some g =>
    let n := g.root
    match sel with
    | 0 => n.dealt
    | 1 => n.started
    | 2 => n.completed
    | 3 => n.faulted
    | 4 => n.cancelled
    | 5 => n.relaunched
    | 6 => n.st + 16 * n.ccause
    | 7 => g.seq + 2 ^ 32 * g.lrec.stream
    | _ => ((g.firstRec.map fun f => f.time).getD 0) % 2 ^ 64
  | none =>
    match sel with
    | 0 => word 192
    | 1 => word 224
    | 2 => word 256
    | 3 => word 288
    | 4 => word 320
    | 5 => word 352
    | 6 => bits v 563 560 + 16 * bits v 572 570
    | 7 => word 528 + 2 ^ 32 * bits v 527 512
    | _ => 0

/-- `gqy` (R315). -/
def execGqy (e : Bool) (x y : BitVec 5) (sel : BitVec 6) (l : BitVec 4) : Meaning :=
  execLanes e { d := 2 * x.toNat, dn := 2, a := 2 * y.toNat, an := 2 } fun s i =>
    match handleOf s i.ln (i.ln.t.pair i.a) with
    | (s, .error w) => (s, .stop w)
    | (s, .ok (key, v)) => (s, .ok (owe i.ln.t l.toNat i.d 2 (gqyValue s key v sel.toNat)))

end Sys2Proof.Machine
end

