-- ==== Sys2Proof/Machine/Tree.lean ====
section
/-! DEFINITION. The dispatch tree below the root: placement on a die, the link commands between the root, the die leaders and
the leaves, and the start of a block (R297-R309, R421-R431). -/

namespace Sys2Proof.Machine

open State

/-! ### Clusters and leaves (R11, R421) -/

/-- The logical cluster of a core number (R11). -/
def clusterOf (core : Nat) : Nat := 4 * (core / 16) + core % 8 / 2

/-- The core numbers of a logical cluster (R11). -/
def clusterCores (k : Nat) : List Nat := [0, 1, 8, 9].map fun j => 16 * (k / 4) + 2 * (k % 4) + j

/-- A leaf controller. -/
def leafAt (s : State) (pkg die leaf : Nat) : Option Leaf := (s.pkg pkg).leaves.find? fun l => l.die == die && l.leaf == leaf

/-- A leaf controller changed. -/
def modLeaf (s : State) (pkg die leaf : Nat) (f : Leaf → Leaf) : State :=
  s.modPkg pkg fun p => { p with leaves := mapIf (fun l => l.die == die && l.leaf == leaf) f p.leaves }

/-- The cores that a link's leaf serves. -/
def leafCores (s : State) (l : Link) : List CoreRef :=
  match (leafAt s l.pkg l.die l.leaf).bind fun x => x.logical with
  | some k => (clusterCores k).map fun c => { pkg := l.pkg, die := l.die, core := c }
  | none => []

/-! ### Whether a core is free (R430) -/

/-- The least start of `n` free places among `cap`, given the ranges in use as start and length. DESIGN CHOICE (log 87): the spec sums the sizes of
what is resident on a core and gives no choice of a base; the model takes the least free one, and counts a core as free only where one
contiguous range is (R15, R430). -/
def firstFit (used : List (Nat × Nat)) (n cap : Nat) : Option Nat :=
  if n == 0 then some 0
  else (sortBy (fun a b => a ≤ b) (0 :: used.map fun u => u.1 + u.2)).find? fun b =>
    b + n ≤ cap && used.all fun u => u.2 == 0 || b + n ≤ u.1 || u.1 + u.2 ≤ b

/-- The STARTs that have been ordered for a core and not yet reached it (R431). -/
def ordered (s : State) (c : CoreRef) : List (Grid × StartArgs) :=
  s.agenda.filterMap fun i => match i with
    | .start l h a => if l.pkg == c.pkg && l.die == c.die && a.core == c.core then (s.grid h).map fun g => (g, a) else none
    | _ => none

/-- Whether a valid, unfired horizon entry reserves an EMPTY core for its incoming context (R354, R369). -/
def hznReserved (s : State) (c : CoreRef) : Bool :=
  (s.pkg c.pkg).hzn.any fun e =>
    let v := e.2.toNat
    bit v 0 && !bit v 1 && bits v 63 48 == 0 && bits v 47 32 != 0 && bit (bits v 191 128) (16 * c.die + clusterOf c.core)

/-- `n` free places, clear where that can be of the places that work left by ended workgroups still reaches. -/
def firstFitClear (used left : List (Nat × Nat)) (n cap : Nat) : Option Nat := (firstFit (used ++ left) n cap).or (firstFit used n cap)

/-- The L ranges of workgroups, of those that are resident or of those that have ended (R22). -/
def lRanges (wgs : List Workgroup) (ended : Bool) : List (Nat × Nat) := (wgs.filter fun w => w.ended == ended).map fun w => (w.lbase, w.lsize)

/-- The thread slots that workgroups hold; those that have ended keep their numbers, as their slot, while work of theirs goes on (R384).
DESIGN CHOICE (log 86). -/
def slotRanges (wgs : List Workgroup) : List (Nat × Nat) := wgs.map fun w => (w.tbase, w.threads.length)

/-- Whether thread slots are free for workgroups of the given sizes in turn. -/
def slotsFit (used : List (Nat × Nat)) (sizes : List Nat) : Bool :=
  (sizes.foldl (fun (acc : Option (List (Nat × Nat))) n => acc.bind fun u => (firstFit u n 2048).map fun b => u ++ [(b, n)]) (some used)).isSome

/-- The L bases that `q` workgroups of a grid would have on a core, where it admits them (R15, R430). -/
def cellBases (s : State) (g : Grid) (c : CoreRef) (q : Nat) : Option (List Nat) :=
  let x := s.core c
  let os := ordered s c
  let wgs := (x.ctx.map fun k => k.wgs).getD []
  let n := g.lrec.wgsize
  let ls := lBytes g.kern
  let kids := s.parts.any fun p => p.part != g.part && p.depth != 0 && p.parent == g.part && bit (s.partRes c.pkg p.part).cores (64 * c.die + c.core)
  let same := os.all fun o => o.1.cid == g.cid && o.1.gen == g.gen
  let open_ := match x.ctx with
    | some k => k.st == .running && k.cid == g.cid && k.gen == g.gen && !k.bgAway
    | none => !x.reserved && !x.victim && !hznReserved s c
  let moving := (s.pkg c.pkg).leaves.any fun l => l.die == c.die && l.logical == some (clusterOf c.core) && (l.remapping || l.retired)
  let regs := ((x.ctx.map regBytes).getD 0) + os.foldl (fun t o => t + o.1.lrec.wgsize * o.1.kern.allot * 4) 0
  let used := lRanges wgs false ++ os.map fun o => ((o.2.lbase[o.2.m]?).getD 0, lBytes o.1.kern)
  if !bit (s.partRes c.pkg g.part).cores (64 * c.die + c.core) || kids || !same || !open_ || moving || x.stopped || x.leaving ||
      16 < wgs.length + os.length + q || !slotsFit (slotRanges wgs) ((os.map fun o => o.1.lrec.wgsize) ++ List.replicate q n) ||
      2 ^ 19 < regs + q * n * g.kern.allot * 4 then none
  else
    (List.range q).foldl (fun (acc : Option (List Nat)) _ => acc.bind fun bs =>
      (firstFitClear (used ++ bs.map fun b => (b, ls)) (lRanges wgs true) ls (2 ^ 20)).map fun b => bs ++ [b]) (some [])

/-- The members of a neighbourhood on its rectangle at a top-left core, as core and L base, where each cell is free (R295,
R429). -/
def tryRect (s : State) (g : Grid) (pkg die n r c : Nat) : Option (List (Nat × Nat)) :=
  let q := perCell g.lrec
  let w := if g.lrec.nbn == 1 then 1 else g.lrec.nbw
  (List.range (ceilDiv n q)).foldl (fun (acc : Option (List (Nat × Nat))) i => acc.bind fun l =>
    let core := 8 * (r + i / w) + (c + i % w)
    (cellBases s g { pkg := pkg, die := die, core := core } (min q (n - i * q))).map fun bs => l ++ bs.map fun b => (core, b)) (some [])

/-- The cores below a node that hold a block of a grid or are to hold one. -/
def coresHeld (s : State) (g : Grid) (under : Nat → Nat → Bool) : List CoreRef :=
  ((s.cores.filter fun x => under x.at_.pkg x.at_.die && match x.ctx with
      | some k => k.wgs.any fun w => w.grid == g.handle && !w.ended
      | none => false).map fun x => x.at_) ++
    (g.placed.filter fun p => under p.pkg p.die && !p.relaunch).flatMap fun p => p.cores.map fun c => { pkg := p.pkg, die := p.die, core := c.1 }

/-- Whether a rectangle keeps the CORES budget of its die's node and of every node above it: the most cores that the subtree's blocks occupy at
once (R298, R299, R430). -/
def withinBudget (s : State) (g : Grid) (pkg die : Nat) (l : List (Nat × Nat)) : Bool :=
  let new : List CoreRef := l.map fun x => { pkg := pkg, die := die, core := x.1 }
  (g.nodes.filter (onPath pkg die)).all fun n =>
    let under := fun (p d : Nat) => n.level == 0 || (p == n.pkg && (n.level == 1 || d == n.die))
    n.cores == 0 || (coresHeld s g under ++ new).eraseDups.length ≤ n.cores

/-- Whether a die has room for the job's D allocation, or it stands there already (R395). -/
def dRoom (s : State) (g : Grid) (pkg die : Nat) : Bool :=
  match s.job g.cid with
  | none => true
  | some j =>
    let held := s.dallocs.filter fun a => a.pkg == pkg && a.die == die
    let kids := s.parts.filter fun x => x.part != g.part && x.depth != 0 && x.parent == g.part
    held.any (fun a => a.cid == g.cid) ||
      decide (j.dunits + (held.filter fun a => partOfCid a.cid == g.part).foldl (fun t a => t + a.size / 2 ^ 16) 0 +
        kids.foldl (fun t x => t + (((s.partRes pkg x.part).dslice[die]?).getD 0)) 0 ≤ (((s.partRes pkg g.part).dslice[die]?).getD 0))

/-- A job's D allocation created on a die (R59, R395). -/
def makeD (s : State) (pkg die cid : Nat) : State :=
  match s.job cid with
  | none => s
  | some j =>
    if s.dallocs.any fun a => a.pkg == pkg && a.die == die && a.cid == cid then s
    else { s with dallocs := s.dallocs ++ [{ pkg := pkg, die := die, cid := cid, size := j.dunits * 2 ^ 16 }],
                  dmem := sclear s.dmem (dKey pkg die cid 0) (2 ^ 32) }

/-- The rectangle that a neighbourhood of `n` blocks goes to (R429). -/
def findRect (s : State) (g : Grid) (pkg die n : Nat) : Option (List (Nat × Nat)) :=
  let w := if g.lrec.nbn == 1 then 1 else g.lrec.nbw
  let h := if g.lrec.nbn == 1 then 1 else g.lrec.nbh
  if !dRoom s g pkg die || 65536 < s.phasersOn pkg die + (ordersOn pkg die) + n * (g.kern.phasers + 1) then none
  else (List.range 64).findSome? fun i =>
    if 8 < i / 8 + h || 8 < i % 8 + w then none
    else (tryRect s g pkg die n (i / 8) (i % 8)).bind fun l => if withinBudget s g pkg die l then some l else none
where
  /-- phasers of the workgroups whose START is under way on the die -/
  ordersOn (pkg die : Nat) : Nat :=
    s.agenda.foldl (fun t i => match i with
      | .start l h _ => if l.pkg == pkg && l.die == die then t + ((s.grid h).map fun g => g.kern.phasers + 1).getD 0 else t
      | _ => t) 0

/-! ### Placement (R302, R309, R429-R431) -/

/-- The head of a grid's placement order on a die: its first block, and whether it is a relaunch. -/
def placeHead (g : Grid) (pkg die : Nat) : Option (Nat × Bool) :=
  match g.requeue.find? fun f => g.placed.any fun p => p.first == f && p.pkg == pkg && p.die == die with
  | some f => some (f, true)
  | none =>
    match (g.dieNode pkg die).bind fun n => (n.ranges.find? fun r => r.1 < r.2) with
    | some r => some (r.1, false)
    | none => none

/-- Whether a grid may place blocks on a package: its stream's previous grid has completed where it is AFTER, and its
partition and every ancestor have budget left (R300, R396). The fuel is the depth limit of R392. -/
def budgetLeft (s : State) (pkg : Nat) : Nat → Nat → Bool
  | 0, _ => true
  | n + 1, p => !(s.partRes pkg p).spent && match s.part p with
    | some x => x.depth == 0 || budgetLeft s pkg n x.parent
    | none => true

/-- Whether a grid's blocks may be placed on a package now. -/
def mayPlace (s : State) (g : Grid) (pkg : Nat) : Bool :=
  !g.complete && budgetLeft s pkg 3 g.part && (!g.lrec.after || !s.grids.any fun p =>
    p.handle != g.handle && p.rootPkg == g.rootPkg && p.lrec.stream == g.lrec.stream && (p.seq + 1) % 2 ^ 32 == g.seq && !p.complete)

/-- The link of the leaf that serves a core. -/
def linkOf (s : State) (pkg die core : Nat) : Link := s.coreLink { pkg := pkg, die := die, core := core }

/-- A neighbourhood placed on a rectangle: its place noted, and a START ordered for each member (R427). -/
def placeNb (s : State) (g : Grid) (pkg die first : Nat) (again : Bool) (l : List (Nat × Nat)) : State :=
  let s := makeD s pkg die g.cid
  let s := s.modGrid g.handle fun g =>
    { (g.modNode (isDie pkg die) fun n => if again then n else { n with ranges := (takeRange n.ranges l.length).2 }) with
      requeue := if again then g.requeue.erase first else g.requeue,
      placed := (g.placed.filter fun p => p.first != first) ++ [{ first := first, die := die, pkg := pkg, cores := l }] }
  l.zipIdx.foldl (fun s x => s.post (.start (linkOf s pkg die x.1.1) g.handle
    { block := first + x.2, core := x.1.1, m := x.2, n := l.length, lbase := l.map fun y => y.2, relaunch := again })) s

/-- The grids in a die's placement order: the higher PRIO first, then the order of acceptance (R302). -/
def placeOrder (s : State) (pkg die : Nat) : List Grid :=
  let prio := fun (g : Grid) => ((g.dieNode pkg die).map fun n => n.prio).getD 0
  sortBy (fun a b => prio b ≤ prio a) (s.grids.filter fun g => (placeHead g pkg die).isSome && mayPlace s g pkg)

/-- The first neighbourhood in a die's placement order that finds a rectangle (R429, R431). -/
def placeable (s : State) (pkg die : Nat) : Option (Grid × Nat × Bool × List (Nat × Nat)) :=
  (placeOrder s pkg die).findSome? fun g =>
    match placeHead g pkg die with
    | none => none
    | some (first, again) => (findRect s g pkg die (min g.lrec.nbn (g.blocks - first))).map fun l => (g, first, again, l)

/-- The die leader searches for the head neighbourhood of each waiting grid in turn, and places the first that finds a
rectangle (R429, R431). -/
def execNeighbourhoodPlacement (pkg die : Nat) : Meaning := fun s =>
  match placeable s pkg die with
  | none => .next s
  | some (g, first, again, l) => .next ((placeNb s g pkg die first again l).postOnce (.neighbourhoodPlacement pkg die))

/-! ### The link commands (R425, R427) -/

/-- DEAL: a range added to a die's node, which asks for more where it is still below its share (R301). -/
def execDeal (l : Link) (h lo hi : Nat) : Meaning := fun s =>
  match (s.grid h).bind fun g => (g.dieNode l.pkg l.die).map fun n => (g, n) with
  | none => .next s
  | some (g, n) =>
    if l.malformed || g.complete || n.st == 3 || hi ≤ lo then .next s
    else .next ((askMore (s.modGrid h fun g => g.modNode (isDie l.pkg l.die) fun x =>
      { x with ranges := x.ranges ++ [(lo, hi)], dealt := x.dealt + (hi - lo), lo := lo, hi := hi, st := if x.st == 0 then 1 else x.st }) h l.pkg l.die).postOnce
        (.neighbourhoodPlacement l.pkg l.die))

/-- The threads of a workgroup admitted, not yet started: no status, the window at slot 0 (R53). -/
def newThreads (g : Grid) (block : Nat) : List Thread :=
  (List.range g.lrec.wgsize).map fun t =>
    { tid := t, c := g.kern.allot, bstore := g.bstore block t, selp := if g.level == 0 then 0 else g.part }

/-- A workgroup phaser and the barrier made for a workgroup (R219): the barrier has every thread as a fixed member. -/
def addPhasers (s : State) (c : CoreRef) (gen wslot : Nat) (g : Grid) : State :=
  let mem := fun (t : Nat) =>
    ({ t := { core := c, gen := gen, wslot := wslot, tid := t }, grid := g.handle, mode := 3, sp := 0, wp := 0 } : PhMember)
  (List.range (g.kern.phasers + 1)).foldl (fun s h =>
    s.addPhaser c.pkg c.die h g.handle (some (c, gen, wslot)) (if h == 0 then (List.range g.lrec.wgsize).map mem else [])) s

/-- A workgroup admitted on a core and its neighbourhood window mapped: 0 for OK, or the status BUSY or DOWN (R426, R427). -/
def admitStart (s : State) (l : Link) (g : Grid) (a : StartArgs) : State × Nat :=
  let c : CoreRef := { pkg := l.pkg, die := l.die, core := a.core }
  let x := s.core c
  let leaf := leafAt s l.pkg l.die l.leaf
  if x.stopped || (leaf.map fun y => y.retired).getD true then (s, 5)
  else if (leaf.map fun y => y.remapping).getD false || x.leaving || (x.victim && x.ctx.isNone) then (s, 3)
  else
    let wgs := (x.ctx.map fun k => k.wgs).getD []
    let slot := (List.range 16).find? fun i => !wgs.any fun w => w.slot == i
    let tb := firstFit (slotRanges wgs) g.lrec.wgsize 2048
    let fits := match x.ctx with
      | some k => k.st == .running && k.cid == g.cid && k.gen == g.gen
      | none => true
    match slot, tb with
    | some slot, some tb =>
      if !fits then (s, 3)
      else
        let p := (g.placed.find? fun p => p.pkg == l.pkg && p.die == l.die && p.first ≤ a.block && a.block < p.first + p.cores.length)
        let ms := ((p.map fun p => p.cores).getD []).zip a.lbase |>.map fun m => ({ core := m.1.1, lbase := m.2, lsize := lBytes g.kern } : Member)
        let lb := (a.lbase[a.m]?).getD 0
        let w : Workgroup := { slot := slot, grid := g.handle, block := a.block, threads := newThreads g a.block, tbase := tb, lbase := lb,
                               lsize := lBytes g.kern, m := a.m, members := ms, relaunches := relaunchesOf g a.block }
        let k := x.ctx.getD { gen := g.gen, cid := g.cid }
        let s := s.modCore c fun y => { y with ctx := some { k with wgs := k.wgs ++ [w], lmem := sclear k.lmem lb (lBytes g.kern) } }
        -- the block's copies of the launch's entries are bound anew (R80, R309)
        let s := s.modGrid g.handle fun g => { g with binds := g.binds.map fun (e : BindEntry) => { e with removed := e.removed.filter fun r => r.1 != copyOfBlock a.block } }
        (addPhasers s c g.gen slot g, 0)
    | _, _ => (s, 3)

/-- An admission withdrawn: the workgroup's record and phasers go (R427). -/
def withdraw (s : State) (c : CoreRef) (gen wslot : Nat) : State :=
  let s := (s.phasers.filter fun p => p.owner == some (c, gen, wslot)).foldl (fun s p => s.freePhaser p.key) s
  let s := s.mapCtxs fun at_ k => if at_ == c && k.gen == gen then { k with wgs := k.wgs.filter fun w => w.slot != wslot } else k
  s.modCore c fun x => { x with ctx := x.ctx.filter fun k => k.gen != gen || !k.wgs.isEmpty }

/-- The workgroups of a grid on a leaf's cores, in the contexts that stand there or are away in their save areas. -/
def leafWgs (s : State) (cs : List CoreRef) (h : Nat) : List (CoreRef × Ctx × Workgroup) :=
  (s.allCtxs.filter fun x => cs.contains x.1).flatMap fun x => (x.2.wgs.filter fun w => w.grid == h).map fun w => (x.1, x.2, w)

/-- Every admission of a neighbourhood withdrawn, and its STARTs still under way (R427). -/
def withdrawNb (s : State) (h : Nat) (p : Placed) : State :=
  let mine := fun (b : Nat) => p.first ≤ b && b < p.first + p.cores.length
  let s := { s with agenda := s.agenda.filter fun i => match i with
    | .start l y a => !(y == h && l.pkg == p.pkg && l.die == p.die && mine a.block)
    | _ => true }
  let cs := (p.cores.map fun c => ({ pkg := p.pkg, die := p.die, core := c.1 } : CoreRef)).eraseDups
  ((leafWgs s cs h).filter fun x => mine x.2.2.block && !x.2.2.cleared).foldl (fun s x => withdraw s x.1 x.2.1.gen x.2.2.slot) s

/-- The leader takes a START's status (R427): once every member has answered OK it sends GO to each leaf concerned; a START that
is turned away withdraws the neighbourhood, and the leader searches again. -/
def startAnswered (s : State) (l : Link) (h : Nat) (a : StartArgs) (status : Nat) : State :=
  match (s.grid h).bind fun g => (g.placed.find? fun p => p.pkg == l.pkg && p.die == l.die && p.first + a.m == a.block).map fun p => (g, p) with
  | none => s
  | some (g, p) =>
    if p.gone || p.relaunch then s
    else if status == 0 then
      let ok := if p.ok.contains a.m then p.ok else p.ok ++ [a.m]
      let all := ok.length == p.cores.length
      let s := s.modGrid h fun g => { g with placed := mapIf (fun q => q.first == p.first) (fun q => { q with ok := ok, gone := all }) g.placed }
      if !all then s
      else ((p.cores.map fun c => linkOf s p.pkg p.die c.1).eraseDups).foldl (fun s k => s.post (.go k h p.first)) s
    else
      let s := withdrawNb s h p
      let back := fun (g : Grid) =>
        if a.relaunch then
          { g with requeue := p.first :: g.requeue, placed := mapIf (fun q => q.first == p.first) (fun q => { q with relaunch := true, ok := [] }) g.placed }
        else
          { (g.modNode (isDie p.pkg p.die) fun n => { n with ranges := (p.first, p.first + p.cores.length) :: n.ranges }) with
            placed := g.placed.filter fun q => q.first != p.first }
      let _ := g
      (s.modGrid h back).postOnce (.neighbourhoodPlacement p.pkg p.die)

/-- START: the workgroup admitted, or the status why not (R427). -/
def execStart (l : Link) (h : Nat) (a : StartArgs) : Meaning := fun s =>
  match s.grid h with
  | none => .next s
  | some g =>
    if l.malformed || g.complete then .next s
    else
      let (s, st) := admitStart s l g a
      .next (startAnswered s l h a st)

/-- The workgroups of a neighbourhood that START admitted on a leaf's cores and that have not been told to go. -/
def toStart (s : State) (l : Link) (h first : Nat) (g : Grid) : List (CoreRef × Ctx × Workgroup) :=
  (leafWgs s (leafCores s l) h).filter fun x => x.2.2.block / g.lrec.nbn * g.lrec.nbn == first && !x.2.2.cleared

/-- GO: every workgroup of the neighbourhood that START admitted on the leaf's cores starts (R427), once its frames have been
cleared (R63); one whose context is away starts when it comes back (R17). -/
def execGo (l : Link) (h first : Nat) : Meaning := fun s =>
  match s.grid h with
  | none => .next s
  | some g =>
    if l.malformed || g.complete then .next s
    else
      let go := fun (slot : Nat) (k : Ctx) => k.modWg slot fun w => { w with cleared := true }
      .next ((toStart s l h first g).foldl (fun s x =>
        ((s.modCtxAt x.1 x.2.1.gen (go x.2.2.slot)).modSaved x.1 x.2.1.gen (go x.2.2.slot)).postOnce (.frameClearingDone x.1 x.2.2.slot)) s)

/-! ### The start of a block (R23, R51-R53, R63) -/

/-- A range of G set to zero page by page; a page that the first stage does not map, or maps without W, and one whose second-stage fault the
hypervisor has declined, is left out: its first access meets the fault (R62, R63). DEDUCED (log 88). The fuel bounds the pages. -/
def gClear (s : State) (level cid : Nat) : Nat → Nat → Nat → State
  | 0, _, _ => s
  | fuel + 1, va, n =>
    if n == 0 then s
    else
      let m := min n (2 ^ 16 - va % 2 ^ 16)
      let s := match gPa s level cid va .write with
        | .ok pa => { s with gmem := sclear s.gmem pa m, marks := s.marks.filter fun x => !(ceilDiv pa 128 ≤ x && 128 * x + 128 ≤ pa + m) }
        | .error _ => s
      gClear s level cid fuel (va + m) (n - m)

/-- The ranges of a block's frames that are cleared: all but the register-stack slots that the image fills (R63). -/
def frameRanges (g : Grid) (block : Nat) : List (Nat × Nat) :=
  (List.range g.lrec.wgsize).flatMap fun t =>
    let skip := 4 * g.kern.allot
    [(g.frameBase block t, g.slimit), (g.bstore block t + skip, g.frame - g.slimit - skip)]

/-- The frames of a block set to zero (R63). -/
def clearFrames (s : State) (g : Grid) (block : Nat) : State :=
  (frameRanges g block).foldl (fun s r => gClear s g.level g.cid (r.2 / 2 ^ 16 + 2) r.1 r.2) s

/-- The context engine that clears a block's frames, as the agent of a wait for the hypervisor. -/
def clearRef (c : CoreRef) (gen wslot : Nat) : ThreadRef := { core := c, gen := gen, wslot := wslot, tid := 2 ^ 10 }

/-- The first page of a block's frames whose clearing must wait for the hypervisor (R404, R407): its address, with what its walk met. -/
def clearWait (s : State) (g : Grid) (who : ThreadRef) (block : Nat) : Option (Nat × Nat × Nat) :=
  (frameRanges g block).findSome? fun r => if r.2 == 0 then none else
    (List.range ((r.1 + r.2 - 1) / 2 ^ 16 - r.1 / 2 ^ 16 + 1)).findSome? fun i =>
      let va := (r.1 / 2 ^ 16 + i) * 2 ^ 16
      match gPa s g.level g.cid va .write with
      | .error (.stage2 ipa k) => if s.xwaits.any fun w => w.stage == 2 && w.engine && w.t == who && w.va == va && w.declined then none else some (va, ipa, k)
      | _ => none

/-- Whether a line of a block's frames, or of its image, is one that a copy engine owns: the clearing waits for it (R91). -/
def clearHeld (s : State) (g : Grid) (block : Nat) : Bool :=
  (frameRanges g block).any (fun r => r.2 != 0 && gHeld s g.level g.cid r.1 r.2) ||
    gHeld s g.level g.cid (if g.lrec.imgall then g.lrec.img else g.lrec.img + 384 * (block * g.lrec.wgsize)) (384 * if g.lrec.imgall then 1 else g.lrec.wgsize)

/-- A thread's first state from its image record (R51-R53). -/
def imageThread (g : Grid) (v : Nat) (t : Thread) (clk : Nat) : Thread :=
  { t with pc := g.lrec.kimg + g.kern.entry, status := .seedbed, age := clk, pred := bits (v / 2 ^ 2160) 6 0,
           v := (List.range g.kern.allot).foldl (fun m i => wset m i (v / 2 ^ (32 * i))) [] }

/-- The image records of a block's threads, or none while one cannot be read. -/
def imagesOf (s : State) (g : Grid) (block : Nat) : Option (List Nat) :=
  (List.range g.lrec.wgsize).foldl (fun (acc : Option (List Nat)) t => acc.bind fun l =>
    let a := if g.lrec.imgall then g.lrec.img else g.lrec.img + 384 * (block * g.lrec.wgsize + t)
    match gBytes s g.level g.cid a 384 with
    | .ok v => some (l ++ [v])
    | .error _ => none) (some [])

/-- The launch groups of a workgroup placed in their slots, 32 threads at a time; where no slot is free they stay in the
seedbed (R23). -/
def launchGroups (s : State) (c : CoreRef) (wslot n : Nat) : State :=
  (List.range (ceilDiv n 32)).foldl (fun s j => s.placeGroup c wslot ((List.range (min 32 (n - 32 * j))).map fun i => 32 * j + i)) s

/-- A block's first start noted at its die's and package's nodes, and the die's demand for more (R301). -/
def noteBegun (s : State) (h pkg die : Nat) : State :=
  let s := s.modGrid h fun g => g.modNode (fun n => isPkg pkg n || isDie pkg die n) fun n => { n with begun := n.begun + 1 }
  askMore s h pkg die

/-- The frames of a block are clear: it starts (R23, R53, R63, R302). A CANCEL that the die has taken since is pending on
its threads (R308). -/
def execFrameClearingDone (c : CoreRef) (wslot : Nat) : Meaning := fun s =>
  match (s.core c).ctx.bind fun k => (k.wg wslot).bind fun w => (s.grid w.grid).map fun g => (k, w, g) with
  | none => .next s
  | some (k, w, g) =>
    if w.started || !w.cleared then .next s
    else if k.st != .running then .next (s.post (.frameClearingDone c wslot))
    else
      let who := clearRef c k.gen wslot
      match clearWait s g who w.block, imagesOf s g w.block with
      | some (va, ipa, kind), _ => .next ((s.noteStage2 who true va ipa kind).post (.frameClearingDone c wslot))
      | none, none => .next (s.post (.frameClearingDone c wslot))
      | none, some imgs =>
        if clearHeld s g w.block then .next (s.post (.frameClearingDone c wslot)) else
        let s := clearFrames { s with xwaits := s.xwaits.filter fun x => x.t != who } g w.block
        let cut := g.lrec.cmode && g.cancelledAt c.pkg c.die
        let ths := (w.threads.zip imgs).map fun x => { imageThread g x.2 x.1 s.clk with pcan := cut }
        let s := s.modWg c wslot fun w => { w with threads := ths, started := true, cut := cut }
        let s := (launchGroups s c wslot g.lrec.wgsize).seeded c
        let s := s.sendCount c g.handle { started := 1 }
        .next (if w.relaunches == 0 then noteBegun s g.handle c.pkg c.die else s)

/-! ### Cancellation (R307, R308) -/

/-- A CANCEL pending on every live thread of a workgroup; the waits that it ends are over (R308). -/
def cancelThreads (s : State) (c : CoreRef) (k : Ctx) (w : Workgroup) : State :=
  let live := w.threads.filter fun t => t.status == .grouped || t.status == .seedbed || t.status == .waitXlate
  let s := s.modCtxAt c k.gen fun k => k.modWg w.slot fun w => { w with cut := true }
  let s := live.foldl (fun s t => s.modThreadAt { core := c, gen := k.gen, wslot := w.slot, tid := t.tid } fun t => { t with pcan := true }) s
  (k.groups.filter fun g => g.wslot == w.slot && notYet g.stall).foldl (fun s g => s.cutWait c k.gen g) s

/-- A CANCEL that reached a leaf while a context was away taken as the context comes back (R308). -/
def lateCancels (s : State) (c : CoreRef) : State :=
  match (s.core c).ctx with
  | none => s
  | some k => k.wgs.foldl (fun s w => match s.grid w.grid with
    | some g =>
      let at_ := w.home.getD c
      if w.started && !w.ended && !w.cut && g.lrec.cmode && g.cancelledAt at_.pkg at_.die then cancelThreads s c k w else s
    | none => s) s

/-- A CANCEL at a leaf: admissions without GO withdrawn, and under CMODE a CANCEL for the threads of running blocks (R308,
R427). -/
def cancelLeaf (s : State) (cs : List CoreRef) (h : Nat) (cmode : Bool) : State :=
  (leafWgs s cs h).foldl (fun s x =>
    if !x.2.2.cleared then withdraw s x.1 x.2.1.gen x.2.2.slot
    else if cmode && x.2.2.started then cancelThreads s x.1 x.2.1 x.2.2
    else s) s

/-- A CANCEL at a die leader (R307): every neighbourhood that has not been started is cancelled and counted, and the leaves
of the others are told. -/
def cancelDie (s : State) (l : Link) (h : Nat) (cmode : Bool) : State :=
  match (s.grid h).bind fun g => (g.dieNode l.pkg l.die).map fun n => (g, n) with
  | none => s
  | some (g, n) =>
    if g.complete || n.st == 3 then s
    else
      let here := g.placed.filter fun p => p.pkg == l.pkg && p.die == l.die
      let unstarted := here.filter fun p => p.relaunch || !p.gone
      let blocks := rangeSize n.ranges + unstarted.foldl (fun t p => t + p.cores.length) 0
      let s := s.modGrid h fun g =>
        { (g.modNode (isDie l.pkg l.die) fun n => { n with ranges := [], st := 3, asked := false }) with
          requeue := g.requeue.filter fun f => !unstarted.any fun p => p.first == f,
          placed := g.placed.filter fun p => !unstarted.any fun q => q.first == p.first }
      let s := if blocks == 0 then s else s.post (.count l h { cancelled := blocks })
      let links := ((here.filter fun p => !p.relaunch).flatMap fun p => p.cores.map fun c => linkOf s p.pkg p.die c.1).eraseDups
      links.foldl (fun s k => s.post (.cancel { k with tag := 1 } h cmode)) s

/-- CANCEL: at the die leader (tag 0) or at a leaf (tag 1), by R307 and R308 (R425). -/
def execCancel (l : Link) (h : Nat) (cmode : Bool) : Meaning := fun s =>
  if l.malformed then .next s else if l.tag == 0 then .next (cancelDie s l h cmode) else .next (cancelLeaf s (leafCores s l) h cmode)

/-- DEMAND: the next ranges of the package and the root (R301). -/
def execDemand (l : Link) (h _unstarted : Nat) : Meaning := fun s =>
  match s.grid h with
  | none => .next s
  | some g => if l.malformed || g.complete then .next s else .next (servePkg s h l.pkg)

/-- COUNT: a die's counts added at its node and its ancestors (R303); the package may now want more blocks, and the grid may
have completed. -/
def execCount (l : Link) (h : Nat) (d : Deltas) : Meaning := fun s =>
  match s.grid h with
  | none => .next s
  | some g => if l.malformed || g.complete then .next s else .next (tryFinish (servePkg (addCount s h l.pkg l.die d) h l.pkg) h)

/-- FAULTREC: a record or mask reaches the fault area (R306). -/
def execFaultrec (l : Link) (h : Nat) (r : FaultRec) : Meaning := fun s =>
  match s.grid h with
  | none => .next s
  | some g => if l.malformed || g.complete then .next s else .next (tryFinish (takeFault s h r) h)

/-- A grid's time budget runs out: it is cancelled as by `gcan`, with CCAUSE bit 2 (R300). -/
def execTimeBudgetExpiry (h : Nat) : Meaning := fun s =>
  match s.grid h with
  | none => .next s
  | some g => if g.complete || g.lrec.tbudget == 0 || s.time g.rootPkg < g.accepted + 1000 * g.lrec.tbudget then .next s
    else .next (tryFinish (cancelGrid s h 4) h)

end Sys2Proof.Machine
end

