-- ==== Sys2Proof/Machine/Collective.lean ====
section
/-! DEFINITION. Pod collectives: fires, the Cumulus engines, the reduction and its result, and the instructions `cfr`, `cwt` and
`cqy` (R316-R326, R341, R342, R463). -/

namespace Sys2Proof.Machine

open State

/-! ### The reduction (R319, R320) -/

/-- An exact value kept as what a wire element stands for: a block of elements rounded to a narrow format (R102, R320). -/
def wireBlock (wfmt seed : Nat) (rank step base : Nat) (xs : List Fp) : List Fp :=
  let sc := blockScale wfmt xs
  let o := if wfmt == 6 then blockOutlier sc xs else 0
  xs.zipIdx.map fun x => narrowValue wfmt (quantise wfmt (.sr (mix64 seed rank step (base + x.2))) sc o x.1).1 sc o

/-- A list cut into runs of 32. The fuel bounds the runs. -/
def runs32 {α : Type} : Nat → List α → List (List α)
  | 0, _ => []
  | n + 1, l => if l.isEmpty then [] else l.take 32 :: runs32 n (l.drop 32)

/-- `Q` of R320 on a chunk's elements. -/
def wireRound (wfmt seed cseq chunk rank h : Nat) (xs : List Fp) : List Fp :=
  if wfmt ≤ 2 then xs.map fun x => (fmtOf wfmt).decode ((fmtOf wfmt).round .rne x).1
  else ((runs32 xs.length xs).zipIdx.map fun b =>
    wireBlock wfmt seed rank ((cseq * 512 + h) % 2 ^ 32) (chunk * xs.length + 32 * b.2) b.1).flatten

/-- The elements of a chunk's bytes. -/
def chunkElems (efmt n v : Nat) : List Fp :=
  let w := fmtBits efmt
  (List.range n).map fun i => (fmtOf efmt).decode (v / 2 ^ (w * i) % 2 ^ w)

/-- The result of a reduction over the sources in ring order (R319), the first being rank `o + 1`'s. -/
def ringSum (efmt wfmt seed cseq chunk n cnt o : Nat) (srcs : List Nat) : Nat :=
  let xs := srcs.map (chunkElems efmt cnt)
  let out := fun (l : List Fp) => l.zipIdx.foldl (fun v x => v + ((fmtOf efmt).round .rne x.1).1 * 2 ^ (fmtBits efmt * x.2)) 0
  match xs with
  | [] => 0
  | [_] => srcs.headD 0
  | x0 :: rest =>
    let start := wireRound wfmt seed cseq chunk ((o + 1) % n) 0 x0
    let p := rest.zipIdx.foldl (fun (p : List Fp) y =>
      let h := y.2 + 1
      let sum := (p.zip y.1).map fun z => (cumulus [z.1, z.2]).value
      if h < n - 1 then wireRound wfmt seed cseq chunk ((o + 1 + h) % n) h sum else sum) start
    out p

/-! ### A chunk at its engines (R323, R342, R463) -/

/-- A chunk as its engines see it: its grid, binding, communicator and state. -/
structure ChunkAt where
  g : Grid
  b : Coll
  m : Comm
  k : Chunk
  deriving DecidableEq, Repr

/-- A chunk of a binding of a grid. -/
def chunkAt (s : State) (h i c : Nat) : Option ChunkAt := do
  let g ← s.grid h
  let b ← g.colls[i]?
  let m ← commOf s g b
  pure { g := g, b := b, m := m, k := (g.chunks.find? fun x => x.b == i && x.c == c).getD { b := i, c := c } }

namespace ChunkAt

/-- The number of ranks. -/
def n (x : ChunkAt) : Nat := x.m.ranks.length

/-- The package of a rank. -/
def pkgOf (x : ChunkAt) (r : Nat) : Nat := (x.m.ranks[r]?).getD 0

/-- The owner of the chunk (R319). -/
def owner (x : ChunkAt) : Nat := x.k.c % x.n

/-- The ranks whose sources are read, in the order in which they are (R319, R321). -/
def sources (x : ChunkAt) : List Nat :=
  if x.b.op ≤ 1 then (List.range x.n).map fun j => (x.owner + 1 + j) % x.n
  else if x.b.op == 2 then List.range x.n else [x.b.root]

/-- The ranks that write a destination (R321). -/
def writers (x : ChunkAt) : List Nat := if x.b.op == 1 then [x.owner] else List.range x.n

/-- The source range of a rank (R317). -/
def srcAt (x : ChunkAt) (r : Nat) : Nat := x.b.src + (r * x.b.nch + x.k.c) * x.b.cb

/-- The destination ranges that a rank writes, each with the rank whose source it takes (R321). -/
def dstAt (x : ChunkAt) (r : Nat) : List (Nat × Nat) :=
  if x.b.op == 2 then (List.range x.n).map fun q => (x.b.dst + ((r * x.n + q) * x.b.nch + x.k.c) * x.b.cb, q)
  else if x.writers.contains r then [(x.b.dst + (r * x.b.nch + x.k.c) * x.b.cb, x.b.root)] else []

/-- Whether it is a rank's turn to read its source: its slot has fired, and in a ring the partial has reached it. -/
def readTurn (x : ChunkAt) (s : State) (i r : Nat) : Bool :=
  !(x.k.src.any fun y => y.1 == r) &&
    (if x.b.op ≤ 1 then x.sources[x.k.src.length]? == some r && x.g.slotFired i x.b (r * x.b.nch + x.k.c)
     else if x.b.op == 2 then x.g.slotFired i x.b (r * x.b.nch + x.k.c)
     else r == x.b.root && s.chunkFired x.g i x.b x.k.c)

/-- Whether it is a rank's turn to write its destinations: every source is in, and every slot that counts has fired (R318). -/
def writeTurn (x : ChunkAt) (s : State) (i r : Nat) : Bool :=
  x.k.src.length == x.sources.length && x.writers.contains r && !x.k.written.contains r && s.chunkFired x.g i x.b x.k.c

/-- Whether a rank's next step is to read its source, its engine having translated. -/
def mayRead (x : ChunkAt) (s : State) (i r : Nat) : Bool := x.k.translated.contains r && x.readTurn s i r

/-- Whether a rank's next step is to write its destinations, every engine having translated (R463). -/
def mayWrite (x : ChunkAt) (s : State) (i r : Nat) : Bool := x.writeTurn s i r && (List.range x.n).all fun q => x.k.translated.contains q

/-- Whether a rank's engine is to accept the chunk: for a step that can be made, or to translate for one that comes next (R323, R463). -/
def mayStart (x : ChunkAt) (s : State) (i r : Nat) : Bool :=
  x.mayRead s i r || x.mayWrite s i r || (!x.k.translated.contains r && (x.readTurn s i r || x.writeTurn s i r))

end ChunkAt

/-- Whether a chunk has ended. -/
def chunkOver (x : ChunkAt) : Bool := 2 ≤ x.k.st

/-- The acceptances of a chunk's next steps posted (R323). -/
def nextSteps (s : State) (h i c : Nat) : State :=
  match chunkAt s h i c with
  | none => s
  | some x =>
    if chunkOver x then s
    else (List.range x.n).foldl (fun s r =>
      if !x.k.accepted.contains r && x.mayStart s i r then s.postOnce (.chunkAcceptance h i c r) else s) s

/-- The engine of a stack of a package changed. -/
def modEngine (s : State) (pkg stack : Nat) (f : Engine → Engine) : State :=
  s.modPkg pkg fun p => { p with engines := mapIf (fun e => e.stack == stack) f p.engines }

/-- Every reservation of a chunk given back at every engine. -/
def freeChunk (s : State) (x : ChunkAt) (h i : Nat) : State :=
  let mine := fun (y : Nat × Nat × Nat × Nat × Nat × Nat) => y.2.2.1 == h && y.2.2.2.1 == i && y.2.2.2.2.1 == x.k.c
  x.k.accepted.foldl (fun s r => modEngine s (x.pkgOf r) (x.k.c % 12) fun e =>
    { e with waiting := e.waiting.filter fun y => !mine y,
             used := mapIf (fun u => u.1 == x.m.part && u.2.1 == x.m.comm) (fun u => (u.1, u.2.1, u.2.2 - x.b.cb)) e.used }) s

/-- A chunk ended in a state (R325): its waiters go on, the switch slots go with the last chunk, and its grid may complete. -/
def endChunk (s : State) (h i c st : Nat) (xlost : Bool) : State :=
  let s := s.modGrid h fun g => modChunk g i c fun k => { k with st := st, xlost := xlost, src := [], accepted := [] }
  let last := match (s.grid h).bind fun g => (g.colls[i]?).map fun b => (g, b) with
    | some (g, b) => (List.range b.nch).all fun j => 2 ≤ chunkState g i j
    | none => false
  let s := if last then s.dropSwitch h i else s
  tryFinish (wakeEvery s fun w => w == .chunk) h

/-- A chunk LOST on every rank (R325, R463), counted at a package's engine (R440). -/
def loseChunk (s : State) (x : ChunkAt) (h i pkg : Nat) (xlost : Bool) : State := endChunk ((freeChunk s x h i).countPkg pkg 0x2020) h i x.k.c 4 xlost

/-- How an engine's translation of pages went. -/
inductive EngXlate where
  | ok (pages : List (Nat × Nat))
  | wait (va ipa kind : Nat)
  | fail
  deriving DecidableEq, Repr

/-- The pages of a range translated for an access, keyed by page and access. -/
def engPages (s : State) (g : Grid) (who : ThreadRef) (a : Acc) (va n : Nat) : EngXlate :=
  (List.range ((va + n - 1) / 2 ^ 16 - va / 2 ^ 16 + 1)).foldl (fun acc j =>
    match acc with
    | .ok ps =>
      let v := (va / 2 ^ 16 + j) * 2 ^ 16
      let mine := s.xwaits.filter fun w => w.stage == 2 && w.engine && w.t == who && w.va == v
      if mine.any fun w => w.declined then .fail
      else if !mine.isEmpty then .wait v 0 0
      else
        match s.walk g.level g.cid v a with
        | .ok l => .ok (ps ++ [(v / 2 ^ 16 * 8 + a.kind, l.addr)])
        | .error (.stage2 ipa k) => .wait v ipa k
        | .error _ => .fail
    | r => r) (.ok [])

/-- The engine of a stack as the agent of a wait for the hypervisor. -/
def engineRef (pkg stack rank : Nat) : ThreadRef := { core := { pkg := pkg, die := 0, core := 0 }, gen := 2 ^ 16, wslot := stack, tid := rank }

/-- What a rank's engine reads and writes of a chunk. -/
def chunkRanges (x : ChunkAt) (r : Nat) : List (Acc × Nat) :=
  (if x.sources.contains r then [(Acc.read, x.srcAt r)] else []) ++ (x.dstAt r).map fun d => (Acc.write, d.1)

/-- Its pages translated, or what the translation of one of them met. -/
def chunkPages (s : State) (x : ChunkAt) (c r : Nat) : EngXlate :=
  (chunkRanges x r).foldl (fun acc y => match acc with
    | .ok ps => match engPages s x.g (engineRef (x.pkgOf r) (c % 12) r) y.1 y.2 x.b.cb with
      | .ok qs => .ok (ps ++ qs)
      | e => e
    | e => e) (EngXlate.ok [])

/-- A rank's reservation for a chunk given back at its engine. -/
def giveBack (s : State) (x : ChunkAt) (h i r : Nat) : State :=
  (modEngine s (x.pkgOf r) (x.k.c % 12) fun e =>
    { e with used := mapIf (fun u => u.1 == x.m.part && u.2.1 == x.m.comm) (fun u => (u.1, u.2.1, u.2.2 - x.b.cb)) e.used }).modGrid h fun g =>
      modChunk g i x.k.c fun k => { k with accepted := k.accepted.erase r }

/-- A chunk that a rank's engine has accepted and translated takes part in the engine's arbitration where its step can be made. Where it waits for
other ranks' engines it gives its place in the buffer back, so that it holds nothing while it waits. DEDUCED (log 42). -/
def enterEngine (s : State) (h i c r : Nat) : State :=
  match chunkAt s h i c with
  | none => s
  | some x =>
    if x.mayRead s i r || x.mayWrite s i r then
      modEngine s (x.pkgOf r) (c % 12) fun e => { e with waiting := e.waiting ++ [(x.m.part, x.m.comm, h, i, c, r)] }
    else giveBack s x h i r

/-- An engine translates what the chunk that it has accepted reads and writes on its rank (R463); a second-stage fault waits for the
hypervisor. -/
def translateChunk (s : State) (x : ChunkAt) (h i c r : Nat) : State :=
  let who := engineRef (x.pkgOf r) (c % 12) r
  match chunkPages s x c r with
  | .ok ps => nextSteps (enterEngine (s.modGrid h fun g => modChunk g i c fun k => { k with translated := k.translated ++ [r], pages := k.pages ++ ps }) h i c r) h i c
  | .fail =>
    let s := { s with xwaits := s.xwaits.filter fun w => !(w.stage == 2 && w.engine && w.t == who) }
    loseChunk s ((chunkAt s h i c).getD x) h i (x.pkgOf r) true
  | .wait va ipa kind =>
    let s := if s.xwaits.any fun w => w.stage == 2 && w.engine && w.t == who && w.va == va then s
      else s.addWait { token := 0, t := who, engine := true, stage := 2, part := x.m.part, cid := x.g.cid, addr := ipa, va := va, kind := kind,
                       time := s.time (x.pkgOf r) }
    s.post (.chunkTranslation h i c r)

/-- An engine goes on with a translation that had to wait (R404, R463). -/
def execChunkTranslation (h i c r : Nat) : Meaning := fun s =>
  match chunkAt s h i c with
  | none => .next s
  | some x =>
    if !x.k.accepted.contains r || x.k.translated.contains r then .next s
    else if chunkOver x then .next ((giveBack s x h i r).postOnce (.engineArbitration (x.pkgOf r) (c % 12)))
    else .next ((translateChunk s x h i c r).postOnce (.engineArbitration (x.pkgOf r) (c % 12)))

/-- Whether an engine may accept a rank's step of a chunk: the communicator's buffer there can hold the whole chunk (R323). -/
def bufferRoom (s : State) (x : ChunkAt) (r : Nat) : Bool :=
  match (s.pkg (x.pkgOf r)).engines.find? fun e => e.stack == x.k.c % 12 with
  | none => false
  | some e => ((e.used.find? fun u => u.1 == x.m.part && u.2.1 == x.m.comm).map fun u => u.2.2).getD 0 + x.b.cb ≤ 2 ^ x.m.logbuf

/-- An engine accepts a rank's step of a chunk (R323): the buffer is reserved and the chunk is translated, once. -/
def acceptChunk (s : State) (x : ChunkAt) (h i c r : Nat) : State :=
  let mine := fun (u : Nat × Nat × Nat) => u.1 == x.m.part && u.2.1 == x.m.comm
  let s := modEngine s (x.pkgOf r) (c % 12) fun e =>
    { e with used := upsert mine (x.m.part, x.m.comm, ((e.used.find? mine).map fun u => u.2.2).getD 0 + x.b.cb) e.used }
  let s := s.modGrid h fun g => modChunk g i c fun k => { k with accepted := k.accepted ++ [r] }
  if x.k.translated.contains r then enterEngine s h i c r else translateChunk s x h i c r

/-- Whether a rank's engine has a chunk to accept. -/
def toAccept (s : State) (x : ChunkAt) (i r : Nat) : Bool := !chunkOver x && !x.k.accepted.contains r && x.mayStart s i r

/-- An engine accepts a chunk's step when the communicator's buffer there can hold the chunk (R323). -/
def execChunkAcceptance (h i c r : Nat) : Meaning := fun s =>
  match chunkAt s h i c with
  | none => .next s
  | some x =>
    if !toAccept s x i r then .next s
    else if !bufferRoom s x r then .next (s.post (.chunkAcceptance h i c r))
    else .next ((acceptChunk s x h i c r).postOnce (.engineArbitration (x.pkgOf r) (c % 12)))

/-- The class of an accepted chunk's communicator. -/
def classOf (s : State) (part comm : Nat) : Nat := ((s.comms.find? fun m => m.part == part && m.comm == comm).map fun m => m.cls).getD 3

/-- A communicator's place in the turn of its class: by number, and by partition among those of one number (R323). -/
def commTurn (part comm : Nat) : Nat := comm * 16 + part

/-- The chunk that an engine serves at a chunk boundary (R323): of the highest class with an accepted chunk, and in it of the communicator that
comes first in the turn after the last one served. -/
def served (s : State) (e : Engine) : Option (Nat × Nat × Nat × Nat × Nat × Nat) :=
  let cls := fun (y : Nat × Nat × Nat × Nat × Nat × Nat) => classOf s y.1 y.2.1
  (firstBy (fun a b => cls a < cls b) e.waiting).bind fun best =>
    let turn := fun (y : Nat × Nat × Nat × Nat × Nat × Nat) => (commTurn y.1 y.2.1 + 1024 - natAt e.lastComm (cls best)) % 1024
    firstBy (fun a b => turn a < turn b) (e.waiting.filter fun y => cls y == cls best)

/-- An idle engine begins the step of the chunk that it serves (R323). -/
def arbitrate (s : State) (pkg stack : Nat) : State :=
  match (s.pkg pkg).engines.find? fun e => e.stack == stack with
  | none => s
  | some e =>
    if e.current.isSome then s
    else
      match served s e with
      | none => s
      | some y =>
        (modEngine s pkg stack fun e =>
          { e with current := some y, waiting := e.waiting.erase y,
                   lastComm := sset 0 e.lastComm (classOf s y.1 y.2.1) ((commTurn y.1 y.2.1 + 1) % 1024) }).post (.chunkStepCompletion pkg stack)

/-- A chunk boundary at an engine (R323). -/
def execEngineArbitration (pkg stack : Nat) : Meaning := fun s => .next (arbitrate s pkg stack)

/-- The boundary that the completion of a step makes (R342): the chunks that wait for the engine's buffers are accepted at the same instant where
there is room now, and take part in the arbitration. -/
def boundary (s : State) (pkg stack : Nat) : State :=
  arbitrate (s.agenda.foldl (fun s i => match i with
    | .chunkAcceptance h i c r => match chunkAt s h i c with
      | some x => if c % 12 == stack && x.pkgOf r == pkg && toAccept s x i r && bufferRoom s x r then acceptChunk s x h i c r else s
      | none => s
    | _ => s) s) pkg stack

/-- The physical addresses of the lines of a chunk's range, by the pages that its engine has translated. -/
def rangeLines (x : ChunkAt) (y : Acc × Nat) : List Nat :=
  (List.range ((y.2 % 128 + x.b.cb + 127) / 128)).filterMap fun j =>
    let va := y.2 - y.2 % 128 + 128 * j
    (x.k.pages.find? fun p => p.1 == va / 2 ^ 16 * 8 + y.1.kind).map fun p => p.2 + va % 2 ^ 16

/-- Whether a line that a rank's step reads or writes is one that a copy engine owns: the engine waits for it (R91). -/
def stepHeld (s : State) (x : ChunkAt) (r : Nat) : Bool := (chunkRanges x r).any fun y => (rangeLines x y).any fun pa => s.lineOwned none (.g pa)

/-- The requests of a rank's reads or writes of a chunk, charged to its communicator's partition (R399). -/
def chargeChunk (s : State) (x : ChunkAt) (r : Nat) (a : Acc) : State :=
  s.chargeAll (x.pkgOf r) x.m.part (((chunkRanges x r).filter fun y => y.1 == a).flatMap (rangeLines x))

/-- The bytes of a range of G by the pages that an engine has translated, or none where a line is uncorrectable. The fuel bounds
the pages. -/
def engBytes (s : State) (ps : List (Nat × Nat)) : Nat → Nat → Nat → Option Nat
  | 0, _, _ => some 0
  | fuel + 1, va, n =>
    if n == 0 then some 0
    else
      let m := min n (2 ^ 16 - va % 2 ^ 16)
      match ps.find? fun p => p.1 == va / 2 ^ 16 * 8 + Acc.read.kind with
      | none => none
      | some p =>
        let pa := p.2 + va % 2 ^ 16
        if (List.range (m / 128 + 1)).any fun j => s.marked (.g (min (pa + 128 * j) (pa + m - 1))) then none
        else (engBytes s ps fuel (va + m) (n - m)).map fun v => s.readLoc (.g pa) m + 2 ^ (8 * m) * v

/-- A range of G written by the pages that an engine has translated. -/
def engPut (s : State) (ps : List (Nat × Nat)) : Nat → Nat → Nat → Nat → State
  | 0, _, _, _ => s
  | fuel + 1, va, n, v =>
    if n == 0 then s
    else
      let m := min n (2 ^ 16 - va % 2 ^ 16)
      let s := match ps.find? fun p => p.1 == va / 2 ^ 16 * 8 + Acc.write.kind with
        | some p => s.writeLoc (.g (p.2 + va % 2 ^ 16)) m v
        | none => s
      engPut s ps fuel (va + m) (n - m) (v / 2 ^ (8 * m))

/-- The value that a chunk's destination receives (R319, R321): the reduction, or the source of a rank. -/
def chunkResult (x : ChunkAt) (rank : Nat) : Nat :=
  if x.b.op ≤ 1 then
    ringSum x.b.efmt x.b.wfmt x.m.seed x.b.cseq x.k.c x.n (8 * x.b.cb / fmtBits x.b.efmt) x.owner (x.k.src.map fun y => y.2)
  else ((x.k.src.find? fun y => y.1 == rank).map fun y => y.2).getD 0

/-- What a rank's step of a chunk does (R319, R321, R325): the source of its rank is read, or its destinations are
written; the last one makes the chunk COMPLETE. -/
def chunkStep (s : State) (x : ChunkAt) (h i c r : Nat) : State :=
  if x.mayRead s i r then
    match engBytes s x.k.pages (x.b.cb / 2 ^ 16 + 2) (x.srcAt r) x.b.cb with
    | none => loseChunk s { x with k := { x.k with accepted := x.k.accepted.erase r } } h i (x.pkgOf r) false
    | some v => nextSteps ((chargeChunk s x r .read).modGrid h fun g => modChunk g i c fun k => { k with src := k.src ++ [(r, v)] }) h i c
  else if x.mayWrite s i r then
    let s := (x.dstAt r).foldl (fun s d => engPut s x.k.pages (x.b.cb / 2 ^ 16 + 2) d.1 x.b.cb (chunkResult x d.2)) (chargeChunk s x r .write)
    let s := s.modGrid h fun g => modChunk g i c fun k => { k with written := k.written ++ [r] }
    if x.k.written.length + 1 == x.writers.length then endChunk s h i c 2 false else nextSteps s h i c
  else s

/-- A chunk's step at an engine completes (R342): its reservation is freed, and the boundary follows. A step of a chunk that has ended meanwhile
does nothing. -/
def execChunkStepCompletion (pkg stack : Nat) : Meaning := fun s =>
  match ((s.pkg pkg).engines.find? fun e => e.stack == stack).bind fun e => e.current with
  | none => .next s
  | some (_, _, h, i, c, r) =>
    let idle := fun (s : State) => modEngine s pkg stack fun e => { e with current := none }
    match chunkAt s h i c with
    | none => .next (boundary (idle s) pkg stack)
    | some x =>
      if !chunkOver x && stepHeld s x r then .next (s.post (.chunkStepCompletion pkg stack))
      else
        let s := idle s
        let s := if x.k.accepted.contains r then giveBack s x h i r else s
        .next (boundary (if chunkOver x then s else chunkStep s x h i c r) pkg stack)

/-- Rank 0's package requests reduction slots on the switches of a communicator's path (R324). -/
def execSwitchSlotRequest (h b : Nat) : Meaning := fun s => .next (s.switchRequest h b)

/-! ### Instructions (R318, R326, R341) -/

/-- `cfr` (R318, R341). -/
def execCfr (e : Bool) (y : BitVec 6) : Meaning :=
  execLanes e { a := y.toNat, an := 1 } fun s i =>
    let b := i.ln.t.reg i.a
    match i.ln.g.colls[b]? with
    | none => (s, .stop (.trap .perm 3 0))
    | some cb =>
      if i.ln.g.fires.contains (b, i.ln.w.block) then (s, .ok i.ln.t)
      else if s.fireHeld i.ln.r.core i.ln.r.gen i.ln.r.wslot (some i.ln.r.tid) (State.slotSrc i.ln.g cb i.ln.w.block) cb.cb then (s, .wait i.ln.t .drain)
      else (s.fire i.ln.g.handle b i.ln.w.block, .ok i.ln.t)

/-- The binding and chunk that two registers name, or none where one of them does not exist (R326). -/
def chunkOf (g : Grid) (b c : Nat) : Option Coll := (g.colls[b]?).bind fun x => if c < x.nch then some x else none

/-- `cwt` (R308, R326). -/
def execCwt (e : Bool) (y z : BitVec 6) : Meaning :=
  execLanes e { a := y.toNat, an := 1, b := z.toNat, bn := 1 } fun s i =>
    let b := i.ln.t.reg i.a
    let c := i.ln.t.reg i.b
    match chunkOf i.ln.g b c with
    | none => (s, .stop (.trap .perm 3 0))
    | some _ => if 2 ≤ chunkState i.ln.g b c then (s, .ok i.ln.t) else (s, .wait i.ln.t .chunk)

/-- The state word of a chunk (R325). -/
def chunkWord (s : State) (g : Grid) (b c : Nat) (cb : Coll) : Nat :=
  let k := (g.chunks.find? fun x => x.b == b && x.c == c).getD { b := b, c := c }
  (if k.st == 0 && s.chunkFired g b cb c then 1 else k.st) + (if cb.switch then 8 else 0) + (if k.st == 4 && k.xlost then 16 else 0)

/-- `cqy` (R325, R326). -/
def execCqy (e : Bool) (x y z : BitVec 6) (l : BitVec 4) : Meaning :=
  execLanes e { d := x.toNat, dn := 1, a := y.toNat, an := 1, b := z.toNat, bn := 1 } fun s i =>
    let b := i.ln.t.reg i.a
    let c := i.ln.t.reg i.b
    match chunkOf i.ln.g b c with
    | none => (s, .stop (.trap .perm 3 0))
    | some cb => (s, .ok (owe i.ln.t l.toNat i.d 1 (chunkWord s i.ln.g b c cb)))

end Sys2Proof.Machine
end

