-- ==== Sys2Proof/Machine/SaveArea.lean ====
section
/-! DEFINITION. The save area: a context as bytes and bytes as a context, its pages, and the late-arrival log applied at a load
(R378-R385). A context here is one that has halted: the ages of its threads and the waits of its groups stand as clk elapsed. -/

namespace Sys2Proof.Machine

open State

/-! ### Bytes in ascending order -/

/-- The bytes of `v` from an offset, as a memory; bytes of 0 are not listed. -/
def cells (off : Nat) : Nat → Nat → Mem
  | 0, _ => []
  | n + 1, v => if v == 0 then [] else
    if v % 256 == 0 then cells (off + 1) n (v / 256) else (off, BitVec.ofNat 8 v) :: cells (off + 1) n (v / 256)

/-- A memory moved up by an offset. -/
def shiftUp (off : Nat) (m : Mem) : Mem := m.map fun x => (x.1 + off, x.2)

/-- The `n` bytes of a memory from `base`, moved to offset 0. -/
def sliceMem (m : Mem) (base n : Nat) : Mem := (m.filter fun x => base ≤ x.1 && x.1 < base + n).map fun x => (x.1 - base, x.2)

/-- The `n` bytes of a memory from `base` replaced by those of another from its offset 0. -/
def putMem (m : Mem) (base n : Nat) (v : Mem) : Mem :=
  (m.filter fun x => x.1 < base) ++ shiftUp base (v.filter fun x => x.1 < n) ++ m.filter fun x => base + n ≤ x.1

/-- Fields of a word by lowest bit and width, the others 0. -/
def packBits (l : List (Nat × Nat × Nat)) : Nat := l.foldl (fun a x => a + x.2.2 % 2 ^ x.2.1 * 2 ^ x.1) 0

/-! ### A context as bytes (R380-R384) -/

/-- The code of a thread's status (R21). -/
def ThreadStatus.code : ThreadStatus → Nat
  | .none => 0
  | .grouped => 1
  | .seedbed => 2
  | .faulted => 3
  | .waitXlate => 4
  | .exited => 5

/-- The status of a code. -/
def statusOf (n : Nat) : ThreadStatus :=
  match n with
  | 1 => .grouped
  | 2 => .seedbed
  | 3 => .faulted
  | 4 => .waitXlate
  | 5 => .exited
  | _ => .none

/-- The result owed to a thread whose window is open, or that has not arrived (R146, R373). -/
def openOwed (t : Thread) : Option Owed := t.owed.find? fun o => o.left != 0 || o.value.isNone

/-- Whether a result is owed to a thread (R373). -/
def respend (t : Thread) : Bool := t.owed.any (fun o => o.value.isNone) || match t.pend with
  | .request _ => true
  | _ => false

/-- A thread's record of 384 bytes (R383), with its group slot and lane. -/
def threadWord (t : Thread) (wslot allot group lane : Nat) : Nat :=
  let o := openOwed t
  packBits [(3008, 64, (o.bind fun o => o.value).getD 0), (2944, 64, t.bstore), (2912, 16, t.tid), (2896, 8, wslot), (2888, 8, lane),
    (2880, 8, group), (2848, 32, t.age), (2816, 4, t.selp), (2304, 512, State.recWord t.fault), (2282, 6, (o.map fun o => o.reg).getD 0),
    (2278, 4, (o.map fun o => o.left).getD 0), (2277, 1, t.pbdiv.isSome.toNat), (2276, 1, t.pcan.toNat), (2275, 1, (respend t).toNat),
    (2274, 1, (t.sigAt.contains (t.pc, t.inHandler)).toNat), (2273, 1, t.inPre.toNat), (2272, 1, t.inHandler.toNat), (2240, 32, t.links), (2208, 32, t.status.code),
    (2176, 8, t.rep), (2168, 8, t.flags), (2160, 8, 128 + t.pred % 128), (2152, 8, allot), (2144, 8, t.c), (2112, 32, t.wb), (2048, 64, t.pc)] +
    (List.range t.c).foldl (fun a i => a + wget t.v i * 2 ^ (32 * i)) 0

/-- The state and wait of a group as its table entry gives them (R382). -/
def groupWord (k : Ctx) (g : Group) : Nat :=
  let rank := ((k.groups.filter fun x => x.sched == g.sched && x.age < g.age)).length
  let st := match g.st with
    | .waiting => 2
    | .pReady | .pStalled => 3
    | .pWaiting => 4
    | _ => 1
  let kind := match g.stall with
    | .merge => 1
    | .sleep => 2
    | .phaser => 3
    | .wgrow _ _ => 4
    | _ => 0
  packBits [(0, 8, st), (8, 8, g.sched), (16, 8, rank), (24, 8, g.wslot), (32, 32, kind), (64, 32, g.left)]

/-- A workgroup block (R382). -/
def wgWord (g : Grid) (w : Workgroup) : Nat :=
  packBits [(0, 32, w.block), (32, 16, w.threads.length), (48, 16, w.tbase), (64, 32, w.lbase), (96, 32, w.lsize), (128, 8, w.m),
    (136, 8, w.members.length), (144, 16, g.kern.phasers), (192, 64, g.lrec.kimg), (256, 64, g.lrec.rcba),
    (320, 64, (g.fires.filter fun f => f.2 == w.block).foldl (fun a f => a + 2 ^ f.1) 0), (384, 1, (!w.marked.isEmpty).toNat), (388, 4, w.relaunches)]

/-- A thread's slot in a context (R383). -/
def slotIn (k : Ctx) (wslot tid : Nat) : Nat := ((k.wg wslot).map fun w => w.tbase).getD 0 + tid

/-- A copy-queue entry (R384). What it says of the lines it owns is open, and the copy's descriptor and progress tell them. -/
def copyWord (k : Ctx) (e : CopyEntry) : Nat :=
  packBits ([(0, 64, e.x), (64, 64, e.y), (384, 64, e.written), (448, 16, slotIn k e.wslot e.tid), (464, 8, e.sub), (472, 8, e.f),
    (480, 8, if e.st == .gated then 1 else if e.st == .active then 2 else 3), (488, 8, e.detail), (496, 16, Config.ownedLines e.id)] ++ e.desc.zipIdx.map fun (x : Nat × Nat) => (128 + 32 * x.2, 32, x.1))

/-- The copies that the copy-queue section holds. -/
def savedCopies (k : Ctx) : List CopyEntry := (k.copies.filter fun e => e.f != drainF && (e.st != .ended || (e.detail != 0 && !e.reported))).take 64

/-- A core's part of a tile in two operand words. -/
def partFields (p : Part4) : List (Nat × Nat × Nat) := [(768, 16, p.m0), (784, 16, p.mq), (800, 16, p.q0), (816, 16, p.nq)]

/-- A sequencer entry's 256 bytes (R384). -/
def seqWord (q : SeqEntry) : Nat :=
  let recs := fun (l : List (BitVec 128)) => l.zipIdx.map fun (x : BitVec 128 × Nat) => (128 + 128 * x.2, 128, x.1.toNat)
  let (sub, l) := match q.op with
    | .mbld b s c p => (1, recs [b, s, c] ++ partFields p)
    | .mzro mask => (2, [(640, 32, mask)])
    | .mlp slot a b n binc ainc sel _ p coop sbase =>
      (3, recs [a, b] ++ partFields p ++ [(640, 11, n), (651, 10, binc), (661, 6, sbase), (672, 32, wrapInt ainc 32),
        (704, 2, slot), (706, 2, sel), (708, 1, coop.isSome.toNat), (736, 32, coop.getD 0)])
    | .mdrn slot c mode amax p coop =>
      (4, recs [c] ++ partFields p ++ [(640, 64, amax.getD 0), (704, 2, slot), (706, 3, mode), (709, 1, amax.isSome.toNat), (710, 1, coop.toNat)])
    | .mwtSg _ => (13, [])
  packBits ([(0, 32, sub), (32, 32, q.progress), (64, 32, q.rmax)] ++ l)

/-- A scale pool: the scale registers of an entry, then its outliers (R384). -/
def scaleCells (i : Nat) (q : SeqEntry) : Mem :=
  match q.op with
  | .mlp _ _ _ _ _ _ _ scales _ _ _ => scales.flatMap fun x => cells (0x400000 + 0x40000 * i + 4 * x.1) 4 x.2.toNat
  | _ => []

/-- The rows of the B image (R381). -/
def bRows (m : Matrix) : List Nat :=
  (m.bdata.map (fun (x : Host.Cell) => x.1 / 4096) ++ m.bscale.map (fun (x : Host.Cell) => x.1 / 128) ++ m.bout.map fun (x : Host.Cell) => x.1 / 128).eraseDups

/-- The B side storage (R380). -/
def sideCells (m : Matrix) : Mem :=
  let keys := sortBy (fun a b => a ≤ b) (m.bscale.map (fun (x : Host.Cell) => x.1) ++ m.bout.map fun (x : Host.Cell) => x.1).eraseDups
  keys.flatMap fun i => cells (0xC00000 + 2 * i) 2 (((mbyte m.bscale i).toNat ^^^ 0x7F) + 256 * (mbyte m.bout i).toNat)

/-- The workgroup phasers of a context in slot and then handle order (R384). -/
def ctxPhasers (s : State) (c : CoreRef) (k : Ctx) : List (Workgroup × Phaser) :=
  let ws := sortBy (fun (a b : Workgroup) => a.slot ≤ b.slot) k.wgs
  ws.flatMap fun w => (sortBy (fun (a b : Phaser) => a.handle ≤ b.handle) (s.phasers.filter fun p => p.owner == some (c, k.gen, w.slot))).map fun p => (w, p)

/-- A phaser's image of 64 bytes (R384). -/
def phaserWord (p : Phaser) (wslot first : Nat) : Nat :=
  packBits [(448, 64, p.fpc.getD 0), (416, 32, first), (400, 16, p.members.length), (384, 16, p.handle), (376, 8, wslot), (374, 1, p.phexd.toNat),
    (373, 1, p.held.toNat), (372, 1, p.opening.toNat), (368, 2, p.marks), (370, 2, p.lastMarks), (312, 56, wrapInt p.pending 56),
    (256, 32, p.departed + (p.members.filter fun m => PhMember.signals m.mode && phLt p.phase m.sp).length), (224, 32, p.signallers), (0, 32, p.phase)]

/-- A member record of 16 bytes (R384). -/
def memberWord (w : Workgroup) (m : PhMember) : Nat :=
  packBits [(0, 16, w.tbase + m.t.tid), (16, 2, m.mode), (20, 2, m.change.getD 0), (22, 1, m.change.isSome.toNat), (23, 1, (m.change == some 0).toNat),
    (32, 32, m.sp), (64, 32, m.wp)]

/-- The phaser region's images and member records. -/
def phaserCells (s : State) (c : CoreRef) (k : Ctx) : Mem × Nat :=
  let ps := ctxPhasers s c k
  let n := ps.length
  let r := ps.zipIdx.foldl (fun (acc : Mem × Mem × Nat) x =>
    (acc.1 ++ cells (0xC40000 + 64 * x.2) 64 (phaserWord x.1.2 x.1.1.slot acc.2.2),
     acc.2.1 ++ x.1.2.members.zipIdx.flatMap (fun y => cells (0xC40000 + 64 * n + 16 * (acc.2.2 + y.2)) 16 (memberWord x.1.1 y.1)),
     acc.2.2 + x.1.2.members.length)) ([], [], 0)
  (r.1 ++ r.2.1, 64 * n + 16 * r.2.2)

/-- The group slot after which a scheduler's rotation resumes (R381). -/
def rotSlot (k : Ctx) (sc : Nat) : Nat :=
  ((firstBy (fun (a b : Group) => b.age < a.age) ((k.onSched sc).filter fun g => g.age ≤ (k.rot[sc]?).getD 0)).map fun g => g.slot).getD 0

/-- The first 64 bytes of a save area's header (R381). -/
def headerWord (s : State) (c : CoreRef) (k : Ctx) (home phlen : Nat) : Nat :=
  let st := match k.mtx.st with
    | .idle => 0
    | .busy => 1
    | .partner => 2
    | .held => 3
  let m := (k.mtx.holder.bind fun w => (k.wg w).map fun w => w.m).getD 0
  let _ := s
  packBits [(448, 64, home), (384, 64, k.thalt), (352, 32, phlen), (304, 16, k.wgs.foldl (fun n w => n + w.threads.length) 0), (296, 8, k.wgs.length),
    (288, 8, if k.st == .halted then 2 else 1), (282, 1, k.mtx.holder.isSome.toNat), (281, 1, k.evicted.toNat), (280, 1, k.forced.toNat),
    (272, 8, st), (256, 16, if k.mtx.coop.isSome then 0x8000 + m else 0), (240, 16, k.gen), (224, 16, k.cid), (215, 9, c.pkg), (213, 2, c.die),
    (207, 6, c.core), (32, 32, 0x41535644), (16, 16, 1), (0, 16, 0x1000)]

/-- The background sections of a save area: scale pools, B image and side storage, phaser region (R374). -/
def backCells (s : State) (c : CoreRef) (k : Ctx) : Mem :=
  k.mtx.queue.zipIdx.flatMap (fun x => scaleCells x.2 x.1) ++ shiftUp 0x800000 k.mtx.bdata ++ sideCells k.mtx ++ (phaserCells s c k).1

/-- A context as the bytes of its save area, the log apart (R380), and the area's length. -/
def toArea (s : State) (c : CoreRef) (k : Ctx) (home : Nat) : Mem × Nat :=
  let phlen := (phaserCells s c k).2
  let wgs := sortBy (fun (a b : Workgroup) => a.tbase ≤ b.tbase) k.wgs
  let place := fun (w t : Nat) => match k.groupOf w t with
    | some g => (g.slot, g.members.findIdx fun y => y == t)
    | none => (0xFF, 0)
  let groups := sortBy (fun (a b : Group) => a.slot ≤ b.slot) k.groups
  let core :=
    cells 0 64 (headerWord s c k home phlen) ++ (List.range 4).flatMap (fun i => cells (0x40 + 4 * i) 4 (rotSlot k i)) ++
    cells 0x100 128 ((bRows k.mtx).foldl (fun a r => a + 2 ^ r) 0) ++ groups.flatMap (fun g => cells (0x200 + 16 * g.slot) 16 (groupWord k g)) ++
    wgs.flatMap (fun w => w.threads.flatMap fun t =>
      cells (0x1000 + 384 * (w.tbase + t.tid)) 384 (threadWord t w.slot (((s.grid w.grid).map fun g => g.kern.allot).getD 0) (place w.slot t.tid).1 (place w.slot t.tid).2)) ++
    shiftUp 0x100000 k.lmem ++
    (sortBy (fun (a b : Workgroup) => a.slot ≤ b.slot) k.wgs).flatMap (fun w => match s.grid w.grid with
      | some g => cells (0x200000 + 0x1000 * w.slot) 0x40 (wgWord g w)
      | none => []) ++
    (savedCopies k).zipIdx.flatMap (fun x => cells (0x210000 + 64 * x.2) 64 (copyWord k x.1)) ++
    k.mtx.acc.flatMap (fun x => cells (0x300000 + 4 * x.1) 4 x.2.toNat) ++
    cells 0x320000 8 (k.mtx.queue.length + k.mtx.coop.getD 0 % 2 ^ 32 * 2 ^ 32) ++
    cells 0x320080 64 ((k.mtx.fault.map State.recWord).getD 0) ++
    k.mtx.queue.zipIdx.flatMap (fun x => cells (0x320100 + 256 * x.2) 256 (seqWord x.1)) ++
    cells 0x321000 8 ((match k.voc.st with
      | .none => 0
      | .active => 1
      | .suspended => 2) + k.voc.block % 2 ^ 32 * 2 ^ 32) ++
    k.voc.recs.zipIdx.flatMap (fun x => cells (0x321010 + 16 * x.2) 16 x.1.toNat)
  (core ++ backCells s c k, 0xC40000 + phlen)

/-! ### The pages of an area (R356, R376) -/

/-- The number of 64 KiB pages of a save area with a phaser region of a length (R380). -/
def areaPages (len : Nat) : Nat := ceilDiv len (2 ^ 16)

/-- The pages of `n` pages of a save area by a translation of G addresses, or its first failure. -/
def areaMap (f : Nat → Except XFail Nat) (home : Nat) : Nat → Nat → Except XFail (List Nat)
  | _, 0 => .ok []
  | i, n + 1 =>
    match f (home + 2 ^ 16 * i) with
    | .error e => .error e
    | .ok pa =>
      match areaMap f home (i + 1) n with
      | .error e => .error e
      | .ok l => .ok (pa :: l)

/-- A save area's address as the context engine translates it: an intermediate address of the CID's partition (R372, R376). -/
def enginePa (s : State) (cid : Nat) (a : Acc) (va : Nat) : Except XFail Nat := gPa s 1 cid va a

/-- The bytes of an area's pages. -/
def areaBytes (s : State) (pages : List Nat) : Mem := pages.zipIdx.flatMap fun p => shiftUp (2 ^ 16 * p.2) (sliceMem s.gmem p.1 (2 ^ 16))

/-- A memory written over an area's pages; every line of them is written whole. -/
def areaPut (s : State) (pages : List Nat) (m : Mem) : State :=
  let g := pages.zipIdx.foldl (fun g p => putMem g p.1 (2 ^ 16) (sliceMem m (2 ^ 16 * p.2) (2 ^ 16))) s.gmem
  { s with gmem := g, marks := s.marks.filter fun x => !pages.any fun p => p ≤ 128 * x && 128 * x < p + 2 ^ 16 }

/-- The context engine's requests for the lines of an area's pages, charged to the partition of the context that it moves (R399). -/
def chargeArea (s : State) (pkg cid : Nat) (pages : List Nat) : State :=
  s.chargeAll pkg (partOfCid cid) (pages.flatMap fun p => (List.range 512).map fun i => p + 128 * i)

/-- A context written to its save area, and what the layout has no place for kept with the machine (R356, R375). -/
def saveCtx (s : State) (c : CoreRef) (k : Ctx) (home : Nat) (pages : List Nat) : State :=
  let (m, _) := toArea s c k home
  let s := areaPut (chargeArea s c.pkg k.cid pages) pages m
  let v : Saved := { core := c, gen := k.gen, cid := k.cid, home := home, pages := pages, image := m, shadow := { k with saveHome := home } }
  { s with saved := (s.saved.filter fun x => !(x.core == c && x.gen == k.gen)) ++ [v] }

/-! ### Bytes as a context (R385) -/

/-- Whether a header keeps R381 and its lengths lie in their sections (R385). -/
def headerOk (v : Nat) : Bool :=
  bits v 63 32 == 0x41535644 && bits v 31 16 == 1 && bits v 15 0 == 0x1000 && bits v 287 283 == 0 && bits v 206 64 == 0 && bits v 319 304 ≤ 2048 &&
    bits v 303 296 ≤ 16 && bits v 351 320 ≤ 0x200000 && bits v 295 288 ≤ 2 && bits v 279 272 ≤ 3 && bits v 270 264 == 0 && bits v 383 352 % 16 == 0

/-- Whether a thread record's reserved fields are 0, those of its FLAGS and of its fault record among them (R111, R330, R383). -/
def threadOk (v : Nat) : Bool :=
  bits v 2175 2174 == 0 && bits v 2687 2631 == 0 && bits v 2559 2512 == 0 &&
  bits v 2943 2928 == 0 && bits v 2911 2904 == 0 && bits v 2303 2288 == 0 && bits v 2847 2820 == 0 && bits v 2239 2216 == 0 && bits v 2215 2208 ≤ 5 &&
    bits v 2207 2184 == 0

/-- Whether a phaser image's reserved fields are 0 (R384). -/
def phaserOk (v : Nat) : Bool := !bit v 375 && bits v 311 288 == 0 && bits v 223 32 == 0

/-- A late-arrival log parsed (R378), or none where an entry breaks its format. -/
def logItems (m : Mem) (len : Nat) : Nat → Nat → Option (List LateItem)
  | 0, _ => some []
  | fuel + 1, o =>
    if len ≤ o then some []
    else
      let h := mread m (0x600000 + o) 32
      let ty := bits h 63 56
      let n := bits h 127 96
      let tg := bits h 191 128
      let pay := mread m (0x600000 + o + 32) n
      let item := if ty == 1 && n == 160 then some (LateItem.line tg ((List.range 128).map fun i => BitVec.ofNat 8 (pay / 2 ^ (8 * i))) (pay / 2 ^ 1024 % 2 ^ 128))
        else if ty == 2 && (n == 4 || n == 8) then some (.result (bits tg 10 0) (bits tg 21 16) (n == 8) pay)
        else if ty == 3 && n == 4 then some (.waitResult (bits tg 10 0) (bits tg 21 16) (bits tg 47 32) pay)
        else none
      if bits h 55 0 != 0 || bits h 95 64 != 0 then none
      else item.bind fun x => (logItems m len fuel (o + 32 + roundUp n 32)).map fun l => x :: l

/-- A thread read from its record; what the record has no field for comes from the thread as the machine kept it. DESIGN CHOICE (log 83): the
record does not tell whether an even OWER names a pair; it is read as one where OWEV does not fit in 32 bits, and a late result tells for
itself. -/
def parseThread (old : Thread) (v : Nat) : Thread :=
  let c := bits v 2151 2144
  let ow := bits v 2281 2278
  { old with
    bstore := bits v 3007 2944, tid := bits v 2927 2912, age := bits v 2879 2848, selp := bits v 2819 2816,
    sigAt := (old.sigAt.filter fun x => x != (bits v 2111 2048, bit v 2272)) ++ (if bit v 2274 then [(bits v 2111 2048, bit v 2272)] else []), inPre := bit v 2273, inHandler := bit v 2272, links := bits v 2271 2240,
    status := statusOf (bits v 2215 2208), rep := bits v 2183 2176, flags := bits v 2175 2168, pred := bits v 2166 2160, c := c, wb := bits v 2143 2112,
    pc := bits v 2111 2048, pcan := bit v 2276, pbdiv := if bit v 2277 then some (old.pbdiv.getD {}) else none,
    v := (List.range c).foldl (fun m i => wset m i (v / 2 ^ (32 * i))) [],
    owed := if old.owed.isEmpty && ow != 0 then
        [{ reg := bits v 2287 2282, cnt := if bits v 2287 2282 % 2 == 0 && !bit v 2275 && 2 ^ 32 ≤ bits v 3071 3008 then 2 else 1, left := ow, value := if bit v 2275 then none else some (bits v 3071 3008), id := 0 }]
      else old.owed }

/-- A phaser of a context set to what its image and member records say (R384), made where the die no longer holds it. -/
def parsePhaser (s : State) (m : Mem) (nimg : Nat) (c : CoreRef) (gen i : Nat) (ws : List Workgroup) : State :=
  let v := mread m (0xC40000 + 64 * i) 64
  match ws.find? fun w => w.slot == bits v 383 376 with
  | none => s
  | some w =>
    let owner := some (c, gen, w.slot)
    let h := bits v 399 384
    let s := if s.phasers.any fun p => p.owner == owner && p.handle == h then s else s.addPhaser c.pkg c.die h w.grid owner []
    let old := ((s.phasers.find? fun p => p.owner == owner && p.handle == h).map fun p => p.members).getD []
    let ms := (List.range (bits v 415 400)).map fun j =>
      let r := mread m (0xC40000 + 64 * nimg + 16 * (bits v 447 416 + j)) 16
      let t : ThreadRef := { core := c, gen := gen, wslot := w.slot, tid := bits r 15 0 - w.tbase }
      let was := old.find? fun x => x.t == t
      ({ t := t, grid := w.grid, mode := bits r 17 16, change := if bit r 23 then some 0 else if bit r 22 then some (bits r 21 20) else none,
         sp := bits r 63 32, wp := bits r 95 64, waiting := (was.map fun x => x.waiting).getD false,
         sigWaiting := (was.map fun x => x.sigWaiting).getD false } : PhMember)
    { s with phasers := mapIf (fun p => p.owner == owner && p.handle == h) (fun p =>
        { p with fpc := if bits v 511 448 == 0 then none else some (bits v 511 448), members := ms, phexd := bit v 374, held := bit v 373, opening := bit v 372,
                 marks := bits v 369 368, lastMarks := bits v 371 370, pending := signExt (bits v 367 312) 56, phase := bits v 31 0,
                 departed := bits v 287 256 - (ms.filter fun x => PhMember.signals x.mode && phLt (bits v 31 0) x.sp).length }) s.phasers }

/-- A sequencer entry read from its 256 bytes; a `mwt.sg`'s signals and what it counts as copies come from the machine. -/
def parseSeq (m : Mem) (i : Nat) (old : Option SeqEntry) : SeqEntry :=
  let v := mread m (0x320100 + 256 * i) 256
  let r := fun (j : Nat) => BitVec.ofNat 128 (v / 2 ^ (128 + 128 * j))
  let p : Part4 := { m0 := bits v 783 768, mq := bits v 799 784, q0 := bits v 815 800, nq := bits v 831 816 }
  let op := match bits v 31 0 with
    | 1 => SeqOp.mbld (r 0) (r 1) (r 2) p
    | 2 => .mzro (bits v 671 640)
    | 3 => .mlp (bits v 705 704) (r 0) (r 1) (bits v 650 640) (bits v 660 651) (signExt (bits v 703 672) 32) (bits v 707 706)
        ((List.range 65536).foldl (fun w j => wset w j (mread m (0x400000 + 0x40000 * i + 4 * j) 4)) []) p
        (if bit v 708 then some (bits v 767 736) else none) (bits v 666 661)
    | 4 => .mdrn (bits v 705 704) (r 0) (bits v 708 706) (if bit v 709 then some (bits v 703 640) else none) p (bit v 710)
    | _ => (old.map fun q => q.op).getD (.mwtSg [])
  { (old.getD { id := 0, op := op, tid := 0, pc := 0 }) with op := op, progress := bits v 63 32, rmax := bits v 95 64 }

/-- The context that an area's bytes give on a core (R381-R384); `old` is the context as the machine kept it. -/
def parseCtx (s : State) (m : Mem) (old : Ctx) : State × Ctx :=
  let v := mread m 0 64
  let wgs := (List.range 16).filterMap fun i =>
    let b := mread m (0x200000 + 0x1000 * i) 64
    let n := bits b 47 32
    if n == 0 then none
    else
      let o := old.wg i
      let grid := ((s.grids.find? fun g => g.cid == bits v 239 224 && g.lrec.rcba == bits b 319 256).map fun g => g.handle).getD 0
      let ths := (List.range n).map fun t =>
        let ot := (o.bind fun w => w.thread t).getD { tid := t }
        parseThread ot (mread m (0x1000 + 384 * (bits b 63 48 + t)) 384)
      some ({ ((o.getD { slot := i, grid := grid, block := 0 }) : Workgroup) with
              slot := i, grid := grid, block := bits b 31 0, threads := ths, tbase := bits b 63 48, lbase := bits b 95 64, lsize := bits b 127 96,
              m := bits b 135 128, members := ((o.map fun w => w.members).getD (List.replicate (bits b 143 136) { core := 0, lbase := 0, lsize := 0 })),
              home := (o.bind fun w => w.home).or (some { pkg := bits v 223 215, die := bits v 214 213, core := bits v 212 207 }), relaunches := bits b 391 388, started := true, cleared := true } : Workgroup)
  let recAt := fun (slot : Nat) => mread m (0x1000 + 384 * slot) 384
  let groups := (List.range 64).filterMap fun i =>
    let b := mread m (0x200 + 16 * i) 16
    if bits b 7 0 == 0 then none
    else
      let o := old.group i
      let w := (wgs.find? fun (w : Workgroup) => w.slot == bits b 31 24)
      let mem := sortBy (fun (a b : Nat × Nat) => a.2 ≤ b.2) ((w.map fun (w : Workgroup) => (w.threads.filter fun t => bits (recAt (w.tbase + t.tid)) 2887 2880 == i).map fun t =>
        (t.tid, bits (recAt (w.tbase + t.tid)) 2895 2888)).getD [])
      let same := match o with
        | some g => g.sched == bits b 15 8
        | none => false
      let pcOf := fun (t : Nat) => ((w.bind fun (w : Workgroup) => w.thread t).map fun (t : Thread) => t.pc).getD 0
      let blank : Group := { slot := i, sched := bits b 15 8, age := bits b 23 16, wslot := 0, members := [],
                             mergePc := mem.foldl (fun p x => max p (pcOf x.1)) 0 }
      let base : Group := if same then o.getD blank else blank
      let wait := (s.gfc (partOfCid (bits v 239 224))).2.2
      some { base with
             elapsed := if bits b 63 32 == 1 then wait - bits b 95 64 else 0,
             wslot := bits b 31 24, members := mem.map fun x => x.1, left := bits b 95 64,
             st := if bits b 7 0 == 2 then .waiting else if bits b 7 0 == 3 then .pReady else if bits b 7 0 == 4 then .pWaiting else .ready,
             stall := if bits b 63 32 == 1 then .merge else if bits b 63 32 == 2 then .sleep else .none }
  let copies := (List.range 64).filterMap fun i =>
    let b := mread m (0x210000 + 64 * i) 64
    if bits b 487 480 == 0 then none
    else
      let slot := bits b 463 448
      let w := wgs.find? fun (w : Workgroup) => w.tbase ≤ slot && slot < w.tbase + w.threads.length
      let wslot := (w.map fun (w : Workgroup) => w.slot).getD 0
      let tid := slot - (w.map fun (w : Workgroup) => w.tbase).getD 0
      let o := (savedCopies old)[i]?
      let handle := fun (h : Nat) => if h == 0 then none else
        (s.phasers.find? fun p => p.handle == h && (p.owner == none || (match p.owner with
          | some (_, g, x) => g == old.gen && x == wslot
          | none => false)) && p.grid == ((w.map fun (w : Workgroup) => w.grid).getD 0)).map fun p => p.uid
      some ({ ((o.getD { id := s.nextId + i, wslot := wslot, tid := tid, sub := 0, f := 0, x := 0, y := 0, desc := [], st := .ended }) : CopyEntry) with
              wslot := wslot, tid := tid, sub := bits b 471 464, f := bits b 479 472, x := bits b 63 0, y := bits b 127 64,
              desc := (List.range 8).map (fun j => bits b (159 + 32 * j) (128 + 32 * j)), written := bits b 447 384, detail := bits b 495 488,
              st := if bits b 487 480 == 1 then .gated else if bits b 487 480 == 2 then .active else .ended,
              cnt := handle (bits b 287 256), gate := handle (bits b 319 288) } : CopyEntry)
  let nq := mread m 0x320000 4
  let f := mread m 0x320080 64
  let word := fun (o : Nat) => mread m o 4
  let side := fun (j : Nat) => (sliceMem m 0xC00000 0x40000).filterMap fun x => if x.1 % 2 == j then some (x.1 / 2, x.2) else none
  let mtx : Matrix :=
    { old.mtx with
      holder := if bit v 282 then old.mtx.holder else none,
      acc := (List.range 32768).foldl (fun a j => if word (0x300000 + 4 * j) == 0 then a else wset a j (word (0x300000 + 4 * j))) [],
      bdata := sliceMem m 0x800000 0x400000,
      bscale := (side 0).foldl (fun (a : Mem) x => sset 0 a x.1 (x.2 ^^^ 0x7F)) [], bout := side 1,
      queue := (List.range (min nq 8)).map fun i => parseSeq m i (old.mtx.queue[i]?),
      st := if bits v 279 272 == 0 then .idle else if bits v 279 272 == 1 then .busy else if bits v 279 272 == 2 then .partner else .held,
      fault := if f == 0 then none else some (old.mtx.fault.getD { code := bits f 199 192, detail := bits f 191 160, addr := bits f 127 64, pc := bits f 63 0, xpc := bits f 447 384 }),
      coop := if bit v 271 then some (mread m 0x320004 4) else none }
  let voc : Vocab :=
    { old.voc with
      st := if mread m 0x321000 4 == 1 then .active else if mread m 0x321000 4 == 2 then .suspended else .none,
      block := mread m 0x321004 4, recs := old.voc.recs.zipIdx.map fun x => BitVec.ofNat 128 (mread m (0x321010 + 16 * x.2) 16) }
  ({ s with nextId := s.nextId + 64 },
   { old with gen := bits v 255 240, cid := bits v 239 224, wgs := wgs, groups := groups, copies := copies ++ old.copies.filter fun e => e.f == drainF, mtx := mtx,
              voc := voc, lmem := sliceMem m 0x100000 0x100000, evicted := bit v 281, forced := bit v 280, thalt := bits v 447 384,
              st := if bits v 295 288 == 2 then .halted else .running, kept := [],
              rot := (List.range 4).map fun i => ((groups.find? fun g => g.slot == mread m (0x40 + 4 * i) 4).map fun g => g.age).getD 0 })

/-- Every name that the machine holds for threads and places of a context changed to another core. -/
def moveNames (s : State) (a b : CoreRef) (gen : Nat) : State :=
  if a == b then s
  else
    let tr := fun (t : ThreadRef) => if t.core == a && t.gen == gen then { t with core := b } else t
    let loc := fun (l : Loc) => match l with
      | .l c g o => if c == a && g == gen then .l b g o else l
      | l => l
    let entry := fun (e : BindEntry) => { e with where_ := tr e.where_, at_ := e.at_.map loc }
    let kind := fun (q : ReqKind) => match q with
      | .bind e => .bind (entry e)
      | .unbind va l => .unbind va (loc l)
      | q => q
    let placed := fun (g : Grid) (p : Placed) => if g.gen == gen && p.pkg == a.pkg && p.die == a.die && b.pkg == a.pkg && b.die == a.die then
        { p with cores := p.cores.map fun x => if x.1 == a.core then (b.core, x.2) else x }
      else p
    { s with
      phasers := s.phasers.map fun (p : Phaser) =>
        { p with members := p.members.map (fun m => { m with t := tr m.t }), owner := p.owner.map fun o => if o.1 == a && o.2.1 == gen then (b, o.2.1, o.2.2) else o },
      reqs := s.reqs.map fun (q : Request) => { q with t := tr q.t, kind := kind q.kind },
      releases := s.releases.map fun (r : Release) => { r with t := tr r.t },
      xwaits := s.xwaits.map fun (x : XWait) => { x with t := tr x.t },
      grids := s.grids.map fun (g : Grid) => { g with binds := g.binds.map entry, changes := g.changes.map (fun c => { c with by_ := tr c.by_ }),
                                                       placed := g.placed.map (placed g) } }

/-- The workgroup of a block wherever its context stands on a die or goes to it, with its core (R57). -/
def blockPlace (s : State) (pkg die gen grid block : Nat) : Option Member :=
  let at_ := fun (c : CoreRef) (k : Ctx) => if k.gen != gen then none else
    (k.wgs.find? fun w => w.grid == grid && w.block == block && !w.ended).map fun w => { core := c.core, lbase := w.lbase, lsize := w.lsize : Member }
  (s.cores.findSome? fun x => if x.at_.pkg == pkg && x.at_.die == die then
      [x.ctx, x.inSlot, x.outSlot, x.expSlot].findSome? fun k => k.bind (at_ x.at_) else none).or
    (s.saved.findSome? fun v => if v.core.pkg == pkg && v.core.die == die then at_ v.core v.shadow else none)

/-- The neighbourhood windows of a generation's workgroups on a die, after a context has come to another core: each member where it now
stands (R57). -/
def renewMembers (s : State) (pkg die gen : Nat) : State :=
  let renew := fun (c : CoreRef) (k : Ctx) => if k.gen != gen || c.pkg != pkg || c.die != die then k else
    { k with wgs := k.wgs.map fun w => { w with members := w.members.zipIdx.map fun x =>
        (blockPlace s pkg die gen w.grid (w.block + x.2 - w.m)).getD x.1 } }
  s.mapCtxs renew

/-! ### The log applied (R379) -/

/-- One log entry applied to a context. -/
def applyLate (k : Ctx) (item : LateItem) : Ctx :=
  let byTslot := fun (t : Nat) (f : Thread → Thread) =>
    match k.wgs.find? fun w => w.tbase ≤ t && t < w.tbase + w.threads.length with
    | some w => k.modWg w.slot fun w => w.modThread (t - w.tbase) f
    | none => k
  match item with
  | .line off data mask =>
    { k with lmem := (data.zipIdx.filter fun (x : Byte × Nat) => bit mask x.2).foldl (fun m x => sset 0 m (off + x.2) x.1) k.lmem }
  | .result t reg pair v => byTslot t fun th =>
      let cnt := if pair then 2 else 1
      match th.owed.findIdx? fun o => o.reg == reg && o.value.isNone with
      | some i => { th with owed := th.owed.modify i fun o => { o with value := some v, cnt := cnt } }
      | none => match th.pend with
        | .request _ => { th with pend := .answer v }
        | _ => th.setSpan reg cnt v
  | .waitResult t _ _ v => byTslot t fun th => { th with pend := .waited v }

/-- Why a save area is not loaded (R372, R385). -/
inductive LoadFail where
  | fault
  | format
  deriving DecidableEq, Repr

/-- Whether a core belongs to a partition (R346). -/
def coreOf (s : State) (c : CoreRef) (p : Nat) : Bool := bit (s.partRes c.pkg p).cores (64 * c.die + c.core)

/-- A save area read as the context of a generation for a core, with its log applied (R357, R379, R385). The bytes that the machine
itself saved give back exactly the context that it saved. -/
def loadCtx (s : State) (c : CoreRef) (gen home : Nat) (f : Nat → Except XFail Nat) : State × Except LoadFail Ctx :=
  match areaMap f home 0 (areaPages 0xC40000) with
  | .error _ => (s, .error .fault)
  | .ok p0 =>
    let len := mread s.gmem (areaPa p0 44) 4
    match areaMap f home 0 (areaPages (0xC40000 + min len 0x1000000)) with
    | .error _ => (s, .error .fault)
    | .ok pages =>
      let m := areaBytes s pages
      let v := mread m 0 64
      let s := chargeArea s c.pkg (bits v 239 224) pages
      let items := logItems m (bits v 351 320) (bits v 351 320 / 32 + 1) 0
      let threads := (List.range 2048).map fun i => mread m (0x1000 + 384 * i) 384
      if pages.any (fun p => s.marks.any fun x => p ≤ 128 * x && 128 * x < p + 2 ^ 16) then (s, .error .fault)
      else if !headerOk v || 0x1000000 < len || bits v 295 288 == 0 || bits v 255 240 != gen || !coreOf s c (bits v 239 224 / 4096) || !threads.all threadOk ||
          items.isNone then (s, .error .format)
      else
        let was := s.saved.find? fun x => x.core == { pkg := bits v 223 215, die := bits v 214 213, core := bits v 212 207 } && x.gen == gen && x.cid == bits v 239 224
        let plain := mwrite (sclear m 0x600000 0x200000) 40 4 0
        let blank : Ctx := { gen := gen, cid := bits v 239 224 }
        let old := (was.map fun (x : Saved) => x.shadow).getD blank
        let s0 := s
        let s := (was.map fun (x : Saved) => moveNames s x.core c gen).getD s
        let moved := was.any fun (x : Saved) => x.core != c
        let old := if moved then { old with wgs := old.wgs.map fun w => { w with home := w.home.or (was.map fun x => x.core) } } else old
        let parsed := if was.any fun (x : Saved) => x.image == plain then some (s, old)
          else
            let (s, k) := parseCtx s m old
            let n := k.wgs.foldl (fun n w => n + (((s.grid w.grid).map fun g => g.kern.phasers + 1).getD 0)) 0
            if (List.range n).all fun i => phaserOk (mread m (0xC40000 + 64 * i) 64) then
              some ((List.range n).foldl (fun s i => parsePhaser s m n c gen i k.wgs) s, k)
            else none
        match parsed with
        | none => (s0, .error .format)
        | some (s, k) =>
          let k := { (items.getD []).foldl applyLate k with saveHome := home }
          ({ s with saved := mapIf (fun x => was.any fun (y : Saved) => y.core == x.core && y.gen == x.gen) (fun x => { x with core := c }) s.saved }, .ok k)

end Sys2Proof.Machine
end

