-- ==== Sys2Proof/Machine/Xlate.lean ====
section
/-! DEFINITION. The answers to translation faults: notices written, accesses walked again or declined (R332, R333, R404-R408,
R410). -/

namespace Sys2Proof.Machine

open State

/-- The trap code of a record's number. -/
def codeOf (n : Nat) : Code :=
  ([.illegal, .range, .uniformity, .barrier, .misaligned, .bound, .kind, .perm, .shape, .group, .heap, .phaser, .stack, .software, .cancel,
    .preempt, .copyFault, .bind, .window].find? fun (c : Code) => c.num == n).getD .xlate

/-- Whether a waiting access still stands: an engine's, a thread's wait for the hypervisor, or a thread parked WAIT_XLATE under this
token, at its core or away from it (R332). -/
def outstanding (s : State) (x : XWait) : Bool :=
  !x.resolved && !x.declined && (x.engine || x.stage == 2 ||
    match s.threadAt x.t with
    | some t => t.status == .waitXlate && t.xtoken == some x.token
    | none => (s.savedOf x.t.core x.t.gen).isSome)

/-- A waiting access forgotten. -/
def dropWait (s : State) (token : Nat) : State := { s with xwaits := s.xwaits.filter fun x => x.token != token }

/-- A thread that a handler's entry has taken in from WAIT_XLATE waits for a group. -/
def seedbedEntered (s : State) (r : ThreadRef) : State :=
  match s.threadAt r with
  | some t =>
    if t.status == .waitXlate && t.inHandler then
      (s.modThreadAt r fun t => { t with status := .seedbed, age := s.clk, aged := false, xtoken := none }).seeded r.core
    else s
  | none => s

/-- A trap taken by a thread parked WAIT_XLATE whose wait is over; where its entry must wait, it is tried again (R333). -/
def trapParked (s : State) (x : XWait) (f : FaultRec) (q : TrapReq) : State :=
  match s.entryWaits x.t q.code f q.ret with
  | some (_, note) => (note s).postOnce (.translationWalk x.token)
  | none => seedbedEntered ((dropWait s x.token).takeTrap x.t none f q) x.t

/-- The answer to a first-stage fault takes effect in its thread (R332, R333): resolved, it waits for a group at its unit, or enters
the handler for the trap that it holds; declined, it takes PERMISSION with detail 4, or parks with a second record. -/
def settleXlate (s : State) (x : XWait) : State :=
  match s.threadAt x.t with
  | none => s
  | some t =>
    if t.status != .waitXlate || t.xtoken != some x.token then dropWait s x.token
    else
      match t.held with
      | none =>
        if x.declined then
          let f := { t.fault with code := Code.perm.num, detail := 4, time := s.time x.t.core.pkg }
          trapParked s x f { tid := x.t.tid, code := .perm, detail := 4, addr := f.addr, pc := f.pc, ret := t.pc }
        else ((dropWait s x.token).modThreadAt x.t fun t => { t with status := .seedbed, age := s.clk, aged := false, xtoken := none }).seeded x.t.core
      | some f =>
        let c := codeOf f.code
        if x.declined then
          let s := dropWait s x.token
          let grid := (((s.ctxAt x.t.core x.t.gen).bind fun k => k.wg x.t.wslot).map fun w => w.grid).getD 0
          (if c == .cancel || c == .preempt then s else s.report x.t.core grid f).park x.t none (entryFailed f 4 x.va)
        else trapParked s x f { tid := x.t.tid, code := c, detail := f.detail, addr := f.addr, pc := f.pc, ret := t.spillPc.getD t.pc }

/-- Whether a context runs at its core. -/
def runsAt (s : State) (c : CoreRef) (gen : Nat) : Bool :=
  match (s.core c).ctx with
  | some k => k.gen == gen && k.st == .running && !k.bgAway
  | none => false

/-- The answers that came while a context was halted or away take effect before any of its groups issues (R332). -/
def settleAll (s : State) (c : CoreRef) : State :=
  match (s.core c).ctx with
  | none => s
  | some k => (s.xwaits.filter fun x => !x.engine && x.stage == 1 && x.t.core == c && x.t.gen == k.gen && (x.resolved || x.declined)).foldl settleXlate s

/-- An answer to a notice: the waiting access walks again, or has the outcome of R404 (R408). The engines' waits and those for the
hypervisor look again at once; a parked thread once its context runs. -/
def answerNotice (s : State) (x : XWait) (decline : Bool) : State :=
  let mark := fun (s : State) => { s with xwaits := mapIf (fun y => y.token == x.token) (fun y => { y with resolved := !decline, declined := decline }) s.xwaits }
  if x.stage == 1 then
    let s := mark s
    if runsAt s x.t.core x.t.gen then settleXlate s { x with resolved := !decline, declined := decline } else s
  else
    let s := if decline then mark s else dropWait s x.token
    let s := if x.kind == Acc.save.kind && x.t.wslot == 2 ^ 20 then s.postOnce (.outSlotDrainDone x.t.core) else s
    let s := if x.engine then s else s.wake x.t
    s.xwaits.foldl (fun s y => if y.resolved && !y.engine && y.stage == 1 && y.t == x.t && runsAt s x.t.core x.t.gen then settleXlate s y else s) s

/-- A walk ends (R405, R407): a notice that found its ring full, absent or occupied by earlier ones is tried again, and a resolved
access whose entry met another wait goes on. -/
def execTranslationWalk (token : Nat) : Meaning := fun s =>
  match s.xwaits.find? fun x => x.token == token with
  | none => .next s
  | some x =>
    let s := s.tryNotify token
    .next (if (x.resolved || x.declined) && x.stage == 1 && runsAt s x.t.core x.t.gen then settleXlate s x else s)

/-- A response to a notice of one of the given kind of ring: an unknown token is ignored and counted, and so is a decline of a save
(R408). -/
def respond (s : State) (pkg token : Nat) (decline : Bool) (p : XWait → Bool) : State :=
  match s.xwaits.find? fun x => x.token == token && x.notified && p x && outstanding s x with
  | none => s.countPkg pkg 0x2030
  | some x => if decline && x.kind == Acc.save.kind then s.countPkg pkg 0x2030 else answerNotice s x decline

/-- The partition whose GUEST function a function is (R409). -/
def guestPart (s : State) (pkg fn : Nat) : Option Nat :=
  match fn with
  | 0 => none
  | f + 1 =>
    let v := (((s.pkg pkg).fns.find? fun x => x.fn == f + 1).map fun x => x.vfmap).getD 0
    if bit v 31 && bits v 5 4 == 1 then some (bits v 3 0) else none

/-- A write of XRESP: ignored unless the function is a GUEST function (R408, R410). -/
def guestRespond (s : State) (pkg fn token : Nat) (decline : Bool) : State :=
  match guestPart s pkg fn with
  | none => s
  | some p => respond s pkg token decline fun x => x.stage == 1 && x.part == p

/-- XRESP resolves a first-stage fault (R408). -/
def execXrespResolve (pkg fn token : Nat) : Meaning := fun s => .next (guestRespond s pkg fn token false)

/-- XRESP declines a first-stage fault (R408). -/
def execXrespDecline (pkg fn token : Nat) : Meaning := fun s => .next (guestRespond s pkg fn token true)

/-- HRESP resolves a second-stage fault (R408). -/
def execHrespResolve (pkg token : Nat) : Meaning := fun s => .next (respond s pkg token false fun x => x.stage == 2)

/-- HRESP declines a second-stage fault (R408); a save's stays. -/
def execHrespDecline (pkg token : Nat) : Meaning := fun s => .next (respond s pkg token true fun x => x.stage == 2)

end Sys2Proof.Machine
end

