-- ==== Sys2Proof/Machine/Swap.lean ====
section
/-! DEFINITION. Halting a context, resuming one, the horizon table, and the swaps at a horizon with their pre-fills and drains
(R354, R360, R369-R379, R385-R390, R432, R446-R449). -/

namespace Sys2Proof.Machine

open State

/-! ### Answers of requests -/

/-- A request answered; its result is on its way (R345). -/
def answerReq (s : State) (id v : Nat) : State :=
  ({ s with reqs := mapIf (fun (q : Request) => q.id == id) (fun (q : Request) => { q with answer := some v }) s.reqs } : State).post (.requestResultArrival id)

/-- The `halt` instructions that wait for a context to halt answered (R355). -/
def answerHalts (s : State) (c : CoreRef) (gen v : Nat) : State :=
  (s.reqs.filter fun q => q.answer.isNone && match q.kind with
    | .halt t g => t == c && g == gen
    | _ => false).foldl (fun s q => answerReq s q.id v) s

/-! ### The halt of a context (R54, R143, R146, R354, R373, R382) -/

/-- A group halted: where it stands it issues again from its unit's first word, and a wait between runs keeps the clk it has
waited (R54, R143). -/
def haltGroup (mergeWait now : Nat) (g : Group) : Group :=
  let g := if g.st == .waiting || g.st == .pWaiting then
      let e := g.elapsed + (now - g.endAt)
      if g.stall == .merge then { g with elapsed := e, left := mergeWait - e } else { g with left := g.left - (now - g.endAt) }
    else { g with granted := 0, hint := { landed := g.hint.act.isSome && g.hint.landed, stalled := g.hint.stalled || g.stall != .none } }
  let st : SState := match g.st with
    | .running | .stalled | .ready => .ready
    | .pStalled | .pReady => .pReady
    | x => x
  { g with st := st, run := 0, mid := false, fillOk := false }

/-- A context as it halts: the seedbed's ages and the groups' waits stand still. -/
def haltCtx (s : State) (pkg : Nat) (k : Ctx) : Ctx :=
  { k with groups := k.groups.map (haltGroup (s.gfc (partOfCid k.cid)).2.2 s.clk), thalt := s.time pkg, st := .halted,
           wgs := k.wgs.map fun w => { w with threads := w.threads.map fun t => { t.landHalted with age := s.clk - t.age } } }

/-- A context told to halt at its groups' next instruction boundaries (R354, R373). -/
def beginHalt (s : State) (c : CoreRef) : State := (s.modCtx c fun k => { k with st := .halting }).postOnce (.coreHalted c)

/-- Every group of a HALTING context has stopped, and its copies and its sequencer stand at the boundaries where they halt (R91, R245, R272,
R354, R373): the context is HALTED, or goes on to its swap. -/
def execCoreHalted (c : CoreRef) : Meaning := fun s =>
  let x := s.core c
  match x.ctx with
  | none => .next s
  | some k =>
    if k.st != .halting then .next s
    else if k.groups.any fun g => match k.wg g.wslot with
        | some w => openLoad g w
        | none => false then .next (s.post (.coreHalted c))
    else if (k.copies.any fun e => !s.mayHalt c k e) || !seqMayHalt s c k then .next (s.post (.coreHalted c))
    else
      let s := s.modCtx c (haltCtx s c.pkg)
      .next (if x.leaving then s.post (.horizonSwap c) else answerHalts s c k.gen 0)

/-! ### The resumption of a context -/

/-- A context as it resumes: ages and waits run on from where they stood (R54). -/
def wakeCtx (now : Nat) (k : Ctx) : Ctx :=
  { k with st := .running,
           wgs := k.wgs.map (fun w => { w with threads := w.threads.map fun t => { t with age := now - t.age } }),
           groups := k.groups.map fun g =>
             if (g.st == .waiting || g.st == .pWaiting) && (g.stall == .merge || g.stall == .sleep) then { g with endAt := now }
             else { g with stall := .none, st := if g.st == .pReady || g.st == .pWaiting then .pReady else .ready } }

/-- A job's D allocation on a die made again, zero-filled, where an express pre-emption gave it up (R88, R386). -/
def restoreD (s : State) (c : CoreRef) (k : Ctx) : State := if k.evicted then makeD s c.pkg c.die k.cid else s

/-- Bit 0 of the DETAIL word of each PREEMPT record that stands in a frame, as a context resumes that an express pre-emption took away: 1 when
the save was forced, else 0 (R337). -/
def markForced (s : State) (k : Ctx) : State :=
  if !k.express then s
  else k.wgs.foldl (fun s w => match s.grid w.grid with
    | none => s
    | some g => (w.threads.filter fun t => t.inPre).foldl (fun s t =>
        match gPa s g.level g.cid (g.frameBase w.block t.tid + (g.slimit - 44)) .write with
        | .ok pa => s.writeLoc (.g pa) 4 (s.readLoc (.g pa) 4 / 2 * 2 + k.forced.toNat)
        | .error _ => s) s) s

/-- The context on a core resumes: each group starts a new run at its saved PC, its engines go on, and what waited for it looks
again (R54, R355, R386). -/
def restart (s : State) (c : CoreRef) : State :=
  match (s.core c).ctx with
  | none => s
  | some k =>
    if k.bgAway then s.postOnce (.backgroundRestore c)
    else
      let s := (markForced (restoreD s c k) k).modCtx c fun k => { wakeCtx s.clk k with evicted := false, forced := false, express := false }
      let s := lateCancels (settleAll s c) c
      let s := k.copies.foldl (fun s e =>
        if e.f == drainF then
          -- the sequencer takes a drain's lines again (R91)
          let (own, s) := s.fresh
          s.modCopy c e.id fun e => { e with own := own }
        else match e.st with
          | .active =>
            -- the engine takes its lines again (R91)
            let (own, s) := s.fresh
            (s.modCopy c e.id fun e => { e with own := own }).postOnce (.copyLineWrite c e.id)
          | .gated => s.postOnce (.copyGateOpen c e.id)
          | .ended => s.postOnce (.copyCompletion c e.id)) s
      let s := vocPost (seqPost s c) c
      let s := k.groups.foldl (fun s g =>
        if g.stall == .merge then s.postOnce (.mergeWaitExpiry c g.slot) else if g.stall == .sleep then s.postOnce (.tslpExpiry c g.slot) else s) s
      let s := k.wgs.foldl (fun s w => if w.cleared && !w.started then s.postOnce (.frameClearingDone c w.slot) else s) s
      let s := ((s.resched c).seeded c).wakeRecalls
      k.wgs.foldl (fun s w => (s.checkEnd c k.gen w.slot).reapWg c k.gen w.slot) s

/-- A context placed on a core (R354, R375): one that was HALTED stays HALTED, any other resumes. -/
def enterCore (s : State) (c : CoreRef) (k : Ctx) (run : Bool) : State :=
  let s := { s.modCore c (fun x => { x with ctx := some { k with st := .halted } }) with
             saved := s.saved.filter fun v => !(v.core == c && v.gen == k.gen) }
  let s := renewMembers s c.pkg c.die k.gen
  if run then restart s c else s

/-! ### The horizon table (R360, R369-R371) -/

/-- A horizon-table entry's fields (R369). -/
structure Hzn where
  insave : Nat
  cset : Nat
  time : Nat
  outgen : Nat
  ingen : Nat
  incid : Nat
  res : Nat
  fired : Bool
  valid : Bool
  deriving DecidableEq, Repr

/-- The fields of an entry. -/
def hznOf (e : BitVec 256) : Hzn :=
  let v := e.toNat
  { insave := bits v 255 192, cset := bits v 191 128, time := bits v 127 64, outgen := bits v 63 48, ingen := bits v 47 32, incid := bits v 31 16,
    res := bits v 15 2, fired := bit v 1, valid := bit v 0 }

/-- The cores of an entry's set on a package (R369). -/
def Hzn.cores (h : Hzn) (pkg : Nat) : List CoreRef :=
  (List.range 64).flatMap fun i => if bit h.cset i then (clusterCores (i % 16)).map fun k => { pkg := pkg, die := i / 16, core := k } else []

/-- The leaf that holds a core's logical cluster: one that is retired while its remap runs, none once the number is lost (R434, R435). -/
def clusterLeaf (s : State) (c : CoreRef) : Option Leaf :=
  (s.pkg c.pkg).leaves.find? fun l => l.die == c.die && l.logical == some (clusterOf c.core)

/-- An entry of a package's table. -/
def hznAt (s : State) (pkg i : Nat) : BitVec 256 := sget 0 (s.pkg pkg).hzn i

/-- The earliest valid, unfired entry of a package (R371). -/
def hznNext (s : State) (pkg : Nat) : Option (Nat × Hzn) :=
  firstBy (fun (a b : Nat × Hzn) => a.2.time < b.2.time) (((s.pkg pkg).hzn.map fun e => (e.1, hznOf e.2)).filter fun e => e.2.valid && !e.2.fired)

/-- Whether the pre-fill of an entry has begun, or it is firing (R360). -/
def hznStarted (p : Package) (i : Nat) : Bool := p.hznBusy.contains i || p.hznBusy.contains (i + 256)

/-- Whether an entry breaks R370 for an index of a package's table. -/
def hznBad (p : Package) (i : Nat) (h : Hzn) : Bool :=
  h.res != 0 || (h.valid && h.cset == 0) || ((h.ingen == 0) != (h.incid == 0)) || (h.ingen != 0 && h.insave % 4096 != 0) ||
    (h.valid && p.hzn.any fun e =>
      let o := hznOf e.2
      e.1 != i && o.valid && !o.fired && (o.cset &&& h.cset) != 0 && (max o.time h.time - min o.time h.time) ≤ 200000)

/-- An entry written whole (R360, R368): the status of R353. -/
def hznWrite (s : State) (pkg i : Nat) (e : BitVec 256) : State × Nat :=
  let p := s.pkg pkg
  if 256 ≤ i then (s, 5)
  else if hznStarted p i && !(hznOf (hznAt s pkg i)).fired then (s, 2)
  else if hznBad p i (hznOf e) then (s, 4)
  else
    let v := BitVec.ofNat 256 (e.toNat - if bit e.toNat 1 then 2 else 0)
    (s.setPkg { p with hzn := sset 0 p.hzn i v, hznBusy := p.hznBusy.filter fun x => x % 256 != i }, 0)

/-- The FIRED bit of an entry set. -/
def setFired (s : State) (pkg i : Nat) : State :=
  s.modPkg pkg fun p =>
    let v := (sget 0 p.hzn i).toNat
    { p with hzn := sset 0 p.hzn i (BitVec.ofNat 256 (if bit v 1 then v else v + 2)), hznBusy := p.hznBusy.filter fun x => x % 256 != i }

/-! ### Pre-fill (R372) -/

/-- Whether a core has still to act for a firing entry, which its index, its TIME and its incoming job name (R371, R376, R388). -/
def awaits (x : Core) (i : Nat) (h : Hzn) : Bool :=
  x.hznWait.contains i || match x.swap with
    | .horizon g d _ t _ => g == h.ingen && d == h.incid && t == h.time
    | _ => false

/-- Whether a core's in-slot holds the context that comes to the core once the express job has left it (R390). -/
def Core.accepted (x : Core) : Bool := x.victim && x.inSlot.isSome && !x.inReady

/-- The entry whose incoming context a core's in-slot is being filled for: the earliest whose pre-fill has begun and for which the core has
still to act. -/
def prefillEntry (s : State) (c : CoreRef) : Option Hzn :=
  let p := s.pkg c.pkg
  firstBy (fun (a b : Hzn) => a.time < b.time) ((p.hznBusy.filter (fun i => i < 256)).filterMap fun i =>
    let h := hznOf (hznAt s c.pkg i)
    if h.valid && !h.fired && (h.cores c.pkg).contains c && (!p.hznBusy.contains (i + 256) || awaits (s.core c) i h) then some h else none)

/-- A core's free in-slot taken by the next entry whose pre-fill has begun (R372). -/
def refill (s : State) (c : CoreRef) : State :=
  let x := s.core c
  if x.inSlot.isSome || x.inReady || (prefillEntry s c).isNone then s else s.postOnce (.prefillDone c)

/-- A core's in-slot emptied as the core is done with an entry (R371), unless it holds another one's context: what a core that waits is to
take, or what comes after the express job. -/
def dropIn (s : State) (c : CoreRef) : State :=
  let x := s.core c
  let keep := x.accepted || !x.hznWait.isEmpty || match x.swap with
    | .horizon _ _ _ _ _ => true
    | _ => false
  if keep then s else refill (s.modCore c fun x => { x with inSlot := none, inReady := false }) c

/-- The directory's dword for a core, or none where the directory cannot be read (R372). -/
def dirWord (s : State) (h : Hzn) (q : Nat) : Option Nat :=
  match enginePa s h.incid .read (h.insave + 8 * q) with
  | .ok pa => if s.marked (.g pa) then none else some (s.readLoc (.g pa) 8)
  | .error _ => none

/-- The pre-fills of an entry's cores begun: a core whose in-slot still serves an earlier entry begins later. DESIGN CHOICE (log 100). -/
def beginPrefill (s : State) (pkg i : Nat) (h : Hzn) : State :=
  let s := s.modPkg pkg fun p => { p with hznBusy := p.hznBusy ++ [i] }
  ((h.cores pkg).filter fun c => (clusterLeaf s c).isSome).foldl refill s

/-- Pre-fills of an entry begin at TIME − 100 µs, or at once where it was written later (R372). -/
def execHorizonPrefill (pkg i : Nat) : Meaning := fun s =>
  let h := hznOf (hznAt s pkg i)
  if !h.valid || h.fired || hznStarted (s.pkg pkg) i || h.ingen == 0 || s.time pkg + 100000 < h.time then .next s
  else .next (beginPrefill s pkg i h)

/-- A core's pre-fill finishes (R372, R379): the incoming context stands in the in-slot, or the in-slot is empty; a swap that
waited for it is made. -/
def execPrefillDone (c : CoreRef) : Meaning := fun s =>
  match prefillEntry s c with
  | none => .next s
  | some h =>
    let x := s.core c
    if x.inReady || x.inSlot.isSome then .next s
    else
      let fail := fun (s : State) => (s.modCore c fun x => { x with inSlot := none, inReady := true }).countCore c 0x30
      let s := match dirWord s h (64 * c.die + c.core) with
        | none => fail s
        | some 0 => s.modCore c fun x => { x with inSlot := none, inReady := true }
        | some a =>
          if a % 2 ^ 16 != 0 then fail s
          else match loadCtx s c h.ingen a (enginePa s h.incid .read) with
          | (s, .error _) => fail s
          | (s, .ok k) =>
            if k.cid != h.incid then fail s
            else (s.modCore c fun x => { x with inSlot := some { k with bgAway := true }, inReady := true }).wakeRecalls
      .next (if x.swap == .none then s else s.postOnce (.horizonSwap c))

/-! ### The background part (R374, R449) -/

/-- The background part of a context read back from its save area: B rows with their scales and outliers, and the scale pools. -/
def readBack (s : State) (k : Ctx) : Ctx :=
  match areaMap (enginePa s k.cid .read) k.saveHome 0 (areaPages 0xC40000) with
  | .error _ => k
  | .ok pages =>
    let m := areaBytes s pages
    let side := fun (j : Nat) => (sliceMem m 0xC00000 0x40000).filterMap fun x => if x.1 % 2 == j then some (x.1 / 2, x.2) else none
    let rows := bits (mread m 0x100 128) 1023 0
    let live := fun (i : Nat) => bit rows (i / 128)
    { k with mtx := { k.mtx with
        bdata := (sliceMem m 0x800000 0x400000).filter fun x => bit rows (x.1 / 4096),
        bscale := ((side 0).filter fun x => live x.1).foldl (fun (a : Mem) x => sset 0 a x.1 (x.2 ^^^ 0x7F)) [],
        bout := (side 1).filter fun x => live x.1,
        queue := k.mtx.queue.zipIdx.map fun x => match x.1.op with
          | .mlp sl a b n bi ai se sc p co sb =>
            { x.1 with op := .mlp sl a b n bi ai se (sc.map fun y => (y.1, BitVec.ofNat 32 (mread m (0x400000 + 0x40000 * x.2 + 4 * y.1) 4))) p co sb }
          | _ => x.1 } }

/-- An area with a victim's background part in it: the rows of B, the scales of its queue, its shapes' side bytes and its phasers (R374,
R449). -/
def backArea (s : State) (c : CoreRef) (k : Ctx) (pages : List Nat) : Mem :=
  let old := areaBytes s pages
  let keep := sclear (sclear old 0x100 128) 0x400000 0x200000
  let keep := sclear keep 0x800000 0x500000
  let low := keep.filter fun x => x.1 < 0x600000
  (low.filter fun x => x.1 < 0x100) ++ cells 0x100 128 ((bRows k.mtx).foldl (fun a r => a + 2 ^ r) 0) ++ (low.filter fun x => 0x180 ≤ x.1) ++
    k.mtx.queue.zipIdx.flatMap (fun x => scaleCells x.2 x.1) ++ (keep.filter fun x => 0x600000 ≤ x.1 && x.1 < 0x800000) ++
    shiftUp 0x800000 k.mtx.bdata ++ sideCells k.mtx ++ (phaserCells s c k).1

/-- The background part of a victim written to its sections at the victim's SAVEHOME before the express context touches the
storage (R449). -/
def execBackgroundSave (c : CoreRef) : Meaning := fun s =>
  match (s.core c).expSlot with
  | none => .next s
  | some k =>
    if !backHeld s c then .next s
    else
      match areaMap (enginePa s k.cid .save) k.saveHome 0 (areaPages 0xC40000) with
      | .error _ => .next (s.post (.backgroundSave c))
      | .ok pages =>
        let s := (areaPut s pages (backArea s c k pages)).modCore c fun x => { x with expSlot := some { k with bgAway := true } }
        .next (s.wakeAll c fun w => w == .background)

/-- A resumed context's background part is back in place, and the context goes on (R374, R449). -/
def execBackgroundRestore (c : CoreRef) : Meaning := fun s =>
  match (s.core c).ctx with
  | none => .next s
  | some k =>
    if !k.bgAway then .next s
    else
      let s := s.modCtx c fun _ => { readBack s k with bgAway := false }
      .next (restart s c)

/-! ### The swap at a horizon (R371, R373-R376, R390) -/

/-- Whether a core of a package has still to act for a firing entry. -/
def swapping (s : State) (pkg i : Nat) (h : Hzn) : Bool :=
  s.cores.any fun x => x.at_.pkg == pkg && (h.cores pkg).contains x.at_ && awaits x i h

/-- The FIRED bits of the entries whose cores have all acted (R371). -/
def settleFired (s : State) (pkg : Nat) : State :=
  ((s.pkg pkg).hznBusy.filter fun i => 256 ≤ i).foldl (fun s i => if swapping s pkg (i - 256) (hznOf (hznAt s pkg (i - 256))) then s else setFired s pkg (i - 256)) s

/-- A partition with those above it, as far as the depth limit of R392 goes. -/
def partChain (s : State) : Nat → Nat → List Nat
  | 0, p => [p]
  | n + 1, p =>
    match s.part p with
    | some x => if x.depth == 0 then [p] else p :: partChain s n x.parent
    | none => [p]

/-- The partition whose save stalls a core's drain charged with the time held, and those above it (R376, R396); one that the context on the core
charges already is not charged twice. -/
def chargeHold (s : State) (c : CoreRef) (part ns : Nat) : State :=
  let s := s.countCoreBy c 0x40 ns
  let twice := match (s.core c).ctx with
    | some k => partChain s 2 (partOfCid k.cid)
    | none => []
  let mine := (partChain s 2 part).filter fun p => !twice.contains p
  s.modPkg c.pkg fun p => { p with parts := mapIf (fun (r : PartRes) => mine.contains r.part) (fun (r : PartRes) => { r with charge := r.charge + ns * 2 ^ 16 }) p.parts }

/-- The swap of a core at a horizon: the active context to the out-slot, the in-slot's to the core (R375). A core that stays EMPTY keeps the
reservation of a `ctxs` (R354). -/
def swapHorizon (s : State) (c : CoreRef) (ingen : Nat) (run : Bool) : State :=
  let x := s.core c
  let s := match x.ctx with
    | some k => answerHalts s c k.gen 1
    | none => s
  let out := x.ctx.map fun k => { k with st := if run then CtxSt.running else .halted }
  let inc := if ingen == 0 then none else x.inSlot
  let s := s.modCore c fun y => { y with ctx := none, outSlot := out, inSlot := none, inReady := false, swap := .none, reserved := y.reserved && inc.isNone }
  let s := if out.isSome then s.post (.outSlotDrainDone c) else s
  refill (match inc with
    | some k => enterCore s c k (k.st == .running)
    | none => s.postOnce (.neighbourhoodPlacement c.pkg c.die)) c

/-- Whether a core of an entry's set on a die still drains its out-slot: the others hold with it (R376). -/
def dieHeld (s : State) (c : CoreRef) (w : Swap) : Bool :=
  match w with
  | .horizon g d _ t _ => s.cores.any fun x => x.at_.pkg == c.pkg && x.at_.die == c.die && x.outSlot.isSome && match x.swap with
      | .horizon g' d' _ t' _ => g == g' && d == d' && t == t'
      | _ => false
  | _ => false

/-- One core acts at a horizon (R371, R373, R390): after a pre-emption in progress on it (R388); while its cluster is remapped, or it is held
for an earlier one, the horizon is skipped and counted, and a number that is lost takes no part (R376, R434, R435). -/
def coreHorizon (s : State) (i : Nat) (h : Hzn) (c : CoreRef) : State :=
  let x := s.core c
  let leaf := clusterLeaf s c
  let skip := fun (s : State) => (dropIn s c).countCore c 0x38
  let away := fun (s : State) => (dropIn s c).countCore c 0x30
  let go := fun (s : State) (run : Bool) =>
    let s := s.modCore c fun x => { x with swap := .horizon h.ingen h.incid false h.time run }
    if h.ingen != 0 && !x.inReady then s.countCore c 0x28 else s
  if leaf.isNone then s
  else if (leaf.map fun l => l.retired).getD false then skip s
  else
    match x.swap with
    | .horizon _ _ _ _ _ => skip s
    | .express _ _ _ _ => s.modCore c fun x => { x with hznWait := x.hznWait ++ [i] }
    | .none =>
      if x.accepted then skip s
      else
        match (if x.victim then x.expSlot else x.ctx) with
        | none => if h.outgen == 0 then (go s true).post (.horizonSwap c) else away s
        | some k =>
          if k.gen != h.outgen then away s
          else if x.victim then (go s true).post (.horizonSwap c)
          else
            match k.st with
            | .running => beginHalt (go s true) c
            | .halting => go s true
            | .halted => (go s false).post (.horizonSwap c)

/-- The horizons that fell due on a core while a pre-emption was in progress there (R388). -/
def waitedHorizons (s : State) (c : CoreRef) : State :=
  let is := (s.core c).hznWait
  is.foldl (fun s i => coreHorizon s i (hznOf (hznAt s c.pkg i)) c) (s.modCore c fun x => { x with hznWait := [] })

/-! ### The express swap (R388-R390) -/

/-- Whether every thread of a victim has ended its part in the save (R336, R337). -/
def allYielded (s : State) (k : Ctx) : Bool :=
  k.wgs.all fun w => w.threads.all fun t =>
    t.yielded || (t.status != .grouped && t.status != .seedbed) ||
      ((s.grid w.grid).map fun g => g.lrec.phnd).getD 0 == 0

/-- The bytes of D held on a die. -/
def dHeld (s : State) (pkg die : Nat) : Nat := (s.dallocs.filter fun a => a.pkg == pkg && a.die == die).foldl (fun n a => n + a.size) 0

/-- The evictable allocations of the given jobs on a die given up, in ascending CID, until `need` bytes fit in 512 MiB (R389); their bytes
become zero when the job next resumes there (R88). -/
def evict (s : State) (pkg die need : Nat) : List Nat → State
  | [] => s
  | cid :: rest =>
    if dHeld s pkg die + need ≤ 2 ^ 29 then s
    else
      let mine := fun (k : Ctx) => if k.cid == cid then { k with evicted := true } else k
      let s := { s with dallocs := s.dallocs.filter fun a => !(a.pkg == pkg && a.die == die && a.cid == cid),
                        saved := mapIf (fun (v : Saved) => v.core.pkg == pkg && v.core.die == die) (fun (v : Saved) => { v with shadow := mine v.shadow }) s.saved,
                        cores := mapIf (fun (x : Core) => x.at_.pkg == pkg && x.at_.die == die) (fun (x : Core) =>
                          { x with ctx := x.ctx.map mine, expSlot := x.expSlot.map mine, outSlot := x.outSlot.map mine, inSlot := x.inSlot.map mine }) s.cores }
      evict s pkg die need rest

/-- The jobs on a die that an express request may make give up their allocations, in ascending CID. -/
def evictable (s : State) (cs : List CoreRef) (pkg die : Nat) : List Nat :=
  sortBy (fun a b => a ≤ b) (((cs.filter fun c => c.pkg == pkg && c.die == die).filterMap fun c => (s.core c).ctx.bind fun k =>
    if ((s.job k.cid).map fun j => j.evict).getD false then some k.cid else none).eraseDups)

/-- The cores of a die that an express job is about to take. -/
def expressCores (s : State) (pkg die cid : Nat) : List CoreRef :=
  (s.cores.filter fun x => x.at_.pkg == pkg && x.at_.die == die && match x.swap with
    | .express d _ _ _ => d == cid
    | _ => false).map fun x => x.at_

/-- One core's exchange of its victim with the express context (R389). -/
def swapExpress (s : State) (c : CoreRef) (run : Bool) : State :=
  let x := s.core c
  waitedHorizons (match x.expSlot with
  | none => s.modCore c fun x => { x with swap := .none }
  | some e =>
    let s := match x.ctx with
      | some k => answerHalts s c k.gen 1
      | none => s
    let v := x.ctx.map fun k => { k with st := if run then CtxSt.running else .halted, express := true }
    let s := s.modCore c fun x => { x with ctx := none, expSlot := v, victim := true, swap := .none }
    enterCore s c e (e.st == .running)) c

/-- The swap back once the express job has left a core: the victim from the express slot, or the in-slot's context where a horizon
has taken the victim away (R390). -/
def swapBack (s : State) (c : CoreRef) : State :=
  let x := s.core c
  match x.expSlot with
  | some v =>
    let s := s.modCore c fun x => { x with expSlot := none, victim := false }
    if v.wgs.isEmpty then s.postOnce (.neighbourhoodPlacement c.pkg c.die) else enterCore s c v (v.st == .running)
  | none =>
    match (if x.accepted then x.inSlot else none) with
    | some k => refill (enterCore (s.modCore c fun x => { x with inSlot := none, inReady := false, victim := false }) c k (k.st == .running)) c
    | none => (s.modCore c fun x => { x with victim := false }).postOnce (.neighbourhoodPlacement c.pkg c.die)

/-- A horizon's exchange on a core that an express job holds (R390): the context of the express slot, where there is one, goes out, and the
in-slot's stays there until the express job leaves; the job keeps the core. -/
def swapVictim (s : State) (c : CoreRef) (ingen : Nat) : State :=
  let x := s.core c
  let s := s.modCore c fun y =>
    { y with outSlot := x.expSlot.or y.outSlot, expSlot := none, inSlot := if ingen == 0 then none else y.inSlot, inReady := false, swap := .none }
  let s := if x.expSlot.isSome then s.post (.outSlotDrainDone c) else s
  if x.ctx.isNone then swapBack s c else refill s c

/-- The swap of a core whose context has halted (R371-R376, R388-R390): at a horizon once the in-slot is filled and no out-slot of
the set on the die is occupied; at a pre-emption once the victims on the die have halted; or back, when the express job has left. -/
def execHorizonSwap (c : CoreRef) : Meaning := fun s =>
  let x := s.core c
  let still := match x.ctx with
    | some k => k.st == .halted
    | none => true
  match x.swap with
  | .none => if x.victim && x.ctx.isNone && !((clusterLeaf s c).map fun l => l.retired).getD true then .next (swapBack s c) else .next s
  | .horizon ingen incid _ t run =>
    if !x.victim && !still then .next s
    else if dieHeld s c x.swap then
      .next ((s.modCore c fun x => { x with swap := .horizon ingen incid true t run }).modPkg c.pkg fun p => { p with hznHold := true })
    else if ingen != 0 && !x.inReady then .next s
    else
      .next (settleFired (if x.victim then swapVictim s c ingen else swapHorizon s c ingen run) c.pkg)
  | .express cid _ _ run =>
    match x.ctx with
    | some k =>
      if k.st == .running then .next (if allYielded s k then beginHalt s c else s)
      else if k.st == .halting then .next s
      else .next (expressSwaps s c cid run)
    | none => .next (expressSwaps s c cid run)
where
  /-- every core of the set on the die exchanged, once all their contexts have halted -/
  expressSwaps (s : State) (c : CoreRef) (cid : Nat) (run : Bool) : State :=
    let cs := expressCores s c.pkg c.die cid
    let _ := run
    let ready := cs.all fun d => match (s.core d).ctx with
      | some k => k.st == .halted
      | none => true
    if !ready then s
    else
      let need := ((s.job cid).map fun j => j.dunits * 2 ^ 16).getD 0
      let s := if s.dallocs.any fun a => a.pkg == c.pkg && a.die == c.die && a.cid == cid then s
        else makeD (evict s c.pkg c.die need (evictable s cs c.pkg c.die)) c.pkg c.die cid
      settleFired (cs.foldl (fun s d => swapExpress s d (s.core d).swap.ran) s) c.pkg

/-- The cores held by a drain on a die asked to swap. -/
def releaseHeld (s : State) (c : CoreRef) : State :=
  (s.cores.filter fun x => x.at_.pkg == c.pkg && x.at_.die == c.die && match x.swap with
    | .horizon _ _ _ _ _ => true
    | _ => false).foldl (fun s x => s.postOnce (.horizonSwap x.at_)) s

/-- Whether a line of a context's L is marked uncorrectable (R438). -/
def lMarked (s : State) (c : CoreRef) (gen : Nat) : Bool :=
  let a := (Loc.l c gen 0).line
  s.marks.any fun l => a ≤ l && l < a + 2 ^ 13

/-- A drain that meets uncorrectable data (R439): every block of the context is lost, and the save area's header says EMPTY. -/
def loseDrain (s : State) (c : CoreRef) (k : Ctx) (pages : List Nat) : State :=
  let s := k.wgs.foldl (fun s w => s.loseBlock c k.gen w.slot 1) s
  (s.modCore c fun x => { x with outSlot := none, stalledDrain := false }).writeLoc (.g (areaPa pages 0x24)) 1 0

/-- What follows the end of a drain for a partition (R376): nothing of it stalls a save, what was held is charged to it, and the cores
that a drain on the die held swap. -/
def drainOver (s : State) (c : CoreRef) (part : Nat) : State :=
  let left := s.cores.any fun x => x.stalledDrain && match x.outSlot with
    | some y => partOfCid y.cid == part
    | none => false
  let s := if left then s else s.modPart part fun p => { p with saveStalled := false }
  let s := (s.cores.filter fun x => x.at_.pkg == c.pkg && x.at_.die == c.die).foldl (fun s x => match x.swap with
    | .horizon _ _ true t _ => if dieHeld s x.at_ x.swap then s else chargeHold s x.at_ part (s.time c.pkg - t)
    | _ => s) s
  releaseHeld s c

/-- A drain of an out-slot ends (R375): the whole context stands in its save area and the out-slot is free; what was held is
charged to its partition and swaps (R376). A page that is not mapped stalls the save. -/
def execOutSlotDrainDone (c : CoreRef) : Meaning := fun s =>
  match (s.core c).outSlot with
  | none => .next s
  | some k =>
    let len := (toArea s c k k.saveHome).2
    match areaMap (enginePa s k.cid .save) k.saveHome 0 (areaPages len) with
    | .error _ => .next (s.postOnce (.drainWriteFault c))
    | .ok pages =>
      let s := if lMarked s c k.gen then loseDrain s c k pages
        else (saveCtx s c k k.saveHome pages).modCore c fun x => { x with outSlot := none, stalledDrain := false }
      .next (drainOver s c (partOfCid k.cid))

/-- A drain write takes a second-stage fault (R376): the context stays in the out-slot, SAVE_STALLED is set and a notice goes to the
hypervisor; the write is tried again once the mapping returns. -/
def execDrainWriteFault (c : CoreRef) : Meaning := fun s =>
  match (s.core c).outSlot with
  | none => .next s
  | some k =>
    let n := areaPages (toArea s c k k.saveHome).2
    match (List.range n).find? fun i => match enginePa s k.cid .save (k.saveHome + 2 ^ 16 * i) with
        | .ok _ => false
        | .error _ => true with
    | none => .next (s.postOnce (.outSlotDrainDone c))
    | some i =>
      let va := k.saveHome + 2 ^ 16 * i
      let me : ThreadRef := { core := c, gen := k.gen, wslot := 2 ^ 20, tid := 0 }
      let s := (s.modCore c fun x => { x with stalledDrain := true }).modPart (partOfCid k.cid) fun p => { p with saveStalled := true }
      .next (if s.xwaits.any fun x => x.stage == 2 && x.t == me && x.va == va then s
        else s.addWait { token := 0, t := me, engine := true, stage := 2, part := partOfCid k.cid, cid := k.cid, addr := va, va := va,
                         kind := Acc.save.kind, time := s.time c.pkg })

/-! ### The horizon (R366, R371, R373, R376, R390, R432) -/

/-- The express save areas that an entry's directory names ordered loaded, or ignored and counted where the job's partition may not
hold the express slot (R432). -/
def orderXloads (s : State) (pkg : Nat) (h : Hzn) : State :=
  if h.ingen == 0 then s
  else
    let may := ((s.part (partOfCid h.incid)).map fun p => p.expr).getD false
    (List.range 256).foldl (fun s q =>
      match dirWord s h (256 + q) with
      | none => s
      | some 0 => s
      | some a =>
        let c : CoreRef := { pkg := pkg, die := q / 64, core := q % 64 }
        if !may then s.countDie pkg (q / 64) 0x1020
        else if (s.core c).expSlot.isSome then s
        else s.post (.xload (s.coreLink c) a (q % 64))) s

/-- Whether no earlier entry of a package's table has still to fire (R371). -/
def hznTurn (p : Package) (h : Hzn) : Bool :=
  p.hzn.all fun e =>
    let o := hznOf e.2
    !o.valid || o.fired || p.hznBusy.contains (e.1 + 256) || h.time ≤ o.time

/-- A horizon falls due at TIME (R366, R371), after the earlier ones: skipped where the clock is FREE or ARM is 0, otherwise every core of the
set acts. -/
def execHorizonFire (pkg i : Nat) : Meaning := fun s =>
  let p := s.pkg pkg
  let h := hznOf (hznAt s pkg i)
  if !h.valid || h.fired || p.hznBusy.contains (i + 256) || p.clock.ns < h.time || !hznTurn p h then .next s
  else if !p.hznArm || p.clock.st == .free then
    .next ((h.cores pkg).foldl (fun s c => (dropIn s c).countCore c 0x38) (setFired s pkg i))
  else
    let s := if h.ingen != 0 && !p.hznBusy.contains i then beginPrefill s pkg i h else s
    let s := s.modPkg pkg fun p => { p with hznBusy := p.hznBusy ++ [i + 256], hznHold := false }
    let s := (h.cores pkg).foldl (fun s c => coreHorizon s i h c) s
    .next (settleFired (orderXloads s pkg h) pkg)

end Sys2Proof.Machine
end

