-- ==== Sys2Proof/Machine/Express.lean ====
section
/-! DEFINITION. Express pre-emption at the cores, express loads, and late arrivals from the fabric (R336, R337, R377, R387-R390,
R432). -/

namespace Sys2Proof.Machine

open State

/-- A thread of a victim as a pre-emption arrives (R336): PREEMPT is pending on a live thread that is in no handler and whose grid
has a PREEMPT handler; any other counts as having yielded. -/
def preempted (phnd : Nat) (evict : Bool) (t : Thread) : Thread :=
  if !t.inHandler && phnd != 0 && (t.status == .grouped || t.status == .seedbed) then { t with ppre := true, preEvict := evict, yielded := false }
  else { t with ppre := false, yielded := true }

/-- The groups of a core that a pending boundary trap takes out of their wait woken (R329). -/
def wakeBoundary (s : State) (c : CoreRef) : State :=
  match (s.core c).ctx with
  | none => s
  | some k =>
    (k.groups.filter fun g => g.stall != .none).foldl (fun s g =>
      match (k.wg g.wslot).bind fun w => (s.grid w.grid).map fun gr => (w, gr) with
      | some (w, gr) =>
        if g.members.any fun t => (boundaryOf { c := c, k := k, g := g, w := w, grid := gr } t).isSome then s.cutWait c k.gen g else s
      | none => s) s

/-- An express request arrives at a core (R336, R388): after a horizon's swap in progress there; a running victim takes PREEMPT, any
other is exchanged as it stands. -/
def execExpressArrival (c : CoreRef) (cid : Nat) (ev : Bool) : Meaning := fun s =>
  let x := s.core c
  if x.swap != .none then .next (s.post (.expressArrival c cid ev))
  else if x.victim || (x.expSlot.map fun k => k.cid) != some cid then .next s
  else
    let put := fun (s : State) (limit : Nat) (run : Bool) => s.modCore c fun x => { x with swap := .express cid ev limit run }
    match x.ctx with
    | none => .next ((put s s.clk true).post (.horizonSwap c))
    | some k =>
      match k.st with
      | .halted => .next ((put s s.clk false).post (.horizonSwap c))
      | .halting => .next (put s s.clk true)
      | .running =>
        let budget := ((s.part (partOfCid k.cid)).map fun p => p.pbudget).getD 1400
        let s := put s (s.clk + budget) true
        let s := s.modCtx c fun k => { k with wgs := k.wgs.map fun w =>
          { w with threads := w.threads.map (preempted (((s.grid w.grid).map fun g => g.lrec.phnd).getD 0) ev) } }
        match (s.core c).ctx with
        | none => .next s
        | some k => if allYielded s k then .next (beginHalt s c) else .next (wakeBoundary s c)

/-- The PREEMPT budget runs out (R337, R389): the swap is forced, and the threads halt where they stand. -/
def execPreemptBudgetExpiry (c : CoreRef) : Meaning := fun s =>
  let x := s.core c
  match x.swap, x.ctx with
  | .express _ _ limit _, some k =>
    if k.st != .running || s.clk < limit || allYielded s k then .next s
    else
      let s := s.modCtx c fun k =>
        { k with forced := true, wgs := k.wgs.map fun w => { w with threads := w.threads.map fun t => { t with ppre := false } } }
      .next (beginHalt (s.modPart (partOfCid k.cid) fun p => { p with saveForced := true }) c)
  | _, _ => .next s

/-- A packet from the fabric for a context of a core (R377): applied to the context where it stands, active or in a slot, appended to
its log where it is away, and discarded where there is none. -/
def execLateArrival (c : CoreRef) (gen : Nat) (item : LateItem) : Meaning := fun s =>
  match s.place c gen with
  | none => .next (s.logItem c gen item)
  | some _ =>
    let s := s.modCtxAt c gen fun k => applyLate k item
    .next (s.wakeAll c fun w => w == .result || w == .phaser || w == .request)

/-- The partition that holds a core: the one that has it and none of whose children has it (R391). -/
def corePart (s : State) (c : CoreRef) : Option Nat :=
  (s.parts.find? fun p => coreOf s c p.part && !s.parts.any fun y => y.part != p.part && y.depth != 0 && y.parent == p.part && coreOf s c y.part).map fun p => p.part

/-- XLOAD: a save area loaded into a core's empty express slot (R387, R432). -/
def execXload (l : Link) (addr core : Nat) : Meaning := fun s =>
  let c : CoreRef := { pkg := l.pkg, die := l.die, core := core }
  let bad := fun (s : State) => s.countDie l.pkg l.die 0x1020
  if l.malformed || (s.core c).expSlot.isSome || !(leafCores s l).contains c then .next s
  else
    match corePart s c with
    | none => .next (bad s)
    | some p =>
      let f := enginePa s (4096 * p) .read
      match f addr with
      | .error _ => .next (bad s)
      | .ok pa =>
        let gen := s.readLoc (.g (pa + 30)) 2
        let cid := s.readLoc (.g (pa + 28)) 2
        let may := ((s.part (partOfCid cid)).map fun q => q.expr).getD false && ((s.job cid).map fun j => j.gen) == some gen
        if addr % 2 ^ 16 != 0 || !may then .next (bad s)
        else
          match loadCtx s c gen addr f with
          | (s, .error _) => .next (bad s)
          | (s, .ok k) => .next ((s.modCore c fun x => { x with expSlot := some { k with bgAway := true } }).wakeRecalls)

end Sys2Proof.Machine
end

