-- ==== Sys2Proof/Machine/Sys.lean ====
section
/-! DEFINITION. The privileged instructions: levels, control and status registers, core control, the horizon table, phaser holds, the
debug aperture and the return from a handler (R334, R335, R343-R363, R440, R448). -/

namespace Sys2Proof.Machine

open State

/-! ### Levels (R343-R346) -/

/-- A SYS instruction (R345): ILLEGAL_ENCODING at level 0, PERMISSION with detail 5 below its minimum level. -/
def execSys (e : Bool) (level : Nat) (f : Iss → State → State) : Meaning := fun s => s.onIssue fun x =>
  if x.grid.level == 0 then s.illegal x
  else if x.grid.level < level then s.trapAll x e x.active fun t => { tid := t, code := .perm, detail := 5, pc := x.upc, ret := x.upc }
  else f x s

/-- Whether a thread of a level and partition may select a partition (R346). -/
def maySelect (s : State) (level own p : Nat) : Bool :=
  (s.part p).isSome && (2 ≤ level || p == own || ((s.part p).map fun x => x.depth != 0 && x.parent == own).getD false)

/-- Whether a core belongs to a partition or one of its children (R353). -/
def coreSelected (s : State) (c : CoreRef) (p : Nat) : Bool :=
  coreOf s c p || s.parts.any fun y => y.depth != 0 && y.parent == p && coreOf s c y.part

/-! ### Control and status registers (R346-R352) -/

/-- The read level and the write level of a CSR number, where it exists (R347). -/
def csrLevels (n : Nat) : Option (Nat × Option Nat) :=
  if n ≤ 1 || (4 ≤ n && n ≤ 7) then some (1, none)
  else if n == 2 || n == 0x10 || n == 0x11 || n == 0x20 || n == 0x21 then some (1, some 1)
  else if n == 0x12 || n == 0x13 || n == 0x28 then some (2, some 2)
  else if n == 0x24 then some (1, some 2)
  else if n == 0x30 then some (2, some 3)
  else if n == 0x32 || n == 0x33 then some (2, none)
  else none

/-- Half of a 64-bit value: bits 31:0 at the lower number (R347). -/
def half (v n : Nat) : Nat := if n % 2 == 0 then v % 2 ^ 32 else v / 2 ^ 32 % 2 ^ 32

/-- A partition-scope CSR (R348), none for a number of another scope. -/
def partCsr (p : Part) (n : Nat) : Option Nat :=
  match n with
  | 0x10 | 0x11 => some (half p.trapbGst n)
  | 0x12 | 0x13 => some (half p.trapbHst n)
  | 0x20 => some (p.formAge * 2 ^ 16 + p.formMin)
  | 0x21 => some p.mergeWait
  | 0x24 => some ((if p.expr then 2 ^ 16 else 0) + p.pbudget)
  | 0x28 => some ((if p.saveForced then 2 else 0) + if p.saveStalled then 1 else 0)
  | _ => none

/-- A package-scope CSR (R348, R349). -/
def pkgCsr (s : State) (pkg n : Nat) : Option Nat :=
  let next := hznNext s pkg
  match n with
  | 4 => some 0xFF
  | 5 | 6 | 7 => some 0
  | 0x30 =>
    let p := s.pkg pkg
    some (((next.map fun e => e.1).getD 0) * 2 ^ 16 + (if p.hznHold then 2 else 0) + if p.hznArm then 1 else 0)
  | 0x32 | 0x33 => some (half ((next.map fun e => e.2.time).getD (2 ^ 64 - 1)) n)
  | _ => none

/-- The partition that a thread has selected. -/
def selPart (s : State) (t : Thread) : Part := (s.part t.selp).getD { part := t.selp, parent := t.selp, depth := 0 }

/-- PARTID of a thread (R348). -/
def partid (s : State) (g : Grid) : Nat :=
  let p := (s.part g.part).getD { part := g.part, parent := g.part, depth := 0 }
  g.cid % 2 ^ 16 * 2 ^ 16 + p.depth * 2 ^ 14 + (if p.depth == 0 then p.part else p.parent) * 2 ^ 10 + g.level

/-- The value of a CSR as a thread reads it (R348). -/
def csrValue (s : State) (pkg : Nat) (g : Grid) (t : Thread) (n : Nat) : Nat :=
  match n with
  | 0 => partid s g
  | 1 => g.gen
  | 2 => t.selp
  | _ => ((partCsr (selPart s t) n).or (pkgCsr s pkg n)).getD 0

/-- One half of a 64-bit value replaced. -/
def setHalf (v n w : Nat) : Nat := if n % 2 == 0 then v / 2 ^ 32 * 2 ^ 32 + w else v % 2 ^ 32 + w * 2 ^ 32

/-- A value kept within a field's stated range, or the field as it was (R348). -/
def inRange (old v lo hi : Nat) : Nat := if lo ≤ v && v ≤ hi then v else old

/-- A partition with a CSR written (R348). -/
def setPartCsr (p : Part) (n v : Nat) : Part :=
  match n with
  | 0x10 | 0x11 => { p with trapbGst := setHalf p.trapbGst n v / 128 * 128 }
  | 0x12 | 0x13 => { p with trapbHst := setHalf p.trapbHst n v / 128 * 128 }
  | 0x20 => { p with formAge := inRange p.formAge (bits v 31 16) 16 65535, formMin := inRange p.formMin (bits v 5 0) 1 32 }
  | 0x21 => { p with mergeWait := bits v 11 0 }
  | 0x24 => { p with expr := bit v 16, pbudget := inRange p.pbudget (bits v 10 0) 0 1400 }
  | 0x28 => { p with saveForced := p.saveForced && !bit v 1 }
  | _ => p

/-- A write of a CSR of partition or package scope, in force everywhere at once (R351, R352). -/
def writeCsr (s : State) (pkg : Nat) (t : Thread) (n v : Nat) : State :=
  if n == 0x30 then s.modPkg pkg fun p => { p with hznArm := bit v 0 }
  else
    let s := s.modPart t.selp fun p => setPartCsr p n v
    if n == 0x20 then (s.cores.filter fun x => match x.ctx with
        | some k => partOfCid k.cid == t.selp && k.st == .running
        | none => false).foldl (fun s x => s.seeded x.at_) s
    else s

/-- `csrr` (R351). -/
def execCsrr (e : Bool) (d : BitVec 6) (n : BitVec 12) : Meaning := execSys e 1 fun x s =>
  match csrLevels n.toNat with
  | none => s.illegal x
  | some (r, _) => State.perLane x e { d := d.toNat, dn := 1 } (fun s i =>
      if x.grid.level < r then (s, .stop (.trap .perm 5 0)) else (s, .ok (i.ln.t.setReg i.d (csrValue s x.c.pkg i.ln.g i.ln.t n.toNat)))) s

/-- `csrw` (R346, R351). -/
def execCsrw (e : Bool) (v : BitVec 6) (n : BitVec 12) : Meaning := execSys e 1 fun x s =>
  match csrLevels n.toNat with
  | none => s.illegal x
  | some (_, w) => State.perLane x e { d := v.toNat, dn := 1 } (fun s i =>
      let y := i.ln.t.reg i.d
      if !(w.any fun l => l ≤ x.grid.level) then (s, .stop (.trap .perm 5 0))
      else if n.toNat == 2 then
        if maySelect s x.grid.level x.grid.part (y % 16) then (s, .ok { i.ln.t with selp := y % 16 }) else (s, .stop (.trap .perm 6 0))
      else (writeCsr s x.c.pkg i.ln.t n.toNat y, .ok i.ln.t)) s

/-! ### `tlbi` (R358) -/

/-- Whether an entry is one that a `tlbi` covers: of a mode, a partition, a job's CID and an address. -/
def tlbiHits (mode part cid a : Nat) (t : TlbEntry) : Bool :=
  match mode with
  | 0 => t.level == 0 && t.cid == cid && t.page * 2 ^ 16 / 2 ^ t.low1 == a % 2 ^ 56 / 2 ^ t.low1
  | 1 => t.level == 0 && t.cid == cid
  | 2 => partOfCid t.cid == part && t.ipa / 2 ^ t.low2 == a % 2 ^ 56 / 2 ^ t.low2
  | _ => partOfCid t.cid == part

/-- Whether an engine or an atomic still uses a translation that a `tlbi` covers (R358). A first-stage page is at most 1 GiB: whatever lies in
the same one is waited for. A second-stage page is waited for like the whole partition. -/
def tlbiBusy (s : State) (mode part cid a : Nat) : Bool :=
  let inScope := fun (k : Nat) => if mode < 2 then k == cid else partOfCid k == part
  let hit := fun (va : Nat) => mode != 0 || va % 2 ^ 56 / 2 ^ 30 == a % 2 ^ 56 / 2 ^ 30
  (s.cores.any fun x => [x.ctx, x.inSlot, x.outSlot, x.expSlot].any fun o => match o with
    | some k => inScope k.cid && k.kept.any fun y => hit (y.2.1 / 8 * 2 ^ 16)
    | none => false) ||
  s.reqs.any fun q => q.answer.isNone && match q.kind with
    | .atomic (.g _) va _ _ _ _ _ => (((s.ctxAt q.t.core q.t.gen).map fun k => inScope k.cid).getD false) && hit va
    | _ => false

/-- `tlbi` (R358): the entries go, and the instruction ends once nothing uses one of them. -/
def execTlbi (e : Bool) (a : BitVec 5) (b : BitVec 6) : Meaning := execSys e 1 fun x s =>
  State.perLane x e { a := 2 * a.toNat, an := 2, b := b.toNat, bn := 1 } (fun s i =>
    let v := i.ln.t.reg i.b
    let mode := bits v 2 0
    if 4 ≤ mode || bits v 15 3 != 0 || bits v 31 28 != 0 then (s, .stop (.trap .perm 7 0))
    else if 2 ≤ mode && x.grid.level < 2 then (s, .stop (.trap .perm 5 0))
    else
      let part := i.ln.t.selp
      let cid := part * 4096 + bits v 27 16
      let va := i.ln.t.pair i.a
      let s := { s with cores := s.cores.map fun (y : Core) => { y with tlb := y.tlb.filter fun t => !tlbiHits mode part cid va t } }
      if tlbiBusy s mode part cid va then (s, .wait i.ln.t .recall) else (s, .ok i.ln.t)) s

/-! ### Core control (R353-R357) -/

/-- How a core-control instruction ends: a status for every active lane, a PERMISSION detail, or a request whose answer is owed. -/
inductive CtlRes where
  | status (v : Nat)
  | perm (detail : Nat)
  | ask (k : ReqKind)
  deriving DecidableEq, Repr

/-- A core-control instruction: carried out once with the operands of the lowest active lane (R353), its status to every active
lane. -/
def coreControl (e : Bool) (fs : Fields) (f : Iss → State → LaneIn → State × CtlRes) : Meaning := execSys e 2 fun x s =>
  match x.active.head?.bind fun t => s.laneIn x fs t with
  | none => (s.advance x []).endUnit x e false .none
  | some i =>
    if !fs.within i.ln.t.c none then State.perLane x e fs (fun s i => (s, .ok i.ln.t)) s
    else
      match f x s i with
      | (s, .perm d) => s.trapAll x e x.active fun t => { tid := t, code := .perm, detail := d, pc := x.upc, ret := x.upc }
      | (s, .status v) => State.perLane x e fs (fun s i => (s, .ok (i.ln.t.setReg i.d v))) s
      | (s, .ask k) => State.perLane x e fs (fun s i =>
          let (id, s) := s.fresh
          ({ s with reqs := s.reqs ++ [{ id := id, t := i.ln.r, kind := k }] },
           .ok { i.ln.t with owed := i.ln.t.owed ++ [{ reg := i.d, cnt := 1, left := 0, value := none, id := id }] })) s

/-- The core that a selector pair names, with the generation expected, or the PERMISSION detail (R353). -/
def selector (s : State) (i : LaneIn) : Except Nat (CoreRef × Nat) :=
  let v := i.ln.t.reg i.a
  let g := i.ln.t.reg (i.a + 1)
  let c : CoreRef := { pkg := bits v 31 23, die := bits v 22 21, core := bits v 20 15 }
  if bits v 14 0 != 0 || bits g 31 16 != 0 then .error 7
  else if !coreSelected s c i.ln.t.selp then .error 6
  else .ok (c, g)

/-- Whether a core is EMPTY for core control (R354), also while a swap is to bring a context in. -/
def isEmptyCore (x : Core) : Bool := x.ctx.isNone && !x.victim

/-- `halt` (R354, R355). -/
def execHalt (e : Bool) (d : BitVec 6) (a : BitVec 5) (b : BitVec 6) : Meaning :=
  coreControl e { d := d.toNat, dn := 1, a := 2 * a.toNat, an := 2, b := b.toNat, bn := 1 } fun x s i =>
    let mode := bits (i.ln.t.reg i.b) 1 0
    match selector s i with
    | .error n => (s, .perm n)
    | .ok (c, g) =>
      let y := s.core c
      if 1 < mode then (s, .perm 7)
      else if mode == 1 && isEmptyCore y then
        ((s.modCore c fun z => { z with reserved := false }).postOnce (.neighbourhoodPlacement c.pkg c.die), .status 0)
      else
        match y.ctx with
        | none => (s, .status 1)
        | some k =>
          if k.gen != g then (s, .status 1)
          else if c == x.c then (s, .status 2)
          else if mode == 0 then
            if y.isHalted k then (s, .status 0)
            else (if k.st == .running && !y.leaving then beginHalt s c else s, .ask (.halt c g))
          else if k.st == .running || (y.leaving && y.swap.ran) then (s, .status 0)
          else if y.isHalted k then
            (if y.leaving then s.modCore c fun z => { z with reserved := false, swap := z.swap.withRan true }
             else restart (s.modCore c fun z => { z with reserved := false }) c, .status 0)
          else (s, .status 2)

/-- A save-area address as a level-2 or level-3 thread uses it: untranslated (R401). -/
def plainPa (va : Nat) : Except XFail Nat := if va / 2 ^ 56 == 0 then .ok va else .error .guest

/-- `ctxs` (R354, R356). -/
def execCtxs (e : Bool) (d : BitVec 6) (a b : BitVec 5) : Meaning :=
  coreControl e { d := d.toNat, dn := 1, a := 2 * a.toNat, an := 2, b := 2 * b.toNat, bn := 2 } fun _ s i =>
    let home := i.ln.t.pair i.b
    match selector s i with
    | .error n => (s, .perm n)
    | .ok (c, g) =>
      let y := s.core c
      match y.ctx with
      | none => (s, .status 1)
      | some k =>
        if k.gen != g then (s, .status 1)
        else if !y.isHalted k then (s, .status 2)
        else if home % 2 ^ 16 != 0 then (s, .status 4)
        else
          match areaMap plainPa home 0 (areaPages (toArea s c k home).2) with
          | .error _ => (s, .status 3)
          | .ok pages => ((saveCtx s c k home pages).modCore c fun z => { z with ctx := none, reserved := true }, .status 0)

/-- The blocks of a saved context lost for uncorrectable data in its save area, whose header is then EMPTY (R439), wherever it ran. -/
def loseSaved (s : State) (c : CoreRef) (v : Saved) : State :=
  let s := { moveNames s v.core c v.gen with saved := s.saved.filter fun x => !(x.core == v.core && x.gen == v.gen) }
  let s := enterCore s c v.shadow false
  let s := v.shadow.wgs.foldl (fun s w => s.loseBlock c v.gen w.slot 1) s
  s.writeLoc (.g (areaPa v.pages 36)) 1 0

/-- `ctxl` (R357, R379, R439). -/
def execCtxl (e : Bool) (d : BitVec 6) (a b : BitVec 5) : Meaning :=
  coreControl e { d := d.toNat, dn := 1, a := 2 * a.toNat, an := 2, b := 2 * b.toNat, bn := 2 } fun _ s i =>
    let home := i.ln.t.pair i.b
    match selector s i with
    | .error n => (s, .perm n)
    | .ok (c, g) =>
      if !isEmptyCore (s.core c) then (s, .status 2)
      else if home % 2 ^ 16 != 0 then (s, .status 4)
      else
        match s.saved.find? fun v => v.gen == g && v.pages.head? == some home &&
            s.marks.any fun x => v.pages.any fun p => p ≤ 128 * x && 128 * x < p + 2 ^ 16 with
        | some v => (loseSaved s c v, .status 3)
        | none =>
          match loadCtx s c g home plainPa with
          | (s, .error .fault) => (s, .status 3)
          | (s, .error .format) => (s, .status 4)
          | (s, .ok k) => ((enterCore (s.modCore c fun z => { z with swap := z.swap.withRan false }) c k false).wakeRecalls, .status 0)

/-! ### `phld`, `hzn` (R359, R360) -/

/-- `phld` (R359). -/
def execPhld (e : Bool) (d a b : BitVec 6) : Meaning := execSys e 2 fun x s =>
  State.perLane x e { d := d.toNat, dn := 1, a := a.toNat, an := 1, b := b.toNat, bn := 1 } (fun s i =>
    let v := i.ln.t.reg i.a
    let m := i.ln.t.reg i.b
    let key := (bits v 31 23, bits v 22 21, bits v 15 0)
    if bits v 20 16 != 0 || 1 < m then (s, .stop (.trap .perm 7 0))
    else
      match s.phaser key with
      | none => (s, .ok (i.ln.t.setReg i.d 5))
      | some p =>
        if !maySelect s x.grid.level x.grid.part (((s.grid p.grid).map fun g => g.part).getD 0) then (s, .stop (.trap .perm 6 0))
        else
          let s := s.holdPhaser key (m == 1)
          match s.thread x.c x.g.wslot i.ln.t.tid with
          | some t => (s, .ok (t.setReg i.d (if p.held then 0x100 else 0)))
          | none => (s, .ok (i.ln.t.setReg i.d (if p.held then 0x100 else 0)))) s

/-- `hzn` (R360). -/
def execHzn (e : Bool) (d : BitVec 6) (a : BitVec 3) (b : BitVec 6) : Meaning := execSys e 3 fun x s =>
  State.perLane x e { d := d.toNat, dn := 1, a := 8 * a.toNat, an := 8, b := b.toNat, bn := 1 } (fun s i =>
    let (s, v) := hznWrite s x.c.pkg (i.ln.t.reg i.b) (BitVec.ofNat 256 (i.ln.t.span i.a 8))
    (s, .ok (i.ln.t.setReg i.d v))) s

/-! ### The debug aperture (R362, R363, R436, R440, R448) -/

/-- A word of the aperture: its value, its status and the generation of the core's context (R362). -/
abbrev ApWord := Nat × Nat × Nat

/-- A die's remap word (R436). -/
def remapWord (s : State) (pkg die : Nat) : Nat :=
  let ls := (s.pkg pkg).leaves.filter fun l => l.die == die
  let spare := (ls.find? fun l => l.leaf == 16).bind fun l => l.logical
  let lost := (List.range 16).filter fun k => !ls.any fun l => l.logical == some k
  lost.foldl (fun a k => a + 2 ^ (16 + k)) 0 + (match spare with
    | some k => 16 + k
    | none => 0)

/-- A counter of R440 as two words, or none where the scope fields or the offset do not fit. -/
def counterWord (s : State) (c : CoreRef) (off : Nat) : Option Nat :=
  let o := off / 8 * 8
  let w := fun (v : Nat) => some (half v (off / 4))
  if o ≤ 0x40 then w (natAt (s.core c).counters o)
  else if 0x1000 ≤ o && o ≤ 0x1020 then (if c.core == 0 then w (natAt (s.pkg c.pkg).dieCounters (c.die * 0x1000 + o)) else none)
  else if c.core != 0 || c.die != 0 then none
  else if 0x2000 ≤ o && o ≤ 0x2040 then w (natAt (s.pkg c.pkg).counters o)
  else if 0x3000 ≤ off && off ≤ 0x300C then some (remapWord s c.pkg ((off - 0x3000) / 4))
  else none

/-- A word of a context's whole image in save-area format. -/
def areaWord (s : State) (c : CoreRef) (k : Ctx) (off : Nat) : ApWord :=
  let (m, len) := toArea s c k k.saveHome
  if len < off + 4 then (0, 5, k.gen) else (mread m off 4, 0, k.gen)

/-- One word read through the aperture at a level (R362, R363), or the PERMISSION detail. `sel` says which partitions may be
selected. -/
def aperture (s : State) (level : Nat) (sel : Nat → Bool) (addr : Nat) : Except Nat ApWord :=
  let cls := bits addr 63 56
  let c : CoreRef := { pkg := bits addr 55 47, die := bits addr 46 45, core := bits addr 44 39 }
  let off := bits addr 38 0
  let x := s.core c
  let out := match corePart s c with
    | some p => !sel p
    | none => level == 2
  if addr % 4 != 0 || cls == 0 || 6 < cls || !(s.packages.any fun p => p.id == c.pkg) then
    .ok (0, 5, if cls == 1 || cls == 2 then (x.ctx.map fun k => k.gen).getD 0 else 0)
  else if 5 ≤ cls && level < 3 then .error 5
  else if (cls == 1 || cls == 2 || cls == 4) && out then .error 6
  else if cls == 3 then
    match s.phaser (c.pkg, c.die, off / 64) with
    | none => .ok (0, 5, 0)
    | some p =>
      if c.core != 0 then .ok (0, 5, 0)
      else if !sel (((s.grid p.grid).map fun g => g.part).getD 0) then .error 6
      else .ok (phaserWord p ((p.owner.map fun o => o.2.2).getD 0xFF) 0 / 2 ^ (8 * (off % 64)) % 2 ^ 32, 0, 0)
  else if cls == 4 then
    let n := off / 4
    let p := (corePart s c).bind fun p => s.part p
    match if n < 3 then none else (pkgCsr s c.pkg n).or (p.bind fun p => partCsr p n) with
    | some v => .ok (v, 0, 0)
    | none => .ok (0, 5, 0)
  else if cls == 5 then
    if c.die != 0 || c.core != 0 || 256 ≤ off / 32 then .ok (0, 5, 0)
    else .ok ((hznAt s c.pkg (off / 32)).toNat / 2 ^ (8 * (off % 32)) % 2 ^ 32, 0, 0)
  else if cls == 6 then
    match counterWord s c off with
    | some v => .ok (v, 0, 0)
    | none => .ok (0, 5, 0)
  else if cls == 2 && bit off 38 then
    match x.victim, x.expSlot with
    | true, some k => .ok (areaWord s c k (off % 2 ^ 38))
    | _, _ => .ok (0, 5, 0)
  else
    match x.ctx with
    | none => .ok (0, 2, 0)
    | some k =>
      if !x.isHalted k then .ok (0, 2, k.gen)
      else if cls == 2 then .ok (areaWord s c k off)
      else
        let i := off / 384
        match (k.wg (i / 1024)).bind fun w => (w.thread (i % 1024)).map fun t => (w, t) with
        | none => .ok (0, 5, k.gen)
        | some (w, t) =>
          let gl := match k.groupOf w.slot t.tid with
            | some g => (g.slot, g.members.findIdx fun y => y == t.tid)
            | none => (0xFF, 0)
          .ok (threadWord t w.slot (((s.grid w.grid).map fun g => g.kern.allot).getD 0) gl.1 gl.2 / 2 ^ (8 * (off % 384)) % 2 ^ 32, 0, k.gen)

/-- `dbgr` (R362): the word, and its status with the generation. -/
def execDbgr (e : Bool) (d a : BitVec 5) : Meaning := execSys e 2 fun x s =>
  State.perLane x e { d := 2 * d.toNat, dn := 2, a := 2 * a.toNat, an := 2 } (fun s i =>
    match aperture s x.grid.level (maySelect s x.grid.level x.grid.part) (i.ln.t.pair i.a) with
    | .error n => (s, .stop (.trap .perm n 0))
    | .ok (v, st, gen) => (s, .ok (i.ln.t.setSpan i.d 2 ((if st == 0 then v else 0) + (st + gen * 2 ^ 16) * 2 ^ 32)))) s

/-! ### `eret` (R334, R335, R361) -/

/-- `eret`: every member returns from its handler and regroups; a return from a CANCEL handler parks the thread. -/
def execEret (e : Bool) : Meaning := fun s => s.onIssue fun x =>
  let ms := x.g.members
  if ms.any fun t => match x.w.thread t with
    | some th => !th.inHandler
    | none => true then s.illegal x
  else spillWait x ms s fun s =>
    let acc := ms.foldl (laneStep x {} fun s i => match s.handlerReturn i.ln with
      | (s, .ok t) => (s, .ok t)
      | (s, .error w) => (s, .stop w)) ({ s := s } : LaneAcc)
    if acc.lost then acc.s.loseBlock x.c x.k.gen x.g.wslot 1
    else
      match acc.wait with
      | some why => (laneWaits acc s).stallUnit x why
      | none =>
        let trapped := acc.traps.map fun q => q.tid
        s.trapsOr acc.s x acc.traps fun s =>
          let back := ms.filter fun t => !trapped.contains t
          let cut := back.filter fun t => match x.w.thread t with
            | some th => th.faultTrap == Code.cancel.num
            | none => false
          let s := back.foldl (fun s t => s.modThread x.c x.g.wslot t fun th => { th with pend := .none }) s
          let s := cut.foldl (fun s t => s.park (x.ref t) (some x.g.slot) (((x.w.thread t).map fun th => th.entryRec).getD {})) s
          let home := back.filter fun t => !cut.contains t
          let s := if home.isEmpty then s else s.leave x.c x.g.slot home .seedbed
          s.endUnit x e true .none

end Sys2Proof.Machine
end

