-- ==== Sys2Proof/Machine/Errors.lean ====
section
/-! DEFINITION. Errors, the error log, the fatal state and the retirement of clusters (R433-R445). -/

namespace Sys2Proof.Machine

open State

/-! ### The error log and the counters (R440, R441) -/

/-- A record's 32 bytes with its number. -/
def errWord (r : ErrRec) (seq : Nat) : Nat :=
  packBits [(192, 64, r.addr), (128, 64, r.time), (64, 64, seq), (48, 16, r.cid), (32, 8, r.unit), (24, 8, r.kind), (16, 8, r.core), (14, 2, r.die)]

/-- A record appended to a package's error log, the oldest overwritten first (R441). -/
def appendLog (s : State) (pkg : Nat) (r : ErrRec) : State :=
  let i := (s.pkg pkg).errSeq
  (s.writeLoc (.g (Config.reservedRegion pkg + 32 * (i % 4096))) 32 (errWord r i)).modPkg pkg fun p => { p with errSeq := i + 1 }

/-- The counter that counts an error: that of the core, die or package whose storage it is in (R440), with its value. -/
def errCounter (s : State) (pkg : Nat) (r : ErrRec) : Option (State × Nat) :=
  let c : CoreRef := { pkg := pkg, die := r.die, core := r.core }
  let o := if r.kind == 0 then 0 else 8
  match r.unit with
  | 1 => let s := s.countCore c (0x18 + o); some (s, natAt (s.core c).counters (0x18 + o))
  | 2 => let s := s.countDie pkg r.die (0x1000 + o); some (s, natAt (s.pkg pkg).dieCounters (r.die * 0x1000 + 0x1000 + o))
  | 3 => let s := s.countPkg pkg (0x2000 + o); some (s, natAt (s.pkg pkg).counters (0x2000 + o))
  | 4 => let s := s.countPkg pkg (0x2010 + o); some (s, natAt (s.pkg pkg).counters (0x2010 + o))
  | _ => none

/-- Whether a count is a power of two. -/
def isPow2 (n : Nat) : Bool := n != 0 && 2 ^ Nat.log2 n == n

/-- An error counted and logged: a correctable one only when its counter crosses a power of two (R441). -/
def recordErr (s : State) (pkg : Nat) (r : ErrRec) : State :=
  if 2 ≤ r.kind then appendLog s pkg r
  else
    match errCounter s pkg r with
    | none => appendLog s pkg r
    | some (s, n) => if r.kind != 0 || isPow2 n then appendLog s pkg r else s

/-- ERROR: a leaf's record counted and appended to the error log (R425, R441). -/
def execError (l : Link) (r : ErrRec) : Meaning := fun s => .next (if l.malformed then s else recordErr s l.pkg r)

/-! ### The fatal state (R442-R445) -/

/-- The link that a firmware message travels on. -/
def messageLink : Instr → Option Link
  | .deal l _ _ _ | .start l _ _ | .go l _ _ | .cancel l _ _ | .demand l _ _ | .count l _ _ | .faultrec l _ _ | .xload l _ _ | .error l _
  | .retire l _ | .remap l _ | .quiesce l | .ping l => some l
  | _ => none

/-- A message's OP, HANDLE and ARG (R425). -/
def messageFields : Instr → Nat × Nat × Nat
  | .deal _ h lo _ => (0x01, h, lo)
  | .start _ h a => (0x02, h, a.block)
  | .go _ h f => (0x03, h, f)
  | .cancel _ h m => (0x04, h, m.toNat)
  | .demand _ h n => (0x05, h, n)
  | .count _ h _ => (0x06, h, 0)
  | .faultrec _ h _ => (0x07, h, 0)
  | .xload _ a _ => (0x08, 0, a)
  | .retire _ k => (0x09, 0, k)
  | .remap _ k => (0x0A, 0, k)
  | .error _ _ => (0x0B, 0, 0)
  | .quiesce _ => (0x0C, 0, 0)
  | _ => (0x0D, 0, 0)

/-- Whether a message goes from its leaf to the global scheduler core (R425). -/
def fromLeaf : Instr → Bool
  | .demand _ _ _ | .count _ _ _ | .faultrec _ _ _ | .error _ _ => true
  | _ => false

/-- A message in the dump (R424): its header, and the time and payload that the spec does not lay out. -/
def messageWord (n : Nat) (i : Instr) : Nat :=
  match messageLink i with
  | none => 0
  | some l =>
    let (op, h, a) := messageFields i
    let me := 64 * l.die + l.leaf
    let g := 64 * l.die + 0x1F
    let (dst, src) := if fromLeaf i then (g, me) else (me, g)
    packBits [(256, 768, Config.messageRest (2 * n)), (192, 64, h), (128, 64, Config.messageRest (2 * n + 1)), (64, 64, a), (56, 8, dst), (48, 8, src),
      (32, 16, l.tag), (0, 8, op)]

/-- The sections of a dump: TYPE, COUNT and STRIDE (R444). -/
def dumpSections : List (Nat × Nat × Nat) :=
  [(1, 256, 2 ^ 24), (2, 4, 2 ^ 22), (3, 256, 32), (4, 16, 4096), (5, 1, 2 ^ 16), (6, 272, 4096), (7, 4, 2 ^ 27)]

/-- Where a section of a dump begins: after the header, in the table's order. -/
def dumpOffset (t : Nat) : Nat := (dumpSections.filter fun x => x.1 < t).foldl (fun n x => n + x.2.1 * x.2.2) 4096

/-- The phasers of a die in the image format of R384, as the dump holds them. -/
def diePhasers (s : State) (pkg die base : Nat) : Mem :=
  let ps := sortBy (fun (a b : Phaser) => a.idx ≤ b.idx) (s.phasers.filter fun p => p.pkg == pkg && p.die == die)
  let none_ : Workgroup := { slot := 0, grid := 0, block := 0 }
  let r := ps.zipIdx.foldl (fun (acc : Mem × Mem × Nat) x =>
    (acc.1 ++ cells (base + 64 * x.2) 64 (phaserWord x.1 ((x.1.owner.map fun o => o.2.2).getD 0xFF) acc.2.2),
     acc.2.1 ++ x.1.members.zipIdx.flatMap (fun y => cells (base + 64 * ps.length + 16 * (acc.2.2 + y.2)) 16
       (memberWord (((s.ctxAt y.1.t.core y.1.t.gen).bind fun k => k.wg y.1.t.wslot).getD none_) y.1)),
     acc.2.2 + x.1.members.length)) ([], [], 0)
  r.1 ++ r.2.1

/-- The bytes of a package's dump, section 7 apart (R444). -/
def dumpCells (s : State) (pkg cause : Nat) : Mem :=
  let at_ := dumpOffset
  let leafs := sortBy (fun (a b : Leaf) => a.die < b.die || (a.die == b.die && a.leaf ≤ b.leaf)) (s.pkg pkg).leaves
  cells 0 32 (packBits [(0, 32, 0x504D5544), (32, 32, 1), (64, 32, cause), (128, 64, s.time pkg), (192, 32, pkg), (224, 32, dumpSections.length)]) ++
  dumpSections.zipIdx.flatMap (fun x =>
    cells (0x100 + 32 * x.2) 32 (packBits [(0, 64, at_ x.1.1), (64, 64, x.1.2.1 * x.1.2.2), (128, 32, x.1.1), (192, 32, x.1.2.1), (224, 32, x.1.2.2)])) ++
  (s.cores.filter fun x => x.at_.pkg == pkg).flatMap (fun x => match x.ctx with
    | some k => shiftUp (at_ 1 + (64 * x.at_.die + x.at_.core) * 2 ^ 24) (toArea s x.at_ k k.saveHome).1
    | none => []) ++
  (List.range 4).flatMap (fun d => diePhasers s pkg d (at_ 2 + d * 2 ^ 22)) ++
  (s.pkg pkg).hzn.flatMap (fun e => cells (at_ 3 + 32 * e.1) 32 e.2.toNat) ++
  s.parts.flatMap (fun p => (List.range 1024).flatMap fun n => match if n < 3 then none else (pkgCsr s pkg n).or (partCsr p n) with
    | some v => cells (at_ 4 + 4096 * p.part + 4 * n) 4 v
    | none => []) ++
  (s.pkg pkg).counters.flatMap (fun x => cells (at_ 5 + x.1) 8 x.2) ++ (s.pkg pkg).dieCounters.flatMap (fun x => cells (at_ 5 + x.1 % 0x1000 + 0x1000 + x.1 / 0x1000 % 8 * 0x100) 8 x.2) ++
  (List.range 4).flatMap (fun d => cells (at_ 5 + 0x3000 + 4 * d) 4 (remapWord s pkg d)) ++
  (s.cores.filter fun x => x.at_.pkg == pkg).flatMap (fun x => x.counters.flatMap fun y => cells (at_ 5 + 0x4000 + 0x80 * (64 * x.at_.die + x.at_.core) + y.1) 8 y.2) ++
  leafs.zipIdx.flatMap (fun l => [false, true].zipIdx.flatMap fun d =>
    (s.agenda.filter fun i => match messageLink i with
      | some y => y.pkg == pkg && y.die == l.1.die && y.leaf == l.1.leaf && fromLeaf i == d.1
      | none => false).zipIdx.flatMap fun m => cells (at_ 6 + 4096 * (4 * l.2 + 2 * d.2) + 128 * m.2) 128 (messageWord (s.free + m.2) m.1))

/-- A dump written (R444); what the engines and the directory hold raw has no form that the spec gives. -/
def writeDump (s : State) (pkg cause : Nat) : State :=
  let base := Config.reservedRegion pkg + 0x20000
  let m := dumpCells s pkg cause
  let m0 := sclear s.gmem base (dumpOffset 7)
  { s with gmem := m.foldl (fun g x => sset 0 g (base + x.1) x.2) m0 }

/-- Grids whose root is on a fatal package cancelled on another package as under CMODE = 1 (R445). -/
def cancelRooted (s : State) (pkg sender : Nat) : State :=
  (s.grids.filter fun g => g.rootPkg == sender && !g.complete && g.pkgs.contains pkg).foldl (fun s g =>
    let s := s.modGrid g.handle fun g => cancelPkg g 0 pkg
    (g.nodes.filter fun n => n.level == 2 && n.pkg == pkg).foldl (fun s n => s.post (.cancel (leaderLink s n.pkg n.die) g.handle true)) s) s

/-- A FATAL packet from another package (R445). -/
def execFatalPacket (pkg sender : Nat) : Meaning := fun s => .next (if sender == pkg then s else cancelRooted s pkg sender)

/-- A package goes fatal (R442, R443): its cores stop, every other package learns of it, the dump and a record of KIND 3 are written,
and the indication is raised. -/
def goFatal (s : State) (pkg unit : Nat) : State :=
  if (s.pkg pkg).mgmt.fatal then s
  else
    let s := (s.cores.filter fun x => x.at_.pkg == pkg).foldl (fun s x => s.modCore x.at_ fun x =>
      { x with stopped := true, ctx := x.ctx.map fun k => if k.st == .halted then k else { haltCtx s pkg k with st := .halted } }) s
    let s := s.modPkg pkg fun p => { p with mgmt := { p.mgmt with fatal := true, boot := .fatal } }
    let s := (s.packages.filter fun p => p.id != pkg).foldl (fun s p => cancelRooted s p.id pkg) s
    let s := appendLog (writeDump s pkg unit) pkg { time := s.time pkg, unit := unit, kind := 3 }
    { s with agenda := s.agenda.filter (fun i => match messageLink i with
               | some l => l.pkg != pkg
               | none => true),
             out := s.out ++ [.fatal pkg] }

/-- The global scheduler core fails (R442). -/
def execGlobalSchedulerCoreFailure (pkg : Nat) : Meaning := fun s => .next (goFatal s pkg 0x06)

/-! ### Retirement (R433-R435) -/

/-- A workgroup's work lost with its cluster: its copies end at once as DATA_LOST, and its sequencer's and projection's work ends
(R461). -/
def cutWork (s : State) (c : CoreRef) (gen wslot : Nat) : State :=
  match s.ctxAt c gen with
  | none => s
  | some k =>
    let s := (k.copies.filter fun e => e.wslot == wslot && e.st != .ended).foldl (fun s e =>
      s.countCopy c gen e (copyTotal e - min (copyTotal e) e.written + e.lostBytes) 2) s
    s.modCtxAt c gen fun k =>
      { k with copies := k.copies.filter fun e => e.wslot != wslot,
               mtx := if k.mtx.holder == some wslot then { k.mtx with queue := [], fault := none } else k.mtx,
               voc := if k.mtx.holder == some wslot then {} else k.voc }

/-- A workgroup lost with a cluster (R434, R461). -/
def loseWith (s : State) (c : CoreRef) (gen wslot : Nat) : State :=
  ((cutWork s c gen wslot).modCtxAt c gen fun k => k.modWg wslot fun w => { w with started := true }).loseBlock c gen wslot 0

/-- A neighbourhood whose members have not all been admitted, withdrawn (R427). -/
def turnAway (s : State) (c : CoreRef) (w : Workgroup) : State :=
  match s.grid w.grid with
  | none => s
  | some g =>
    let first := w.block / g.lrec.nbn * g.lrec.nbn
    startAnswered s (s.coreLink c) w.grid
      { block := first, core := c.core, m := 0, n := w.members.length, lbase := [], relaunch := relaunchesOf g first != 0 } 5

/-- The context of a core of a retired cluster lost: every workgroup with every other member of its neighbourhood (R434). -/
def loseCore (s : State) (c : CoreRef) : State :=
  match (s.core c).ctx with
  | none => s
  | some k =>
    let s := k.wgs.foldl (fun s w =>
      if !w.cleared then turnAway s c w
      else (s.memberWgs c k.gen w).foldl (fun s m => if m.2.ended then s else loseWith s m.1 k.gen m.2.slot) s) s
    let s := answerHalts s c k.gen 1
    let s := (s.phasers.filter fun p => match p.owner with
      | some o => o.1 == c && o.2.1 == k.gen
      | none => false).foldl (fun s p => s.freePhaser p.key) s
    s.modCore c fun x => { x with ctx := none }

/-- A retired cluster's core: its context lost, its swap off, with a horizon that it had still to act for skipped and counted, its in-slot's
pre-fill begun again in the spare's; its express slot keeps what it holds, and so does an in-slot whose context comes after the express job
(R390, R434). -/
def retireCore (s : State) (c : CoreRef) : State :=
  let s := loseCore s c
  let x := s.core c
  let waits := !x.hznWait.isEmpty || match x.swap with
    | .horizon _ _ _ _ _ => true
    | _ => false
  let s := if waits then s.countCore c 0x38 else s
  let s := s.modCore c fun x =>
    { x with swap := .none, hznWait := [], tlb := [], dtags := [], stags := [], inSlot := if x.accepted then x.inSlot else none, inReady := false }
  let again := refill s c
  if !x.accepted && (prefillEntry s c).isSome then again.countCore c 0x28 else again

/-- The cores of a die that a swap of a retired cluster's core may have held up look again, and the entries whose cores have all acted are
FIRED (R371, R376, R389). -/
def lookAgain (s : State) (pkg die : Nat) : State :=
  settleFired ((s.cores.filter fun x => x.at_.pkg == pkg && x.at_.die == die && x.swap != .none).foldl (fun s x => s.postOnce (.horizonSwap x.at_)) s) pkg

/-- The express slot of a core whose number is lost with no replacement: there is no core on which its context could run, and it is lost as the
running one is. DEDUCED (log 91). -/
def loseSlot (s : State) (c : CoreRef) : State :=
  let s := s.modCore c fun x => { x with inSlot := none, reserved := false }
  if (s.core c).expSlot.isNone then s.modCore c fun x => { x with victim := false }
  else loseCore (s.modCore c fun x => { x with ctx := x.expSlot, expSlot := none, victim := false }) c

/-- The cores of a logical cluster taken out of every grant (R435). -/
def dropGrants (s : State) (pkg die k : Nat) : State :=
  s.modPkg pkg fun p => { p with parts := p.parts.map fun (x : PartRes) =>
    { x with cores := (clusterCores k).foldl (fun m c => if bit m (64 * die + c) then m - 2 ^ (64 * die + c) else m) x.cores } }

/-- The shares of the grids on a package after a grant has lost cores (R299, R435). -/
def reshare (s : State) (pkg : Nat) : State :=
  (s.grids.filter fun g => !g.complete && g.pkgs.contains pkg).foldl (fun s g =>
    let left := fun (n : Node) => if n.level == 2 then (granted s pkg n.die g.part).length
      else (List.range 4).foldl (fun t d => t + (granted s pkg d g.part).length) 0
    s.modGrid g.handle fun g => { g with nodes := g.nodes.map fun n =>
      if n.pkg != pkg || n.level == 0 || n.share == 0 then n else { n with share := if n.cores == 0 then left n else min n.cores (left n) } }) s

/-- A physical cluster retired (R433-R435): what runs on it is lost, and the spare takes its logical number where it is unused;
otherwise the number is lost, and a die left without a working leaf is fatal. -/
def retireCluster (s : State) (pkg die leaf : Nat) : State :=
  match leafAt s pkg die leaf with
  | none => s
  | some f =>
    if f.retired then s
    else
      let cs := leafCores s { pkg := pkg, die := die, leaf := leaf }
      let s := modLeaf s pkg die leaf fun f => { f with retired := true }
      let s := lookAgain (cs.foldl retireCore s) pkg die
      let s := (appendLog s pkg { addr := leaf, time := s.time pkg, unit := 0x06, kind := 2, die := die }).countPkg pkg 0x2040
      let spare := leafAt s pkg die 16
      let s := match f.logical, spare with
        | some k, some sp =>
          if leaf != 16 && !sp.retired && sp.logical.isNone && !sp.remapping then
            modLeaf s pkg die 16 fun f => { f with remapping := true }
          else reshare (dropGrants (modLeaf (cs.foldl loseSlot s) pkg die leaf fun f => { f with logical := none }) pkg die k) pkg
        | _, _ => s
      if (s.pkg pkg).leaves.any fun f => f.die == die && !f.retired then s.postOnce (.neighbourhoodPlacement pkg die)
      else goFatal s pkg (Config.fatalUnit 0)

/-- RETIRE: OK, or DOWN for a cluster that is retired (R425, R434). -/
def execRetire (l : Link) (cluster : Nat) : Meaning := fun s =>
  .next (if l.malformed || cluster != l.leaf then s else retireCluster s l.pkg l.die cluster)

/-- REMAP: the receiving leaf's cluster takes a logical identity (R425, R434); the victim of an express job that was lost with the cluster comes
back on the spare (R390). -/
def execRemap (l : Link) (logical : Nat) : Meaning := fun s =>
  match leafAt s l.pkg l.die l.leaf with
  | none => .next s
  | some f =>
    if l.malformed || 16 ≤ logical || f.retired || f.logical.isSome then .next s
    else
      let s := s.modPkg l.pkg fun p => { p with leaves := mapIf (fun x => x.die == l.die && x.retired && x.logical == some logical) (fun x => { x with logical := none }) p.leaves }
      let s := modLeaf s l.pkg l.die l.leaf fun f => { f with logical := some logical, remapping := false }
      let back := (clusterCores logical).map (fun k => ({ pkg := l.pkg, die := l.die, core := k } : CoreRef)) |>.filter fun c => (s.core c).victim
      .next ((back.foldl (fun s c => s.postOnce (.horizonSwap c)) s).postOnce (.neighbourhoodPlacement l.pkg l.die))

/-! ### Errors in storage (R433, R437-R439) -/

/-- A leaf's cluster that holds a core. -/
def leafOfCore (s : State) (c : CoreRef) : Option Leaf := leafAt s c.pkg c.die (s.coreLink c).leaf

/-- A corrected error noted for its cluster: more than 1,000 within one second retire it (R433). -/
def noteCorrected (s : State) (c : CoreRef) : State :=
  match leafOfCore s c with
  | none => s
  | some f =>
    let now := s.time c.pkg
    let ts := (now :: f.corrected).filter fun t => now < t + 10 ^ 9
    let s := modLeaf s c.pkg c.die f.leaf fun f => { f with corrected := ts.take 1001 }
    if 1000 < ts.length then retireCluster s c.pkg c.die f.leaf else s

/-- A correctable error (R437): the value is corrected and written back, and the error counted. A leaf reports its cluster's. -/
def execCorrectableError (pkg : Nat) (r : ErrRec) : Meaning := fun s =>
  let r := { r with kind := 0 }
  if r.unit == 1 then
    let c : CoreRef := { pkg := pkg, die := r.die, core := r.core }
    .next ((noteCorrected s c).post (.error (s.coreLink c) r))
  else .next (recordErr s pkg r)

/-- The block whose state a core's error lies in is lost (R439); an error that recurs at one place retires the cluster (R433). -/
def coreError (s : State) (c : CoreRef) (addr : Nat) : State :=
  let s := match (s.core c).ctx with
    | some k => s.loseBlock c k.gen (Config.erroneousSlot addr % 16) 1
    | none => s
  match leafOfCore s c with
  | none => s
  | some f =>
    if f.bad.contains addr then retireCluster s c.pkg c.die f.leaf
    else modLeaf s c.pkg c.die f.leaf fun f => { f with bad := addr :: f.bad }

/-- A grid cancelled for uncorrectable data in what its dispatchers hold, with one more record dropped (R439). -/
def loseGrid (s : State) (h : Nat) : State :=
  match s.grid h with
  | none => s
  | some g => if g.complete then s else tryFinish (cancelGrid (s.modGrid h fun g => { g with ndrop := g.ndrop + 1 }) h 2) h

/-- A grid whose records held by the dispatchers lie in a lost line is cancelled, with one more record dropped (R439). -/
def gridError (s : State) (line : Nat) : State :=
  (s.grids.filter fun g => !g.complete && (
      (g.nodes.any fun n => match gPa s g.level g.cid n.self .read with
        | .ok pa => pa / 128 == line
        | .error _ => false) ||
      (List.range ((faultBytes g.lrec + 127) / 128)).any fun i => match gPa s g.level g.cid (g.lrec.farea + 128 * i) .read with
        | .ok pa => pa / 128 == line
        | .error _ => false)).foldl (fun s g => loseGrid s g.handle) s

/-- Uncorrectable data in a phaser's state (R439): a workgroup phaser's block is lost, a grid phaser's grid is cancelled. -/
def phaserError (s : State) (pkg die i : Nat) : State :=
  match s.phaser (pkg, die, i) with
  | none => s
  | some p => match p.owner with
    | some (c, gen, wslot) => s.loseBlock c gen wslot 1
    | none => loseGrid s p.grid

/-- An uncorrectable error (R438, R439): the place is marked, or its block lost; in the directory, the engines' or the firmware's
state it is fatal (R442). -/
def execUncorrectableError (pkg : Nat) (r : ErrRec) : Meaning := fun s =>
  let r := { r with kind := 1 }
  let c : CoreRef := { pkg := pkg, die := r.die, core := r.core }
  match r.unit with
  | 1 => .next ((coreError s c r.addr).post (.error (s.coreLink c) r))
  | 2 =>
    let die := 4 * pkg + r.die
    match Config.nimbusKind die r.addr with
    | 1 => .next (phaserError (recordErr s pkg r) pkg r.die (Config.nimbusOwner die r.addr % 65536))
    | 2 => .next (loseGrid (recordErr s pkg r) (Config.nimbusOwner die r.addr))
    | _ => .next (recordErr { s with marks := joinNat s.marks [Config.nimbusLine die r.addr] } pkg r)
  | 3 => .next (gridError (recordErr { s with marks := joinNat s.marks [r.addr / 128] } pkg r) (r.addr / 128))
  | 4 => .next (match (s.core c).ctx with
      | some k => recordErr (s.loseBlock c k.gen (Config.erroneousSlot r.addr % 16) 1) pkg r
      | none => recordErr s pkg r)
  | 5 => .next (goFatal (recordErr s pkg r) pkg 5)
  | 6 => .next (goFatal (recordErr s pkg r) pkg 6)
  | _ => .next (recordErr s pkg r)

/-- Patrol scrubbing reads a line (R437): an error it finds is an event of its own, and nothing else changes. -/
def execPatrolScrub (_pkg _line : Nat) : Meaning := fun s => .next s

end Sys2Proof.Machine
end

