-- ==== Sys2Proof/Machine/Queues.lean ====
section
/-! DEFINITION. PCIe functions, launch-packet queues, their packets, resets and migration (R391-R396, R409-R420). -/

namespace Sys2Proof.Machine

open State

/-! ### Functions and queues (R409, R410) -/

namespace State

/-- A function of a package, as after reset where the state lists none. -/
def fnOf (s : State) (pkg fn : Nat) : Fn := ((s.pkg pkg).fns.find? fun x => x.fn == fn).getD { fn := fn }

/-- A function changed. -/
def modFn (s : State) (pkg fn : Nat) (f : Fn → Fn) : State :=
  s.modPkg pkg fun p => { p with fns := upsert (fun x => x.fn == fn) (f (s.fnOf pkg fn)) p.fns }

/-- A queue. -/
def queueOf (s : State) (q : QRef) : Queue := ((s.fnOf q.pkg q.fn).queues[q.q]?).getD {}

/-- A queue changed. -/
def modQueue (s : State) (q : QRef) (f : Queue → Queue) : State :=
  s.modFn q.pkg q.fn fun x => { x with queues := x.queues.set q.q (f (s.queueOf q)) }

end State

/-- The level of a function's queues and its partition (R409): HOST for the physical function; a virtual function's as VFMAP gives it
while it is enabled. The jobs of the physical function's queues are those of partition 0. -/
def fnLevel (f : Fn) : Option (Nat × Nat) :=
  if f.fn == 0 then some (2, 0)
  else if bit f.vfmap 31 && bits f.vfmap 5 4 < 2 then some (bits f.vfmap 5 4, bits f.vfmap 3 0) else none

/-- A queue's level, partition and CID (R410). -/
def queueLevel (s : State) (q : QRef) : Option (Nat × Nat × Nat) :=
  (fnLevel (s.fnOf q.pkg q.fn)).map fun x => (x.1, x.2, 4096 * x.2 + (s.queueOf q).job)

/-- A packet ends (R414): STATUS, RESULT, the signal where one is due, and the queue may go on. -/
def finishPacket (s : State) (q : QRef) (p : Packet) (status result : Nat) (signal : Bool) : State :=
  let s := match queueLevel s q with
    | some (lv, _, cid) => endPacket s q lv cid p status result signal
    | none => s
  (s.modQueue q fun x => { x with busy := false, watch := none, signal := none, rejected := x.rejected || status == 0x16 }).postOnce (.queueService q.pkg)

/-- A packet of a kind with a minimum level (R413): LEVEL below it, FORMAT where its arguments have a reserved bit. -/
def onQueue (q : QRef) (p : Packet) (least : Nat) (ok : Bool) (f : State → Nat → Nat → Nat → State) : Meaning := fun s =>
  match queueLevel s q with
  | none => .next s
  | some (lv, part, cid) =>
    .next (if lv < least then finishPacket s q p 0x11 0 true else if !ok then finishPacket s q p 0x14 0 true else f s lv part cid)

/-! ### LAUNCH, WAITSIG and SIGNAL (R413, R414) -/

/-- LAUNCH: as a `glch` from the queue's package, at the queue's level, for the job in QCTL.JOB (R413). -/
def execLaunch (q : QRef) (p : Packet) : Meaning := onQueue q p 0 (p.arg1 < 2) fun s lv _ cid =>
  match checkLaunch s lv cid p.arg0 with
  | .error st => finishPacket s q p st 0 true
  | .ok l =>
    let l := { l with r := { l.r with stream := p.stream } }
    finishPacket (accept s lv cid q.pkg l (some (q, p))) q p 0 l.r.rcba (p.arg1 == 0)

/-- The value of a queue's watched word, unsigned, or none where it cannot be read. -/
def watched (s : State) (q : QRef) (va : Nat) : Option Nat :=
  match queueLevel s q with
  | none => none
  | some (lv, _, cid) => match gBytes s lv cid va 8 with
    | .ok v => some v
    | .error _ => none

/-- WAITSIG: waits until the word is at least the value; where it falls short a watch stands at the word's home (R414). -/
def execWaitsig (q : QRef) (p : Packet) : Meaning := onQueue q p 0 (p.arg0 % 8 == 0) fun s _ _ _ =>
  match watched s q p.arg0 with
  | none => finishPacket s q p 0x16 0 true
  | some v =>
    if p.arg1 ≤ v then finishPacket s q p 0x10 0 true
    else (s.modQueue q fun x => { x with watch := some (p, p.arg0, p.arg1) }).postOnce (.waitsigWake q.pkg q.fn)

/-- The queues of a function that wait in WAITSIG. -/
def watching (s : State) (pkg fn : Nat) : List (QRef × Packet × Nat × Nat) :=
  (s.fnOf pkg fn).queues.zipIdx.filterMap fun x => x.1.watch.map fun w => ({ pkg := pkg, fn := fn, q := x.2 }, w)

/-- Whether the home of a watched word has something to say to a function: the word has reached the value, or can no longer be read. -/
def wakeDue (s : State) (pkg fn : Nat) : Bool :=
  (watching s pkg fn).any fun w => match watched s w.1 w.2.2.1 with
    | some v => w.2.2.2 ≤ v
    | none => true

/-- A wake reaches a function: each of its waiting queues reads its word again; one that finds no wait is discarded and counted
(R414, R419). -/
def wakeFn (s : State) (pkg fn : Nat) : State :=
  let ws := watching s pkg fn
  if ws.isEmpty then s.countPkg pkg 0x2038
  else
    let s := ws.foldl (fun s w =>
      match watched s w.1 w.2.2.1 with
      | none => finishPacket s w.1 w.2.1 0x16 0 true
      | some v => if w.2.2.2 ≤ v then finishPacket s w.1 w.2.1 0x10 0 true else s) s
    if (watching s pkg fn).isEmpty then s else s.postOnce (.waitsigWake pkg fn)

/-- A wake from a watched word (R414): held or redirected by the switches while its function moves (R418). -/
def execWaitsigWake (pkg fn : Nat) : Meaning := fun s =>
  match s.redirects.find? fun x => x.1 == (pkg, fn) with
  | some (_, none) => .next { s with heldWakes := s.heldWakes ++ [(pkg, fn)] }
  | some (_, some (p2, f2)) => .next { wakeFn s p2 f2 with out := (wakeFn s p2 f2).out ++ [.forwarded p2 f2] }
  | none => .next (wakeFn s pkg fn)

/-- Whether a grid that a queue launched is incomplete. -/
def queueBusy (s : State) (q : QRef) : Bool := s.grids.any fun g => !g.complete && (g.queue.map fun x => x.1) == some q

/-- SIGNAL: waits until every grid that earlier packets of the queue launched has completed (R413). -/
def execSignal (q : QRef) (p : Packet) : Meaning := onQueue q p 0 (p.arg0 == 0 && p.arg1 == 0) fun s _ _ _ =>
  if queueBusy s q then s.modQueue q fun x => { x with signal := some p } else finishPacket s q p 0x10 0 true

/-- The SIGNALs of a package whose grids have all completed end. -/
def settleSignals (s : State) (pkg : Nat) : State :=
  ((s.pkg pkg).fns.flatMap fun f => f.queues.zipIdx.filterMap fun x => x.1.signal.map fun p => (({ pkg := pkg, fn := f.fn, q := x.2 } : QRef), p)).foldl
    (fun s y => if queueBusy s y.1 then s else finishPacket s y.1 y.2 0x10 0 true) s

/-! ### Partition sets (R391-R394) -/

/-- A partition descriptor (R393). -/
structure PartDesc where
  cores : Nat
  s2root : Nat
  ipaoff : Nat
  ipalen : Nat
  dslice : List Nat
  tbudget : Nat
  hbmw : Nat
  fabw : Nat
  part : Nat
  parent : Nat
  depth : Nat
  op : Nat
  deriving DecidableEq, Repr

/-- The fields of a descriptor. -/
def partDesc (v : Nat) : PartDesc :=
  { cores := bits v 1023 768, s2root := bits v 767 704, ipaoff := bits v 703 672, ipalen := bits v 671 640,
    dslice := (List.range 4).map fun d => bits v (591 + 16 * d) (576 + 16 * d), tbudget := bits v 575 544, hbmw := bits v 543 536, fabw := bits v 535 528,
    part := bits v 511 508, parent := bits v 507 504, depth := bits v 503 502, op := bits v 501 500 }

/-- The partitions that hold resources on a package, the children of a partition, or those at depth 0. -/
def partsOn (s : State) (pkg : Nat) (p : Part → Bool) : List PartRes :=
  (s.pkg pkg).parts.filter fun r => match s.part r.part with
    | some x => p x
    | none => false

/-- Whether a partition is a child of another. -/
def childOf (p : Nat) (x : Part) : Bool := x.depth != 0 && x.parent == p

/-- FORMAT of R394: reserved fields, ranges, and the partition as it stands. -/
def partFormatOk (s : State) (pkg v : Nat) (d : PartDesc) : Bool :=
  let here := (s.pkg pkg).parts.any fun r => r.part == d.part
  bits v 527 512 == 0 && v % 2 ^ 500 == 0 && d.op != 3 && d.depth != 3 && (d.dslice.all fun n => n ≤ 8192) && d.hbmw != 0 && d.fabw != 0 &&
    (if d.depth == 0 then d.parent == d.part && d.s2root % 2 ^ 16 == 0 && d.ipaoff == 0 && d.ipalen == 0
     else d.parent != d.part && d.s2root == 0 && d.ipalen != 0 && ((s.part d.parent).map fun x => x.depth + 1) == some d.depth) &&
    (match s.part d.part with
     | some x => x.depth == d.depth && (d.depth == 0 || x.parent == d.parent)
     | none => true) &&
    here == (d.op != 0)

/-- The weights and slices of a list of partitions' resources summed. -/
def sumOf (l : List PartRes) (f : PartRes → Nat) : Nat := l.foldl (fun n r => n + f r) 0

/-- RESOURCE of R394: a child within its parent, weights and slices within their limits, no core held twice. -/
def partResourceOk (s : State) (pkg : Nat) (d : PartDesc) : Bool :=
  let sibs := (partsOn s pkg fun x => if d.depth == 0 then x.depth == 0 else childOf d.parent x).filter fun r => r.part != d.part
  let top := s.partRes pkg d.parent
  let slice := fun (die : Nat) (r : PartRes) => (r.dslice[die]?).getD 0
  let mine := fun (die : Nat) => (d.dslice[die]?).getD 0
  (sibs.all fun r => (r.cores &&& d.cores) == 0) &&
    if d.depth == 0 then
      sumOf sibs (fun r => r.hbmw) + d.hbmw ≤ 256 && sumOf sibs (fun r => r.fabw) + d.fabw ≤ 256 &&
        (List.range 4).all fun die => sumOf sibs (slice die) + mine die ≤ 8192
    else
      (d.cores &&& top.cores) == d.cores && ((List.range 4).all fun die => sumOf sibs (slice die) + mine die ≤ slice die top) &&
        sumOf sibs (fun r => r.hbmw) + d.hbmw ≤ 255 && sumOf sibs (fun r => r.fabw) + d.fabw ≤ 255

/-- Whether a context of a partition stands on a core, active or in a slot. -/
def coreUsed (s : State) (c : CoreRef) (part : Nat) : Bool :=
  let x := s.core c
  ([x.ctx, x.inSlot, x.outSlot, x.expSlot].filterMap fun o => o).any fun k => partOfCid k.cid == part

/-- BUSY of R394: what a modify or destroy takes away is used by a child, a job's allocation or a resident context. -/
def partBusy (s : State) (pkg : Nat) (d : PartDesc) : Bool :=
  let kids := partsOn s pkg (childOf d.part)
  let old := s.partRes pkg d.part
  let keep := if d.op == 2 then 0 else d.cores
  let gone := (List.range 256).filter fun i => bit old.cores i && !bit keep i
  d.op != 0 && ((d.op == 2 && !kids.isEmpty) ||
    (gone.any fun i => kids.any (fun r => bit r.cores i) || coreUsed s { pkg := pkg, die := i / 64, core := i % 64 } d.part) ||
    (List.range 4).any fun die =>
      let used := (s.dallocs.filter fun a => a.pkg == pkg && a.die == die && partOfCid a.cid == d.part).foldl (fun n a => n + a.size / 2 ^ 16) 0 +
        sumOf kids fun r => (r.dslice[die]?).getD 0
      (if d.op == 2 then 0 else (d.dslice[die]?).getD 0) < used)

/-- A partition-set packet's change made on its package (R394): at creation the partition's CSRs take their reset values (R347). -/
def applyPart (s : State) (pkg : Nat) (d : PartDesc) : State :=
  if d.op == 2 then
    let s := s.modPkg pkg fun p => { p with parts := p.parts.filter fun r => r.part != d.part }
    if s.packages.any fun p => p.parts.any fun r => r.part == d.part then s else { s with parts := s.parts.filter fun x => x.part != d.part }
  else
    let r := { s.partRes pkg d.part with cores := d.cores, dslice := d.dslice, tbudget := d.tbudget, hbmw := d.hbmw, fabw := d.fabw }
    let s := s.modPkg pkg fun p => { p with parts := upsert (fun x => x.part == d.part) r p.parts }
    let s := if (s.part d.part).isSome then s
      else { s with parts := s.parts ++ [{ part := d.part, parent := d.parent, depth := d.depth, s2root := d.s2root, ipaoff := d.ipaoff, ipalen := d.ipalen }] }
    (List.range 4).foldl (fun s die => s.postOnce (.neighbourhoodPlacement pkg die)) s

/-- PARTSET (R394). -/
def execPartset (q : QRef) (p : Packet) : Meaning := onQueue q p 1 (p.arg1 == 0) fun s lv part cid =>
  match gBytes s lv cid p.arg0 128 with
  | .error _ => finishPacket s q p 0x16 0 true
  | .ok v =>
    let d := partDesc v
    if !partFormatOk s q.pkg v d then finishPacket s q p 0x14 0 true
    else if !(if d.depth == 0 then lv == 2 else lv == 1 && part == d.parent) then finishPacket s q p 0x11 0 true
    else if d.op != 2 && !partResourceOk s q.pkg d then finishPacket s q p 0x12 0 true
    else if partBusy s q.pkg d then finishPacket s q p 0x13 0 true
    else finishPacket (applyPart s q.pkg d) q p 0x10 0 true

/-! ### Job slots and communicators (R320, R395, R413) -/

/-- JOBSET (R395). -/
def execJobset (q : QRef) (p : Packet) : Meaning :=
  let a := p.arg0
  let job := bits a 11 0
  let units := bits a 29 16
  let create := bits a 14 13 == 0
  onQueue q p 1 (!bit a 15 && bits a 31 30 == 0 && a / 2 ^ 48 == 0 && bits a 14 13 < 2 && job != 0 && units ≤ 8192 && p.arg1 % 2 ^ 16 == 0 &&
      (!create || bits a 47 32 != 0)) fun s _ part _ =>
    let cid := 4096 * part + job
    if create then
      if (s.job cid).isSome then finishPacket s q p 0x13 0 true
      else finishPacket { s with jobs := s.jobs ++ [{ cid := cid, gen := bits a 47 32, dunits := units, evict := bit a 12, s1root := p.arg1 }] } q p 0x10 0 true
    else if (s.job cid).isNone then finishPacket s q p 0x14 0 true
    else
      let named := s.packages.any fun x => x.hzn.any fun e =>
        let h := hznOf e.2
        h.valid && !h.fired && h.ingen != 0 && h.incid == cid
      if (s.grids.any fun g => g.cid == cid && !g.complete) || named then finishPacket s q p 0x13 0 true
      else
        let dm := (s.dallocs.filter fun x => x.cid == cid).foldl (fun m x => sclear m (dKey x.pkg x.die cid 0) (2 ^ 32)) s.dmem
        -- an express slot that holds the job's context is emptied (R432)
        let cores := mapIf (fun (x : Core) => !x.victim && (x.expSlot.any fun k => k.cid == cid)) (fun (x : Core) => { x with expSlot := none }) s.cores
        finishPacket { s with cores := cores, jobs := s.jobs.filter (fun j => j.cid != cid), dallocs := s.dallocs.filter (fun x => x.cid != cid), dmem := dm }
          q p 0x10 0 true

/-- COMMSET (R320, R413). -/
def execCommset (q : QRef) (p : Packet) : Meaning :=
  let a := p.arg0
  let gone := bit a 32
  let logb := bits a 28 24
  onQueue q p 1 (bits a 7 6 == 0 && bits a 11 10 == 0 && bits a 23 21 == 0 && bits a 31 29 == 0 && a / 2 ^ 33 == 0 && (gone || (12 ≤ logb && logb ≤ 20)))
    fun s lv part cid =>
      let mine := fun (c : Comm) => c.part == part && c.comm == bits a 5 0
      let busy := s.grids.any fun g => g.part == part && !g.complete && g.colls.any fun b => b.comm == bits a 5 0
      if busy then finishPacket s q p 0x13 0 true
      else if gone then
        (if s.comms.any mine then finishPacket { s with comms := s.comms.filter fun c => !mine c } q p 0x10 0 true
         else finishPacket s q p 0x14 0 true)
      else
        let n := bits a 20 12 + 1
        match gBytes s lv cid p.arg1 (8 + 2 * n) with
        | .error _ => finishPacket s q p 0x16 0 true
        | .ok v =>
          let c : Comm := { part := part, comm := bits a 5 0, cls := bits a 9 8, seed := v % 2 ^ 64,
                            ranks := (List.range n).map fun i => v / 2 ^ (64 + 16 * i) % 2 ^ 16, logbuf := logb }
          finishPacket { s with comms := upsert mine c s.comms } q p 0x10 0 true

/-! ### Express requests (R387, R389, R413, R447) -/

/-- The state after the evictions that an express request asks for on each die of its set. -/
def afterEvictions (s : State) (pkg cid : Nat) (cs : List CoreRef) : State :=
  let need := ((s.job cid).map fun j => j.dunits * 2 ^ 16).getD 0
  (cs.map fun c => c.die).eraseDups.foldl (fun s d =>
    if s.dallocs.any fun a => a.pkg == pkg && a.die == d && a.cid == cid then s else evict s pkg d need (evictable s cs pkg d)) s

/-- Whether a package accepts an express request (R387, R447). -/
def expressOk (s : State) (pkg part cid : Nat) (cs : List CoreRef) : Bool :=
  let need := ((s.job cid).map fun j => j.dunits * 2 ^ 16).getD 0
  let after := afterEvictions s pkg cid cs
  ((s.part part).map fun p => p.expr).getD false &&
    (cs.all fun c =>
      let x := s.core c
      let busy := match x.swap with
        | .express _ _ _ _ => true
        | _ => false
      (x.expSlot.map fun k => k.cid) == some cid && !x.victim && !busy &&
        match x.ctx with
        | some k => k.wgs.all fun w => w.members.all fun m => cs.contains { c with core := m.core }
        | none => true) &&
    (cs.map fun c => c.die).eraseDups.all fun d =>
      (s.dallocs.any fun a => a.pkg == pkg && a.die == d && a.cid == cid) || dHeld after pkg d + need ≤ 2 ^ 29

/-- Whether the job of a core's context will give up its allocation to an express job (R389). -/
def losesD (s : State) (pkg cid : Nat) (cs : List CoreRef) (c : CoreRef) : Bool :=
  match (s.core c).ctx with
  | some k =>
    (s.dallocs.any fun a => a.pkg == c.pkg && a.die == c.die && a.cid == k.cid) &&
      !((afterEvictions s pkg cid cs).dallocs.any fun a => a.pkg == c.pkg && a.die == c.die && a.cid == k.cid)
  | none => false

/-- EXPRESS: accepted, the request goes out to the cores of its set; each victim learns whether its job's allocation will be given up
(R387, R389). -/
def execExpress (q : QRef) (p : Packet) : Meaning := onQueue q p 1 (p.arg0 < 4096) fun s _ part _ =>
  let cid := 4096 * part + p.arg0
  let cs := (hznOf (BitVec.ofNat 256 (p.arg1 % 2 ^ 64 * 2 ^ 128))).cores q.pkg
  if !expressOk s q.pkg part cid cs then finishPacket s q p 0x15 0 true
  else
    finishPacket (cs.foldl (fun s' c => s'.post (.expressArrival c cid (losesD s q.pkg cid cs c))) s) q p 0x10 0 true

/-! ### The nested scheduler (R411, R412, R415) -/

/-- A write to QTAIL (R411, R416, R418). -/
def execNotify (q : QRef) (t : Nat) : Meaning := fun s =>
  let x := s.queueOf q
  let f := s.fnOf q.pkg q.fn
  if 8 ≤ q.q then .next s
  else if !x.en || f.frozen || (s.pkg q.pkg).numVfs < q.fn then .next (s.modFn q.pkg q.fn fun f => { f with notdrop := f.notdrop + 1 })
  else if t < 2 ^ x.log2n then .next ((s.modQueue q fun x => { x with qtail := t }).postOnce (.queueService q.pkg))
  else .next (s.modQueue q fun x => { x with outOfRange := true })

/-- Whether a queue is ready (R415). -/
def queueReady (f : Fn) (x : Queue) : Bool := x.en && !f.frozen && (fnLevel f).isSome && x.qhead != x.qtail && !x.busy

/-- The ready queues of a package: the queue, its PRIO, and its partition, none for the physical function's. -/
def readyQueues (s : State) (pkg : Nat) : List (QRef × Nat × Option Nat) :=
  (s.pkg pkg).fns.flatMap fun f => f.queues.zipIdx.filterMap fun x =>
    if queueReady f x.1 then
      let part := if f.fn == 0 then none else (fnLevel f).map fun y => y.2
      if (part.map fun p => budgetLeft s pkg 3 p).getD true then some ({ pkg := pkg, fn := f.fn, q := x.2 }, x.1.prio, part) else none
    else none

/-- A partition's TBUDGET in the unit of its charge. -/
def budgetOf (r : PartRes) : Nat := r.tbudget * 1000 * 2 ^ 16

/-- A partition's charge and TBUDGET in the same unit; the physical function's queues and a partition without limit have used no
part of one (R415). -/
def usedPart (s : State) (pkg : Nat) (p : Option Nat) : Nat × Nat :=
  match p with
  | none => (0, 1)
  | some p =>
    let r := s.partRes pkg p
    if r.tbudget == 0 then (0, 1) else (r.charge, budgetOf r)

/-- The queue that is served next (R415): of the depth-0 partition that has used the least part of its budget, the highest PRIO, then
round-robin. The physical function's queues count as a partition before the others. -/
def nextQueue (s : State) (pkg : Nat) : Option QRef :=
  let rs := readyQueues s pkg
  let top := fun (p : Option Nat) => p.map fun p => s.topPart 3 p
  let before := fun (a b : Option Nat) =>
    let (ca, ta) := usedPart s pkg a
    let (cb, tb) := usedPart s pkg b
    ca * tb < cb * ta || (ca * tb == cb * ta && (match a, b with
      | none, some _ => true
      | some x, some y => x < y
      | _, _ => false))
  match firstBy before (rs.map fun r => top r.2.2) with
  | none => none
  | some t =>
    let mine := rs.filter fun r => top r.2.2 == t
    let hi := mine.foldl (fun m r => max m r.2.1) 0
    let eq := (mine.filter fun r => r.2.1 == hi).map fun r => r.1
    let last := (s.pkg pkg).lastServed
    let lt := fun (a b : QRef) => a.fn < b.fn || (a.fn == b.fn && a.q < b.q)
    let later := eq.filter fun r => last.1 < r.fn || (last.1 == r.fn && last.2 < r.q)
    if later.isEmpty then firstBy lt eq else firstBy lt later

/-- A packet's fields as its queue takes it (R412). -/
def packetOf (addr v : Nat) : Packet :=
  { addr := addr, sigaddr := bits v 511 448, sigval := bits v 447 384, arg1 := bits v 383 320, arg0 := bits v 319 256, stream := bits v 143 128 }

/-- A packet carried out by its KIND (R412, R413). -/
def runPacket (q : QRef) (p : Packet) (v : Nat) : Meaning := fun s =>
  if bits v 191 160 != 0 || bits v 151 144 != 0 || v % 2 ^ 120 != 0 then .next (finishPacket s q p 0x14 0 true)
  else
    match bits v 127 120 with
    | 1 => execLaunch q p s
    | 2 => execWaitsig q p s
    | 3 => execSignal q p s
    | 4 => execJobset q p s
    | 5 => execCommset q p s
    | 6 => execExpress q p s
    | 7 => execPartset q p s
    | _ => .next (finishPacket s q p 0x14 0 true)

/-- Whether a packet, or the structure or word that it names first, lies in a line that a copy engine owns: the global scheduler core waits
for it (R91). -/
def packetHeld (s : State) (lv cid addr : Nat) : Bool :=
  gHeld s lv cid addr 64 || match gBytes s lv cid addr 64 with
    | .ok v =>
      let arg0 := (packetOf addr v).arg0
      let kind := bits v 127 120
      arg0 / 2 ^ 56 == 0 && (kind == 1 || kind == 2 || kind == 3 || kind == 7) && gHeld s lv cid arg0 8
    | .error _ => false

/-- The fetch of a packet, charged to the partition of its function (R399). -/
def chargePacket (s : State) (lv cid pkg part addr : Nat) : State :=
  match gPa s lv cid addr .read with
  | .ok pa => s.charge pkg part pa
  | .error _ => s

/-- The global scheduler core takes the next packet of a ready queue (R414, R415). A packet that cannot be read is passed over, with
QSTAT bit 3 set. -/
def execQueueService (pkg : Nat) : Meaning := fun s =>
  let s := settleSignals s pkg
  match nextQueue s pkg with
  | none => .next s
  | some q =>
    match queueLevel s q with
    | none => .next s
    | some (lv, part, cid) =>
      let x := s.queueOf q
      let addr := x.qbase + 64 * x.qhead
      if packetHeld s lv cid addr then .next (s.postOnce (.queueService pkg)) else
      let s := (s.modQueue q fun x => { x with qhead := (x.qhead + 1) % 2 ^ x.log2n, busy := true }).modPkg pkg fun p => { p with lastServed := (q.fn, q.q) }
      let s := (chargePacket s lv cid pkg part addr).postOnce (.queueService pkg)
      match gBytes s lv cid addr 64 with
      | .error _ => .next (s.modQueue q fun x => { x with busy := false, rejected := true })
      | .ok v => runPacket q (packetOf addr v) v s

/-! ### Budgets (R396) -/

/-- A partition's charge reaches its budget: no queue of it is served and no block of it is placed until the period ends (R396). -/
def execPartitionBudgetExhausted (pkg part : Nat) : Meaning := fun s =>
  let r := s.partRes pkg part
  if r.tbudget == 0 || r.charge < budgetOf r then .next s
  else .next (s.modPkg pkg fun p => { p with parts := mapIf (fun (x : PartRes) => x.part == part) (fun x => { x with spent := true }) p.parts })

/-- A period of 100 ms ends (R396). -/
def execBudgetPeriodEnd (pkg : Nat) : Meaning := fun s =>
  let s := s.modPkg pkg fun p => { p with budgetPeriod := p.up / 10 ^ 8, parts := p.parts.map fun x => { x with charge := 0, spent := false } }
  .next ((List.range 4).foldl (fun s d => s.postOnce (.neighbourhoodPlacement pkg d)) (s.postOnce (.queueService pkg)))

/-! ### Registers of the functions (R409, R410) -/

/-- A write of VFMAP (R409): one that would give a partition a second GUEST function is ignored. -/
def execVfmapWrite (pkg f value : Nat) : Meaning := fun s =>
  let v := value % 2 ^ 6 + (if bit value 31 then 2 ^ 31 else 0)
  let second := bit v 31 && bits v 5 4 == 1 && (s.pkg pkg).fns.any fun x => x.fn != f + 1 && bit x.vfmap 31 && bits x.vfmap 5 4 == 1 && bits x.vfmap 3 0 == bits v 3 0
  if 512 ≤ f || 2 ≤ bits v 5 4 || second then .next s else .next ((s.modFn pkg (f + 1) fun x => { x with vfmap := v }).postOnce (.queueService pkg))

/-- A write of QCTL (R5, R410). DESIGN CHOICE (log 90): a LOG2N outside 4–16 is held as written, and the ring has 2^LOG2N slots. -/
def writeQctl (s : State) (q : QRef) (v : Nat) : State :=
  (s.modQueue q fun x => { x with log2n := bits v 4 0, prio := bits v 9 8, en := bit v 15, job := bits v 27 16 }).postOnce (.queueService q.pkg)

/-! ### Function-level resets (R416, R417) -/

/-- A function as after a reset (R416): its registers but NOTDROP, its queues, its waits and its grids. -/
def resetFn (s : State) (pkg fn : Nat) (cancel : Bool) : State :=
  let mine := fun (g : Grid) => match g.queue with
    | some (q, _) => q.pkg == pkg && q.fn == fn
    | none => false
  let due := wakeDue s pkg fn
  let s := if cancel then (s.grids.filter fun g => mine g).foldl (fun s g =>
      let s := s.modGrid g.handle fun g => { g with queue := none }
      if g.complete then s else tryFinish (cancelGrid s g.handle 1) g.handle) s else s
  let s := if due then s else { s with agenda := s.agenda.filter fun i => i != .waitsigWake pkg fn }
  let s := s.modFn pkg fn fun f => { f with queues := List.replicate 8 {}, frozen := false }
  match guestPart s pkg fn with
  | some p => if cancel then (s.xwaits.filter fun x => x.stage == 1 && x.part == p && x.notified && outstanding s x).foldl (fun s x => answerNotice s x true) s else s
  | none => s

/-- A function-level reset of a virtual function (R416). -/
def execFunctionLevelReset (pkg f : Nat) : Meaning := fun s => .next (resetFn s pkg (f + 1) true)

/-- The physical function reset, with every virtual one, its waits and its migration (R417). -/
def pfReset (s : State) (pkg : Nat) : State :=
  let vfs := sortBy (fun a b => a ≤ b) (((s.pkg pkg).fns.map fun f => f.fn).filter fun n => n != 0)
  let s := vfs.foldl (fun s f => resetFn s pkg f true) s
  let s := vfs.foldl (fun s f => s.modFn pkg f fun x => { x with vfmap := 0 }) s
  let s := resetFn s pkg 0 true
  let s := (s.xwaits.filter fun x => x.stage == 2 && x.kind != Acc.save.kind && x.notified && x.t.core.pkg == pkg && outstanding s x).foldl (fun s x => answerNotice s x true) s
  let s := match (s.pkg pkg).migBusy with
    | some (1, f) =>
      let n := (s.heldWakes.filter fun x => x == (pkg, f + 1)).length
      let s := (List.range n).foldl (fun (s : State) _ => s.countPkg pkg 0x2038) s
      { s with heldWakes := s.heldWakes.filter (fun x => x != (pkg, f + 1)), redirects := s.redirects.filter fun x => x.1 != (pkg, f + 1) }
    | _ => s
  ({ s with agenda := s.agenda.filter fun i => i != Instr.migrationDone pkg } : State).modPkg pkg fun p =>
    { p with migBusy := none, migaddr := 0, migFunc := 0, migStatus := 0 }

/-- A function-level reset of the physical function (R417). -/
def execPfFunctionLevelReset (pkg : Nat) : Meaning := fun s => .next (pfReset s pkg)

/-! ### Migration (R418-R420) -/

/-- MIGCTL begins an operation, where none is in progress. -/
def beginMig (s : State) (pkg op f : Nat) : State :=
  if (s.pkg pkg).migBusy.isSome then s
  else (s.modPkg pkg fun p => { p with migBusy := some (op, f), migFunc := f }).postOnce (.migrationDone pkg)

/-- SAVE begins (R418): notifies are discarded, the queues stop at packet boundaries, and the switches hold the function's messages. -/
def execSave (pkg f : Nat) : Meaning := fun s =>
  if (s.pkg pkg).migBusy.isSome || 512 ≤ f then .next s
  else
    let s := s.modFn pkg (f + 1) fun x => { x with frozen := true }
    .next (beginMig { s with redirects := (s.redirects.filter fun x => x.1 != (pkg, f + 1)) ++ [((pkg, f + 1), none)] } pkg 1 f)

/-- RESTORE begins (R418). -/
def execRestore (pkg f : Nat) : Meaning := fun s => .next (if 512 ≤ f then s else beginMig s pkg 2 f)

/-- QCTL and QSTAT as words (R410). -/
def qctlWord (x : Queue) : Nat := packBits [(0, 5, x.log2n), (8, 2, x.prio), (15, 1, x.en.toNat), (16, 12, x.job)]
def qstatWord (x : Queue) : Nat :=
  packBits [(0, 1, (x.qhead == x.qtail && !x.busy).toNat), (1, 1, x.watch.isSome.toNat), (2, 1, x.outOfRange.toNat), (3, 1, x.rejected.toNat)]

/-- A migration image (R420). -/
def migImage (s : State) (pkg f : Nat) : Mem :=
  let x := s.fnOf pkg (f + 1)
  cells 0 16 (packBits [(0, 32, 0x4D564654), (32, 32, 1), (64, 9, pkg), (80, 9, f), (96, 32, x.vfmap)]) ++
  x.queues.zipIdx.flatMap fun q =>
    let w := (q.1.watch.map fun w => w.2).getD (0, 0)
    cells (0x40 + 64 * q.2) 64 (packBits [(0, 64, q.1.qbase), (64, 32, qctlWord q.1), (96, 32, q.1.qhead), (128, 32, q.1.qtail), (160, 32, qstatWord q.1),
      (192, 64, w.1), (256, 64, w.2), (320, 32, q.1.watch.isSome.toNat)])

/-- Whether an image passes the checks of R420: magic, version, the zero fields and the queues' fields. -/
def imageOk2 (v : Nat) : Bool :=
  bits v 31 0 == 0x4D564654 && bits v 63 32 == 1 && bits v 79 73 == 0 && bits v 95 89 == 0 && bits v 511 128 == 0 && bits v 126 102 == 0 && bits v 101 100 < 2 &&
    (List.range 8).all fun q =>
      let w := v / 2 ^ (512 * (q + 1)) % 2 ^ 512
      w / 2 ^ 352 == 0 && bits w 351 320 < 2 && (bits w 95 64 == 0 || (4 ≤ bits w 68 64 && bits w 68 64 ≤ 16))

/-- A queue of an image; the packet of a pending WAITSIG is the one before QHEAD in its ring. -/
def imageQueue (s : State) (lv cid w : Nat) : Queue :=
  let x : Queue := { qbase := bits w 63 0, log2n := bits w 68 64, prio := bits w 73 72, en := bit w 79, job := bits w 91 80, qhead := bits w 127 96,
                     qtail := bits w 159 128, outOfRange := bit w 162, rejected := bit w 163 }
  if !bit w 320 then x
  else
    let addr := x.qbase + 64 * ((x.qhead + 2 ^ x.log2n - 1) % 2 ^ x.log2n)
    let v := match gBytes s lv cid addr 64 with
      | .ok v => v
      | .error _ => 0
    { x with busy := true, watch := some (packetOf addr v, bits w 255 192, bits w 319 256) }

/-- The grids that a function's queues launched named after the function's place: queue for queue (R418). -/
def moveQueues (s : State) (a b : Nat × Nat) : State :=
  { s with grids := s.grids.map fun g => match g.queue with
      | some (q, p) => if (q.pkg, q.fn) == a then { g with queue := some ({ q with pkg := b.1, fn := b.2 }, p) } else g
      | none => g }

/-- A SAVE ends (R418): the image stands at MIGADDR, and the function is left as after a reset. -/
def endSave (s : State) (pkg f : Nat) : State × Nat :=
  let base := (s.pkg pkg).migaddr
  if 2 ^ 56 < base + 0x240 then (resetFn s pkg (f + 1) false, 0x16)
  else
    let s := (migImage s pkg f).foldl (fun s x => s.writeLoc (.g (base + x.1)) 1 x.2.toNat) ({ s with gmem := sclear s.gmem base 0x240 })
    (resetFn (moveQueues s (pkg, f + 1) (pkg, f + 2 ^ 16)) pkg (f + 1) false, 0x10)

/-- A RESTORE ends (R418): the image is loaded, the old address leads here, and what was held comes. -/
def endRestore (s : State) (pkg f : Nat) : State × Nat :=
  let base := (s.pkg pkg).migaddr
  if 2 ^ 56 < base + 0x240 then (s, 0x16)
  else
    let v := s.readLoc (.g base) 0x240
    if !imageOk2 v then (s, 0x14)
    else
      let old := (bits v 72 64, bits v 88 80)
      let s := s.modFn pkg (f + 1) fun x => { x with vfmap := bits v 127 96, frozen := false }
      let (lv, part) := (fnLevel (s.fnOf pkg (f + 1))).getD (0, 0)
      let qs := (List.range 8).map fun q =>
        let w := v / 2 ^ (512 * (q + 1)) % 2 ^ 512
        imageQueue s lv (4096 * part + bits w 91 80) w
      let s := s.modFn pkg (f + 1) fun x => { x with queues := qs }
      let s := moveQueues s (old.1, old.2 + 2 ^ 16) (pkg, f + 1)
      let held := s.heldWakes.filter fun x => x == (old.1, old.2 + 1)
      let rd := s.redirects.filter fun x => x.1 != (old.1, old.2 + 1) && x.1 != (pkg, f + 1)
      let rd := if (old.1, old.2 + 1) == (pkg, f + 1) then rd else rd ++ [((old.1, old.2 + 1), some (pkg, f + 1))]
      let s := { s with heldWakes := s.heldWakes.filter (fun x => x != (old.1, old.2 + 1)), redirects := rd, out := s.out ++ held.map fun _ => .forwarded pkg (f + 1) }
      let s := if held.isEmpty && (watching s pkg (f + 1)).isEmpty then s else s.postOnce (.waitsigWake pkg (f + 1))
      (s.postOnce (.queueService pkg), 0x10)

/-- A migration operation finishes and its STATUS is written (R418). A SAVE waits for a SIGNAL in progress. -/
def execMigrationDone (pkg : Nat) : Meaning := fun s =>
  match (s.pkg pkg).migBusy with
  | none => .next s
  | some (op, f) =>
    if op == 1 && (s.fnOf pkg (f + 1)).queues.any fun x => x.signal.isSome then .next (s.postOnce (.migrationDone pkg))
    else
      let (s, st) := if op == 1 then endSave s pkg f else endRestore s pkg f
      .next (s.modPkg pkg fun p => { p with migBusy := none, migStatus := st })

end Sys2Proof.Machine
end

