-- ==== Sys2Proof/Machine/Time.lean ====
section
/-! DEFINITION. Disciplined time: PTP, the package clock's states, the Zenith election, horizon-table writes from the fabric, and the
PPS signals (R364-R368, R458). -/

namespace Sys2Proof.Machine

open State

/-- A package's clock changed. -/
def modClock (s : State) (pkg : Nat) (f : Clock → Clock) : State := s.modPkg pkg fun p => { p with clock := f p.clock }

/-- The management engine's state changed. -/
def modMgmt (s : State) (pkg : Nat) (f : Mgmt → Mgmt) : State := s.modPkg pkg fun p => { p with mgmt := f p.mgmt }

/-! ### PTP and the clock's states (R364-R366) -/

/-- The clock LOCKED; the first time since the boot, the package's own ROM sets HZN_CTL.ARM (R366, R451). -/
def lockClock (s : State) (pkg : Nat) : State :=
  let s := if (s.pkg pkg).clock.everLocked then s else s.modPkg pkg fun p => { p with hznArm := true }
  modClock s pkg fun c => { c with st := .locked, everLocked := true }

/-- An offset estimate's effect on the clock's state (R366), the offset being the clock's time less the master's in ns. -/
def judgeOffset (s : State) (pkg : Nat) (offset : Int) : State :=
  let a := offset.natAbs
  let c := (s.pkg pkg).clock
  let good := if a ≤ 20 then c.good + 1 else 0
  let s := modClock s pkg fun c => { c with good := good }
  if 1000 < a then modClock s pkg fun c => { c with st := .free }
  else if 16 ≤ good then lockClock s pkg
  else if c.st == .locked && 25 < a then modClock s pkg fun c => { c with st := .holdover, heldAt := (s.pkg pkg).up }
  else s

/-- A Sync message (R364-R366): the servo takes a rate of at most 200 ppm; a FREE clock that lags steps forward to the master's time. -/
def execPtpSync (pkg : Nat) (offset : Int) : Meaning := fun s =>
  if (s.pkg pkg).mgmt.boot == .booting || (s.pkg pkg).mgmt.boot == .bootfail then .next s
  else
    let step := (s.pkg pkg).clock.st == .free && offset < -20
    let rate := ((Config.servo s.free % 401 : Nat) : Int) - 200
    let s := modClock s pkg fun c => { c with slew := rate, ns := if step then c.ns + offset.natAbs else c.ns }
    .next (judgeOffset s pkg (if step then 0 else offset))

/-- A port's link delay measured (R364). -/
def execPeerDelayExchange (pkg port delay : Nat) : Meaning := fun s =>
  .next (modClock s pkg fun c => { c with delays := upsert (fun x => x.1 == port) (port, delay) c.delays })

/-- Sync is lost: a LOCKED clock holds over (R366). -/
def execSyncLoss (pkg : Nat) : Meaning := fun s =>
  .next (modClock s pkg fun c => { c with good := 0, st := if c.st == .locked then .holdover else c.st,
                                          heldAt := if c.st == .locked then (s.pkg pkg).up else c.heldAt })

/-- Ten seconds in ns. -/
def holdoverLimit : Nat := 10 * 10 ^ 9

/-- HOLDOVER has lasted 10 s: the clock is FREE (R366). -/
def execHoldoverTimeout (pkg : Nat) : Meaning := fun s =>
  let p := s.pkg pkg
  .next (if p.clock.st == .holdover && p.clock.heldAt + holdoverLimit ≤ p.up then modClock s pkg fun c => { c with st := .free, good := 0 } else s)

/-- A Sync interval ends: two-step Sync on the master ports (R364). On a grandmaster the interval counts as one with offset 0. -/
def execSyncIntervalExpiry (pkg : Nat) : Meaning := fun s =>
  let s := modClock s pkg fun c => { c with syncAt := (s.pkg pkg).up }
  let s := { s with out := s.out ++ ((List.range 16).filter fun i => Config.masterPort pkg i).map fun i => .ptpSync pkg i }
  .next (if (s.pkg pkg).mgmt.ppsSeen then judgeOffset s pkg 0 else s)

/-! ### The Zenith election (R367) -/

/-- Whether one pair (priority, package identifier) is lower than another. -/
def beats (a b : Nat × Nat) : Bool := a.1 < b.1 || (a.1 == b.1 && a.2 < b.2)

/-- A package's heartbeat or claim. -/
def beatOf (p : Package) : Beat := { prio := p.clock.prio, pid := p.id, epoch := p.clock.epoch, version := p.clock.version }

/-- A heartbeat heard: it holds the election off, and one of a higher epoch names the Zenith peer. -/
def hearBeat (s : State) (pkg : Nat) (h : Beat) : State :=
  let c := (s.pkg pkg).clock
  let up := (s.pkg pkg).up
  if h.epoch < c.epoch || (h.epoch == c.epoch && beats c.best (h.prio, h.pid)) then s
  else modClock s pkg fun c => { c with beatAt := up, epoch := h.epoch, best := (h.prio, h.pid), version := max c.version h.version,
                                        zenith := c.zenith && (h.prio, h.pid) == (c.prio, pkg) }

/-- A claim heard (R367): one of a higher epoch replaces the Zenith peer; among those of one epoch the lowest pair wins. -/
def hearClaim (s : State) (pkg : Nat) (h : Beat) : State := hearBeat s pkg h

/-- A candidate receives the Zenith peer's heartbeat (R367). -/
def execHeartbeat (pkg : Nat) (h : Beat) : Meaning := fun s => .next (hearBeat s pkg h)

/-- A claim is received (R367). -/
def execZenithClaim (pkg : Nat) (h : Beat) : Meaning := fun s => .next (hearClaim s pkg h)

/-- The other packages that hear a multicast. -/
def multicast (s : State) (pkg : Nat) (f : State → Nat → State) : State :=
  (s.packages.filter fun p => p.id != pkg && p.mgmt.boot == .ready).foldl (fun s p => f s p.id) s

/-- The Zenith peer multicasts its heartbeat (R367). -/
def execHeartbeatTimer (pkg : Nat) : Meaning := fun s =>
  let p := s.pkg pkg
  if !p.clock.zenith then .next s
  else
    let h := beatOf p
    let s := modClock s pkg fun c => { c with beatAt := p.up }
    .next (multicast { s with out := s.out ++ [.heartbeat h] } pkg fun s q => hearBeat s q h)

/-- A horizon-table write that arrives over the fabric (R368): applied as `hzn` applies it where it comes from the Zenith peer of the highest
epoch seen, otherwise discarded and counted. -/
def tableWrite (s : State) (pkg : Nat) (h : Beat) (i : Nat) (e : BitVec 256) : State :=
  let c := (s.pkg pkg).clock
  if h.epoch != c.epoch || (h.prio, h.pid) != c.best then s.countPkg pkg 0x2028
  else modClock (hznWrite s pkg i e).1 pkg fun c => { c with version := max c.version h.version }

/-- The highest timetable version held by a package of the pod (R368). -/
def topVersion (s : State) : Nat := s.packages.foldl (fun m p => max m p.clock.version) 0

/-- A candidate that has missed three heartbeats claims the role with the next epoch (R367); it publishes its own entries over the highest
timetable version held (R368). -/
def execHeartbeatLoss (pkg : Nat) : Meaning := fun s =>
  let p := s.pkg pkg
  if !p.clock.candidate || p.clock.zenith || p.up < p.clock.beatAt + 3000000 then .next s
  else
    let v := topVersion s + 1
    let s := modClock s pkg fun c => { c with zenith := true, epoch := c.epoch + 1, best := (c.prio, pkg), beatAt := p.up, version := v }
    let h := beatOf (s.pkg pkg)
    let mine := p.hzn.filter fun e => (hznOf e.2).valid && !(hznOf e.2).fired
    .next (multicast { s with out := s.out ++ [.claim h] } pkg fun s q =>
      mine.foldl (fun s e => tableWrite s q h e.1 e.2) (hearClaim s q h))

/-- A horizon-table write from the fabric (R368). -/
def execHorizonTableWrite (pkg : Nat) (h : Beat) (i : Nat) (e : BitVec 256) : Meaning := fun s => .next (tableWrite s pkg h i e)

/-! ### PPS (R458) -/

/-- A rising edge of PPS_IN: on a grandmaster a second begins, the one that TAISEC named, or the next; the first edge counts 0 (R458), or the
next second of a clock that has run already. The clock takes it by a forward step while it is FREE, and otherwise by slewing: it never goes
back (R186, R365, R366). DESIGN CHOICE (log 92). -/
def execPpsInEdge (pkg : Nat) : Meaning := fun s =>
  let m := (s.pkg pkg).mgmt
  if !Config.grandmaster pkg then .next s
  else
    let c := (s.pkg pkg).clock
    let sec := match m.tai with
      | some t => t
      | none => if m.ppsSeen then m.ppsSec + 1 else ceilDiv c.ns (10 ^ 9)
    let s := modMgmt s pkg fun m => { m with tai := none, ppsSeen := true, ppsSec := sec }
    let rate := ((Config.servo s.free % 401 : Nat) : Int) - 200
    .next (modClock s pkg fun c => if c.st == .free && c.ns < sec * 10 ^ 9 then { c with ns := sec * 10 ^ 9, frac := 0 } else { c with slew := rate })

/-- PPS_OUT rises at a whole second, unless the clock is FREE (R458). -/
def execPpsOutSecond (pkg : Nat) : Meaning := fun s =>
  .next (if (s.pkg pkg).clock.st == .free then s else modMgmt s pkg fun m => { m with ppsOut := true, ppsRose := (s.pkg pkg).clock.ns })

/-- PPS_OUT falls (R458). -/
def execPpsOutFall (pkg : Nat) : Meaning := fun s => .next (modMgmt s pkg fun m => { m with ppsOut := false })

end Sys2Proof.Machine
end

