-- ==== Sys2Proof/Machine/Board.lean ====
section
/-! DEFINITION. Bring-up and resets, the security and management engines, the watchdog, register writes, the host die's accesses,
weighted fair queuing, and the power limits (R87, R397-R400, R425, R428, R450-R460). -/

namespace Sys2Proof.Machine

open State

/-! ### Boot (R451, R452) -/

/-- A measurement slot after its one extension: SHAKE256 of 64 zero bytes and the digest of what was measured (R452). -/
def measured (pkg i : Nat) : Nat := Config.shake256 (Config.measurement pkg i * 2 ^ 512)

/-- The slots that a boot has extended when it stops with a code (R451). -/
def slotsDone (code : Nat) : Nat :=
  match code with
  | 0 => 4
  | 1 => 0
  | 2 | 3 => 1
  | 4 | 5 => 2
  | _ => 3

/-- The boot of a package (R451): READY, or BOOTFAIL with the code of the step that failed. -/
def bootPackage (s : State) (pkg : Nat) : State :=
  let code := Config.bootCode pkg s.free % 8
  let meas := (List.range 8).map fun i => if i < slotsDone code then measured pkg i else 0
  let s := modMgmt s pkg fun m =>
    { m with code := code, meas := meas, pcie := true, recovery := code != 0, frozen := code == 0, boot := if code == 0 then .ready else .bootfail }
  if code != 0 then s
  else modClock s pkg fun c => { c with candidate := Config.candidate pkg, prio := Config.priority pkg % 256, beatAt := (s.pkg pkg).up }

/-- PWRGOOD: the boot starts (R459). -/
def execPowerGood (pkg : Nat) : Meaning := fun s => .next (if (s.pkg pkg).mgmt.boot == .booting then bootPackage s pkg else s)

/-! ### Resets (R450) -/

/-- The package whose agent a posted step belongs to, where it is one package's. -/
def homeOf : Instr → Option Nat
  | .hostDieAccess _ (.register (.mgmt _) _) => none
  | .schedulerArbitration c _ | .stallExchange c _ | .formAgeExpiry c _ _ | .groupFormation c | .groupDissolution c | .mergeWaitExpiry c _
  | .tslpExpiry c _ | .wgrowGrant c | .cacheFillArrival c _ | .copyGateOpen c _ | .copyLineWrite c _ | .copyCompletion c _ | .mbldEntry c
  | .mzroEntry c | .mlpKstep c | .mdrnChunk c | .mwtSgEntry c | .vocabBlockFold c | .frameClearingDone c _ | .coreHalted c | .prefillDone c
  | .horizonSwap c | .outSlotDrainDone c | .drainWriteFault c | .backgroundSave c | .backgroundRestore c | .expressArrival c _ _
  | .spillFillCompletion c _ | .preemptBudgetExpiry c | .lateArrival c _ _ => some c.pkg
  | .neighbourhoodPlacement p _ | .engineArbitration p _ | .chunkStepCompletion p _ | .waitsigWake p _ | .queueService p | .migrationDone p
  | .pingTimer p | .horizonPrefill p _ | .horizonFire p _ | .notify ⟨p, _, _⟩ _ | .vfmapWrite p _ _ | .xrespResolve p _ _ | .xrespDecline p _ _
  | .hrespResolve p _ | .hrespDecline p _ | .save p _ | .restore p _ | .functionLevelReset p _ | .pfFunctionLevelReset p | .budgetPeriodEnd p
  | .memoryRequestService p _ | .portFlitArbitration p _ | .partset ⟨p, _, _⟩ _ | .jobset ⟨p, _, _⟩ _ | .commset ⟨p, _, _⟩ _ | .express ⟨p, _, _⟩ _
  | .launch ⟨p, _, _⟩ _ | .waitsig ⟨p, _, _⟩ _ | .signal ⟨p, _, _⟩ _ | .registerWrite (.fn p _) _ _ | .partitionBudgetExhausted p _ | .hostDieAccess p _
  | .horizonTableWrite p _ _ _ | .patrolScrub p _ | .correctableError p _ | .uncorrectableError p _ => some p
  | i => (messageLink i).map fun l => l.pkg

/-- Whether an address lies in a package's reserved region (R444). -/
def inReserved (pkg a : Nat) : Bool := Config.reservedRegion pkg ≤ a && a < Config.reservedRegion pkg + 2 ^ 33

/-- A package with everything lost, but for the reserved region and the counters where `keep` holds (R450). -/
def resetPackage (s : State) (pkg : Nat) (keep : Bool) : State :=
  let old := s.pkg pkg
  let stays := fun (a : Nat) => Config.homePackage a != pkg || (keep && inReserved pkg a)
  let fresh := { Package.reset pkg with mgmt := { rootPort := old.mgmt.rootPort } }
  let fresh := if keep then { fresh with counters := old.counters, dieCounters := old.dieCounters } else fresh
  let cores := s.cores.filterMap fun x =>
    if x.at_.pkg != pkg then some x else if keep && !x.counters.isEmpty then some { at_ := x.at_, counters := x.counters } else none
  let packages := mapIf (fun (p : Package) => p.id == pkg) (fun _ => fresh) s.packages
  let held := fun (n : Nat) => packages.any fun p => p.parts.any fun r => r.part == n
  { s with
    packages := packages, cores := cores, grids := s.grids.filter fun g => g.rootPkg != pkg, parts := s.parts.filter fun p => held p.part,
    jobs := s.jobs.filter fun j => held (partOfCid j.cid), comms := s.comms.filter fun c => held c.part, dallocs := s.dallocs.filter fun a => a.pkg != pkg,
    phasers := s.phasers.filter fun p => p.pkg != pkg, reqs := s.reqs.filter fun q => q.t.core.pkg != pkg,
    releases := s.releases.filter fun r => r.t.core.pkg != pkg, xwaits := s.xwaits.filter fun x => x.t.core.pkg != pkg,
    streams := s.streams.filter fun x => x.1.1 != pkg, channels := s.channels.filter fun x => x.1.1 != pkg,
    ports := s.ports.filter fun x => x.1.1 != pkg, saved := s.saved.filter fun v => v.core.pkg != pkg,
    gmem := s.gmem.filter fun x => stays x.1, dmem := s.dmem.filter fun x => !(dKey pkg 0 0 0 ≤ x.1 && x.1 < dKey (pkg + 1) 0 0 0),
    marks := s.marks.filter fun l => (Loc.g (2 ^ 60 - 1)).line < l || stays (128 * l),
    agenda := s.agenda.filter fun i => homeOf i != some pkg, cur := none }

/-- A cold reset (R450): nothing is preserved, and the boot waits for PWRGOOD. -/
def execColdReset (pkg : Nat) : Meaning := fun s => .next (resetPackage s pkg false)

/-- A rail below 90 % of its level asserts a cold reset (R459). -/
def execRailDrop (pkg _rail : Nat) : Meaning := fun s => .next (resetPackage s pkg false)

/-- A warm reset (R450): the boot runs again where the rails are good. -/
def warmPackage (s : State) (pkg : Nat) : State :=
  let up := (s.pkg pkg).mgmt.boot != .booting
  let s := resetPackage s pkg true
  if up then bootPackage s pkg else s

/-- RST_WARM_N (R450). -/
def execWarmReset (pkg : Nat) : Meaning := fun s => .next (warmPackage s pkg)

/-- PERST_N, which resets as a warm reset does (R450). -/
def execPerst (pkg : Nat) : Meaning := fun s => .next (warmPackage s pkg)

/-- WARM over I3C (R450, R457). -/
def execWarm (pkg : Nat) : Meaning := fun s => .next (warmPackage s pkg)

/-! ### The SPDM responder (R453-R455) -/

/-- An answer of the responder. -/
def answerSpdm (s : State) (pkg code : Nat) (payload : List Nat) : State := { s with out := s.out ++ [.spdm pkg code payload] }

/-- SPDM's codes for ERROR and its reasons. -/
def spdmError (s : State) (pkg reason : Nat) : State := answerSpdm s pkg 0x7F [reason]

/-- A request to the responder: none is answered while the mailbox is absent or the package fatal, and in BOOTFAIL every one but
GET_VERSION receives ResponseNotReady (R454); one that needs the negotiated algorithms is unexpected before them. -/
def spdm (pkg : Nat) (algs : Bool) (f : State → State) : Meaning := fun s =>
  let m := (s.pkg pkg).mgmt
  if !m.pcie || m.fatal || m.rootPort then .next s
  else if m.boot == .bootfail then .next (spdmError s pkg 0x42)
  else if !m.versionSeen || (algs && !m.negotiated) then .next (spdmError s pkg 0x04)
  else .next (f s)

/-- GET_VERSION: SPDM 1.3, answered in BOOTFAIL too (R454). -/
def execGetVersion (pkg : Nat) : Meaning := fun s =>
  let m := (s.pkg pkg).mgmt
  if !m.pcie || m.fatal || m.rootPort then .next s
  else .next (answerSpdm (modMgmt s pkg fun m => { m with versionSeen := true, negotiated := false }) pkg 0x04 [0x1300])

/-- GET_CAPABILITIES (R454). -/
def execGetCapabilities (pkg : Nat) : Meaning := spdm pkg false fun s => answerSpdm s pkg 0x61 [Config.spdmDetail pkg 0]

/-- NEGOTIATE_ALGORITHMS: ML-DSA-65 and SHAKE256 where the requester offers them, and no other algorithm (R454). Bit 0 of each offer
stands for them. -/
def execNegotiateAlgorithms (pkg sig hash : Nat) : Meaning := spdm pkg false fun s =>
  let ok := bit sig 0 && bit hash 0
  answerSpdm (modMgmt s pkg fun m => { m with negotiated := ok }) pkg 0x63 [(bit sig 0).toNat, (bit hash 0).toNat]

/-- The certificate chain of slot 0 (R453, R454). -/
def chainOf (s : State) (pkg : Nat) : Nat := Config.certChain pkg (((s.pkg pkg).mgmt.meas.take 4).foldl (fun a m => a * 2 ^ 512 + m) 0)

/-- GET_DIGESTS: the digest of slot 0's chain (R454). -/
def execGetDigests (pkg : Nat) : Meaning := spdm pkg true fun s => answerSpdm s pkg 0x01 [Config.shake256 (chainOf s pkg)]

/-- GET_CERTIFICATE: a part of slot 0's chain (R454). -/
def execGetCertificate (pkg slot offset len : Nat) : Meaning := spdm pkg true fun s =>
  if slot != 0 then spdmError s pkg 0x01 else answerSpdm s pkg 0x02 [chainOf s pkg / 256 ^ offset % 256 ^ len]

/-- CHALLENGE: signed with the alias key (R454). -/
def execChallenge (pkg slot nonce : Nat) : Meaning := spdm pkg true fun s =>
  let mine := Config.nonce s.free
  if slot != 0 then spdmError s pkg 0x01
  else answerSpdm s pkg 0x03 [mine, Config.signature (chainOf s pkg) (Config.shake256 (nonce + 2 ^ 256 * mine))]

/-- GET_MEASUREMENTS: indices 1-4 report MEAS0-MEAS3 as raw values (R454); index 0 reports how many there are. -/
def execGetMeasurements (pkg index : Nat) : Meaning := spdm pkg true fun s =>
  let m := (s.pkg pkg).mgmt
  if index == 0 then answerSpdm s pkg 0x60 [4]
  else if index ≤ 4 then answerSpdm s pkg 0x60 [(m.meas[index - 1]?).getD 0]
  else if index == 0xFF then answerSpdm s pkg 0x60 (m.meas.take 4)
  else spdmError s pkg 0x01

/-- A request that the responder does not support (R454). -/
def execUnsupportedRequest (pkg _code : Nat) : Meaning := fun s =>
  let m := (s.pkg pkg).mgmt
  if !m.pcie || m.fatal || m.rootPort then .next s else .next (spdmError s pkg (if m.boot == .bootfail then 0x42 else 0x07))

/-! ### The management engine (R457) -/

/-- A write of APADDR starts a read (R457). -/
def execApaddr (pkg value : Nat) : Meaning := fun s =>
  .next ((modMgmt s pkg fun m => { m with apaddr := value % 2 ^ 64, apbusy := true }).postOnce (.apertureReadDone pkg))

/-- The aperture read completes, as `dbgr` reads at level 3 (R362, R457); before READY it returns RANGE. -/
def execApertureReadDone (pkg : Nat) : Meaning := fun s =>
  let m := (s.pkg pkg).mgmt
  if !m.apbusy then .next s
  else
    let (v, st) := if m.boot == .booting || m.boot == .bootfail then (0, 5)
      else match aperture s 3 (fun _ => true) m.apaddr with
        | .ok (v, st, _) => (v, st)
        | .error _ => (0, 5)
    .next (modMgmt s pkg fun m => { m with apdata := v, apstatus := st, apbusy := false })

/-- RETIRE over I3C (R433, R457): the cluster that CMDARG names. -/
def execCmdRetire (pkg : Nat) : Meaning := fun s =>
  let m := (s.pkg pkg).mgmt
  let a := m.cmdarg
  if m.boot != .ready || m.fatal || 16 < a % 32 || a / 1024 != 0 || bits a 7 5 != 0 then .next s else .next (retireCluster s pkg (bits a 9 8) (a % 32))

/-- TAISEC over I3C (R457, R458): accepted only on a grandmaster whose signed configuration enables it. -/
def execTaisec (pkg : Nat) : Meaning := fun s =>
  .next (if Config.grandmaster pkg && Config.taisec pkg then modMgmt s pkg fun m => { m with tai := some (m.cmdargh * 2 ^ 32 + m.cmdarg) } else s)

/-- The controller assigns a dynamic address (R457). -/
def execDynamicAddressAssignment (pkg addr : Nat) : Meaning := fun s => .next (modMgmt s pkg fun m => { m with i3caddr := addr })

/-! ### Register writes (R410, R418, R457) -/

/-- The word at an offset of a function's page as a read returns it (R5, R410): a WO register and an offset that is not listed read 0. -/
def readFnReg (s : State) (pkg fn off : Nat) : Nat :=
  let p := s.pkg pkg
  let f := s.fnOf pkg fn
  let x := s.queueOf { pkg := pkg, fn := fn, q := off / 0x40 }
  if off < 0x200 then
    match off % 0x40 with
    | 0x00 => x.qbase % 2 ^ 32
    | 0x04 => x.qbase / 2 ^ 32 % 2 ^ 32
    | 0x08 => qctlWord x
    | 0x0C => x.qhead % 2 ^ 32
    | 0x14 => qstatWord x
    | _ => 0
  else if off == 0x210 then f.notdrop % 2 ^ 32
  else if fn != 0 then 0
  else if 0x400 ≤ off && off < 0xC00 then (if off % 4 == 0 then (s.fnOf pkg ((off - 0x400) / 4 + 1)).vfmap % 2 ^ 32 else 0)
  else
    match off with
    | 0xC00 => p.migaddr % 2 ^ 32
    | 0xC04 => p.migaddr / 2 ^ 32 % 2 ^ 32
    | 0xC08 => packBits [(0, 9, p.migFunc), (16, 8, p.migStatus), (31, 1, p.migBusy.isSome.toNat)]
    | _ => 0

/-- The word at an offset of the management engine's registers as a read returns it (R5, R457). -/
def readMgmtReg (s : State) (pkg off : Nat) : Nat :=
  let m := (s.pkg pkg).mgmt
  match off with
  | 0x00 => packBits [(0, 2, match m.boot with
      | .booting => 0
      | .ready => 1
      | .bootfail => 2
      | .fatal => 3), (24, 8, m.code)]
  | 0x04 => m.power % 2 ^ 32
  | 0x08 => m.temp % 2 ^ 16
  | 0x10 => m.apaddr % 2 ^ 32
  | 0x14 => m.apaddr / 2 ^ 32 % 2 ^ 32
  | 0x18 => m.apdata % 2 ^ 32
  | 0x1C => packBits [(0, 8, m.apstatus), (31, 1, m.apbusy.toNat)]
  | 0x24 => m.cmdarg % 2 ^ 32
  | 0x28 => m.cmdargh % 2 ^ 16
  | _ => 0

/-- A read of a register's word by the host (R5): the functions answer once the package has booted, as they take writes; in BOOTFAIL the link
comes up in its recovery form, and BAR0 reads 0 (R451). -/
def execRegisterRead (pkg : Nat) (r : RegRef) (off : Nat) : Meaning := fun s =>
  let show_ := fun (v : Nat) => { s with out := s.out ++ [.hostValue pkg v] }
  match r with
  | .mgmt p => .next (show_ (readMgmtReg s p off))
  | .fn p fn =>
    let m := (s.pkg p).mgmt
    if m.recovery && m.pcie && !m.rootPort then .next (show_ 0)
    else if m.boot != .ready || m.fatal || m.rootPort then .next s
    else .next (show_ (readFnReg s p fn off))

/-- A write to a function's page (R410). DESIGN CHOICE (log 89): a QBASE that is not a multiple of 4 KiB is taken with its low 12 bits 0, and a
write of MIGCTL while BUSY is 1 is ignored whole, FUNC included; the spec states no outcome of either. -/
def writeFnReg (pkg fn off value : Nat) : Meaning := fun s =>
  let p := s.pkg pkg
  let q : QRef := { pkg := pkg, fn := fn, q := off / 0x40 }
  if p.mgmt.boot != .ready || p.mgmt.fatal || p.mgmt.rootPort then .next s
  else if off < 0x200 then
    match off % 0x40 with
    | 0 => .next (s.modQueue q fun x => { x with qbase := value % 2 ^ 64 / 4096 * 4096 })
    | 8 => .next (writeQctl s q value)
    | 0x10 => execNotify q (value % 2 ^ 32) s
    | _ => .next s
  else if off == 0x200 then (if bit value 32 then execXrespDecline else execXrespResolve) pkg fn (value % 2 ^ 32) s
  else if fn != 0 then .next s
  else if off == 0x208 then (if bit value 32 then execHrespDecline else execHrespResolve) pkg (value % 2 ^ 32) s
  else if 0x400 ≤ off && off < 0xC00 then (if off % 4 == 0 then execVfmapWrite pkg ((off - 0x400) / 4) (value % 2 ^ 32) s else .next s)
  else if off == 0xC00 then .next (s.modPkg pkg fun p => { p with migaddr := value % 2 ^ 64 })
  else if off == 0xC08 then
    if p.migBusy.isSome then .next s
    else
      let s := s.modPkg pkg fun p => { p with migFunc := value % 512 }
      match bits value 10 9 with
      | 1 => execSave pkg (value % 512) s
      | 2 => execRestore pkg (value % 512) s
      | _ => .next s
  else .next s

/-- A write to the management engine's registers (R457). -/
def writeMgmtReg (pkg off value : Nat) : Meaning := fun s =>
  match off with
  | 0x10 => execApaddr pkg value s
  | 0x20 =>
    if value % 2 ^ 32 == 0x5741524D then execWarm pkg s
    else if value % 2 ^ 32 == 0x52455449 then execCmdRetire pkg s
    else if value % 2 ^ 32 == 0x54414953 then execTaisec pkg s
    else .next s
  | 0x24 => .next (modMgmt s pkg fun m => { m with cmdarg := value % 2 ^ 32 })
  | 0x28 => .next (modMgmt s pkg fun m => { m with cmdargh := value % 2 ^ 16 })
  | _ => .next s

/-- A write to a register (R5, R410, R457). -/
def execRegisterWrite (r : RegRef) (off value : Nat) : Meaning :=
  match r with
  | .fn pkg fn => writeFnReg pkg fn off value
  | .mgmt pkg => writeMgmtReg pkg off value

/-! ### The watchdog and the other link messages (R423, R425, R428, R443) -/

/-- Every 1 ms the global scheduler core pings every leaf; one that has left three unanswered is failed and its cluster retired (R428,
R433). -/
def execPingTimer (pkg : Nat) : Meaning := fun s =>
  let p := s.pkg pkg
  if p.mgmt.boot != .ready || p.mgmt.fatal then .next s
  else
    let ls := p.leaves.map fun f => if f.retired then f else { f with missed := if f.answered then 0 else f.missed + 1, answered := false }
    let s := s.setPkg { p with pingAt := p.up, leaves := ls }
    .next ((ls.filter fun f => !f.retired && 3 ≤ f.missed).foldl (fun s f =>
      retireCluster (appendLog s pkg { addr := f.leaf, time := s.time pkg, unit := 0x07, kind := 2, die := f.die }) pkg f.die f.leaf) s)

/-- A leaf answers a PING (R428). -/
def answerPing (s : State) (l : Link) : State := modLeaf s l.pkg l.die l.leaf fun f => { f with answered := f.answered || !f.retired }

/-- PING (R425, R428). -/
def execPing (l : Link) : Meaning := fun s => .next (if l.malformed then s else answerPing s l)

/-- QUIESCE: the cluster stops for the fatal dump (R425, R443). -/
def execQuiesce (l : Link) : Meaning := fun s =>
  .next (if l.malformed then s else (leafCores s l).foldl (fun s c => s.modCore c fun x => { x with stopped := true }) s)

/-- A response arrives and its permit is returned (R423). What the other responses bring is part of their request's step; a PING's
answer is noted here too. -/
def execLinkResponse (l : Link) (op status : Nat) : Meaning := fun s => .next (if op == 0x0D && status == 0 then answerPing s l else s)

/-! ### The host die's accesses (R87) -/

/-- Bytes of G that the host die has changed: the waiters on a recall look again. -/
def hostPut (s : State) (a n v : Nat) : State := (s.writeLoc (.g a) n v).wakeRecalls

/-- The requests of a PCIe access to bytes of G, charged to the partition of its function (R399): 0, the physical function's. -/
def hostCharge (s : State) (pkg a n : Nat) : State := s.chargeAll pkg 0 ((List.range ((a % 128 + n + 127) / 128)).map fun i => a - a % 128 + 128 * i)

/-- The host die reads, writes or operates atomically on G as an agent like any other (R87, R208); what it reads comes out, but for
uncorrectable data. -/
def execHostDieAccess (pkg : Nat) (a : HostAccess) : Meaning := fun s =>
  let show_ := fun (s : State) (v : Nat) => { s with out := s.out ++ [.hostValue pkg v] }
  match a with
  | .register r off => execRegisterRead pkg r off s
  | a => if (s.pkg pkg).mgmt.fatal then .next s else match a with
    | .register _ _ => .next s
    | .read addr n =>
      if (List.range (n / 128 + 2)).any fun i => addr / 128 + i ≤ (addr + n - 1) / 128 && s.marked (.g (addr + 128 * i)) then .next s
      else .next (show_ (hostCharge s pkg addr n) (s.readLoc (.g addr) n))
    | .write addr n v => .next (hostPut (hostCharge s pkg addr n) addr n v)
    | .atomic op ord addr b w =>
      let n := atomBytes op
      let loc := Loc.g addr
      if 13 < op || addr % n != 0 || s.marked loc then .next s
      else
        let old := s.readLoc loc n
        let s := hostCharge s pkg addr n
        let rel := ord == 2 || ord == 3
        match atomNew op old b w with
        | none => .next (show_ s old)
        | some v =>
          let s := if rel then s.modSync loc n fun y => { y with pod := true, pkg := pkg, rel := s.nextId } else s
          .next (show_ (hostPut s addr n v) old)

/-! ### Weighted fair queuing (R397-R400) -/

/-- A partition's weight on a package for its own jobs, in units of 2^-24 of a channel or port (R398). -/
def ownWeight (s : State) (pkg : Nat) (f : PartRes → Nat) (p : Nat) : Nat :=
  let w := fun (x : Nat) => f (s.partRes pkg x)
  let full := match s.part p with
    | some x =>
      if x.depth == 0 then w p * 2 ^ 16
      else match s.part x.parent with
        | some y => if y.depth == 0 then w y.part * w p * 2 ^ 8 else w y.parent * w y.part * w p
        | none => 0
    | none => 0
  let kids := sumOf (partsOn s pkg (childOf p)) f
  full * (256 - kids) / 256

/-- The share served next: the least virtual finish time, the lower partition on a tie (R397). -/
def nextShare (l : List Share) : Option Share :=
  firstBy (fun (a b : Share) => a.finish < b.finish || (a.finish == b.finish && a.part < b.part)) (l.filter fun x => x.waiting != 0)

/-- One request or flit of a server served: its share's next finish time runs from the later of its last one and the server's virtual
time, which is the finish time of what is served. Channels are servers 0-383, ports 1000-1015. -/
def serveShare (s : State) (pkg srv : Nat) (f : PartRes → Nat) (l : List Share) : State × List Share :=
  match nextShare l with
  | none => (s, l)
  | some x =>
    let now := natAt (s.pkg pkg).vtime srv
    let s' := s.modPkg pkg fun p => { p with vtime := sset 0 p.vtime srv (max now x.finish) }
    (s', mapIf (fun (y : Share) => y.part == x.part) (fun (y : Share) =>
      { y with waiting := y.waiting - 1, finish := max y.finish now + 2 ^ 48 / max 1 (ownWeight s pkg f x.part) }) l)

/-- A channel controller serves a request (R397, R398): whoever met its full queue looks again. -/
def execMemoryRequestService (pkg ctrl : Nat) : Meaning := fun s =>
  match s.channels.find? fun c => c.1 == (pkg, ctrl) with
  | none => .next s
  | some (_, l) =>
    let (s, l) := serveShare s pkg ctrl (fun r => r.hbmw) l
    .next (wakeEvery { s with channels := mapIf (fun c => c.1 == (pkg, ctrl)) (fun c => (c.1, l)) s.channels } fun w => w == .channel)

/-- An output port arbitrates a flit among partitions (R400). -/
def execPortFlitArbitration (pkg port : Nat) : Meaning := fun s =>
  match s.ports.find? fun c => c.1 == (pkg, port) with
  | none => .next s
  | some (_, l) =>
    let (s, l) := serveShare s pkg (1000 + port) (fun r => r.fabw) l
    .next { s with ports := mapIf (fun c => c.1 == (pkg, port)) (fun c => (c.1, l)) s.ports }

/-! ### Power (R460) -/

/-- The firmware throttles the arithmetic clock by one step of 1/16 (R460). -/
def execPowerThrottle (pkg : Nat) : Meaning := fun s => .next (modMgmt s pkg fun m => { m with throttle := min 15 (m.throttle + 1) })

/-- Power above the cap at the lowest step: fatal (R442, R460). -/
def execPowerLimitTrip (pkg : Nat) : Meaning := fun s => .next (if (s.pkg pkg).mgmt.throttle == 15 then goFatal s pkg (Config.fatalUnit 1) else s)

/-- TEMP reaches 105 °C: fatal (R442, R460). -/
def execThermalTrip (pkg : Nat) : Meaning := fun s =>
  .next (goFatal (modMgmt s pkg fun m => { m with temp := max m.temp 10500 }) pkg (Config.fatalUnit 2))

end Sys2Proof.Machine
end

