-- ==== Sys2Proof/Machine/SchedEvents.lean ====
section
/-! DEFINITION. The steps of the schedulers, the group former and the timers of a core's groups (R31-R41, R49, R50, R198). -/

namespace Sys2Proof.Machine

open State

/-! ### Arbitration and exchange (R39-R41) -/

/-- A rotation has ended when no active group that was READY at its start still has its run before it (R39). The oldest P-READY
group is then exchanged with the active READY group whose run ended first (R41), and the next rotation begins. -/
def rotate (sc : Nat) (k : Ctx) : Ctx :=
  let act := (k.onSched sc).filter Group.isActive
  if act.any fun g => g.due then k
  else
    let k := match k.oldestReady sc, firstBy (fun (a b : Group) => a.endAt < b.endAt) (act.filter fun g => g.st == .ready && g.ran) with
      | some p, some g => (k.modGroup g.slot fun x => { x with st := .pReady, mid := false }).activate p
      | _, _ => k
    { k with groups := k.groups.map fun g => if g.sched == sc then { g with ran := false, due := g.st == .ready } else g }

/-- The READY group of a scheduler that is next in age order after the one whose run ended last, wrapping (R39). -/
def nextReady (k : Ctx) (sc : Nat) : Option Group :=
  let rs := (k.onSched sc).filter fun g => g.st == .ready
  let last := (k.rot[sc]?).getD 0
  match Ctx.oldestOf (rs.filter fun g => last < g.age) with
  | some g => some g
  | none => Ctx.oldestOf rs

/-- A scheduler's slot goes to the next READY group (R39). -/
def execSchedulerArbitration (c : CoreRef) (sc : Nat) : Meaning := fun s =>
  match (s.core c).ctx with
  | none => .next s
  | some k =>
    if k.st != .running || (k.runningOn sc).isSome then .next s
    else
      let s := s.modCtx c (rotate sc)
      match (s.core c).ctx with
      | none => .next s
      | some k =>
        match if (k.runningOn sc).isSome then none else nextReady k sc with
        | some g => .next ((s.modGroup c g.slot fun x => { x with st := .running, run := 0, stall := .none }).reschedOne c sc)
        | none => .next (s.reschedOne c sc)

/-- A STALLED group whose stall lasts is exchanged with the oldest P-READY group (R40). -/
def execStallExchange (c : CoreRef) (sc : Nat) : Meaning := fun s =>
  match (s.core c).ctx with
  | none => .next s
  | some k =>
    match k.oldestReady sc, Ctx.oldestOf ((k.onSched sc).filter fun g => g.st == .stalled && g.stall != .none) with
    | some p, some g =>
      if k.st != .running then .next s
      else .next ((s.modCtx c fun k => (k.modGroup g.slot fun x => { x with st := .pStalled }).activate p).reschedOne c sc)
    | _, _ => .next s

/-! ### The group former (R31-R33) -/

/-- The threads of a key made a group, at most 32 of them; the core builds no other on this clk (R31). -/
def formKey (s : State) (c : CoreRef) (k : Ctx) (wslot pc : Nat) : State :=
  (((s.placeGroup c wslot (keyThreads k wslot pc)).countCore c 0x08).modCtx c fun k => { k with formedAt := some s.clk }).seeded c

/-- Whether a core's former may build a group on this clk (R31). -/
def mayForm (s : State) (c : CoreRef) : Bool :=
  match (s.core c).ctx with
  | some k => k.formedAt != some s.clk
  | none => true

/-- The former builds one group of the key that holds the oldest thread, when a slot is free (R31, R32). DESIGN CHOICE (log 94): between
threads that entered the seedbed on the same clk, the lower thread index comes first, then the order of the workgroups. -/
def execGroupFormation (c : CoreRef) : Meaning := fun s =>
  match (s.core c).ctx with
  | none => .next s
  | some k =>
    if k.st != .running then .next s
    else if !mayForm s c then .next (s.postOnce (.groupFormation c))
    else
      match firstBy seedBefore (s.eligible k) with
      | none => .next s
      | some x =>
        if slotsFull k then .next (if s.agedOut k x.2 then s.postOnce (.groupDissolution c) else s)
        else .next (formKey s c k x.1 x.2.pc)

/-- The age of FORM_AGE that a seedbed thread reaches (R31). -/
def formAgeDue (s : State) (c : CoreRef) (wslot tid : Nat) : Bool :=
  match (s.core c).ctx, s.thread c wslot tid with
  | some k, some t => s.agedOut k t
  | _, _ => true

/-- A seedbed thread reaches FORM_AGE: its key is eligible, and a group is dissolved when every slot is full (R31, R33). -/
def execFormAgeExpiry (c : CoreRef) (wslot tid : Nat) : Meaning := fun s =>
  match (s.core c).ctx, s.thread c wslot tid with
  | some k, some t =>
    if t.status != .seedbed || k.st != .running then .next s
    else if !s.agedOut k t then .next (s.postOnce (.formAgeExpiry c wslot tid))
    else
      let s := (s.modThread c wslot tid fun t => { t with aged := true }).seeded c
      .next (if slotsFull k then s.postOnce (.groupDissolution c) else s)
  | _, _ => .next s

/-- The group that the former dissolves: between runs, not waiting, the fewest threads, the youngest of these (R33). -/
def dissolveVictim (k : Ctx) : Option Group :=
  firstBy (fun (a b : Group) => a.members.length < b.members.length || (a.members.length == b.members.length && b.age < a.age))
    (k.groups.filter fun g => g.st == .ready || (g.st == .pReady && !g.mid))

/-- With every slot full and an aged thread in the seedbed, a group is dissolved and its slot goes to the aged thread's key
(R33). DESIGN CHOICE (log 93): the new group is formed before the promotion of R41, so that it takes an active place that the victim
held. -/
def execGroupDissolution (c : CoreRef) : Meaning := fun s =>
  match (s.core c).ctx with
  | none => .next s
  | some k =>
    match firstBy seedBefore ((s.eligible k).filter fun x => s.agedOut k x.2) with
    | none => .next s
    | some x =>
      if k.st != .running then .next s
      else if !mayForm s c then .next (s.postOnce (.groupDissolution c))
      else if !slotsFull k then .next (formKey s c k x.1 x.2.pc)
      else
        match dissolveVictim k with
        | none => .next (s.postOnce (.groupDissolution c))
        | some v =>
          let s := v.members.foldl (fun s t => s.modThread c v.wslot t fun th => { th.closeWindows with status := .seedbed, age := s.clk, aged := false }) s
          let s := (s.modCtx c fun k => k.dropGroup v.slot).countCore c 0x10
          match (s.core c).ctx with
          | none => .next s
          | some k => .next (formKey s c k x.1 x.2.pc)

/-! ### Timed waits (R34, R198) -/

/-- Whether a waiting group's MERGE_WAIT has run out. -/
def mergeDue (s : State) (c : CoreRef) (slot : Nat) : Bool :=
  match (s.core c).ctx.bind fun k => (k.group slot).map fun g => (k, g) with
  | some (k, g) => g.elapsed + (s.clk - g.endAt) ≥ (s.gfc (partOfCid k.cid)).2.2
  | none => true

/-- MERGE_WAIT runs out: the group passes (R34). -/
def execMergeWaitExpiry (c : CoreRef) (slot : Nat) : Meaning := fun s =>
  match (s.core c).ctx.bind fun k => (k.group slot).map fun g => (k, g) with
  | none => .next s
  | some (k, g) =>
    if g.stall != .merge || k.st != .running then .next s
    else if mergeDue s c slot then .next (s.passMerge c slot) else .next (s.postOnce (.mergeWaitExpiry c slot))

/-- Whether a sleeping group's clk have passed. -/
def tslpDue (s : State) (c : CoreRef) (slot : Nat) : Bool :=
  match (s.core c).ctx.bind fun k => k.group slot with
  | some g => g.left ≤ s.clk - g.endAt
  | none => true

/-- A `tslp` is over: the group goes on after it in a new run (R198). -/
def execTslpExpiry (c : CoreRef) (slot : Nat) : Meaning := fun s =>
  match (s.core c).ctx.bind fun k => (k.group slot).map fun g => (k, g) with
  | none => .next s
  | some (k, g) =>
    if g.stall != .sleep || k.st != .running then .next s
    else if !tslpDue s c slot then .next (s.postOnce (.tslpExpiry c slot))
    else
      let s := g.members.foldl (fun s t => s.modThread c g.wslot t fun th => { th with pc := (th.pc + 4 * (g.hint.words + 1)) % 2 ^ 64 }) s
      .next ((s.modCtx c fun k => (k.endWait slot).modGroup slot fun x => { x with hint := {} }).resched c)

/-! ### Stalls that the core or its caches end (R40, R49, R50, R199) -/

/-- The stall of a group ends, where it is the one expected, and its instruction goes on. -/
def grant (s : State) (c : CoreRef) (slot : Nat) (p : Stall → Bool) : State :=
  match (s.core c).ctx.bind fun k => (k.group slot).map fun g => (k, g) with
  | none => s
  | some (k, g) => if p g.stall then (s.modGroup c slot fun g => { g with fillOk := true }).clearStall c k.gen slot else s

/-- The group whose `wgrow` waits longest, when its registers are free now, and their bytes (R199). -/
def growReady (s : State) (c : CoreRef) : Option (Nat × Nat) := do
  let k ← (s.core c).ctx
  let g ← firstBy (fun (a b : Group) => (growSeq a).getD 0 < (growSeq b).getD 0) (k.groups.filter fun g => (growSeq g).isSome)
  let x ← ({ s with cur := some (c, g.slot) }).issuing
  match g.stall with
  | .wgrow m _ => if regBytes k + growBytes x m ≤ 512 * 1024 then some (g.slot, growBytes x m) else none
  | _ => none

/-- Waiting `wgrow`s are granted in the order in which they began to wait; the registers granted are theirs from then on (R199). -/
def execWgrowGrant (c : CoreRef) : Meaning := fun s =>
  match growReady s c with
  | none => .next s
  | some (slot, n) =>
    let s := grant (s.modGroup c slot fun g => { g with granted := n }) c slot fun _ => true
    .next (if ((s.core c).ctx.map fun k => k.groups.any fun g => (growSeq g).isSome).getD false then s.postOnce (.wgrowGrant c) else s)

/-- A line of D or S, or a translation, has come to the core's cache (R40). -/
def execCacheFillArrival (c : CoreRef) (slot : Nat) : Meaning := fun s => .next (grant s c slot fun w => w == .fill)

/-- The registers that a call, return or window move spills or fills have been moved (R50). -/
def execSpillFillCompletion (c : CoreRef) (slot : Nat) : Meaning := fun s => .next (grant s c slot fun w => w == .spill)

end Sys2Proof.Machine
end

