-- ==== Sys2Proof/Machine/Dispatch.lean ====
section
/-! DEFINITION. One arm per instruction or event: the direct call of its meaning. -/

namespace Sys2Proof.Machine

def exec (i : Instr) (s : State) : Host.Outcome State Fault Refusal :=
  match i with
  | .addI32 e d a b => Sys2Proof.Machine.execAddI32 e d a b s
  | .subI32 e d a b => Sys2Proof.Machine.execSubI32 e d a b s
  | .addcN32 e d a b => Sys2Proof.Machine.execAddcN32 e d a b s
  | .subbN32 e d a b => Sys2Proof.Machine.execSubbN32 e d a b s
  | .mulI32 e d a b => Sys2Proof.Machine.execMulI32 e d a b s
  | .mulhiI32 e d a b => Sys2Proof.Machine.execMulhiI32 e d a b s
  | .mulhiN32 e d a b => Sys2Proof.Machine.execMulhiN32 e d a b s
  | .madI32 e d a b => Sys2Proof.Machine.execMadI32 e d a b s
  | .minI32 e d a b => Sys2Proof.Machine.execMinI32 e d a b s
  | .minN32 e d a b => Sys2Proof.Machine.execMinN32 e d a b s
  | .maxI32 e d a b => Sys2Proof.Machine.execMaxI32 e d a b s
  | .maxN32 e d a b => Sys2Proof.Machine.execMaxN32 e d a b s
  | .absI32 e d a => Sys2Proof.Machine.execAbsI32 e d a s
  | .negI32 e d a => Sys2Proof.Machine.execNegI32 e d a s
  | .andB32 e d a b => Sys2Proof.Machine.execAndB32 e d a b s
  | .orB32 e d a b => Sys2Proof.Machine.execOrB32 e d a b s
  | .xorB32 e d a b => Sys2Proof.Machine.execXorB32 e d a b s
  | .andnB32 e d a b => Sys2Proof.Machine.execAndnB32 e d a b s
  | .notB32 e d a => Sys2Proof.Machine.execNotB32 e d a s
  | .shlB32 e d a b => Sys2Proof.Machine.execShlB32 e d a b s
  | .shrB32 e d a b => Sys2Proof.Machine.execShrB32 e d a b s
  | .sarI32 e d a b => Sys2Proof.Machine.execSarI32 e d a b s
  | .rolB32 e d a b => Sys2Proof.Machine.execRolB32 e d a b s
  | .bfxN32 e d a b => Sys2Proof.Machine.execBfxN32 e d a b s
  | .bfxI32 e d a b => Sys2Proof.Machine.execBfxI32 e d a b s
  | .bfsB32 e d a b => Sys2Proof.Machine.execBfsB32 e d a b s
  | .clzB32 e d a => Sys2Proof.Machine.execClzB32 e d a s
  | .popB32 e d a => Sys2Proof.Machine.execPopB32 e d a s
  | .brevB32 e d a => Sys2Proof.Machine.execBrevB32 e d a s
  | .bpermB32 e d a b => Sys2Proof.Machine.execBpermB32 e d a b s
  | .cmpI32 e p c a b => Sys2Proof.Machine.execCmpI32 e p c a b s
  | .cmpN32 e p c a b => Sys2Proof.Machine.execCmpN32 e p c a b s
  | .movB32 e d a => Sys2Proof.Machine.execMovB32 e d a s
  | .addI64 e d a b => Sys2Proof.Machine.execAddI64 e d a b s
  | .subI64 e d a b => Sys2Proof.Machine.execSubI64 e d a b s
  | .shlB64 e d a b => Sys2Proof.Machine.execShlB64 e d a b s
  | .shrB64 e d a b => Sys2Proof.Machine.execShrB64 e d a b s
  | .faddF32 e d a b => Sys2Proof.Machine.execFaddF32 e d a b s
  | .fsubF32 e d a b => Sys2Proof.Machine.execFsubF32 e d a b s
  | .fmulF32 e d a b => Sys2Proof.Machine.execFmulF32 e d a b s
  | .ffmaF32 e d a b => Sys2Proof.Machine.execFfmaF32 e d a b s
  | .fminF32 e d a b => Sys2Proof.Machine.execFminF32 e d a b s
  | .fmaxF32 e d a b => Sys2Proof.Machine.execFmaxF32 e d a b s
  | .fabsF32 e d a => Sys2Proof.Machine.execFabsF32 e d a s
  | .fnegF32 e d a => Sys2Proof.Machine.execFnegF32 e d a s
  | .frcpF32 e d a => Sys2Proof.Machine.execFrcpF32 e d a s
  | .frsqF32 e d a => Sys2Proof.Machine.execFrsqF32 e d a s
  | .fsqrF32 e d a => Sys2Proof.Machine.execFsqrF32 e d a s
  | .fex2F32 e d a => Sys2Proof.Machine.execFex2F32 e d a s
  | .flg2F32 e d a => Sys2Proof.Machine.execFlg2F32 e d a s
  | .fcmpF32 e p c a b => Sys2Proof.Machine.execFcmpF32 e p c a b s
  | .fclsF32 e d a => Sys2Proof.Machine.execFclsF32 e d a s
  | .hadd2F16 e d a b => Sys2Proof.Machine.execHadd2F16 e d a b s
  | .hmul2F16 e d a b => Sys2Proof.Machine.execHmul2F16 e d a b s
  | .hfma2F16 e d a b => Sys2Proof.Machine.execHfma2F16 e d a b s
  | .hmax2F16 e d a b => Sys2Proof.Machine.execHmax2F16 e d a b s
  | .hmin2F16 e d a b => Sys2Proof.Machine.execHmin2F16 e d a b s
  | .bfma2Bf16 e d a b => Sys2Proof.Machine.execBfma2Bf16 e d a b s
  | .fcvt e d a s1 t => Sys2Proof.Machine.execFcvt e d a s1 t s
  | .fcviI32 e d a s1 => Sys2Proof.Machine.execFcviI32 e d a s1 s
  | .fcviN32 e d a s1 => Sys2Proof.Machine.execFcviN32 e d a s1 s
  | .icvfI32 e d a t => Sys2Proof.Machine.execIcvfI32 e d a t s
  | .icvfN32 e d a t => Sys2Proof.Machine.execIcvfN32 e d a t s
  | .qcv e d a t => Sys2Proof.Machine.execQcv e d a t s
  | .qcvs e d a t => Sys2Proof.Machine.execQcvs e d a t s
  | .qdq e d a s1 t => Sys2Proof.Machine.execQdq e d a s1 t s
  | .qsc e d a t => Sys2Proof.Machine.execQsc e d a t s
  | .qox e d a b => Sys2Proof.Machine.execQox e d a b s
  | .pkh e d a b => Sys2Proof.Machine.execPkh e d a b s
  | .pand e d a m b n => Sys2Proof.Machine.execPand e d a m b n s
  | .por e d a m b n => Sys2Proof.Machine.execPor e d a m b n s
  | .pxor e d a m b n => Sys2Proof.Machine.execPxor e d a m b n s
  | .pnot e d a m => Sys2Proof.Machine.execPnot e d a m s
  | .pmov e d a m => Sys2Proof.Machine.execPmov e d a m s
  | .vmovpToReg e d => Sys2Proof.Machine.execVmovpToReg e d s
  | .vmovpToPreds e a => Sys2Proof.Machine.execVmovpToPreds e a s
  | .sreg e d s1 => Sys2Proof.Machine.execSreg e d s1 s
  | .tnow e d => Sys2Proof.Machine.execTnow e d s
  | .sel e d a b n q => Sys2Proof.Machine.execSel e d a b n q s
  | .addi e d a i1 => Sys2Proof.Machine.execAddi e d a i1 s
  | .andi e d a i1 => Sys2Proof.Machine.execAndi e d a i1 s
  | .ori e d a i1 => Sys2Proof.Machine.execOri e d a i1 s
  | .xori e d a i1 => Sys2Proof.Machine.execXori e d a i1 s
  | .shli e d a n => Sys2Proof.Machine.execShli e d a n s
  | .shri e d a n => Sys2Proof.Machine.execShri e d a n s
  | .sari e d a n => Sys2Proof.Machine.execSari e d a n s
  | .roli e d a n => Sys2Proof.Machine.execRoli e d a n s
  | .cmpi e p c a i1 => Sys2Proof.Machine.execCmpi e p c a i1 s
  | .lim e d i1 => Sys2Proof.Machine.execLim e d i1 s
  | .limB64 e d i1 => Sys2Proof.Machine.execLimB64 e d i1 s
  | .leaL e d a => Sys2Proof.Machine.execLeaL e d a s
  | .leaD e d a => Sys2Proof.Machine.execLeaD e d a s
  | .leaDDie e d a n => Sys2Proof.Machine.execLeaDDie e d a n s
  | .leaS e d a => Sys2Proof.Machine.execLeaS e d a s
  | .bra e p n o => Sys2Proof.Machine.execBra e p n o s
  | .brau e p n o => Sys2Proof.Machine.execBrau e p n o s
  | .call e s1 o => Sys2Proof.Machine.execCall e s1 o s
  | .nop e => Sys2Proof.Machine.execNop e s
  | .exit e => Sys2Proof.Machine.execExit e s
  | .ret e => Sys2Proof.Machine.execRet e s
  | .merge e => Sys2Proof.Machine.execMerge e s
  | .yield e => Sys2Proof.Machine.execYield e s
  | .yieldPd e => Sys2Proof.Machine.execYieldPd e s
  | .callr e a b => Sys2Proof.Machine.execCallr e a b s
  | .jmpr e a => Sys2Proof.Machine.execJmpr e a s
  | .trap e d => Sys2Proof.Machine.execTrap e d s
  | .wgrow e m => Sys2Proof.Machine.execWgrow e m s
  | .wshr e m => Sys2Proof.Machine.execWshr e m s
  | .tslp e a => Sys2Proof.Machine.execTslp e a s
  | .ldl e d b s1 l o => Sys2Proof.Machine.execLdl e d b s1 l o s
  | .stl e s1 b z o => Sys2Proof.Machine.execStl e s1 b z o s
  | .ldd e d b s1 l o => Sys2Proof.Machine.execLdd e d b s1 l o s
  | .std e s1 b z o => Sys2Proof.Machine.execStd e s1 b z o s
  | .lds e d b s1 l o => Sys2Proof.Machine.execLds e d b s1 l o s
  | .sts e s1 b z o => Sys2Proof.Machine.execSts e s1 b z o s
  | .atmAddI32 e d a b l o => Sys2Proof.Machine.execAtmAddI32 e d a b l o s
  | .atmAddF32 e d a b l o => Sys2Proof.Machine.execAtmAddF32 e d a b l o s
  | .atmMaxI32 e d a b l o => Sys2Proof.Machine.execAtmMaxI32 e d a b l o s
  | .atmMaxN32 e d a b l o => Sys2Proof.Machine.execAtmMaxN32 e d a b l o s
  | .atmMinI32 e d a b l o => Sys2Proof.Machine.execAtmMinI32 e d a b l o s
  | .atmMinN32 e d a b l o => Sys2Proof.Machine.execAtmMinN32 e d a b l o s
  | .atmAmaxF32 e d a b l o => Sys2Proof.Machine.execAtmAmaxF32 e d a b l o s
  | .atmAnd e d a b l o => Sys2Proof.Machine.execAtmAnd e d a b l o s
  | .atmOr e d a b l o => Sys2Proof.Machine.execAtmOr e d a b l o s
  | .atmXor e d a b l o => Sys2Proof.Machine.execAtmXor e d a b l o s
  | .atmSwp e d a b l o => Sys2Proof.Machine.execAtmSwp e d a b l o s
  | .atmCasB32 e d a b l o => Sys2Proof.Machine.execAtmCasB32 e d a b l o s
  | .atmAddI64 e d a b l o => Sys2Proof.Machine.execAtmAddI64 e d a b l o s
  | .atmCasB64 e d a b l o => Sys2Proof.Machine.execAtmCasB64 e d a b l o s
  | .bind e a b => Sys2Proof.Machine.execBind e a b s
  | .bindx e a b => Sys2Proof.Machine.execBindx e a b s
  | .unbind e a => Sys2Proof.Machine.execUnbind e a s
  | .fenceAcq e => Sys2Proof.Machine.execFenceAcq e s
  | .fenceRel e => Sys2Proof.Machine.execFenceRel e s
  | .fenceAr e => Sys2Proof.Machine.execFenceAr e s
  | .drainL e => Sys2Proof.Machine.execDrainL e s
  | .drainD e => Sys2Proof.Machine.execDrainD e s
  | .drainS e => Sys2Proof.Machine.execDrainS e s
  | .drainG e => Sys2Proof.Machine.execDrainG e s
  | .phal e d => Sys2Proof.Machine.execPhal e d s
  | .phfr e a => Sys2Proof.Machine.execPhfr e a s
  | .phrg e a b => Sys2Proof.Machine.execPhrg e a b s
  | .phdr e a => Sys2Proof.Machine.execPhdr e a s
  | .phsg e a => Sys2Proof.Machine.execPhsg e a s
  | .phwt e d a => Sys2Proof.Machine.execPhwt e d a s
  | .phsw e d a => Sys2Proof.Machine.execPhsw e d a s
  | .phex e a b => Sys2Proof.Machine.execPhex e a b s
  | .phqy e d a => Sys2Proof.Machine.execPhqy e d a s
  | .phin e a => Sys2Proof.Machine.execPhin e a s
  | .cpy e x y z s1 => Sys2Proof.Machine.execCpy e x y z s1 s
  | .cpy2 e x y z s1 => Sys2Proof.Machine.execCpy2 e x y z s1 s
  | .cpyg e x y z s1 => Sys2Proof.Machine.execCpyg e x y z s1 s
  | .cpys e x y z s1 => Sys2Proof.Machine.execCpys e x y z s1 s
  | .cpyr e x y z o f => Sys2Proof.Machine.execCpyr e x y z o f s
  | .mshp e h y => Sys2Proof.Machine.execMshp e h y s
  | .mbld e b s1 c => Sys2Proof.Machine.execMbld e b s1 c s
  | .mzro e m => Sys2Proof.Machine.execMzro e m s
  | .mlp e k a b z s1 => Sys2Proof.Machine.execMlp e k a b z s1 s
  | .mdrn e k c m => Sys2Proof.Machine.execMdrn e k c m s
  | .mdrnAmax e k c z m => Sys2Proof.Machine.execMdrnAmax e k c z m s
  | .mwt e => Sys2Proof.Machine.execMwt e s
  | .mwtSg e a => Sys2Proof.Machine.execMwtSg e a s
  | .mcop e a => Sys2Proof.Machine.execMcop e a s
  | .vpj e s1 w h p => Sys2Proof.Machine.execVpj e s1 w h p s
  | .vpjb e f w h p => Sys2Proof.Machine.execVpjb e f w h p s
  | .vmrg e d s1 => Sys2Proof.Machine.execVmrg e d s1 s
  | .vfin e f s1 => Sys2Proof.Machine.execVfin e f s1 s
  | .vrsm e s1 => Sys2Proof.Machine.execVrsm e s1 s
  | .glch e x y l => Sys2Proof.Machine.execGlch e x y l s
  | .gcan e y => Sys2Proof.Machine.execGcan e y s
  | .gwt e y => Sys2Proof.Machine.execGwt e y s
  | .gqy e x y s1 l => Sys2Proof.Machine.execGqy e x y s1 l s
  | .cfr e y => Sys2Proof.Machine.execCfr e y s
  | .cwt e y z => Sys2Proof.Machine.execCwt e y z s
  | .cqy e x y z l => Sys2Proof.Machine.execCqy e x y z l s
  | .csrr e d n => Sys2Proof.Machine.execCsrr e d n s
  | .csrw e s1 n => Sys2Proof.Machine.execCsrw e s1 n s
  | .tlbi e a b => Sys2Proof.Machine.execTlbi e a b s
  | .ctxs e d a b => Sys2Proof.Machine.execCtxs e d a b s
  | .ctxl e d a b => Sys2Proof.Machine.execCtxl e d a b s
  | .eret e => Sys2Proof.Machine.execEret e s
  | .halt e d a b => Sys2Proof.Machine.execHalt e d a b s
  | .hzn e d a b => Sys2Proof.Machine.execHzn e d a b s
  | .phld e d a b => Sys2Proof.Machine.execPhld e d a b s
  | .dbgr e d a => Sys2Proof.Machine.execDbgr e d a s
  | .hx i1 => Sys2Proof.Machine.execHx i1 s
  | .hp p n => Sys2Proof.Machine.execHp p n s
  | .hrep c d a b => Sys2Proof.Machine.execHrep c d a b s
  | .hmod r m p => Sys2Proof.Machine.execHmod r m p s
  | .schedulerArbitration c sched => Sys2Proof.Machine.execSchedulerArbitration c sched s
  | .stallExchange c sched => Sys2Proof.Machine.execStallExchange c sched s
  | .formAgeExpiry c wslot tid => Sys2Proof.Machine.execFormAgeExpiry c wslot tid s
  | .groupFormation c => Sys2Proof.Machine.execGroupFormation c s
  | .groupDissolution c => Sys2Proof.Machine.execGroupDissolution c s
  | .mergeWaitExpiry c g => Sys2Proof.Machine.execMergeWaitExpiry c g s
  | .tslpExpiry c g => Sys2Proof.Machine.execTslpExpiry c g s
  | .wgrowGrant c => Sys2Proof.Machine.execWgrowGrant c s
  | .cacheFillArrival c g => Sys2Proof.Machine.execCacheFillArrival c g s
  | .atomicHomePerform id => Sys2Proof.Machine.execAtomicHomePerform id s
  | .atomicResultArrival id => Sys2Proof.Machine.execAtomicResultArrival id s
  | .bindHomeOrder id => Sys2Proof.Machine.execBindHomeOrder id s
  | .bindAnswer id => Sys2Proof.Machine.execBindAnswer id s
  | .releaseCompletion id => Sys2Proof.Machine.execReleaseCompletion id s
  | .releasePromotion id => Sys2Proof.Machine.execReleasePromotion id s
  | .copyGateOpen c id => Sys2Proof.Machine.execCopyGateOpen c id s
  | .copyLineWrite c id => Sys2Proof.Machine.execCopyLineWrite c id s
  | .copyCompletion c id => Sys2Proof.Machine.execCopyCompletion c id s
  | .mbldEntry c => Sys2Proof.Machine.execMbldEntry c s
  | .mzroEntry c => Sys2Proof.Machine.execMzroEntry c s
  | .mlpKstep c => Sys2Proof.Machine.execMlpKstep c s
  | .mdrnChunk c => Sys2Proof.Machine.execMdrnChunk c s
  | .mwtSgEntry c => Sys2Proof.Machine.execMwtSgEntry c s
  | .vocabBlockFold c => Sys2Proof.Machine.execVocabBlockFold c s
  | .frameClearingDone c wslot => Sys2Proof.Machine.execFrameClearingDone c wslot s
  | .launchRequest id => Sys2Proof.Machine.execLaunchRequest id s
  | .requestResultArrival id => Sys2Proof.Machine.execRequestResultArrival id s
  | .neighbourhoodPlacement pkg die => Sys2Proof.Machine.execNeighbourhoodPlacement pkg die s
  | .deal l handle lo hi => Sys2Proof.Machine.execDeal l handle lo hi s
  | .start l handle a => Sys2Proof.Machine.execStart l handle a s
  | .go l handle first => Sys2Proof.Machine.execGo l handle first s
  | .cancel l handle cmode => Sys2Proof.Machine.execCancel l handle cmode s
  | .demand l handle unstarted => Sys2Proof.Machine.execDemand l handle unstarted s
  | .count l handle d => Sys2Proof.Machine.execCount l handle d s
  | .faultrec l handle r => Sys2Proof.Machine.execFaultrec l handle r s
  | .xload l addr core => Sys2Proof.Machine.execXload l addr core s
  | .error l r => Sys2Proof.Machine.execError l r s
  | .chunkTranslation handle b chunk rank => Sys2Proof.Machine.execChunkTranslation handle b chunk rank s
  | .chunkAcceptance handle b chunk rank => Sys2Proof.Machine.execChunkAcceptance handle b chunk rank s
  | .engineArbitration pkg stack => Sys2Proof.Machine.execEngineArbitration pkg stack s
  | .chunkStepCompletion pkg stack => Sys2Proof.Machine.execChunkStepCompletion pkg stack s
  | .coreHalted c => Sys2Proof.Machine.execCoreHalted c s
  | .prefillDone c => Sys2Proof.Machine.execPrefillDone c s
  | .horizonSwap c => Sys2Proof.Machine.execHorizonSwap c s
  | .outSlotDrainDone c => Sys2Proof.Machine.execOutSlotDrainDone c s
  | .drainWriteFault c => Sys2Proof.Machine.execDrainWriteFault c s
  | .backgroundSave c => Sys2Proof.Machine.execBackgroundSave c s
  | .backgroundRestore c => Sys2Proof.Machine.execBackgroundRestore c s
  | .expressArrival c cid evict => Sys2Proof.Machine.execExpressArrival c cid evict s
  | .waitsigWake pkg fn => Sys2Proof.Machine.execWaitsigWake pkg fn s
  | .queueService pkg => Sys2Proof.Machine.execQueueService pkg s
  | .migrationDone pkg => Sys2Proof.Machine.execMigrationDone pkg s
  | .translationWalk token => Sys2Proof.Machine.execTranslationWalk token s
  | .apertureReadDone pkg => Sys2Proof.Machine.execApertureReadDone pkg s
  | .spillFillCompletion c g => Sys2Proof.Machine.execSpillFillCompletion c g s
  | .retire l cluster => Sys2Proof.Machine.execRetire l cluster s
  | .remap l logical => Sys2Proof.Machine.execRemap l logical s
  | .quiesce l => Sys2Proof.Machine.execQuiesce l s
  | .ping l => Sys2Proof.Machine.execPing l s
  | .linkResponse l op status => Sys2Proof.Machine.execLinkResponse l op status s
  | .pingTimer pkg => Sys2Proof.Machine.execPingTimer pkg s
  | .timeBudgetExpiry handle => Sys2Proof.Machine.execTimeBudgetExpiry handle s
  | .switchSlotRequest handle b => Sys2Proof.Machine.execSwitchSlotRequest handle b s
  | .registerWrite r offset value => Sys2Proof.Machine.execRegisterWrite r offset value s
  | .ptpSync pkg offset => Sys2Proof.Machine.execPtpSync pkg offset s
  | .peerDelayExchange pkg port delay => Sys2Proof.Machine.execPeerDelayExchange pkg port delay s
  | .syncLoss pkg => Sys2Proof.Machine.execSyncLoss pkg s
  | .holdoverTimeout pkg => Sys2Proof.Machine.execHoldoverTimeout pkg s
  | .heartbeatTimer pkg => Sys2Proof.Machine.execHeartbeatTimer pkg s
  | .heartbeat pkg h => Sys2Proof.Machine.execHeartbeat pkg h s
  | .heartbeatLoss pkg => Sys2Proof.Machine.execHeartbeatLoss pkg s
  | .zenithClaim pkg h => Sys2Proof.Machine.execZenithClaim pkg h s
  | .horizonTableWrite pkg h index entry => Sys2Proof.Machine.execHorizonTableWrite pkg h index entry s
  | .horizonPrefill pkg index => Sys2Proof.Machine.execHorizonPrefill pkg index s
  | .horizonFire pkg index => Sys2Proof.Machine.execHorizonFire pkg index s
  | .lateArrival c gen item => Sys2Proof.Machine.execLateArrival c gen item s
  | .preemptBudgetExpiry c => Sys2Proof.Machine.execPreemptBudgetExpiry c s
  | .partset q p => Sys2Proof.Machine.execPartset q p s
  | .jobset q p => Sys2Proof.Machine.execJobset q p s
  | .commset q p => Sys2Proof.Machine.execCommset q p s
  | .express q p => Sys2Proof.Machine.execExpress q p s
  | .launch q p => Sys2Proof.Machine.execLaunch q p s
  | .waitsig q p => Sys2Proof.Machine.execWaitsig q p s
  | .signal q p => Sys2Proof.Machine.execSignal q p s
  | .notify q tail => Sys2Proof.Machine.execNotify q tail s
  | .vfmapWrite pkg f value => Sys2Proof.Machine.execVfmapWrite pkg f value s
  | .xrespResolve pkg fn token => Sys2Proof.Machine.execXrespResolve pkg fn token s
  | .xrespDecline pkg fn token => Sys2Proof.Machine.execXrespDecline pkg fn token s
  | .hrespResolve pkg token => Sys2Proof.Machine.execHrespResolve pkg token s
  | .hrespDecline pkg token => Sys2Proof.Machine.execHrespDecline pkg token s
  | .save pkg f => Sys2Proof.Machine.execSave pkg f s
  | .restore pkg f => Sys2Proof.Machine.execRestore pkg f s
  | .functionLevelReset pkg f => Sys2Proof.Machine.execFunctionLevelReset pkg f s
  | .pfFunctionLevelReset pkg => Sys2Proof.Machine.execPfFunctionLevelReset pkg s
  | .budgetPeriodEnd pkg => Sys2Proof.Machine.execBudgetPeriodEnd pkg s
  | .memoryRequestService pkg ctrl => Sys2Proof.Machine.execMemoryRequestService pkg ctrl s
  | .portFlitArbitration pkg port => Sys2Proof.Machine.execPortFlitArbitration pkg port s
  | .patrolScrub pkg line => Sys2Proof.Machine.execPatrolScrub pkg line s
  | .correctableError pkg r => Sys2Proof.Machine.execCorrectableError pkg r s
  | .uncorrectableError pkg r => Sys2Proof.Machine.execUncorrectableError pkg r s
  | .fatalPacket pkg sender => Sys2Proof.Machine.execFatalPacket pkg sender s
  | .powerGood pkg => Sys2Proof.Machine.execPowerGood pkg s
  | .railDrop pkg rail => Sys2Proof.Machine.execRailDrop pkg rail s
  | .coldReset pkg => Sys2Proof.Machine.execColdReset pkg s
  | .warmReset pkg => Sys2Proof.Machine.execWarmReset pkg s
  | .perst pkg => Sys2Proof.Machine.execPerst pkg s
  | .getVersion pkg => Sys2Proof.Machine.execGetVersion pkg s
  | .getCapabilities pkg => Sys2Proof.Machine.execGetCapabilities pkg s
  | .negotiateAlgorithms pkg sig hash => Sys2Proof.Machine.execNegotiateAlgorithms pkg sig hash s
  | .getDigests pkg => Sys2Proof.Machine.execGetDigests pkg s
  | .getCertificate pkg slot offset len => Sys2Proof.Machine.execGetCertificate pkg slot offset len s
  | .challenge pkg slot nonce => Sys2Proof.Machine.execChallenge pkg slot nonce s
  | .getMeasurements pkg index => Sys2Proof.Machine.execGetMeasurements pkg index s
  | .unsupportedRequest pkg code => Sys2Proof.Machine.execUnsupportedRequest pkg code s
  | .apaddr pkg value => Sys2Proof.Machine.execApaddr pkg value s
  | .warm pkg => Sys2Proof.Machine.execWarm pkg s
  | .cmdRetire pkg => Sys2Proof.Machine.execCmdRetire pkg s
  | .taisec pkg => Sys2Proof.Machine.execTaisec pkg s
  | .ppsInEdge pkg => Sys2Proof.Machine.execPpsInEdge pkg s
  | .ppsOutSecond pkg => Sys2Proof.Machine.execPpsOutSecond pkg s
  | .ppsOutFall pkg => Sys2Proof.Machine.execPpsOutFall pkg s
  | .powerThrottle pkg => Sys2Proof.Machine.execPowerThrottle pkg s
  | .powerLimitTrip pkg => Sys2Proof.Machine.execPowerLimitTrip pkg s
  | .thermalTrip pkg => Sys2Proof.Machine.execThermalTrip pkg s
  | .partitionBudgetExhausted pkg part => Sys2Proof.Machine.execPartitionBudgetExhausted pkg part s
  | .hostDieAccess pkg a => Sys2Proof.Machine.execHostDieAccess pkg a s
  | .globalSchedulerCoreFailure pkg => Sys2Proof.Machine.execGlobalSchedulerCoreFailure pkg s
  | .syncIntervalExpiry pkg => Sys2Proof.Machine.execSyncIntervalExpiry pkg s
  | .dynamicAddressAssignment pkg addr => Sys2Proof.Machine.execDynamicAddressAssignment pkg addr s

end Sys2Proof.Machine
end

