-- ==== Sys2Proof/Machine/Pick.lean ====
section
/-! DEFINITION. Which steps may come next, the passing of time, and the placing of an instruction where the next step fetches it. -/

namespace Sys2Proof.Machine

open State

/-! ### Posted steps and inputs -/

/-- Whether two messages travel on one link in one direction (R423). -/
def sameLink (i j : Instr) : Bool :=
  match messageLink i, messageLink j with
  | some a, some b => a.pkg == b.pkg && a.die == b.die && a.leaf == b.leaf && fromLeaf i == fromLeaf j
  | _, _ => false

/-- Whether a row is one of the steps and inputs of the machine rather than an instruction word: what the agenda may hold. -/
def isEvent (i : Instr) : Bool := (encode i).isNone

/-- Whether a posted step may happen now: a step or input of the machine, a message after the earlier ones of its link (R423), a timer when it is due, a step that waits
for something when it is there, and nothing of a fatal package (R443). -/
def mayHappen (s : State) (earlier : List Instr) (i : Instr) : Bool :=
  isEvent i && !earlier.any (sameLink i) && !((homeOf i).map fun p => (s.pkg p).mgmt.fatal).getD false &&
    match i with
    | .formAgeExpiry c w t => formAgeDue s c w t
    | .mergeWaitExpiry c g => mergeDue s c g
    | .tslpExpiry c g => tslpDue s c g
    | .wgrowGrant c => (growReady s c).isSome || !((s.core c).ctx.map fun k => k.groups.any fun g => (growSeq g).isSome).getD false
    | .groupFormation c => mayForm s c
    | .groupDissolution c => mayForm s c && ((s.core c).ctx.map fun k => !slotsFull k || (dissolveVictim k).isSome || k.st != .running).getD true
    | .waitsigWake p f => wakeDue s p f || (watching s p f).isEmpty
    | .hostDieAccess _ (.read a _) | .hostDieAccess _ (.write a _ _) | .hostDieAccess _ (.atomic _ _ a _ _) => !s.lineOwned none (.g a)
    | _ => true

/-- The posted steps that may happen now, with their places. -/
def happen (s : State) : List Instr → List Instr → Nat → List (Nat × Instr)
  | [], _, _ => []
  | i :: rest, earlier, n =>
    if mayHappen s earlier i then (n, i) :: happen s rest (earlier ++ [i]) (n + 1) else happen s rest (earlier ++ [i]) (n + 1)

/-! ### The order of a core's own steps (R31, R33, R39, R40) -/

/-- A step of a core's former, schedulers and timers, with its place in the order in which the core carries out those that are due
together: a dissolution comes before the arbitration at the run boundary that it waits for (R33), a group is built before the next word
issues (R31), and all of them come before the core's next word. -/
def coreStep : Instr → Option (CoreRef × Nat)
  | .groupDissolution c => some (c, 0)
  | .groupFormation c => some (c, 1)
  | .formAgeExpiry c _ _ => some (c, 1)
  | .schedulerArbitration c _ => some (c, 2)
  | .stallExchange c _ => some (c, 2)
  | .mergeWaitExpiry c _ => some (c, 2)
  | .tslpExpiry c _ => some (c, 2)
  | .wgrowGrant c => some (c, 2)
  | _ => none

/-- The steps that no other step of their core comes before. -/
def inOrder (l : List (Nat × Instr)) : List (Nat × Instr) :=
  l.filter fun x => match coreStep x.2 with
    | none => true
    | some (c, n) => !l.any fun y => match coreStep y.2 with
      | some (d, m) => d == c && m < n
      | none => false

/-! ### Steps that time makes due -/

/-- A step that the passing of time, or a state that stands, makes due. -/
inductive Due where
  | ping (pkg : Nat)
  | pong (l : Link)
  | remap (l : Link) (logical : Nat)
  | holdover (pkg : Nat)
  | heartbeat (pkg : Nat)
  | heartbeatLoss (pkg : Nat)
  | sync (pkg : Nat)
  | prefill (pkg index : Nat)
  | fire (pkg index : Nat)
  | period (pkg : Nat)
  | budget (pkg part : Nat)
  | ppsRise (pkg : Nat)
  | ppsFall (pkg : Nat)
  | channel (pkg ctrl : Nat)
  | port (pkg port : Nat)
  | preempt (c : CoreRef)
  | yielded (c : CoreRef)
  | timeBudget (handle : Nat)
  deriving DecidableEq, Repr

/-- A list of one when a condition holds. -/
def when (b : Bool) (d : Due) : List Due := if b then [d] else []

/-- The leaves' steps of a package: answers to PINGs, and remaps (R428, R434). -/
def leafDue (p : Package) : List Due :=
  p.leaves.flatMap fun f =>
    when (!f.answered && !f.retired) (.pong { pkg := p.id, die := f.die, leaf := f.leaf }) ++
    if f.remapping then
      -- the failed cluster is the retired one that still holds its number
      match p.leaves.findSome? fun o => if o.die == f.die && o.retired then o.logical else none with
      | some k => [.remap { pkg := p.id, die := f.die, leaf := f.leaf } k]
      | none => []
    else []

/-- The horizon table's steps of a package (R371, R372). -/
def horizonDue (p : Package) : List Due :=
  p.hzn.flatMap fun e =>
    let h := hznOf e.2
    if !h.valid || h.fired || p.hznBusy.contains (e.1 + 256) then []
    else
      when (h.ingen != 0 && !p.hznBusy.contains e.1 && h.time ≤ p.clock.ns + 100000) (.prefill p.id e.1) ++
      when (h.time ≤ p.clock.ns && hznTurn p h) (.fire p.id e.1)

/-- The steps of a package that are due. -/
def packageDue (s : State) (p : Package) : List Due :=
  if p.mgmt.boot != .ready || p.mgmt.fatal then []
  else
    let c := p.clock
    let sec := 10 ^ 9
    when (p.pingAt + 1000000 ≤ p.up) (.ping p.id) ++ leafDue p ++ when (c.st == .holdover && c.heldAt + holdoverLimit ≤ p.up) (.holdover p.id) ++
    when (c.zenith && c.beatAt + 1000000 ≤ p.up) (.heartbeat p.id) ++
    when (c.candidate && !c.zenith && c.beatAt + 3000000 ≤ p.up) (.heartbeatLoss p.id) ++
    when (c.syncAt + 7812500 ≤ p.up) (.sync p.id) ++ horizonDue p ++ when (p.budgetPeriod < p.up / 10 ^ 8) (.period p.id) ++
    (p.parts.flatMap fun r => when (r.tbudget != 0 && !r.spent && budgetOf r ≤ r.charge) (.budget p.id r.part)) ++
    when (c.st != .free && !p.mgmt.ppsOut && p.mgmt.ppsRose / sec < c.ns / sec) (.ppsRise p.id) ++
    when (p.mgmt.ppsOut && (c.st == .free || p.mgmt.ppsRose / sec * sec + 10000000 ≤ c.ns)) (.ppsFall p.id) ++
    (s.channels.flatMap fun x => when (x.1.1 == p.id && (nextShare x.2).isSome) (.channel p.id x.1.2)) ++
    s.ports.flatMap fun x => when (x.1.1 == p.id && (nextShare x.2).isSome) (.port p.id x.1.2)

/-- Every step that is due. -/
def dueAll (s : State) : List Due :=
  s.packages.flatMap (packageDue s) ++
  s.cores.flatMap (fun x => match x.swap, x.ctx with
    | .express _ _ limit _, some k =>
      when (k.st == .running && limit ≤ s.clk && !allYielded s k && !x.stopped) (.preempt x.at_) ++
      when (k.st == .running && allYielded s k && !x.stopped) (.yielded x.at_)
    | _, _ => []) ++
  s.grids.flatMap fun g =>
    when (!g.complete && g.root.st != 3 && g.lrec.tbudget != 0 && g.accepted + 1000 * g.lrec.tbudget ≤ s.time g.rootPkg) (.timeBudget g.handle)

/-- A due step carried out. -/
def runDue (d : Due) : Meaning :=
  match d with
  | .ping p => execPingTimer p
  | .pong l => execPing l
  | .remap l k => execRemap l k
  | .holdover p => execHoldoverTimeout p
  | .heartbeat p => execHeartbeatTimer p
  | .heartbeatLoss p => execHeartbeatLoss p
  | .sync p => execSyncIntervalExpiry p
  | .prefill p i => execHorizonPrefill p i
  | .fire p i => execHorizonFire p i
  | .period p => execBudgetPeriodEnd p
  | .budget p r => execPartitionBudgetExhausted p r
  | .ppsRise p => execPpsOutSecond p
  | .ppsFall p => execPpsOutFall p
  | .channel p c => execMemoryRequestService p c
  | .port p i => execPortFlitArbitration p i
  | .preempt c => execPreemptBudgetExpiry c
  | .yielded c => execHorizonSwap c
  | .timeBudget h => execTimeBudgetExpiry h

/-! ### What may come next -/

/-- A step that may come next: a posted one with its place in the agenda, a due one, or the next word of a group. -/
inductive Cand where
  | posted (n : Nat) (i : Instr)
  | due (d : Due)
  | issue (c : CoreRef) (slot : Nat)
  deriving DecidableEq, Repr

/-- The groups of a core that may issue. -/
def issuers (x : Core) : List Cand :=
  match x.ctx with
  | none => []
  | some k =>
    if x.stopped then []
    else k.groups.filterMap fun g => match k.wg g.wslot with
      | some w => if mayIssue k g w then some (.issue x.at_ g.slot) else none
      | none => none

/-- Everything that may come next. -/
def candidates (s : State) : List Cand :=
  let posted := happen s s.agenda [] 0
  (inOrder posted).map (fun x => .posted x.1 x.2) ++ (dueAll s).map Cand.due ++
    (s.cores.filter fun x => !posted.any fun y => (coreStep y.2).any fun z => z.1 == x.at_).flatMap issuers

/-- Whether the next choice is one of those that let nothing wait for ever (R42): one in every `Config.patience` + 1. -/
def fairTurn (s : State) : Bool := s.free % (Config.patience + 1) == 0

/-- How long ago a group issued, as its turn. -/
def Cand.turn (s : State) : Cand → Nat
  | .issue c slot => (((s.core c).ctx.bind fun k => k.group slot).map fun g => g.turn).getD 0
  | _ => 0

/-- What a fair choice takes: by turns the posted step that has waited longest, each step that is due, and the group that issued longest
ago. -/
def fairPick (s : State) (l : List Cand) : Option Cand :=
  let round := s.free / (Config.patience + 1)
  if round % 3 == 0 then l.find? fun x => match x with
    | .posted _ _ => true
    | _ => false
  else if round % 3 == 1 then
    let dues := l.filter fun x => match x with
      | .due _ => true
      | _ => false
    dues[round / 3 % (dues.length + 1)]?
  else firstBy (fun a b => a.turn s < b.turn s) (l.filter fun x => match x with
    | .issue _ _ => true
    | _ => false)

/-- A free choice of several steps. -/
def freePick (s : State) (c : Cand) (cs : List Cand) : Cand := ((c :: cs)[Config.choice s.free % (cs.length + 1)]?).getD c

/-- What comes next: the one step that may, or one of several, by a fair choice from time to time and otherwise a free one. -/
def pick (s : State) : Option Cand :=
  match candidates s with
  | [] => none
  | [c] => some c
  | c :: cs => some (((if fairTurn s then fairPick s (c :: cs) else none)).getD (freePick s c cs))

/-! ### Time (R365, R396) -/

/-- A package's clock and uptime after some units of 2^-16 ns, at the servo's rate, and what its management engine then measures as POWER and
TEMP (R457). -/
def tickPackage (n e : Nat) (p : Package) : Package :=
  let total := p.clock.ns * 2 ^ 16 + p.clock.frac + ((e : Int) + (e : Int) * p.clock.slew / 1000000).toNat
  { p with up16 := p.up16 + e, clock := { p.clock with ns := total / 2 ^ 16, frac := total % 2 ^ 16 },
           mgmt := { p.mgmt with power := Config.power p.id n % 2 ^ 32, temp := Config.temperature p.id n % 2 ^ 16 } }

/-- The cores of a package that a partition, or one below it, occupies (R396). -/
def occupied (s : State) (pkg part : Nat) : Nat :=
  (s.cores.filter fun x => x.at_.pkg == pkg && match x.ctx with
    | some k => let p := partOfCid k.cid
      p == part || (match s.part p with
        | some y => y.depth != 0 && (y.parent == part || match s.part y.parent with
          | some z => z.depth != 0 && z.parent == part
          | none => false)
        | none => false)
    | none => false).length

/-- Time passes after a step: free amounts of clk, at least one from time to time (R42), and of each package's time, which the partitions'
charges follow. -/
def tick (s : State) : State :=
  let n := s.free
  { s with
    free := n + 1, clk := s.clk + Config.clocks n + (if fairTurn s then 1 else 0), cur := none,
    packages := s.packages.map fun p =>
      let e := Config.elapsed p.id n
      { tickPackage n e p with parts := p.parts.map fun r => { r with charge := r.charge + e * occupied s p.id r.part } } }

/-! ### An instruction placed where the next step fetches it -/

/-- The address of the placed instruction. -/
def placedPc : Nat := 0x10040

/-- A grid of the ROM level, whose addresses are physical, with room for the placed instruction. -/
def placedGrid : Grid :=
  { handle := 0x8000, level := 3, complete := false, pkgs := [0],
    lrec := { kimg := 0x10000, stkbase := 0x100000, rcba := 0x8000, farea := 0x9000, wgsize := 32, rstack := 256 },
    kern := { codesize := 0x400, allot := 64 },
    nodes := [{ self := 0x8000, level := 0, st := 2, dealt := 1, started := 1, hi := 1, cores := 1 }] }

/-- The 32 threads of the placed group, about to issue the placed instruction. -/
def placedThreads : List Thread :=
  (List.range 32).map fun t => { tid := t, status := .grouped, pc := placedPc, c := 64, bstore := placedGrid.bstore 0 t }

/-- A core on which one group of one workgroup runs. -/
def placedCore : Core :=
  { at_ := { pkg := 0, die := 0, core := 0 },
    ctx := some
      { gen := 1, cid := 1,
        wgs := [{ slot := 0, grid := 0x8000, block := 0, threads := placedThreads, lsize := 0x1000, members := [{ core := 0, lbase := 0, lsize := 0x1000 }],
                  started := true, cleared := true }],
        groups := [{ slot := 0, sched := 0, age := 1, wslot := 0, members := List.range 32, st := .running }] } }

/-- A state in which the only step that may come next is the issue of the given instruction. -/
def placeWord (s : State) (nbits w : Nat) : State :=
  { s with
    packages := s.packages.map (fun p => { p with mgmt := { p.mgmt with boot := .booting, fatal := false } }), cores := [placedCore], grids := [placedGrid],
    agenda := [], cur := none, marks := [], gmem := mwrite (sclear s.gmem placedPc 64) placedPc (nbits / 8) w }

end Sys2Proof.Machine
end

