-- ==== Sys2Proof/Machine/Step.lean ====
section
/-! DEFINITION. One step of the machine. -/

namespace Sys2Proof.Machine

/-- A step that has been picked carried out: a posted one leaves the agenda; a group fetches its next word, and the instruction is
carried out unless something came before it. -/
def run (s : State) : Cand → Host.Outcome State Fault Refusal
  | .posted n i => exec i { s with agenda := s.agenda.eraseIdx n }
  | .due d => runDue d s
  | .issue c slot =>
    match issue s c slot with
    | (s, none) => .next s
    | (s, some i) => exec i s

/-- One step: what comes next happens, and time passes; where nothing may come next, time passes. -/
def step (s : State) : Host.Outcome State Fault Refusal :=
  match pick s with
  | none => .next (tick s)
  | some c =>
    match run s c with
    | .next t => .next (tick t)
    | .fault f => .fault f
    | .refused r => .refused r

/-- The state with an instruction stored where the next step fetches it. -/
def State.withFetchWord (s : State) (nbits w : Nat) : State := placeWord s nbits w

end Sys2Proof.Machine
end

