-- ==== Sys2Proof/Safety.lean ====
section
/-! DEFINITION. What counts as a safe run, and the terms in which the statements about the machine are written: the completion of an
instruction's unit and what it leaves alone, the canonical form of the memories, and what is true between two steps. -/

namespace Sys2Proof.Machine

/-- A step from a state completes: it is neither a fault nor a refusal. -/
def Completes (s : State) : Prop := ∃ t, step s = .next t

/-- G and D stand in their canonical form. -/
def State.memWf (s : State) : Prop := Memory.wf s.gmem ∧ Memory.wf s.dmem

/-- Between two steps no group is issuing, and every package clock's fraction of a nanosecond has 16 bits (R365). -/
def State.settled (s : State) : Prop := s.cur = none ∧ ∀ p ∈ s.packages, p.clock.frac < 2 ^ 16

/-! ### The unit of the issuing group -/

/-- A group issues on a core that has not been stopped. -/
def Issues (s : State) (x : Iss) : Prop := s.issuing = some x ∧ (s.core x.c).stopped = false

/-- A result owed, whatever the units of its window still to issue. -/
def Owed.closed (o : Owed) : Owed := { o with left := 0 }

/-- The repeat counter of a member after its unit: 0 where the unit repeats; another unit leaves it (R202). -/
def Iss.repAfter (x : Iss) (n : Nat) : Nat := if x.g.hint.hrep.isSome then 0 else n

/-- A member's thread after its unit: as the instruction left it, at the next word, with nothing of the unit still to do; its lookahead
windows may have closed (R35, R145). -/
def Advanced (x : Iss) (th th' : Thread) : Prop :=
  ∃ o, th' = { th with pc := x.next, rep := x.repAfter th.rep, pend := .none, owed := o } ∧ o.map Owed.closed = th.owed.map Owed.closed

/-- A context in which only threads, groups and the rotation have changed. -/
def SchedOnly (k k' : Ctx) : Prop := k' = { k with wgs := k'.wgs, groups := k'.groups, rot := k'.rot }

/-- What a scheduler's work on a core may change: that core's threads, groups and rotation, and steps newly posted. -/
structure OnCore (c : CoreRef) (s t : State) : Prop where
  rest : t = { s with cores := t.cores, agenda := t.agenda }
  posted : ∃ l, t.agenda = s.agenda ++ l
  others : ∀ c', c' ≠ c → t.core c' = s.core c'
  core : t.core c = { s.core c with ctx := (t.core c).ctx }
  ctx : ∀ k, (s.core c).ctx = some k → ∃ k', (t.core c).ctx = some k' ∧ SchedOnly k k'

/-- A unit has completed for its group after the effect `u`: every member stands at the next word (R35), no other thread has changed,
nothing outside the core's threads and schedulers has, and the group holds its members without hint words. -/
structure UnitDone (x : Iss) (u t : State) : Prop where
  frame : OnCore x.c u t
  wgs : ∀ w, w ≠ x.g.wslot → t.wg x.c w = u.wg x.c w
  wg : ∀ w, u.wg x.c x.g.wslot = some w → ∃ ths, t.wg x.c x.g.wslot = some { w with threads := ths }
  threads : ∀ i, i ∉ x.g.members → t.thread x.c x.g.wslot i = u.thread x.c x.g.wslot i
  members : ∀ i ∈ x.g.members, ∀ th, u.thread x.c x.g.wslot i = some th →
    ∃ th', t.thread x.c x.g.wslot i = some th' ∧ Advanced x th th'
  group : ∃ g, ((t.core x.c).ctx.bind fun k => k.group x.g.slot) = some g ∧ g.members = x.g.members ∧ g.wslot = x.g.wslot ∧ g.hint = {}

/-- What stands of the issuing group in a state: the group of the unit, with its members. -/
structure Stands (x : Iss) (u : State) : Prop where
  group : ∃ k g, (u.core x.c).ctx = some k ∧ k.group x.g.slot = some g ∧ g.members = x.g.members ∧ g.wslot = x.g.wslot ∧
    g.age = x.g.age ∧ g.sched = x.g.sched
  wg : (u.wg x.c x.g.wslot).isSome

/-! ### Instructions that act lane by lane -/

/-- A group about to issue an instruction word whose registers are `fs`, without `hrep`: its members are different threads, none has begun
the unit, and the registers lie below the allotment of every active one (R45). -/
structure LaneUnit (s : State) (x : Iss) (fs : Fields) : Prop where
  issues : Issues s x
  single : x.g.hint.hrep = none
  members : x.g.members.Nodup
  fresh : ∀ i ∈ x.g.members, ∃ th, x.w.thread i = some th ∧ th.pend = .none
  regs : ∀ i ∈ x.active, ∀ th, x.w.thread i = some th → fs.within th.c none = true

/-- What one active lane's instruction sees at its first iteration. -/
def laneFirst (x : Iss) (fs : Fields) (i : Nat) (th : Thread) : LaneIn :=
  { ln := { r := x.ref i, lane := x.laneNo i, t := th, w := x.w, g := x.grid }, x := x, d := fs.d, a := fs.a, b := fs.b }

/-- The strides of a unit's register fields (R136, R141): 0 without `hrep`. -/
def Iss.strides (x : Iss) : Nat × Nat × Nat :=
  match x.g.hint.hrep with
  | some (_, sd, sa, sb) => (strideOf sd, strideOf sa, strideOf sb)
  | none => (0, 0, 0)

/-- What one active lane's instruction sees at iteration `r` (R141): its register fields are stepped. -/
def laneAt (x : Iss) (fs : Fields) (r : Nat) (i : Nat) (th : Thread) : LaneIn :=
  { ln := { r := x.ref i, lane := x.laneNo i, t := th, w := x.w, g := x.grid }, x := x,
    d := fs.d + r * x.strides.1, a := fs.a + r * x.strides.2.1, b := fs.b + r * x.strides.2.2 }

/-- A group about to issue iteration `r` of an instruction word under an `hrep` of `n`: its members are different threads, the active ones
stand at that iteration, and the registers of the whole stepped span lie below the allotment of every active one (R45, R141). -/
structure IterUnit (s : State) (x : Iss) (fs : Fields) (n r : Nat) : Prop where
  issues : Issues s x
  repeats : ∃ sd sa sb, x.g.hint.hrep = some (n, sd, sa, sb)
  more : r < n
  members : x.g.members.Nodup
  ready : ∀ i ∈ x.active, ∃ th, x.w.thread i = some th ∧ th.pend = .none ∧ th.rep = r ∧ fs.within th.c x.g.hint.hrep = true

/-- A unit has completed lane by lane: each active member's thread is as `res` makes it, every member stands at the next word, and nothing
else has changed but the core's schedulers. -/
structure LanesDone (x : Iss) (res : Nat → Thread → Thread) (s t : State) : Prop where
  frame : OnCore x.c s t
  wgs : ∀ w, w ≠ x.g.wslot → t.wg x.c w = s.wg x.c w
  wg : ∃ ths, t.wg x.c x.g.wslot = some { x.w with threads := ths }
  threads : ∀ i, i ∉ x.g.members → t.thread x.c x.g.wslot i = x.w.thread i
  members : ∀ i ∈ x.g.members, ∀ th, x.w.thread i = some th →
    ∃ th', t.thread x.c x.g.wslot i = some th' ∧ Advanced x (if i ∈ x.active then res i th else th) th'
  group : ∃ g, ((t.core x.c).ctx.bind fun k => k.group x.g.slot) = some g ∧ g.members = x.g.members ∧ g.wslot = x.g.wslot ∧ g.hint = {}

/-- Iteration `r` of an `hrep` has completed and more follow (R141, R201, R202): each active member's thread is as `res` makes it with its
repeat counter at the next iteration and its PC as it was, the group goes on with the same unit, the same active lanes and the time at which
the unit issued, and nothing else has changed. -/
structure IterDone (x : Iss) (r : Nat) (res : Nat → Thread → Thread) (s t : State) : Prop where
  frame : OnCore x.c s t
  wgs : ∀ w, w ≠ x.g.wslot → t.wg x.c w = s.wg x.c w
  wg : ∃ ths, t.wg x.c x.g.wslot = some { x.w with threads := ths }
  others : ∀ i, i ∉ x.active → t.thread x.c x.g.wslot i = x.w.thread i
  active : ∀ i ∈ x.active, t.thread x.c x.g.wslot i = (x.w.thread i).map fun th => { res i th with pend := .none, rep := r + 1 }
  group : ∃ g, ((t.core x.c).ctx.bind fun k => k.group x.g.slot) = some g ∧ g.members = x.g.members ∧ g.wslot = x.g.wslot ∧ g.run = x.g.run ∧
    g.hint = { x.g.hint with act := some x.active, issued := some (x.g.hint.issued.getD (s.time x.c.pkg)) }

end Sys2Proof.Machine
end

