-- ==== Sys2Proof/Safety/Rows.lean ====
section
/-! DEFINITION. What each instruction that acts lane by lane writes, in the terms of its rule: its register fields, and the thread of an
active lane after it. The statements about these instructions are made over these tables. -/

namespace Sys2Proof.Machine

/-- The registers that an instruction names, and an active lane's thread after its iteration. -/
structure LaneRow where
  fs : Fields
  res : LaneIn → Thread

/-- The words in the registers that the fields D, A and B name, and the pairs there. -/
def LaneIn.rd (l : LaneIn) : Word := BitVec.ofNat 32 (l.ln.t.reg l.d)
def LaneIn.ra (l : LaneIn) : Word := BitVec.ofNat 32 (l.ln.t.reg l.a)
def LaneIn.rb (l : LaneIn) : Word := BitVec.ofNat 32 (l.ln.t.reg l.b)
def LaneIn.pa (l : LaneIn) : DWord := BitVec.ofNat 64 (l.ln.t.pair l.a)
def LaneIn.pb (l : LaneIn) : DWord := BitVec.ofNat 64 (l.ln.t.pair l.b)

/-- The thread with D written, or the pair at D. -/
def LaneIn.put (l : LaneIn) (v : Word) : Thread := l.ln.t.setReg l.d v.toNat
def LaneIn.put2 (l : LaneIn) (v : DWord) : Thread := l.ln.t.setSpan l.d 2 v.toNat

/-- The fields of a row that names D, A and B; of one that names D and A; of one that names D. -/
def dab (d a b : BitVec 6) : Fields := { d := d.toNat, dn := 1, a := a.toNat, an := 1, b := b.toNat, bn := 1 }
def da (d a : BitVec 6) : Fields := { d := d.toNat, dn := 1, a := a.toNat, an := 1 }
def dOnly (d : BitVec 6) : Fields := { d := d.toNat, dn := 1 }
def ab (a b : BitVec 6) : Fields := { a := a.toNat, an := 1, b := b.toNat, bn := 1 }

/-- The fields of a row of pairs, whose fields hold half the register number (R120). -/
def pairs (d a b : BitVec 5) : Fields := { d := 2 * d.toNat, dn := 2, a := 2 * a.toNat, an := 2, b := 2 * b.toNat, bn := 2 }

/-- D from A and B, from D, A and B, and from A. -/
def row2 (d a b : BitVec 6) (f : Word → Word → Word) : LaneRow := ⟨dab d a b, fun l => l.put (f l.ra l.rb)⟩
def row3 (d a b : BitVec 6) (f : Word → Word → Word → Word) : LaneRow := ⟨dab d a b, fun l => l.put (f l.rd l.ra l.rb)⟩
def row1 (d a : BitVec 6) (f : Word → Word) : LaneRow := ⟨da d a, fun l => l.put (f l.ra)⟩

/-- Whether a predicate operand, written negated when its flag is set, is 1 (R120). -/
def LaneIn.p (l : LaneIn) (p : BitVec 3) (neg : Bool) : Bool := if neg then !l.ln.t.getP p.toNat else l.ln.t.getP p.toNat

/-- A predicate from A and B. -/
def rowCmp (p : BitVec 3) (a b : BitVec 6) (f : Word → Word → Bool) : LaneRow := ⟨ab a b, fun l => l.ln.t.setP p.toNat (f l.ra l.rb)⟩

/-- The conditions of R130 that integer compares accept, signed and unsigned. -/
def signedCond : Nat → Word → Word → Bool
  | 0 => fun a b => a == b
  | 1 => fun a b => a != b
  | 2 => fun a b => a.slt b
  | 3 => fun a b => a.sle b
  | 4 => fun a b => b.slt a
  | _ => fun a b => b.sle a
def unsignedCond : Nat → Word → Word → Bool
  | 0 => fun a b => a == b
  | 1 => fun a b => a != b
  | 2 => fun a b => a.ult b
  | 3 => fun a b => a.ule b
  | 4 => fun a b => b.ult a
  | _ => fun a b => b.ule a

/-- The first bit and the length of a bit field from its control word (R165). -/
def fieldPos (b : Word) : Nat := (b.extractLsb' 0 5).toNat
def fieldLen (b : Word) : Nat := min (b.extractLsb' 8 6).toNat (32 - fieldPos b)

/-- The bits that a field covers. -/
def fieldMask (b : Word) : Word := (BitVec.allOnes (fieldLen b)).setWidth 32 <<< fieldPos b

/-- One byte of `bperm.b32`: of the eight bytes of D above A, or 0 (R165). -/
def permByte (d a b : Word) (i : Nat) : Byte :=
  let g := (b.extractLsb' (4 * i) 4).toNat
  if 8 ≤ g then 0 else (d ++ a : DWord).extractLsb' (8 * g) 8

/-- The integer instructions of MAJ 0x00 (R164-R166). -/
inductive IntRow : Instr → LaneRow → Prop where
  | addI32 e d a b : IntRow (.addI32 e d a b) (row2 d a b fun x y => x + y)
  | subI32 e d a b : IntRow (.subI32 e d a b) (row2 d a b fun x y => x - y)
  | addcN32 e d a b : IntRow (.addcN32 e d a b)
      ⟨dab d a b, fun l => (l.put (l.ra + l.rb + BitVec.ofNat 32 (l.p 6 false).toNat)).setP 6 (BitVec.carry 32 l.ra l.rb (l.p 6 false))⟩
  | subbN32 e d a b : IntRow (.subbN32 e d a b)
      ⟨dab d a b, fun l => (l.put (l.ra - l.rb - BitVec.ofNat 32 (l.p 6 false).toNat)).setP 6 (decide (l.ra.toNat < l.rb.toNat + (l.p 6 false).toNat))⟩
  | mulI32 e d a b : IntRow (.mulI32 e d a b) (row2 d a b fun x y => x * y)
  | mulhiI32 e d a b : IntRow (.mulhiI32 e d a b) (row2 d a b fun x y => (x.signExtend 64 * y.signExtend 64).extractLsb' 32 32)
  | mulhiN32 e d a b : IntRow (.mulhiN32 e d a b) (row2 d a b fun x y => (x.setWidth 64 * y.setWidth 64).extractLsb' 32 32)
  | madI32 e d a b : IntRow (.madI32 e d a b) (row3 d a b fun z x y => x * y + z)
  | minI32 e d a b : IntRow (.minI32 e d a b) (row2 d a b fun x y => if y.slt x then y else x)
  | minN32 e d a b : IntRow (.minN32 e d a b) (row2 d a b fun x y => if y.ult x then y else x)
  | maxI32 e d a b : IntRow (.maxI32 e d a b) (row2 d a b fun x y => if x.slt y then y else x)
  | maxN32 e d a b : IntRow (.maxN32 e d a b) (row2 d a b fun x y => if x.ult y then y else x)
  | absI32 e d a : IntRow (.absI32 e d a) (row1 d a BitVec.abs)
  | negI32 e d a : IntRow (.negI32 e d a) (row1 d a fun x => -x)
  | andB32 e d a b : IntRow (.andB32 e d a b) (row2 d a b fun x y => x &&& y)
  | orB32 e d a b : IntRow (.orB32 e d a b) (row2 d a b fun x y => x ||| y)
  | xorB32 e d a b : IntRow (.xorB32 e d a b) (row2 d a b fun x y => x ^^^ y)
  | andnB32 e d a b : IntRow (.andnB32 e d a b) (row2 d a b fun x y => x &&& ~~~y)
  | notB32 e d a : IntRow (.notB32 e d a) (row1 d a fun x => ~~~x)
  | shlB32 e d a b : IntRow (.shlB32 e d a b) (row2 d a b fun x y => x <<< y.toNat)
  | shrB32 e d a b : IntRow (.shrB32 e d a b) (row2 d a b fun x y => x >>> y.toNat)
  | sarI32 e d a b : IntRow (.sarI32 e d a b) (row2 d a b fun x y => x.sshiftRight y.toNat)
  | rolB32 e d a b : IntRow (.rolB32 e d a b) (row2 d a b fun x y => x.rotateLeft y.toNat)
  | bfxN32 e d a b : IntRow (.bfxN32 e d a b) (row2 d a b fun x y => (x.extractLsb' (fieldPos y) (fieldLen y)).setWidth 32)
  | bfxI32 e d a b : IntRow (.bfxI32 e d a b) (row2 d a b fun x y => (x.extractLsb' (fieldPos y) (fieldLen y)).signExtend 32)
  | bfsB32 e d a b : IntRow (.bfsB32 e d a b) (row3 d a b fun z x y => (z &&& ~~~fieldMask y) ||| (x <<< fieldPos y &&& fieldMask y))
  | clzB32 e d a : IntRow (.clzB32 e d a) (row1 d a BitVec.clz)
  | popB32 e d a : IntRow (.popB32 e d a) (row1 d a BitVec.cpop)
  | brevB32 e d a : IntRow (.brevB32 e d a) (row1 d a BitVec.reverse)
  | bpermB32 e d a b : IntRow (.bpermB32 e d a b)
      (row3 d a b fun z x y => (permByte z x y 3 ++ permByte z x y 2 ++ permByte z x y 1 ++ permByte z x y 0 : Word))
  | movB32 e d a : IntRow (.movB32 e d a) (row1 d a fun x => x)
  | cmpI32 e p c a b : c.toNat < 6 → IntRow (.cmpI32 e p c a b) (rowCmp p a b (signedCond c.toNat))
  | cmpN32 e p c a b : c.toNat < 6 → IntRow (.cmpN32 e p c a b) (rowCmp p a b (unsignedCond c.toNat))
  | addI64 e d a b : IntRow (.addI64 e d a b) ⟨pairs d a b, fun l => l.put2 (l.pa + l.pb)⟩
  | subI64 e d a b : IntRow (.subI64 e d a b) ⟨pairs d a b, fun l => l.put2 (l.pa - l.pb)⟩
  | shlB64 e d a b : IntRow (.shlB64 e d a b)
      ⟨{ d := 2 * d.toNat, dn := 2, a := 2 * a.toNat, an := 2, b := b.toNat, bn := 1 }, fun l => l.put2 (l.pa <<< l.rb.toNat)⟩
  | shrB64 e d a b : IntRow (.shrB64 e d a b)
      ⟨{ d := 2 * d.toNat, dn := 2, a := 2 * a.toNat, an := 2, b := b.toNat, bn := 1 }, fun l => l.put2 (l.pa >>> l.rb.toNat)⟩

/-- The immediate of a unit as a word: its field extended by the unit's `hx` words (R139). -/
def LaneIn.imm (l : LaneIn) (i : BitVec 13) : Word := BitVec.ofNat 32 (l.x.simm i.toNat 13 32)

/-- The conditions of `cmpi`: those of R166, and the unsigned `ltn` and `gen` (R130, R167). -/
def immCond : Nat → Word → Word → Bool
  | 6 => fun a b => a.ult b
  | 7 => fun a b => b.ule a
  | c => signedCond c

/-- The pair at D as a tagged address whose high bits are given (R129). -/
def rowLea (d : BitVec 5) (a : BitVec 6) (hi : Word) : LaneRow :=
  ⟨{ d := 2 * d.toNat, dn := 2, a := a.toNat, an := 1 }, fun l => l.put2 (hi ++ l.ra)⟩

/-- The immediate and address instructions (R64, R129, R139, R167). -/
inductive ImmRow : Instr → LaneRow → Prop where
  | addi e d a i : ImmRow (.addi e d a i) ⟨da d a, fun l => l.put (l.ra + l.imm i)⟩
  | andi e d a i : ImmRow (.andi e d a i) ⟨da d a, fun l => l.put (l.ra &&& l.imm i)⟩
  | ori e d a i : ImmRow (.ori e d a i) ⟨da d a, fun l => l.put (l.ra ||| l.imm i)⟩
  | xori e d a i : ImmRow (.xori e d a i) ⟨da d a, fun l => l.put (l.ra ^^^ l.imm i)⟩
  | shli e d a n : ImmRow (.shli e d a n) (row1 d a fun x => x <<< n.toNat)
  | shri e d a n : ImmRow (.shri e d a n) (row1 d a fun x => x >>> n.toNat)
  | sari e d a n : ImmRow (.sari e d a n) (row1 d a fun x => x.sshiftRight n.toNat)
  | roli e d a n : ImmRow (.roli e d a n) (row1 d a fun x => x.rotateLeft n.toNat)
  | cmpi e p c a i : ImmRow (.cmpi e p c a i)
      ⟨{ a := a.toNat, an := 1 }, fun l => l.ln.t.setP p.toNat (immCond c.toNat l.ra (l.imm i))⟩
  | lim e d i : ImmRow (.lim e d i) ⟨dOnly d, fun l => l.put (BitVec.ofNat 32 (l.x.simm i.toNat 19 32))⟩
  | limB64 e d i : ImmRow (.limB64 e d i)
      ⟨{ d := 2 * d.toNat, dn := 2 }, fun l => l.put2 (BitVec.ofNat 64 (l.x.simm i.toNat 19 64))⟩
  | leaL e d a : ImmRow (.leaL e d a) (rowLea d a 0xF1000000)
  | leaD e d a : ImmRow (.leaD e d a) (rowLea d a 0xF2000000)
  | leaDDie e d a n : ImmRow (.leaDDie e d a n) (rowLea d a (0xF2000004 + n.setWidth 32))
  | leaS e d a : ImmRow (.leaS e d a) (rowLea d a 0xF3000000)

/-- The rounding mode of a unit that takes one: that of its `hmod`, else RNE (R105, R163). -/
def LaneIn.mode (l : LaneIn) : RMode := rmodeOf (l.x.rm.getD 0)

/-- D with a rounded result, and its flags joined to FLAGS (R111). -/
def LaneIn.putR (l : LaneIn) (r : Nat × Nat) : Thread := (l.ln.t.setReg l.d r.1).setFlags r.2

/-- Operands as FP32 values, and as the two packed values of a format. -/
def LaneIn.fa (l : LaneIn) : Fp := fp32.decode (l.ln.t.reg l.a)
def LaneIn.fb (l : LaneIn) : Fp := fp32.decode (l.ln.t.reg l.b)
def LaneIn.fd (l : LaneIn) : Fp := fp32.decode (l.ln.t.reg l.d)

/-- A packed operation on the low and the high halves of three words; the flags of both are joined (R168). -/
def halves (op : Nat → Nat → Nat → Nat × Nat) (d a b : Nat) : Nat × Nat :=
  let lo := op (d % 65536) (a % 65536) (b % 65536)
  let hi := op (d / 65536) (a / 65536) (b / 65536)
  (lo.1 + 65536 * hi.1, lo.2 ||| hi.2)

/-- D from the halves of D, A and B. -/
def rowHalves (d a b : BitVec 6) (op : RMode → Nat → Nat → Nat → Nat × Nat) : LaneRow :=
  ⟨dab d a b, fun l => l.putR (halves (op l.mode) (l.ln.t.reg l.d) (l.ln.t.reg l.a) (l.ln.t.reg l.b))⟩

/-- The value rounded once into a format, with NV where the operation is invalid (R106, R168). -/
def once (f : Fmt) (m : RMode) (v : Fp) (invalid : Nat) : Nat × Nat := ((f.round m v).1, (f.round m v).2 ||| invalid)

/-- The floating-point instructions of MAJ 0x01 and the conversions of MAJ 0x02 (R168-R174). -/
inductive FloatRow : Instr → LaneRow → Prop where
  | faddF32 e d a b : FloatRow (.faddF32 e d a b) ⟨dab d a b, fun l => l.putR (once fp32 l.mode (Fp.add (l.mode == .rdn) l.fa l.fb) (addNv l.fa l.fb))⟩
  | fsubF32 e d a b : FloatRow (.fsubF32 e d a b)
      ⟨dab d a b, fun l => l.putR (once fp32 l.mode (Fp.add (l.mode == .rdn) l.fa l.fb.negate) (addNv l.fa l.fb.negate))⟩
  | fmulF32 e d a b : FloatRow (.fmulF32 e d a b) ⟨dab d a b, fun l => l.putR (once fp32 l.mode (l.fa.mul l.fb) (mulNv l.fa l.fb))⟩
  | ffmaF32 e d a b : FloatRow (.ffmaF32 e d a b)
      ⟨dab d a b, fun l => l.putR (once fp32 l.mode (Fp.add (l.mode == .rdn) (l.fa.mul l.fb) l.fd) (mulNv l.fa l.fb ||| addNv (l.fa.mul l.fb) l.fd))⟩
  | fminF32 e d a b : FloatRow (.fminF32 e d a b) ⟨dab d a b, fun l => l.ln.t.setReg l.d (fminC fp32 (l.ln.t.reg l.a) (l.ln.t.reg l.b))⟩
  | fmaxF32 e d a b : FloatRow (.fmaxF32 e d a b) ⟨dab d a b, fun l => l.ln.t.setReg l.d (fmaxC fp32 (l.ln.t.reg l.a) (l.ln.t.reg l.b))⟩
  | fabsF32 e d a : FloatRow (.fabsF32 e d a) (row1 d a fun w => if fp32.decode w.toNat = .nan then 0x7FC00000 else w &&& 0x7FFFFFFF)
  | fnegF32 e d a : FloatRow (.fnegF32 e d a) (row1 d a fun w => if fp32.decode w.toNat = .nan then 0x7FC00000 else w ^^^ 0x80000000)
  | frcpF32 e d a : FloatRow (.frcpF32 e d a) ⟨da d a, fun l => l.putR (frcpR l.mode l.fa)⟩
  | frsqF32 e d a : FloatRow (.frsqF32 e d a) ⟨da d a, fun l => l.putR (frsqR l.mode l.fa)⟩
  | fsqrF32 e d a : FloatRow (.fsqrF32 e d a) ⟨da d a, fun l => l.putR (fsqrR l.mode l.fa)⟩
  | fex2F32 e d a : FloatRow (.fex2F32 e d a) ⟨da d a, fun l => l.putR (exp2Code (l.ln.t.reg l.a))⟩
  | flg2F32 e d a : FloatRow (.flg2F32 e d a) ⟨da d a, fun l => l.putR (flg2R l.mode l.fa)⟩
  | fcmpF32 e p c a b : FloatRow (.fcmpF32 e p c a b) ⟨ab a b, fun l => l.ln.t.setP p.toNat (fcmpC c.toNat (l.ln.t.reg l.a) (l.ln.t.reg l.b))⟩
  | fclsF32 e d a : FloatRow (.fclsF32 e d a) ⟨da d a, fun l => l.ln.t.setReg l.d (fclassC (l.ln.t.reg l.a))⟩
  | hadd2F16 e d a b : FloatRow (.hadd2F16 e d a b) (rowHalves d a b fun m _ x y => faddR fp16 m (fp16.decode x) (fp16.decode y))
  | hmul2F16 e d a b : FloatRow (.hmul2F16 e d a b) (rowHalves d a b fun m _ x y => fmulR fp16 m (fp16.decode x) (fp16.decode y))
  | hfma2F16 e d a b : FloatRow (.hfma2F16 e d a b) (rowHalves d a b fun m z x y => ffmaR fp16 m (fp16.decode x) (fp16.decode y) (fp16.decode z))
  | hmax2F16 e d a b : FloatRow (.hmax2F16 e d a b)
      ⟨dab d a b, fun l => l.ln.t.setReg l.d (halves (fun _ x y => (fmaxC fp16 x y, 0)) 0 (l.ln.t.reg l.a) (l.ln.t.reg l.b)).1⟩
  | hmin2F16 e d a b : FloatRow (.hmin2F16 e d a b)
      ⟨dab d a b, fun l => l.ln.t.setReg l.d (halves (fun _ x y => (fminC fp16 x y, 0)) 0 (l.ln.t.reg l.a) (l.ln.t.reg l.b)).1⟩
  | bfma2Bf16 e d a b : FloatRow (.bfma2Bf16 e d a b) (rowHalves d a b fun m z x y => ffmaR bf16 m (bf16.decode x) (bf16.decode y) (bf16.decode z))
  | fcvt e d a s t : FloatRow (.fcvt e d a s t) ⟨da d a, fun l => l.putR ((fmtOf t.toNat).round l.mode ((fmtOf s.toNat).decode (l.ln.t.reg l.a)))⟩
  | fcviI32 e d a s : FloatRow (.fcviI32 e d a s)
      ⟨da d a, fun l =>
        let r := roundInt l.mode (-2147483648) 2147483647 ((fmtOf s.toNat).decode (l.ln.t.reg l.a))
        (l.put (BitVec.ofInt 32 r.1)).setFlags r.2⟩
  | fcviN32 e d a s : FloatRow (.fcviN32 e d a s)
      ⟨da d a, fun l =>
        let r := roundInt l.mode 0 4294967295 ((fmtOf s.toNat).decode (l.ln.t.reg l.a))
        (l.put (BitVec.ofInt 32 r.1)).setFlags r.2⟩
  | icvfI32 e d a t : FloatRow (.icvfI32 e d a t) ⟨da d a, fun l => l.putR ((fmtOf t.toNat).round l.mode (Fp.ofInt l.ra.toInt 0 false))⟩
  | icvfN32 e d a t : FloatRow (.icvfN32 e d a t) ⟨da d a, fun l => l.putR ((fmtOf t.toNat).round l.mode (Fp.ofInt l.ra.toNat 0 false))⟩

/-- The registers of a group's lanes before the unit. -/
def laneRegs (x : Iss) (reg : Nat) : List Nat := x.g.members.map fun t => ((x.w.thread t).map fun (th : Thread) => th.reg reg).getD 0

/-- The quantisers (R173-R180). The group instructions run where the group is 32 active threads (R181). -/
inductive QuantRow (x : Iss) : Instr → LaneRow → Prop where
  | qcv e d a t : QuantRow x (.qcv e d a t)
      ⟨{ d := d.toNat, dn := 1, a := 2 * a.toNat, an := 2 }, fun l =>
        l.putR (quantise t.toNat l.mode (l.ln.t.reg (l.a + 1) % 256) (l.ln.t.reg (l.a + 1) / 256 % 256) l.fa)⟩
  | qcvs e d a t : QuantRow x (.qcvs e d a t)
      ⟨{ d := d.toNat, dn := 1, a := 4 * a.toNat, an := 7 }, fun l =>
        let r := fun n => l.ln.t.reg (l.a + n)
        let u := mix64 (r 4 + 4294967296 * r 5) (r 3 / 256 % 2 ^ 20) (r 6) (r 2 + 4294967296 * (r 3 % 256))
        l.putR (quantise t.toNat (.sr u) (r 1 % 256) (r 1 / 256 % 256) l.fa)⟩
  | qdq e d a s t : QuantRow x (.qdq e d a s t)
      ⟨{ d := d.toNat, dn := 1, a := 2 * a.toNat, an := 2 }, fun l =>
        let v := narrowValue s.toNat (l.ln.t.reg l.a % 2 ^ fmtBits s.toNat) (l.ln.t.reg (l.a + 1) % 256) (l.ln.t.reg (l.a + 1) / 256 % 256)
        l.putR ((fmtOf t.toNat).round l.mode v)⟩
  | qsc e d a t : x.g.members.length = 32 → x.active.length = 32 → QuantRow x (.qsc e d a t)
      ⟨da d a, fun l => l.ln.t.setReg l.d (blockScale t.toNat ((laneRegs x l.a).map fp32.decode))⟩
  | qox e d a b : x.g.members.length = 32 → x.active.length = 32 → QuantRow x (.qox e d a b)
      ⟨dab d a b, fun l => l.ln.t.setReg l.d (blockOutlier ((laneRegs x l.b).headD 0 % 256) ((laneRegs x l.a).map fp32.decode))⟩
  | pkh e d a b : QuantRow x (.pkh e d a b) (row2 d a b fun v w => (w.extractLsb' 0 16 ++ v.extractLsb' 0 16 : Word))

/-- D with a number. -/
def rowRead (d : BitVec 6) (f : LaneIn → Nat) : LaneRow := ⟨dOnly d, fun l => l.ln.t.setReg l.d (f l)⟩

/-- A predicate from others. -/
def rowPred (d : BitVec 3) (f : LaneIn → Bool) : LaneRow := ⟨{}, fun l => l.ln.t.setP d.toNat (f l)⟩

/-- No active lane's last atomic is the merge of a drain that is still under way, for which an acquire fence waits (R217, R267). -/
def LastPerformed (x : Iss) : Prop :=
  ∀ n ∈ x.active, ∀ th, x.w.thread n = some th → ∀ e ∈ x.k.copies, e.id = th.lastReq → e.st = .ended

/-- Predicates, selection and special registers, MAJ 0x03 (R182-R186), and the fences (R94, R212): an acquire makes known to the thread what
its last atomic saw, and a release turns its next relaxed atomic into one that releases. -/
inductive MiscRow (s : State) (x : Iss) : Instr → LaneRow → Prop where
  | pand e d a m b n : MiscRow s x (.pand e d a m b n) (rowPred d fun l => l.p a m && l.p b n)
  | por e d a m b n : MiscRow s x (.por e d a m b n) (rowPred d fun l => l.p a m || l.p b n)
  | pxor e d a m b n : MiscRow s x (.pxor e d a m b n) (rowPred d fun l => xor (l.p a m) (l.p b n))
  | pnot e d a m : MiscRow s x (.pnot e d a m) (rowPred d fun l => !l.p a m)
  | pmov e d a m : MiscRow s x (.pmov e d a m) (rowPred d fun l => l.p a m)
  | vmovpToReg e d : MiscRow s x (.vmovpToReg e d) (rowRead d fun l => 128 + l.ln.t.pred % 128)
  | vmovpToPreds e a : MiscRow s x (.vmovpToPreds e a) ⟨{ a := a.toNat, an := 1 }, fun l => { l.ln.t with pred := l.ln.t.reg l.a % 128 }⟩
  | tid e d : MiscRow s x (.sreg e d 0x000) (rowRead d fun l => l.ln.t.tid)
  | wgsize e d : MiscRow s x (.sreg e d 0x001) (rowRead d fun l => l.ln.g.lrec.wgsize)
  | blkx e d : MiscRow s x (.sreg e d 0x002) (rowRead d fun l => l.ln.w.block % l.ln.g.lrec.gx)
  | blky e d : MiscRow s x (.sreg e d 0x003) (rowRead d fun l => l.ln.w.block / l.ln.g.lrec.gx % l.ln.g.lrec.gy)
  | blkz e d : MiscRow s x (.sreg e d 0x004) (rowRead d fun l => l.ln.w.block / (l.ln.g.lrec.gx * l.ln.g.lrec.gy))
  | blk e d : MiscRow s x (.sreg e d 0x005) (rowRead d fun l => l.ln.w.block)
  | gx e d : MiscRow s x (.sreg e d 0x006) (rowRead d fun l => l.ln.g.lrec.gx)
  | gy e d : MiscRow s x (.sreg e d 0x007) (rowRead d fun l => l.ln.g.lrec.gy)
  | gz e d : MiscRow s x (.sreg e d 0x008) (rowRead d fun l => l.ln.g.lrec.gz)
  | nbm e d : MiscRow s x (.sreg e d 0x009) (rowRead d fun l => l.ln.w.m)
  | nbn e d : MiscRow s x (.sreg e d 0x00A) (rowRead d fun l => l.ln.w.members.length)
  | lane e d : MiscRow s x (.sreg e d 0x00B) (rowRead d fun l => l.ln.lane)
  | lanes e d : MiscRow s x (.sreg e d 0x00C) (rowRead d fun l => l.x.g.members.length)
  | actmask e d : MiscRow s x (.sreg e d 0x00D) (rowRead d fun l => l.x.mask l.x.active)
  | flags e d : MiscRow s x (.sreg e d 0x010) (rowRead d fun l => l.ln.t.flags)
  | flagsclr e d : MiscRow s x (.sreg e d 0x011) ⟨dOnly d, fun l => { l.ln.t.setReg l.d l.ln.t.flags with flags := 0 }⟩
  | c e d : MiscRow s x (.sreg e d 0x012) (rowRead d fun l => l.ln.t.c)
  | allot e d : MiscRow s x (.sreg e d 0x013) (rowRead d fun l => l.ln.g.kern.allot)
  | links e d : MiscRow s x (.sreg e d 0x014) (rowRead d fun l => l.ln.t.links)
  | core e d : MiscRow s x (.sreg e d 0x020) (rowRead d fun l => (l.ln.w.home.getD l.ln.r.core).core)
  | die e d : MiscRow s x (.sreg e d 0x021) (rowRead d fun l => (l.ln.w.home.getD l.ln.r.core).die)
  | pkg e d : MiscRow s x (.sreg e d 0x022) (rowRead d fun l => (l.ln.w.home.getD l.ln.r.core).pkg)
  | sched e d : MiscRow s x (.sreg e d 0x023) (rowRead d fun l => l.x.g.sched)
  | tnow e d : MiscRow s x (.tnow e d)
      ⟨{ d := 2 * d.toNat, dn := 3 }, fun l =>
        let clk := (s.pkg l.x.c.pkg).clock
        (l.ln.t.setSpan l.d 2 clk.ns).setReg (l.d + 2) (clk.frac % 65536)⟩
  | fenceAcq e : LastPerformed x → MiscRow s x (.fenceAcq e) ⟨{}, fun l => { l.ln.t with known := joinNat l.ln.t.known l.ln.t.lastSeen }⟩
  | fenceRel e : MiscRow s x (.fenceRel e) ⟨{}, fun l => { l.ln.t with fenceRel := true }⟩
  | fenceAr e : LastPerformed x → MiscRow s x (.fenceAr e) ⟨{}, fun l => { l.ln.t with known := joinNat l.ln.t.known l.ln.t.lastSeen, fenceRel := true }⟩
  | sel e d a b n q : MiscRow s x (.sel e d a b n q) ⟨dab d a b, fun l => l.put (if l.p q n then l.ra else l.rb)⟩

end Sys2Proof.Machine
end

