-- ==== Sys2Proof/Safety/Acts.lean ====
section
/-! DEFINITION. What the lanes of an instruction do whose effect goes beyond their own threads: one relation for each family, in the terms
of its rules, from the state before a lane's part to the state and the thread after it. The statements about these instructions are made
over these relations. -/

namespace Sys2Proof.Machine

/-- The lanes of a unit carried out in ascending order (R223), each as `R` says; a lane whose part is over is not carried out again. -/
inductive LaneSteps (x : Iss) (fs : Fields) (R : State → LaneIn → State → Thread → Prop) : List Nat → State → State → Prop where
  | nil s : LaneSteps x fs R [] s s
  | skip {s t l i is} : s.laneIn x fs i = some l → l.ln.t.pend = .done → LaneSteps x fs R is s t → LaneSteps x fs R (i :: is) s t
  | step {s t u l v i is} : s.laneIn x fs i = some l → l.ln.t.pend ≠ .done → fs.within l.ln.t.c none = true → R s l u v →
      LaneSteps x fs R is (u.modThread x.c x.g.wslot i fun _ => { v with pend := .done }) t → LaneSteps x fs R (i :: is) s t

/-- The state after the lanes of a list have been carried out in ascending order (R223), each as `does` gives it from the state the lanes before
left. -/
def lanesDo (x : Iss) (fs : Fields) (does : State → LaneIn → State × Thread) : List Nat → State → State
  | [], s => s
  | i :: is, s => match s.laneIn x fs i with
    | none => lanesDo x fs does is s
    | some l => lanesDo x fs does is ((does s l).1.modThread x.c x.g.wslot i fun _ => (does s l).2)

/-- Whether every lane of a list may act as `does` says, each in the state that the lanes before it leave: its registers lie below its allotment
(R45), and `may` holds of it. -/
def LanesMay (x : Iss) (fs : Fields) (may : State → LaneIn → Prop) (does : State → LaneIn → State × Thread) : List Nat → State → Prop
  | [], _ => True
  | i :: is, s => ∃ l, s.laneIn x fs i = some l ∧ l.ln.t.pend ≠ .done ∧ fs.within l.ln.t.c none = true ∧ may s l ∧
      LanesMay x fs may does is ((does s l).1.modThread x.c x.g.wslot i fun _ => (does s l).2)

/-- A lane's part that is over (R223). -/
def laneOver (does : State → LaneIn → State × Thread) (s : State) (l : LaneIn) : State × Thread := ((does s l).1, { (does s l).2 with pend := .done })

/-- A unit without `hrep` whose active lanes may all act as `does` says. -/
structure MayUnit (x : Iss) (fs : Fields) (may : State → LaneIn → Prop) (does : State → LaneIn → State × Thread) (s : State) : Prop where
  issues : Issues s x
  single : x.g.hint.hrep = none
  lanes : LanesMay x fs may does x.active s

/-- What a unit is in that the lanes carry out one after the other, without `hrep`, from one state to another. -/
structure ActUnit (x : Iss) (fs : Fields) (R : State → LaneIn → State → Thread → Prop) (s u : State) : Prop where
  issues : Issues s x
  single : x.g.hint.hrep = none
  lanes : LaneSteps x fs R x.active s u

/-! ### Loads and stores (R205) -/

/-- A load or store: its space, whether it stores, its size code, its register, its base register, its lookahead and its offset. -/
structure Access where
  sp : Spc
  store : Bool
  sz : Nat
  reg : Nat
  base : Nat
  la : Nat
  off : Nat

/-- The loads and stores of MAJ 0x10-0x15. -/
def accessOf : Instr → Option Access
  | .ldl _ d b s l o => some { sp := .l, store := false, sz := s.toNat, reg := d.toNat, base := b.toNat, la := l.toNat, off := o.toNat }
  | .stl _ r b z o => some { sp := .l, store := true, sz := z.toNat, reg := r.toNat, base := b.toNat, la := 0, off := o.toNat }
  | .ldd _ d b s l o => some { sp := .d, store := false, sz := s.toNat, reg := d.toNat, base := b.toNat, la := l.toNat, off := o.toNat }
  | .std _ r b z o => some { sp := .d, store := true, sz := z.toNat, reg := r.toNat, base := b.toNat, la := 0, off := o.toNat }
  | .lds _ d b s l o => some { sp := .s, store := false, sz := s.toNat, reg := d.toNat, base := b.toNat, la := l.toNat, off := o.toNat }
  | .sts _ r b z o => some { sp := .s, store := true, sz := z.toNat, reg := r.toNat, base := b.toNat, la := 0, off := o.toNat }
  | _ => none

namespace Access

/-- The bytes of the access and the registers of its data (R132). -/
def bytes (a : Access) : Nat := if a.sz = 0 ∨ a.sz = 5 then 1 else if a.sz = 1 ∨ a.sz = 6 then 2 else if a.sz = 2 then 4 else if a.sz = 3 then 8 else 16
def regs (a : Access) : Nat := if a.sz = 3 then 2 else if a.sz = 4 then 4 else 1

/-- The register fields. -/
def fields (a : Access) : Fields := { d := a.reg, dn := a.regs, a := a.base, an := 1 }

/-- The offset in the space (R121, R205). -/
def offset (a : Access) (l : LaneIn) : Nat := (l.ln.t.reg l.a + (l.x.ext a.off 6).1 * a.bytes) % 2 ^ 32

/-- Where an access of a lane goes: the checks of R205 and the place of its bytes. -/
def place (a : Access) (s : State) (l : LaneIn) : State × Except Stop Loc :=
  s.reach l.ln (plainTgt a.sp l.ln.r.core.die (a.offset l)) (plainTag a.sp (a.offset l)) a.bytes (if a.store then .write else .read)

/-- The value that a load puts into its registers: the signed sizes extend to 32 bits (R205). -/
def loaded (a : Access) (m : Nat) : Nat :=
  if a.sz = 5 then ((BitVec.ofNat 8 m).signExtend 32).toNat else if a.sz = 6 then ((BitVec.ofNat 16 m).signExtend 32).toNat else m

/-- One lane: a store writes its registers' bytes; a load writes its registers, at once or when its window closes (R144). -/
inductive Lane (a : Access) (s : State) (l : LaneIn) : State → Thread → Prop where
  | store {u loc} : a.store = true → a.place s l = (u, .ok loc) → Lane a s l (u.writeLoc loc a.bytes (l.ln.t.span l.d a.regs)) l.ln.t
  | load {u loc} : a.store = false → a.la = 0 → a.place s l = (u, .ok loc) →
      Lane a s l u (l.ln.t.setSpan l.d a.regs (a.loaded (u.readLoc loc a.bytes)))
  | ahead {u loc} : a.store = false → a.la ≠ 0 → a.place s l = (u, .ok loc) →
      Lane a s l u { l.ln.t with
        owed := l.ln.t.owed ++ [{ reg := l.d, cnt := a.regs, left := a.la, value := some (a.loaded (u.readLoc loc a.bytes)), id := 0 }] }

/-- Whether a unit of the access finds its lines and translations in the core's caches, or has waited for them (R40, R60, R206). -/
def present (a : Access) (s : State) (x : Iss) : Prop := x.g.fillOk = true ∨
  cacheMisses s x a.sp a.bytes a.off a.base = [] ∧
    xlateMisses s x a.fields a.bytes (fun l => some (plainTgt a.sp l.ln.r.core.die (plainOff x (l.ln.t.reg l.a) a.off a.bytes))) = []

/-- The lanes of a store in ascending order, with the places they store to: each as `place` gives it from the state the lanes before left,
none of them L of a context that is not at its core. -/
inductive Stores (a : Access) (x : Iss) : List Nat → State → State → List Loc → Prop where
  | nil s : Stores a x [] s s []
  | skip {s t l i is ls} : s.laneIn x a.fields i = some l → l.ln.t.pend = .done → Stores a x is s t ls → Stores a x (i :: is) s t ls
  | step {s t u l loc i is ls} : s.laneIn x a.fields i = some l → l.ln.t.pend ≠ .done → a.fields.within l.ln.t.c none = true →
      a.place s l = (u, .ok loc) → (∀ c g o, loc = .l c g o → (u.place c g).isSome) →
      Stores a x is ((u.writeLoc loc a.bytes (l.ln.t.span l.d a.regs)).modThread x.c x.g.wslot i fun _ => { l.ln.t with pend := .done }) t ls →
      Stores a x (i :: is) s t (loc :: ls)

end Access

/-! ### Atomics (R207-R211) -/

/-- An atomic: its operation, order and lookahead, and its register fields. -/
structure Atomic where
  op : Nat
  ord : Nat
  la : Nat
  fs : Fields

/-- The fields of an atomic of registers, and of the wide forms. -/
def atom1 (d : BitVec 6) (a : BitVec 5) (b : BitVec 6) : Fields := { d := d.toNat, dn := 1, a := 2 * a.toNat, an := 2, b := b.toNat, bn := 1 }

/-- The atomics of MAJ 0x16-0x1C (R208). -/
def atomicOf : Instr → Option Atomic
  | .atmAddI32 _ d a b l o => some ⟨0, o.toNat, l.toNat, atom1 d a b⟩
  | .atmAddF32 _ d a b l o => some ⟨1, o.toNat, l.toNat, atom1 d a b⟩
  | .atmMaxI32 _ d a b l o => some ⟨2, o.toNat, l.toNat, atom1 d a b⟩
  | .atmMaxN32 _ d a b l o => some ⟨3, o.toNat, l.toNat, atom1 d a b⟩
  | .atmMinI32 _ d a b l o => some ⟨4, o.toNat, l.toNat, atom1 d a b⟩
  | .atmMinN32 _ d a b l o => some ⟨5, o.toNat, l.toNat, atom1 d a b⟩
  | .atmAmaxF32 _ d a b l o => some ⟨6, o.toNat, l.toNat, atom1 d a b⟩
  | .atmAnd _ d a b l o => some ⟨7, o.toNat, l.toNat, atom1 d a b⟩
  | .atmOr _ d a b l o => some ⟨8, o.toNat, l.toNat, atom1 d a b⟩
  | .atmXor _ d a b l o => some ⟨9, o.toNat, l.toNat, atom1 d a b⟩
  | .atmSwp _ d a b l o => some ⟨10, o.toNat, l.toNat, atom1 d a b⟩
  | .atmCasB32 _ d a b l o => some ⟨11, o.toNat, l.toNat, { d := d.toNat, dn := 1, a := 2 * a.toNat, an := 2, b := 2 * b.toNat, bn := 2 }⟩
  | .atmAddI64 _ d a b l o => some ⟨12, o.toNat, l.toNat, { d := 2 * d.toNat, dn := 2, a := 2 * a.toNat, an := 2, b := 2 * b.toNat, bn := 2 }⟩
  | .atmCasB64 _ d a b l o => some ⟨13, o.toNat, l.toNat, { d := 2 * d.toNat, dn := 2, a := 2 * a.toNat, an := 2, b := 4 * b.toNat, bn := 4 }⟩
  | _ => none

namespace Atomic

/-- The bytes of the operation: the 64-bit ones have 8 (R208). -/
def bytes (a : Atomic) : Nat := if a.op = 12 ∨ a.op = 13 then 8 else 4

/-- The virtual address of an atomic in G, 0 in D. -/
def va (l : LaneIn) : Nat := match atomTgt l.ln (l.ln.t.pair l.a) with
  | some (.inG v) => v
  | _ => 0

/-- Whether the lane's atomic releases and acquires (R93, R133): by its order, and after a `fence.rel`. -/
def releases (a : Atomic) (t : Thread) : Bool := a.ord == 2 || a.ord == 3 || (a.ord == 0 && t.fenceRel)
def acquires (a : Atomic) : Bool := a.ord == 1 || a.ord == 3

/-- The operands of one lane as its request carries them. -/
def lane (a : Atomic) (s : State) (l : LaneIn) (loc : Loc) : AtomLane :=
  let t := l.ln.t
  let rel := a.releases t
  let word := Obj.word (match loc with | .g _ => .g (va l) | y => y) a.bytes
  { tid := t.tid, b := if a.bytes = 8 then t.pair l.b else t.reg l.b,
    w := if a.op = 11 then t.reg (l.b + 1) else if a.op = 13 then t.pair (l.b + 2) else 0,
    rel := rel, acq := a.acquires, carries := if rel then State.ownChanges l.ln else [], copies := if rel then s.heldBy l.ln word else [],
    atoms := if rel then s.atomsBound l.ln word else [] }

/-- One lane: its operands join the request of this instruction for its location, and its result is owed (R144, R210). -/
inductive Lane (a : Atomic) (base : Nat) (s : State) (l : LaneIn) : State → Thread → Prop where
  | asks {u loc v id} : atomReach s l.ln (l.ln.t.pair l.a) a.bytes = (u, .ok loc) →
      joinAtomic u base a.op a.ord a.bytes l.ln.r l.ln.g.handle loc (va l) (a.lane u l loc) = (v, id) →
      Lane a base s l v { l.ln.t with
        fenceRel := false, lastReq := id, lastSeen := [],
        owed := l.ln.t.owed ++ [{ reg := l.d, cnt := if a.bytes = 8 then 2 else 1, left := a.la, value := none, id := id }] }

/-- No lane's access waits for a translation, for the hypervisor or for a line that an engine owns (R40, R91, R407). -/
def unblocked (a : Atomic) (s : State) (x : Iss) : Prop :=
  (x.g.fillOk = true ∨ xlateMisses s x a.fs a.bytes (fun l => atomTgt l.ln (l.ln.t.pair l.a)) = []) ∧
  ∀ i ∈ x.active, ∀ l, s.laneIn x a.fs i = some l → ∀ u e, atomReach s l.ln (l.ln.t.pair l.a) a.bytes = (u, .error e) →
    e ≠ .owned ∧ ∀ va ipa k, e ≠ .stage2 va ipa k

end Atomic

/-! ### Phasers (R219-R230) -/

/-- The register fields of the phaser instructions. -/
def phFields : Instr → Fields
  | .phal _ d => dOnly d
  | .phfr _ a | .phdr _ a | .phsg _ a | .phin _ a => { a := a.toNat, an := 1 }
  | .phrg _ a b => ab a b
  | .phwt _ d a | .phsw _ d a => da d a
  | .phex _ a b => { a := a.toNat, an := 1, b := 2 * b.toNat, bn := 2 }
  | .phqy _ d a => { d := 2 * d.toNat, dn := 2, a := a.toNat, an := 1 }
  | _ => {}

/-- The phaser instructions. -/
def isPhaser : Instr → Bool
  | .phal .. | .phfr .. | .phdr .. | .phsg .. | .phin .. | .phrg .. | .phwt .. | .phsw .. | .phex .. | .phqy .. => true
  | _ => false

/-- The phaser that v(A) of a lane names, which is not the barrier (R219, R226). -/
def NamesPh (s : State) (l : LaneIn) (p : Phaser) : Prop := s.phaserOf l.ln (l.ln.t.reg l.a) = some p ∧ l.ln.t.reg l.a ≠ 0

/-- One lane of a phaser instruction that ends at once (R224, R225); a `phsw` does so where its signal completes the phase. -/
inductive PhLane : Instr → State → LaneIn → State → Thread → Prop where
  | alloc {e d s l h n} : s.freeHandle l.ln.g.handle = some h → s.freePhaserIdx l.ln.r.core.pkg l.ln.r.core.die = some n →
      PhLane (.phal e d) s l (s.addPhaser l.ln.r.core.pkg l.ln.r.core.die h l.ln.g.handle none []) (l.ln.t.setReg l.d h)
  | none {e d s l} : s.freeHandle l.ln.g.handle = none ∨ s.freePhaserIdx l.ln.r.core.pkg l.ln.r.core.die = none →
      PhLane (.phal e d) s l s (l.put 0xFFFFFFFF)
  | free {e a s l p} : NamesPh s l p → 0x8000 ≤ l.ln.t.reg l.a →
      PhLane (.phfr e a) s l ((s.unbindPhaser l.ln.g.handle p l.ln.r).freePhaser p.key)
        (nowT ((s.unbindPhaser l.ln.g.handle p l.ln.r).freePhaser p.key) l)
  | register {e a b s l p} : NamesPh s l p → 1 ≤ l.ln.t.reg l.b → l.ln.t.reg l.b ≤ 3 →
      (p.member l.ln.r).isSome ∨ p.members.length < (if p.owner.isSome then 1024 else 65536) →
      PhLane (.phrg e a b) s l (s.register p.key l.ln.r l.ln.g.handle (l.ln.t.reg l.b))
        (nowT (s.register p.key l.ln.r l.ln.g.handle (l.ln.t.reg l.b)) l)
  | deregister {e a s l p} : NamesPh s l p → PhLane (.phdr e a) s l (s.deregister p.key l.ln.r) (nowT (s.deregister p.key l.ln.r) l)
  | signal {e a s l p m} : NamesPh s l p → (∀ r, l.ln.t.pend ≠ .waited r) → p.member l.ln.r = some m → maySignal p l.ln.r = true → phLt p.phase m.sp = false →
      s.heldRelease l.ln p.obj = false → PhLane (.phsg e a) s l (s.countSignal p.key l.ln.r) (nowT (s.countSignal p.key l.ln.r) l)
  | signalled {e a s l r} : l.ln.t.pend = .waited r → PhLane (.phsg e a) s l s l.ln.t
  | wait {e d a s l p u r} : NamesPh s l p → l.ln.t.pend = .none → mayWait p l.ln.r = true → copyReport s l p = Option.none →
      s.beginWait p.key l.ln.r = (u, some r) → PhLane (.phwt e d a) s l u { ((nowT u l).setReg l.d r).signalMet l.x.upc with pend := .none }
  | waited {e d a s l r} : l.ln.t.pend = .waited r → PhLane (.phwt e d a) s l s (l.ln.t.setReg l.d r)
  | met {e d a s l r} : l.ln.t.pend = .waited r → PhLane (.phsw e d a) s l s ((l.ln.t.setReg l.d r).signalMet l.x.upc)
  | together {e d a s l p q m u v r} : s.phaserOf l.ln (l.ln.t.reg l.a) = some p → l.ln.t.pend = .none → l.ln.t.signalled l.x.upc = false →
      p.member l.ln.r = some m → maySignal p l.ln.r = true → mayWait p l.ln.r = true → copyReport s l p = Option.none →
      phLt p.phase m.sp = false → s.heldRelease l.ln p.obj = false → phArrive s l p = (u, false) →
      (phSignal u l p).phaser p.key = some q → (phSignal u l p).beginWait q.key l.ln.r = (v, some r) →
      PhLane (.phsw e d a) s l v { ((nowT v l).setReg l.d r).signalMet l.x.upc with pend := .none }
  | expect {e a b s l p} : NamesPh s l p → p.pending + ((l.ln.t.pair l.b % 2 ^ 56 : Nat) : Int) < 2 ^ 55 →
      PhLane (.phex e a b) s l
        ((s.modPhaser p.key fun p => { p with pending := p.pending + ((l.ln.t.pair l.b % 2 ^ 56 : Nat) : Int), phexd := true }).tryComplete p.key)
        (nowT ((s.modPhaser p.key fun p => { p with pending := p.pending + ((l.ln.t.pair l.b % 2 ^ 56 : Nat) : Int), phexd := true }).tryComplete p.key) l)
  | query {e d a s l p} : s.phaserOf l.ln (l.ln.t.reg l.a) = some p →
      PhLane (.phqy e d a) s l s (l.ln.t.setSpan l.d 2 (p.phase % 2 ^ 32 + 2 ^ 32 *
        (p.opening.toNat + (if p.pending = 0 then 0 else 2) + p.marks % 4 * 4 + min p.signallers 0xFFFF * 2 ^ 16)))
  | init {e a s l p} : NamesPh s l p → p.busy = false → PhLane (.phin e a) s l (s.reinit p.key) l.ln.t

/-- When one lane of a phaser instruction ends at once, by the state and its registers alone (R222-R228): its handle names a phaser that the
instruction may act on, the thread is registered in the mode that it needs, its signal is due and not held for its copies, and the phase that it
waits for has completed, or completes with its signal. -/
def phMay : Instr → State → LaneIn → Prop
  | .phal _ _, _, _ => True
  | .phfr _ _, s, l => ∃ p, NamesPh s l p ∧ 0x8000 ≤ l.ln.t.reg l.a
  | .phrg _ _ _, s, l => ∃ p, NamesPh s l p ∧ 1 ≤ l.ln.t.reg l.b ∧ l.ln.t.reg l.b ≤ 3 ∧
      ((p.member l.ln.r).isSome ∨ p.members.length < (if p.owner.isSome then 1024 else 65536))
  | .phdr _ _, s, l => ∃ p, NamesPh s l p
  | .phsg _ _, s, l => (∃ r, l.ln.t.pend = .waited r) ∨ l.ln.t.pend = .none ∧ ∃ p m, NamesPh s l p ∧ p.member l.ln.r = some m ∧
      maySignal p l.ln.r = true ∧ phLt p.phase m.sp = false ∧ s.heldRelease l.ln p.obj = false
  | .phwt _ _ _, s, l => (∃ r, l.ln.t.pend = .waited r) ∨ l.ln.t.pend = .none ∧ ∃ p m, NamesPh s l p ∧ s.phaser p.key = some p ∧
      p.member l.ln.r = some m ∧ mayWait p l.ln.r = true ∧ copyReport s l p = none ∧ phLt m.wp p.phase = true
  | .phsw _ _ _, s, l => (∃ r, l.ln.t.pend = .waited r) ∨ l.ln.t.pend = .none ∧ l.ln.t.signalled l.x.upc = false ∧
      ∃ p m q n, s.phaserOf l.ln (l.ln.t.reg l.a) = some p ∧ p.member l.ln.r = some m ∧ maySignal p l.ln.r = true ∧ mayWait p l.ln.r = true ∧
        copyReport s l p = none ∧ phLt p.phase m.sp = false ∧ s.heldRelease l.ln p.obj = false ∧ (phArrive s l p).2 = false ∧
        (phSignal (phArrive s l p).1 l p).phaser p.key = some q ∧ q.member l.ln.r = some n ∧ phLt n.wp q.phase = true
  | .phex _ _ _, s, l => ∃ p, NamesPh s l p ∧ p.pending + ((l.ln.t.pair l.b % 2 ^ 56 : Nat) : Int) < 2 ^ 55
  | .phqy _ _ _, s, l => ∃ p, s.phaserOf l.ln (l.ln.t.reg l.a) = some p
  | .phin _ _, s, l => ∃ p, NamesPh s l p ∧ p.busy = false
  | _, _, _ => False

/-- The thread's wait on a phaser whose phase has completed: the result in D, and the phase's releases observed (R83, R224, R225). -/
def phResult (s : State) (l : LaneIn) (p : Phaser) : State × Thread :=
  let r := s.beginWait p.key l.ln.r
  (r.1, { ((nowT r.1 l).setReg l.d (r.2.getD 0)).signalMet l.x.upc with pend := .none })

/-- What such a lane does, in the terms of R222-R228: the state and the thread after it. -/
def phDoes (i : Instr) (s : State) (l : LaneIn) : State × Thread :=
  let keep := fun (u : State) => (u, nowT u l)
  match i, l.ln.t.pend, s.phaserOf l.ln (l.ln.t.reg l.a) with
  | .phal _ _, _, _ =>
    match s.freeHandle l.ln.g.handle, s.freePhaserIdx l.ln.r.core.pkg l.ln.r.core.die with
    | some h, some _ => (s.addPhaser l.ln.r.core.pkg l.ln.r.core.die h l.ln.g.handle none [], l.ln.t.setReg l.d h)
    | _, _ => (s, l.put 0xFFFFFFFF)
  | .phsg _ _, .waited _, _ => (s, l.ln.t)
  | .phwt _ _ _, .waited r, _ => (s, l.ln.t.setReg l.d r)
  | .phsw _ _ _, .waited r, _ => (s, (l.ln.t.setReg l.d r).signalMet l.x.upc)
  | .phfr _ _, _, some p => keep ((s.unbindPhaser l.ln.g.handle p l.ln.r).freePhaser p.key)
  | .phrg _ _ _, _, some p => keep (s.register p.key l.ln.r l.ln.g.handle (l.ln.t.reg l.b))
  | .phdr _ _, _, some p => keep (s.deregister p.key l.ln.r)
  | .phsg _ _, _, some p => keep (s.countSignal p.key l.ln.r)
  | .phwt _ _ _, _, some p => phResult s l p
  | .phsw _ _ _, _, some p => let u := phSignal (phArrive s l p).1 l p
                              phResult u l ((u.phaser p.key).getD p)
  | .phex _ _ _, _, some p =>
    keep ((s.modPhaser p.key fun p => { p with pending := p.pending + ((l.ln.t.pair l.b % 2 ^ 56 : Nat) : Int), phexd := true }).tryComplete p.key)
  | .phqy _ _ _, _, some p => (s, l.ln.t.setSpan l.d 2 (p.phase % 2 ^ 32 + 2 ^ 32 *
      (p.opening.toNat + (if p.pending = 0 then 0 else 2) + p.marks % 4 * 4 + min p.signallers 0xFFFF * 2 ^ 16)))
  | .phin _ _, _, some p => (s.reinit p.key, l.ln.t)
  | _, _, _ => (s, l.ln.t)

/-! ### Bindings, drains and copies (R213-R218, R231-R234) -/

/-- The register fields of the instructions of this part. -/
def syncFields : Instr → Fields
  | .bind _ a b => { a := 4 * a.toNat, an := 4, b := 2 * b.toNat, bn := 2 }
  | .bindx _ a b => { a := 4 * a.toNat, an := 4, b := 4 * b.toNat, bn := 4 }
  | .unbind _ a => { a := 2 * a.toNat, an := 2 }
  | .cpy _ x y z _ | .cpy2 _ x y z _ | .cpyg _ x y z _ | .cpys _ x y z _ | .cpyr _ x y z _ _ =>
    { d := 2 * x.toNat, dn := 2, a := 2 * y.toNat, an := 2, b := 8 * z.toNat, bn := 8 }
  | _ => {}

/-- A binding instruction, and the space that a `drain` names. -/
def isBinding : Instr → Bool
  | .bind .. | .bindx .. | .unbind .. => true
  | _ => false
def drainSpace : Instr → Option Spc
  | .drainL _ => some .l
  | .drainD _ => some .d
  | .drainS _ => some .s
  | .drainG _ => some .g
  | _ => none

/-- A copy instruction's subcode, format field and the register of its descriptor (R231). -/
def copyOp : Instr → Option (Nat × Nat × Nat)
  | .cpy _ _ _ z f => some (0, f.toNat, 8 * z.toNat)
  | .cpy2 _ _ _ z f => some (1, f.toNat, 8 * z.toNat)
  | .cpyg _ _ _ z f => some (2, f.toNat, 8 * z.toNat)
  | .cpys _ _ _ z f => some (3, f.toNat, 8 * z.toNat)
  | .cpyr _ _ _ z o f => some (4, 4 * o.toNat + f.toNat, 8 * z.toNat)
  | _ => none

/-- The instructions of this part. -/
def isSync (i : Instr) : Bool := isBinding i || (drainSpace i).isSome || (copyOp i).isSome

/-- The eight descriptor registers of a lane's copy, and the bytes that it moves. -/
def copyDesc (l : LaneIn) (z : Nat) : List Nat := (List.range 8).map fun j => l.ln.t.reg (z + j)
def copyLen (sub : Nat) (v : List Nat) : Nat := (if sub = 0 ∨ sub = 4 then 1 else v.getD 1 0) * v.getD 0 0

/-- A copy as it enters its core's queue (R234): what it names, its count and its gate, and whether the gate's phase has completed already (R241). -/
def copyNew (s : State) (l : LaneIn) (sub f z : Nat) : CopyEntry :=
  let v := copyDesc l z
  let ph := fun h => if h = 0 then none else s.phaserOf l.ln h
  let past := (ph (v.getD 5 0)).any fun p => p.past (v.getD 6 0)
  { id := s.nextId, wslot := l.ln.r.wslot, tid := l.ln.t.tid, sub := sub, f := f, x := l.ln.t.pair l.d, y := l.ln.t.pair l.a, desc := v,
    st := if v.getD 5 0 = 0 then .active else .gated, pc := l.x.upc, cnt := (ph (v.getD 4 0)).map Phaser.uid, gate := (ph (v.getD 5 0)).map Phaser.uid,
    own := s.nextId, ready := past, acq := if past then ((ph (v.getD 5 0)).map fun p => p.carriedIn (v.getD 6 0)).getD [] else [] }

/-- The state with a copy entered in its core's queue: its engine begins, or its gate is watched. -/
def enterCopy (s : State) (l : LaneIn) (e : CopyEntry) : State :=
  (({ s with nextId := s.nextId + 1 } : State).modCtxAt l.ln.r.core l.ln.r.gen fun k => { k with copies := k.copies ++ [e] }).post
    (if e.st = .active then .copyLineWrite l.ln.r.core e.id else .copyGateOpen l.ln.r.core e.id)

/-- The registers of a `bind` or `bindx` (R213). -/
def bindRegs (i : Instr) (l : LaneIn) : Option BindRegs :=
  let t := l.ln.t
  match i with
  | .bind .. => some { base := t.pair l.a, size := t.reg (l.a + 2), count := 1, obj := t.pair l.b, stride := 0, kind := t.reg (l.a + 3) }
  | .bindx .. => some { base := t.pair l.a, size := t.reg (l.a + 2), count := t.reg (l.a + 3), obj := t.pair l.b, stride := t.reg (l.b + 2), kind := t.reg (l.b + 3) }
  | _ => none

/-- The spaces of a `bind` are right (R66, R214): its region lies in L, D or G, and its sync word in D or G. -/
def bindSpaces (l : LaneIn) (b : BindRegs) : Prop :=
  (regionTgt l.ln.r.core.die b.base).isSome ∧ (b.kind % 4 = 1 ∨ b.kind % 4 = 2 → (wordTgt l.ln.r.core.die b.obj).isSome)

/-- One lane of such an instruction: a binding instruction ends with its home's answer (R216), and a `bind` of no bytes at once; a `drain` ends
when the thread's copies to the space have ended (R218); a copy enters the core's queue (R234), and one of no bytes does nothing. -/
inductive SyncLane : Instr → State → LaneIn → State → Thread → Prop where
  | bound {i s l} : isBinding i = true → l.ln.t.pend = .answer 0 → SyncLane i s l s l.ln.t
  | drain {i s l sp k} : drainSpace i = some sp → s.ctxAt l.ln.r.core l.ln.r.gen = some k →
      (∀ e ∈ k.copies, e.wslot = l.ln.r.wslot → e.tid = l.ln.r.tid → spaceOf l.ln.r.core.die e.x = some sp →
        e.st = .ended ∧ (e.detail = 0 ∨ e.reported = true ∨ e.cnt.isSome)) → SyncLane i s l s l.ln.t
  | empty {i s l sub f z} : copyOp i = some (sub, f, z) → s.checkCopy l.ln sub f (l.ln.t.pair l.d) (l.ln.t.pair l.a) (copyDesc l z) = .fine →
      copyLen sub (copyDesc l z) = 0 → SyncLane i s l s l.ln.t
  | copy {i s l sub f z k} : copyOp i = some (sub, f, z) →
      s.checkCopy l.ln sub f (l.ln.t.pair l.d) (l.ln.t.pair l.a) (copyDesc l z) = .fine → copyLen sub (copyDesc l z) ≠ 0 →
      s.ctxAt l.ln.r.core l.ln.r.gen = some k → State.queued k < 64 →
      SyncLane i s l
        (enterCopy s l (copyNew s l sub f z)) l.ln.t
  | nothing {i s l b} : bindRegs i l = some b → l.ln.t.pend = .none → bindSpaces l b → b.size = 0 ∨ b.count = 0 → SyncLane i s l s l.ln.t

/-- When one lane of such an instruction ends at once, by the state and its registers alone: a `bind` whose home has answered 0, or that names no
bytes (R213, R216); a `drain` whose copies to the space have ended with nothing to report (R218, R243); a copy that passes the checks of R233
and R240 and finds room in the core's queue, or moves nothing (R234). -/
def syncMay (i : Instr) (s : State) (l : LaneIn) : Prop :=
  (isBinding i = true ∧ l.ln.t.pend = .answer 0) ∨
  (∃ b, bindRegs i l = some b ∧ l.ln.t.pend = .none ∧ bindSpaces l b ∧ (b.size = 0 ∨ b.count = 0)) ∨
  (∃ sp k, drainSpace i = some sp ∧ s.ctxAt l.ln.r.core l.ln.r.gen = some k ∧
    ∀ e ∈ k.copies, e.wslot = l.ln.r.wslot → e.tid = l.ln.r.tid → spaceOf l.ln.r.core.die e.x = some sp →
      e.st = .ended ∧ (e.detail = 0 ∨ e.reported = true ∨ e.cnt.isSome)) ∨
  (∃ sub f z k, copyOp i = some (sub, f, z) ∧ s.checkCopy l.ln sub f (l.ln.t.pair l.d) (l.ln.t.pair l.a) (copyDesc l z) = .fine ∧
    s.ctxAt l.ln.r.core l.ln.r.gen = some k ∧ State.queued k < 64)

/-- What such a lane does: only a copy that moves bytes does anything (R234). -/
def syncDoes (i : Instr) (s : State) (l : LaneIn) : State × Thread :=
  match copyOp i with
  | some (sub, f, z) => if copyLen sub (copyDesc l z) = 0 then (s, l.ln.t) else (enterCopy s l (copyNew s l sub f z), l.ln.t)
  | none => (s, l.ln.t)

/-- The binding table entry that a `bind` or `bindx` asks its home for (R77, R213), malformed ones as KIND 3. -/
def bindEntry (s : State) (l : LaneIn) (b : BindRegs) (t : Tgt) : BindEntry :=
  let word := b.kind % 4 = 1 ∨ b.kind % 4 = 2
  { id := s.nextId, kind := if bindMalformed { s with nextId := s.nextId + 1 } l.ln b then 3 else b.kind % 4, stride := if b.kind % 4 = 0 then 0 else b.stride,
    obj := b.obj, count := b.count, size := b.size, base := b.base, launch := false, where_ := l.ln.r, at_ := bindLoc l.ln t,
    word := if word then bindLoc l.ln ((wordTgt l.ln.r.core.die b.obj).getD (.inG 0)) else none,
    ph := if b.kind % 4 = 0 then (s.phaserOf l.ln b.obj).map Phaser.key else none }

/-- When one lane of a binding instruction asks its home (R66, R214, R215): it has asked nothing yet, its region lies in L, D or G and its word in
D or G, and each within its space. -/
def askMay (i : Instr) (s : State) (l : LaneIn) : Prop :=
  l.ln.t.pend = .none ∧ match bindRegs i l with
    | some b => bindSpaces l b ∧ b.size ≠ 0 ∧ b.count ≠ 0 ∧
        (∀ t, regionTgt l.ln.r.core.die b.base = some t → s.spanOk l.ln t (b.size * b.count) = true) ∧
        (b.kind % 4 = 1 ∨ b.kind % 4 = 2 → ∀ w, wordTgt l.ln.r.core.die b.obj = some w →
          s.spanOk l.ln w ((b.count - 1) * b.stride + if b.kind % 4 = 1 then 4 else 8) = true)
    | none => isBinding i = true ∧ ∃ t, regionTgt l.ln.r.core.die (l.ln.t.pair l.a) = some t ∧ (bindLoc l.ln t).isSome

/-- What such a lane does: its request goes to the home, and it waits for the answer (R214, R216). -/
def askDoes (i : Instr) (s : State) (l : LaneIn) : State × Thread :=
  let send := fun (s : State) (k : ReqKind) =>
    (({ s with nextId := s.nextId + 1, reqs := s.reqs ++ [{ id := s.nextId, t := l.ln.r, kind := k }] } : State).post (.bindHomeOrder s.nextId),
     { l.ln.t with pend := .request s.nextId })
  match bindRegs i l with
  | some b => send { s with nextId := s.nextId + 1 } (.bind (bindEntry s l b ((regionTgt l.ln.r.core.die b.base).getD (.inG 0))))
  | none =>
    match (regionTgt l.ln.r.core.die (l.ln.t.pair l.a)).bind (bindLoc l.ln) with
    | some loc => send s (.unbind (l.ln.t.pair l.a) loc)
    | none => (s, l.ln.t)


/-! ### Privileged instructions (R345-R363) -/

/-- The lowest level that may execute a SYS instruction (R345), 0 for the others, and its register fields. -/
def sysLevel : Instr → Nat
  | .csrr .. | .csrw .. | .tlbi .. => 1
  | .phld .. | .dbgr .. | .halt .. | .ctxs .. | .ctxl .. => 2
  | .hzn .. => 3
  | _ => 0
def sysFields : Instr → Fields
  | .csrr _ d _ | .csrw _ d _ => dOnly d
  | .tlbi _ a b => { a := 2 * a.toNat, an := 2, b := b.toNat, bn := 1 }
  | .phld _ d a b => dab d a b
  | .hzn _ d a b => { d := d.toNat, dn := 1, a := 8 * a.toNat, an := 8, b := b.toNat, bn := 1 }
  | .dbgr _ d a => { d := 2 * d.toNat, dn := 2, a := 2 * a.toNat, an := 2 }
  | .halt _ d a b => { d := d.toNat, dn := 1, a := 2 * a.toNat, an := 2, b := b.toNat, bn := 1 }
  | .ctxs _ d a b | .ctxl _ d a b => { d := d.toNat, dn := 1, a := 2 * a.toNat, an := 2, b := 2 * b.toNat, bn := 2 }
  | _ => {}

/-- The instructions of core control, whose operands are those of the lowest active lane (R353). -/
def isControl : Instr → Bool
  | .halt .. | .ctxs .. | .ctxl .. => true
  | _ => false

/-- The phaser that a `phld` names by package, die and index (R359). -/
def phldKey (l : LaneIn) : Nat × Nat × Nat := ((l.ra.extractLsb' 23 9).toNat, (l.ra.extractLsb' 21 2).toNat, (l.ra.extractLsb' 0 16).toNat)

/-- The answer of the phaser operation: bit 8 tells whether it was held (R359). -/
def phldStatus (p : Phaser) : Nat := if p.held then 0x100 else 0

/-- A `tlbi`'s mode and the CID it covers, and the state without the entries that it covers (R358). -/
def tlbiMode (l : LaneIn) : Nat := (l.rb.extractLsb' 0 3).toNat
def tlbiCid (l : LaneIn) : Nat := l.ln.t.selp * 4096 + (l.rb.extractLsb' 16 12).toNat
def dropTlb (s : State) (l : LaneIn) : State :=
  { s with cores := s.cores.map fun (y : Core) =>
      { y with tlb := y.tlb.filter fun t => !tlbiHits (tlbiMode l) l.ln.t.selp (tlbiCid l) (l.ln.t.pair l.a) t } }

/-- One lane of a SYS instruction that is no core control. -/
inductive SysLane (x : Iss) : Instr → State → LaneIn → State → Thread → Prop where
  | csrr {e d n s l r w} : csrLevels n.toNat = some (r, w) → r ≤ x.grid.level →
      SysLane x (.csrr e d n) s l s (l.ln.t.setReg l.d (csrValue s x.c.pkg l.ln.g l.ln.t n.toNat))
  | select {e v s l} : maySelect s x.grid.level x.grid.part (l.ln.t.reg l.d % 16) = true →
      SysLane x (.csrw e v 2) s l s { l.ln.t with selp := l.ln.t.reg l.d % 16 }
  | csrw {e v n s l r w} : n ≠ 2 → csrLevels n.toNat = some (r, some w) → w ≤ x.grid.level →
      SysLane x (.csrw e v n) s l (writeCsr s x.c.pkg l.ln.t n.toNat (l.ln.t.reg l.d)) l.ln.t
  | tlbi {e a b s l} : l.rb.extractLsb' 3 13 = 0 → l.rb.extractLsb' 28 4 = 0 → tlbiMode l < 4 → (2 ≤ tlbiMode l → 2 ≤ x.grid.level) →
      tlbiBusy (dropTlb s l) (tlbiMode l) l.ln.t.selp (tlbiCid l) (l.ln.t.pair l.a) = false →
      SysLane x (.tlbi e a b) s l (dropTlb s l) l.ln.t
  | noPhaser {e d a b s l} : l.ra.extractLsb' 16 5 = 0 → l.ln.t.reg l.b < 2 → s.phaser (phldKey l) = none →
      SysLane x (.phld e d a b) s l s (l.put 5)
  | hold {e d a b s l p t} : l.ra.extractLsb' 16 5 = 0 → l.ln.t.reg l.b < 2 → s.phaser (phldKey l) = some p →
      maySelect s x.grid.level x.grid.part (((s.grid p.grid).map fun g => g.part).getD 0) = true →
      (s.holdPhaser (phldKey l) (l.ln.t.reg l.b == 1)).thread x.c x.g.wslot l.ln.t.tid = some t →
      SysLane x (.phld e d a b) s l (s.holdPhaser (phldKey l) (l.ln.t.reg l.b == 1)) (t.setReg l.d (phldStatus p))
  | hzn {e d a b s l u v} : hznWrite s x.c.pkg (l.ln.t.reg l.b) (BitVec.ofNat 256 (l.ln.t.span l.a 8)) = (u, v) →
      SysLane x (.hzn e d a b) s l u (l.ln.t.setReg l.d v)
  | dbgr {e d a s l v st gen} : aperture s x.grid.level (maySelect s x.grid.level x.grid.part) (l.ln.t.pair l.a) = .ok (v, st, gen) →
      SysLane x (.dbgr e d a) s l s (l.ln.t.setSpan l.d 2 ((if st = 0 then v else 0) + (st + gen * 65536) * 4294967296))

/-- What an instruction of core control does and the status it answers, with the operands of the lowest active lane (R353-R357). -/
inductive Control (x : Iss) : Instr → State → LaneIn → State → Nat → Prop where
  | free {e d a b s l c g} : selector s l = .ok (c, g) → bits (l.ln.t.reg l.b) 1 0 = 1 → isEmptyCore (s.core c) = true →
      Control x (.halt e d a b) s l ((s.modCore c fun z => { z with reserved := false }).postOnce (.neighbourhoodPlacement c.pkg c.die)) 0
  | haltGone {e d a b s l c g} : selector s l = .ok (c, g) → bits (l.ln.t.reg l.b) 1 0 < 2 → (bits (l.ln.t.reg l.b) 1 0 = 1 → isEmptyCore (s.core c) = false) →
      (∀ k, (s.core c).ctx = some k → k.gen ≠ g) → Control x (.halt e d a b) s l s 1
  | haltSelf {e d a b s l g k} : selector s l = .ok (x.c, g) → bits (l.ln.t.reg l.b) 1 0 < 2 → (s.core x.c).ctx = some k → k.gen = g →
      Control x (.halt e d a b) s l s 2
  | halted {e d a b s l c g k} : selector s l = .ok (c, g) → bits (l.ln.t.reg l.b) 1 0 = 0 → c ≠ x.c → (s.core c).ctx = some k → k.gen = g →
      (s.core c).isHalted k = true → Control x (.halt e d a b) s l s 0
  | runs {e d a b s l c g k} : selector s l = .ok (c, g) → bits (l.ln.t.reg l.b) 1 0 = 1 → c ≠ x.c → (s.core c).ctx = some k → k.gen = g →
      (k.st = .running ∨ ((s.core c).leaving = true ∧ (s.core c).swap.ran = true)) → Control x (.halt e d a b) s l s 0
  | resume {e d a b s l c g k} : selector s l = .ok (c, g) → bits (l.ln.t.reg l.b) 1 0 = 1 → c ≠ x.c → (s.core c).ctx = some k → k.gen = g →
      (s.core c).isHalted k = true → (s.core c).leaving = false →
      Control x (.halt e d a b) s l (restart (s.modCore c fun z => { z with reserved := false }) c) 0
  | resumeLater {e d a b s l c g k} : selector s l = .ok (c, g) → bits (l.ln.t.reg l.b) 1 0 = 1 → c ≠ x.c → (s.core c).ctx = some k → k.gen = g →
      (s.core c).isHalted k = true → (s.core c).leaving = true →
      Control x (.halt e d a b) s l (s.modCore c fun z => { z with reserved := false, swap := z.swap.withRan true }) 0
  | saveGone {e d a b s l c g} : selector s l = .ok (c, g) → (∀ k, (s.core c).ctx = some k → k.gen ≠ g) → Control x (.ctxs e d a b) s l s 1
  | saveBusy {e d a b s l c g k} : selector s l = .ok (c, g) → (s.core c).ctx = some k → k.gen = g →
      (s.core c).isHalted k = false → Control x (.ctxs e d a b) s l s 2
  | save {e d a b s l c g k pages} : selector s l = .ok (c, g) → (s.core c).ctx = some k → k.gen = g → (s.core c).isHalted k = true →
      l.ln.t.pair l.b % 65536 = 0 → areaMap plainPa (l.ln.t.pair l.b) 0 (areaPages (toArea s c k (l.ln.t.pair l.b)).2) = .ok pages →
      Control x (.ctxs e d a b) s l ((saveCtx s c k (l.ln.t.pair l.b) pages).modCore c fun z => { z with ctx := none, reserved := true }) 0
  | loadBusy {e d a b s l c g} : selector s l = .ok (c, g) → isEmptyCore (s.core c) = false → Control x (.ctxl e d a b) s l s 2
  | load {e d a b s l c g u k} : selector s l = .ok (c, g) → isEmptyCore (s.core c) = true → l.ln.t.pair l.b % 65536 = 0 →
      (s.saved.find? fun v => v.gen == g && v.pages.head? == some (l.ln.t.pair l.b) &&
        s.marks.any fun x => v.pages.any fun p => p ≤ 128 * x && 128 * x < p + 65536) = none →
      loadCtx s c g (l.ln.t.pair l.b) plainPa = (u, .ok k) → Control x (.ctxl e d a b) s l
        ((enterCore (u.modCore c fun z => { z with swap := z.swap.withRan false }) c k false).wakeRecalls) 0

end Sys2Proof.Machine
end

