-- ==== Sys2Proof/Safety/Ctrl.lean ====
section
/-! DEFINITION. What a unit does that moves its threads about: the pauses, the branches, calls and returns, the ends of threads, the sizes of
their windows, traps, the returns from handlers, and the hint words before a unit. -/

namespace Sys2Proof.Machine

/-! ### Pauses (R34, R193, R195, R196) -/

/-- A unit that passes with no effect but the end of its run: `nop`, `yield`, a `yield.pd` of no pending swap's PREEMPT handler, and a `merge`
at which every thread that could still come is in the group (R34). -/
inductive Passes (s : State) (x : Iss) : Instr → Prop where
  | nop e : Passes s x (.nop e)
  | yield e : Passes s x (.yield e)
  | yieldPd e : (∀ i ∈ x.g.members, ∀ th, x.w.thread i = some th → th.inPre = false) ∨ (∀ a b c d, (s.core x.c).swap ≠ .express a b c d) →
      Passes s x (.yieldPd e)
  | merge e : 32 ≤ x.g.members.length ∨ (∀ th ∈ x.w.threads, th.status = .grouped ∨ th.status = .seedbed → th.tid ∈ x.g.members) → Passes s x (.merge e)

/-- Whether the unit ends its group's run (R35): by its end-of-run flag, or as the instruction always does. -/
def endsRun : Instr → Bool
  | .nop e => e
  | .yield _ | .yieldPd _ | .merge _ => true
  | _ => false

/-- The group's run is over: it begins its next unit as a new run. -/
def RunOver (x : Iss) (t : State) : Prop :=
  ∃ g, ((t.core x.c).ctx.bind fun k => k.group x.g.slot) = some g ∧ g.run = 0 ∧ g.mid = false

/-! ### Threads that leave their group -/

/-- No group of a core waits at a `merge`, so that threads which leave a group only enter the seedbed (R28, R34). -/
def NoMerge (s : State) (c : CoreRef) : Prop := ∀ k, (s.core c).ctx = some k → ∀ g ∈ k.groups, g.stall ≠ .merge

/-- After a unit some members have left with a status and a seedbed age that starts now (R28), each thread otherwise as `f` makes it; the
others stay as the same group, with the same age and slot; a group of no members is gone (R25). -/
structure Parted (x : Iss) (out : List Nat) (st : ThreadStatus) (f : Nat → Thread → Thread) (u t : State) : Prop where
  frame : OnCore x.c u t
  wgs : ∀ w, w ≠ x.g.wslot → t.wg x.c w = u.wg x.c w
  wg : ∀ w, u.wg x.c x.g.wslot = some w → ∃ ths, t.wg x.c x.g.wslot = some { w with threads := ths }
  threads : ∀ i, i ∉ x.g.members → t.thread x.c x.g.wslot i = u.thread x.c x.g.wslot i
  members : ∀ i ∈ x.g.members, ∀ th, u.thread x.c x.g.wslot i = some th →
    ∃ o, t.thread x.c x.g.wslot i = some (if i ∈ out then { f i th with status := st, age := u.clk, aged := false, owed := o } else { f i th with owed := o }) ∧
      o.map Owed.closed = th.owed.map Owed.closed
  gone : (∀ i ∈ x.g.members, i ∈ out) → ((t.core x.c).ctx.bind fun k => k.group x.g.slot) = none
  stays : (∃ i ∈ x.g.members, i ∉ out) → ∃ g, ((t.core x.c).ctx.bind fun k => k.group x.g.slot) = some g ∧
    g.members = x.g.members.filter (fun i => i ∉ out) ∧ g.wslot = x.g.wslot ∧ g.age = x.g.age ∧ g.sched = x.g.sched ∧ g.hint = {}

/-! ### Branches, calls and returns (R26-R29, R47, R48, R187-R192) -/

/-- The register fields. -/
def xferFields : Instr → Fields
  | .callr _ a b => { a := 2 * a.toNat, an := 2, b := b.toNat, bn := 1 }
  | .jmpr _ a => { a := 2 * a.toNat, an := 2 }
  | _ => {}

/-- The target of a branch or call of an n-bit offset: the address of its own word plus four times the offset, its `hx` words before it
(R121, R139). -/
def targetOf (x : Iss) {n : Nat} (o : BitVec n) : Nat :=
  match x.g.hint.hx with
  | [] => (BitVec.ofNat 64 x.tpc + 4 * o.signExtend 64).toNat
  | [h] => (BitVec.ofNat 64 x.tpc + 4 * (BitVec.ofNat 22 h ++ o).signExtend 64).toNat
  | _ => State.target x o.toNat n

/-- One active lane of a control transfer. -/
inductive XferLane (x : Iss) : Instr → State → LaneIn → State → Thread → Prop where
  | bra {e p n o s l} : XferLane x (.bra e p n o) s l s { l.ln.t with pc := if predIn l.ln.t p n then State.target x o.toNat 21 else l.x.next }
  | brau {e p n o s l} : XferLane x (.brau e p n o) s l s { l.ln.t with pc := if predIn l.ln.t p n then State.target x o.toNat 21 else l.x.next }
  | call {e n o s l u v t1 t2} : n.toNat ≤ l.ln.t.c → l.ln.t.wb + n.toNat + l.ln.t.c + 4 ≤ State.linkBottom l.ln.g l.ln.t →
      s.moveWindow l.ln (l.ln.t.wb + n.toNat) l.ln.t.c = (u, .ok t1) → u.pushLink l.ln t1 l.x.next n.toNat = (v, .ok t2) →
      XferLane x (.call e n o) s l v { t2 with pc := State.target x o.toNat 19 }
  | callr {e a b s l u v t1 t2} : l.ln.t.pair l.a % 4 = 0 → l.ln.t.reg l.b ≤ l.ln.t.c →
      l.ln.t.wb + l.ln.t.reg l.b + l.ln.t.c + 4 ≤ State.linkBottom l.ln.g l.ln.t →
      s.moveWindow l.ln (l.ln.t.wb + l.ln.t.reg l.b) l.ln.t.c = (u, .ok t1) → u.pushLink l.ln t1 l.x.next (l.ln.t.reg l.b) = (v, .ok t2) →
      XferLane x (.callr e a b) s l v { t2 with pc := l.ln.t.pair l.a }
  | jmpr {e a s l} : l.ln.t.pair l.a % 4 = 0 → XferLane x (.jmpr e a) s l s { l.ln.t with pc := l.ln.t.pair l.a }
  | ret {e s l u v pc n t1} : l.ln.t.links ≠ 0 → s.topLink l.ln l.ln.t = (u, .ok (pc, n)) →
      u.moveWindow { l.ln with t := { l.ln.t with links := l.ln.t.links - 1 } } (l.ln.t.wb - n) l.ln.t.c = (v, .ok t1) →
      XferLane x (.ret e) s l v { t1 with pc := pc }

/-- The taken subset of a branch or call: the active threads whose predicate selects the target, or all (R26, R192). -/
def takenOf (x : Iss) : Instr → Option (List Nat)
  | .bra _ p n _ | .brau _ p n _ => some (x.active.filter fun i => (x.w.thread i).any fun th => predIn th p n)
  | .call .. => some x.active
  | _ => none

/-- Whether a control transfer may move its threads' windows, so that its group waits once for the spills and fills (R50). -/
def mayMove (x : Iss) : Instr → Bool
  | .call _ n _ => n.toNat != 0 && !x.active.isEmpty
  | .callr _ _ b => x.active.any fun i => (x.w.thread i).any fun th => th.reg b.toNat != 0
  | .ret _ => !x.active.isEmpty
  | _ => false

/-- The members that leave when the taken subset and the others part: the smaller subset, the taken one on a tie (R26). -/
def outOfTaken (x : Iss) (taken : List Nat) : List Nat :=
  let tk := x.g.members.filter fun i => i ∈ taken
  let ft := x.g.members.filter fun i => i ∉ taken
  if tk = [] ∨ ft = [] then [] else if tk.length ≤ ft.length then tk else ft

/-- The members that leave when the group parts by destination: all but the largest part, the part of the lowest lane on a tie (R27). -/
def OutByPc (x : Iss) (pc : Nat → Nat) (out : List Nat) : Prop :=
  let part := fun i => x.g.members.filter fun j => pc j = pc i
  ∃ i ∈ x.g.members, out = x.g.members.filter (fun j => pc j ≠ pc i) ∧
    ∀ j ∈ x.g.members, (part j).length < (part i).length ∨ ((part j).length = (part i).length ∧ x.laneNo i ≤ x.laneNo j)

/-- A member after its transfer: an active one where its lane left it, the others at the next word. -/
def afterXfer (x : Iss) (i : Nat) (th : Thread) : Thread :=
  { th with pc := if i ∈ x.active then th.pc else x.next, rep := if i ∈ x.active then th.rep else x.repAfter th.rep, pend := .none }

/-- A control transfer carried out by its lanes: those of a `brau` agree (R29), and windows that move are there (R50). -/
structure Xfer (x : Iss) (i : Instr) (s u : State) : Prop where
  act : ActUnit x (xferFields i) (XferLane x i) s u
  some_ : x.g.members ≠ []
  uniform : ∀ e p n o, i = .brau e p n o → ∀ tk, takenOf x i = some tk → tk = [] ∨ tk = x.active
  filled : x.g.fillOk = true ∨ mayMove x i = false

/-- The members that a control transfer sends away. -/
def XferOut (x : Iss) (i : Instr) (u : State) (out : List Nat) : Prop :=
  match takenOf x i with
  | some tk => out = outOfTaken x tk
  | none => OutByPc x (fun j => ((u.thread x.c x.g.wslot j).map fun th => if j ∈ x.active then th.pc else x.next).getD 0) out

/-- The control transfers. -/
def isXfer : Instr → Bool
  | .bra .. | .brau .. | .call .. | .callr .. | .jmpr .. | .ret .. => true
  | _ => false

/-! ### `exit` (R22, R194, R224, R243) -/

/-- The active threads of an `exit` have dropped their registrations and reported their copies, and a thread of their workgroup remains that
keeps it from ending (R22). -/
structure Exits (x : Iss) (s u : State) : Prop where
  issues : Issues s x
  some_ : x.g.members ≠ []
  dropped : u = x.active.foldl (fun s i => (s.dropAll (x.ref i)).exitCopies (x.ref i)) s
  here : ∃ k, (u.core x.c).ctx = some k ∧ k.gen = x.k.gen
  other : ∃ i th, i ∉ x.active ∧ u.thread x.c x.g.wslot i = some th ∧ (th.status = .grouped ∨ th.status = .seedbed ∨ th.status = .waitXlate)

/-! ### Windows resized, and pauses by time (R49, R198, R199) -/

/-- One lane of a `wgrow` or `wshr`. -/
inductive SizeLane (x : Iss) : Instr → State → LaneIn → State → Thread → Prop where
  | grow {e m s l u} : m.toNat % 8 = 0 → m ≠ 0 → l.ln.t.c + m.toNat ≤ x.grid.kern.allot →
      s.spill l.ln (((List.range m.toNat).map fun j => (l.ln.t.wb + l.ln.t.c + j, 0)).filter fun p => p.1 < l.ln.g.lrec.rstack) = (u, .ok ()) →
      SizeLane x (.wgrow e m) s l u { ((List.range m.toNat).foldl (fun (t : Thread) j => t.setReg (l.ln.t.c + j) 0) l.ln.t) with
        c := l.ln.t.c + m.toNat,
        spare := l.ln.t.spare.filter fun p => !(l.ln.t.wb + l.ln.t.c ≤ p.1 && p.1 < l.ln.t.wb + l.ln.t.c + m.toNat) }
  | growNone {e s l} : l.ln.t.c ≤ x.grid.kern.allot → SizeLane x (.wgrow e 0) s l s l.ln.t
  | shrink {e m s l} : m.toNat % 8 = 0 → 8 + m.toNat ≤ l.ln.t.c → SizeLane x (.wshr e m) s l s (shrunk m.toNat l.ln.t)

/-- Whether the core grants what a `wgrow` asks for: nothing, or it has granted the registers, or no other group's waits before it and the
registers are there (R199). -/
def growGranted (x : Iss) : Instr → Prop
  | .wgrow _ m => growBytes x m.toNat = 0 ∨ x.g.granted ≠ 0 ∨
      ((∀ g ∈ x.k.groups, g.slot ≠ x.g.slot → ∀ m' n, g.stall ≠ .wgrow m' n) ∧ regBytes x.k + growBytes x m.toNat ≤ 512 * 1024)
  | _ => True

/-- The longest time that the active lanes of a `tslp` ask for. -/
def sleepOf (x : Iss) (a : Nat) : Nat := x.active.foldl (fun m i => max m (((x.w.thread i).map fun th => th.reg a).getD 0)) 0

/-- The group sleeps (R198, R308): its threads stand at their unit, its scheduler goes on without it, and its timer is set. -/
structure Sleeps (x : Iss) (d : Nat) (s t : State) : Prop where
  frame : OnCore x.c s t
  wgs : ∀ w, w ≠ x.g.wslot → t.wg x.c w = s.wg x.c w
  wg : ∃ ths, t.wg x.c x.g.wslot = some { x.w with threads := ths }
  threads : ∀ i, i ∉ x.g.members → t.thread x.c x.g.wslot i = s.thread x.c x.g.wslot i
  members : ∀ i ∈ x.g.members, ∀ th, x.w.thread i = some th →
    ∃ o, t.thread x.c x.g.wslot i = some { th with pc := x.upc, rep := x.repAfter th.rep, pend := .none, owed := o } ∧ o.map Owed.closed = th.owed.map Owed.closed
  group : ∃ g, ((t.core x.c).ctx.bind fun k => k.group x.g.slot) = some g ∧ g.members = x.g.members ∧ g.wslot = x.g.wslot ∧
    (g.st = .waiting ∨ g.st = .pWaiting) ∧ g.stall = .sleep ∧ g.left = d ∧ g.elapsed = 0
  timer : .tslpExpiry x.c x.g.slot ∈ t.agenda

/-! ### Traps and handlers (R197, R327-R338) -/

/-- The trap that a thread of a `trap` takes: SOFTWARE, with the instruction's value, returning to the next word (R197, R327). -/
def softTrap (x : Iss) (d : Nat) (i : Nat) : TrapReq := { tid := i, code := .software, detail := d, pc := x.upc, ret := x.next }

/-- The unit's trap of REGISTER_RANGE (R45), and of MISALIGNED at an address, in a member. -/
def rangeTrap (x : Iss) (i : Nat) : TrapReq := { tid := i, code := .range, pc := x.upc, ret := x.upc }
def alignTrap (x : Iss) (addr i : Nat) : TrapReq := { tid := i, code := .misaligned, addr := addr, pc := x.upc, ret := x.upc }

/-- The state after every active member has trapped at its unit. -/
def allTrapped (s : State) (x : Iss) (q : Nat → TrapReq) (e : Bool) : State :=
  ((s.takeTraps x (x.active.map q)).advance x x.active).endUnit x e false .none

/-- The tagged address that an access of a member names. -/
def Access.addrOf (a : Access) (s : State) (x : Iss) (i : Nat) : Nat :=
  match s.laneIn x a.fields i with
  | some l => plainTag a.sp (a.offset l)
  | none => 0

/-- The code a thread shows at its handler's entry, and what its return restores (R333, R334). -/
structure Entered (f : FaultRec) (h : Nat) (t t' : Thread) : Prop where
  pc : t'.pc = h
  window : t'.wb = t.wb + t.c ∧ t'.c = t.c
  link : t'.links = t.links + 1 ∧ t'.entryLinks = t.links + 1
  code : 0 < t.c → t'.reg 0 = f.code % 2 ^ 32
  detail : 1 < t.c → t'.reg 1 = f.detail % 2 ^ 32
  handler : t'.inHandler = true ∧ t'.fault = f ∧ t'.faultTrap = f.code
  kept : t'.pred = t.pred ∧ t'.flags = t.flags ∧ t'.rep = t.rep ∧ t'.tid = t.tid ∧ t'.status = t.status ∧ t'.owed = t.owed

/-- One member's return from its handler (R334). -/
inductive EretLane : State → LaneIn → State → Thread → Prop where
  | back {s l u v pc n t1} : s.topLink l.ln { l.ln.t with links := l.ln.t.entryLinks } = (u, .ok (pc, n)) →
      u.moveWindow { l.ln with t := { l.ln.t with links := l.ln.t.entryLinks - 1 } } (l.ln.t.wb - n) l.ln.t.c = (v, .ok t1) →
      EretLane s l v { t1 with pc := pc, inHandler := false, inPre := false, faultTrap := 0, entryLinks := 0 }

/-- A unit of `eret` that every member carries out: each is in a handler that no CANCEL entered, and the windows are there (R334, R335). -/
structure Returns (x : Iss) (s u : State) : Prop where
  issues : Issues s x
  single : x.g.hint.hrep = none
  some_ : x.g.members ≠ []
  inside : ∀ i ∈ x.g.members, ∃ th, x.w.thread i = some th ∧ th.inHandler = true ∧ th.faultTrap ≠ Code.cancel.num
  filled : x.g.fillOk = true
  lanes : LaneSteps x {} EretLane x.g.members s u

/-! ### Hint words (R136, R137) -/

/-- What a hint word adds to the unit before it: two `hx` words at most and one of each other hint. -/
inductive Hints (h : Hint) : Instr → Hint → Prop where
  | hx v : h.hx.length < 2 → Hints h (.hx v) { h with hx := h.hx ++ [v.toNat] }
  | hp p n : h.hp = none → Hints h (.hp p n) { h with hp := some (p.toNat, n) }
  | hrep c d a b : h.hrep = none → Hints h (.hrep c d a b) { h with hrep := some (c.toNat, d.toNat, a.toNat, b.toNat) }
  | hmod r m p : h.hmod = none → Hints h (.hmod r m p) { h with hmod := some (r, m.toNat, p.toNat) }

end Sys2Proof.Machine
end

