-- ==== Sys2Proof/Safety/Units.lean ====
section
/-! DEFINITION. What the instructions of the grid, of collectives, of the matrix unit and of vocabulary projection do, each family in the
terms of its rules. -/

namespace Sys2Proof.Machine

open State

/-! ### Grids and collectives (R311-R315, R318, R325, R326, R341) -/

/-- The register fields. -/
def gridFields : Instr → Fields
  | .glch _ x y _ => { d := 2 * x.toNat, dn := 2, a := 2 * y.toNat, an := 2 }
  | .gqy _ x y _ _ => { d := 2 * x.toNat, dn := 2, a := 2 * y.toNat, an := 2 }
  | .gcan _ y | .gwt _ y => { a := 2 * y.toNat, an := 2 }
  | .cfr _ y => { a := y.toNat, an := 1 }
  | .cwt _ y z => { a := y.toNat, an := 1, b := z.toNat, bn := 1 }
  | .cqy _ x y z _ => { d := x.toNat, dn := 1, a := y.toNat, an := 1, b := z.toNat, bn := 1 }
  | _ => {}

/-- The instructions of this part. -/
def isGrid : Instr → Bool
  | .glch .. | .gqy .. | .gcan .. | .gwt .. | .cfr .. | .cwt .. | .cqy .. => true
  | _ => false

/-- A thread with a result of `n` registers that lands at once, or when its window of `la` units closes (R144). -/
def Thread.gets (t : Thread) (la reg n v : Nat) : Thread :=
  if la = 0 then t.setSpan reg n v else { t with owed := t.owed ++ [{ reg := reg, cnt := n, left := la, value := some v, id := 0 }] }

/-- The values of `gqy` in the order of its selectors (R315). -/
def rootValues (g : Grid) : List Nat :=
  [g.root.dealt, g.root.started, g.root.completed, g.root.faulted, g.root.cancelled, g.root.relaunched, g.root.st + 16 * g.root.ccause,
    g.seq + 2 ^ 32 * g.lrec.stream, ((g.firstRec.map fun f => f.time).getD 0) % 2 ^ 64]

/-- The state word of a chunk (R325): FIRED stands from the moment all its slots have fired; bit 3 for switch slots, bit 4 for a chunk lost
to a translation. -/
def chunkBits (s : State) (g : Grid) (b c : Nat) (cb : Coll) : Nat :=
  let k := (g.chunks.find? fun x => x.b == b && x.c == c).getD { b := b, c := c }
  (if k.st = 0 ∧ s.chunkFired g b cb c = true then 1 else k.st) + (if cb.switch = true then 8 else 0) + (if k.st = 4 ∧ k.xlost = true then 16 else 0)

/-- The request of a `glch` (R312). -/
def launchAsk (s : State) (l : LaneIn) : Request :=
  { id := s.nextId, t := l.ln.r, kind := .launch (l.ln.t.pair l.a) l.ln.g.cid l.ln.g.level l.ln.g.part l.ln.r.core.pkg none }

/-- One lane of such an instruction. -/
inductive GridLane : Instr → State → LaneIn → State → Thread → Prop where
  | launch {e x y la s l} : l.ln.t.pair l.a < 2 ^ 56 → l.ln.t.pair l.a % 128 = 0 →
      GridLane (.glch e x y la) s l
        (({ s with
            nextId := s.nextId + 1,
            reqs := s.reqs ++ [launchAsk s l] } : State).post (.launchRequest s.nextId))
        { l.ln.t with owed := l.ln.t.owed ++ [{ reg := l.d, cnt := 2, left := la.toNat, value := none, id := s.nextId }] }
  | cancel {e y s l u key v} : handleOf s l.ln (l.ln.t.pair l.a) = (u, .ok (key, v)) →
      GridLane (.gcan e y) s l (tryFinish (cancelGrid u key 1) key) l.ln.t
  | wait {e y s l u key v} : handleOf s l.ln (l.ln.t.pair l.a) = (u, .ok (key, v)) → key ≠ l.ln.g.handle →
      (∀ g, u.grid key = some g → g.complete = true) → GridLane (.gwt e y) s l u l.ln.t
  | query {e x y sel la s l u key v g n} : handleOf s l.ln (l.ln.t.pair l.a) = (u, .ok (key, v)) → u.grid key = some g → (rootValues g)[sel.toNat]? = some n →
      GridLane (.gqy e x y sel la) s l u (l.ln.t.gets la.toNat l.d 2 n)
  | ended {e x y sel la s l u key v} : handleOf s l.ln (l.ln.t.pair l.a) = (u, .ok (key, v)) → u.grid key = none →
      GridLane (.gqy e x y sel la) s l u (l.ln.t.gets la.toNat l.d 2 (gqyValue u key v sel.toNat))
  | fired {e y s l cb} : l.ln.g.colls[l.ln.t.reg l.a]? = some cb → (l.ln.t.reg l.a, l.ln.w.block) ∈ l.ln.g.fires → GridLane (.cfr e y) s l s l.ln.t
  | fire {e y s l cb} : l.ln.g.colls[l.ln.t.reg l.a]? = some cb → (l.ln.t.reg l.a, l.ln.w.block) ∉ l.ln.g.fires →
      s.fireHeld l.ln.r.core l.ln.r.gen l.ln.r.wslot (some l.ln.r.tid) (cb.src + l.ln.g.slotOf cb l.ln.w.block * cb.cb) cb.cb = false →
      GridLane (.cfr e y) s l (s.fire l.ln.g.handle (l.ln.t.reg l.a) l.ln.w.block) l.ln.t
  | chunk {e y z s l cb k} : l.ln.g.colls[l.ln.t.reg l.a]? = some cb → l.ln.t.reg l.b < cb.nch →
      (l.ln.g.chunks.find? fun x => x.b == l.ln.t.reg l.a && x.c == l.ln.t.reg l.b) = some k → 2 ≤ k.st → GridLane (.cwt e y z) s l s l.ln.t
  | state {e x y z la s l cb} : l.ln.g.colls[l.ln.t.reg l.a]? = some cb → l.ln.t.reg l.b < cb.nch →
      GridLane (.cqy e x y z la) s l s (l.ln.t.gets la.toNat l.d 1 (chunkBits s l.ln.g (l.ln.t.reg l.a) (l.ln.t.reg l.b) cb))

/-! ### The matrix unit and its sequencer (R246-R271) -/

/-- The register fields of MAJ 0x20 and 0x21. -/
def unitFields : Instr → Fields
  | .mshp _ _ y => { a := 4 * y.toNat, an := 4 }
  | .mlp _ _ _ _ z _ | .mdrnAmax _ _ _ z _ => { a := 2 * z.toNat, an := 2 }
  | .mwtSg _ a | .mcop _ a => { a := a.toNat, an := 1 }
  | _ => {}

/-- How an instruction stands beside a projection (R275, R285): `mshp` goes on, `mwt` and `vrsm` go on beside a suspended one. -/
def besideOf : Instr → Beside
  | .mshp .. => .always
  | .mwt .. | .vrsm .. => .suspended
  | _ => .never

/-- A unit of MAJ 0x20 or 0x21 at its own checks (R255, R285): `l` is its lowest active lane; the matrix unit is free or the workgroup's; no
other group's projection runs, and none is suspended. -/
structure UnitReady (x : Iss) (i : Instr) (s : State) (l : LaneIn) : Prop where
  issues : Issues s x
  lane : ∃ n, x.active.head? = some n ∧ s.laneIn x (unitFields i) n = some l
  regs : ∀ n ∈ x.active, ∀ th, x.w.thread n = some th → (unitFields i).within th.c none = true
  back : backHeld s x.c = false
  holder : x.k.mtx.holder = none ∨ x.k.mtx.holder = some x.g.wslot
  runs : besideOf i = .always ∨ vocTurn x.k x.g.slot = false
  open_ : besideOf i ≠ .never ∨ x.k.voc.st ≠ .suspended

/-- An entry put at the end of the sequencer's queue, which has room (R253): the unit is the workgroup's, and its head entry's step is posted. -/
def queued (x : Iss) (l : LaneIn) (s : State) (op : SeqOp) (tile : Bool := false) : State :=
  let u : State := { claim s x.c x.g.wslot with nextId := s.nextId + 1 }
  seqPost (modMtx (if tile then modMtx u x.c fun m => { m with cseq := m.cseq + 1 } else u) x.c fun m =>
    { m with queue := m.queue ++ [{ id := s.nextId, op := op, tid := l.ln.t.tid, pc := x.upc }], st := if m.st = .idle then .busy else m.st }) x.c

/-- Whether a tile of so many rows and columns is one of the cooperative set (R269). -/
def isTile (x : Iss) (rows cols : Nat) : Bool := x.k.mtx.coop.isSome && (decide (128 < rows) || decide (256 < cols))

/-- The checks of `mbld` (R251, R261): the B-store's record, the source's and, for narrow formats, the scales'. -/
structure BuildFits (coop : Bool) (rb rs rc : BitVec 128) (p : Part4) : Prop where
  target : checkKind rb 2 coop = 0
  source : checkKind rs 3 coop = 0
  scales : isNarrow (rFmt rb) = true → checkKind rc 4 coop = 0
  format : rFmt rs = rFmt rb ∧ (isNarrow (rFmt rb) = true → rFmt rc = rFmt rb)
  shape : rRows rs = rRows rb ∧ rCols rs = rCols rb ∧ (isNarrow (rFmt rb) = true → rRows rc = rRows rb ∧ rCols rc = rCols rb)
  room : rRows rb / kStep (rFmt rb) * (if p.nq ≤ 128 then 1 else 2) ≤ 1024

/-- `n` bytes of a record's buffer at an offset to BASE lie in one allocation of L or D (R56, R255); those of G are checked later (R256). -/
def rowInBound (s : State) (ln : Lane) (r : BitVec 128) (off : Int) (n : Nat) : Prop :=
  rSpace r = 0 ∨ rSpace r = 3 ∨ n = 0 ∨ ∃ t, recByte ln r off = some t ∧ t.off + n ≤ 2 ^ 32 ∧ s.inBound ln t n = true

/-- The bytes of the source and of the scales of an `mbld` lie in their bounds (R255). -/
def buildInBound (s : State) (ln : Lane) (rb rs rc : BitVec 128) (p : Part4) : Prop :=
  p.nq ≠ 0 →
    (∀ k < rRows rb, rowInBound s ln rs (k * rStride rs + p.q0 * fmtBits (rFmt rb) / 8 : Nat) ((p.nq * fmtBits (rFmt rb) + 7) / 8)) ∧
    (isNarrow (rFmt rb) = true → ∀ k < rRows rb / 32,
      rowInBound s ln rc (k * rStride rc + p.q0 * (if rFmt rb = 6 then 2 else 1) : Nat) (p.nq * (if rFmt rb = 6 then 2 else 1)))

/-- The registers of scales that an `mlp` of `n` K-steps reads (R262). -/
def scaleRegs (fmt n : Nat) : Nat := if isNarrow fmt = true then (if fmt = 6 then 2 * n else n) else 0

/-- The checks of `mlp` (R251, R262): a complete group, its two records, its control register and its slots. -/
structure LoopFits (x : Iss) (k : Nat) (ra rb : BitVec 128) (d : Nat) (ainc : Int) (p : Part4) : Prop where
  group : x.g.members.length = 32 ∧ x.active.length = 32
  a : checkKind ra 1 x.k.mtx.coop.isSome = 0
  b : checkKind rb 2 x.k.mtx.coop.isSome = 0
  format : compatible (rFmt ra) (rFmt rb) = true
  control : d < 2 ^ 27 ∧ bits d 10 0 ≤ 1024 ∧ ainc % 16 = 0
  shape : rCols ra = rRows rb ∧ bits d 10 0 * kStep (rFmt ra) ≤ rCols ra
  slots : k + ceilDiv p.nq 64 ≤ 4
  scales : ∀ t ∈ x.g.members, ∀ th, x.w.thread t = some th → scaleRegs (rFmt ra) (bits d 10 0) ≠ 0 →
    bits d 26 21 + scaleRegs (rFmt ra) (bits d 10 0) ≤ th.c

/-- The bytes of A that an `mlp` reads lie in their bound (R255). -/
def loopInBound (s : State) (ln : Lane) (ra : BitVec 128) (n : Nat) (ainc : Int) (p : Part4) : Prop :=
  ∀ j < n, ∀ m < p.mq, rowInBound s ln ra (((p.m0 + m) * rStride ra : Nat) + (j : Int) * ainc) (kStep (rFmt ra) * fmtBits (rFmt ra) / 8)

/-- The scales of an `mlp`, lane by lane (R262). -/
def loopScales (x : Iss) (sbase nreg : Nat) : Words :=
  x.g.members.zipIdx.foldl (fun (m : Words) tl =>
    match x.w.thread tl.1 with
    | some th => (List.range nreg).foldl (fun (m : Words) j => wset m (32 * j + tl.2) (th.reg (sbase + j))) m
    | none => m) []

/-- The active lanes of an `mwt.sg` with the phasers that they signal (R268). -/
def signalLanes (s : State) (x : Iss) (a : Nat) : List LaneIn := x.active.filterMap fun t => s.laneIn x { a := a, an := 1 } t

/-- The unit's own request for a cooperative set, or for its end (R269, R271). -/
def asks (x : Iss) (s : State) (v : Nat) : State := modMtx (claim s x.c x.g.wslot) x.c fun m => { m with coopWait := some v }

/-- What a unit of MAJ 0x20 does, with the operands of its lowest active lane. -/
inductive MtxStep (x : Iss) : Instr → State → LaneIn → State → Prop where
  | shape {e h y s l} : MtxStep x (.mshp e h y) s l
      (s.modWg x.c x.g.wslot fun w => { w with shapes := sset 0 w.shapes h.toNat (BitVec.ofNat 128 (l.ln.t.span l.a 4)) })
  | zero {e m s l} : x.k.mtx.queue.length < 8 → MtxStep x (.mzro e m) s l (queued x l s (.mzro m.toNat))
  | build {e b r c s l p} : x.k.mtx.queue.length < 8 →
      p = partOf x (x.k.mtx.coop.isSome && decide (256 < rCols (l.ln.w.shape b.toNat))) 0 (rCols (l.ln.w.shape b.toNat)) →
      BuildFits x.k.mtx.coop.isSome (l.ln.w.shape b.toNat) (l.ln.w.shape r.toNat) (l.ln.w.shape c.toNat) p →
      buildInBound s l.ln (l.ln.w.shape b.toNat) (l.ln.w.shape r.toNat) (l.ln.w.shape c.toNat) p →
      MtxStep x (.mbld e b r c) s l (queued x l s (.mbld (l.ln.w.shape b.toNat) (l.ln.w.shape r.toNat) (l.ln.w.shape c.toNat) p))
  | loop {e k a b z sel s l p tile} : x.k.mtx.queue.length < 8 → tile = isTile x (rRows (l.ln.w.shape a.toNat)) (rCols (l.ln.w.shape b.toNat)) →
      p = partOf x tile (rRows (l.ln.w.shape a.toNat)) (rCols (l.ln.w.shape b.toNat)) →
      LoopFits x k.toNat (l.ln.w.shape a.toNat) (l.ln.w.shape b.toNat) (l.ln.t.reg l.a) (sx32 (l.ln.t.reg (l.a + 1))) p →
      loopInBound s l.ln (l.ln.w.shape a.toNat) (bits (l.ln.t.reg l.a) 10 0) (sx32 (l.ln.t.reg (l.a + 1))) p →
      MtxStep x (.mlp e k a b z sel) s l (queued x l s (.mlp k.toNat (l.ln.w.shape a.toNat) (l.ln.w.shape b.toNat) (bits (l.ln.t.reg l.a) 10 0)
        (bits (l.ln.t.reg l.a) 20 11) (sx32 (l.ln.t.reg (l.a + 1))) sel.toNat
        (loopScales x (bits (l.ln.t.reg l.a) 26 21) (scaleRegs (rFmt (l.ln.w.shape a.toNat)) (bits (l.ln.t.reg l.a) 10 0))) p
        (if tile then some x.k.mtx.cseq else none) (bits (l.ln.t.reg l.a) 26 21)) tile)
  | waited {e s l} : (∀ n, l.ln.t.pend = .request n → ∀ q ∈ x.k.mtx.queue, n < q.id) →
      ((∀ n, l.ln.t.pend ≠ .request n) → x.k.mtx.queue = []) → x.k.mtx.fault = none → MtxStep x (.mwt e) s l s
  | signal {e a s l} : x.k.mtx.queue.length < 8 →
      (∀ l' ∈ signalLanes s x a.toNat, ∃ p, NamesPh s l' p ∧ maySignal p l'.ln.r = true) →
      MtxStep x (.mwtSg e a) s l (queued x l s (.mwtSg ((signalLanes s x a.toNat).filterMap fun l' =>
        (s.phaserOf l'.ln (l'.ln.t.reg l'.a)).map fun p => (l'.ln.t.tid, p.uid))))
  | noSet {e a s l} : l.ln.t.reg l.a = 0xFFFFFFFF → x.k.mtx.coop = none → MtxStep x (.mcop e a) s l s
  | sameSet {e a s l} : l.ln.t.reg l.a ≠ 0xFFFFFFFF → x.k.mtx.coop = some (l.ln.t.reg l.a) → MtxStep x (.mcop e a) s l s
  | form {e a s l} : l.ln.t.reg l.a ≠ 0xFFFFFFFF → x.k.mtx.coop = none → coopValid x (l.ln.t.reg l.a) = true →
      (∀ m ∈ coopMembers (l.ln.t.reg l.a), ∀ u, unitOf s x m = some u → u.coopWait = none ∨ u.coopWait = some (l.ln.t.reg l.a)) →
      (∀ m ∈ coopMembers (l.ln.t.reg l.a), ∃ u, unitOf (asks x s (l.ln.t.reg l.a)) x m = some u ∧ u.coopWait = some (l.ln.t.reg l.a)) →
      MtxStep x (.mcop e a) s l (coopAll (asks x s (l.ln.t.reg l.a)) x (coopMembers (l.ln.t.reg l.a)) fun u =>
        { u with coop := some (l.ln.t.reg l.a), coopWait := none, cseq := 0, cdone := 0 })
  | dissolve {e a s l set} : l.ln.t.reg l.a = 0xFFFFFFFF → x.k.mtx.coop = some set →
      (∀ m ∈ coopMembers set, ∃ u, unitOf (asks x s 0xFFFFFFFF) x m = some u ∧ u.coopWait = some 0xFFFFFFFF ∧ hasCoop u = false) →
      MtxStep x (.mcop e a) s l (coopAll (asks x s 0xFFFFFFFF) x (coopMembers set) fun u =>
        { u with coop := none, coopWait := none, cseq := 0, cdone := 0 })

/-- The copies that a drain counts as (R267): its rows, and the word of its maximum. -/
def drainEntry (x : Iss) (l : LaneIn) (rc : BitVec 128) (p : Part4) (id : Nat) : CopyEntry :=
  { id := id, wslot := x.g.wslot, tid := l.ln.t.tid, sub := 1, f := drainF, x := recAddr rc (p.m0 * rStride rc + p.q0 * (fmtBits (rFmt rc) / 8)), y := 0,
    desc := [p.nq * (fmtBits (rFmt rc) / 8), if p.nq = 0 then 0 else p.mq, rStride rc, 0], st := .active, pc := x.upc, own := id }
def mergeEntry (x : Iss) (l : LaneIn) (a id : Nat) : CopyEntry :=
  { id := id, wslot := x.g.wslot, tid := l.ln.t.tid, sub := 0, f := drainF, x := a, y := 0, desc := [4], st := .gated, pc := x.upc }

/-- What the merge of a drain carries as a release: after the thread's `fence.rel`, its changes, the copies it is held for and the atomics (R90,
R92, R217, R267). -/
def mergeRel (s : State) (l : LaneIn) (a : Nat) : Option (List Nat × List Nat × List Nat) :=
  match atomTgt l.ln a with
  | some t => if l.ln.t.fenceRel = true then (bindLoc l.ln t).map fun o =>
      (ownChanges l.ln, s.heldBy l.ln (.word o 4), s.atomsBound l.ln (.word o 4) ++ s.releasesLeft l.ln.r) else none
  | none => none

/-- A drain in the queue with its copies (R265-R267). -/
def drainQueued (x : Iss) (l : LaneIn) (s : State) (slot : Nat) (rc : BitVec 128) (mode : Nat) (word : Option Nat) (p : Part4) (tile : Bool) : State :=
  let u : State := { claim s x.c x.g.wslot with nextId := s.nextId + (if word.isSome then 3 else 2) }
  let u := u.modCtx x.c fun k => { k with copies := k.copies ++ [drainEntry x l rc p (s.nextId + 1)] }
  let u := match word with
    | some a =>
      (u.modThread x.c x.g.wslot l.ln.t.tid fun t => { t with fenceRel := false, lastReq := s.nextId + 2, lastSeen := [] }).modCtx x.c fun k =>
        { k with copies := k.copies ++ [mergeEntry x l a (s.nextId + 2)] }
    | none => u
  seqPost (modMtx u x.c fun m =>
    let q : SeqEntry := { id := s.nextId, op := .mdrn slot rc mode word p tile, tid := l.ln.t.tid, pc := x.upc, copy := s.nextId + 1,
                          word := if word.isSome then s.nextId + 2 else 0, rel := word.bind (mergeRel (claim s x.c x.g.wslot) l) }
    { m with queue := m.queue ++ [q], st := if m.st = .idle then .busy else m.st }) x.c

/-- The word of a drain's maximum: a tagged address of an aligned word in a bound (R266). -/
def wordOk (s : State) (ln : Lane) (a : Nat) : Prop := ∃ t, atomTgt ln a = some t ∧ t.off % 4 = 0 ∧ s.inBound ln t 4 = true

/-- The drains. -/
def drainOf : Instr → Option (Nat × Nat × Nat × Bool)
  | .mdrn _ k c m => some (k.toNat, c.toNat, m.toNat, false)
  | .mdrnAmax _ k c _ m => some (k.toNat, c.toNat, m.toNat, true)
  | _ => none

/-- A matrix record that passes the checks of its kind (R249-R251). KIND codes: 1 A, 2 B, 3 BSRC, 4 SCL, 5 C; SPACE codes: 0 G, 1 L, 2 D,
3 B-store. -/
structure RecordOk (r : BitVec 128) (kind : Nat) (coop : Bool) : Prop where
  ofKind : rKind r = kind
  space : (kind = 1 ∧ rSpace r = 1) ∨ (kind = 2 ∧ rSpace r = 3) ∨ ((kind = 3 ∨ kind = 4) ∧ (rSpace r = 0 ∨ rSpace r = 2)) ∨
    (kind = 5 ∧ (rSpace r = 1 ∨ rSpace r = 2))
  die : (rSpace r ≠ 2 → rDt r = 0) ∧ (rDt r = 0 → rDie r = 0)
  format : if kind = 5 then rFmt r ≤ 4 else 1 ≤ rFmt r ∧ rFmt r ≤ 7
  sizes : rRows r ≠ 0 ∧ rCols r ≠ 0
  unused : kind ≠ 5 → rXs r = 0
  base : (rSpace r = 1 ∨ rSpace r = 2 → rBase r < 2 ^ 32) ∧ (rSpace r = 3 → rBase r < 2 ^ 10) ∧ (kind = 1 ∨ kind = 3 ∨ kind = 5 → rBase r % 16 = 0)
  stride : kind = 2 → rStride r = 0
  steps : (kind = 1 → rCols r % kStep (rFmt r) = 0) ∧ (kind = 2 ∨ kind = 3 ∨ kind = 4 → rRows r % kStep (rFmt r) = 0)
  limits : rRows r ≤ (if kind = 1 ∨ kind = 5 then (if coop = true then 256 else 128) else 32768) ∧
    rCols r ≤ (if kind = 1 then 32768 else if coop = true then 512 else 256)

/-- The checks of a drain (R251, R255, R265, R266). -/
structure DrainFits (x : Iss) (s : State) (l : LaneIn) (slot : Nat) (rc : BitVec 128) (amax : Bool) (p : Part4) (tile : Bool) : Prop where
  room : x.k.mtx.queue.length < 8
  tiles : tile = isTile x (rRows rc) (rCols rc)
  part : p = partOf x tile (rRows rc) (rCols rc)
  target : checkKind rc 5 x.k.mtx.coop.isSome = 0
  slots : slot + ceilDiv p.nq 64 ≤ 4
  bytes : ∀ m < p.mq, rowInBound s l.ln rc ((p.m0 + m) * rStride rc + p.q0 * (fmtBits (rFmt rc) / 8) : Nat) (p.nq * (fmtBits (rFmt rc) / 8))
  word : amax = true → wordOk s l.ln (l.ln.t.pair l.a)

/-! ### Vocabulary projection (R273-R293) -/

/-- A projection's group at its instruction when its engine is done: it ends without a trap (R287, R291). -/
structure VocEnds (x : Iss) : Prop where
  active : x.k.voc.st = .active
  mine : x.k.voc.group = x.g.slot
  result : ∃ a b, x.k.voc.result = some (0, a, b)

/-- The state in which a projection's group goes on: nothing of it stands, and a HEAP_SPILL handler returns behind it (R287, R288). -/
inductive VocOver (x : Iss) (s : State) : State → Prop where
  | first : x.k.voc.resumed = false → VocOver x s ((modVoc s x.c fun _ => {}).wakeAll x.c fun w => w == .vocab)
  | resumed {u} : x.k.voc.resumed = true → moveReturns x x.k.voc.pc x.k.voc.next s x.active = .ok u →
      VocOver x s ((modVoc u x.c fun _ => {}).wakeAll x.c fun w => w == .vocab)

/-- The instructions that a projection runs for. -/
def isProj : Instr → Bool
  | .vpj .. | .vpjb .. | .vrsm .. => true
  | _ => false

/-- A group that may begin an instruction of MAJ 0x21: complete, with no projection on its core and no entry of its sequencer's queue left
(R246, R285). -/
structure VocFree (x : Iss) : Prop where
  group : x.g.members.length = 32 ∧ x.active.length = 32
  idle : ¬(x.k.voc.st = .active ∧ x.k.voc.group = x.g.slot)
  queue : x.k.mtx.queue = []
  fresh : ∀ v, x.k.vwait = some v → v.group = x.g.slot → x.g.hint.why = .none

/-- The state in which such an instruction begins: the turn that it may have waited for is taken (R285). -/
def vocTaken (x : Iss) (s : State) : State := s.modCtx x.c fun k => { k with vwait := none }

/-- The projection that a `vpj` or `vpjb` begins, but for its rows. -/
def projection (x : Iss) (l : LaneIn) (back : Bool) (h w z p : Nat) : Vocab :=
  { recs := vocRecs l back h w z p, back := back, group := x.g.slot, tid := l.ln.t.tid, pc := x.upc, next := x.next }

/-- A row before the first block of a `vpj` (R287): the empty normaliser, the labels of its row block, and the ranks of the shard. -/
def firstRow (par : BitVec 128) (labels : Nat) : RowSt :=
  { m := 0xFF800000, s := 0, lmax := 0xFF800000, rlo := pRank par, rhi := pRank par,
    llog := (List.range 8).map fun j => if j < pNlab par then fp32.nan else 0, lidx := (List.range 8).map fun j => word labels j }

/-- A row of a `vpjb` from the header of its final row block (R278, R291). -/
def backRow (l : Nat) : RowSt := { lse := word l 0, nlab := word l 5 / 2 ^ 7 % 16, lidx := (List.range 8).map fun j => word l (8 + j) }

/-- Whether a final row block fits the projection (R275, R291). -/
def finalFits (v : Vocab) (l : Nat) : Prop :=
  word l 5 / 2 ^ 30 = 0 ∧ word l 5 % 8 = rFmt (v.rc 1) ∧ word l 5 / 8 % 8 = rFmt (v.rc 2) ∧ word l 5 / 2 ^ 18 % 4096 = rCols (v.rc 1) / 16 ∧ word l 6 = pC (v.rc 3) ∧
    word l 3 ≤ pRank (v.rc 3) ∧ pRank (v.rc 3) ≤ word l 4

/-- What a `vpj`, `vpjb` or `vrsm` begins: its projection with its rows. -/
inductive VocBegin (x : Iss) : Instr → State → LaneIn → State → Vocab → Prop where
  | forward {e h w z p s l u ls} : vocDetail false (projection x l false h.toNat w.toNat z.toNat p.toNat) = 0 →
      vocRanges s l.ln (projection x l false h.toNat w.toNat z.toNat p.toNat) = none →
      vocReads (vocTaken x s) l.ln ((List.range (rRows (l.ln.w.shape z.toNat))).map fun r => (l.ln.w.shape h.toNat, r * rStride (l.ln.w.shape h.toNat) + 64, 32)) = (u, .ok ls) →
      VocBegin x (.vpj e h w z p) s l u
        { projection x l false h.toNat w.toNat z.toNat p.toNat with rows := ls.map (firstRow (l.ln.w.shape p.toNat)) }
  | backward {e h w z p s l u ls} : vocDetail true (projection x l true h.toNat w.toNat z.toNat p.toNat) = 0 →
      vocRanges s l.ln (projection x l true h.toNat w.toNat z.toNat p.toNat) = none →
      vocReads (vocTaken x s) l.ln ((List.range (rRows (l.ln.w.shape z.toNat))).map fun r => (l.ln.w.shape h.toNat, r * rStride (l.ln.w.shape h.toNat), 96)) = (u, .ok ls) →
      (∀ b ∈ ls, finalFits (projection x l true h.toNat w.toNat z.toNat p.toNat) b) →
      VocBegin x (.vpjb e h w z p) s l u { projection x l true h.toNat w.toNat z.toNat p.toNat with rows := ls.map backRow }
  | resume {e h s l u bs} : x.k.voc.st = .suspended → checkVoc (l.ln.w.shape h.toNat) 12 [1] = 0 →
      rRows (l.ln.w.shape h.toNat) = x.k.voc.rows.length → 128 + 8 * rCols (l.ln.w.shape h.toNat) ≤ rStride (l.ln.w.shape h.toNat) →
      vocBound s l.ln [(l.ln.w.shape h.toNat, rRows (l.ln.w.shape h.toNat), 128 + 8 * rCols (l.ln.w.shape h.toNat))] = none →
      readRows (vocTaken x s) l.ln (l.ln.w.shape h.toNat) = (u, .ok bs) → (∀ b ∈ bs, b.res = 0 ∧ b.cnt ≤ rCols (l.ln.w.shape h.toNat)) →
      VocBegin x (.vrsm e h) s l u
        { x.k.voc with
          recs := l.ln.w.shape h.toNat :: x.k.voc.recs.drop 1,
          rows := (bs.zip x.k.voc.rows).map fun b =>
            { b.2 with m := b.1.st.m, s := b.1.st.s, lmax := b.1.st.lmax, lmask := b.1.st.lmask, llog := b.1.st.llog, heap := b.1.st.heap },
          group := x.g.slot, tid := l.ln.t.tid, resumed := true }

/-- Two row blocks that `vmrg` may fold (R275, R289): the same form, constants and labels, and consecutive ranks. -/
def mayMerge (capD capS : Nat) (d t : RowBlk) : Prop :=
  d.res = 0 ∧ t.res = 0 ∧ d.form = t.form ∧ d.c = t.c ∧ d.delta = t.delta ∧ d.st.lidx.take (d.form / 2 ^ 7 % 16) = t.st.lidx.take (d.form / 2 ^ 7 % 16) ∧
    d.cnt ≤ capD ∧ t.cnt ≤ capS ∧ t.st.rlo = t.st.rhi ∧ t.st.rlo = d.st.rhi + 1

/-- What a `vmrg` or `vfin` writes: the row blocks folded, or made final (R289, R290). -/
inductive VocArea (x : Iss) : Instr → State → LaneIn → State → List (Loc × Nat × Nat) → Prop where
  | merge {e h y s l u v w ds ss ls} : areaDetail (l.ln.w.shape h.toNat) (l.ln.w.shape y.toNat) 12 [1] = 0 →
      vocBound s l.ln [(l.ln.w.shape h.toNat, rRows (l.ln.w.shape h.toNat), 128 + 8 * rCols (l.ln.w.shape h.toNat)),
        (l.ln.w.shape y.toNat, rRows (l.ln.w.shape y.toNat), 128 + 8 * rCols (l.ln.w.shape y.toNat))] = none →
      readRows (vocTaken x s) l.ln (l.ln.w.shape h.toNat) = (u, .ok ds) → readRows u l.ln (l.ln.w.shape y.toNat) = (v, .ok ss) →
      (∀ b ∈ ds.zip ss, mayMerge (rCols (l.ln.w.shape h.toNat)) (rCols (l.ln.w.shape y.toNat)) b.1 b.2) →
      (∀ b ∈ ds.zip ss, (mergeRows b.1 b.2).heap.length ≤ rCols (l.ln.w.shape h.toNat)) →
      vocPlaces v l.ln ((((ds.zip ss).map fun b => mergeRows b.1 b.2).zip ds).zipIdx.flatMap fun b =>
        rowWrites (l.ln.w.shape h.toNat) b.2 b.1.1 b.1.2.form b.1.2.c b.1.2.delta (b.1.2.form / 2 ^ 7 % 16)) = (w, .ok ls) →
      VocArea x (.vmrg e h y) s l w ls
  | final {e h y s l u w rows ls} : areaDetail (l.ln.w.shape h.toNat) (l.ln.w.shape y.toNat) 13 [1, 2] = 0 →
      vocBound s l.ln [(l.ln.w.shape h.toNat, rRows (l.ln.w.shape h.toNat), 128 + 8 * rCols (l.ln.w.shape h.toNat)),
        (l.ln.w.shape y.toNat, rRows (l.ln.w.shape y.toNat), 128 + 8 * rCols (l.ln.w.shape y.toNat))] = none →
      readRows (vocTaken x s) l.ln (l.ln.w.shape y.toNat) = (u, .ok rows) → (∀ r ∈ rows, r.res = 0 ∧ r.cnt ≤ rCols (l.ln.w.shape y.toNat) ∧ r.cnt ≤ rCols (l.ln.w.shape h.toNat)) →
      vocPlaces u l.ln (rows.zipIdx.map fun r => (l.ln.w.shape h.toNat, r.2 * rStride (l.ln.w.shape h.toNat), 128 + 8 * r.1.cnt, finalBytes r.1)) = (w, .ok ls) →
      VocArea x (.vfin e h y) s l w ls

end Sys2Proof.Machine
end

