-- ==== Sys2Proof/Safety/CoreEvents.lean ====
section
/-! DEFINITION. What the steps of a core do where they act: its schedulers, former and timers, the homes of atomics, bindings and releases,
the copy engine, and the units that empty their queues. -/

namespace Sys2Proof.Machine

open State

/-! ### Schedulers and the group former (R31-R41, R49, R50, R198, R199) -/

/-- A context that runs on a core. -/
def Runs (s : State) (c : CoreRef) (k : Ctx) : Prop := (s.core c).ctx = some k ∧ k.st = .running

/-- Whether a group comes next among those that are READY on its scheduler: the oldest that is younger than the group whose run ended last,
or the oldest of all where none is (R39). -/
def NextInAge (k : Ctx) (sc : Nat) (g : Group) : Prop :=
  let last := (k.rot[sc]?).getD 0
  let rs := (k.onSched sc).filter fun h => h.st == .ready
  g ∈ rs ∧ ((last < g.age ∧ ∀ h ∈ rs, last < h.age → g.age ≤ h.age) ∨ ((∀ h ∈ rs, h.age ≤ last) ∧ ∀ h ∈ rs, g.age ≤ h.age))

/-- A group of the threads of a key, the only one that the core builds on this clk (R31). -/
def formed (s : State) (c : CoreRef) (k : Ctx) (x : Nat × Thread) : State :=
  (((s.placeGroup c x.1 (keyThreads k x.1 x.2.pc)).countCore c 0x08).modCtx c fun k => { k with formedAt := some s.clk }).seeded c

/-- The steps of schedulers and of the former. -/
inductive SchedStep : Instr → State → State → Prop where
  | arbitrate {c sc s k g} : Runs s c k → k.runningOn sc = none → (rotate sc k).runningOn sc = none → nextReady (rotate sc k) sc = some g →
      SchedStep (.schedulerArbitration c sc) s
        (((s.modCtx c (rotate sc)).modGroup c g.slot fun x => { x with st := .running, run := 0, stall := .none }).reschedOne c sc)
  | exchange {c sc s k p g} : Runs s c k → k.oldestReady sc = some p →
      Ctx.oldestOf ((k.onSched sc).filter fun g => g.st == .stalled && g.stall != .none) = some g →
      SchedStep (.stallExchange c sc) s
        ((s.modCtx c fun k => (k.modGroup g.slot fun x => { x with st := .pStalled }).activate p).reschedOne c sc)
  | form {c s k x} : Runs s c k → k.formedAt ≠ some s.clk → firstBy seedBefore (s.eligible k) = some x → freeSlot k ≠ none →
      SchedStep (.groupFormation c) s (formed s c k x)
  | formNext {c s k} : Runs s c k → k.formedAt = some s.clk → SchedStep (.groupFormation c) s (s.postOnce (.groupFormation c))
  | aged {c wslot tid s k t} : Runs s c k → s.thread c wslot tid = some t → t.status = .seedbed → s.agedOut k t = true → freeSlot k ≠ none →
      SchedStep (.formAgeExpiry c wslot tid) s ((s.modThread c wslot tid fun t => { t with aged := true }).seeded c)
  | agedFull {c wslot tid s k t} : Runs s c k → s.thread c wslot tid = some t → t.status = .seedbed → s.agedOut k t = true → freeSlot k = none →
      SchedStep (.formAgeExpiry c wslot tid) s (((s.modThread c wslot tid fun t => { t with aged := true }).seeded c).postOnce (.groupDissolution c))
  | dissolve {c s k k' x v u} : Runs s c k → k.formedAt ≠ some s.clk → firstBy seedBefore ((s.eligible k).filter fun x => s.agedOut k x.2) = some x → freeSlot k = none →
      dissolveVictim k = some v →
      u = ((v.members.foldl (fun s t => s.modThread c v.wslot t fun th => { th.closeWindows with status := .seedbed, age := s.clk, aged := false }) s).modCtx c
        fun k => k.dropGroup v.slot).countCore c 0x10 →
      (u.core c).ctx = some k' → SchedStep (.groupDissolution c) s (formed u c k' x)
  | dissolveNone {c s k x} : Runs s c k → k.formedAt ≠ some s.clk → firstBy seedBefore ((s.eligible k).filter fun x => s.agedOut k x.2) = some x →
      freeSlot k ≠ none → SchedStep (.groupDissolution c) s (formed s c k x)
  | noVictim {c s k x} : Runs s c k → k.formedAt ≠ some s.clk → firstBy seedBefore ((s.eligible k).filter fun x => s.agedOut k x.2) = some x →
      freeSlot k = none → dissolveVictim k = none → SchedStep (.groupDissolution c) s (s.postOnce (.groupDissolution c))
  | mergeOver {c slot s k g} : Runs s c k → k.group slot = some g → g.stall = .merge →
      (s.gfc (partOfCid k.cid)).2.2 ≤ g.elapsed + (s.clk - g.endAt) → SchedStep (.mergeWaitExpiry c slot) s (s.passMerge c slot)
  | sleepOver {c slot s k g} : Runs s c k → k.group slot = some g → g.stall = .sleep → g.left ≤ s.clk - g.endAt →
      SchedStep (.tslpExpiry c slot) s
        ((((g.members.foldl (fun s t => s.modThread c g.wslot t fun th => { th with pc := (th.pc + 4 * (g.hint.words + 1)) % 2 ^ 64 }) s).modCtx c
          fun k => (k.endWait slot).modGroup slot fun x => { x with hint := {} })).resched c)
  | filled {c slot s k g} : (s.core c).ctx = some k → k.group slot = some g → g.stall = .fill →
      SchedStep (.cacheFillArrival c slot) s ((s.modGroup c slot fun g => { g with fillOk := true }).clearStall c k.gen slot)
  | spilled {c slot s k g} : (s.core c).ctx = some k → k.group slot = some g → g.stall = .spill →
      SchedStep (.spillFillCompletion c slot) s ((s.modGroup c slot fun g => { g with fillOk := true }).clearStall c k.gen slot)
  | grown {c s k slot n u} : growReady s c = some (slot, n) → (s.core c).ctx = some k → (k.group slot).isSome = true →
      u = ((s.modGroup c slot fun g => { g with granted := n }).modGroup c slot fun g => { g with fillOk := true }).clearStall c k.gen slot →
      SchedStep (.wgrowGrant c) s
        (if ((u.core c).ctx.map fun k => k.groups.any fun g => (growSeq g).isSome).getD false then u.postOnce (.wgrowGrant c) else u)

/-! ### Homes: atomics, bindings and releases (R81, R90-R93, R210-R217) -/

/-- A request at its home with an answer. -/
def answered (s : State) (q : Request) (v : Nat) (seen : List Nat) : State :=
  ({ s with reqs := mapIf (fun (y : Request) => y.id == q.id) (fun (y : Request) => { y with answer := some v, seen := seen }) s.reqs } : State).post
    (.bindAnswer q.id)

/-- Whether a change of bindings is one that an earlier thread's request of the same workgroup still waits for (R214). -/
def isBindReq (q : Request) : Bool := match q.kind with
  | .bind _ | .unbind _ _ => true
  | _ => false

/-- A new entry in a binding table, ordered after the changes before it. -/
def bound (s : State) (g : Grid) (q : Request) (e : BindEntry) : State :=
  answered (s.fresh.2.modGrid g.handle fun g =>
    { g with binds := g.binds ++ [e], changes := g.changes ++ [{ id := s.fresh.1, entry := e.id, add := true, by_ := q.t }] }) q 0 [s.fresh.1]

/-- The answer that a binding's request gets (R81, R215): no reduction window, no overlap with an entry that stands, and room for 4096. -/
def bindResult (s : State) (g : Grid) (q : Request) (e : BindEntry) : State :=
  if e.kind = 3 then answered s q 3 []
  else if conflicts s g e = true then answered s q 1 []
  else if 4096 ≤ (g.binds.filter fun o => standing s g o).length then answered s q 2 []
  else bound s g q e

/-- The partition of a request's grid (R399). -/
def partOfReq (s : State) (q : Request) : Nat := ((s.grid q.grid).map Grid.part).getD 0

/-- An atomic that its home may perform: nothing holds it, and its partition's queue has room (R90-R92, R397). -/
def HomeFree (s : State) (q : Request) (loc : Loc) (n : Nat) (lanes : List AtomLane) : Prop :=
  s.atomReady q loc n lanes = true ∧ s.locRoom (partOfReq s q) loc = true

/-- The steps at homes, where they act. -/
inductive HomeStep : Instr → State → State → Prop where
  | perform {id s q loc va n op ord lanes amax} : (s.reqs.find? fun q => q.id == id && q.answer.isNone) = some q →
      q.kind = .atomic loc va n op ord lanes amax → HomeFree s q loc n lanes → s.needsPromotion q loc n lanes = none → s.marked loc = false →
      HomeStep (.atomicHomePerform id) s
        (((s.performAtomic q loc va n op ord lanes amax).chargeLoc q.t.core.pkg (partOfReq s q) loc).workOver q.t.core q.grid)
  | homeWaits {id s q loc va n op ord lanes amax} : (s.reqs.find? fun q => q.id == id && q.answer.isNone) = some q →
      q.kind = .atomic loc va n op ord lanes amax → ¬HomeFree s q loc n lanes → HomeStep (.atomicHomePerform id) s (s.post (.atomicHomePerform id))
  | lostLine {id s q loc va n op ord lanes amax} : (s.reqs.find? fun q => q.id == id && q.answer.isNone) = some q →
      q.kind = .atomic loc va n op ord lanes amax → HomeFree s q loc n lanes → s.needsPromotion q loc n lanes = none → s.marked loc = true →
      HomeStep (.atomicHomePerform id) s
        (({ s with reqs := s.reqs.filter fun z => z.id != id } : State).loseBlock q.t.core q.t.gen q.t.wslot 1)
  | promotes {id s q y loc va n op ord lanes amax} : (s.reqs.find? fun q => q.id == id && q.answer.isNone) = some q →
      q.kind = .atomic loc va n op ord lanes amax → HomeFree s q loc n lanes → s.needsPromotion q loc n lanes = some y →
      HomeStep (.atomicHomePerform id) s
        (({ s with reqs := mapIf (fun (z : Request) => z.id == id) (fun (z : Request) => { z with promote := true }) s.reqs } : State).postOnce
          (.releasePromotion y.rel))
  | promoted {id s} : HomeStep (.releasePromotion id) s
      ((s.reqs.filter fun q => q.promote).foldl (fun s q => s.postOnce (.atomicHomePerform q.id))
        { s with
            syncs := mapIf (fun (y : SyncWord) => y.rel == id) (fun (y : SyncWord) => { y with pod := true }) s.syncs,
            reqs := s.reqs.map fun (q : Request) => { q with promote := false } })
  | binds {id s q k w g e} : (s.reqs.find? fun q => q.id == id && q.answer.isNone) = some q → q.kind = .bind e →
      (∀ y ∈ s.reqs, isBindReq y = true → y.id < id → y.answer = none → y.t.core = q.t.core → y.t.gen = q.t.gen → y.t.wslot ≠ q.t.wslot) →
      s.ctxAny q.t.core q.t.gen = some k → k.wg q.t.wslot = some w → s.grid w.grid = some g →
      HomeStep (.bindHomeOrder id) s (bindResult s g q e)
  | unbindsNone {id s q k w g a l} : (s.reqs.find? fun q => q.id == id && q.answer.isNone) = some q → q.kind = .unbind a l →
      (∀ y ∈ s.reqs, isBindReq y = true → y.id < id → y.answer = none → y.t.core = q.t.core → y.t.gen = q.t.gen → y.t.wslot ≠ q.t.wslot) →
      s.ctxAny q.t.core q.t.gen = some k → k.wg q.t.wslot = some w → s.grid w.grid = some g →
      (∀ e ∈ g.binds, ∀ b o i, s.entryAt g none e l = some (b, o, i) → b ≠ l) → HomeStep (.bindHomeOrder id) s (answered s q 0 [])
  | unbinds {id s q k w g a l e b o i} : (s.reqs.find? fun q => q.id == id && q.answer.isNone) = some q → q.kind = .unbind a l →
      (∀ y ∈ s.reqs, isBindReq y = true → y.id < id → y.answer = none → y.t.core = q.t.core → y.t.gen = q.t.gen → y.t.wslot ≠ q.t.wslot) →
      s.ctxAny q.t.core q.t.gen = some k → k.wg q.t.wslot = some w → s.grid w.grid = some g → g.binds = [e] → s.entryAt g none e l = some (l, o, i) →
      b = ((s.fresh.2.launchCopy g e l).map fun c => c.2.2.2).getD 0 →
      HomeStep (.bindHomeOrder id) s
        (answered (s.fresh.2.modGrid g.handle fun g =>
          { g with
              binds := if e.launch then mapIf (fun (y : BindEntry) => y.id == e.id) (fun (y : BindEntry) => { y with removed := y.removed ++ [(b, s.fresh.1)] }) g.binds else g.binds,
              changes := g.changes ++ [{ id := s.fresh.1, entry := e.id, add := false, by_ := q.t }] }) q 0 [s.fresh.1])
  | answer {id s q v} : (s.reqs.find? fun q => q.id == id && q.answer.isSome) = some q → q.answer = some v →
      HomeStep (.bindAnswer id) s (deliverAnswer s q v)
  | releaseHeld {id s q} : (s.releases.find? fun q => q.id == id) = some q → s.copiesLeft q.t q.copies = true ∨ s.atomsLeft q.atoms = true →
      HomeStep (.releaseCompletion id) s (s.post (.releaseCompletion id))
  | released {id s q pk di ix} : (s.releases.find? fun q => q.id == id) = some q → s.copiesLeft q.t q.copies = false → s.atomsLeft q.atoms = false →
      q.obj = .ph pk di ix →
      HomeStep (.releaseCompletion id) s
        ((({ s with releases := s.releases.filter fun y => y.id != id } : State).modPhaser (pk, di, ix) fun y =>
          { y with owed := y.owed - 1, curCarried := joinNat y.curCarried q.carries }).tryComplete (pk, di, ix))
  | releasedWord {id s q b n} : (s.releases.find? fun q => q.id == id) = some q → s.copiesLeft q.t q.copies = false → s.atomsLeft q.atoms = false →
      q.obj = .word b n → HomeStep (.releaseCompletion id) s { s with releases := s.releases.filter fun y => y.id != id }

/-- The lanes of an atomic with one lane: its old value is owed to its thread, which then goes on (R212). -/
inductive ResultStep : Instr → State → State → Prop where
  | one {id s q loc va n op ord l amax} : (s.reqs.find? fun q => q.id == id && q.answer.isSome) = some q →
      q.kind = .atomic loc va n op ord [l] amax → (s.place q.t.core q.t.gen).isSome = true →
      ResultStep (.atomicResultArrival id) s
        (let u := (s.modThreadAt { q.t with tid := l.tid } fun t =>
          let t := t.fillOwed id l.old
          { t with known := if l.acq then joinNat t.known q.seen else t.known, lastSeen := if t.lastReq == id && ord == 0 then q.seen else t.lastSeen }).wake
            { q.t with tid := l.tid }
         { u with reqs := u.reqs.filter fun z => z.id != id })
  | away {id s q loc va n op ord l amax} : (s.reqs.find? fun q => q.id == id && q.answer.isSome) = some q →
      q.kind = .atomic loc va n op ord [l] amax → s.place q.t.core q.t.gen = none →
      ResultStep (.atomicResultArrival id) s
        (let u := (s.lateResult { q.t with tid := l.tid } id l.old).modSaved q.t.core q.t.gen fun k => k.modWg q.t.wslot fun w => w.modThread l.tid fun t =>
          { t with known := if l.acq then joinNat t.known q.seen else t.known, lastSeen := if t.lastReq == id && ord == 0 then q.seen else t.lastSeen }
         { u with reqs := u.reqs.filter fun z => z.id != id })

/-! ### The copy engine (R89-R91, R231-R244) -/

/-- A copy that its engine may work on. -/
def Works (s : State) (c : CoreRef) (id : Nat) (k : Ctx) (e : CopyEntry) : Prop :=
  s.copyOf c id = some (k, e) ∧ k.st ≠ .halted ∧ k.bgAway = false

/-- A copy in progress that goes on to its next line: where its context halts, it does not yet stand at the end of a chunk (R91, R245). -/
structure Writes (s : State) (c : CoreRef) (id : Nat) (k : Ctx) (e : CopyEntry) : Prop where
  works : Works s c id k e
  active : e.st = .active
  left : e.written < copyTotal e
  goes : k.st = .halting → s.mayHalt c k e = false

/-- What follows a piece of `n` bytes written: it is counted down, and the copy ends with its last byte. -/
def pieceDone (u : State) (c : CoreRef) (id : Nat) (k : Ctx) (e : CopyEntry) (n : Nat) : State :=
  let u := if n = 0 then u else u.countCopy c k.gen e n 0
  (if copyTotal e ≤ (((u.copyOf c id).map fun x => x.2.written).getD 0) then u.endCopy c id else u.post (.copyLineWrite c id)).wakeRecalls

/-- Everyone who waits for a copy looks again; what is left of a workgroup that has ended may go. -/
def copyFreed (s : State) (c : CoreRef) (k : Ctx) (e : CopyEntry) : State :=
  ((s.wakeAll c fun w => w == .copyQueue || w == .drain || w == .phaser).wakeRecalls).reapWg c k.gen e.wslot

/-- The steps of a copy engine, where they act. -/
inductive CopyStep : Instr → State → State → Prop where
  | opens {c id s k e u} : Works s c id k e → e.st = .gated → e.f ≠ drainF → e.ready = true →
      u = (s.modThreadAt { core := c, gen := k.gen, wslot := e.wslot, tid := e.tid } fun t => t.acquired (e.gate.getD 0) e.acq) →
      CopyStep (.copyGateOpen c id) s
        ((({ u with nextId := u.nextId + 1 } : State).modCopy c id fun e => { e with st := .active, own := u.nextId }).post (.copyLineWrite c id))
  | shut {c id s k e p} : Works s c id k e → e.st = .gated → e.f ≠ drainF → e.ready = false → s.phaserUid e.gate = some p → CopyStep (.copyGateOpen c id) s s
  | gateGone {c id s k e} : Works s c id k e → e.st = .gated → e.f ≠ drainF → e.ready = false → s.phaserUid e.gate = none →
      CopyStep (.copyGateOpen c id) s ((s.modCopy c id fun e => { e with detail := 0x40, faddr := 0 }).endCopy c id)
  | writes {c id s k e u n} : Writes s c id k e → s.copyPiece c k e = (u, .ok n) →
      CopyStep (.copyLineWrite c id) s (pieceDone u c id k e n)
  | faults {c id s k e u d a} : Writes s c id k e → s.copyPiece c k e = (u, .error (.fault d a)) →
      CopyStep (.copyLineWrite c id) s ((u.modCopy c id fun e => { e with detail := d, faddr := a }).endCopy c id)
  | waits {c id s k e u} : Writes s c id k e → s.copyPiece c k e = (u, .error .wait) →
      CopyStep (.copyLineWrite c id) s ((u.modCopy c id fun e => { e with stuck := true }).post (.copyLineWrite c id))
  | halts {c id s k e} : Works s c id k e → e.st = .active → e.written < copyTotal e → k.st = .halting → s.mayHalt c k e = true →
      CopyStep (.copyLineWrite c id) s s
  | allWritten {c id s k e} : Works s c id k e → e.st = .active → copyTotal e ≤ e.written → CopyStep (.copyLineWrite c id) s (s.endCopy c id)
  | completes {c id s k e} : s.copyOf c id = some (k, e) → e.st = .ended → e.detail = 0 →
      CopyStep (.copyCompletion c id) s (copyFreed (s.modCtx c fun k => { k with copies := k.copies.filter fun x => x.id != id }) c k e)
  | keeps {c id s k e} : s.copyOf c id = some (k, e) → e.st = .ended → e.detail ≠ 0 → copyGone k e = false →
      CopyStep (.copyCompletion c id) s (copyFreed s c k e)
  | late {c id s k e} : s.copyOf c id = some (k, e) → e.st = .ended → e.detail ≠ 0 → e.reported = false → copyGone k e = true →
      CopyStep (.copyCompletion c id) s (copyFreed ((s.lateReport c k e).modCtx c fun k => { k with copies := k.copies.filter fun x => x.id != id }) c k e)

/-! ### The sequencer and the projection (R253-R256, R260-R271, R280-R292) -/

/-- An entry at the head of a core's sequencer that it may work on. -/
structure Heads (s : State) (c : CoreRef) (k : Ctx) (q : SeqEntry) (ln : Lane) : Prop where
  ctx : (s.core c).ctx = some k
  head : k.mtx.queue.head? = some q
  runs : k.st ≠ .halted ∧ k.bgAway = false
  lane : seqLane s c k q.tid = some ln
  sound : k.mtx.fault = none
  goes : k.st = .halting → headHalts s c k q ln = false

/-- The accumulators with the slots of a mask zeroed (R260). -/
def zeroed (mask : Nat) (acc : Words) : Words := (List.range 4).foldl (fun a j => if bit mask j then sclear a (j * 8192) 8192 else a) acc

/-- A sequencer that works on an entry, not waiting for its partners. -/
def seqBusy (s : State) (c : CoreRef) : State := modMtx s c fun m => { m with st := .busy }

/-- The next step of an entry. -/
def stepped (s : State) (c : CoreRef) (q : SeqEntry) : State := progress s c q fun y => { y with progress := q.progress + 1 }

/-- The steps of the sequencer, where they act. -/
inductive SeqStep : Instr → State → State → Prop where
  | zeroes {c s k q ln mask} : Heads s c k q ln → q.op = .mzro mask →
      SeqStep (.mzroEntry c) s (retire (modMtx s c fun m => { m with acc := zeroed mask m.acc }) c k q)
  | builds {c s k q ln rb rs rc p u me l h j ch} : Heads s c k q ln → q.op = .mbld rb rs rc p → p.nq ≠ 0 → h = (if p.nq ≤ 128 then 1 else 2) →
      j = q.progress / (8 * h) → ch = q.progress % 8 → j < rRows rb / kStep (rFmt rb) →
      rowChunks s ln rb rs rc p j (q.progress / 8 % h) (8 - ch) ch (seqAgent s q) = (u, me, l, none) → (∀ y ∈ l, ∀ v ∈ y.2, v ≠ none) →
      SeqStep (.mbldEntry c) s
        (progress (modMtx u c fun m => l.foldl (fun (m : Matrix) y => buildChunk rb p ((rBase rb + j * h + q.progress / 8 % h) % 1024) (q.progress / 8 % h) y.1
            (y.2.map fun v => v.getD 0) m) m) c q
          fun y => { y with progress := y.progress + 8 - ch, snaps := me.snaps })
  | built {c s k q ln rb rs rc p} : Heads s c k q ln → q.op = .mbld rb rs rc p → (p.nq = 0 ∨ rRows rb / kStep (rFmt rb) ≤ q.progress / (8 * if p.nq ≤ 128 then 1 else 2)) →
      SeqStep (.mbldEntry c) s (retire s c k q)
  | kstep {c s k q ln slot ra rb n binc ainc sel scales p num sb u rows} : Heads s c k q ln →
      q.op = .mlp slot ra rb n binc ainc sel scales p num sb → q.progress < n → p.mq ≠ 0 → p.nq ≠ 0 →
      (∀ i, num = some i → partnersReady s c k ln.w (rRows ra) (rCols rb) i q.progress = true) →
      readRowsA (seqBusy s c) ln q ra p q.progress ainc = (u, none, rows) → (∀ r ∈ rows, r ≠ none) →
      SeqStep (.mlpKstep c) s (stepped (modMtx u c (kstepAcc slot ra rb n q.progress binc sel scales p rows)) c q)
  | partners {c s k q ln slot ra rb n binc ainc sel scales p i sb} : Heads s c k q ln →
      q.op = .mlp slot ra rb n binc ainc sel scales p (some i) sb → q.progress < n → p.mq ≠ 0 → p.nq ≠ 0 → partnersReady s c k ln.w (rRows ra) (rCols rb) i q.progress = false →
      SeqStep (.mlpKstep c) s ((modMtx s c fun m => { m with st := .partner }).postOnce (.mlpKstep c))
  | looped {c s k q ln slot ra rb n binc ainc sel scales p num sb} : Heads s c k q ln →
      q.op = .mlp slot ra rb n binc ainc sel scales p num sb → (n ≤ q.progress ∨ p.mq = 0 ∨ p.nq = 0) → SeqStep (.mlpKstep c) s (retire s c k q)
  | drains {c s k q ln slot rc mode amax p tile t n u l} : Heads s c k q ln → q.op = .mdrn slot rc mode amax p tile →
      q.progress < p.mq * (p.nq * (fmtBits (rFmt rc) / 8)) → drainPiece ln rc p q.progress = (t, n) →
      s.engLoc ln (drainAgent s c ln q q.copy) t (recAddr rc 0) n .write = (u, .ok l) →
      SeqStep (.mdrnChunk c) s
        ((progress (((u.chargeLoc c.pkg ln.g.part l).writeLoc l n (drainBytes rc mode (drainAccs k.mtx slot rc p q.progress n))).modCopy c q.copy fun e => { e with written := q.progress + n }) c q
          fun y => { y with
            progress := y.progress + n,
            rmax := (drainAccs k.mtx slot rc p q.progress n).foldl (fun r a => maxMag r (a % 2 ^ 31)) q.rmax }).wakeRecalls)
  | drained {c s k q ln slot rc mode p tile} : Heads s c k q ln → q.op = .mdrn slot rc mode none p tile →
      p.mq * (p.nq * (fmtBits (rFmt rc) / 8)) ≤ q.progress → SeqStep (.mdrnChunk c) s (retire (endDrain s c q) c k q)
  | merged {c s k q ln slot rc mode a p tile t u l} : Heads s c k q ln → q.op = .mdrn slot rc mode (some a) p tile →
      p.mq * (p.nq * (fmtBits (rFmt rc) / 8)) ≤ q.progress → atomTgt ln a = some t →
      (∀ cs rs as, q.rel = some (cs, rs, as) → s.copiesLeft ln.r rs = false ∧ s.atomsLeft as = false) →
      s.engLoc ln (drainAgent s c ln q q.word) t a 4 .atomic = (u, .ok l) → SeqStep (.mdrnChunk c) s (retire (endDrain (mergeMax u c k q ln l) c q) c k q)
  | signals {c s k q ln sigs tid uid p m l} : Heads s c k q ln → q.op = .mwtSg sigs → sigs[q.progress]? = some (tid, uid) →
      s.phaserUid (some uid) = some p → p.member { ln.r with tid := tid } = some m → phLt p.phase m.sp = false →
      s.laneOf { ln.r with tid := tid } = some l → s.heldBefore l p.obj q.id = false →
      SeqStep (.mwtSgEntry c) s (progress (s.countSignalUpTo p.key { ln.r with tid := tid } q.id) c q fun y => { y with progress := y.progress + 1 })
  | signalWaits {c s k q ln sigs tid uid p m l} : Heads s c k q ln → q.op = .mwtSg sigs → sigs[q.progress]? = some (tid, uid) →
      s.phaserUid (some uid) = some p → p.member { ln.r with tid := tid } = some m → s.laneOf { ln.r with tid := tid } = some l →
      (phLt p.phase m.sp = true ∨ s.heldBefore l p.obj q.id = true) → SeqStep (.mwtSgEntry c) s (seqWait s c q [])
  | signalled {c s k q ln sigs} : Heads s c k q ln → q.op = .mwtSg sigs → sigs.length ≤ q.progress → SeqStep (.mwtSgEntry c) s (retire s c k q)

/-- A projection in progress on a core, with the lane that it acts for. -/
structure Projects (s : State) (c : CoreRef) (k : Ctx) (ln : Lane) : Prop where
  ctx : (s.core c).ctx = some k
  active : k.voc.st = .active ∧ k.voc.result = none
  runs : k.st ≠ .halted
  lane : ∃ w, k.mtx.holder = some w ∧ s.laneOf { core := c, gen := k.gen, wslot := w, tid := k.voc.tid } = some ln

/-- The steps of a projection's engine. -/
inductive VocStep : Instr → State → State → Prop where
  | forward {c s k ln u ss ds} : Projects s c k ln → k.voc.block < rRows (k.voc.rc 1) → vocReadsFrom s ln k.voc.snaps (blockReads k.voc) = (u, ss, .ok ds) →
      k.voc.back = false →
      (∀ r ∈ blockRows k.voc ds, r.heap.length ≤ rCols (k.voc.rc 0)) →
      VocStep (.vocabBlockFold c) s (nextBlock u c fun v => { v with rows := blockRows k.voc ds, snaps := ss })
  | backward {c s k ln u ss ds w ps} : Projects s c k ln → k.voc.block < rRows (k.voc.rc 1) → vocReadsFrom s ln k.voc.snaps (blockReads k.voc) = (u, ss, .ok ds) →
      k.voc.back = true →
      vocPlaces u ln (blockWrites k.voc ds) = (w, .ok ps) → VocStep (.vocabBlockFold c) s (nextBlock (writePieces w ps) c fun v => { v with snaps := ss })
  | faults {c s k ln u ss d a} : Projects s c k ln → k.voc.block < rRows (k.voc.rc 1) → vocReadsFrom s ln k.voc.snaps (blockReads k.voc) = (u, ss, .error (.fault d a)) →
      VocStep (.vocabBlockFold c) s (endProj u c k ln (Code.copyFault.num, d, a))
  | projected {c s k ln} : Projects s c k ln → rRows (k.voc.rc 1) ≤ k.voc.block → VocStep (.vocabBlockFold c) s (endProj s c k ln (0, 0, 0))

end Sys2Proof.Machine
end

