-- ==== Sys2Proof/Safety/TreeEvents.lean ====
section
/-! DEFINITION. What the steps of the dispatch tree, of a block's start and of the collective engines do where they act. -/

namespace Sys2Proof.Machine

open State

/-! ### Launch and placement (R296-R302, R427-R431) -/

/-- The earlier launches of a workgroup have been answered. -/
def LaunchTurn (s : State) (q : Request) : Prop :=
  ∀ y ∈ s.reqs, (∃ a b c d e f, y.kind = .launch a b c d e f) → y.id < q.id → y.answer = none → y.t.core = q.t.core → y.t.gen = q.t.gen →
    y.t.wslot ≠ q.t.wslot

/-- A launch that may be read now: its workgroup's earlier launches are answered, a thread's earlier copies and atomics are done (R87), and no copy
engine owns its record's lines (R91). -/
structure LaunchReady (s : State) (q : Request) (rec_ cid level : Nat) (queue : Option (QRef × Packet)) : Prop where
  turn : LaunchTurn s q
  released : queue = none → launchHeld s q = false
  free : gHeld s level cid rec_ 128 = false

/-- A launch request answered with a value. -/
def launchAnswer (s : State) (id v : Nat) : State :=
  ({ s with reqs := mapIf (fun y => y.id == id) (fun y => { y with answer := some v }) s.reqs } : State).post (.requestResultArrival id)

/-- A command of the tree that its receiver takes: not malformed, for a grid that has not completed. -/
structure Takes (s : State) (l : Link) (h : Nat) (g : Grid) : Prop where
  grid : s.grid h = some g
  wellformed : l.malformed = false
  lives : g.complete = false

/-- A die that still has fewer blocks than its share asks for more, once, as it takes a range (R301). -/
def dealt (s : State) (l : Link) (h lo hi : Nat) : State :=
  askMore (s.modGrid h fun g => g.modNode (isDie l.pkg l.die) fun x =>
    { x with ranges := x.ranges ++ [(lo, hi)], dealt := x.dealt + (hi - lo), lo := lo, hi := hi, st := if x.st == 0 then 1 else x.st }) h l.pkg l.die

/-- A workgroup's frames about to be cleared, wherever its context stands. -/
def goneOn (s : State) (x : CoreRef × Ctx × Workgroup) : State :=
  let go := fun (k : Ctx) => k.modWg x.2.2.slot fun w => { w with cleared := true }
  ((s.modCtxAt x.1 x.2.1.gen go).modSaved x.1 x.2.1.gen go).postOnce (.frameClearingDone x.1 x.2.2.slot)

/-- A block that may start: placed, told to, its context running, and its images there. -/
structure Startable (s : State) (c : CoreRef) (wslot : Nat) (k : Ctx) (w : Workgroup) (g : Grid) (imgs : List Nat) : Prop where
  ctx : (s.core c).ctx = some k
  runs : k.st = .running
  wg : k.wg wslot = some w
  slot : w.slot = wslot
  grid : s.grid w.grid = some g
  fresh : w.started = false
  told : w.cleared = true
  images : imagesOf s g w.block = some imgs

/-- A block as it starts: its frames cleared, its threads from their images in the seedbed and in groups, and its start counted. -/
def blockStarts (s : State) (c : CoreRef) (gen : Nat) (w : Workgroup) (g : Grid) (imgs : List Nat) : State :=
  let u := clearFrames { s with xwaits := s.xwaits.filter fun x => x.t != clearRef c gen w.slot } g w.block
  let cut := g.lrec.cmode && g.cancelledAt c.pkg c.die
  let ths := (w.threads.zip imgs).map fun x => { imageThread g x.2 x.1 u.clk with pcan := cut }
  ((launchGroups (u.modWg c w.slot fun w => { w with threads := ths, started := true, cut := cut }) c w.slot g.lrec.wgsize).seeded c).sendCount c g.handle
    { started := 1 }

/-- The steps of launches and of the dispatch tree. -/
inductive TreeStep : Instr → State → State → Prop where
  | launches {id s q rec_ cid level part pkg queue l} : (s.reqs.find? fun q => q.id == id && q.answer.isNone) = some q → q.id = id →
      q.kind = .launch rec_ cid level part pkg queue → LaunchReady s q rec_ cid level queue → checkLaunch s level cid rec_ = .ok l →
      TreeStep (.launchRequest id) s (launchAnswer (accept s level cid pkg l queue) id l.r.rcba)
  | refuses {id s q rec_ cid level part pkg queue st} : (s.reqs.find? fun q => q.id == id && q.answer.isNone) = some q → q.id = id →
      q.kind = .launch rec_ cid level part pkg queue → LaunchReady s q rec_ cid level queue → checkLaunch s level cid rec_ = .error st →
      TreeStep (.launchRequest id) s (launchAnswer s id (st + 0xFFFFFFFF * 2 ^ 32))
  | result {id s q v} : (s.reqs.find? fun q => q.id == id && q.answer.isSome) = some q → q.answer = some v →
      TreeStep (.requestResultArrival id) s (deliverAnswer s q v)
  | places {pkg die s g first again l} : placeable s pkg die = some (g, first, again, l) →
      TreeStep (.neighbourhoodPlacement pkg die) s ((placeNb s g pkg die first again l).postOnce (.neighbourhoodPlacement pkg die))
  | noPlace {pkg die s} : placeable s pkg die = none → TreeStep (.neighbourhoodPlacement pkg die) s s
  | deal {l h lo hi s g n} : Takes s l h g → g.dieNode l.pkg l.die = some n → n.st ≠ 3 → lo < hi →
      TreeStep (.deal l h lo hi) s ((dealt s l h lo hi).postOnce (.neighbourhoodPlacement l.pkg l.die))
  | start {l h a s g} : Takes s l h g →
      TreeStep (.start l h a) s (startAnswered (admitStart s l g a).1 l h a (admitStart s l g a).2)
  | go {l h first s g} : Takes s l h g → TreeStep (.go l h first) s ((toStart s l h first g).foldl goneOn s)
  | cancelAtDie {l h cmode s} : l.malformed = false → l.tag = 0 → TreeStep (.cancel l h cmode) s (cancelDie s l h cmode)
  | cancelAtLeaf {l h cmode s} : l.malformed = false → l.tag ≠ 0 → TreeStep (.cancel l h cmode) s (cancelLeaf s (leafCores s l) h cmode)
  | demand {l h n s g} : Takes s l h g → TreeStep (.demand l h n) s (servePkg s h l.pkg)
  | count {l h d s g} : Takes s l h g → TreeStep (.count l h d) s (tryFinish (servePkg (addCount s h l.pkg l.die d) h l.pkg) h)
  | faultrec {l h r s g} : Takes s l h g → TreeStep (.faultrec l h r) s (tryFinish (takeFault s h r) h)
  | budget {h s g} : s.grid h = some g → g.complete = false → g.lrec.tbudget ≠ 0 → g.accepted + 1000 * g.lrec.tbudget ≤ s.time g.rootPkg →
      TreeStep (.timeBudgetExpiry h) s (tryFinish (cancelGrid s h 4) h)
  | begins {c wslot s k w g imgs} : Startable s c wslot k w g imgs → clearWait s g (clearRef c k.gen wslot) w.block = none →
      clearHeld s g w.block = false → w.relaunches = 0 →
      TreeStep (.frameClearingDone c wslot) s (noteBegun (blockStarts s c k.gen w g imgs) g.handle c.pkg c.die)
  | beginsAgain {c wslot s k w g imgs} : Startable s c wslot k w g imgs → clearWait s g (clearRef c k.gen wslot) w.block = none →
      clearHeld s g w.block = false → w.relaunches ≠ 0 → TreeStep (.frameClearingDone c wslot) s (blockStarts s c k.gen w g imgs)
  | clearingFaults {c wslot s k w g imgs va ipa kind} : Startable s c wslot k w g imgs →
      clearWait s g (clearRef c k.gen wslot) w.block = some (va, ipa, kind) →
      TreeStep (.frameClearingDone c wslot) s ((s.noteStage2 (clearRef c k.gen wslot) true va ipa kind).post (.frameClearingDone c wslot))
  | clearingHeld {c wslot s k w g imgs} : Startable s c wslot k w g imgs → clearWait s g (clearRef c k.gen wslot) w.block = none →
      clearHeld s g w.block = true → TreeStep (.frameClearingDone c wslot) s (s.post (.frameClearingDone c wslot))

/-! ### Collectives (R319-R326, R342, R463) -/

/-- The bytes that a communicator uses of an engine's buffer (R323). -/
def bufUsed (e : Engine) (x : ChunkAt) : Nat := ((e.used.find? fun u => u.1 == x.m.part && u.2.1 == x.m.comm).map fun u => u.2.2).getD 0

/-- A chunk that a rank's engine has yet to accept for a step, and that engine. -/
structure Accepting (s : State) (h i c r : Nat) (x : ChunkAt) (e : Engine) : Prop where
  chunk : chunkAt s h i c = some x
  number : x.k.c = c
  lives : chunkOver x = false
  waits : r ∉ x.k.accepted
  turn : x.mayStart s i r = true
  engine : ((s.pkg (x.pkgOf r)).engines.find? fun e => e.stack == c % 12) = some e

/-- A chunk accepted: its bytes reserved in the engine's buffer. -/
def reserved (s : State) (h i c r : Nat) (x : ChunkAt) : State :=
  (modEngine s (x.pkgOf r) (c % 12) fun e =>
    { e with used := upsert (fun u => u.1 == x.m.part && u.2.1 == x.m.comm) (x.m.part, x.m.comm, bufUsed e x + x.b.cb) e.used }).modGrid h
      fun g => modChunk g i c fun k => { k with accepted := k.accepted ++ [r] }

/-- A rank's pages of a chunk translated, after which its engine works on it or gives its place back, and the chunk's next steps are asked for. -/
def translatedBy (s : State) (h i c r : Nat) (ps : List (Nat × Nat)) : State :=
  nextSteps (enterEngine (s.modGrid h fun g => modChunk g i c fun k => { k with translated := k.translated ++ [r], pages := k.pages ++ ps }) h i c r) h i c

/-- A chunk that an engine goes on translating. -/
structure Translating (s : State) (h i c r : Nat) (x : ChunkAt) : Prop where
  chunk : chunkAt s h i c = some x
  lives : chunkOver x = false
  accepted : r ∈ x.k.accepted
  waits : r ∉ x.k.translated

/-- A chunk's place among those that wait in a class: by its communicator's number, after the one served last (R323). -/
def turnAfter (e : Engine) (cls : Nat) (y : Nat × Nat × Nat × Nat × Nat × Nat) : Nat :=
  (commTurn y.1 y.2.1 + 1024 - natAt e.lastComm cls) % 1024

/-- Whether an accepted chunk is the one that an engine serves next (R323): of the highest class that waits, and in it the first in turn
after the communicator served last. -/
def NextChunk (s : State) (e : Engine) (y : Nat × Nat × Nat × Nat × Nat × Nat) : Prop :=
  ∃ best, firstBy (fun (a b : Nat × Nat × Nat × Nat × Nat × Nat) => classOf s a.1 a.2.1 < classOf s b.1 b.2.1) e.waiting = some best ∧
    firstBy (fun (a b : Nat × Nat × Nat × Nat × Nat × Nat) => turnAfter e (classOf s best.1 best.2.1) a < turnAfter e (classOf s best.1 best.2.1) b)
      (e.waiting.filter fun z => classOf s z.1 z.2.1 == classOf s best.1 best.2.1) = some y

/-- An engine's current step taken off it, and the chunk's place in the buffer given back. -/
def stepTaken (s : State) (pkg stack h i r : Nat) (x : ChunkAt) : State :=
  let u := modEngine s pkg stack fun e => { e with current := none }
  (modEngine u (x.pkgOf r) (x.k.c % 12) fun e =>
    { e with used := mapIf (fun (v : Nat × Nat × Nat) => v.1 == x.m.part && v.2.1 == x.m.comm) (fun v => (v.1, v.2.1, v.2.2 - x.b.cb)) e.used }).modGrid h
      fun g => modChunk g i x.k.c fun k => { k with accepted := k.accepted.erase r }

/-- The chunk that an engine's current step is of: it has not ended, the engine has accepted it, and no copy engine owns a line of it (R91). -/
structure EngineAt (s : State) (pkg stack h i c r : Nat) (x : ChunkAt) : Prop where
  step : ∃ e part comm, (s.pkg pkg).engines.find? (fun e => e.stack == stack) = some e ∧ e.current = some (part, comm, h, i, c, r)
  chunk : chunkAt s h i c = some x
  lives : chunkOver x = false
  accepted : r ∈ x.k.accepted
  free : stepHeld s x r = false

/-- The steps of the engines. -/
inductive CollStep : Instr → State → State → Prop where
  | acceptsFirst {h i c r s x e ps} : Accepting s h i c r x e → bufUsed e x + x.b.cb ≤ 2 ^ x.m.logbuf → r ∉ x.k.translated →
      chunkPages (reserved s h i c r x) x c r = .ok ps →
      CollStep (.chunkAcceptance h i c r) s ((translatedBy (reserved s h i c r x) h i c r ps).postOnce (.engineArbitration (x.pkgOf r) (c % 12)))
  | accepts {h i c r s x e y} : Accepting s h i c r x e → bufUsed e x + x.b.cb ≤ 2 ^ x.m.logbuf → r ∈ x.k.translated →
      chunkAt (reserved s h i c r x) h i c = some y → (y.mayRead (reserved s h i c r x) i r = true ∨ y.mayWrite (reserved s h i c r x) i r = true) →
      CollStep (.chunkAcceptance h i c r) s
        ((modEngine (reserved s h i c r x) (y.pkgOf r) (c % 12) fun e => { e with waiting := e.waiting ++ [(y.m.part, y.m.comm, h, i, c, r)] }).postOnce
          (.engineArbitration (x.pkgOf r) (c % 12)))
  | noRoom {h i c r s x e} : Accepting s h i c r x e → 2 ^ x.m.logbuf < bufUsed e x + x.b.cb →
      CollStep (.chunkAcceptance h i c r) s (s.post (.chunkAcceptance h i c r))
  | translated {h i c r s x ps} : Translating s h i c r x → chunkPages s x c r = .ok ps →
      CollStep (.chunkTranslation h i c r) s ((translatedBy s h i c r ps).postOnce (.engineArbitration (x.pkgOf r) (c % 12)))
  | lost {h i c r s x} : Translating s h i c r x → chunkPages s x c r = .fail →
      CollStep (.chunkTranslation h i c r) s
        (let u : State := { s with xwaits := s.xwaits.filter fun w => !(w.stage == 2 && w.engine && w.t == engineRef (x.pkgOf r) (c % 12) r) }
         (loseChunk u ((chunkAt u h i c).getD x) h i (x.pkgOf r) true).postOnce (.engineArbitration (x.pkgOf r) (c % 12)))
  | arbitrates {pkg stack s e y} : ((s.pkg pkg).engines.find? fun e => e.stack == stack) = some e → e.current = none → NextChunk s e y →
      CollStep (.engineArbitration pkg stack) s
        ((modEngine s pkg stack fun e =>
          { e with current := some y, waiting := e.waiting.erase y,
                   lastComm := sset 0 e.lastComm (classOf s y.1 y.2.1) ((commTurn y.1 y.2.1 + 1) % 1024) }).post (.chunkStepCompletion pkg stack))
  | serving {pkg stack s e y} : ((s.pkg pkg).engines.find? fun e => e.stack == stack) = some e → e.current = some y →
      CollStep (.engineArbitration pkg stack) s s
  | reads {pkg stack s h i c r x v u} : EngineAt s pkg stack h i c r x → u = stepTaken s pkg stack h i r x → x.mayRead u i r = true →
      engBytes u x.k.pages (x.b.cb / 2 ^ 16 + 2) (x.srcAt r) x.b.cb = some v →
      CollStep (.chunkStepCompletion pkg stack) s
        (boundary (nextSteps ((chargeChunk u x r .read).modGrid h fun g => modChunk g i c fun k => { k with src := k.src ++ [(r, v)] }) h i c) pkg stack)
  | writes {pkg stack s h i c r x u v} : EngineAt s pkg stack h i c r x → u = stepTaken s pkg stack h i r x → x.mayRead u i r = false →
      x.mayWrite u i r = true →
      v = ((x.dstAt r).foldl (fun s d => engPut s x.k.pages (x.b.cb / 2 ^ 16 + 2) d.1 x.b.cb (chunkResult x d.2)) (chargeChunk u x r .write)).modGrid h
        (fun g => modChunk g i c fun k => { k with written := k.written ++ [r] }) →
      CollStep (.chunkStepCompletion pkg stack) s
        (boundary (if x.k.written.length + 1 = x.writers.length then endChunk v h i c 2 false else nextSteps v h i c) pkg stack)
  | switch {h b s} : CollStep (.switchSlotRequest h b) s (s.switchRequest h b)

end Sys2Proof.Machine
end

