-- ==== Sys2Proof/Safety/HostEvents.lean ====
section
/-! DEFINITION. What the steps of queues, functions, clocks, errors, resets and the service engines do where they act. -/

namespace Sys2Proof.Machine

open State

/-! ### Packets (R412-R414, R387, R391-R395) -/

/-- A packet of a queue that is open at a level, with its partition and CID. -/
def Served (s : State) (q : QRef) (lv part cid : Nat) : Prop := queueLevel s q = some (lv, part, cid)

/-- A packet that ends with a status, its result 0 and its signal given (R414). -/
def ended (s : State) (q : QRef) (p : Packet) (status : Nat) : State := finishPacket s q p status 0 true

/-- A launch's record as a queue launches it: in the packet's stream. -/
def inStream (l : Launching) (p : Packet) : Launching := { l with r := { l.r with stream := p.stream } }

/-- The job that a JOBSET names. -/
def jobOf (p : Packet) (part : Nat) : Nat := 4096 * part + bits p.arg0 11 0

/-- A JOBSET without a fault in its arguments (R395). -/
structure JobArgs (p : Packet) (create : Bool) : Prop where
  reserved : bit p.arg0 15 = false ∧ bits p.arg0 31 30 = 0 ∧ p.arg0 / 2 ^ 48 = 0 ∧ p.arg1 % 2 ^ 16 = 0
  op : bits p.arg0 14 13 = if create then 0 else 1
  job : bits p.arg0 11 0 ≠ 0 ∧ bits p.arg0 29 16 ≤ 8192
  gen : create = true → bits p.arg0 47 32 ≠ 0

/-- Whether a job is one that a valid horizon will bring in. -/
def jobNamed (s : State) (cid : Nat) : Prop :=
  ∃ x ∈ s.packages, ∃ e ∈ x.hzn, (hznOf e.2).valid = true ∧ (hznOf e.2).fired = false ∧ (hznOf e.2).ingen ≠ 0 ∧ (hznOf e.2).incid = cid

/-- A job's D given up on every die. -/
def jobGone (s : State) (cid : Nat) : State :=
  { s with
    cores := mapIf (fun (x : Core) => !x.victim && (x.expSlot.any fun k => k.cid == cid)) (fun (x : Core) => { x with expSlot := none }) s.cores,
    jobs := s.jobs.filter (fun j => j.cid != cid),
    dallocs := s.dallocs.filter (fun x => x.cid != cid),
    dmem := (s.dallocs.filter fun x => x.cid == cid).foldl (fun m x => sclear m (dKey x.pkg x.die cid 0) (2 ^ 32)) s.dmem }

/-- A COMMSET without a fault in its arguments (R320, R413). -/
structure CommArgs (p : Packet) (gone : Bool) : Prop where
  reserved : bits p.arg0 7 6 = 0 ∧ bits p.arg0 11 10 = 0 ∧ bits p.arg0 23 21 = 0 ∧ bits p.arg0 31 29 = 0 ∧ p.arg0 / 2 ^ 33 = 0
  op : bit p.arg0 32 = gone
  size : gone = false → 12 ≤ bits p.arg0 28 24 ∧ bits p.arg0 28 24 ≤ 20

/-- No incomplete grid of a partition uses a communicator. -/
def CommFree (s : State) (part comm : Nat) : Prop :=
  ∀ g ∈ s.grids, g.part = part → g.complete = false → ∀ b ∈ g.colls, b.comm ≠ comm

/-- The communicator that a COMMSET describes. -/
def commMade (p : Packet) (part v : Nat) : Comm :=
  { part := part, comm := bits p.arg0 5 0, cls := bits p.arg0 9 8, seed := v % 2 ^ 64,
    ranks := (List.range (bits p.arg0 20 12 + 1)).map fun i => v / 2 ^ (64 + 16 * i) % 2 ^ 16, logbuf := bits p.arg0 28 24 }

/-- The packets of a queue, where they end well, and where a check turns them away. -/
inductive PacketStep : Instr → State → State → Prop where
  | launch {q p s lv part cid l} : Served s q lv part cid → p.arg1 < 2 → checkLaunch s lv cid p.arg0 = .ok l →
      PacketStep (.launch q p) s
        (finishPacket (accept s lv cid q.pkg (inStream l p) (some (q, p))) q p 0 l.r.rcba (p.arg1 == 0))
  | launchRefused {q p s lv part cid st} : Served s q lv part cid → p.arg1 < 2 → checkLaunch s lv cid p.arg0 = .error st →
      PacketStep (.launch q p) s (ended s q p st)
  | waitReached {q p s lv part cid v} : Served s q lv part cid → p.arg0 % 8 = 0 → gBytes s lv cid p.arg0 8 = .ok v → p.arg1 ≤ v →
      PacketStep (.waitsig q p) s (ended s q p 0x10)
  | waitBegins {q p s lv part cid v} : Served s q lv part cid → p.arg0 % 8 = 0 → gBytes s lv cid p.arg0 8 = .ok v → v < p.arg1 →
      PacketStep (.waitsig q p) s ((s.modQueue q fun x => { x with watch := some (p, p.arg0, p.arg1) }).postOnce (.waitsigWake q.pkg q.fn))
  | signalNow {q p s lv part cid} : Served s q lv part cid → p.arg0 = 0 → p.arg1 = 0 → queueBusy s q = false →
      PacketStep (.signal q p) s (ended s q p 0x10)
  | signalLater {q p s lv part cid} : Served s q lv part cid → p.arg0 = 0 → p.arg1 = 0 → queueBusy s q = true →
      PacketStep (.signal q p) s (s.modQueue q fun x => { x with signal := some p })
  | jobMade {q p s lv part cid} : Served s q lv part cid → 1 ≤ lv → JobArgs p true → s.job (jobOf p part) = none →
      PacketStep (.jobset q p) s
        (ended { s with jobs := s.jobs ++ [{ cid := jobOf p part, gen := bits p.arg0 47 32, dunits := bits p.arg0 29 16, evict := bit p.arg0 12, s1root := p.arg1 }] }
          q p 0x10)
  | jobExists {q p s lv part cid j} : Served s q lv part cid → 1 ≤ lv → JobArgs p true → s.job (jobOf p part) = some j →
      PacketStep (.jobset q p) s (ended s q p 0x13)
  | jobEnds {q p s lv part cid j} : Served s q lv part cid → 1 ≤ lv → JobArgs p false → s.job (jobOf p part) = some j →
      (∀ g ∈ s.grids, g.cid = jobOf p part → g.complete = true) → ¬jobNamed s (jobOf p part) →
      PacketStep (.jobset q p) s (ended (jobGone s (jobOf p part)) q p 0x10)
  | commMade {q p s lv part cid v} : Served s q lv part cid → 1 ≤ lv → CommArgs p false → CommFree s part (bits p.arg0 5 0) →
      gBytes s lv cid p.arg1 (8 + 2 * (bits p.arg0 20 12 + 1)) = .ok v →
      PacketStep (.commset q p) s
        (ended { s with comms := upsert (fun (c : Comm) => c.part == part && c.comm == bits p.arg0 5 0) (Machine.commMade p part v) s.comms } q p 0x10)
  | commEnds {q p s lv part cid c} : Served s q lv part cid → 1 ≤ lv → CommArgs p true → CommFree s part (bits p.arg0 5 0) →
      c ∈ s.comms → c.part = part → c.comm = bits p.arg0 5 0 →
      PacketStep (.commset q p) s (ended { s with comms := s.comms.filter fun c => !(c.part == part && c.comm == bits p.arg0 5 0) } q p 0x10)
  | expressRefused {q p s lv part cid cs} : Served s q lv part cid → 1 ≤ lv → p.arg0 < 4096 →
      cs = (hznOf (BitVec.ofNat 256 (p.arg1 % 2 ^ 64 * 2 ^ 128))).cores q.pkg → expressOk s q.pkg part (4096 * part + p.arg0) cs = false →
      PacketStep (.express q p) s (ended s q p 0x15)
  | express {q p s lv part cid cs} : Served s q lv part cid → 1 ≤ lv → p.arg0 < 4096 →
      cs = (hznOf (BitVec.ofNat 256 (p.arg1 % 2 ^ 64 * 2 ^ 128))).cores q.pkg → expressOk s q.pkg part (4096 * part + p.arg0) cs = true →
      PacketStep (.express q p) s
        (ended (cs.foldl (fun s' c => s'.post (.expressArrival c (4096 * part + p.arg0) (losesD s q.pkg (4096 * part + p.arg0) cs c))) s) q p 0x10)
  | partition {q p s lv part cid v} : Served s q lv part cid → 1 ≤ lv → p.arg1 = 0 → gBytes s lv cid p.arg0 128 = .ok v →
      partFormatOk s q.pkg v (partDesc v) = true → (if (partDesc v).depth = 0 then lv = 2 else lv = 1 ∧ part = (partDesc v).parent) →
      ((partDesc v).op = 2 ∨ partResourceOk s q.pkg (partDesc v) = true) → partBusy s q.pkg (partDesc v) = false →
      PacketStep (.partset q p) s (ended (applyPart s q.pkg (partDesc v)) q p 0x10)
  | partitionLevel {q p s lv part cid} : Served s q lv part cid → lv = 0 → PacketStep (.partset q p) s (ended s q p 0x11)
  | partitionBusy {q p s lv part cid v} : Served s q lv part cid → 1 ≤ lv → p.arg1 = 0 → gBytes s lv cid p.arg0 128 = .ok v →
      partFormatOk s q.pkg v (partDesc v) = true → (if (partDesc v).depth = 0 then lv = 2 else lv = 1 ∧ part = (partDesc v).parent) →
      ((partDesc v).op = 2 ∨ partResourceOk s q.pkg (partDesc v) = true) → partBusy s q.pkg (partDesc v) = true →
      PacketStep (.partset q p) s (ended s q p 0x13)

/-! ### Functions and queues (R409-R411, R415-R420) -/

/-- The address of a queue's next packet (R410). -/
def packetAddr (x : Queue) : Nat := x.qbase + 64 * x.qhead

/-- A queue's next packet taken: QHEAD moves, it is the one served last (R415), and its read is charged to its partition (R399). -/
def taken (s : State) (q : QRef) (lv part cid addr : Nat) : State :=
  (chargePacket ((s.modQueue q fun x => { x with qhead := (x.qhead + 1) % 2 ^ x.log2n, busy := true }).modPkg q.pkg fun p =>
    { p with lastServed := (q.fn, q.q) }) lv cid q.pkg part addr).postOnce (.queueService q.pkg)

/-- VFMAP as a write leaves it (R409). -/
def vfmapOf (value : Nat) : Nat := value % 2 ^ 6 + (if bit value 31 then 2 ^ 31 else 0)

/-- Whether a write of VFMAP makes a second GUEST function of a partition (R409). -/
def secondGuest (s : State) (pkg f v : Nat) : Prop :=
  bit v 31 = true ∧ bits v 5 4 = 1 ∧
    ∃ x ∈ (s.pkg pkg).fns, x.fn ≠ f + 1 ∧ bit x.vfmap 31 = true ∧ bits x.vfmap 5 4 = 1 ∧ bits x.vfmap 3 0 = bits v 3 0

/-- What a migration in progress ends as (R418): the state, and STATUS. -/
def migrated (s : State) (pkg op f : Nat) : State × Nat := if op = 1 then endSave s pkg f else endRestore s pkg f

/-- The steps of queues and functions. -/
inductive FnStep : Instr → State → State → Prop where
  | serves {pkg s q lv part cid v t u a} : u = settleSignals s pkg → nextQueue u pkg = some q → q.pkg = pkg → Served u q lv part cid →
      a = packetAddr (u.queueOf q) → packetHeld u lv cid a = false → gBytes (taken u q lv part cid a) lv cid a 64 = .ok v →
      runPacket q (packetOf a v) v (taken u q lv part cid a) = .next t → FnStep (.queueService pkg) s t
  | heldPacket {pkg s q lv part cid u} : u = settleSignals s pkg → nextQueue u pkg = some q → q.pkg = pkg → Served u q lv part cid →
      packetHeld u lv cid (packetAddr (u.queueOf q)) = true → FnStep (.queueService pkg) s (u.postOnce (.queueService pkg))
  | idle {pkg s} : nextQueue (settleSignals s pkg) pkg = none → FnStep (.queueService pkg) s (settleSignals s pkg)
  | wakeHere {pkg fn s} : (s.redirects.find? fun x => x.1 == (pkg, fn)) = none → FnStep (.waitsigWake pkg fn) s (wakeFn s pkg fn)
  | wakeHeld {pkg fn s a} : (s.redirects.find? fun x => x.1 == (pkg, fn)) = some (a, none) →
      FnStep (.waitsigWake pkg fn) s { s with heldWakes := s.heldWakes ++ [(pkg, fn)] }
  | wakeThere {pkg fn s a p2 f2} : (s.redirects.find? fun x => x.1 == (pkg, fn)) = some (a, some (p2, f2)) →
      FnStep (.waitsigWake pkg fn) s { wakeFn s p2 f2 with out := (wakeFn s p2 f2).out ++ [.forwarded p2 f2] }
  | notify {q t s} : q.q < 8 → (s.queueOf q).en = true → (s.fnOf q.pkg q.fn).frozen = false → q.fn ≤ (s.pkg q.pkg).numVfs → t < 2 ^ (s.queueOf q).log2n →
      FnStep (.notify q t) s ((s.modQueue q fun x => { x with qtail := t }).postOnce (.queueService q.pkg))
  | notifyOut {q t s} : q.q < 8 → (s.queueOf q).en = true → (s.fnOf q.pkg q.fn).frozen = false → q.fn ≤ (s.pkg q.pkg).numVfs → 2 ^ (s.queueOf q).log2n ≤ t →
      FnStep (.notify q t) s (s.modQueue q fun x => { x with outOfRange := true })
  | notifyLost {q t s} : q.q < 8 → ((s.queueOf q).en = false ∨ (s.fnOf q.pkg q.fn).frozen = true ∨ (s.pkg q.pkg).numVfs < q.fn) →
      FnStep (.notify q t) s (s.modFn q.pkg q.fn fun f => { f with notdrop := f.notdrop + 1 })
  | vfmap {pkg f value s} : f < 512 → bits (vfmapOf value) 5 4 < 2 → ¬secondGuest s pkg f (vfmapOf value) →
      FnStep (.vfmapWrite pkg f value) s ((s.modFn pkg (f + 1) fun x => { x with vfmap := vfmapOf value }).postOnce (.queueService pkg))
  | vfmapSecond {pkg f value s} : secondGuest s pkg f (vfmapOf value) → FnStep (.vfmapWrite pkg f value) s s
  | spent {pkg part s} : (s.partRes pkg part).tbudget ≠ 0 → budgetOf (s.partRes pkg part) ≤ (s.partRes pkg part).charge →
      FnStep (.partitionBudgetExhausted pkg part) s
        (s.modPkg pkg fun p => { p with parts := mapIf (fun (x : PartRes) => x.part == part) (fun x => { x with spent := true }) p.parts })
  | period {pkg s} : FnStep (.budgetPeriodEnd pkg) s
      ((List.range 4).foldl (fun s d => s.postOnce (.neighbourhoodPlacement pkg d))
        ((s.modPkg pkg fun p => { p with budgetPeriod := p.up / 10 ^ 8, parts := p.parts.map fun x => { x with charge := 0, spent := false } }).postOnce
          (.queueService pkg)))
  | vfReset {pkg f s} : FnStep (.functionLevelReset pkg f) s (resetFn s pkg (f + 1) true)
  | pfReset {pkg s} : FnStep (.pfFunctionLevelReset pkg) s (pfReset s pkg)
  | save {pkg f s} : (s.pkg pkg).migBusy = none → f < 512 →
      FnStep (.save pkg f) s
        (beginMig { s.modFn pkg (f + 1) (fun x => { x with frozen := true }) with
          redirects := ((s.modFn pkg (f + 1) fun x => { x with frozen := true }).redirects.filter fun x => x.1 != (pkg, f + 1)) ++ [((pkg, f + 1), none)] } pkg 1 f)
  | restore {pkg f s} : f < 512 → FnStep (.restore pkg f) s (beginMig s pkg 2 f)
  | migWaits {pkg s f} : (s.pkg pkg).migBusy = some (1, f) → (∃ x ∈ (s.fnOf pkg (f + 1)).queues, x.signal.isSome = true) →
      FnStep (.migrationDone pkg) s (s.postOnce (.migrationDone pkg))
  | migDone {pkg s op f} : (s.pkg pkg).migBusy = some (op, f) → (op = 1 → ∀ x ∈ (s.fnOf pkg (f + 1)).queues, x.signal = none) →
      FnStep (.migrationDone pkg) s
        ((migrated s pkg op f).1.modPkg pkg fun p => { p with migBusy := none, migStatus := (migrated s pkg op f).2 })

/-! ### Time (R364-R368, R458) -/

/-- The rate that the servo takes at a Sync message, in ppm: at most 200 either way (R364). -/
def servoRate (n : Nat) : Int := ((Config.servo n % 401 : Nat) : Int) - 200

/-- A package whose management engine has brought its clock up. -/
def Booted (s : State) (pkg : Nat) : Prop := (s.pkg pkg).mgmt.boot ≠ .booting ∧ (s.pkg pkg).mgmt.boot ≠ .bootfail

/-- A heartbeat or claim that does not yield to what a package knows (R367): of a higher epoch, or of the same with a pair that its best does
not beat. -/
def Heeds (c : Clock) (h : Beat) : Prop := c.epoch < h.epoch ∨ (c.epoch = h.epoch ∧ beats c.best (h.prio, h.pid) = false)

/-- A package that takes a heartbeat's sender as its Zenith peer. -/
def heeded (s : State) (pkg : Nat) (h : Beat) : State :=
  modClock s pkg fun c =>
    { c with beatAt := (s.pkg pkg).up, epoch := h.epoch, best := (h.prio, h.pid), version := max c.version h.version,
             zenith := c.zenith && (h.prio, h.pid) == (c.prio, pkg) }

/-- The second that a rising edge of PPS_IN begins (R458): the one that TAISEC named, else the one after the last edge's, else, at the first edge,
the next that the clock has not passed. -/
def edgeSecond (p : Package) : Nat :=
  match p.mgmt.tai with
  | some t => t
  | none => if p.mgmt.ppsSeen = true then p.mgmt.ppsSec + 1 else ceilDiv p.clock.ns (10 ^ 9)

/-- A clock at an edge that begins a second (R458, R186): a FREE clock that is behind steps to it; any other is slewed, so that it never goes back. -/
def clockAtEdge (s : State) (sec : Nat) (c : Clock) : Clock :=
  if c.st = .free ∧ c.ns < sec * 10 ^ 9 then { c with ns := sec * 10 ^ 9, frac := 0 } else { c with slew := servoRate s.free }

/-- A clock whose sync message has not come: a locked one begins holdover (R365). -/
def clockLost (up : Nat) (c : Clock) : Clock :=
  { c with good := 0, st := if c.st == .locked then .holdover else c.st, heldAt := if c.st == .locked then up else c.heldAt }

/-- The steps of the clocks. -/
inductive ClockStep : Instr → State → State → Prop where
  | sync {pkg off s} : Booted s pkg → ¬((s.pkg pkg).clock.st = .free ∧ off < -20) →
      ClockStep (.ptpSync pkg off) s (judgeOffset (modClock s pkg fun c => { c with slew := servoRate s.free }) pkg off)
  | step {pkg off s} : Booted s pkg → (s.pkg pkg).clock.st = .free → off < -20 →
      ClockStep (.ptpSync pkg off) s (judgeOffset (modClock s pkg fun c => { c with slew := servoRate s.free, ns := c.ns + off.natAbs }) pkg 0)
  | delay {pkg port d s} :
      ClockStep (.peerDelayExchange pkg port d) s (modClock s pkg fun c => { c with delays := upsert (fun x => x.1 == port) (port, d) c.delays })
  | lost {pkg s} : ClockStep (.syncLoss pkg) s (modClock s pkg (clockLost (s.pkg pkg).up))
  | holdoverOver {pkg s} : (s.pkg pkg).clock.st = .holdover → (s.pkg pkg).clock.heldAt + 10 * 10 ^ 9 ≤ (s.pkg pkg).up →
      ClockStep (.holdoverTimeout pkg) s (modClock s pkg fun c => { c with st := .free, good := 0 })
  | interval {pkg s u} : (s.pkg pkg).mgmt.ppsSeen = false → u = modClock s pkg (fun c => { c with syncAt := (s.pkg pkg).up }) →
      (u.pkg pkg).mgmt.ppsSeen = false →
      ClockStep (.syncIntervalExpiry pkg) s { u with out := u.out ++ ((List.range 16).filter fun i => Config.masterPort pkg i).map fun i => .ptpSync pkg i }
  | beat {pkg h s} : Heeds (s.pkg pkg).clock h → ClockStep (.heartbeat pkg h) s (heeded s pkg h)
  | beatOld {pkg h s} : ¬Heeds (s.pkg pkg).clock h → ClockStep (.heartbeat pkg h) s s
  | claim {pkg h s} : Heeds (s.pkg pkg).clock h → ClockStep (.zenithClaim pkg h) s (heeded s pkg h)
  | beats {pkg s u} : (s.pkg pkg).clock.zenith = true → u = modClock s pkg (fun c => { c with beatAt := (s.pkg pkg).up }) →
      ClockStep (.heartbeatTimer pkg) s
        (multicast { u with out := u.out ++ [.heartbeat (beatOf (s.pkg pkg))] } pkg fun t q => hearBeat t q (beatOf (s.pkg pkg)))
  | claims {pkg s u} : (s.pkg pkg).clock.candidate = true → (s.pkg pkg).clock.zenith = false → (s.pkg pkg).clock.beatAt + 3000000 ≤ (s.pkg pkg).up →
      u = modClock s pkg (fun c => { c with zenith := true, epoch := c.epoch + 1, best := (c.prio, pkg), beatAt := (s.pkg pkg).up, version := topVersion s + 1 }) →
      ClockStep (.heartbeatLoss pkg) s
        (multicast { u with out := u.out ++ [.claim (beatOf (u.pkg pkg))] } pkg fun t q =>
          ((s.pkg pkg).hzn.filter fun e => (hznOf e.2).valid && !(hznOf e.2).fired).foldl (fun t e => tableWrite t q (beatOf (u.pkg pkg)) e.1 e.2)
            (hearClaim t q (beatOf (u.pkg pkg))))
  | table {pkg h i e s} : h.epoch = (s.pkg pkg).clock.epoch → (h.prio, h.pid) = (s.pkg pkg).clock.best →
      ClockStep (.horizonTableWrite pkg h i e) s (modClock (hznWrite s pkg i e).1 pkg fun c => { c with version := max c.version h.version })
  | tableOther {pkg h i e s} : h.epoch ≠ (s.pkg pkg).clock.epoch ∨ (h.prio, h.pid) ≠ (s.pkg pkg).clock.best →
      ClockStep (.horizonTableWrite pkg h i e) s (s.countPkg pkg 0x2028)
  | edge {pkg s} : Config.grandmaster pkg = true →
      ClockStep (.ppsInEdge pkg) s
        (modClock (modMgmt s pkg fun m => { m with tai := none, ppsSeen := true, ppsSec := edgeSecond (s.pkg pkg) }) pkg
          (clockAtEdge s (edgeSecond (s.pkg pkg))))
  | noMaster {pkg s} : Config.grandmaster pkg = false → ClockStep (.ppsInEdge pkg) s s
  | rise {pkg s} : (s.pkg pkg).clock.st ≠ .free →
      ClockStep (.ppsOutSecond pkg) s (modMgmt s pkg fun m => { m with ppsOut := true, ppsRose := (s.pkg pkg).clock.ns })
  | freeClock {pkg s} : (s.pkg pkg).clock.st = .free → ClockStep (.ppsOutSecond pkg) s s
  | fall {pkg s} : ClockStep (.ppsOutFall pkg) s (modMgmt s pkg fun m => { m with ppsOut := false })

/-! ### Errors, retirement and the fatal state (R425, R433-R445) -/

/-- An error of a core's own cluster that its leaf reports, after what else it did. -/
def reported (s u : State) (pkg : Nat) (r : ErrRec) : State :=
  u.post (.error (s.coreLink { pkg := pkg, die := r.die, core := r.core }) r)

/-- A spare cluster that answers as a logical one, which the retired cluster gives up (R12, R434). -/
def remapped (s : State) (l : Link) (k : Nat) : State :=
  modLeaf (s.modPkg l.pkg fun p =>
    { p with leaves := mapIf (fun x => x.die == l.die && x.retired && x.logical == some k) (fun x => { x with logical := none }) p.leaves })
    l.pkg l.die l.leaf fun f => { f with logical := some k, remapping := false }

/-- The cores of a logical cluster whose context was a pre-emption's victim: it comes back there (R17). -/
def victimsOf (s : State) (l : Link) (k : Nat) : List CoreRef :=
  ((clusterCores k).map fun n => ({ pkg := l.pkg, die := l.die, core := n } : CoreRef)).filter fun c => (s.core c).victim

/-- The steps of errors. -/
inductive ErrorStep : Instr → State → State → Prop where
  | error {l r s} : l.malformed = false → ErrorStep (.error l r) s (recordErr s l.pkg r)
  | errorBad {l r s} : l.malformed = true → ErrorStep (.error l r) s s
  | corrected {pkg r s} : r.unit = 1 →
      ErrorStep (.correctableError pkg r) s (reported s (noteCorrected s { pkg := pkg, die := r.die, core := r.core }) pkg { r with kind := 0 })
  | correctedElsewhere {pkg r s} : r.unit ≠ 1 → ErrorStep (.correctableError pkg r) s (recordErr s pkg { r with kind := 0 })
  | inCore {pkg r s} : r.unit = 1 →
      ErrorStep (.uncorrectableError pkg r) s (reported s (coreError s { pkg := pkg, die := r.die, core := r.core } r.addr) pkg { r with kind := 1 })
  | inPhaser {pkg r s} : r.unit = 2 → Config.nimbusKind (4 * pkg + r.die) r.addr = 1 →
      ErrorStep (.uncorrectableError pkg r) s
        (phaserError (recordErr s pkg { r with kind := 1 }) pkg r.die (Config.nimbusOwner (4 * pkg + r.die) r.addr % 65536))
  | inTable {pkg r s} : r.unit = 2 → Config.nimbusKind (4 * pkg + r.die) r.addr = 2 →
      ErrorStep (.uncorrectableError pkg r) s (loseGrid (recordErr s pkg { r with kind := 1 }) (Config.nimbusOwner (4 * pkg + r.die) r.addr))
  | inD {pkg r s} : r.unit = 2 → Config.nimbusKind (4 * pkg + r.die) r.addr ≠ 1 → Config.nimbusKind (4 * pkg + r.die) r.addr ≠ 2 →
      ErrorStep (.uncorrectableError pkg r) s
        (recordErr { s with marks := joinNat s.marks [Config.nimbusLine (4 * pkg + r.die) r.addr] } pkg { r with kind := 1 })
  | inG {pkg r s} : r.unit = 3 →
      ErrorStep (.uncorrectableError pkg r) s
        (gridError (recordErr { s with marks := joinNat s.marks [r.addr / 128] } pkg { r with kind := 1 }) (r.addr / 128))
  | fatalUnit {pkg r s} : r.unit = 5 ∨ r.unit = 6 →
      ErrorStep (.uncorrectableError pkg r) s (goFatal (recordErr s pkg { r with kind := 1 }) pkg r.unit)
  | fatalPacket {pkg sender s} : sender ≠ pkg → ErrorStep (.fatalPacket pkg sender) s (cancelRooted s pkg sender)
  | coreFails {pkg s} : ErrorStep (.globalSchedulerCoreFailure pkg) s (goFatal s pkg 0x06)
  | retire {l k s} : l.malformed = false → k = l.leaf → ErrorStep (.retire l k) s (retireCluster s l.pkg l.die k)
  | remap {l k s f} : leafAt s l.pkg l.die l.leaf = some f → l.malformed = false → k < 16 → f.retired = false → f.logical = none →
      ErrorStep (.remap l k) s (((victimsOf (remapped s l k) l k).foldl (fun s c => s.postOnce (.horizonSwap c)) (remapped s l k)).postOnce (.neighbourhoodPlacement l.pkg l.die))
  | scrub {pkg line s} : ErrorStep (.patrolScrub pkg line) s s
  | quiesce {l s} : l.malformed = false →
      ErrorStep (.quiesce l) s ((leafCores s l).foldl (fun s c => s.modCore c fun x => { x with stopped := true }) s)
  | ping {l s} : l.malformed = false → ErrorStep (.ping l) s (answerPing s l)
  | pong {l s} : ErrorStep (.linkResponse l 0x0D 0) s (answerPing s l)
  | otherResponse {l op st s} : op ≠ 0x0D → ErrorStep (.linkResponse l op st) s s
  | watchdog {pkg s ls} : (s.pkg pkg).mgmt.boot = .ready → (s.pkg pkg).mgmt.fatal = false →
      ls = (s.pkg pkg).leaves.map (fun f => if f.retired then f else { f with missed := if f.answered then 0 else f.missed + 1, answered := false }) →
      (∀ f ∈ ls, f.retired = false → f.missed < 3) →
      ErrorStep (.pingTimer pkg) s (s.setPkg { s.pkg pkg with pingAt := (s.pkg pkg).up, leaves := ls })
  | throttle {pkg s} : ErrorStep (.powerThrottle pkg) s (modMgmt s pkg fun m => { m with throttle := min 15 (m.throttle + 1) })
  | overCap {pkg s} : (s.pkg pkg).mgmt.throttle = 15 → ErrorStep (.powerLimitTrip pkg) s (goFatal s pkg (Config.fatalUnit 1))
  | throttles {pkg s} : (s.pkg pkg).mgmt.throttle ≠ 15 → ErrorStep (.powerLimitTrip pkg) s s
  | hot {pkg s} : ErrorStep (.thermalTrip pkg) s (goFatal (modMgmt s pkg fun m => { m with temp := max m.temp 10500 }) pkg (Config.fatalUnit 2))

/-! ### Resets, the service engines, registers and shares (R397-R400, R450-R459) -/

/-- A responder that answers (R454): its mailbox is there, and the boot has ended well. -/
structure Responds (s : State) (pkg : Nat) : Prop where
  pcie : (s.pkg pkg).mgmt.pcie = true
  lives : (s.pkg pkg).mgmt.fatal = false
  endpoint : (s.pkg pkg).mgmt.rootPort = false
  booted : (s.pkg pkg).mgmt.boot ≠ .bootfail
  version : (s.pkg pkg).mgmt.versionSeen = true

/-- A responder whose mailbox is there. -/
structure Listens (s : State) (pkg : Nat) : Prop where
  pcie : (s.pkg pkg).mgmt.pcie = true
  lives : (s.pkg pkg).mgmt.fatal = false
  endpoint : (s.pkg pkg).mgmt.rootPort = false

/-- The answer to GET_MEASUREMENTS of an index (R454). -/
def measurementOf (m : Mgmt) (i : Nat) : List Nat := if i = 0 then [4] else if i = 0xFF then m.meas.take 4 else [(m.meas[i - 1]?).getD 0]

/-- The steps of the responder of R453-R455. -/
inductive SpdmStep : Instr → State → State → Prop where
  | version {pkg s} : Listens s pkg →
      SpdmStep (.getVersion pkg) s (answerSpdm (modMgmt s pkg fun m => { m with versionSeen := true, negotiated := false }) pkg 0x04 [0x1300])
  | capabilities {pkg s} : Responds s pkg → SpdmStep (.getCapabilities pkg) s (answerSpdm s pkg 0x61 [Config.spdmDetail pkg 0])
  | algorithms {pkg sig hash s} : Responds s pkg →
      SpdmStep (.negotiateAlgorithms pkg sig hash) s
        (answerSpdm (modMgmt s pkg fun m => { m with negotiated := bit sig 0 && bit hash 0 }) pkg 0x63 [(bit sig 0).toNat, (bit hash 0).toNat])
  | digests {pkg s} : Responds s pkg → (s.pkg pkg).mgmt.negotiated = true →
      SpdmStep (.getDigests pkg) s (answerSpdm s pkg 0x01 [Config.shake256 (chainOf s pkg)])
  | certificate {pkg off len s} : Responds s pkg → (s.pkg pkg).mgmt.negotiated = true →
      SpdmStep (.getCertificate pkg 0 off len) s (answerSpdm s pkg 0x02 [chainOf s pkg / 256 ^ off % 256 ^ len])
  | challenge {pkg n s} : Responds s pkg → (s.pkg pkg).mgmt.negotiated = true →
      SpdmStep (.challenge pkg 0 n) s
        (answerSpdm s pkg 0x03 [Config.nonce s.free, Config.signature (chainOf s pkg) (Config.shake256 (n + 2 ^ 256 * Config.nonce s.free))])
  | measurements {pkg i s} : Responds s pkg → (s.pkg pkg).mgmt.negotiated = true → i ≤ 4 ∨ i = 0xFF →
      SpdmStep (.getMeasurements pkg i) s (answerSpdm s pkg 0x60 (measurementOf (s.pkg pkg).mgmt i))
  | unsupported {pkg code s} : Listens s pkg → (s.pkg pkg).mgmt.boot ≠ .bootfail →
      SpdmStep (.unsupportedRequest pkg code) s (answerSpdm s pkg 0x7F [0x07])
  | notReady {pkg code s} : Listens s pkg → (s.pkg pkg).mgmt.boot = .bootfail →
      SpdmStep (.unsupportedRequest pkg code) s (answerSpdm s pkg 0x7F [0x42])
  | notReadyYet {pkg s} : Listens s pkg → (s.pkg pkg).mgmt.boot = .bootfail → SpdmStep (.getCapabilities pkg) s (answerSpdm s pkg 0x7F [0x42])

/-- The steps of resets, of the management engine and of the shares. -/
inductive BoardStep : Instr → State → State → Prop where
  | boots {pkg s} : (s.pkg pkg).mgmt.boot = .booting → BoardStep (.powerGood pkg) s (bootPackage s pkg)
  | cold {pkg s} : BoardStep (.coldReset pkg) s (resetPackage s pkg false)
  | rail {pkg r s} : BoardStep (.railDrop pkg r) s (resetPackage s pkg false)
  | warm {pkg s i} : i ∈ [Instr.warmReset pkg, .perst pkg, .warm pkg] → (s.pkg pkg).mgmt.boot ≠ .booting →
      BoardStep i s (bootPackage (resetPackage s pkg true) pkg)
  | warmBoot {pkg s i} : i ∈ [Instr.warmReset pkg, .perst pkg, .warm pkg] → (s.pkg pkg).mgmt.boot = .booting →
      BoardStep i s (resetPackage s pkg true)
  | aperture {pkg v s} : BoardStep (.apaddr pkg v) s ((modMgmt s pkg fun m => { m with apaddr := v % 2 ^ 64, apbusy := true }).postOnce (.apertureReadDone pkg))
  | apertureReads {pkg s v st n} : (s.pkg pkg).mgmt.apbusy = true → Booted s pkg →
      aperture s 3 (fun _ => true) (s.pkg pkg).mgmt.apaddr = .ok (v, st, n) →
      BoardStep (.apertureReadDone pkg) s (modMgmt s pkg fun m => { m with apdata := v, apstatus := st, apbusy := false })
  | retires {pkg s a} : (s.pkg pkg).mgmt.boot = .ready → (s.pkg pkg).mgmt.fatal = false → a = (s.pkg pkg).mgmt.cmdarg → a % 32 ≤ 16 → a < 1024 → bits a 7 5 = 0 →
      BoardStep (.cmdRetire pkg) s (retireCluster s pkg (bits a 9 8) (a % 32))
  | tai {pkg s} : Config.grandmaster pkg = true → Config.taisec pkg = true → BoardStep (.taisec pkg) s (modMgmt s pkg fun m => { m with tai := some (m.cmdargh * 2 ^ 32 + m.cmdarg) })
  | noTai {pkg s} : Config.grandmaster pkg = false ∨ Config.taisec pkg = false → BoardStep (.taisec pkg) s s
  | address {pkg a s} : BoardStep (.dynamicAddressAssignment pkg a) s (modMgmt s pkg fun m => { m with i3caddr := a })
  | qbase {pkg fn off v s} : (s.pkg pkg).mgmt.boot = .ready → (s.pkg pkg).mgmt.fatal = false → (s.pkg pkg).mgmt.rootPort = false → off < 0x200 → off % 0x40 = 0 →
      BoardStep (.registerWrite (.fn pkg fn) off v) s
        (s.modQueue { pkg := pkg, fn := fn, q := off / 0x40 } fun x => { x with qbase := v % 2 ^ 64 / 4096 * 4096 })
  | migaddr {pkg v s} : (s.pkg pkg).mgmt.boot = .ready → (s.pkg pkg).mgmt.fatal = false → (s.pkg pkg).mgmt.rootPort = false →
      BoardStep (.registerWrite (.fn pkg 0) 0xC00 v) s (s.modPkg pkg fun p => { p with migaddr := v % 2 ^ 64 })
  | cmdarg {pkg v s} : BoardStep (.registerWrite (.mgmt pkg) 0x24 v) s (modMgmt s pkg fun m => { m with cmdarg := v % 2 ^ 32 })
  | hostReads {pkg a n s} : (s.pkg pkg).mgmt.fatal = false → (∀ i, a / 128 + i ≤ (a + n - 1) / 128 → s.marked (.g (a + 128 * i)) = false) →
      BoardStep (.hostDieAccess pkg (.read a n)) s
        { hostCharge s pkg a n with out := (hostCharge s pkg a n).out ++ [.hostValue pkg (s.readLoc (.g a) n)] }
  | hostWrites {pkg a n v s} : (s.pkg pkg).mgmt.fatal = false →
      BoardStep (.hostDieAccess pkg (.write a n v)) s (((hostCharge s pkg a n).writeLoc (.g a) n v).wakeRecalls)
  | mgmtReads {pkg p off s} : BoardStep (.hostDieAccess pkg (.register (.mgmt p) off)) s { s with out := s.out ++ [.hostValue pkg (readMgmtReg s p off)] }
  | recoveryReads {pkg p fn off s} : (s.pkg p).mgmt.recovery = true → (s.pkg p).mgmt.pcie = true → (s.pkg p).mgmt.rootPort = false →
      BoardStep (.hostDieAccess pkg (.register (.fn p fn) off)) s { s with out := s.out ++ [.hostValue pkg 0] }
  | fnReads {pkg p fn off s} : (s.pkg p).mgmt.recovery = false → (s.pkg p).mgmt.boot = .ready → (s.pkg p).mgmt.fatal = false → (s.pkg p).mgmt.rootPort = false →
      BoardStep (.hostDieAccess pkg (.register (.fn p fn) off)) s { s with out := s.out ++ [.hostValue pkg (readFnReg s p fn off)] }
  | qbaseReads {pkg p fn q h s} : (s.pkg p).mgmt.recovery = false → (s.pkg p).mgmt.boot = .ready → (s.pkg p).mgmt.fatal = false → (s.pkg p).mgmt.rootPort = false → q < 8 → h < 2 →
      BoardStep (.hostDieAccess pkg (.register (.fn p fn) (0x40 * q + 4 * h))) s
        { s with out := s.out ++ [.hostValue pkg ((s.queueOf { pkg := p, fn := fn, q := q }).qbase / 2 ^ (32 * h) % 2 ^ 32)] }
  | channel {pkg ctrl s l u v} : (s.channels.find? fun c => c.1 == (pkg, ctrl)) = some ((pkg, ctrl), l) →
      serveShare s pkg ctrl (fun r => r.hbmw) l = (u, v) →
      BoardStep (.memoryRequestService pkg ctrl) s
        (wakeEvery { u with channels := mapIf (fun c => c.1 == (pkg, ctrl)) (fun c => (c.1, v)) u.channels } fun w => w == .channel)
  | port {pkg port s l u v} : (s.ports.find? fun c => c.1 == (pkg, port)) = some ((pkg, port), l) →
      serveShare s pkg (1000 + port) (fun r => r.fabw) l = (u, v) →
      BoardStep (.portFlitArbitration pkg port) s { u with ports := mapIf (fun c => c.1 == (pkg, port)) (fun c => (c.1, v)) u.ports }

end Sys2Proof.Machine
end

