-- ==== Sys2Proof/Safety/SwapEvents.lean ====
section
/-! DEFINITION. What the steps of halts, horizons, express pre-emption, save areas and translation answers do where they act. -/

namespace Sys2Proof.Machine

open State

/-! ### Halts and swaps (R354, R371-R379, R449) -/

/-- No group of a context holds a load's window open, so that its context may halt (R146, R354). -/
def NoOpenLoad (k : Ctx) : Prop := ∀ g ∈ k.groups, ∀ w, k.wg g.wslot = some w → openLoad g w = false

/-- The engines of a context stand where a halt may take them: every copy in progress and the head of the sequencer's queue at the end of a
chunk or of a K-step (R91, R245, R272). -/
def EnginesStand (s : State) (c : CoreRef) (k : Ctx) : Prop := (∀ e ∈ k.copies, s.mayHalt c k e = true) ∧ seqMayHalt s c k = true

/-- The steps of a context's halt, of its drain and of its pre-fill. -/
inductive HaltStep : Instr → State → State → Prop where
  | halted {c s k} : (s.core c).ctx = some k → k.st = .halting → NoOpenLoad k → EnginesStand s c k → (s.core c).leaving = false →
      HaltStep (.coreHalted c) s (answerHalts (s.modCtx c (haltCtx s c.pkg)) c k.gen 0)
  | haltedToSwap {c s k} : (s.core c).ctx = some k → k.st = .halting → NoOpenLoad k → EnginesStand s c k → (s.core c).leaving = true →
      HaltStep (.coreHalted c) s ((s.modCtx c (haltCtx s c.pkg)).post (.horizonSwap c))
  | enginesGo {c s k} : (s.core c).ctx = some k → k.st = .halting → ¬EnginesStand s c k → HaltStep (.coreHalted c) s (s.post (.coreHalted c))
  | openWindow {c s k g w} : (s.core c).ctx = some k → k.st = .halting → g ∈ k.groups → k.wg g.wslot = some w → openLoad g w = true →
      HaltStep (.coreHalted c) s (s.post (.coreHalted c))
  | loaded {c s u h a k} : prefillEntry s c = some h → (s.core c).inReady = false → (s.core c).inSlot = none → (s.core c).swap = .none →
      dirWord s h (64 * c.die + c.core) = some a → a ≠ 0 → a % 2 ^ 16 = 0 → loadCtx s c h.ingen a (enginePa s h.incid .read) = (u, .ok k) → k.cid = h.incid →
      (u.core c).swap = .none → HaltStep (.prefillDone c) s ((u.modCore c fun x => { x with inSlot := some { k with bgAway := true }, inReady := true }).wakeRecalls)
  | loadedEmpty {c s h} : prefillEntry s c = some h → (s.core c).inReady = false → (s.core c).inSlot = none → (s.core c).swap = .none →
      dirWord s h (64 * c.die + c.core) = some 0 → HaltStep (.prefillDone c) s (s.modCore c fun x => { x with inSlot := none, inReady := true })
  | notLoaded {c s h} : prefillEntry s c = some h → (s.core c).inReady = false → (s.core c).inSlot = none → (s.core c).swap = .none →
      dirWord s h (64 * c.die + c.core) = none →
      HaltStep (.prefillDone c) s ((s.modCore c fun x => { x with inSlot := none, inReady := true }).countCore c 0x30)
  | restored {c s k} : (s.core c).ctx = some k → k.bgAway = true →
      HaltStep (.backgroundRestore c) s (restart (s.modCtx c fun _ => { readBack s k with bgAway := false }) c)
  | nothingAway {c s k} : (s.core c).ctx = some k → k.bgAway = false → HaltStep (.backgroundRestore c) s s
  | saveWaits {c s k r} : (s.core c).expSlot = some k → backHeld s c = true →
      areaMap (enginePa s k.cid .save) k.saveHome 0 (areaPages 0xC40000) = .error r → HaltStep (.backgroundSave c) s (s.post (.backgroundSave c))
  | saved {c s k pages} : (s.core c).expSlot = some k → backHeld s c = true →
      areaMap (enginePa s k.cid .save) k.saveHome 0 (areaPages 0xC40000) = .ok pages →
      HaltStep (.backgroundSave c) s
        (((areaPut s pages (backArea s c k pages)).modCore c fun x => { x with expSlot := some { k with bgAway := true } }).wakeAll c fun w => w == .background)
  | drainWaits {c s k r} : (s.core c).outSlot = some k →
      areaMap (enginePa s k.cid .save) k.saveHome 0 (areaPages (toArea s c k k.saveHome).2) = .error r →
      HaltStep (.outSlotDrainDone c) s (s.postOnce (.drainWriteFault c))
  | drained {c s k pages} : (s.core c).outSlot = some k →
      areaMap (enginePa s k.cid .save) k.saveHome 0 (areaPages (toArea s c k k.saveHome).2) = .ok pages → lMarked s c k.gen = false →
      HaltStep (.outSlotDrainDone c) s
        (drainOver ((saveCtx s c k k.saveHome pages).modCore c fun x => { x with outSlot := none, stalledDrain := false }) c (partOfCid k.cid))
  | drainLost {c s k pages} : (s.core c).outSlot = some k →
      areaMap (enginePa s k.cid .save) k.saveHome 0 (areaPages (toArea s c k k.saveHome).2) = .ok pages → lMarked s c k.gen = true →
      HaltStep (.outSlotDrainDone c) s (drainOver (loseDrain s c k pages) c (partOfCid k.cid))
  | mapped {c s k} : (s.core c).outSlot = some k →
      (∀ i, i < areaPages (toArea s c k k.saveHome).2 → ∃ pa, enginePa s k.cid .save (k.saveHome + 2 ^ 16 * i) = .ok pa) →
      HaltStep (.drainWriteFault c) s (s.postOnce (.outSlotDrainDone c))
  | faulted {c s k i u r} : (s.core c).outSlot = some k → i < areaPages (toArea s c k k.saveHome).2 →
      enginePa s k.cid .save (k.saveHome + 2 ^ 16 * i) = .error r →
      (∀ j, j < i → ∃ pa, enginePa s k.cid .save (k.saveHome + 2 ^ 16 * j) = .ok pa) →
      u = (s.modCore c fun x => { x with stalledDrain := true }).modPart (partOfCid k.cid) (fun p => { p with saveStalled := true }) →
      (∀ x ∈ u.xwaits, x.stage = 2 → x.t = { core := c, gen := k.gen, wslot := 2 ^ 20, tid := 0 } → x.va ≠ k.saveHome + 2 ^ 16 * i) →
      HaltStep (.drainWriteFault c) s
        (u.addWait { token := 0, t := { core := c, gen := k.gen, wslot := 2 ^ 20, tid := 0 }, engine := true, stage := 2, part := partOfCid k.cid,
                     cid := k.cid, addr := k.saveHome + 2 ^ 16 * i, va := k.saveHome + 2 ^ 16 * i, kind := Acc.save.kind, time := u.time c.pkg })

/-! ### Horizons (R366, R371-R376, R390, R432) -/

/-- The context of a core has halted, or there is none. -/
def StoodStill (s : State) (c : CoreRef) : Prop := ∀ k, (s.core c).ctx = some k → k.st = .halted

/-- An entry of a package's table that stands ready to act. -/
structure Armed (s : State) (pkg i : Nat) (h : Hzn) : Prop where
  entry : hznOf (hznAt s pkg i) = h
  valid : h.valid = true
  unfired : h.fired = false

/-- A core whose swap at a horizon may be made once its in-slot is filled and no drain holds it: the context has halted, or an express job holds
the core (R373, R390). -/
def MaySwap (s : State) (c : CoreRef) : Prop := (s.core c).victim = true ∨ StoodStill s c

/-- Every core of the set of an express job on a die has halted (R389). -/
def SetHalted (s : State) (c : CoreRef) (cid : Nat) : Prop := ∀ d ∈ expressCores s c.pkg c.die cid, StoodStill s d

/-- The steps of horizons. -/
inductive HorizonStep : Instr → State → State → Prop where
  | prefill {pkg i s h} : Armed s pkg i h → hznStarted (s.pkg pkg) i = false → h.ingen ≠ 0 → h.time ≤ s.time pkg + 100000 →
      HorizonStep (.horizonPrefill pkg i) s (beginPrefill s pkg i h)
  | early {pkg i s h} : Armed s pkg i h → s.time pkg + 100000 < h.time → HorizonStep (.horizonPrefill pkg i) s s
  | notYet {pkg i s h} : Armed s pkg i h → hznTurn (s.pkg pkg) h = false → HorizonStep (.horizonFire pkg i) s s
  | skipped {pkg i s h} : Armed s pkg i h → (s.pkg pkg).hznBusy.contains (i + 256) = false → h.time ≤ (s.pkg pkg).clock.ns → hznTurn (s.pkg pkg) h = true →
      ((s.pkg pkg).hznArm = false ∨ (s.pkg pkg).clock.st = .free) →
      HorizonStep (.horizonFire pkg i) s ((h.cores pkg).foldl (fun s c => (dropIn s c).countCore c 0x38) (setFired s pkg i))
  | fires {pkg i s h} : Armed s pkg i h → (s.pkg pkg).hznBusy.contains (i + 256) = false → h.time ≤ (s.pkg pkg).clock.ns → hznTurn (s.pkg pkg) h = true →
      (s.pkg pkg).hznArm = true → (s.pkg pkg).clock.st ≠ .free → (h.ingen = 0 ∨ (s.pkg pkg).hznBusy.contains i = true) →
      HorizonStep (.horizonFire pkg i) s
        (settleFired (orderXloads ((h.cores pkg).foldl (fun s c => coreHorizon s i h c)
          (s.modPkg pkg fun p => { p with hznBusy := p.hznBusy ++ [i + 256], hznHold := false })) pkg h) pkg)
  | firesLate {pkg i s h} : Armed s pkg i h → (s.pkg pkg).hznBusy.contains (i + 256) = false → h.time ≤ (s.pkg pkg).clock.ns →
      hznTurn (s.pkg pkg) h = true → (s.pkg pkg).hznArm = true → (s.pkg pkg).clock.st ≠ .free → h.ingen ≠ 0 → (s.pkg pkg).hznBusy.contains i = false →
      HorizonStep (.horizonFire pkg i) s
        (settleFired (orderXloads ((h.cores pkg).foldl (fun s c => coreHorizon s i h c)
          ((beginPrefill s pkg i h).modPkg pkg fun p => { p with hznBusy := p.hznBusy ++ [i + 256], hznHold := false })) pkg h) pkg)
  | swaps {c s g d b t r} : (s.core c).swap = .horizon g d b t r → (s.core c).victim = false → StoodStill s c → dieHeld s c (s.core c).swap = false →
      (g = 0 ∨ (s.core c).inReady = true) → HorizonStep (.horizonSwap c) s (settleFired (swapHorizon s c g r) c.pkg)
  | swapsVictim {c s g d b t r} : (s.core c).swap = .horizon g d b t r → (s.core c).victim = true → dieHeld s c (s.core c).swap = false →
      (g = 0 ∨ (s.core c).inReady = true) → HorizonStep (.horizonSwap c) s (settleFired (swapVictim s c g) c.pkg)
  | holds {c s g d b t r} : (s.core c).swap = .horizon g d b t r → MaySwap s c → dieHeld s c (s.core c).swap = true →
      HorizonStep (.horizonSwap c) s
        ((s.modCore c fun x => { x with swap := .horizon g d true t r }).modPkg c.pkg fun p => { p with hznHold := true })
  | waits {c s g d b t r} : (s.core c).swap = .horizon g d b t r → MaySwap s c → dieHeld s c (s.core c).swap = false →
      g ≠ 0 → (s.core c).inReady = false → HorizonStep (.horizonSwap c) s s
  | back {c s l} : (s.core c).swap = .none → (s.core c).victim = true → (s.core c).ctx = none → clusterLeaf s c = some l → l.retired = false →
      HorizonStep (.horizonSwap c) s (swapBack s c)
  | yielded {c s d e l r k} : (s.core c).swap = .express d e l r → (s.core c).ctx = some k → k.st = .running → allYielded s k = true →
      HorizonStep (.horizonSwap c) s (beginHalt s c)
  | exchanged {c s d e l r} : (s.core c).swap = .express d e l r → StoodStill s c → SetHalted s c d →
      HorizonStep (.horizonSwap c) s (execHorizonSwap.expressSwaps s c d r)

/-! ### Express pre-emption and the fabric (R336, R337, R377, R387-R389, R432) -/

/-- The threads of a victim as its pre-emption arrives. -/
def told (s : State) (c : CoreRef) (cid : Nat) (ev : Bool) (limit : Nat) : State :=
  let u := s.modCore c fun x => { x with swap := .express cid ev limit true }
  u.modCtx c fun k => { k with wgs := k.wgs.map fun w =>
    { w with threads := w.threads.map (preempted (((u.grid w.grid).map fun g => g.lrec.phnd).getD 0) ev) } }

/-- A pre-emption that a core may begin: no swap in progress there, no victim, and the job's context in its express slot. -/
structure MayPreempt (s : State) (c : CoreRef) (cid : Nat) : Prop where
  swap : (s.core c).swap = .none
  victim : (s.core c).victim = false
  slot : ∃ k, (s.core c).expSlot = some k ∧ k.cid = cid

/-- The steps of express pre-emption. -/
inductive ExpressStep : Instr → State → State → Prop where
  | empty {c cid ev s} : MayPreempt s c cid → (s.core c).ctx = none →
      ExpressStep (.expressArrival c cid ev) s ((s.modCore c fun x => { x with swap := .express cid ev s.clk true }).post (.horizonSwap c))
  | halted {c cid ev s k} : MayPreempt s c cid → (s.core c).ctx = some k → k.st = .halted →
      ExpressStep (.expressArrival c cid ev) s ((s.modCore c fun x => { x with swap := .express cid ev s.clk false }).post (.horizonSwap c))
  | running {c cid ev s k k' n} : MayPreempt s c cid → (s.core c).ctx = some k → k.st = .running →
      n = s.clk + ((s.part (partOfCid k.cid)).map fun p => p.pbudget).getD 1400 → ((told s c cid ev n).core c).ctx = some k' →
      allYielded (told s c cid ev n) k' = false → ExpressStep (.expressArrival c cid ev) s (wakeBoundary (told s c cid ev n) c)
  | ready {c cid ev s k k' n} : MayPreempt s c cid → (s.core c).ctx = some k → k.st = .running →
      n = s.clk + ((s.part (partOfCid k.cid)).map fun p => p.pbudget).getD 1400 → ((told s c cid ev n).core c).ctx = some k' →
      allYielded (told s c cid ev n) k' = true → ExpressStep (.expressArrival c cid ev) s (beginHalt (told s c cid ev n) c)
  | later {c cid ev s} : (s.core c).swap ≠ .none → ExpressStep (.expressArrival c cid ev) s (s.post (.expressArrival c cid ev))
  | forced {c s d e l r k} : (s.core c).swap = .express d e l r → (s.core c).ctx = some k → k.st = .running → l ≤ s.clk → allYielded s k = false →
      ExpressStep (.preemptBudgetExpiry c) s
        (beginHalt ((s.modCtx c fun k =>
          { k with forced := true, wgs := k.wgs.map fun w => { w with threads := w.threads.map fun t => { t with ppre := false } } }).modPart
            (partOfCid k.cid) fun p => { p with saveForced := true }) c)
  | lateHere {c gen item s p} : s.place c gen = some p →
      ExpressStep (.lateArrival c gen item) s
        ((s.modCtxAt c gen fun k => applyLate k item).wakeAll c fun w => w == .result || w == .phaser || w == .request)
  | lateAway {c gen item s} : s.place c gen = none → ExpressStep (.lateArrival c gen item) s (s.logItem c gen item)
  | xloadBad {l addr core s p r} : l.malformed = false → (s.core { pkg := l.pkg, die := l.die, core := core }).expSlot = none →
      ({ pkg := l.pkg, die := l.die, core := core } : CoreRef) ∈ leafCores s l → corePart s { pkg := l.pkg, die := l.die, core := core } = some p →
      enginePa s (4096 * p) .read addr = .error r → ExpressStep (.xload l addr core) s (s.countDie l.pkg l.die 0x1020)
  | xloaded {l addr core s p pa q j u k} : l.malformed = false → (s.core { pkg := l.pkg, die := l.die, core := core }).expSlot = none →
      ({ pkg := l.pkg, die := l.die, core := core } : CoreRef) ∈ leafCores s l → corePart s { pkg := l.pkg, die := l.die, core := core } = some p →
      enginePa s (4096 * p) .read addr = .ok pa → addr % 2 ^ 16 = 0 →
      s.part (partOfCid (s.readLoc (.g (pa + 28)) 2)) = some q → q.expr = true → s.job (s.readLoc (.g (pa + 28)) 2) = some j → j.gen = s.readLoc (.g (pa + 30)) 2 →
      loadCtx s { pkg := l.pkg, die := l.die, core := core } (s.readLoc (.g (pa + 30)) 2) addr (enginePa s (4096 * p) .read) = (u, .ok k) →
      ExpressStep (.xload l addr core) s
        ((u.modCore { pkg := l.pkg, die := l.die, core := core } fun x => { x with expSlot := some { k with bgAway := true } }).wakeRecalls)

/-! ### Answers to translation faults (R404-R410) -/

/-- A notice that stands, of a first-stage fault in a partition or of a second-stage one. -/
structure Noticed (s : State) (token : Nat) (p : XWait → Bool) (x : XWait) : Prop where
  found : (s.xwaits.find? fun x => x.token == token && x.notified && p x && outstanding s x) = some x

/-- The steps of the answers. -/
inductive AnswerStep : Instr → State → State → Prop where
  | resolve {pkg fn token s part x} : guestPart s pkg fn = some part → Noticed s token (fun x => x.stage == 1 && x.part == part) x →
      AnswerStep (.xrespResolve pkg fn token) s (answerNotice s x false)
  | decline {pkg fn token s part x} : guestPart s pkg fn = some part → Noticed s token (fun x => x.stage == 1 && x.part == part) x →
      x.kind ≠ Acc.save.kind → AnswerStep (.xrespDecline pkg fn token) s (answerNotice s x true)
  | notGuest {pkg fn token s} : guestPart s pkg fn = none → AnswerStep (.xrespResolve pkg fn token) s s
  | hResolve {pkg token s x} : Noticed s token (fun x => x.stage == 2) x → AnswerStep (.hrespResolve pkg token) s (answerNotice s x false)
  | hDecline {pkg token s x} : Noticed s token (fun x => x.stage == 2) x → x.kind ≠ Acc.save.kind →
      AnswerStep (.hrespDecline pkg token) s (answerNotice s x true)
  | hSave {pkg token s x} : Noticed s token (fun x => x.stage == 2) x → x.kind = Acc.save.kind → AnswerStep (.hrespDecline pkg token) s (s.countPkg pkg 0x2030)
  | hUnknown {pkg token s} : (s.xwaits.find? fun x => x.token == token && x.notified && (x.stage == 2) && outstanding s x) = none →
      AnswerStep (.hrespResolve pkg token) s (s.countPkg pkg 0x2030)
  | walk {token s x} : (s.xwaits.find? fun x => x.token == token) = some x → x.resolved = false → x.declined = false →
      AnswerStep (.translationWalk token) s (s.tryNotify token)
  | walkAgain {token s x} : (s.xwaits.find? fun x => x.token == token) = some x → x.resolved = true → x.stage = 1 →
      runsAt (s.tryNotify token) x.t.core x.t.gen = true → AnswerStep (.translationWalk token) s (settleXlate (s.tryNotify token) x)

end Sys2Proof.Machine
end

