-- ==== Sys2Proof/Certificates/Slice0/Obligations.lean ====
section
/-! DEFINITION. The statements for the provers. -/

open Sys2Proof Sys2Proof.Machine Sys2Proof.Machine.State

/-! ### Encoding -/

/-- Words written out from the encoding tables of R120-R136, one of each shape, decode to the instructions they stand for. -/
def Obligations.DecodeWordsOfSpec : Prop :=
  decodeWord 0 0x80190301 = .ok (.addI32 true 3 8 6) ∧
  decodeWord 0 0x015CC728 = .ok (.cmpI32 false 5 3 38 14) ∧
  decodeWord 0 0x08C53FFF = .ok (.addi false 24 41 0x1FFF) ∧
  decodeWord 0 0x14700001 = .ok (.lim false 14 1) ∧
  decodeWord 2 0x14700001 = .ok (.limB64 false 7 1) ∧
  decodeWord 0 0x18DFFFFF = .ok (.bra false 3 false 0x1FFFFF) ∧
  decodeWord 0 0x20E21983 = .ok (.ldl false 28 16 6 6 3) ∧
  decodeWord 0 0x7E000105 = .ok (.hx 261)

/-- Every well-formed instruction word decodes to its instruction, with every operand at every value (R118-R136): `lim` behind fewer than
two `hx` words and its pair form behind two (R139). -/
def Obligations.DecodeOfEncode : Prop := ∀ (i : Instr) (w nhx : Nat), i.Wf → encode i = some w →
  (∀ e d k, i = .lim e d k → nhx < 2) → (∀ e d k, i = .limB64 e d k → nhx = 2) → decodeWord nhx w = .ok i

/-- A word has one meaning: what the decoder reads from a word encodes to that word, so that no bit of it is dropped (R120, R147). -/
def Obligations.EncodeOfDecode : Prop := ∀ (i : Instr) (w nhx : Nat), w < 2 ^ 32 → decodeWord nhx w = .ok i → encode i = some w ∧ i.Wf

/-- A word whose major R122 leaves unassigned is refused by that name (R147). -/
def Obligations.UnassignedMajorsRefused : Prop := ∀ nhx w : Nat, 0x24 ≤ w / 2 ^ 25 % 2 ^ 6 → w / 2 ^ 25 % 2 ^ 6 ≤ 0x3E → decodeWord nhx w = .error .major

/-! ### The step -/

/-- A step runs the decoded instruction: where the next step is a group's issue, no boundary trap is pending, the run's limit of words is
not reached, the word at its PC decodes to an instruction that its hints suit, and the results due land, `step` is that instruction's `exec`
and the passing of time; for a posted step or input it is `exec` of that row. -/
def Obligations.StepRunsDecoded : Prop :=
  (∀ s c slot x u v w i t, pick s = some (.issue c slot) → ({ s with cur := some (c, slot) } : State).issuing = some x → (s.core c).stopped = false →
    mayIssue x.k x.g x.w = true → boundaryStep { s with cur := some (c, slot) } x = none → x.g.run + x.g.hint.words < 24 →
    fetchWord { s with cur := some (c, slot) } x = .ok (u, w) → decodeWord x.g.hint.hx.length w = .ok i → isHint w = false →
    suits x.g.hint w i = true → landUnit u x w = .ok v → exec i v = .next t → step s = .next (tick t)) ∧
  (∀ s n i t, pick s = some (.posted n i) → exec i { s with agenda := s.agenda.eraseIdx n } = .next t → step s = .next (tick t)) ∧
  (∀ s, pick s = none → step s = .next (tick s))

/-- Every step and input of the machine that is no instruction word completes, in every state. -/
def Obligations.EventsComplete : Prop := ∀ (i : Instr) (s : State), isEvent i = true → ∃ t, exec i s = .next t

/-- The machine never stops: from every state a step answers a next state. -/
def Obligations.StepCompletes : Prop := ∀ s : State, Completes s

/-- Between two steps no group is issuing and every package clock's fraction of a nanosecond has 16 bits (R365): every step leaves it so. -/
def Obligations.StepKeepsSettled : Prop := ∀ s t : State, step s = .next t → t.settled

/-- The state after reset is settled, and its memories stand in their canonical form. -/
def Obligations.ResetSettled : Prop := State.reset.settled ∧ State.reset.memWf

/-- What reset leaves (R348, R366, R410, R440, R451, R457): a package in BOOTING with its clock FREE, HZN_CTL.ARM 0, no partition, job, grid,
context or phaser, the management registers 0, and the counters 0. The values of registers for which the spec gives none are the model's. -/
def Obligations.ResetLeaves : Prop :=
  ∃ p, State.reset.packages = [p] ∧ p.mgmt.boot = .booting ∧ p.mgmt.code = 0 ∧ p.mgmt.meas = [0, 0, 0, 0, 0, 0, 0, 0] ∧ p.mgmt.fatal = false ∧
    p.mgmt.power = 0 ∧ p.mgmt.temp = 0 ∧ p.mgmt.apaddr = 0 ∧ p.mgmt.apdata = 0 ∧ p.mgmt.apbusy = false ∧ p.mgmt.apstatus = 0 ∧ p.mgmt.cmdarg = 0 ∧
    p.mgmt.cmdargh = 0 ∧ p.clock.st = .free ∧ p.hznArm = false ∧ p.hznHold = false ∧ p.hzn = [] ∧ p.fns = [] ∧ p.counters = [] ∧ p.dieCounters = [] ∧
    State.reset.parts = [] ∧ State.reset.jobs = [] ∧ State.reset.grids = [] ∧ State.reset.phasers = [] ∧ State.reset.cores = [] ∧
    State.reset.marks = []

/-- The registers of a thread (R44): a register reads what was last written to it, a write leaves the others; p7 reads 1 and its writes are
discarded, and a write of another predicate leaves the rest. -/
def Obligations.ThreadRegisters : Prop :=
  (∀ (t : Thread) r q v, SparseWf 0 t.v → (t.setReg r v).reg q = if q = r then v % 2 ^ 32 else t.reg q) ∧
  (∀ t : Thread, t.getP 7 = true) ∧ (∀ (t : Thread) b, t.setP 7 b = t) ∧
  (∀ (t : Thread) i j b, i < 7 → j < 7 → (t.setP i b).getP j = if j = i then b else t.getP j)

/-- The next group of a scheduler (R39): where one is answered, it is READY and next in age after the group whose run ended last, wrapping
round to the oldest; none is answered only where none is READY. -/
def Obligations.ArbitrationOrder : Prop :=
  (∀ (k : Ctx) (sc : Nat) (g : Group), nextReady k sc = some g → NextInAge k sc g) ∧
  (∀ (k : Ctx) (sc : Nat), nextReady k sc = none → ∀ g ∈ k.onSched sc, g.st ≠ .ready)

/-! ### Instructions that act lane by lane -/

/-- The integer instructions (R164-R166): each active lane's D, or its predicate, is as the rule says, and nothing else changes. -/
def Obligations.IntegerRows : Prop := ∀ (i : Instr) (row : LaneRow) (s : State) (x : Iss), IntRow i row → LaneUnit s x row.fs →
  ∃ t, exec i s = .next t ∧ LanesDone x (fun n th => row.res (laneFirst x row.fs n th)) s t

/-- The immediate and address instructions (R64, R129, R139, R167). -/
def Obligations.ImmediateRows : Prop := ∀ (i : Instr) (row : LaneRow) (s : State) (x : Iss), ImmRow i row → LaneUnit s x row.fs →
  ∃ t, exec i s = .next t ∧ LanesDone x (fun n th => row.res (laneFirst x row.fs n th)) s t

/-- The floating-point instructions and conversions (R168-R174): the result rounded as the rule says, and its flags joined to FLAGS (R111). -/
def Obligations.FloatRows : Prop := ∀ (i : Instr) (row : LaneRow) (s : State) (x : Iss), FloatRow i row → LaneUnit s x row.fs →
  ∃ t, exec i s = .next t ∧ LanesDone x (fun n th => row.res (laneFirst x row.fs n th)) s t

/-- The quantisers, and `pkh`, which packs the low halves of two registers, rounds nothing and sets no flag (R175-R181). -/
def Obligations.QuantiserRows : Prop := ∀ (i : Instr) (row : LaneRow) (s : State) (x : Iss), QuantRow x i row → LaneUnit s x row.fs →
  ∃ t, exec i s = .next t ∧ LanesDone x (fun n th => row.res (laneFirst x row.fs n th)) s t

/-- Predicates, selection, special registers and fences (R182-R186, R212). -/
def Obligations.PredicateAndReadRows : Prop := ∀ (i : Instr) (row : LaneRow) (s : State) (x : Iss), MiscRow s x i row → LaneUnit s x row.fs →
  ∃ t, exec i s = .next t ∧ LanesDone x (fun n th => row.res (laneFirst x row.fs n th)) s t

/-- `hrep` (R141, R201): a count of 0 skips the instruction; iteration `r` of `n` does what the instruction does with its register fields
stepped `r` times, and then the next iteration stands before the group, or the unit is over. -/
def Obligations.Repeats : Prop := ∀ (i : Instr) (row : LaneRow) (s : State) (x : Iss), IntRow i row ∨ ImmRow i row ∨ FloatRow i row →
  (∀ sd sa sb, Issues s x → x.g.hint.hrep = some (0, sd, sa, sb) → ∃ t, exec i s = .next t ∧ UnitDone x s t) ∧
  (∀ n r, IterUnit s x row.fs n r → x.active ≠ [] → ∃ t, exec i s = .next t ∧
    (r + 1 < n → IterDone x r (fun l th => row.res (laneAt x row.fs r l th)) s t) ∧
    (r + 1 = n → x.g.hint.traps = [] → LanesDone x (fun l th => row.res (laneAt x row.fs r l th)) s t))

/-- REGISTER_RANGE comes before any effect (R45): where every active lane's instruction names a register at or above its allotment, each
takes that trap at its unit, and no lane does anything else. -/
def Obligations.RangeTraps : Prop := ∀ (i : Instr) (row : LaneRow) (s : State) (x : Iss), IntRow i row ∨ ImmRow i row ∨ FloatRow i row →
  Issues s x → x.g.hint.hrep = none →
  (∀ n ∈ x.active, ∃ th, x.w.thread n = some th ∧ th.pend ≠ .done ∧ row.fs.within th.c none = false) →
  (∀ n ∈ x.active, s.trapWait x (rangeTrap x n) = none) → ∃ e, exec i s = .next (allTrapped s x (rangeTrap x) e)

/-- A misaligned load or store (R68, R205): where the address of every active lane is no multiple of the access's size, each takes MISALIGNED
with its tagged address, and no byte moves. -/
def Obligations.MisalignedTraps : Prop := ∀ (i : Instr) (a : Access) (s : State) (x : Iss), accessOf i = some a → i.Wf → a.present s x →
  Issues s x → x.g.hint.hrep = none →
  (∀ n ∈ x.active, ∃ l, s.laneIn x a.fields n = some l ∧ l.ln.t.pend ≠ .done ∧ a.fields.within l.ln.t.c none = true ∧ a.offset l % a.bytes ≠ 0) →
  (∀ n ∈ x.active, s.trapWait x (alignTrap x (a.addrOf s x n) n) = none) →
  ∃ e, exec i s = .next (allTrapped s x (fun n => alignTrap x (a.addrOf s x n) n) e)

/-- Privileged instructions below their level (R345): ILLEGAL_ENCODING for every member at level 0, PERMISSION with detail 5 for every active
thread above it, and no other effect. -/
def Obligations.PrivilegeTraps : Prop := ∀ (i : Instr) (s : State) (x : Iss), sysLevel i ≠ 0 → Issues s x → x.grid.level < sysLevel i →
  (x.grid.level = 0 → exec i s = .next (s.illegal x)) ∧
  (x.grid.level ≠ 0 → ∃ e, exec i s = .next (s.trapAll x e x.active fun t => { tid := t, code := .perm, detail := 5, pc := x.upc, ret := x.upc }))

/-! ### Loads, stores, atomics, bindings, copies and phasers -/

/-- Loads and stores (R205, R132, R144): each active lane in ascending order reads or writes its place; a load's registers are written at
once or when its window closes. -/
def Obligations.LoadsAndStores : Prop := ∀ (i : Instr) (a : Access) (s u : State) (x : Iss), accessOf i = some a → i.Wf → a.present s x →
  ActUnit x a.fields (fun s l u v => a.Lane s l u v) s u → ∃ t, exec i s = .next t ∧ (Stands x u → UnitDone x u t)

/-- What a store leaves alone (R205): every byte of G, D and L outside the bytes its lanes store to, at the places that its addresses name. -/
def Obligations.StoreFrame : Prop := ∀ (i : Instr) (a : Access) (s u : State) (x : Iss) (ls : List Loc), accessOf i = some a → a.store = true → i.Wf →
  a.present s x → Issues s x → x.g.hint.hrep = none → a.Stores x x.active s u ls → Stands x u →
  ∃ t, exec i s = .next t ∧ ∀ m : Loc, Memory.wf (s.store m).1 → (∀ q ∈ ls, ∀ j < a.bytes, (q.add j).key ≠ m.key) → t.readLoc m 1 = s.readLoc m 1

/-- The atomics (R207-R211): each active lane's operands join the request for its location, and its result is owed. -/
def Obligations.Atomics : Prop := ∀ (i : Instr) (a : Atomic) (s u : State) (x : Iss), atomicOf i = some a → a.unblocked s x →
  ActUnit x a.fs (a.Lane s.nextId) s u → ∃ t, exec i s = .next t ∧ (Stands x u → UnitDone x u t)

/-- The phaser instructions where they end at once (R219-R230): in every state whose active lanes may act (`phMay`), and along every way the
lanes act one after the other. -/
def Obligations.Phasers : Prop :=
  (∀ (i : Instr) (s u : State) (x : Iss), isPhaser i = true → ActUnit x (phFields i) (PhLane i) s u →
    ∃ t, exec i s = .next t ∧ (Stands x u → UnitDone x u t)) ∧
  ∀ (i : Instr) (s : State) (x : Iss), isPhaser i = true → MayUnit x (phFields i) (phMay i) (laneOver (phDoes i)) s →
    ∃ t, exec i s = .next t ∧
      (Stands x (lanesDo x (phFields i) (laneOver (phDoes i)) x.active s) → UnitDone x (lanesDo x (phFields i) (laneOver (phDoes i)) x.active s) t)

/-- Bindings, drains and copies (R213-R218, R231-R234): in every state whose active lanes may end (`syncMay`), and along every way the lanes act
one after the other; and where the lanes of a binding instruction ask their home (`askMay`), its group waits for the answers. -/
def Obligations.BindingsDrainsCopies : Prop :=
  (∀ (i : Instr) (s u : State) (x : Iss), isSync i = true → ActUnit x (syncFields i) (SyncLane i) s u →
    ∃ t, exec i s = .next t ∧ (Stands x u → UnitDone x u t)) ∧
  (∀ (i : Instr) (s : State) (x : Iss), isSync i = true → MayUnit x (syncFields i) (syncMay i) (laneOver (syncDoes i)) s →
    ∃ t, exec i s = .next t ∧
      (Stands x (lanesDo x (syncFields i) (laneOver (syncDoes i)) x.active s) →
        UnitDone x (lanesDo x (syncFields i) (laneOver (syncDoes i)) x.active s) t)) ∧
  ∀ (i : Instr) (s : State) (x : Iss), isBinding i = true → x.active ≠ [] → MayUnit x (syncFields i) (askMay i) (askDoes i) s →
    exec i s = .next ((lanesDo x (syncFields i) (askDoes i) x.active s).stallUnit x .binding)

/-! ### Control -/

/-- `nop`, the yields and `merge` where they pass with no effect but the end of the run (R34, R193, R195, R196). -/
def Obligations.PausesPass : Prop := ∀ (i : Instr) (s : State) (x : Iss), Issues s x → Passes s x i →
  ∃ t, exec i s = .next t ∧ UnitDone x s t ∧ (endsRun i = true → RunOver x t)

/-- Hint words (R136, R137): the unit's hints with this one, and nothing else. -/
def Obligations.HintWords : Prop := ∀ (i : Instr) (s : State) (x : Iss) (h : Hint), Issues s x → Hints x.g.hint i h →
  exec i s = .next (s.modGroup x.c x.g.slot fun g => { g with hint := { h with words := h.words + 1 } })

/-- The target of a branch or call (R121, R139): the address of its own word, not of a hint word before it, plus four times the signed offset,
which one `hx` extends at its high end. -/
def Obligations.BranchTargets : Prop := ∀ (x : Iss) (n : Nat) (o : BitVec n), 0 < n → n ≤ 21 → x.g.hint.hx.length ≤ 1 → State.target x o.toNat n = targetOf x o

/-- Branches, calls, jumps and returns (R26-R29, R47, R48, R187-R192): each active lane goes where its rule says, and the group parts. -/
def Obligations.Transfers : Prop := ∀ (i : Instr) (s u : State) (x : Iss) (out : List Nat), isXfer i = true → Xfer x i s u → XferOut x i u out →
  ∃ t, exec i s = .next t ∧ (Stands x u → NoMerge u x.c → Parted x out .seedbed (afterXfer x) u t)

/-- `exit` (R22, R194): the active threads drop their registrations, report their copies and leave as EXITED; the others go on. -/
def Obligations.ThreadsExit : Prop := ∀ (e : Bool) (s u : State) (x : Iss), Exits x s u →
  ∃ t, exec (.exit e) s = .next t ∧ (Stands x u → NoMerge u x.c → Parted x x.active .exited (afterXfer x) u t)

/-- `wgrow` and `wshr` (R49, R199) where the core grants the registers. -/
def Obligations.WindowSizes : Prop := ∀ (i : Instr) (s u : State) (x : Iss), growGranted x i → ActUnit x {} (SizeLane x i) s u →
  (∃ e m, i = .wgrow e m ∨ i = .wshr e m) → ∃ t, exec i s = .next t ∧ (Stands x u → UnitDone x u t)

/-- `tslp` (R198): the group sleeps for the longest time an active lane asks for; a sleep of 0 ends at once. -/
def Obligations.TimedSleep : Prop := ∀ (e : Bool) (a : BitVec 6) (s : State) (x : Iss), Issues s x →
  (∀ i ∈ x.active, ∀ th, x.w.thread i = some th → a.toNat < th.c) →
  ∃ t, exec (.tslp e a) s = .next t ∧ (sleepOf x a.toNat = 0 → UnitDone x s t ∧ RunOver x t) ∧ (sleepOf x a.toNat ≠ 0 → Sleeps x (sleepOf x a.toNat) s t)

/-- `trap` (R197): SOFTWARE in each active thread, the 12-bit value in the fault record's detail and the unit's PC in it. -/
def Obligations.SoftwareTraps : Prop := ∀ (e : Bool) (d : BitVec 12) (s : State) (x : Iss), Issues s x → x.g.hint.hrep = none →
  (∀ i ∈ x.active, ∃ th, x.w.thread i = some th ∧ th.pend ≠ .done) → (∀ i ∈ x.active, s.trapWait x (softTrap x d.toNat i) = none) →
  exec (.trap e d) s = .next (allTrapped s x (softTrap x d.toNat) e) ∧
  ∀ i ∈ x.active, (s.trapRec x (softTrap x d.toNat i)).code = Code.software.num ∧ (s.trapRec x (softTrap x d.toNat i)).detail = d.toNat ∧
    (s.trapRec x (softTrap x d.toNat i)).pc = x.upc

/-- A handler's entry (R333): where a thread enters its handler there was room for its window and its record, and it stands at the handler's
entry with its window above the old one, the code in v0, the detail in v1, and its return pushed. -/
def Obligations.HandlerEntry : Prop := ∀ (s u : State) (ln : Lane) (f : FaultRec) (ret h : Nat) (t : Thread),
  s.enterHandler ln f ret h = (u, .ok (some t)) → ln.t.wb + 2 * ln.t.c + 4 ≤ State.linkBottom ln.g ln.t ∧ Entered f h ln.t t

/-- A window that moves (R46, R50): nothing of the thread changes but its window, and a register that both windows hold keeps its value; of the
slots that a `wshr` has released the thread holds none afterwards (log entry 55). -/
def Obligations.WindowMoves : Prop := ∀ (s u : State) (ln : Lane) (wb c : Nat) (t : Thread), s.moveWindow ln wb c = (u, .ok t) →
  t = { ln.t with v := t.v, wb := wb, c := c, spare := [] } ∧
  ∀ i < c, ln.t.wb ≤ wb + i → wb + i < ln.t.wb + ln.t.c → t.reg i = ln.t.reg (wb + i - ln.t.wb)

/-- `eret` (R334, R335): every member returns from its handler to the PC that its entry saved, through the seedbed. -/
def Obligations.HandlerReturn : Prop := ∀ (e : Bool) (s u : State) (x : Iss), Returns x s u →
  ∃ t, exec (.eret e) s = .next t ∧ (Stands x u → NoMerge u x.c → Parted x x.g.members .seedbed (fun _ th => { th with pend := .none }) u t)

/-! ### Privileged instructions, grids, the matrix unit and projections -/

/-- Special registers, translations, phaser holds, the horizon table and the aperture (R346-R363). -/
def Obligations.SystemRegisters : Prop := ∀ (i : Instr) (s u : State) (x : Iss), i.Wf → sysLevel i ≠ 0 → isControl i = false →
  sysLevel i ≤ x.grid.level → ActUnit x (sysFields i) (SysLane x i) s u → ∃ t, exec i s = .next t ∧ (Stands x u → UnitDone x u t)

/-- Halts, saves and loads of contexts (R353-R357): the effect once, with the lowest active lane's operands, and the status in every active
lane's D. That every lane receives it is the model's reading (log entry 59), and so is the answer for a context that a swap is about to move (log
entry 102). -/
def Obligations.CoreControl : Prop := ∀ (i : Instr) (s u w : State) (x : Iss) (v n : Nat) (l : LaneIn), isControl i = true → Issues s x →
  x.g.hint.hrep = none → 2 ≤ x.grid.level → x.active.head? = some n → s.laneIn x (sysFields i) n = some l →
  (sysFields i).within l.ln.t.c none = true → Control x i s l u v →
  LaneSteps x (sysFields i) (fun s l u t => u = s ∧ t = l.ln.t.setReg l.d v) x.active u w → ∃ t, exec i s = .next t ∧ (Stands x w → UnitDone x w t)

/-- The instructions of grids and collectives (R311-R315, R318, R325, R326, R341). -/
def Obligations.GridsAndCollectives : Prop := ∀ (i : Instr) (s u : State) (x : Iss), i.Wf → isGrid i = true →
  ActUnit x (gridFields i) (GridLane i) s u → ∃ t, exec i s = .next t ∧ (Stands x u → UnitDone x u t)

/-- The checks of a matrix record (R249-R251): detail 0 exactly where the record meets the conditions of its kind. -/
def Obligations.RecordChecks : Prop := ∀ (r : BitVec 128) (kind : Nat) (coop : Bool), 1 ≤ kind → kind ≤ 5 →
  (checkKind r kind coop = 0 ↔ RecordOk r kind coop)

/-- The matrix instructions (R246-R271): what each puts into the sequencer's queue, or does at issue. -/
def Obligations.MatrixUnit : Prop := ∀ (i : Instr) (s u : State) (x : Iss) (l : LaneIn), UnitReady x i s l → MtxStep x i s l u →
  ∃ t, exec i s = .next t ∧ (Stands x (claim u x.c x.g.wslot) → UnitDone x (claim u x.c x.g.wslot) t)

/-- The drains (R265-R267): the entry in the queue with its copies. -/
def Obligations.Drains : Prop := ∀ (i : Instr) (s u : State) (x : Iss) (l : LaneIn) (slot c mode : Nat) (amax tile : Bool) (p : Part4),
  drainOf i = some (slot, c, mode, amax) → UnitReady x i s l → DrainFits x s l slot (l.ln.w.shape c) amax p tile →
  u = claim (drainQueued x l s slot (l.ln.w.shape c) mode (if amax = true then some (l.ln.t.pair l.a) else none) p tile) x.c x.g.wslot →
  ∃ t, exec i s = .next t ∧ (Stands x u → UnitDone x u t)

/-- A projection whose engine is done ends, its group at the next word (R287, R288, R291). -/
def Obligations.ProjectionEnds : Prop := ∀ (i : Instr) (s u : State) (x : Iss) (l : LaneIn), isProj i = true → UnitReady x i s l → VocEnds x →
  VocOver x s u → ∃ t, exec i s = .next t ∧ (Stands x (claim u x.c x.g.wslot) → UnitDone x (claim u x.c x.g.wslot) t)

/-- A projection begins (R285-R288, R291): the engine stands ready with its rows, and the group waits. -/
def Obligations.ProjectionBegins : Prop := ∀ (i : Instr) (s u : State) (x : Iss) (l : LaneIn) (v : Vocab), UnitReady x i s l → VocFree x →
  VocBegin x i s l u v →
  exec i s = .next ((vocPost (modVoc (claim u x.c x.g.wslot) x.c fun _ => { v with st := .active, result := none }) x.c).stallUnit x .vocab)

/-- `vmrg` and `vfin` (R289, R290): the row blocks folded, or made final, and written. -/
def Obligations.RowBlocks : Prop := ∀ (i : Instr) (s u : State) (x : Iss) (l : LaneIn) (ps : List (Loc × Nat × Nat)), UnitReady x i s l → VocFree x →
  VocArea x i s l u ps → ∀ v, v = claim ((writePieces u ps).wakeAll x.c fun w => w == .vocab) x.c x.g.wslot →
  ∃ t, exec i s = .next t ∧ (Stands x v → UnitDone x v t)

/-! ### The steps and inputs that are no instruction words -/

/-- Schedulers and the group former (R30-R41): what each of their steps does where it acts. -/
def Obligations.SchedulerSteps : Prop := ∀ i s t, SchedStep i s t → exec i s = .next t

/-- Homes of atomics, releases, bindings and phasers, and the results that arrive (R85-R94, R207-R218). -/
def Obligations.HomeSteps : Prop := (∀ i s t, HomeStep i s t → exec i s = .next t) ∧ (∀ i s t, ResultStep i s t → exec i s = .next t)

/-- The copy engines (R234-R244). -/
def Obligations.CopySteps : Prop := ∀ i s t, CopyStep i s t → exec i s = .next t

/-- The matrix sequencer and the vocabulary engine (R245-R293). -/
def Obligations.UnitSteps : Prop := (∀ i s t, SeqStep i s t → exec i s = .next t) ∧ (∀ i s t, VocStep i s t → exec i s = .next t)

/-- Halts and the movement of contexts (R354, R373-R386). What an EMPTY save area answers is the model's reading (log entry 103). -/
def Obligations.HaltSteps : Prop := ∀ i s t, HaltStep i s t → exec i s = .next t

/-- Horizons, express requests and pre-emption (R371-R376, R387-R390, R446-R449). What a second incoming context does on a core is the
model's choice (log entry 100). -/
def Obligations.SwapSteps : Prop := (∀ i s t, HorizonStep i s t → exec i s = .next t) ∧ (∀ i s t, ExpressStep i s t → exec i s = .next t)

/-- The answers to translation notices (R407, R408). -/
def Obligations.NoticeSteps : Prop := ∀ i s t, AnswerStep i s t → exec i s = .next t

/-- Launches, the dispatch tree and the start of blocks (R296-R308, R425-R431). -/
def Obligations.TreeSteps : Prop := ∀ i s t, TreeStep i s t → exec i s = .next t

/-- The collective engines (R319-R326, R463). -/
def Obligations.CollectiveSteps : Prop := ∀ i s t, CollStep i s t → exec i s = .next t

/-- The packets of the launch queues (R391-R395, R412-R414). -/
def Obligations.PacketSteps : Prop := ∀ i s t, PacketStep i s t → exec i s = .next t

/-- Functions, queues and migration (R409-R411, R415-R420). -/
def Obligations.FunctionSteps : Prop := ∀ i s t, FnStep i s t → exec i s = .next t

/-- Clocks, the Zenith election and the PPS signals (R364-R368, R458). What a new Zenith peer publishes and the clock after a PPS edge are the
model's readings (log entries 92, 101). -/
def Obligations.ClockSteps : Prop := ∀ i s t, ClockStep i s t → exec i s = .next t

/-- Errors, retirement and the fatal state (R425, R428, R433-R445). -/
def Obligations.ErrorSteps : Prop := ∀ i s t, ErrorStep i s t → exec i s = .next t

/-- The SPDM responder, resets, the management engine and the shares of channels and ports (R397-R400, R450-R459). -/
def Obligations.BoardSteps : Prop := (∀ i s t, SpdmStep i s t → exec i s = .next t) ∧ (∀ i s t, BoardStep i s t → exec i s = .next t)
end

