-- ==== Sys2Proof/Laws/State.lean ====
section
/-! SUPPORT. The small lemmas of the state: each field after each update, and what a look-up finds after one. -/

namespace Sys2Proof.Machine

namespace State

variable (s : State)

/-! ### One lemma per field per update -/

@[simp] theorem setCore_packages (x : Core) : (s.setCore x).packages = s.packages := rfl
@[simp] theorem setCore_grids (x : Core) : (s.setCore x).grids = s.grids := rfl
@[simp] theorem setCore_parts (x : Core) : (s.setCore x).parts = s.parts := rfl
@[simp] theorem setCore_jobs (x : Core) : (s.setCore x).jobs = s.jobs := rfl
@[simp] theorem setCore_dallocs (x : Core) : (s.setCore x).dallocs = s.dallocs := rfl
@[simp] theorem setCore_comms (x : Core) : (s.setCore x).comms = s.comms := rfl
@[simp] theorem setCore_phasers (x : Core) : (s.setCore x).phasers = s.phasers := rfl
@[simp] theorem setCore_reqs (x : Core) : (s.setCore x).reqs = s.reqs := rfl
@[simp] theorem setCore_releases (x : Core) : (s.setCore x).releases = s.releases := rfl
@[simp] theorem setCore_syncs (x : Core) : (s.setCore x).syncs = s.syncs := rfl
@[simp] theorem setCore_xwaits (x : Core) : (s.setCore x).xwaits = s.xwaits := rfl
@[simp] theorem setCore_streams (x : Core) : (s.setCore x).streams = s.streams := rfl
@[simp] theorem setCore_switches (x : Core) : (s.setCore x).switches = s.switches := rfl
@[simp] theorem setCore_saved (x : Core) : (s.setCore x).saved = s.saved := rfl
@[simp] theorem setCore_redirects (x : Core) : (s.setCore x).redirects = s.redirects := rfl
@[simp] theorem setCore_heldWakes (x : Core) : (s.setCore x).heldWakes = s.heldWakes := rfl
@[simp] theorem setCore_gmem (x : Core) : (s.setCore x).gmem = s.gmem := rfl
@[simp] theorem setCore_dmem (x : Core) : (s.setCore x).dmem = s.dmem := rfl
@[simp] theorem setCore_marks (x : Core) : (s.setCore x).marks = s.marks := rfl
@[simp] theorem setCore_agenda (x : Core) : (s.setCore x).agenda = s.agenda := rfl
@[simp] theorem setCore_cur (x : Core) : (s.setCore x).cur = s.cur := rfl
@[simp] theorem setCore_clk (x : Core) : (s.setCore x).clk = s.clk := rfl
@[simp] theorem setCore_nextId (x : Core) : (s.setCore x).nextId = s.nextId := rfl
@[simp] theorem setCore_free (x : Core) : (s.setCore x).free = s.free := rfl
@[simp] theorem setCore_out (x : Core) : (s.setCore x).out = s.out := rfl

@[simp] theorem modCore_packages (c : CoreRef) (f : Core → Core) : (s.modCore c f).packages = s.packages := rfl
@[simp] theorem modCore_grids (c : CoreRef) (f : Core → Core) : (s.modCore c f).grids = s.grids := rfl
@[simp] theorem modCore_parts (c : CoreRef) (f : Core → Core) : (s.modCore c f).parts = s.parts := rfl
@[simp] theorem modCore_jobs (c : CoreRef) (f : Core → Core) : (s.modCore c f).jobs = s.jobs := rfl
@[simp] theorem modCore_dallocs (c : CoreRef) (f : Core → Core) : (s.modCore c f).dallocs = s.dallocs := rfl
@[simp] theorem modCore_comms (c : CoreRef) (f : Core → Core) : (s.modCore c f).comms = s.comms := rfl
@[simp] theorem modCore_phasers (c : CoreRef) (f : Core → Core) : (s.modCore c f).phasers = s.phasers := rfl
@[simp] theorem modCore_reqs (c : CoreRef) (f : Core → Core) : (s.modCore c f).reqs = s.reqs := rfl
@[simp] theorem modCore_releases (c : CoreRef) (f : Core → Core) : (s.modCore c f).releases = s.releases := rfl
@[simp] theorem modCore_syncs (c : CoreRef) (f : Core → Core) : (s.modCore c f).syncs = s.syncs := rfl
@[simp] theorem modCore_xwaits (c : CoreRef) (f : Core → Core) : (s.modCore c f).xwaits = s.xwaits := rfl
@[simp] theorem modCore_streams (c : CoreRef) (f : Core → Core) : (s.modCore c f).streams = s.streams := rfl
@[simp] theorem modCore_switches (c : CoreRef) (f : Core → Core) : (s.modCore c f).switches = s.switches := rfl
@[simp] theorem modCore_saved (c : CoreRef) (f : Core → Core) : (s.modCore c f).saved = s.saved := rfl
@[simp] theorem modCore_redirects (c : CoreRef) (f : Core → Core) : (s.modCore c f).redirects = s.redirects := rfl
@[simp] theorem modCore_heldWakes (c : CoreRef) (f : Core → Core) : (s.modCore c f).heldWakes = s.heldWakes := rfl
@[simp] theorem modCore_gmem (c : CoreRef) (f : Core → Core) : (s.modCore c f).gmem = s.gmem := rfl
@[simp] theorem modCore_dmem (c : CoreRef) (f : Core → Core) : (s.modCore c f).dmem = s.dmem := rfl
@[simp] theorem modCore_marks (c : CoreRef) (f : Core → Core) : (s.modCore c f).marks = s.marks := rfl
@[simp] theorem modCore_agenda (c : CoreRef) (f : Core → Core) : (s.modCore c f).agenda = s.agenda := rfl
@[simp] theorem modCore_cur (c : CoreRef) (f : Core → Core) : (s.modCore c f).cur = s.cur := rfl
@[simp] theorem modCore_clk (c : CoreRef) (f : Core → Core) : (s.modCore c f).clk = s.clk := rfl
@[simp] theorem modCore_nextId (c : CoreRef) (f : Core → Core) : (s.modCore c f).nextId = s.nextId := rfl
@[simp] theorem modCore_free (c : CoreRef) (f : Core → Core) : (s.modCore c f).free = s.free := rfl
@[simp] theorem modCore_out (c : CoreRef) (f : Core → Core) : (s.modCore c f).out = s.out := rfl

@[simp] theorem modCtx_packages (c : CoreRef) (f : Ctx → Ctx) : (s.modCtx c f).packages = s.packages := rfl
@[simp] theorem modCtx_grids (c : CoreRef) (f : Ctx → Ctx) : (s.modCtx c f).grids = s.grids := rfl
@[simp] theorem modCtx_parts (c : CoreRef) (f : Ctx → Ctx) : (s.modCtx c f).parts = s.parts := rfl
@[simp] theorem modCtx_jobs (c : CoreRef) (f : Ctx → Ctx) : (s.modCtx c f).jobs = s.jobs := rfl
@[simp] theorem modCtx_dallocs (c : CoreRef) (f : Ctx → Ctx) : (s.modCtx c f).dallocs = s.dallocs := rfl
@[simp] theorem modCtx_comms (c : CoreRef) (f : Ctx → Ctx) : (s.modCtx c f).comms = s.comms := rfl
@[simp] theorem modCtx_phasers (c : CoreRef) (f : Ctx → Ctx) : (s.modCtx c f).phasers = s.phasers := rfl
@[simp] theorem modCtx_reqs (c : CoreRef) (f : Ctx → Ctx) : (s.modCtx c f).reqs = s.reqs := rfl
@[simp] theorem modCtx_releases (c : CoreRef) (f : Ctx → Ctx) : (s.modCtx c f).releases = s.releases := rfl
@[simp] theorem modCtx_syncs (c : CoreRef) (f : Ctx → Ctx) : (s.modCtx c f).syncs = s.syncs := rfl
@[simp] theorem modCtx_xwaits (c : CoreRef) (f : Ctx → Ctx) : (s.modCtx c f).xwaits = s.xwaits := rfl
@[simp] theorem modCtx_streams (c : CoreRef) (f : Ctx → Ctx) : (s.modCtx c f).streams = s.streams := rfl
@[simp] theorem modCtx_switches (c : CoreRef) (f : Ctx → Ctx) : (s.modCtx c f).switches = s.switches := rfl
@[simp] theorem modCtx_saved (c : CoreRef) (f : Ctx → Ctx) : (s.modCtx c f).saved = s.saved := rfl
@[simp] theorem modCtx_redirects (c : CoreRef) (f : Ctx → Ctx) : (s.modCtx c f).redirects = s.redirects := rfl
@[simp] theorem modCtx_heldWakes (c : CoreRef) (f : Ctx → Ctx) : (s.modCtx c f).heldWakes = s.heldWakes := rfl
@[simp] theorem modCtx_gmem (c : CoreRef) (f : Ctx → Ctx) : (s.modCtx c f).gmem = s.gmem := rfl
@[simp] theorem modCtx_dmem (c : CoreRef) (f : Ctx → Ctx) : (s.modCtx c f).dmem = s.dmem := rfl
@[simp] theorem modCtx_marks (c : CoreRef) (f : Ctx → Ctx) : (s.modCtx c f).marks = s.marks := rfl
@[simp] theorem modCtx_agenda (c : CoreRef) (f : Ctx → Ctx) : (s.modCtx c f).agenda = s.agenda := rfl
@[simp] theorem modCtx_cur (c : CoreRef) (f : Ctx → Ctx) : (s.modCtx c f).cur = s.cur := rfl
@[simp] theorem modCtx_clk (c : CoreRef) (f : Ctx → Ctx) : (s.modCtx c f).clk = s.clk := rfl
@[simp] theorem modCtx_nextId (c : CoreRef) (f : Ctx → Ctx) : (s.modCtx c f).nextId = s.nextId := rfl
@[simp] theorem modCtx_free (c : CoreRef) (f : Ctx → Ctx) : (s.modCtx c f).free = s.free := rfl
@[simp] theorem modCtx_out (c : CoreRef) (f : Ctx → Ctx) : (s.modCtx c f).out = s.out := rfl

@[simp] theorem modWg_packages (c : CoreRef) (w : Nat) (f : Workgroup → Workgroup) : (s.modWg c w f).packages = s.packages := rfl
@[simp] theorem modWg_grids (c : CoreRef) (w : Nat) (f : Workgroup → Workgroup) : (s.modWg c w f).grids = s.grids := rfl
@[simp] theorem modWg_parts (c : CoreRef) (w : Nat) (f : Workgroup → Workgroup) : (s.modWg c w f).parts = s.parts := rfl
@[simp] theorem modWg_jobs (c : CoreRef) (w : Nat) (f : Workgroup → Workgroup) : (s.modWg c w f).jobs = s.jobs := rfl
@[simp] theorem modWg_dallocs (c : CoreRef) (w : Nat) (f : Workgroup → Workgroup) : (s.modWg c w f).dallocs = s.dallocs := rfl
@[simp] theorem modWg_comms (c : CoreRef) (w : Nat) (f : Workgroup → Workgroup) : (s.modWg c w f).comms = s.comms := rfl
@[simp] theorem modWg_phasers (c : CoreRef) (w : Nat) (f : Workgroup → Workgroup) : (s.modWg c w f).phasers = s.phasers := rfl
@[simp] theorem modWg_reqs (c : CoreRef) (w : Nat) (f : Workgroup → Workgroup) : (s.modWg c w f).reqs = s.reqs := rfl
@[simp] theorem modWg_releases (c : CoreRef) (w : Nat) (f : Workgroup → Workgroup) : (s.modWg c w f).releases = s.releases := rfl
@[simp] theorem modWg_syncs (c : CoreRef) (w : Nat) (f : Workgroup → Workgroup) : (s.modWg c w f).syncs = s.syncs := rfl
@[simp] theorem modWg_xwaits (c : CoreRef) (w : Nat) (f : Workgroup → Workgroup) : (s.modWg c w f).xwaits = s.xwaits := rfl
@[simp] theorem modWg_streams (c : CoreRef) (w : Nat) (f : Workgroup → Workgroup) : (s.modWg c w f).streams = s.streams := rfl
@[simp] theorem modWg_switches (c : CoreRef) (w : Nat) (f : Workgroup → Workgroup) : (s.modWg c w f).switches = s.switches := rfl
@[simp] theorem modWg_saved (c : CoreRef) (w : Nat) (f : Workgroup → Workgroup) : (s.modWg c w f).saved = s.saved := rfl
@[simp] theorem modWg_redirects (c : CoreRef) (w : Nat) (f : Workgroup → Workgroup) : (s.modWg c w f).redirects = s.redirects := rfl
@[simp] theorem modWg_heldWakes (c : CoreRef) (w : Nat) (f : Workgroup → Workgroup) : (s.modWg c w f).heldWakes = s.heldWakes := rfl
@[simp] theorem modWg_gmem (c : CoreRef) (w : Nat) (f : Workgroup → Workgroup) : (s.modWg c w f).gmem = s.gmem := rfl
@[simp] theorem modWg_dmem (c : CoreRef) (w : Nat) (f : Workgroup → Workgroup) : (s.modWg c w f).dmem = s.dmem := rfl
@[simp] theorem modWg_marks (c : CoreRef) (w : Nat) (f : Workgroup → Workgroup) : (s.modWg c w f).marks = s.marks := rfl
@[simp] theorem modWg_agenda (c : CoreRef) (w : Nat) (f : Workgroup → Workgroup) : (s.modWg c w f).agenda = s.agenda := rfl
@[simp] theorem modWg_cur (c : CoreRef) (w : Nat) (f : Workgroup → Workgroup) : (s.modWg c w f).cur = s.cur := rfl
@[simp] theorem modWg_clk (c : CoreRef) (w : Nat) (f : Workgroup → Workgroup) : (s.modWg c w f).clk = s.clk := rfl
@[simp] theorem modWg_nextId (c : CoreRef) (w : Nat) (f : Workgroup → Workgroup) : (s.modWg c w f).nextId = s.nextId := rfl
@[simp] theorem modWg_free (c : CoreRef) (w : Nat) (f : Workgroup → Workgroup) : (s.modWg c w f).free = s.free := rfl
@[simp] theorem modWg_out (c : CoreRef) (w : Nat) (f : Workgroup → Workgroup) : (s.modWg c w f).out = s.out := rfl

@[simp] theorem modThread_packages (c : CoreRef) (w t : Nat) (f : Thread → Thread) : (s.modThread c w t f).packages = s.packages := rfl
@[simp] theorem modThread_grids (c : CoreRef) (w t : Nat) (f : Thread → Thread) : (s.modThread c w t f).grids = s.grids := rfl
@[simp] theorem modThread_parts (c : CoreRef) (w t : Nat) (f : Thread → Thread) : (s.modThread c w t f).parts = s.parts := rfl
@[simp] theorem modThread_jobs (c : CoreRef) (w t : Nat) (f : Thread → Thread) : (s.modThread c w t f).jobs = s.jobs := rfl
@[simp] theorem modThread_dallocs (c : CoreRef) (w t : Nat) (f : Thread → Thread) : (s.modThread c w t f).dallocs = s.dallocs := rfl
@[simp] theorem modThread_comms (c : CoreRef) (w t : Nat) (f : Thread → Thread) : (s.modThread c w t f).comms = s.comms := rfl
@[simp] theorem modThread_phasers (c : CoreRef) (w t : Nat) (f : Thread → Thread) : (s.modThread c w t f).phasers = s.phasers := rfl
@[simp] theorem modThread_reqs (c : CoreRef) (w t : Nat) (f : Thread → Thread) : (s.modThread c w t f).reqs = s.reqs := rfl
@[simp] theorem modThread_releases (c : CoreRef) (w t : Nat) (f : Thread → Thread) : (s.modThread c w t f).releases = s.releases := rfl
@[simp] theorem modThread_syncs (c : CoreRef) (w t : Nat) (f : Thread → Thread) : (s.modThread c w t f).syncs = s.syncs := rfl
@[simp] theorem modThread_xwaits (c : CoreRef) (w t : Nat) (f : Thread → Thread) : (s.modThread c w t f).xwaits = s.xwaits := rfl
@[simp] theorem modThread_streams (c : CoreRef) (w t : Nat) (f : Thread → Thread) : (s.modThread c w t f).streams = s.streams := rfl
@[simp] theorem modThread_switches (c : CoreRef) (w t : Nat) (f : Thread → Thread) : (s.modThread c w t f).switches = s.switches := rfl
@[simp] theorem modThread_saved (c : CoreRef) (w t : Nat) (f : Thread → Thread) : (s.modThread c w t f).saved = s.saved := rfl
@[simp] theorem modThread_redirects (c : CoreRef) (w t : Nat) (f : Thread → Thread) : (s.modThread c w t f).redirects = s.redirects := rfl
@[simp] theorem modThread_heldWakes (c : CoreRef) (w t : Nat) (f : Thread → Thread) : (s.modThread c w t f).heldWakes = s.heldWakes := rfl
@[simp] theorem modThread_gmem (c : CoreRef) (w t : Nat) (f : Thread → Thread) : (s.modThread c w t f).gmem = s.gmem := rfl
@[simp] theorem modThread_dmem (c : CoreRef) (w t : Nat) (f : Thread → Thread) : (s.modThread c w t f).dmem = s.dmem := rfl
@[simp] theorem modThread_marks (c : CoreRef) (w t : Nat) (f : Thread → Thread) : (s.modThread c w t f).marks = s.marks := rfl
@[simp] theorem modThread_agenda (c : CoreRef) (w t : Nat) (f : Thread → Thread) : (s.modThread c w t f).agenda = s.agenda := rfl
@[simp] theorem modThread_cur (c : CoreRef) (w t : Nat) (f : Thread → Thread) : (s.modThread c w t f).cur = s.cur := rfl
@[simp] theorem modThread_clk (c : CoreRef) (w t : Nat) (f : Thread → Thread) : (s.modThread c w t f).clk = s.clk := rfl
@[simp] theorem modThread_nextId (c : CoreRef) (w t : Nat) (f : Thread → Thread) : (s.modThread c w t f).nextId = s.nextId := rfl
@[simp] theorem modThread_free (c : CoreRef) (w t : Nat) (f : Thread → Thread) : (s.modThread c w t f).free = s.free := rfl
@[simp] theorem modThread_out (c : CoreRef) (w t : Nat) (f : Thread → Thread) : (s.modThread c w t f).out = s.out := rfl

@[simp] theorem modGroup_packages (c : CoreRef) (g : Nat) (f : Group → Group) : (s.modGroup c g f).packages = s.packages := rfl
@[simp] theorem modGroup_grids (c : CoreRef) (g : Nat) (f : Group → Group) : (s.modGroup c g f).grids = s.grids := rfl
@[simp] theorem modGroup_parts (c : CoreRef) (g : Nat) (f : Group → Group) : (s.modGroup c g f).parts = s.parts := rfl
@[simp] theorem modGroup_jobs (c : CoreRef) (g : Nat) (f : Group → Group) : (s.modGroup c g f).jobs = s.jobs := rfl
@[simp] theorem modGroup_dallocs (c : CoreRef) (g : Nat) (f : Group → Group) : (s.modGroup c g f).dallocs = s.dallocs := rfl
@[simp] theorem modGroup_comms (c : CoreRef) (g : Nat) (f : Group → Group) : (s.modGroup c g f).comms = s.comms := rfl
@[simp] theorem modGroup_phasers (c : CoreRef) (g : Nat) (f : Group → Group) : (s.modGroup c g f).phasers = s.phasers := rfl
@[simp] theorem modGroup_reqs (c : CoreRef) (g : Nat) (f : Group → Group) : (s.modGroup c g f).reqs = s.reqs := rfl
@[simp] theorem modGroup_releases (c : CoreRef) (g : Nat) (f : Group → Group) : (s.modGroup c g f).releases = s.releases := rfl
@[simp] theorem modGroup_syncs (c : CoreRef) (g : Nat) (f : Group → Group) : (s.modGroup c g f).syncs = s.syncs := rfl
@[simp] theorem modGroup_xwaits (c : CoreRef) (g : Nat) (f : Group → Group) : (s.modGroup c g f).xwaits = s.xwaits := rfl
@[simp] theorem modGroup_streams (c : CoreRef) (g : Nat) (f : Group → Group) : (s.modGroup c g f).streams = s.streams := rfl
@[simp] theorem modGroup_switches (c : CoreRef) (g : Nat) (f : Group → Group) : (s.modGroup c g f).switches = s.switches := rfl
@[simp] theorem modGroup_saved (c : CoreRef) (g : Nat) (f : Group → Group) : (s.modGroup c g f).saved = s.saved := rfl
@[simp] theorem modGroup_redirects (c : CoreRef) (g : Nat) (f : Group → Group) : (s.modGroup c g f).redirects = s.redirects := rfl
@[simp] theorem modGroup_heldWakes (c : CoreRef) (g : Nat) (f : Group → Group) : (s.modGroup c g f).heldWakes = s.heldWakes := rfl
@[simp] theorem modGroup_gmem (c : CoreRef) (g : Nat) (f : Group → Group) : (s.modGroup c g f).gmem = s.gmem := rfl
@[simp] theorem modGroup_dmem (c : CoreRef) (g : Nat) (f : Group → Group) : (s.modGroup c g f).dmem = s.dmem := rfl
@[simp] theorem modGroup_marks (c : CoreRef) (g : Nat) (f : Group → Group) : (s.modGroup c g f).marks = s.marks := rfl
@[simp] theorem modGroup_agenda (c : CoreRef) (g : Nat) (f : Group → Group) : (s.modGroup c g f).agenda = s.agenda := rfl
@[simp] theorem modGroup_cur (c : CoreRef) (g : Nat) (f : Group → Group) : (s.modGroup c g f).cur = s.cur := rfl
@[simp] theorem modGroup_clk (c : CoreRef) (g : Nat) (f : Group → Group) : (s.modGroup c g f).clk = s.clk := rfl
@[simp] theorem modGroup_nextId (c : CoreRef) (g : Nat) (f : Group → Group) : (s.modGroup c g f).nextId = s.nextId := rfl
@[simp] theorem modGroup_free (c : CoreRef) (g : Nat) (f : Group → Group) : (s.modGroup c g f).free = s.free := rfl
@[simp] theorem modGroup_out (c : CoreRef) (g : Nat) (f : Group → Group) : (s.modGroup c g f).out = s.out := rfl

@[simp] theorem setPkg_cores (x : Package) : (s.setPkg x).cores = s.cores := rfl
@[simp] theorem setPkg_grids (x : Package) : (s.setPkg x).grids = s.grids := rfl
@[simp] theorem setPkg_parts (x : Package) : (s.setPkg x).parts = s.parts := rfl
@[simp] theorem setPkg_jobs (x : Package) : (s.setPkg x).jobs = s.jobs := rfl
@[simp] theorem setPkg_dallocs (x : Package) : (s.setPkg x).dallocs = s.dallocs := rfl
@[simp] theorem setPkg_comms (x : Package) : (s.setPkg x).comms = s.comms := rfl
@[simp] theorem setPkg_phasers (x : Package) : (s.setPkg x).phasers = s.phasers := rfl
@[simp] theorem setPkg_reqs (x : Package) : (s.setPkg x).reqs = s.reqs := rfl
@[simp] theorem setPkg_releases (x : Package) : (s.setPkg x).releases = s.releases := rfl
@[simp] theorem setPkg_syncs (x : Package) : (s.setPkg x).syncs = s.syncs := rfl
@[simp] theorem setPkg_xwaits (x : Package) : (s.setPkg x).xwaits = s.xwaits := rfl
@[simp] theorem setPkg_streams (x : Package) : (s.setPkg x).streams = s.streams := rfl
@[simp] theorem setPkg_switches (x : Package) : (s.setPkg x).switches = s.switches := rfl
@[simp] theorem setPkg_saved (x : Package) : (s.setPkg x).saved = s.saved := rfl
@[simp] theorem setPkg_redirects (x : Package) : (s.setPkg x).redirects = s.redirects := rfl
@[simp] theorem setPkg_heldWakes (x : Package) : (s.setPkg x).heldWakes = s.heldWakes := rfl
@[simp] theorem setPkg_gmem (x : Package) : (s.setPkg x).gmem = s.gmem := rfl
@[simp] theorem setPkg_dmem (x : Package) : (s.setPkg x).dmem = s.dmem := rfl
@[simp] theorem setPkg_marks (x : Package) : (s.setPkg x).marks = s.marks := rfl
@[simp] theorem setPkg_agenda (x : Package) : (s.setPkg x).agenda = s.agenda := rfl
@[simp] theorem setPkg_cur (x : Package) : (s.setPkg x).cur = s.cur := rfl
@[simp] theorem setPkg_clk (x : Package) : (s.setPkg x).clk = s.clk := rfl
@[simp] theorem setPkg_nextId (x : Package) : (s.setPkg x).nextId = s.nextId := rfl
@[simp] theorem setPkg_free (x : Package) : (s.setPkg x).free = s.free := rfl
@[simp] theorem setPkg_out (x : Package) : (s.setPkg x).out = s.out := rfl

@[simp] theorem modPkg_cores (p : Nat) (f : Package → Package) : (s.modPkg p f).cores = s.cores := rfl
@[simp] theorem modPkg_grids (p : Nat) (f : Package → Package) : (s.modPkg p f).grids = s.grids := rfl
@[simp] theorem modPkg_parts (p : Nat) (f : Package → Package) : (s.modPkg p f).parts = s.parts := rfl
@[simp] theorem modPkg_jobs (p : Nat) (f : Package → Package) : (s.modPkg p f).jobs = s.jobs := rfl
@[simp] theorem modPkg_dallocs (p : Nat) (f : Package → Package) : (s.modPkg p f).dallocs = s.dallocs := rfl
@[simp] theorem modPkg_comms (p : Nat) (f : Package → Package) : (s.modPkg p f).comms = s.comms := rfl
@[simp] theorem modPkg_phasers (p : Nat) (f : Package → Package) : (s.modPkg p f).phasers = s.phasers := rfl
@[simp] theorem modPkg_reqs (p : Nat) (f : Package → Package) : (s.modPkg p f).reqs = s.reqs := rfl
@[simp] theorem modPkg_releases (p : Nat) (f : Package → Package) : (s.modPkg p f).releases = s.releases := rfl
@[simp] theorem modPkg_syncs (p : Nat) (f : Package → Package) : (s.modPkg p f).syncs = s.syncs := rfl
@[simp] theorem modPkg_xwaits (p : Nat) (f : Package → Package) : (s.modPkg p f).xwaits = s.xwaits := rfl
@[simp] theorem modPkg_streams (p : Nat) (f : Package → Package) : (s.modPkg p f).streams = s.streams := rfl
@[simp] theorem modPkg_switches (p : Nat) (f : Package → Package) : (s.modPkg p f).switches = s.switches := rfl
@[simp] theorem modPkg_saved (p : Nat) (f : Package → Package) : (s.modPkg p f).saved = s.saved := rfl
@[simp] theorem modPkg_redirects (p : Nat) (f : Package → Package) : (s.modPkg p f).redirects = s.redirects := rfl
@[simp] theorem modPkg_heldWakes (p : Nat) (f : Package → Package) : (s.modPkg p f).heldWakes = s.heldWakes := rfl
@[simp] theorem modPkg_gmem (p : Nat) (f : Package → Package) : (s.modPkg p f).gmem = s.gmem := rfl
@[simp] theorem modPkg_dmem (p : Nat) (f : Package → Package) : (s.modPkg p f).dmem = s.dmem := rfl
@[simp] theorem modPkg_marks (p : Nat) (f : Package → Package) : (s.modPkg p f).marks = s.marks := rfl
@[simp] theorem modPkg_agenda (p : Nat) (f : Package → Package) : (s.modPkg p f).agenda = s.agenda := rfl
@[simp] theorem modPkg_cur (p : Nat) (f : Package → Package) : (s.modPkg p f).cur = s.cur := rfl
@[simp] theorem modPkg_clk (p : Nat) (f : Package → Package) : (s.modPkg p f).clk = s.clk := rfl
@[simp] theorem modPkg_nextId (p : Nat) (f : Package → Package) : (s.modPkg p f).nextId = s.nextId := rfl
@[simp] theorem modPkg_free (p : Nat) (f : Package → Package) : (s.modPkg p f).free = s.free := rfl
@[simp] theorem modPkg_out (p : Nat) (f : Package → Package) : (s.modPkg p f).out = s.out := rfl

@[simp] theorem modGrid_packages (h : Nat) (f : Grid → Grid) : (s.modGrid h f).packages = s.packages := rfl
@[simp] theorem modGrid_cores (h : Nat) (f : Grid → Grid) : (s.modGrid h f).cores = s.cores := rfl
@[simp] theorem modGrid_parts (h : Nat) (f : Grid → Grid) : (s.modGrid h f).parts = s.parts := rfl
@[simp] theorem modGrid_jobs (h : Nat) (f : Grid → Grid) : (s.modGrid h f).jobs = s.jobs := rfl
@[simp] theorem modGrid_dallocs (h : Nat) (f : Grid → Grid) : (s.modGrid h f).dallocs = s.dallocs := rfl
@[simp] theorem modGrid_comms (h : Nat) (f : Grid → Grid) : (s.modGrid h f).comms = s.comms := rfl
@[simp] theorem modGrid_phasers (h : Nat) (f : Grid → Grid) : (s.modGrid h f).phasers = s.phasers := rfl
@[simp] theorem modGrid_reqs (h : Nat) (f : Grid → Grid) : (s.modGrid h f).reqs = s.reqs := rfl
@[simp] theorem modGrid_releases (h : Nat) (f : Grid → Grid) : (s.modGrid h f).releases = s.releases := rfl
@[simp] theorem modGrid_syncs (h : Nat) (f : Grid → Grid) : (s.modGrid h f).syncs = s.syncs := rfl
@[simp] theorem modGrid_xwaits (h : Nat) (f : Grid → Grid) : (s.modGrid h f).xwaits = s.xwaits := rfl
@[simp] theorem modGrid_streams (h : Nat) (f : Grid → Grid) : (s.modGrid h f).streams = s.streams := rfl
@[simp] theorem modGrid_switches (h : Nat) (f : Grid → Grid) : (s.modGrid h f).switches = s.switches := rfl
@[simp] theorem modGrid_saved (h : Nat) (f : Grid → Grid) : (s.modGrid h f).saved = s.saved := rfl
@[simp] theorem modGrid_redirects (h : Nat) (f : Grid → Grid) : (s.modGrid h f).redirects = s.redirects := rfl
@[simp] theorem modGrid_heldWakes (h : Nat) (f : Grid → Grid) : (s.modGrid h f).heldWakes = s.heldWakes := rfl
@[simp] theorem modGrid_gmem (h : Nat) (f : Grid → Grid) : (s.modGrid h f).gmem = s.gmem := rfl
@[simp] theorem modGrid_dmem (h : Nat) (f : Grid → Grid) : (s.modGrid h f).dmem = s.dmem := rfl
@[simp] theorem modGrid_marks (h : Nat) (f : Grid → Grid) : (s.modGrid h f).marks = s.marks := rfl
@[simp] theorem modGrid_agenda (h : Nat) (f : Grid → Grid) : (s.modGrid h f).agenda = s.agenda := rfl
@[simp] theorem modGrid_cur (h : Nat) (f : Grid → Grid) : (s.modGrid h f).cur = s.cur := rfl
@[simp] theorem modGrid_clk (h : Nat) (f : Grid → Grid) : (s.modGrid h f).clk = s.clk := rfl
@[simp] theorem modGrid_nextId (h : Nat) (f : Grid → Grid) : (s.modGrid h f).nextId = s.nextId := rfl
@[simp] theorem modGrid_free (h : Nat) (f : Grid → Grid) : (s.modGrid h f).free = s.free := rfl
@[simp] theorem modGrid_out (h : Nat) (f : Grid → Grid) : (s.modGrid h f).out = s.out := rfl

@[simp] theorem modPart_packages (p : Nat) (f : Part → Part) : (s.modPart p f).packages = s.packages := rfl
@[simp] theorem modPart_cores (p : Nat) (f : Part → Part) : (s.modPart p f).cores = s.cores := rfl
@[simp] theorem modPart_grids (p : Nat) (f : Part → Part) : (s.modPart p f).grids = s.grids := rfl
@[simp] theorem modPart_jobs (p : Nat) (f : Part → Part) : (s.modPart p f).jobs = s.jobs := rfl
@[simp] theorem modPart_dallocs (p : Nat) (f : Part → Part) : (s.modPart p f).dallocs = s.dallocs := rfl
@[simp] theorem modPart_comms (p : Nat) (f : Part → Part) : (s.modPart p f).comms = s.comms := rfl
@[simp] theorem modPart_phasers (p : Nat) (f : Part → Part) : (s.modPart p f).phasers = s.phasers := rfl
@[simp] theorem modPart_reqs (p : Nat) (f : Part → Part) : (s.modPart p f).reqs = s.reqs := rfl
@[simp] theorem modPart_releases (p : Nat) (f : Part → Part) : (s.modPart p f).releases = s.releases := rfl
@[simp] theorem modPart_syncs (p : Nat) (f : Part → Part) : (s.modPart p f).syncs = s.syncs := rfl
@[simp] theorem modPart_xwaits (p : Nat) (f : Part → Part) : (s.modPart p f).xwaits = s.xwaits := rfl
@[simp] theorem modPart_streams (p : Nat) (f : Part → Part) : (s.modPart p f).streams = s.streams := rfl
@[simp] theorem modPart_switches (p : Nat) (f : Part → Part) : (s.modPart p f).switches = s.switches := rfl
@[simp] theorem modPart_saved (p : Nat) (f : Part → Part) : (s.modPart p f).saved = s.saved := rfl
@[simp] theorem modPart_redirects (p : Nat) (f : Part → Part) : (s.modPart p f).redirects = s.redirects := rfl
@[simp] theorem modPart_heldWakes (p : Nat) (f : Part → Part) : (s.modPart p f).heldWakes = s.heldWakes := rfl
@[simp] theorem modPart_gmem (p : Nat) (f : Part → Part) : (s.modPart p f).gmem = s.gmem := rfl
@[simp] theorem modPart_dmem (p : Nat) (f : Part → Part) : (s.modPart p f).dmem = s.dmem := rfl
@[simp] theorem modPart_marks (p : Nat) (f : Part → Part) : (s.modPart p f).marks = s.marks := rfl
@[simp] theorem modPart_agenda (p : Nat) (f : Part → Part) : (s.modPart p f).agenda = s.agenda := rfl
@[simp] theorem modPart_cur (p : Nat) (f : Part → Part) : (s.modPart p f).cur = s.cur := rfl
@[simp] theorem modPart_clk (p : Nat) (f : Part → Part) : (s.modPart p f).clk = s.clk := rfl
@[simp] theorem modPart_nextId (p : Nat) (f : Part → Part) : (s.modPart p f).nextId = s.nextId := rfl
@[simp] theorem modPart_free (p : Nat) (f : Part → Part) : (s.modPart p f).free = s.free := rfl
@[simp] theorem modPart_out (p : Nat) (f : Part → Part) : (s.modPart p f).out = s.out := rfl

@[simp] theorem post_packages (i : Instr) : (s.post i).packages = s.packages := rfl
@[simp] theorem post_cores (i : Instr) : (s.post i).cores = s.cores := rfl
@[simp] theorem post_grids (i : Instr) : (s.post i).grids = s.grids := rfl
@[simp] theorem post_parts (i : Instr) : (s.post i).parts = s.parts := rfl
@[simp] theorem post_jobs (i : Instr) : (s.post i).jobs = s.jobs := rfl
@[simp] theorem post_dallocs (i : Instr) : (s.post i).dallocs = s.dallocs := rfl
@[simp] theorem post_comms (i : Instr) : (s.post i).comms = s.comms := rfl
@[simp] theorem post_phasers (i : Instr) : (s.post i).phasers = s.phasers := rfl
@[simp] theorem post_reqs (i : Instr) : (s.post i).reqs = s.reqs := rfl
@[simp] theorem post_releases (i : Instr) : (s.post i).releases = s.releases := rfl
@[simp] theorem post_syncs (i : Instr) : (s.post i).syncs = s.syncs := rfl
@[simp] theorem post_xwaits (i : Instr) : (s.post i).xwaits = s.xwaits := rfl
@[simp] theorem post_streams (i : Instr) : (s.post i).streams = s.streams := rfl
@[simp] theorem post_switches (i : Instr) : (s.post i).switches = s.switches := rfl
@[simp] theorem post_saved (i : Instr) : (s.post i).saved = s.saved := rfl
@[simp] theorem post_redirects (i : Instr) : (s.post i).redirects = s.redirects := rfl
@[simp] theorem post_heldWakes (i : Instr) : (s.post i).heldWakes = s.heldWakes := rfl
@[simp] theorem post_gmem (i : Instr) : (s.post i).gmem = s.gmem := rfl
@[simp] theorem post_dmem (i : Instr) : (s.post i).dmem = s.dmem := rfl
@[simp] theorem post_marks (i : Instr) : (s.post i).marks = s.marks := rfl
@[simp] theorem post_cur (i : Instr) : (s.post i).cur = s.cur := rfl
@[simp] theorem post_clk (i : Instr) : (s.post i).clk = s.clk := rfl
@[simp] theorem post_nextId (i : Instr) : (s.post i).nextId = s.nextId := rfl
@[simp] theorem post_free (i : Instr) : (s.post i).free = s.free := rfl
@[simp] theorem post_out (i : Instr) : (s.post i).out = s.out := rfl

@[simp] theorem postOnce_packages (i : Instr) : (s.postOnce i).packages = s.packages := by unfold postOnce; split <;> rfl
@[simp] theorem postOnce_cores (i : Instr) : (s.postOnce i).cores = s.cores := by unfold postOnce; split <;> rfl
@[simp] theorem postOnce_grids (i : Instr) : (s.postOnce i).grids = s.grids := by unfold postOnce; split <;> rfl
@[simp] theorem postOnce_parts (i : Instr) : (s.postOnce i).parts = s.parts := by unfold postOnce; split <;> rfl
@[simp] theorem postOnce_jobs (i : Instr) : (s.postOnce i).jobs = s.jobs := by unfold postOnce; split <;> rfl
@[simp] theorem postOnce_dallocs (i : Instr) : (s.postOnce i).dallocs = s.dallocs := by unfold postOnce; split <;> rfl
@[simp] theorem postOnce_comms (i : Instr) : (s.postOnce i).comms = s.comms := by unfold postOnce; split <;> rfl
@[simp] theorem postOnce_phasers (i : Instr) : (s.postOnce i).phasers = s.phasers := by unfold postOnce; split <;> rfl
@[simp] theorem postOnce_reqs (i : Instr) : (s.postOnce i).reqs = s.reqs := by unfold postOnce; split <;> rfl
@[simp] theorem postOnce_releases (i : Instr) : (s.postOnce i).releases = s.releases := by unfold postOnce; split <;> rfl
@[simp] theorem postOnce_syncs (i : Instr) : (s.postOnce i).syncs = s.syncs := by unfold postOnce; split <;> rfl
@[simp] theorem postOnce_xwaits (i : Instr) : (s.postOnce i).xwaits = s.xwaits := by unfold postOnce; split <;> rfl
@[simp] theorem postOnce_streams (i : Instr) : (s.postOnce i).streams = s.streams := by unfold postOnce; split <;> rfl
@[simp] theorem postOnce_switches (i : Instr) : (s.postOnce i).switches = s.switches := by unfold postOnce; split <;> rfl
@[simp] theorem postOnce_saved (i : Instr) : (s.postOnce i).saved = s.saved := by unfold postOnce; split <;> rfl
@[simp] theorem postOnce_redirects (i : Instr) : (s.postOnce i).redirects = s.redirects := by unfold postOnce; split <;> rfl
@[simp] theorem postOnce_heldWakes (i : Instr) : (s.postOnce i).heldWakes = s.heldWakes := by unfold postOnce; split <;> rfl
@[simp] theorem postOnce_gmem (i : Instr) : (s.postOnce i).gmem = s.gmem := by unfold postOnce; split <;> rfl
@[simp] theorem postOnce_dmem (i : Instr) : (s.postOnce i).dmem = s.dmem := by unfold postOnce; split <;> rfl
@[simp] theorem postOnce_marks (i : Instr) : (s.postOnce i).marks = s.marks := by unfold postOnce; split <;> rfl
@[simp] theorem postOnce_cur (i : Instr) : (s.postOnce i).cur = s.cur := by unfold postOnce; split <;> rfl
@[simp] theorem postOnce_clk (i : Instr) : (s.postOnce i).clk = s.clk := by unfold postOnce; split <;> rfl
@[simp] theorem postOnce_nextId (i : Instr) : (s.postOnce i).nextId = s.nextId := by unfold postOnce; split <;> rfl
@[simp] theorem postOnce_free (i : Instr) : (s.postOnce i).free = s.free := by unfold postOnce; split <;> rfl
@[simp] theorem postOnce_out (i : Instr) : (s.postOnce i).out = s.out := by unfold postOnce; split <;> rfl

end State

/-! ### Lists kept by key -/

theorem find_upsert_same {α : Type} (p : α → Bool) (x : α) (hx : p x = true) : ∀ l : List α, (upsert p x l).find? p = some x
  | [] => by simp [upsert, hx]
  | y :: ys => by
    unfold upsert
    by_cases hy : p y = true
    · simp [hy, hx]
    · simp [hy, find_upsert_same p x hx ys]

theorem find_upsert_other {α : Type} (p q : α → Bool) (x : α) (hx : q x = false) (hpq : ∀ y, p y = true → q y = false) :
    ∀ l : List α, (upsert p x l).find? q = l.find? q
  | [] => by simp [upsert, hx]
  | y :: ys => by
    unfold upsert
    by_cases hy : p y = true
    · simp [hy, hx, hpq y hy]
    · simp only [hy, Bool.false_eq_true, if_false, List.find?_cons, find_upsert_other p q x hx hpq ys]

theorem find_mapIf_same {α : Type} (p : α → Bool) (f : α → α) (h : ∀ y, p y = true → p (f y) = true) :
    ∀ l : List α, (mapIf p f l).find? p = (l.find? p).map f
  | [] => rfl
  | y :: ys => by
    have ih := find_mapIf_same p f h ys
    unfold mapIf at ih ⊢
    by_cases hy : p y = true <;> simp [hy, h, ih]

theorem find_mapIf_other {α : Type} (p q : α → Bool) (f : α → α) (h : ∀ y, p y = true → q y = false ∧ q (f y) = false) :
    ∀ l : List α, (mapIf p f l).find? q = l.find? q
  | [] => rfl
  | y :: ys => by
    have ih := find_mapIf_other p q f h ys
    unfold mapIf at ih ⊢
    by_cases hy : p y = true
    · simp [hy, h y hy, ih]
    · simp [hy, ih, List.find?_cons]

/-! ### Look-ups -/

namespace State

theorem core_at (s : State) (c : CoreRef) : (s.core c).at_ = c := by
  unfold core
  cases h : s.cores.find? fun x => x.at_ == c with
  | none => rfl
  | some x => simpa using List.find?_some h

theorem core_setCore (s : State) (x : Core) (c : CoreRef) : (s.setCore x).core c = if c = x.at_ then x else s.core c := by
  unfold core setCore
  by_cases h : c = x.at_
  · subst h; simp [find_upsert_same]
  · rw [if_neg h, find_upsert_other _ _ _ (by simpa using fun h' => h h'.symm)]
    intro y hy
    simp only [beq_iff_eq] at hy
    simpa [hy] using fun h' => h h'.symm

theorem core_modCore (s : State) (c c' : CoreRef) (f : Core → Core) (hf : (f (s.core c)).at_ = c) :
    (s.modCore c f).core c' = if c' = c then f (s.core c) else s.core c' := by
  unfold modCore; rw [core_setCore, hf]

theorem core_modCtx (s : State) (c c' : CoreRef) (f : Ctx → Ctx) :
    (s.modCtx c f).core c' = if c' = c then { s.core c with ctx := (s.core c).ctx.map f } else s.core c' :=
  core_modCore s c c' _ (core_at s c)

@[simp] theorem core_modCtx_ctx (s : State) (c : CoreRef) (f : Ctx → Ctx) : ((s.modCtx c f).core c).ctx = (s.core c).ctx.map f := by
  rw [core_modCtx, if_pos rfl]

@[simp] theorem core_modCtx_stopped (s : State) (c c' : CoreRef) (f : Ctx → Ctx) : ((s.modCtx c f).core c').stopped = (s.core c').stopped := by
  rw [core_modCtx]; split_ifs with h <;> simp [h]

theorem core_modCtx_other (s : State) {c c' : CoreRef} (f : Ctx → Ctx) (h : c' ≠ c) : (s.modCtx c f).core c' = s.core c' := by
  rw [core_modCtx, if_neg h]

/-- Cores that another field's update does not touch. -/
theorem core_congr {s t : State} (h : t.cores = s.cores) (c : CoreRef) : t.core c = s.core c := by unfold core; rw [h]

@[simp] theorem core_post (s : State) (i : Instr) (c : CoreRef) : (s.post i).core c = s.core c := rfl

@[simp] theorem core_postOnce (s : State) (i : Instr) (c : CoreRef) : (s.postOnce i).core c = s.core c := core_congr (postOnce_cores s i) c

theorem agenda_postOnce (s : State) (i : Instr) : ∃ l, (s.postOnce i).agenda = s.agenda ++ l := by
  unfold postOnce; split
  · exact ⟨[], by simp⟩
  · exact ⟨[i], rfl⟩

theorem pkg_setPkg (s : State) (x : Package) (p : Nat) : (s.setPkg x).pkg p = if p = x.id then x else s.pkg p := by
  unfold pkg setPkg
  by_cases h : p = x.id
  · subst h; simp [find_upsert_same]
  · rw [if_neg h, find_upsert_other _ _ _ (by simpa using fun h' => h h'.symm)]
    intro y hy
    simp only [beq_iff_eq] at hy
    simpa [hy] using fun h' => h h'.symm

theorem pkg_id (s : State) (p : Nat) : (s.pkg p).id = p := by
  unfold pkg
  cases h : s.packages.find? fun x => x.id == p with
  | none => rfl
  | some x => simpa using List.find?_some h

/-- A package after it has been changed by a function that keeps its number. -/
theorem pkg_modPkg (s : State) (p q : Nat) (f : Package → Package) (hf : (f (s.pkg p)).id = p) :
    (s.modPkg p f).pkg q = if q = p then f (s.pkg p) else s.pkg q := by
  unfold modPkg; rw [pkg_setPkg, hf]

end State

namespace Ctx

theorem wg_modWg (k : Ctx) (w w' : Nat) (f : Workgroup → Workgroup) (hf : ∀ x, (f x).slot = x.slot) :
    (k.modWg w f).wg w' = if w' = w then (k.wg w).map f else k.wg w' := by
  unfold wg modWg
  split_ifs with h
  · subst h; exact find_mapIf_same _ _ (fun y hy => by simpa [hf] using hy) _
  · refine find_mapIf_other _ _ _ (fun y hy => ?_) _
    simp only [beq_iff_eq] at hy
    simp [hf, hy, Ne.symm h]

theorem group_modGroup (k : Ctx) (g g' : Nat) (f : Group → Group) (hf : ∀ x, (f x).slot = x.slot) :
    (k.modGroup g f).group g' = if g' = g then (k.group g).map f else k.group g' := by
  unfold group modGroup
  split_ifs with h
  · subst h; exact find_mapIf_same _ _ (fun y hy => by simpa [hf] using hy) _
  · refine find_mapIf_other _ _ _ (fun y hy => ?_) _
    simp only [beq_iff_eq] at hy
    simp [hf, hy, Ne.symm h]

@[simp] theorem wg_modGroup (k : Ctx) (g w : Nat) (f : Group → Group) : (k.modGroup g f).wg w = k.wg w := rfl
@[simp] theorem group_modWg (k : Ctx) (g w : Nat) (f : Workgroup → Workgroup) : (k.modWg w f).group g = k.group g := rfl

end Ctx

theorem Workgroup.thread_modThread (w : Workgroup) (t t' : Nat) (f : Thread → Thread) (hf : ∀ x, x.tid = t → (f x).tid = t) :
    (w.modThread t f).thread t' = if t' = t then (w.thread t).map f else w.thread t' := by
  unfold thread modThread
  split_ifs with h
  · subst h; exact find_mapIf_same _ _ (fun y hy => by simpa using hf y (by simpa using hy)) _
  · refine find_mapIf_other _ _ _ (fun y hy => ?_) _
    simp only [beq_iff_eq] at hy
    simp [hf y hy, hy, Ne.symm h]

@[simp] theorem Workgroup.modThread_slot (w : Workgroup) (t : Nat) (f : Thread → Thread) : (w.modThread t f).slot = w.slot := rfl

theorem Workgroup.thread_tid {w : Workgroup} {t : Nat} {x : Thread} (h : w.thread t = some x) : x.tid = t := by
  simpa using List.find?_some h

namespace State

theorem wg_modThread (s : State) (c : CoreRef) (w t w' : Nat) (f : Thread → Thread) :
    (s.modThread c w t f).wg c w' = if w' = w then (s.wg c w).map (fun x => x.modThread t f) else s.wg c w' := by
  unfold modThread modWg State.wg
  rw [core_modCtx_ctx]
  cases h : (s.core c).ctx with
  | none => simp
  | some k => exact Ctx.wg_modWg k w w' (fun x => x.modThread t f) fun _ => rfl

/-- A thread after one of its workgroup has been changed by a function that keeps its index. -/
theorem thread_modThread (s : State) (c : CoreRef) (w t t' : Nat) (f : Thread → Thread) (hf : ∀ x, x.tid = t → (f x).tid = t) :
    (s.modThread c w t f).thread c w t' = if t' = t then (s.thread c w t).map f else s.thread c w t' := by
  unfold State.thread
  rw [wg_modThread, if_pos rfl]
  cases h : s.wg c w with
  | none => simp
  | some x => simpa using Workgroup.thread_modThread x t t' f hf

end State

end Sys2Proof.Machine
end

