-- ==== Sys2Proof/Laws/Unit.lean ====
section
/-! SUPPORT. What the scheduler's operations and the end of a unit can do. -/

namespace Sys2Proof.Machine

open State

/-! ### Work on one core -/

theorem SchedOnly.refl (k : Ctx) : SchedOnly k k := rfl

theorem SchedOnly.trans {a b c : Ctx} (h1 : SchedOnly a b) (h2 : SchedOnly b c) : SchedOnly a c := by
  unfold SchedOnly at *; rw [h2, h1]

theorem OnCore.refl (c : CoreRef) (s : State) : OnCore c s s :=
  ⟨rfl, ⟨[], by simp⟩, fun _ _ => rfl, rfl, fun k hk => ⟨k, hk, rfl⟩⟩

theorem OnCore.trans {c : CoreRef} {s t u : State} (h1 : OnCore c s t) (h2 : OnCore c t u) : OnCore c s u where
  rest := by have := h1.rest; have := h2.rest; rw [h2.rest, h1.rest]
  posted := by
    obtain ⟨l, hl⟩ := h1.posted
    obtain ⟨m, hm⟩ := h2.posted
    exact ⟨l ++ m, by rw [hm, hl, List.append_assoc]⟩
  others c' h := (h2.others c' h).trans (h1.others c' h)
  core := by rw [h2.core, h1.core]
  ctx k hk := by
    obtain ⟨k1, hk1, e1⟩ := h1.ctx k hk
    obtain ⟨k2, hk2, e2⟩ := h2.ctx k1 hk1
    exact ⟨k2, hk2, e1.trans e2⟩

theorem OnCore.modCtx (c : CoreRef) (s : State) (f : Ctx → Ctx) (hf : ∀ k, SchedOnly k (f k)) : OnCore c s (s.modCtx c f) where
  rest := rfl
  posted := ⟨[], by simp⟩
  others c' h := core_modCtx_other s f h
  core := by simp [core_modCtx]
  ctx k hk := ⟨f k, by simp [hk], hf k⟩

theorem OnCore.postOnce (c : CoreRef) (s : State) (i : Instr) : OnCore c s (s.postOnce i) where
  rest := by unfold State.postOnce; split <;> rfl
  posted := agenda_postOnce s i
  others c' _ := core_postOnce s i c'
  core := by simp
  ctx k hk := ⟨k, by simpa using hk, rfl⟩

theorem OnCore.modThread (c : CoreRef) (s : State) (w t : Nat) (f : Thread → Thread) : OnCore c s (s.modThread c w t f) :=
  OnCore.modCtx c s _ fun _ => rfl

theorem OnCore.foldl {c : CoreRef} {β : Type} (f : State → β → State) (h : ∀ s b, OnCore c s (f s b)) :
    ∀ (l : List β) (s : State), OnCore c s (l.foldl f s)
  | [], s => OnCore.refl c s
  | b :: l, s => (h s b).trans (OnCore.foldl f h l (f s b))

/-- A field that work on a core leaves alone. -/
theorem OnCore.wg_congr {c : CoreRef} {s t : State} (h : (t.core c).ctx.map Ctx.wgs = (s.core c).ctx.map Ctx.wgs) (w : Nat) :
    t.wg c w = s.wg c w := by
  unfold State.wg
  cases hs : (s.core c).ctx with
  | none => cases ht : (t.core c).ctx with
    | none => rfl
    | some k => simp [hs, ht] at h
  | some k => cases ht : (t.core c).ctx with
    | none => simp [hs, ht] at h
    | some k' =>
      have : k'.wgs = k.wgs := by simpa [hs, ht] using h
      simp [Ctx.wg, this]

/-! ### Rescheduling -/

/-- A group that rescheduling leaves as it was but for its place on the scheduler; its stall may be over. -/
def SameGroup (g g' : Group) : Prop := g' = { g with st := g'.st, stall := g'.stall } ∧ (g'.stall = g.stall ∨ g'.stall = .none)

/-- Contexts that agree but for the states of their groups. -/
structure Reordered (k k' : Ctx) : Prop where
  rest : k' = { k with groups := k'.groups }
  all : List.Forall₂ SameGroup k.groups k'.groups

theorem SameGroup.refl (g : Group) : SameGroup g g := ⟨rfl, .inl rfl⟩

theorem SameGroup.trans {a b c : Group} (h1 : SameGroup a b) (h2 : SameGroup b c) : SameGroup a c := by
  refine ⟨by rw [h2.1, h1.1], ?_⟩
  rcases h2.2 with h | h
  · rw [h]; exact h1.2
  · exact .inr h

theorem forall₂_trans {α : Type} {R : α → α → Prop} (ht : ∀ a b c, R a b → R b c → R a c) {l m n : List α} (h1 : List.Forall₂ R l m)
    (h2 : List.Forall₂ R m n) : List.Forall₂ R l n := by
  induction h1 generalizing n with
  | nil => cases h2; exact .nil
  | cons h _ ih => cases h2 with
    | cons h' t' => exact .cons (ht _ _ _ h h') (ih t')

theorem Reordered.refl (k : Ctx) : Reordered k k := ⟨rfl, List.forall₂_same.mpr fun g _ => SameGroup.refl g⟩

theorem Reordered.trans {a b c : Ctx} (h1 : Reordered a b) (h2 : Reordered b c) : Reordered a c :=
  ⟨by rw [h2.rest, h1.rest], forall₂_trans (R := SameGroup) (fun a b c => @SameGroup.trans a b c) h1.all h2.all⟩

theorem find_forall₂ {l l' : List Group} (h : List.Forall₂ SameGroup l l') (slot : Nat) :
    (l.find? fun x => x.slot == slot) = none ∧ (l'.find? fun x => x.slot == slot) = none ∨
    ∃ g g', (l.find? fun x => x.slot == slot) = some g ∧ (l'.find? fun x => x.slot == slot) = some g' ∧ SameGroup g g' := by
  induction h with
  | nil => exact .inl ⟨rfl, rfl⟩
  | @cons a b _ _ h _ ih =>
    have e : b.slot = a.slot := by rw [h.1]
    by_cases hs : a.slot = slot
    · exact .inr ⟨a, b, by simp [hs], by simp [e, hs], h⟩
    · simpa [List.find?_cons, e, hs] using ih

/-- A group of a slot after rescheduling. -/
theorem Reordered.groups {k k' : Ctx} (h : Reordered k k') (slot : Nat) (g : Group) (hg : k.group slot = some g) :
    ∃ g', k'.group slot = some g' ∧ SameGroup g g' := by
  rcases find_forall₂ h.all slot with ⟨h1, -⟩ | ⟨g1, g', h1, h2, h3⟩
  · unfold Ctx.group at hg; rw [hg] at h1; cases h1
  · unfold Ctx.group at hg; rw [hg] at h1; cases h1; exact ⟨g', h2, h3⟩

/-- An empty slot after rescheduling. -/
theorem Reordered.none {k k' : Ctx} (h : Reordered k k') (slot : Nat) (hg : k.group slot = .none) : k'.group slot = .none := by
  rcases find_forall₂ h.all slot with ⟨-, h2⟩ | ⟨g1, g', h1, -, -⟩
  · exact h2
  · unfold Ctx.group at hg; rw [hg] at h1; cases h1

theorem Reordered.modGroup (k : Ctx) (slot : Nat) (f : Group → Group) (hf : ∀ g, SameGroup g (f g)) : Reordered k (k.modGroup slot f) where
  rest := rfl
  all := by
    unfold Ctx.modGroup mapIf
    rw [List.forall₂_map_right_iff, List.forall₂_same]
    intro g _
    split_ifs
    · exact hf g
    · exact SameGroup.refl g

theorem Ctx.activate_reordered (k : Ctx) (g : Group) : Reordered k (k.activate g) := Reordered.modGroup k _ _ fun _ => ⟨rfl, .inr rfl⟩

theorem Ctx.promote_reordered (sc : Nat) : ∀ n k, Reordered k (Ctx.promote sc n k)
  | 0, k => Reordered.refl k
  | n + 1, k => by
    unfold Ctx.promote
    split_ifs
    · split
      · exact (Ctx.activate_reordered k _).trans (promote_reordered sc n _)
      · exact Reordered.refl k
    · exact Reordered.refl k

theorem Ctx.resume_reordered (k : Ctx) (sc : Nat) : Reordered k (k.resume sc) := by
  unfold Ctx.resume
  split_ifs
  · exact Reordered.refl k
  · split
    · exact Reordered.modGroup k _ _ fun _ => ⟨rfl, .inl rfl⟩
    · exact Reordered.refl k

/-- Work on a core that only reorders its groups. -/
structure OnSched (c : CoreRef) (s t : State) : Prop where
  frame : OnCore c s t
  ctx : ∀ k, (s.core c).ctx = some k → ∃ k', (t.core c).ctx = some k' ∧ Reordered k k'

theorem OnSched.refl (c : CoreRef) (s : State) : OnSched c s s := ⟨OnCore.refl c s, fun k hk => ⟨k, hk, Reordered.refl k⟩⟩

theorem OnSched.trans {c : CoreRef} {s t u : State} (h1 : OnSched c s t) (h2 : OnSched c t u) : OnSched c s u where
  frame := h1.frame.trans h2.frame
  ctx k hk := by
    obtain ⟨k1, hk1, e1⟩ := h1.ctx k hk
    obtain ⟨k2, hk2, e2⟩ := h2.ctx k1 hk1
    exact ⟨k2, hk2, e1.trans e2⟩

theorem OnSched.postOnce (c : CoreRef) (s : State) (i : Instr) : OnSched c s (s.postOnce i) :=
  ⟨OnCore.postOnce c s i, fun k hk => ⟨k, by simpa using hk, Reordered.refl k⟩⟩

theorem OnSched.modCtx (c : CoreRef) (s : State) (f : Ctx → Ctx) (hf : ∀ k, Reordered k (f k)) : OnSched c s (s.modCtx c f) :=
  ⟨OnCore.modCtx c s f fun k => by unfold SchedOnly; rw [(hf k).rest], fun k hk => ⟨f k, by simp [hk], hf k⟩⟩

theorem reschedOne_onSched (s : State) (c : CoreRef) (sc : Nat) : OnSched c s (s.reschedOne c sc) := by
  unfold reschedOne
  cases hk : (s.core c).ctx with
  | none => exact OnSched.refl c s
  | some k =>
    dsimp only
    split_ifs
    · exact OnSched.refl c s
    · have h1 : OnSched c s (s.modCtx c fun k => (Ctx.promote sc 8 k).resume sc) :=
        OnSched.modCtx c s _ fun k => (Ctx.promote_reordered sc 8 k).trans (Ctx.resume_reordered _ sc)
      split
      · exact h1
      · split_ifs <;> first
          | exact h1
          | exact h1.trans (OnSched.postOnce c _ _)
          | exact (h1.trans (OnSched.postOnce c _ _)).trans (OnSched.postOnce c _ _)

/-- Rescheduling a core changes only its groups' places and posts steps. -/
theorem resched_onSched (s : State) (c : CoreRef) : OnSched c s (s.resched c) := by
  unfold resched
  generalize List.range 4 = l
  induction l generalizing s with
  | nil => exact OnSched.refl c s
  | cons a l ih => exact (reschedOne_onSched s c a).trans (ih _)

/-- Workgroups and threads after rescheduling. -/
theorem OnSched.wg_eq {c : CoreRef} {s t : State} (h : OnSched c s t) (w : Nat) (hs : (s.core c).ctx.isSome) : t.wg c w = s.wg c w := by
  obtain ⟨k, hk⟩ := Option.isSome_iff_exists.mp hs
  obtain ⟨k', hk', e⟩ := h.ctx k hk
  simp [State.wg, hk, hk', Ctx.wg]
  rw [e.rest]

/-! ### Threads changed one after the other -/

/-- Threads changed by a list of indices: what each becomes. -/
theorem thread_foldl_modThread (c : CoreRef) (w : Nat) (f : Thread → Thread) (hf : ∀ x, (f x).tid = x.tid) (hff : ∀ x, f (f x) = f x) (i : Nat) :
    ∀ (l : List Nat) (s : State),
      (l.foldl (fun s t => s.modThread c w t f) s).thread c w i = if i ∈ l then (s.thread c w i).map f else s.thread c w i
  | [], s => by simp
  | t :: l, s => by
    rw [List.foldl_cons, thread_foldl_modThread c w f hf hff i l, thread_modThread s c w t i f (fun x hx => by rw [hf, hx])]
    by_cases h1 : i = t <;> by_cases h2 : i ∈ l <;> simp [h1, h2, Function.comp_def, hff]

theorem wg_foldl_modThread (c : CoreRef) (w w' : Nat) (f : Thread → Thread) (hw : w' ≠ w) :
    ∀ (l : List Nat) (s : State), (l.foldl (fun s t => s.modThread c w t f) s).wg c w' = s.wg c w'
  | [], _ => rfl
  | t :: l, s => by rw [List.foldl_cons, wg_foldl_modThread c w w' f hw l, wg_modThread, if_neg hw]

theorem wg_foldl_modThread_self (c : CoreRef) (w : Nat) (f : Thread → Thread) :
    ∀ (l : List Nat) (s : State) (x : Workgroup), s.wg c w = some x →
      ∃ ths, (l.foldl (fun s t => s.modThread c w t f) s).wg c w = some { x with threads := ths }
  | [], _, x, h => ⟨x.threads, h⟩
  | t :: l, s, x, h => by
    rw [List.foldl_cons]
    obtain ⟨ths, e⟩ := wg_foldl_modThread_self c w f l (s.modThread c w t f) (x.modThread t f) (by rw [wg_modThread, if_pos rfl, h]; rfl)
    exact ⟨ths, e⟩

theorem group_foldl_modThread (c : CoreRef) (w : Nat) (f : Thread → Thread) (slot : Nat) :
    ∀ (l : List Nat) (s : State), (((l.foldl (fun s t => s.modThread c w t f) s).core c).ctx.bind fun k => k.group slot) = (s.core c).ctx.bind fun k => k.group slot
  | [], _ => rfl
  | t :: l, s => by
    rw [List.foldl_cons, group_foldl_modThread c w f slot l]
    unfold State.modThread State.modWg
    rw [core_modCtx_ctx]
    cases (s.core c).ctx <;> simp

theorem foldl_modThread_onCore (c : CoreRef) (w : Nat) (f : Thread → Thread) (l : List Nat) (s : State) :
    OnCore c s (l.foldl (fun s t => s.modThread c w t f) s) :=
  OnCore.foldl (fun s t => s.modThread c w t f) (fun s t => OnCore.modThread c s w t f) l s

/-! ### The end of a unit -/

theorem thread_bind (s : State) (c : CoreRef) (w i : Nat) : s.thread c w i = (s.wg c w).bind fun x => x.thread i := rfl

theorem advance_eq (s : State) (x : Iss) (trapped : List Nat) :
    s.advance x trapped = (x.g.members.filter fun t => !trapped.contains t).foldl
      (fun s t => s.modThread x.c x.g.wslot t fun th => { th with pc := x.next, rep := x.repAfter th.rep, pend := .none }) s := by
  unfold advance
  generalize x.g.members = l
  induction l generalizing s with
  | nil => rfl
  | cons a l ih =>
    rw [List.foldl_cons, List.filter_cons]
    by_cases h : trapped.contains a = true
    · simp only [h, if_true, Bool.not_true, Bool.false_eq_true, if_false]; exact ih s
    · simp only [h, Bool.false_eq_true, if_false, Bool.not_false, if_true, List.foldl_cons]; exact ih _

/-- The run of a group ends: its members' windows close, and its core's groups are put in order. -/
theorem endRun_spec (s : State) (c : CoreRef) (slot : Nat) {k : Ctx} {g : Group} (hk : (s.core c).ctx = some k) (hg : k.group slot = some g) :
    OnCore c s (s.endRun c slot) ∧
    (∀ w, w ≠ g.wslot → (s.endRun c slot).wg c w = s.wg c w) ∧
    (∀ w, s.wg c g.wslot = some w → ∃ ths, (s.endRun c slot).wg c g.wslot = some { w with threads := ths }) ∧
    (∀ i, (s.endRun c slot).thread c g.wslot i =
      if i ∈ g.members then (s.thread c g.wslot i).map fun th => { th with owed := th.owed.map Owed.closed } else s.thread c g.wslot i) ∧
    (∃ g' n, (((s.endRun c slot).core c).ctx.bind fun k => k.group slot) = some g' ∧
      SameGroup { g with st := .ready, run := 0, mid := false, ran := true, due := false, endAt := n, stall := .none } g') := by
  set F : Thread → Thread := fun th => { th with owed := th.owed.map Owed.closed } with hF
  set s1 := g.members.foldl (fun s t => s.modThread c g.wslot t F) s with hs1
  set M : Ctx → Ctx := fun k => { k.modGroup slot (fun x => { x with st := .ready, run := 0, mid := false, ran := true, due := false, endAt := s1.clk, stall := .none }) with
        rot := k.rot.set g.sched g.age } with hM
  have e : s.endRun c slot = (s1.modCtx c M).resched c := by
    unfold endRun; rw [hk]; simp only [Option.bind_some, hg]; rfl
  have g1 : OnCore c s s1 := foldl_modThread_onCore c _ F _ _
  have g2 : OnCore c s1 (s1.modCtx c M) := OnCore.modCtx c s1 M fun _ => rfl
  have g3 := resched_onSched (s1.modCtx c M) c
  obtain ⟨k1, hk1, -⟩ := g1.ctx k hk
  have hk2 : ((s1.modCtx c M).core c).ctx = some (M k1) := by simp [hk1]
  have w3 : ∀ w, (s.endRun c slot).wg c w = s1.wg c w := fun w => by
    rw [e, g3.wg_eq w (by simp [hk1])]
    simp [State.wg, hk1, hM, Ctx.wg, Ctx.modGroup]
  refine ⟨?_, ?_, ?_, ?_, ?_⟩
  · rw [e]; exact (g1.trans g2).trans g3.frame
  · intro w hne; rw [w3, hs1, wg_foldl_modThread c _ _ F hne]
  · intro w hw'; rw [w3]; exact wg_foldl_modThread_self c _ F _ s w hw'
  · intro i
    rw [thread_bind, w3, ← thread_bind, hs1,
      thread_foldl_modThread c _ F (fun _ => rfl) (fun th => by simp [hF, Owed.closed, Function.comp_def])]
  · have hg1 : k1.group slot = some g := by
      have := group_foldl_modThread c g.wslot F slot g.members s
      rw [← hs1, hk1, hk] at this
      simpa [hg] using this
    obtain ⟨k3, hk3, o3⟩ := g3.ctx _ hk2
    have hg2 : (M k1).group slot = some { g with st := .ready, run := 0, mid := false, ran := true, due := false, endAt := s1.clk, stall := .none } := by
      have := Ctx.group_modGroup k1 slot slot (fun x => { x with st := .ready, run := 0, mid := false, ran := true, due := false, endAt := s1.clk, stall := .none }) (fun _ => rfl)
      rw [if_pos rfl, hg1] at this
      exact this
    obtain ⟨g', hg', sg⟩ := o3.groups slot _ hg2
    exact ⟨g', s1.clk, by rw [e, hk3]; exact hg', sg⟩

/-- The members moved to the next word. -/
theorem advance_spec (u : State) (x : Iss) :
    OnCore x.c u (u.advance x []) ∧
    (∀ w, w ≠ x.g.wslot → (u.advance x []).wg x.c w = u.wg x.c w) ∧
    (∀ w, u.wg x.c x.g.wslot = some w → ∃ ths, (u.advance x []).wg x.c x.g.wslot = some { w with threads := ths }) ∧
    (∀ i, (u.advance x []).thread x.c x.g.wslot i =
      if i ∈ x.g.members then (u.thread x.c x.g.wslot i).map fun th => { th with pc := x.next, rep := x.repAfter th.rep, pend := .none }
      else u.thread x.c x.g.wslot i) ∧
    (((u.advance x []).core x.c).ctx.bind fun k => k.group x.g.slot) = (u.core x.c).ctx.bind fun k => k.group x.g.slot := by
  have e : x.g.members.filter (fun t => !([] : List Nat).contains t) = x.g.members := by simp
  rw [advance_eq, e]
  exact ⟨foldl_modThread_onCore _ _ _ _ _, fun w hw => wg_foldl_modThread _ _ _ _ hw _ _, fun w hw => wg_foldl_modThread_self _ _ _ _ _ w hw,
    fun i => thread_foldl_modThread _ _ (fun th => { th with pc := x.next, rep := x.repAfter th.rep, pend := .none }) (fun _ => rfl) (fun _ => by unfold Iss.repAfter; split <;> rfl) i _ _,
    group_foldl_modThread _ _ _ _ _ _⟩

/-- A unit that completes for all its members: the effect stands, every member is at the next word, and nothing else has changed but the
schedulers of the core. -/
theorem unitDone_endUnit {x : Iss} {u : State} (e stop : Bool) (h : Stands x u) : UnitDone x u ((u.advance x []).endUnit x e stop .none) := by
  obtain ⟨k, g, hk, hg, hm, hw, ha, -⟩ := h.group
  obtain ⟨w, hwg⟩ := Option.isSome_iff_exists.mp h.wg
  obtain ⟨f1, w1, s1, t1, p1⟩ := advance_spec u x
  set a := u.advance x [] with hadv
  obtain ⟨k1, hk1, -⟩ := f1.ctx k hk
  have hg1 : k1.group x.g.slot = some g := by simpa [hk1, hk, hg] using p1
  obtain ⟨ths, hw1⟩ := s1 w hwg
  have hkw : k1.wg g.wslot = some { w with threads := ths } := by rw [hw]; simpa [State.wg, hk1] using hw1
  set run := x.g.run + x.g.hint.words + 1 with hrun
  set H : Group → Group := fun g => { g with hint := {}, fillOk := false, granted := 0, run := run, mid := true, turn := a.free } with hH
  set b := a.modGroup x.c x.g.slot H with hb
  have f2 : OnCore x.c a b := OnCore.modCtx x.c a (fun k => k.modGroup x.g.slot H) fun _ => rfl
  have hk2 : (b.core x.c).ctx = some (k1.modGroup x.g.slot H) := by simp [hb, State.modGroup, hk1]
  have hg2 : (k1.modGroup x.g.slot H).group x.g.slot = some (H g) := by
    rw [Ctx.group_modGroup k1 _ _ H (fun _ => rfl), if_pos rfl, hg1]; rfl
  have w2 : ∀ w, b.wg x.c w = a.wg x.c w := fun w => by simp [State.wg, hk2, hk1]
  have tb : ∀ i, b.thread x.c x.g.wslot i = a.thread x.c x.g.wslot i := fun i => by rw [thread_bind, w2, ← thread_bind]
  set stopNow := (e || stop || decide (24 ≤ run) ||
    (((g.members.head?).bind fun t => ({ w with threads := ths } : Workgroup).thread t).map fun (t : Thread) => t.pc) != some x.next) with hstop
  have eq : a.endUnit x e stop .none = if stopNow then b.endRun x.c x.g.slot else b := by
    unfold endUnit
    simp only [hk1, Option.bind_some, hg1, hkw, Option.map_some, ha, bne_self_eq_false, Bool.false_eq_true, if_false]
    rfl
  rw [eq]
  by_cases hs : stopNow = true
  · rw [if_pos hs]
    have hwH : (H g).wslot = x.g.wslot := hw
    obtain ⟨f3, w3, s3, t3, g3⟩ := endRun_spec b x.c x.g.slot hk2 hg2
    rw [hwH] at w3 s3 t3 g3
    refine ⟨(f1.trans f2).trans f3, fun w hne => by rw [w3 w hne, w2, w1 w hne], ?_, ?_, ?_, ?_⟩
    · intro w' hw'
      obtain ⟨ths1, e1⟩ := s1 w' hw'
      obtain ⟨ths2, e2⟩ := s3 _ (by rw [w2]; exact e1)
      exact ⟨ths2, e2⟩
    · intro i hi
      rw [t3 i, if_neg (by simpa [hH, hm] using hi), tb, t1 i, if_neg hi]
    · intro i hi th hth
      rw [t3 i, if_pos (by simpa [hH, hm] using hi), tb, t1 i, if_pos hi, hth]
      refine ⟨_, rfl, th.owed.map Owed.closed, rfl, ?_⟩
      simp [Owed.closed, Function.comp_def]
    · obtain ⟨g', n, hg', sg⟩ := g3
      exact ⟨g', hg', by rw [sg.1]; exact hm, by rw [sg.1], by rw [sg.1]⟩
  · rw [if_neg hs]
    refine ⟨f1.trans f2, fun w hne => by rw [w2, w1 w hne], ?_, ?_, ?_, ?_⟩
    · intro w' hw'
      obtain ⟨ths1, e1⟩ := s1 w' hw'
      exact ⟨ths1, by rw [w2]; exact e1⟩
    · intro i hi; rw [tb, t1 i, if_neg hi]
    · intro i hi th hth
      rw [tb, t1 i, if_pos hi, hth]
      exact ⟨_, rfl, th.owed, rfl, rfl⟩
    · exact ⟨H g, by rw [hk2]; exact hg2, hm, hw, rfl⟩

/-! ### The issuing group of a state -/

/-- What the issuing group of a state is. -/
theorem issuing_spec {s : State} {x : Iss} (h : s.issuing = some x) :
    s.cur = some (x.c, x.g.slot) ∧ (s.core x.c).ctx = some x.k ∧ x.k.group x.g.slot = some x.g ∧ x.k.wg x.g.wslot = some x.w ∧
      s.grid x.w.grid = some x.grid := by
  unfold issuing at h
  simp only [Option.bind_eq_bind, Option.bind_eq_some_iff, Option.pure_def, Option.some.injEq] at h
  obtain ⟨⟨c, slot⟩, h1, k, h2, g, h3, w, h4, grid, h5, rfl⟩ := h
  have hs : g.slot = slot := by simpa using List.find?_some h3
  exact ⟨by rw [h1, hs], h2, by rw [hs]; exact h3, h4, h5⟩

theorem Issues.stands {s : State} {x : Iss} (h : Issues s x) : Stands x s := by
  obtain ⟨-, h2, h3, h4, -⟩ := issuing_spec h.1
  exact ⟨⟨x.k, x.g, h2, h3, rfl, rfl, rfl, rfl⟩, by simp [State.wg, h2, h4]⟩

/-- A meaning carried out for the issuing group. -/
theorem onIssue_eq {s : State} {x : Iss} (h : Issues s x) (f : Iss → State) : s.onIssue f = .next (f x) := by
  unfold onIssue; simp [h.1, h.2]

/-- The workgroup of a member before the unit. -/
theorem Issues.wg {s : State} {x : Iss} (h : Issues s x) : s.wg x.c x.g.wslot = some x.w := by
  obtain ⟨-, h2, -, h4, -⟩ := issuing_spec h.1
  simp [State.wg, h2, h4]

/-- A member's thread before the unit. -/
theorem Issues.thread {s : State} {x : Iss} (h : Issues s x) (i : Nat) : s.thread x.c x.g.wslot i = x.w.thread i := by
  rw [thread_bind, h.wg]; rfl

end Sys2Proof.Machine
end

