-- ==== Sys2Proof/Laws/Lanes.lean ====
section
/-! SUPPORT. What an instruction that acts lane by lane does: one lemma for all of them. -/

namespace Sys2Proof.Machine

open State

/-- A lane function that never stops, and neither reads another thread of its workgroup nor renames its own nor counts its iterations. -/
structure LanePure (f : LaneIn → Thread) : Prop where
  threads : ∀ i ths, f { i with ln := { i.ln with w := { i.ln.w with threads := ths } } } = f i
  keeps : ∀ i, (f i).tid = i.ln.t.tid ∧ (f i).rep = i.ln.t.rep

/-- The active members are members. -/
theorem Iss.active_subset (x : Iss) : ∀ i ∈ x.active, i ∈ x.g.members := by
  intro i hi
  unfold Iss.active at hi
  split at hi
  · exact List.mem_of_mem_filter hi
  · exact List.mem_of_mem_filter hi

theorem Iss.active_nodup {x : Iss} (h : x.g.members.Nodup) : x.active.Nodup := by
  unfold Iss.active
  split
  · exact h.filter _
  · exact h.filter _

/-- What the lanes done so far leave: each one's result with its part over, nothing else changed. -/
structure SoFar (x : Iss) (res : Nat → Thread → Thread) (done : List Nat) (s u : State) : Prop where
  frame : OnCore x.c s u
  wgs : ∀ w, w ≠ x.g.wslot → u.wg x.c w = s.wg x.c w
  wg : ∃ ths, u.wg x.c x.g.wslot = some { x.w with threads := ths }
  group : ((u.core x.c).ctx.bind fun k => k.group x.g.slot) = (s.core x.c).ctx.bind fun k => k.group x.g.slot
  thread : ∀ i, u.thread x.c x.g.wslot i = if i ∈ done then (x.w.thread i).map fun th => { res i th with pend := .done } else x.w.thread i

theorem SoFar.start {s : State} {x : Iss} (h : Issues s x) (res : Nat → Thread → Thread) : SoFar x res [] s s :=
  ⟨OnCore.refl _ _, fun _ _ => rfl, ⟨x.w.threads, h.wg⟩, rfl, fun i => by simpa using h.thread i⟩

theorem OnCore.time {c : CoreRef} {s t : State} (h : OnCore c s t) (p : Nat) : t.time p = s.time p := by
  rw [h.rest]; rfl

theorem OnCore.grid {c : CoreRef} {s t : State} (h : OnCore c s t) (g : Nat) : t.grid g = s.grid g := by
  rw [h.rest]; rfl

/-- A lane with the threads of its workgroup as they stand after the lanes before it. -/
def LaneIn.after (i : LaneIn) (ths : List Thread) : LaneIn := { i with ln := { i.ln with w := { i.ln.w with threads := ths } } }

/-- A unit whose active lanes stand ready, each seeing `L`. -/
structure LaneReady (s : State) (x : Iss) (fs : Fields) (L : Nat → Thread → LaneIn) : Prop where
  issues : Issues s x
  members : x.g.members.Nodup
  ready : ∀ i ∈ x.active, ∃ th, x.w.thread i = some th ∧ th.pend = .none ∧ fs.within th.c x.g.hint.hrep = true ∧
    ∀ (u : State) (ths : List Thread), u.grid x.w.grid = some x.grid → u.thread x.c x.g.wslot i = some th → u.wg x.c x.g.wslot = some { x.w with threads := ths } →
      u.laneIn x fs i = some ((L i th).after ths)

theorem LaneUnit.laneReady {s : State} {x : Iss} {fs : Fields} (h : LaneUnit s x fs) : LaneReady s x fs (laneFirst x fs) where
  issues := h.issues
  members := h.members
  ready i hi := by
    obtain ⟨th, ht, hp⟩ := h.fresh i (x.active_subset i hi)
    exact ⟨th, ht, hp, by rw [h.single]; exact h.regs i hi th ht, fun u ths hg htu hw => by
      simp [laneIn, htu, hw, hg, h.single, laneFirst, LaneIn.after]⟩

theorem IterUnit.laneReady {s : State} {x : Iss} {fs : Fields} {n r : Nat} (h : IterUnit s x fs n r) : LaneReady s x fs (laneAt x fs r) where
  issues := h.issues
  members := h.members
  ready i hi := by
    obtain ⟨th, ht, hp, hr, hw⟩ := h.ready i hi
    obtain ⟨sd, sa, sb, e⟩ := h.repeats
    exact ⟨th, ht, hp, hw, fun u ths hg htu hw => by
      simp [laneIn, htu, hw, hg, e, hr, laneAt, Iss.strides, LaneIn.after]⟩

/-- A lane function that gives each active lane of a unit its result `res` and changes nothing else, whatever the lanes before it did. -/
structure LaneGives (x : Iss) (L : Nat → Thread → LaneIn) (s : State) (f : LaneFn) (res : Nat → Thread → Thread) : Prop where
  gives : ∀ u ths i th, OnCore x.c s u → i ∈ x.active → x.w.thread i = some th → f u ((L i th).after ths) = (u, .ok (res i th))
  keeps : ∀ i th, x.w.thread i = some th → (res i th).tid = i ∧ (res i th).rep = th.rep

theorem LanePure.laneGives {f : LaneIn → Thread} (hf : LanePure f) (s : State) (x : Iss) {L : Nat → Thread → LaneIn}
    (hL : ∀ i th, (L i th).ln.t = th) : LaneGives x L s (laneOk f) (fun i th => f (L i th)) :=
  ⟨fun u ths i th _ _ _ => by simp only [laneOk]; rw [← hf.threads (L i th) ths]; rfl,
   fun i th h => by rw [(hf.keeps _).1, (hf.keeps _).2, hL]; exact ⟨Workgroup.thread_tid h, rfl⟩⟩

/-- One more lane done. -/
theorem SoFar.step {s u : State} {x : Iss} {fs : Fields} {L : Nat → Thread → LaneIn} {f : LaneFn} {res : Nat → Thread → Thread} {done : List Nat}
    {i : Nat} (hL : ∀ i th ths, ((L i th).after ths).ln.t = th) (h : LaneReady s x fs L) (hf : LaneGives x L s f res)
    (hs : SoFar x res done s u) (hi : i ∈ x.active) (hd : i ∉ done) :
    ∃ u', laneStep x fs f { s := u } i = { s := u' } ∧ SoFar x res (i :: done) s u' := by
  obtain ⟨th, hth, hp, hreg, hlane⟩ := h.ready i hi
  obtain ⟨ths, hw⟩ := hs.wg
  have hg : u.grid x.w.grid = some x.grid := by rw [hs.frame.grid]; exact (issuing_spec h.issues.1).2.2.2.2
  have ht : u.thread x.c x.g.wslot i = some th := by rw [hs.thread, if_neg hd, hth]
  have hin := hlane u ths hg ht hw
  have hgive := hf.gives u ths i th hs.frame hi hth
  have hvt : (res i th).tid = i := (hf.keeps i th hth).1
  set v := res i th with hv
  refine ⟨u.modThread x.c x.g.wslot i fun _ => { v with pend := .done }, ?_, ?_⟩
  · unfold laneStep
    rw [hin]
    simp only [hL, hp, hreg, hgive]
    simp
  · refine ⟨hs.frame.trans (OnCore.modThread _ _ _ _ _), fun w hne => by rw [wg_modThread, if_neg hne, hs.wgs w hne], ?_, ?_, ?_⟩
    · exact ⟨_, by rw [wg_modThread, if_pos rfl, hw]; rfl⟩
    · rw [← hs.group]; exact group_foldl_modThread x.c x.g.wslot (fun _ => { v with pend := .done }) x.g.slot [i] u
    · intro j
      rw [thread_modThread u x.c x.g.wslot i j (fun _ => { v with pend := .done }) (fun _ _ => hvt)]
      by_cases hj : j = i
      · subst hj; rw [if_pos rfl, ht, hth]; simp [hv]
      · rw [if_neg hj, hs.thread]; simp [hj]

/-- The lanes done one after the other. -/
theorem SoFar.all {s : State} {x : Iss} {fs : Fields} {L : Nat → Thread → LaneIn} {f : LaneFn} {res : Nat → Thread → Thread}
    (hL : ∀ i th ths, ((L i th).after ths).ln.t = th) (h : LaneReady s x fs L) (hf : LaneGives x L s f res) :
    ∀ (l done : List Nat) (u : State), l.Nodup → (∀ i ∈ l, i ∈ x.active ∧ i ∉ done) → SoFar x res done s u →
      ∃ u', l.foldl (laneStep x fs f) { s := u } = { s := u' } ∧ SoFar x res (l.reverse ++ done) s u'
  | [], done, u, _, _, hs => ⟨u, rfl, hs⟩
  | i :: l, done, u, hn, hl, hs => by
    obtain ⟨hil, hn⟩ := List.nodup_cons.mp hn
    obtain ⟨u1, e1, h1⟩ := hs.step hL h hf (hl i (by simp)).1 (hl i (by simp)).2
    obtain ⟨u2, e2, h2⟩ := SoFar.all hL h hf l (i :: done) u1 hn
      (fun j hj => ⟨(hl j (by simp [hj])).1, by simp only [List.mem_cons, not_or]; exact ⟨fun e => hil (e ▸ hj), (hl j (by simp [hj])).2⟩⟩) h1
    refine ⟨u2, by rw [List.foldl_cons, e1, e2], ?_⟩
    simpa using h2

/-- Every active lane done, from the state in which the unit issues. -/
theorem lanes_all {s : State} {x : Iss} {fs : Fields} {L : Nat → Thread → LaneIn} {f : LaneFn} {res : Nat → Thread → Thread}
    (hL : ∀ i th ths, ((L i th).after ths).ln.t = th) (h : LaneReady s x fs L) (hf : LaneGives x L s f res) :
    ∃ u, x.active.foldl (laneStep x fs f) { s := s } = { s := u } ∧ SoFar x res x.active.reverse s u := by
  obtain ⟨u, eu, hu⟩ := SoFar.all hL h hf x.active [] s (Iss.active_nodup h.members) (fun i hi => ⟨hi, by simp⟩) (SoFar.start h.issues _)
  exact ⟨u, eu, by simpa using hu⟩

/-- The group of the unit stands after its lanes. -/
theorem SoFar.stands {s u : State} {x : Iss} {res : Nat → Thread → Thread} {done : List Nat} (hs : SoFar x res done s u) (h : Issues s x) :
    Stands x u ∧ ((u.core x.c).ctx.bind fun k => k.group x.g.slot) = some x.g := by
  obtain ⟨-, hk, hg, -, -⟩ := issuing_spec h.1
  obtain ⟨ths, hwu⟩ := hs.wg
  have hgu : ((u.core x.c).ctx.bind fun k => k.group x.g.slot) = some x.g := by rw [hs.group, hk]; exact hg
  obtain ⟨k', hk', hg'⟩ := Option.bind_eq_some_iff.mp hgu
  exact ⟨⟨⟨k', x.g, hk', hg', rfl, rfl, rfl, rfl⟩, by simp [hwu]⟩, hgu⟩

/-- With no traps, what follows is what follows. -/
theorem trapsOr_nil (s0 s : State) (x : Iss) (after : State → State) : s0.trapsOr s x [] after = after s := by
  have h : s.takeTraps x [] = s := by
    simp only [takeTraps, splitTaken, List.foldl_nil, List.any_nil, Bool.false_and]
    cases (s.core x.c).ctx.bind fun k => k.group x.g.slot <;> simp
  simp only [trapsOr, List.findSome?_nil, h]

theorem withTraps_nil (s : State) (x : Iss) (after : State → State) : s.withTraps x [] after = after s := trapsOr_nil s s x after

/-- The unit over after its lanes: each active lane has its result, every member goes on, and nothing else changes. -/
theorem lanesDone_endUnit {s v : State} {x : Iss} {res : Nat → Thread → Thread} (e : Bool) (hv : Stands x v) (hf : OnCore x.c s v)
    (hw : ∀ w, w ≠ x.g.wslot → v.wg x.c w = s.wg x.c w) (hg : ∃ ths, v.wg x.c x.g.wslot = some { x.w with threads := ths })
    (hi : ∀ i, i ∉ x.active → v.thread x.c x.g.wslot i = x.w.thread i)
    (ha : ∀ i ∈ x.active, ∀ th, x.w.thread i = some th → ∃ p r, v.thread x.c x.g.wslot i = some { res i th with pend := p, rep := r } ∧
      (x.g.hint.hrep = none → r = (res i th).rep)) :
    LanesDone x res s ((v.advance x []).endUnit x e false .none) := by
  obtain ⟨ths, hwu⟩ := hg
  have d := unitDone_endUnit e false hv
  refine ⟨hf.trans d.frame, fun w hne => by rw [d.wgs w hne, hw w hne], ?_, ?_, ?_, d.group⟩
  · obtain ⟨ths', e'⟩ := d.wg _ hwu; exact ⟨ths', e'⟩
  · intro i h
    rw [d.threads i h, hi i fun h' => h (x.active_subset i h')]
  · intro i h th hth
    by_cases hx : i ∈ x.active
    · obtain ⟨p, r, e1, er⟩ := ha i hx th hth
      obtain ⟨th', e', o, e2, e3⟩ := d.members i h _ e1
      have : x.repAfter r = x.repAfter (res i th).rep := by
        unfold Iss.repAfter
        cases hh : x.g.hint.hrep with
        | none => rw [er hh]
        | some _ => rfl
      exact ⟨th', e', o, by rw [e2, if_pos hx]; simp only [this], by rw [e3, if_pos hx]⟩
    · obtain ⟨th', e', a'⟩ := d.members i h th (by rw [hi i hx, hth])
      exact ⟨th', e', by rw [if_neg hx]; exact a'⟩

/-- An instruction that acts lane by lane and stops in no lane completes: each active lane has its result, every member goes on, and nothing
else changes. -/
theorem lanes_done_of {s : State} {x : Iss} {fs : Fields} {f : LaneFn} {res : Nat → Thread → Thread} (e : Bool) (h : LaneUnit s x fs)
    (hf : LaneGives x (laneFirst x fs) s f res) : ∃ t, execLanes e fs f s = .next t ∧ LanesDone x res s t := by
  obtain ⟨u, eu, hu⟩ := lanes_all (fun _ _ _ => rfl) h.laneReady hf
  refine ⟨(u.advance x []).endUnit x e false .none, ?_, lanesDone_endUnit e (hu.stands h.issues).1 hu.frame hu.wgs hu.wg
    (fun i hi => by rw [hu.thread, if_neg (by simpa using hi)])
    fun i hi th ht => ⟨_, (res i th).rep, by rw [hu.thread, if_pos (by simpa using hi), ht]; rfl, fun _ => rfl⟩⟩
  unfold execLanes
  rw [onIssue_eq h.issues]
  congr 1
  unfold perLane
  rw [h.single]
  simp only [eu, Bool.false_eq_true, if_false]
  rw [trapsOr_nil]
  rfl

/-! ### Iterations of an `hrep` -/

/-- A change made once to each thread of a list. -/
theorem thread_foldl_once (c : CoreRef) (w : Nat) (f : Thread → Thread) (hf : ∀ t, (f t).tid = t.tid) (i : Nat) :
    ∀ (l : List Nat) (s : State), l.Nodup →
      (l.foldl (fun s t => s.modThread c w t f) s).thread c w i = if i ∈ l then (s.thread c w i).map f else s.thread c w i
  | [], s, _ => by simp
  | j :: l, s, hn => by
    obtain ⟨hj, hn⟩ := List.nodup_cons.mp hn
    rw [List.foldl_cons, thread_foldl_once c w f hf i l _ hn, thread_modThread s c w j i f (fun x hx => by rw [hf, hx])]
    by_cases hi : i = j
    · subst hi; simp [hj]
    · simp [hi]

/-- The active lanes' repeat counters at the next iteration. -/
def nextIter (s : State) (x : Iss) : State :=
  x.active.foldl (fun s t => s.modThread x.c x.g.wslot t fun th => { th with pend := .none, rep := th.rep + 1 }) s

/-- The active lanes that have an iteration of `n` before them. -/
def iterLeft (s : State) (x : Iss) (n : Nat) : List Nat :=
  x.active.filter fun t => match s.thread x.c x.g.wslot t with
    | some th => decide (th.rep < n)
    | none => false

/-- The group of a unit that goes on with its next iteration, at a state, with the time at which the unit issued. -/
def iterGroup (x : Iss) (s : State) (t : Nat) (left : List Nat) (g : Group) : Group :=
  { g with fillOk := false, turn := s.free,
           hint := { g.hint with act := some left, traps := x.g.hint.traps, issued := some (x.g.hint.issued.getD t) } }

/-- What follows an iteration's lanes where none of them stops. -/
def afterIter (x : Iss) (e : Bool) (n t : Nat) (s0 s : State) : State :=
  if (iterLeft s x n).isEmpty then
    s0.trapsOr s x (sortBy (fun a b => x.laneNo a.tid ≤ x.laneNo b.tid) x.g.hint.traps) fun s =>
      (s.advance x ((sortBy (fun a b => x.laneNo a.tid ≤ x.laneNo b.tid) x.g.hint.traps).map fun q => q.tid)).endUnit x e false .none
  else s.modGroup x.c x.g.slot (iterGroup x s t (iterLeft s x n))

theorem execLanes_iter {s u : State} {x : Iss} {fs : Fields} {f : LaneFn} {m sd sa sb : Nat} (e : Bool) (h : Issues s x)
    (hh : x.g.hint.hrep = some (m + 1, sd, sa, sb)) (eu : x.active.foldl (laneStep x fs f) { s := s } = { s := u }) :
    execLanes e fs f s = .next (afterIter x e (m + 1) ((nextIter u x).time x.c.pkg) s (nextIter u x)) := by
  unfold execLanes
  rw [onIssue_eq h]
  congr 1
  unfold perLane
  rw [hh]
  simp only [eu, Bool.false_eq_true, if_false]
  unfold endIteration afterIter iterLeft nextIter iterGroup
  simp only [List.map_nil, List.contains_nil, Bool.false_eq_true, if_false, Bool.not_false, Bool.true_and, List.append_nil]
  all_goals rfl

/-- The lanes of an iteration done, and the counters gone on. -/
theorem SoFar.next {s u : State} {x : Iss} {res : Nat → Thread → Thread} {r : Nat} (hs : SoFar x res x.active.reverse s u)
    (hn : x.g.members.Nodup) (hr : ∀ i ∈ x.active, ∃ th, x.w.thread i = some th ∧ (res i th).rep = r) :
    OnCore x.c s (nextIter u x) ∧ (∀ w, w ≠ x.g.wslot → (nextIter u x).wg x.c w = s.wg x.c w) ∧
      (∃ ths, (nextIter u x).wg x.c x.g.wslot = some { x.w with threads := ths }) ∧
      (((nextIter u x).core x.c).ctx.bind fun k => k.group x.g.slot) = (u.core x.c).ctx.bind (fun k => k.group x.g.slot) ∧
      (∀ i, i ∉ x.active → (nextIter u x).thread x.c x.g.wslot i = x.w.thread i) ∧
      (∀ i ∈ x.active, (nextIter u x).thread x.c x.g.wslot i = (x.w.thread i).map fun th => { res i th with pend := .none, rep := r + 1 }) := by
  have ht := fun i => thread_foldl_once x.c x.g.wslot (fun th => { th with pend := .none, rep := th.rep + 1 }) (fun _ => rfl) i
    x.active u (Iss.active_nodup hn)
  obtain ⟨ths, hw⟩ := hs.wg
  refine ⟨hs.frame.trans (foldl_modThread_onCore _ _ _ _ _), fun w hne => ?_, ?_, ?_, fun i hi => ?_, fun i hi => ?_⟩
  · rw [nextIter, wg_foldl_modThread _ _ _ _ hne, hs.wgs w hne]
  · obtain ⟨ths', e⟩ := wg_foldl_modThread_self x.c x.g.wslot (fun th => { th with pend := .none, rep := th.rep + 1 }) x.active u _ hw
    exact ⟨ths', e⟩
  · exact group_foldl_modThread _ _ _ _ _ _
  · rw [nextIter, ht, if_neg hi, hs.thread, if_neg (by simpa using hi)]
  · obtain ⟨th, e, e2⟩ := hr i hi
    rw [nextIter, ht, if_pos hi, hs.thread, if_pos (by simpa using hi), e]
    simp [e2]

theorem State.wg_modGroup (s : State) (c : CoreRef) (slot w : Nat) (f : Group → Group) : (s.modGroup c slot f).wg c w = s.wg c w := by
  unfold State.modGroup State.wg
  rw [core_modCtx_ctx]
  cases (s.core c).ctx <;> rfl

/-- An iteration of an instruction that acts lane by lane and stops in no lane: it goes on to the next one, or it was the last and the unit is
over. -/
theorem lanes_iter_of {s : State} {x : Iss} {fs : Fields} {f : LaneFn} {res : Nat → Thread → Thread} {n r : Nat} (e : Bool)
    (h : IterUnit s x fs n r) (hf : LaneGives x (laneAt x fs r) s f res) (ha : x.active ≠ []) :
    ∃ t, execLanes e fs f s = .next t ∧ (r + 1 < n → IterDone x r res s t) ∧ (r + 1 = n → x.g.hint.traps = [] → LanesDone x res s t) := by
  obtain ⟨u, eu, hu⟩ := lanes_all (fun _ _ _ => rfl) h.laneReady hf
  have hg := (hu.stands h.issues).2
  have hr : ∀ i ∈ x.active, ∃ th, x.w.thread i = some th ∧ (res i th).rep = r := fun i hi => by
    obtain ⟨th, e1, -, e2, -⟩ := h.ready i hi
    exact ⟨th, e1, by rw [(hf.keeps i th e1).2, e2]⟩
  obtain ⟨n1, n2, n3, n4, n5, n6⟩ := hu.next h.members hr
  obtain ⟨sd, sa, sb, hh⟩ := h.repeats
  obtain ⟨m, rfl⟩ : ∃ m, n = m + 1 := ⟨n - 1, by have := h.more; omega⟩
  have hmore := h.more
  have hl : ∀ i ∈ x.active, (match (nextIter u x).thread x.c x.g.wslot i with
      | some th => decide (th.rep < m + 1)
      | none => false) = decide (r + 1 < m + 1) := fun i hi => by
    obtain ⟨th, e1, -⟩ := hr i hi
    rw [n6 i hi, e1]; rfl
  have hgn := n4.trans hg
  rw [execLanes_iter e h.issues hh eu]
  have htime : (nextIter u x).time x.c.pkg = s.time x.c.pkg := n1.time x.c.pkg
  refine ⟨_, rfl, fun hlt => ?_, fun heq ht => ?_⟩
  · have e1 : iterLeft (nextIter u x) x (m + 1) = x.active :=
      List.filter_eq_self.mpr fun i hi => by rw [hl i hi]; simpa using hlt
    unfold afterIter
    rw [e1, if_neg (by simpa using ha), htime]
    have hm := fun w => State.wg_modGroup (nextIter u x) x.c x.g.slot w (iterGroup x (nextIter u x) (s.time x.c.pkg) x.active)
    have ht := fun i => by have := hm x.g.wslot; exact congrArg (fun o : Option Workgroup => o.bind fun w => w.thread i) this
    obtain ⟨k', hk', hg'⟩ := Option.bind_eq_some_iff.mp hgn
    refine ⟨n1.trans (OnCore.modCtx _ _ _ fun _ => rfl), fun w hne => by rw [hm, n2 w hne], by rw [hm]; exact n3,
      fun i hi => (ht i).trans (n5 i hi), fun i hi => (ht i).trans (n6 i hi), iterGroup x (nextIter u x) (s.time x.c.pkg) x.active x.g, ?_, rfl, rfl, rfl, rfl⟩
    unfold State.modGroup
    rw [core_modCtx_ctx, hk']
    simp only [Option.map_some, Option.bind_some]
    have e4 := Ctx.group_modGroup k' x.g.slot x.g.slot (iterGroup x (nextIter u x) (s.time x.c.pkg) x.active) fun _ => rfl
    rw [e4, if_pos rfl, hg']
    rfl
  · have e1 : iterLeft (nextIter u x) x (m + 1) = [] :=
      List.filter_eq_nil_iff.mpr fun i hi => by rw [hl i hi]; simp; omega
    unfold afterIter
    rw [e1, ht]
    obtain ⟨k', hk', hg'⟩ := Option.bind_eq_some_iff.mp hgn
    simp only [List.isEmpty_nil, if_true, sortBy, List.foldl_nil, trapsOr_nil, List.map_nil]
    refine lanesDone_endUnit e ⟨⟨k', x.g, hk', hg', rfl, rfl, rfl, rfl⟩, ?_⟩ n1 n2 n3 n5 fun i hi th ht => ⟨_, r + 1, by rw [n6 i hi, ht]; rfl, by simp [hh]⟩
    obtain ⟨ths, hwu⟩ := n3
    simp [hwu]

/-- The same for an instruction whose lanes cannot stop. -/
theorem lanes_done {s : State} {x : Iss} {fs : Fields} {f : LaneIn → Thread} (e : Bool) (h : LaneUnit s x fs) (hf : LanePure f) :
    ∃ t, execLanes e fs (laneOk f) s = .next t ∧ LanesDone x (fun i th => f (laneFirst x fs i th)) s t :=
  lanes_done_of e h (hf.laneGives s x fun _ _ => rfl)

theorem lanes_iter {s : State} {x : Iss} {fs : Fields} {f : LaneIn → Thread} {n r : Nat} (e : Bool) (h : IterUnit s x fs n r) (hf : LanePure f)
    (ha : x.active ≠ []) :
    ∃ t, execLanes e fs (laneOk f) s = .next t ∧ (r + 1 < n → IterDone x r (fun i th => f (laneAt x fs r i th)) s t) ∧
      (r + 1 = n → x.g.hint.traps = [] → LanesDone x (fun i th => f (laneAt x fs r i th)) s t) :=
  lanes_iter_of e h (hf.laneGives s x fun _ _ => rfl) ha

/-- An `hrep` of 0 skips its target (R141). -/
theorem lanes_skip {s : State} {x : Iss} {fs : Fields} {f : LaneFn} {sd sa sb : Nat} (e : Bool) (h : Issues s x)
    (hr : x.g.hint.hrep = some (0, sd, sa, sb)) : ∃ t, execLanes e fs f s = .next t ∧ UnitDone x s t := by
  refine ⟨(s.advance x []).endUnit x e false .none, ?_, unitDone_endUnit e false h.stands⟩
  unfold execLanes
  rw [onIssue_eq h]
  unfold perLane
  rw [hr]
  rfl

end Sys2Proof.Machine
end

