-- ==== Sys2Proof/Laws/Arith.lean ====
section
/-! SUPPORT. The operand forms and the integer arithmetic of the lane instructions, as operations on words. -/

namespace Sys2Proof.Machine

open State

/-! ### Registers as words -/

theorem reg_lt (t : Thread) (i : Nat) : t.reg i < 2 ^ 32 := (sget (0 : Word) t.v i).isLt

theorem toNat_reg (t : Thread) (i : Nat) : (BitVec.ofNat 32 (t.reg i)).toNat = t.reg i := by
  rw [BitVec.toNat_ofNat, Nat.mod_eq_of_lt (reg_lt t i)]

theorem toNat_pair (t : Thread) (i : Nat) : (BitVec.ofNat 64 (t.pair i)).toNat = t.pair i := by
  have h1 := reg_lt t i
  have h2 := reg_lt t (i + 1)
  unfold Thread.reg at h1 h2
  unfold Thread.pair
  simp only [BitVec.toNat_ofNat]
  omega

/-- Only the low 32 bits of a value written to a register count. -/
theorem setReg_ofNat (t : Thread) (i v : Nat) (w : Word) (h : BitVec.ofNat 32 v = w) : t.setReg i v = t.setReg i w.toNat := by
  subst h; simp only [Thread.setReg, wset, BitVec.ofNat_toNat, BitVec.setWidth_eq]

theorem setSpan2_ofNat (t : Thread) (i v : Nat) (w : DWord) (h : BitVec.ofNat 64 v = w) : t.setSpan i 2 v = t.setSpan i 2 w.toNat := by
  subst h
  have e : ∀ m n : Nat, m % 2 ^ 32 = n % 2 ^ 32 → ∀ (t : Thread) (i : Nat), t.setReg i m = t.setReg i n := fun m n h t i => by
    simp only [Thread.setReg, wset]
    rw [show BitVec.ofNat 32 m = BitVec.ofNat 32 n from BitVec.eq_of_toNat_eq (by simpa using h)]
  have h1 : (v % 2 ^ 64) % 2 ^ 32 = v % 2 ^ 32 := by omega
  have h2 : (v % 2 ^ 64 / 2 ^ 32) % 2 ^ 32 = (v / 2 ^ 32) % 2 ^ 32 := by omega
  simp only [Thread.setSpan, BitVec.toNat_ofNat]
  rw [e _ _ h1, e _ _ h2]

theorem setP_tid (t : Thread) (i : Nat) (b : Bool) : (t.setP i b).tid = t.tid := by
  unfold Thread.setP; split <;> rfl

/-! ### One lemma per operand form -/

theorem setP_rep (t : Thread) (i : Nat) (b : Bool) : (t.setP i b).rep = t.rep := by
  unfold Thread.setP; split <;> rfl

/-- A meaning whose lanes act as a row says. -/
def RowRuns (row : LaneRow) (m : Meaning) : Prop := LanePure row.res ∧ ∃ e, ∀ s, m s = execLanes e row.fs (laneOk row.res) s

theorem row_runs {row : LaneRow} {f : LaneIn → Thread} (e : Bool) (hf : LanePure f) (hr : ∀ l, f l = row.res l) :
    RowRuns row (execLanes e row.fs (laneOk f)) := by
  obtain rfl : f = row.res := funext hr
  exact ⟨hf, e, fun _ => rfl⟩

/-- Such a meaning completes its unit, and each iteration of it under `hrep`. -/
theorem RowRuns.done {row : LaneRow} {m : Meaning} (h : RowRuns row m) {s : State} {x : Iss} (hs : LaneUnit s x row.fs) :
    ∃ t, m s = .next t ∧ LanesDone x (fun n th => row.res (laneFirst x row.fs n th)) s t := by
  obtain ⟨hf, e, he⟩ := h; rw [he]; exact lanes_done e hs hf

theorem RowRuns.iter {row : LaneRow} {m : Meaning} (h : RowRuns row m) {s : State} {x : Iss} {n r : Nat} (hs : IterUnit s x row.fs n r)
    (ha : x.active ≠ []) :
    ∃ t, m s = .next t ∧ (r + 1 < n → IterDone x r (fun i th => row.res (laneAt x row.fs r i th)) s t) ∧
      (r + 1 = n → x.g.hint.traps = [] → LanesDone x (fun i th => row.res (laneAt x row.fs r i th)) s t) := by
  obtain ⟨hf, e, he⟩ := h; rw [he]; exact lanes_iter e hs hf ha

theorem RowRuns.skip {row : LaneRow} {m : Meaning} (h : RowRuns row m) {s : State} {x : Iss} {sd sa sb : Nat} (hs : Issues s x)
    (hr : x.g.hint.hrep = some (0, sd, sa, sb)) : ∃ t, m s = .next t ∧ UnitDone x s t := by
  obtain ⟨-, e, he⟩ := h; rw [he]; exact lanes_skip e hs hr

theorem opBin_row {e : Bool} {d a b : BitVec 6} {f : Nat → Nat → Nat} {F : Word → Word → Word}
    (hF : ∀ x y : Word, BitVec.ofNat 32 (f x.toNat y.toNat) = F x y) : RowRuns (row2 d a b F) (opBin e d a b f) :=
  row_runs (row := row2 d a b F) e ⟨fun _ _ => rfl, fun _ => ⟨rfl, rfl⟩⟩ fun l =>
    setReg_ofNat _ _ _ _ (by rw [← hF]; simp only [LaneIn.ra, LaneIn.rb, toNat_reg])

theorem opTer_row {e : Bool} {d a b : BitVec 6} {f : Nat → Nat → Nat → Nat} {F : Word → Word → Word → Word}
    (hF : ∀ z x y : Word, BitVec.ofNat 32 (f z.toNat x.toNat y.toNat) = F z x y) : RowRuns (row3 d a b F) (opTer e d a b f) :=
  row_runs (row := row3 d a b F) e ⟨fun _ _ => rfl, fun _ => ⟨rfl, rfl⟩⟩ fun l =>
    setReg_ofNat _ _ _ _ (by rw [← hF]; simp only [LaneIn.rd, LaneIn.ra, LaneIn.rb, toNat_reg])

theorem opUn_row {e : Bool} {d a : BitVec 6} {f : Nat → Nat} {F : Word → Word} (hF : ∀ x : Word, BitVec.ofNat 32 (f x.toNat) = F x) :
    RowRuns (row1 d a F) (opUn e d a f) :=
  row_runs (row := row1 d a F) e ⟨fun _ _ => rfl, fun _ => ⟨rfl, rfl⟩⟩ fun l => setReg_ofNat _ _ _ _ (by rw [← hF]; simp only [LaneIn.ra, toNat_reg])

theorem opCmp_row {e : Bool} {p : BitVec 3} {a b : BitVec 6} {f : Nat → Nat → Bool} {F : Word → Word → Bool}
    (hF : ∀ x y : Word, f x.toNat y.toNat = F x y) : RowRuns (rowCmp p a b F) (opCmp e p a b f) :=
  row_runs (row := rowCmp p a b F) e ⟨fun _ _ => rfl, fun _ => ⟨setP_tid _ _ _, setP_rep _ _ _⟩⟩ fun l => by
    show l.ln.t.setP _ _ = l.ln.t.setP _ _
    rw [← hF]; simp only [LaneIn.ra, LaneIn.rb, toNat_reg]

/-- The pair forms. -/
theorem span_row {e : Bool} {fs : Fields} {f : LaneIn → Nat} {F : LaneIn → DWord} (hF : ∀ l, BitVec.ofNat 64 (f l) = F l)
    (hp : ∀ i ths, f { i with ln := { i.ln with w := { i.ln.w with threads := ths } } } = f i) :
    RowRuns ⟨fs, fun l => l.put2 (F l)⟩ (execLanes e fs (laneOk fun i => i.ln.t.setSpan i.d 2 (f i))) :=
  row_runs (row := ⟨fs, fun l => l.put2 (F l)⟩) e
    ⟨fun i ths => by show i.ln.t.setSpan _ _ (f _) = _; rw [hp], fun _ => ⟨rfl, rfl⟩⟩ fun l => setSpan2_ofNat _ _ _ _ (hF l)

/-! ### The arithmetic of R164 and R165 -/

theorem ofNat_sub32 (x y : Word) : BitVec.ofNat 32 (x.toNat + (2 ^ 32 - y.toNat)) = x - y := by
  apply BitVec.eq_of_toNat_eq; simp [BitVec.toNat_sub]; omega

theorem sx32_toInt (x : Word) : sx32 x.toNat = x.toInt := by
  have := x.isLt
  unfold sx32 signExt
  rw [Nat.mod_eq_of_lt this, BitVec.toInt_eq_toNat_cond]
  split <;> split <;> omega

theorem ofNat_wrapInt (i : Int) (n : Nat) : BitVec.ofNat n (wrapInt i n) = BitVec.ofInt n i := by
  apply BitVec.eq_of_toNat_eq
  simp only [BitVec.toNat_ofNat, BitVec.toNat_ofInt, wrapInt]
  rw [Nat.mod_eq_of_lt]
  · norm_cast
  · have h : (0 : Int) < 2 ^ n := by positivity
    have := Int.emod_lt_of_pos i h
    have := Int.emod_nonneg i (ne_of_gt h)
    zify
    rw [Int.toNat_of_nonneg this]
    exact_mod_cast Int.emod_lt_of_pos i h

theorem mulhi_signed (x y : Word) :
    BitVec.ofNat 32 (bitsI (sx32 x.toNat * sx32 y.toNat) 63 32) = (x.signExtend 64 * y.signExtend 64).extractLsb' 32 32 := by
  rw [sx32_toInt, sx32_toInt]
  have h : x.signExtend 64 * y.signExtend 64 = BitVec.ofInt 64 (x.toInt * y.toInt) := by
    apply BitVec.eq_of_toInt_eq
    rw [BitVec.toInt_mul, BitVec.toInt_ofInt, BitVec.toInt_signExtend_of_le (by norm_num), BitVec.toInt_signExtend_of_le (by norm_num)]
  rw [h, ← ofNat_wrapInt]
  apply BitVec.eq_of_toNat_eq
  simp only [bitsI, bits, BitVec.extractLsb'_toNat, BitVec.toNat_ofNat, Nat.shiftRight_eq_div_pow]
  generalize wrapInt (x.toInt * y.toInt) (63 + 1) = n
  norm_num
  omega

theorem mulhi_unsigned (x y : Word) :
    BitVec.ofNat 32 (x.toNat * y.toNat / 2 ^ 32) = (x.setWidth 64 * y.setWidth 64).extractLsb' 32 32 := by
  apply BitVec.eq_of_toNat_eq
  have h : x.toNat * y.toNat < 2 ^ 64 := by
    have := Nat.mul_lt_mul'' x.isLt y.isLt
    norm_num at this ⊢; exact this
  have hx := x.isLt
  have hy := y.isLt
  simp only [BitVec.extractLsb'_toNat, BitVec.toNat_mul, BitVec.toNat_setWidth, BitVec.toNat_ofNat, Nat.shiftRight_eq_div_pow]
  rw [Nat.mod_eq_of_lt (show x.toNat < 2 ^ 64 by omega), Nat.mod_eq_of_lt (show y.toNat < 2 ^ 64 by omega), Nat.mod_eq_of_lt h]

theorem ite_lt_le {α : Type} (a b : Int) (x y : α) : (if a ≤ b then x else y) = if b < a then y else x := by
  by_cases h : b < a
  · rw [if_pos h, if_neg (by omega)]
  · rw [if_neg h, if_pos (by omega)]

theorem abs32 (x : Word) : BitVec.ofNat 32 (sx32 x.toNat).natAbs = x.abs := by
  rw [sx32_toInt]
  apply BitVec.eq_of_toNat_eq
  have := x.isLt
  rw [BitVec.toNat_abs, BitVec.toInt_eq_msb_cond, BitVec.toNat_ofNat, BitVec.msb_eq_decide]
  by_cases h : 2 ^ (32 - 1) ≤ x.toNat
  · simp only [h, decide_true, if_true]; norm_num at *; omega
  · simp only [h, decide_false, Bool.false_eq_true, if_false, Int.natAbs_natCast]; omega

theorem sar (x : Word) (n : Nat) : BitVec.ofNat 32 (sar32 x.toNat n) = x.sshiftRight n := by
  unfold sar32
  rw [sx32_toInt, ofNat_wrapInt]
  apply BitVec.eq_of_toInt_eq
  rw [BitVec.toInt_ofInt, BitVec.toInt_sshiftRight]
  rw [← Int.shiftRight_eq_div_pow]
  have h1 := BitVec.toInt_lt (x := x)
  have h2 := BitVec.le_toInt (x := x)
  norm_num at h1 h2
  have hd : ∀ m : Nat, Int.bmod (x.toInt >>> m) (2 ^ 32) = x.toInt >>> m := fun m => by
    rw [Int.shiftRight_eq_div_pow]
    have hp : (0 : Int) < 2 ^ m := by positivity
    have h1p : (1 : Int) ≤ 2 ^ m := hp
    have a1 : x.toInt / 2 ^ m < 2147483648 := Int.ediv_lt_of_lt_mul hp (by nlinarith)
    have a2 : -2147483648 ≤ x.toInt / 2 ^ m := Int.le_ediv_of_mul_le hp (by nlinarith)
    apply Int.bmod_eq_of_le <;> norm_num <;> omega
  rw [hd]
  by_cases h : n ≤ 31
  · rw [Nat.min_eq_left h]
  · rw [Nat.min_eq_right (by omega), Int.shiftRight_eq_div_pow, Int.shiftRight_eq_div_pow]
    push_cast
    have hp : (2 ^ 31 : Int) ≤ 2 ^ n := by
      have : 2 ^ 31 ≤ 2 ^ n := Nat.pow_le_pow_right (by norm_num) (by omega)
      exact_mod_cast this
    by_cases hx : 0 ≤ x.toInt
    · rw [Int.ediv_eq_zero_of_lt hx (by omega), Int.ediv_eq_zero_of_lt hx (by omega)]
    · have e : ∀ k : Int, 2 ^ 31 ≤ k → x.toInt / k = -1 := fun k hk => by
        apply Int.ediv_eq_neg_one_of_neg_of_le <;> norm_num at * <;> omega
      rw [e _ hp]; exact e 2147483648 (by norm_num)

theorem shl (x : Word) (n : Nat) : BitVec.ofNat 32 (shl32 x.toNat n) = x <<< n := by
  apply BitVec.eq_of_toNat_eq
  unfold shl32
  simp only [BitVec.toNat_ofNat, BitVec.toNat_shiftLeft, Nat.shiftLeft_eq]
  split_ifs with h
  · simp
  · obtain ⟨k, rfl⟩ := Nat.exists_eq_add_of_le (Nat.le_of_not_lt h)
    rw [pow_add, ← mul_assoc, mul_comm, ← mul_assoc, Nat.mul_mod_left]

theorem shr (x : Word) (n : Nat) : BitVec.ofNat 32 (shr32 x.toNat n) = x >>> n := by
  apply BitVec.eq_of_toNat_eq
  unfold shr32
  simp only [BitVec.toNat_ofNat, BitVec.toNat_ushiftRight, Nat.shiftRight_eq_div_pow]
  have := x.isLt
  split_ifs with h
  · exact Nat.mod_eq_of_lt (lt_of_le_of_lt (Nat.div_le_self _ _) this)
  · rw [Nat.div_eq_of_lt (lt_of_lt_of_le this (Nat.pow_le_pow_right (by norm_num) (Nat.le_of_not_lt h)))]

theorem rol (x : Word) (n : Nat) : BitVec.ofNat 32 (rol32 x.toNat n) = x.rotateLeft n := by
  apply BitVec.eq_of_toNat_eq
  unfold rol32
  have hk : n % 32 < 32 := Nat.mod_lt _ (by norm_num)
  have hx := x.isLt
  rw [BitVec.toNat_rotateLeft]
  simp only [BitVec.toNat_ofNat, Nat.shiftLeft_eq, Nat.shiftRight_eq_div_pow, Nat.mod_mod]
  generalize n % 32 = k at hk
  have hd : x.toNat / 2 ^ (32 - k) < 2 ^ k := by
    rw [Nat.div_lt_iff_lt_mul (by positivity), ← pow_add, show k + (32 - k) = 32 by omega]; exact hx
  have hm : x.toNat * 2 ^ k % 2 ^ 32 = (x.toNat % 2 ^ (32 - k)) * 2 ^ k := by
    rw [show (2 : Nat) ^ 32 = 2 ^ (32 - k) * 2 ^ k by rw [← pow_add]; congr 1; omega, Nat.mul_mod_mul_right]
  have e : (x.toNat % 2 ^ (32 - k)) * 2 ^ k ||| x.toNat / 2 ^ (32 - k) = (x.toNat % 2 ^ (32 - k)) * 2 ^ k + x.toNat / 2 ^ (32 - k) := by
    rw [mul_comm, ← Nat.two_pow_add_eq_or_of_lt hd]
  rw [hm, e, Nat.add_mod, hm]
  have hm2 : (x.toNat % 2 ^ (32 - k)) * 2 ^ k + x.toNat / 2 ^ (32 - k) < 2 ^ 32 := by
    have h1 : x.toNat % 2 ^ (32 - k) < 2 ^ (32 - k) := Nat.mod_lt _ (by positivity)
    have : (x.toNat % 2 ^ (32 - k) + 1) * 2 ^ k ≤ 2 ^ (32 - k) * 2 ^ k := Nat.mul_le_mul_right _ h1
    rw [← pow_add, show 32 - k + k = 32 by omega] at this
    nlinarith
  rw [Nat.mod_eq_of_lt (lt_of_lt_of_le hd (Nat.pow_le_pow_right (by norm_num) (by omega)))]
  exact Nat.mod_eq_of_lt hm2

theorem fieldOf_pos (b : Word) : (fieldOf b.toNat).1 = fieldPos b := by
  simp [fieldOf, fieldPos, bits, BitVec.extractLsb'_toNat, Nat.shiftRight_eq_div_pow]

theorem fieldOf_len (b : Word) : (fieldOf b.toNat).2 = fieldLen b := by
  simp [fieldOf, fieldLen, fieldPos, bits, BitVec.extractLsb'_toNat, Nat.shiftRight_eq_div_pow]

theorem field_bound (b : Word) : fieldPos b + fieldLen b ≤ 32 := by
  have : fieldPos b < 2 ^ 5 := (b.extractLsb' 0 5).isLt
  unfold fieldLen; omega

theorem bfx_unsigned (x y : Word) : BitVec.ofNat 32 (bfx false x.toNat y.toNat) = (x.extractLsb' (fieldPos y) (fieldLen y)).setWidth 32 := by
  unfold bfx
  simp only [fieldOf_pos, fieldOf_len]
  apply BitVec.eq_of_toNat_eq
  simp only [BitVec.toNat_setWidth, BitVec.extractLsb'_toNat, Nat.shiftRight_eq_div_pow]
  by_cases h : fieldLen y = 0
  · simp [h, Nat.mod_one]
  · simp [h, bits, show fieldPos y + fieldLen y - 1 - fieldPos y + 1 = fieldLen y by omega]

theorem signExt_bv {n : Nat} (v : BitVec n) (hn : 0 < n) : signExt v.toNat n = v.toInt := by
  unfold signExt
  rw [Nat.mod_eq_of_lt v.isLt, BitVec.toInt_eq_toNat_cond]
  obtain ⟨m, rfl⟩ : ∃ m, n = m + 1 := ⟨n - 1, by omega⟩
  have e : 2 ^ (m + 1) = 2 * 2 ^ m := by ring
  simp only [Nat.add_sub_cancel]
  split_ifs with h1 h2 h2
  · rfl
  · omega
  · omega
  · push_cast; rfl

theorem bfx_signed (x y : Word) : BitVec.ofNat 32 (bfx true x.toNat y.toNat) = (x.extractLsb' (fieldPos y) (fieldLen y)).signExtend 32 := by
  unfold bfx
  simp only [fieldOf_pos, fieldOf_len]
  have hb := field_bound y
  by_cases h : fieldLen y = 0
  · simp only [h, beq_self_eq_true, if_true]
    have e : (x.extractLsb' (fieldPos y) (fieldLen y)).toInt = 0 := by
      generalize x.extractLsb' (fieldPos y) (fieldLen y) = v
      revert v; rw [h]; intro v; rw [BitVec.eq_nil v]; rfl
    rw [BitVec.signExtend, e]; rfl
  · have hbits : bits x.toNat (fieldPos y + fieldLen y - 1) (fieldPos y) = (x.extractLsb' (fieldPos y) (fieldLen y)).toNat := by
      simp only [bits, BitVec.extractLsb'_toNat, Nat.shiftRight_eq_div_pow]
      rw [show fieldPos y + fieldLen y - 1 - fieldPos y + 1 = fieldLen y by omega]
    simp only [beq_eq_false_iff_ne.mpr h, Bool.false_eq_true, if_false, if_true]
    rw [hbits, signExt_bv _ (by omega), ofNat_wrapInt]
    rfl

theorem clz (x : Word) : BitVec.ofNat 32 (clz32 x.toNat) = x.clz := by
  apply BitVec.eq_of_toNat_eq
  unfold clz32
  by_cases h : x = 0
  · subst h; decide
  · have h0 : x.toNat ≠ 0 := fun e => h (BitVec.eq_of_toNat_eq (by simpa using e))
    have hl : x.toNat.log2 < 32 := (Nat.log2_lt h0).mpr x.isLt
    have a1 := BitVec.two_pow_sub_clz_le_toNat_of_ne_zero (by norm_num) h
    have a2 := BitVec.toNat_lt_two_pow_sub_clz (x := x)
    have a3 : x.clz.toNat ≤ 32 := BitVec.clz_le (x := x)
    have a4 : x.clz.toNat ≠ 32 := fun e => by rw [e] at a2; simp at a2; exact h0 a2
    have e : x.toNat.log2 = 31 - x.clz.toNat :=
      (Nat.log2_eq_iff h0).mpr ⟨a1, by rwa [show 31 - x.clz.toNat + 1 = 32 - x.clz.toNat by omega]⟩
    simp only [beq_eq_false_iff_ne.mpr h0, Bool.false_eq_true, if_false, e, BitVec.toNat_ofNat]
    omega

theorem bit_getLsbD {n : Nat} (x : BitVec n) (i : Nat) : bit x.toNat i = x.getLsbD i := by
  simp [bit, BitVec.getLsbD, Nat.testBit_eq_decide_div_mod_eq]

theorem pop_range (x : Word) : ∀ k acc, (List.range k).foldl (fun n i => n + (bit x.toNat i).toNat) acc = x.cpopNatRec k acc
  | 0, _ => rfl
  | k + 1, acc => by
    rw [List.range_succ, List.foldl_append, pop_range x k, BitVec.cpopNatRec, List.foldl_cons, List.foldl_nil, bit_getLsbD, BitVec.cpopNatRec_eq,
      BitVec.cpopNatRec_eq (acc := acc + _)]
    omega

theorem pop (x : Word) : BitVec.ofNat 32 (pop32 x.toNat) = x.cpop := by
  rw [pop32, pop_range, BitVec.cpop]

/-- A number is the sum of its bits. -/
theorem sum_bits {n : Nat} (y : BitVec n) : ∀ k, (List.range k).foldl (fun a i => a + (y.getLsbD i).toNat * 2 ^ i) 0 = y.toNat % 2 ^ k
  | 0 => by simp [Nat.mod_one]
  | k + 1 => by
    rw [List.range_succ, List.foldl_append, sum_bits y k, List.foldl_cons, List.foldl_nil, Nat.mod_pow_succ, ← bit_getLsbD]
    unfold bit
    rcases Nat.mod_two_eq_zero_or_one (y.toNat / 2 ^ k) with h | h <;> simp [h]

theorem brev (x : Word) : BitVec.ofNat 32 (brev32 x.toNat) = x.reverse := by
  have e : brev32 x.toNat = (List.range 32).foldl (fun a i => a + (x.reverse.getLsbD i).toNat * 2 ^ i) 0 := by
    unfold brev32
    refine List.foldl_ext _ _ _ fun a i hi => ?_
    have hi : i < 32 := by simpa using hi
    rw [bit_getLsbD, BitVec.getLsbD_reverse, BitVec.getMsbD]
    simp [hi]
  rw [e, sum_bits]
  apply BitVec.eq_of_toNat_eq
  rw [BitVec.toNat_ofNat, Nat.mod_mod, Nat.mod_eq_of_lt x.reverse.isLt]

theorem bfs_word (z x y : Word) :
    BitVec.ofNat 32 (bfs z.toNat x.toNat y.toNat) = (z &&& ~~~fieldMask y) ||| (x <<< fieldPos y &&& fieldMask y) := by
  have hb := field_bound y
  unfold bfs
  simp only [fieldOf_pos, fieldOf_len]
  have hmask : ∀ i, (fieldMask y).getLsbD i = (decide (fieldPos y ≤ i) && decide (i < fieldPos y + fieldLen y)) := fun i => by
    unfold fieldMask
    simp only [BitVec.getLsbD_shiftLeft, BitVec.getLsbD_setWidth, BitVec.getLsbD_allOnes]
    by_cases h1 : i < fieldPos y
    · simp [h1, Nat.not_le.mpr h1]
    · rw [Bool.eq_iff_iff]; simp; omega
  by_cases h : fieldLen y = 0
  · have h0 : fieldMask y = 0 := by
      unfold fieldMask; rw [h]; simp
    rw [h0, if_pos (by simp [h])]
    simp only [BitVec.ofNat_eq_ofNat, BitVec.not_zero, BitVec.and_allOnes, BitVec.and_zero, BitVec.or_zero, BitVec.ofNat_toNat, BitVec.setWidth_eq]
  · simp only [beq_eq_false_iff_ne.mpr h, Bool.false_eq_true, if_false, bits]
    rw [show fieldPos y + fieldLen y - 1 - fieldPos y + 1 = fieldLen y by omega]
    generalize fieldPos y = p at *
    generalize fieldLen y = n at *
    apply BitVec.eq_of_getLsbD_eq
    intro i hi
    have hz : z.toNat = 2 ^ p * (2 ^ n * (z.toNat / 2 ^ p / 2 ^ n) + z.toNat / 2 ^ p % 2 ^ n) + z.toNat % 2 ^ p := by
      rw [Nat.div_add_mod, Nat.div_add_mod]
    have hr : z.toNat - z.toNat / 2 ^ p % 2 ^ n * 2 ^ p + x.toNat % 2 ^ n * 2 ^ p =
        2 ^ p * (2 ^ n * (z.toNat / 2 ^ p / 2 ^ n) + x.toNat % 2 ^ n) + z.toNat % 2 ^ p := by
      rw [Nat.mul_add] at hz ⊢
      rw [mul_comm (z.toNat / 2 ^ p % 2 ^ n), mul_comm (x.toNat % 2 ^ n)]
      omega
    rw [hr]
    simp only [BitVec.getLsbD_ofNat, BitVec.getLsbD_or, BitVec.getLsbD_and, BitVec.getLsbD_not, hmask, BitVec.getLsbD_shiftLeft]
    rw [Nat.testBit_two_pow_mul_add _ (Nat.mod_lt _ (by positivity)), Nat.testBit_two_pow_mul_add _ (Nat.mod_lt _ (by positivity)),
      Nat.testBit_mod_two_pow, Nat.testBit_mod_two_pow, Nat.testBit_div_two_pow, Nat.testBit_div_two_pow]
    simp only [BitVec.testBit_toNat]
    by_cases h1 : i < p
    · simp [h1, hi]
    · by_cases h2 : i < p + n
      · simp [h1, hi, h2, show i - p < n by omega, show p ≤ i by omega]
      · simp [h1, hi, h2, show ¬ i - p < n by omega, show p ≤ i by omega, show i - p - n + n + p = i by omega]

theorem bperm_word (z x y : Word) :
    BitVec.ofNat 32 (bperm z.toNat x.toNat y.toNat) = (permByte z x y 3 ++ permByte z x y 2 ++ permByte z x y 1 ++ permByte z x y 0 : Word) := by
  have hx := x.isLt
  have hq : z.toNat * 2 ^ 32 + x.toNat = (z ++ x : DWord).toNat := by
    rw [BitVec.toNat_append, ← Nat.shiftLeft_add_eq_or_of_lt hx, Nat.shiftLeft_eq]
  have hb : ∀ i, (if 8 ≤ bits y.toNat (4 * i + 3) (4 * i) then 0
      else (z.toNat * 2 ^ 32 + x.toNat) / 2 ^ (8 * bits y.toNat (4 * i + 3) (4 * i)) % 256) = (permByte z x y i).toNat := fun i => by
    have hg : bits y.toNat (4 * i + 3) (4 * i) = (y.extractLsb' (4 * i) 4).toNat := by
      simp [bits, BitVec.extractLsb'_toNat, Nat.shiftRight_eq_div_pow]
    unfold permByte
    rw [hg, hq]
    simp only []
    split_ifs
    · rfl
    · simp [BitVec.extractLsb'_toNat, Nat.shiftRight_eq_div_pow]
  unfold bperm
  simp only [hb]
  generalize permByte z x y 0 = b0
  generalize permByte z x y 1 = b1
  generalize permByte z x y 2 = b2
  generalize permByte z x y 3 = b3
  have := b0.isLt; have := b1.isLt; have := b2.isLt; have := b3.isLt
  apply BitVec.eq_of_toNat_eq
  rw [BitVec.toNat_append, BitVec.toNat_append, BitVec.toNat_append, ← Nat.shiftLeft_add_eq_or_of_lt b0.isLt,
    ← Nat.shiftLeft_add_eq_or_of_lt b1.isLt, ← Nat.shiftLeft_add_eq_or_of_lt b2.isLt]
  simp only [Nat.shiftLeft_eq, BitVec.toNat_ofNat]
  omega

theorem nat_and (x y : Word) : BitVec.ofNat 32 (x.toNat &&& y.toNat) = x &&& y := by
  apply BitVec.eq_of_toNat_eq; rw [BitVec.toNat_and, BitVec.toNat_ofNat, Nat.mod_eq_of_lt (Nat.and_lt_two_pow _ y.isLt)]

theorem nat_or (x y : Word) : BitVec.ofNat 32 (x.toNat ||| y.toNat) = x ||| y := by
  apply BitVec.eq_of_toNat_eq; rw [BitVec.toNat_or, BitVec.toNat_ofNat, Nat.mod_eq_of_lt (Nat.or_lt_two_pow x.isLt y.isLt)]

theorem nat_xor (x y : Word) : BitVec.ofNat 32 (x.toNat ^^^ y.toNat) = x ^^^ y := by
  apply BitVec.eq_of_toNat_eq; rw [BitVec.toNat_xor, BitVec.toNat_ofNat, Nat.mod_eq_of_lt (Nat.xor_lt_two_pow x.isLt y.isLt)]

theorem nat_not (x : Word) : BitVec.ofNat 32 (2 ^ 32 - 1 - x.toNat) = ~~~x := by
  apply BitVec.eq_of_toNat_eq; rw [BitVec.toNat_not, BitVec.toNat_ofNat, Nat.mod_eq_of_lt (by omega)]

theorem nat_andn (x y : Word) : BitVec.ofNat 32 (x.toNat &&& (2 ^ 32 - 1 - y.toNat)) = x &&& ~~~y := by
  rw [← nat_and, BitVec.toNat_not]

theorem cond_signed (c : Nat) (h : c < 6) (x y : Word) : condI c (sx32 x.toNat) (sx32 y.toNat) = signedCond c x y := by
  rw [sx32_toInt, sx32_toInt]
  rcases c with _ | _ | _ | _ | _ | _ | c
  · simp only [condI, signedCond]; rw [Bool.eq_iff_iff, beq_iff_eq, beq_iff_eq]; exact BitVec.toInt_inj
  · simp only [condI, signedCond]; rw [Bool.eq_iff_iff, bne_iff_ne, bne_iff_ne]; exact not_congr BitVec.toInt_inj
  all_goals rfl

theorem cond_unsigned (c : Nat) (h : c < 6) (x y : Word) : condI c x.toNat y.toNat = unsignedCond c x y := by
  rcases c with _ | _ | _ | _ | _ | _ | c
  · simp only [condI, unsignedCond]; rw [Bool.eq_iff_iff, beq_iff_eq, beq_iff_eq, Int.natCast_inj]; exact BitVec.toNat_inj
  · simp only [condI, unsignedCond]; rw [Bool.eq_iff_iff, bne_iff_ne, bne_iff_ne]; exact not_congr (by rw [Int.natCast_inj]; exact BitVec.toNat_inj)
  all_goals simp [condI, unsignedCond, BitVec.ult, BitVec.ule]

theorem pair_sub (x y : DWord) : BitVec.ofNat 64 (x.toNat + (2 ^ 64 - y.toNat)) = x - y := by
  apply BitVec.eq_of_toNat_eq; simp [BitVec.toNat_sub]; omega

theorem pair_shl (x : DWord) (n : Nat) : BitVec.ofNat 64 (if n < 64 then x.toNat * 2 ^ n else 0) = x <<< n := by
  apply BitVec.eq_of_toNat_eq
  simp only [BitVec.toNat_ofNat, BitVec.toNat_shiftLeft, Nat.shiftLeft_eq]
  split_ifs with h
  · rfl
  · obtain ⟨k, rfl⟩ := Nat.exists_eq_add_of_le (Nat.le_of_not_lt h)
    rw [pow_add, ← mul_assoc, mul_comm, ← mul_assoc, Nat.mul_mod_left]

theorem pair_shr (x : DWord) (n : Nat) : BitVec.ofNat 64 (if n < 64 then x.toNat / 2 ^ n else 0) = x >>> n := by
  apply BitVec.eq_of_toNat_eq
  simp only [BitVec.toNat_ofNat, BitVec.toNat_ushiftRight, Nat.shiftRight_eq_div_pow]
  have := x.isLt
  split_ifs with h
  · exact Nat.mod_eq_of_lt (lt_of_le_of_lt (Nat.div_le_self _ _) this)
  · rw [Nat.div_eq_of_lt (lt_of_lt_of_le this (Nat.pow_le_pow_right (by norm_num) (Nat.le_of_not_lt h)))]

theorem lane_p (l : LaneIn) (p : BitVec 3) (n : Bool) : predIn l.ln.t p n = l.p p n := by
  unfold predIn LaneIn.p; cases n <;> simp

theorem max_signed (x y : Word) : BitVec.ofNat 32 (if sx32 x.toNat ≤ sx32 y.toNat then y.toNat else x.toNat) = if x.slt y then y else x := by
  simp only [sx32_toInt, BitVec.slt, decide_eq_true_eq]
  by_cases h : x.toInt < y.toInt
  · rw [if_pos (le_of_lt h), if_pos h]; simp only [BitVec.ofNat_toNat, BitVec.setWidth_eq]
  · rw [if_neg h]
    by_cases h2 : x.toInt ≤ y.toInt
    · rw [if_pos h2, BitVec.eq_of_toInt_eq (show x.toInt = y.toInt by omega)]; simp only [BitVec.ofNat_toNat, BitVec.setWidth_eq]
    · rw [if_neg h2]; simp only [BitVec.ofNat_toNat, BitVec.setWidth_eq]

theorem wrapInt_lt (i : Int) (n : Nat) : wrapInt i n < 2 ^ n := by
  unfold wrapInt
  have h : (0 : Int) < 2 ^ n := by positivity
  have := Int.emod_lt_of_pos i h
  have := Int.emod_nonneg i (ne_of_gt h)
  zify; rw [Int.toNat_of_nonneg this]; assumption

theorem simm_lt (x : Iss) (f w n : Nat) : x.simm f w n < 2 ^ n := wrapInt_lt _ _

theorem imm_toNat (l : LaneIn) (i : BitVec 13) : (l.imm i).toNat = l.x.simm i.toNat 13 32 := by
  rw [LaneIn.imm, BitVec.toNat_ofNat, Nat.mod_eq_of_lt (simm_lt _ _ _ _)]

theorem opImm_row {e : Bool} {d a : BitVec 6} {im : BitVec 13} {f : Nat → Nat → Nat} {F : Word → Word → Word}
    (hF : ∀ x y : Word, BitVec.ofNat 32 (f x.toNat y.toNat) = F x y) :
    RowRuns ⟨da d a, fun l => l.put (F l.ra (l.imm im))⟩ (opImm e d a im f) :=
  row_runs (row := ⟨da d a, fun l => l.put (F l.ra (l.imm im))⟩) e ⟨fun _ _ => rfl, fun _ => ⟨rfl, rfl⟩⟩ fun l =>
    setReg_ofNat _ _ _ _ (by rw [← hF, imm_toNat]; simp only [LaneIn.ra, toNat_reg])

theorem imm_cond (c : Nat) (hc : c < 8) (x y : Word) :
    (if c == 6 then decide (x.toNat < y.toNat) else if c == 7 then decide (y.toNat ≤ x.toNat) else condI c (sx32 x.toNat) (sx32 y.toNat)) = immCond c x y := by
  rcases (show c < 6 ∨ c = 6 ∨ c = 7 by omega) with h | rfl | rfl
  · rw [beq_eq_false_iff_ne.mpr (by omega), beq_eq_false_iff_ne.mpr (by omega)]
    simp only [Bool.false_eq_true, if_false]
    rw [cond_signed c h]
    rcases c with _ | _ | _ | _ | _ | _ | c <;> first
      | rfl
      | omega
  · rfl
  · rfl

theorem hi_append (hi a : Word) : (hi ++ a : DWord).toNat = hi.toNat * 2 ^ 32 + a.toNat := by
  rw [BitVec.toNat_append, ← Nat.shiftLeft_add_eq_or_of_lt a.isLt, Nat.shiftLeft_eq]

theorem opLea_row {e : Bool} {d : BitVec 5} {a : BitVec 6} {f : Nat → Nat} {hi : Word} (hF : ∀ x : Word, f x.toNat = hi.toNat * 2 ^ 32 + x.toNat) :
    RowRuns (rowLea d a hi) (opLea e d a f) :=
  span_row (F := fun l => hi ++ l.ra) (f := fun l => f (l.ln.t.reg l.a)) (fun l => by
    apply BitVec.eq_of_toNat_eq
    rw [hi_append, ← hF, BitVec.toNat_ofNat, LaneIn.ra, toNat_reg]
    have := hF l.ra
    rw [LaneIn.ra, toNat_reg] at this
    have h1 := hi.isLt
    have h2 := reg_lt l.ln.t l.a
    omega) (fun _ _ => rfl)

theorem word_lt31 (x : Word) : x.toNat % 2 ^ 31 = (x &&& 0x7FFFFFFF).toNat := by
  rw [BitVec.toNat_and]; exact (Nat.and_two_pow_sub_one_eq_mod x.toNat 31).symm

theorem nan_iff (a : Nat) : (f32 a).isNan = true ↔ fp32.decode a = .nan := by simp [f32, Fp.isNan]

theorem fabs_word (x : Word) :
    BitVec.ofNat 32 (if (f32 x.toNat).isNan then fp32.nan else x.toNat % 2 ^ 31) =
      if fp32.decode x.toNat = .nan then 0x7FC00000 else x &&& 0x7FFFFFFF := by
  by_cases h : fp32.decode x.toNat = .nan
  · rw [if_pos h, if_pos ((nan_iff _).mpr h)]; rfl
  · rw [if_neg h, if_neg (fun e => h ((nan_iff _).mp e)), word_lt31]; simp only [BitVec.ofNat_toNat, BitVec.setWidth_eq]

theorem fneg_word (x : Word) :
    BitVec.ofNat 32 (if (f32 x.toNat).isNan then fp32.nan else x.toNat ^^^ 2 ^ 31) =
      if fp32.decode x.toNat = .nan then 0x7FC00000 else x ^^^ 0x80000000 := by
  by_cases h : fp32.decode x.toNat = .nan
  · rw [if_pos h, if_pos ((nan_iff _).mpr h)]; rfl
  · rw [if_neg h, if_neg (fun e => h ((nan_iff _).mp e)), ← nat_xor]; rfl

end Sys2Proof.Machine
end

