-- ==== Sys2Proof/Laws/Acts.lean ====
section
/-! SUPPORT. What an instruction does whose lanes act on more than their own threads: one lemma for all of them. -/

namespace Sys2Proof.Machine

open State

/-- One lane's part. -/
theorem laneStep_ok {x : Iss} {fs : Fields} {f : LaneFn} {s u : State} {i : Nat} {l : LaneIn} {v : Thread} (h1 : s.laneIn x fs i = some l)
    (h2 : l.ln.t.pend ≠ .done) (h3 : fs.within l.ln.t.c x.g.hint.hrep = true) (h4 : f s l = (u, .ok v)) :
    laneStep x fs f { s := s } i = { s := u.modThread x.c x.g.wslot i fun _ => { v with pend := .done } } := by
  unfold laneStep
  simp only [h1, beq_eq_false_iff_ne.mpr h2, h3, h4, Bool.false_eq_true, if_false, Bool.not_true]

/-- The lanes one after the other. -/
theorem LaneSteps.foldl {x : Iss} {fs : Fields} {R : State → LaneIn → State → Thread → Prop} {f : LaneFn} (hrep : x.g.hint.hrep = none)
    (hf : ∀ s l u v, R s l u v → f s l = (u, .ok v)) {is : List Nat} {s u : State} (h : LaneSteps x fs R is s u) :
    is.foldl (laneStep x fs f) { s := s } = { s := u } := by
  induction h with
  | nil s => rfl
  | skip h1 h2 _ ih =>
    rw [List.foldl_cons, ← ih]
    congr 1
    unfold laneStep
    simp [h1, h2]
  | step h1 h2 h3 h4 _ ih => rw [List.foldl_cons, laneStep_ok h1 h2 (by rw [hrep]; exact h3) (hf _ _ _ _ h4), ih]

/-- The unit of such an instruction. -/
theorem ActUnit.perLane {x : Iss} {fs : Fields} {R : State → LaneIn → State → Thread → Prop} {f : LaneFn} {s u : State}
    (h : ActUnit x fs R s u) (e : Bool) (hf : ∀ s l u v, R s l u v → f s l = (u, .ok v)) :
    perLane x e fs f s = (u.advance x []).endUnit x e false .none := by
  unfold State.perLane
  rw [h.single]
  simp only [h.lanes.foldl h.single hf, Bool.false_eq_true, if_false]
  rw [trapsOr_nil]
  rfl

/-- An instruction whose lanes act as `R` says completes with their effect. -/
theorem act_done {x : Iss} {fs : Fields} {R : State → LaneIn → State → Thread → Prop} {f : LaneFn} {s u : State} (h : ActUnit x fs R s u)
    (e : Bool) (hf : ∀ s l u v, R s l u v → f s l = (u, .ok v)) : ∃ t, execLanes e fs f s = .next t ∧ (Stands x u → UnitDone x u t) :=
  ⟨_, by unfold execLanes; rw [onIssue_eq h.issues, h.perLane e hf], unitDone_endUnit e false⟩

/-! ### Loads and stores -/

theorem signExt_ofNat (n m : Nat) (hn : 0 < n) : signExt m n = (BitVec.ofNat n m).toInt := by
  rw [← signExt_bv _ hn, BitVec.toNat_ofNat]; unfold signExt; rw [Nat.mod_mod]

theorem loaded_eq (a : Access) (m : Nat) : a.loaded m = loadValue a.sz m := by
  have e : ∀ n, 0 < n → ((BitVec.ofNat n m).signExtend 32).toNat = wrapInt (signExt m n) 32 := fun n hn => by
    rw [signExt_ofNat n m hn, BitVec.signExtend, ← ofNat_wrapInt, BitVec.toNat_ofNat, Nat.mod_eq_of_lt (wrapInt_lt _ _)]
  unfold Access.loaded loadValue
  split_ifs with h h
  · rw [h]; exact e 8 (by norm_num)
  · rw [h]; exact e 16 (by norm_num)
  · split <;> omega

theorem bytes_eq (a : Access) (h : a.sz < 7) : a.bytes = sizeBytes a.sz := by
  unfold Access.bytes
  generalize a.sz = n at *
  interval_cases n <;> rfl

theorem regs_eq (a : Access) : a.regs = sizeRegs a.sz := by
  unfold Access.regs sizeRegs
  split_ifs with h1 h2
  · rw [h1]; rfl
  · rw [h2]; rfl
  · split <;> omega

/-- Neither cache of the core makes the unit of an access wait. -/
theorem access_present {a : Access} {s : State} {x : Iss} (hb : a.bytes = sizeBytes a.sz) (hr : a.regs = sizeRegs a.sz) (hp : a.present s x) :
    (if (x.g.fillOk || x.skips) = true then [] else cacheMisses s x a.sp (sizeBytes a.sz) a.off a.base) = [] ∧
    (if (x.g.fillOk || x.skips) = true then [] else xlateMisses s x { d := a.reg, dn := sizeRegs a.sz, a := a.base, an := 1 } (sizeBytes a.sz)
      fun i => some (plainTgt a.sp i.ln.r.core.die (plainOff x (i.ln.t.reg i.a) a.off (sizeBytes a.sz)))) = [] := by
  rcases hp with hp | ⟨h1, h2⟩
  · simp [hp]
  · rw [← hb, ← hr, h1]
    exact ⟨ite_self _, by
      have : xlateMisses s x a.fields a.bytes (fun i => some (plainTgt a.sp i.ln.r.core.die (plainOff x (i.ln.t.reg i.a) a.off a.bytes))) = [] := h2
      unfold Access.fields at this
      rw [this, ite_self]⟩

theorem access_load {a : Access} {s u : State} {x : Iss} (e : Bool) (hsz : a.sz < 7) (hst : a.store = false) (hp : a.present s x)
    (h : ActUnit x a.fields (fun s l u v => a.Lane s l u v) s u) :
    ∃ t, execAccess e a.sp (sizeBytes a.sz) a.off { d := a.reg, dn := sizeRegs a.sz, a := a.base, an := 1 } (loadLane a.sp a.sz a.la a.off) s = .next t ∧
      (Stands x u → UnitDone x u t) := by
  have hb := bytes_eq a hsz
  have hr := regs_eq a
  refine ⟨_, ?_, unitDone_endUnit e false⟩
  unfold execAccess
  rw [onIssue_eq h.issues]
  simp only [access_present hb hr hp, List.isEmpty_nil, Bool.and_self, if_true]
  congr 1
  rw [← hr]
  refine h.perLane e fun s l u v r => ?_
  unfold loadLane
  have ho : plainOff l.x (l.ln.t.reg l.a) a.off a.bytes = a.offset l := rfl
  simp only [← hr, ← hb, ← loaded_eq, ho]
  cases r with
  | store h1 => rw [hst] at h1; contradiction
  | load _ h2 h3 =>
    unfold Access.place at h3; rw [hst] at h3; simp only [Bool.false_eq_true, if_false] at h3
    rw [h3]; simp [owe, h2]
  | ahead _ h2 h3 =>
    unfold Access.place at h3; rw [hst] at h3; simp only [Bool.false_eq_true, if_false] at h3
    rw [h3]; simp [owe, h2]

theorem access_store {a : Access} {s u : State} {x : Iss} (e : Bool) (hsz : a.sz < 7) (hst : a.store = true) (hp : a.present s x)
    (h : ActUnit x a.fields (fun s l u v => a.Lane s l u v) s u) :
    ∃ t, execAccess e a.sp (sizeBytes a.sz) a.off { d := a.reg, dn := sizeRegs a.sz, a := a.base, an := 1 } (storeLane a.sp a.sz a.off) s = .next t ∧
      (Stands x u → UnitDone x u t) := by
  have hb := bytes_eq a hsz
  have hr := regs_eq a
  refine ⟨_, ?_, unitDone_endUnit e false⟩
  unfold execAccess
  rw [onIssue_eq h.issues]
  simp only [access_present hb hr hp, List.isEmpty_nil, Bool.and_self, if_true]
  congr 1
  rw [← hr]
  refine h.perLane e fun s l u v r => ?_
  unfold storeLane
  have ho : plainOff l.x (l.ln.t.reg l.a) a.off a.bytes = a.offset l := rfl
  simp only [← hr, ← hb, ho]
  cases r with
  | store _ h3 =>
    unfold Access.place at h3; rw [hst] at h3; simp only [if_true] at h3
    rw [h3]
  | load h1 => rw [hst] at h1; contradiction
  | ahead h1 => rw [hst] at h1; contradiction

theorem wf_load {d : BitVec 6} {s : BitVec 3} (h : checkLoad d s = none) : s.toNat < 7 := by
  unfold checkLoad req at h
  by_contra hc
  simp [hc] at h

theorem wf_store {d : BitVec 6} {s : BitVec 3} (h : checkStore d s = none) : s.toNat < 7 := by
  unfold checkStore req at h
  by_contra hc
  simp [show ¬ s.toNat < 5 by omega] at h

/-! ### Phasers -/

theorem withPhaser_names {s : State} {l : LaneIn} {p : Phaser} {h : Nat} {b w : Bool} {f : Phaser → State × LaneRes} (hp : s.phaserOf l.ln h = some p)
    (h0 : h ≠ 0 ∨ b = true) (hw : 0x8000 ≤ h ∨ w = true) : withPhaser s l h b w f = f p := by
  unfold withPhaser
  rw [hp]
  simp only []
  rw [if_neg]
  rcases h0 with h0 | h0 <;> rcases hw with hw | hw <;> simp [h0, hw]

/-! ### Atomics -/

theorem atomBytes_eq (a : Atomic) : a.bytes = atomBytes a.op := by
  unfold Atomic.bytes atomBytes; split_ifs <;> simp_all

theorem atomic_done {a : Atomic} {s u : State} {x : Iss} (e : Bool) (hu : a.unblocked s x) (h : ActUnit x a.fs (a.Lane s.nextId) s u) :
    ∃ t, execAtomic a.op e a.ord a.la a.fs s = .next t ∧ (Stands x u → UnitDone x u t) := by
  have hb := atomBytes_eq a
  refine ⟨_, ?_, unitDone_endUnit e false⟩
  unfold execAtomic
  rw [onIssue_eq h.issues]
  have hx : (if (x.g.fillOk || x.skips) = true then [] else xlateMisses s x a.fs (atomBytes a.op) fun i => atomTgt i.ln (i.ln.t.pair i.a)) = [] := by
    rcases hu.1 with h | h
    · simp [h]
    · rw [← hb, h, ite_self]
  simp only [hx, List.isEmpty_nil, Bool.not_true, Bool.false_eq_true, if_false]
  have hw : firstWait s x a.fs (fun s i => atomReach s i.ln (i.ln.t.pair i.a) (atomBytes a.op)) = none := by
    unfold firstWait
    rw [List.findSome?_eq_none_iff]
    intro i hi
    cases hl : s.laneIn x a.fs i with
    | none => rfl
    | some l =>
      simp only []
      split_ifs
      · rfl
      · cases hr : atomReach s l.ln (l.ln.t.pair l.a) (atomBytes a.op) with
        | mk v r =>
          cases r with
          | ok _ => rfl
          | error e =>
            obtain ⟨h1, h2⟩ := hu.2 i hi l hl v e (by rw [hb]; exact hr)
            cases e <;> first
              | rfl
              | exact absurd rfl h1
              | exact absurd rfl (h2 _ _ _)
  rw [hw]
  simp only []
  congr 1
  refine h.perLane e fun s l u v r => ?_
  cases r with
  | asks h1 h2 =>
    unfold atomLane
    simp only [← hb, h1]
    have hn : a.bytes / 4 = if a.bytes = 8 then 2 else 1 := by
      unfold Atomic.bytes; by_cases h : a.op = 12 ∨ a.op = 13 <;> simp [h]
    simp only [beq_iff_eq, hn]
    have e1 := (congrArg Prod.fst h2).symm
    have e2 := (congrArg Prod.snd h2).symm
    simp only at e1 e2
    subst e1 e2
    rfl

/-! ### Bindings, drains and copies -/

/-- A `bind` of no bytes asks its home for nothing. -/
theorem bindFirst_nothing {s : State} {l : LaneIn} {b : BindRegs} (h1 : bindSpaces l b) (h2 : b.size = 0 ∨ b.count = 0) :
    bindFirst s l b = (s, .ok none) := by
  obtain ⟨h3, h4⟩ := h1
  obtain ⟨t, ht⟩ := Option.isSome_iff_exists.mp h3
  unfold bindFirst
  simp only [ht]
  rw [if_neg, if_pos]
  · simpa using h2
  · simp only [Bool.and_eq_true, Bool.or_eq_true, beq_iff_eq]
    rintro ⟨h5, h6⟩
    rw [Option.isNone_iff_eq_none.mp h6] at h4
    exact absurd (h4 h5) (by simp)

theorem bind_done {why ev first last} {i : Instr} {fs : Fields} {s u : State} {x : Iss} (e : Bool) (hl : last = bindEnd)
    (hf : ∀ s l b, bindRegs i l = some b → first s l = bindFirst s l b) (h1 : drainSpace i = none) (h2 : copyOp i = none)
    (h : ActUnit x fs (SyncLane i) s u) :
    ∃ t, execLanes e fs (askLane why ev first last) s = .next t ∧ (Stands x u → UnitDone x u t) := by
  refine act_done h e fun s l u v r => ?_
  subst hl
  cases r with
  | bound h3 h4 => simp [askLane, h4, bindEnd]
  | nothing h3 h4 h5 h6 =>
    unfold askLane
    rw [h4]
    simp only [hf _ _ _ h3, bindFirst_nothing h5 h6]
  | drain h3 => rw [h1] at h3; contradiction
  | empty h3 => rw [h2] at h3; contradiction
  | copy h3 => rw [h2] at h3; contradiction

theorem bindRegs_binding {i : Instr} {l : LaneIn} {b : BindRegs} (h : bindRegs i l = some b) : isBinding i = true := by
  cases i <;> first | rfl | (simp only [bindRegs] at h; contradiction)

theorem drain_done {sp : Spc} {i : Instr} {fs : Fields} {s u : State} {x : Iss} (e : Bool) (h1 : isBinding i = false) (hs : drainSpace i = some sp) (h2 : copyOp i = none)
    (h : ActUnit x fs (SyncLane i) s u) :
    ∃ t, execLanes e fs (drainLane sp) s = .next t ∧ (Stands x u → UnitDone x u t) := by
  refine act_done h e fun s l u v r => ?_
  cases r with
  | bound h3 => rw [h1] at h3; contradiction
  | nothing h3 => rw [bindRegs_binding h3] at h1; contradiction
  | drain h3 h4 h5 =>
    rw [hs] at h3; cases h3
    unfold drainLane
    simp only [h4]
    rw [if_neg]
    · rw [show unreported _ l.ln.r _ = none from ?_]
      unfold unreported
      rw [List.find?_eq_none]
      intro e he
      simp only [Bool.and_eq_true, beq_iff_eq, bne_iff_ne, ne_eq, Bool.not_eq_true']
      rintro ⟨⟨⟨⟨⟨a1, a2⟩, a3⟩, a4⟩, a5⟩, a6, a7⟩
      rcases (h5 e he a1 a2 a7).2 with h | h | h
      · exact a4 h
      · rw [h] at a5; contradiction
      · rw [Option.isNone_iff_eq_none] at a6; rw [a6] at h; contradiction
    · simp only [List.any_eq_true, not_exists, drained, List.mem_filter, Bool.and_eq_true, beq_iff_eq]
      rintro e ⟨⟨he, ⟨a1, a2⟩, a3⟩, a4⟩
      rw [(h5 e he a1 a2 a3).1] at a4; contradiction
  | empty h3 => rw [h2] at h3; contradiction
  | copy h3 => rw [h2] at h3; contradiction

theorem copy_done {sub f z : Nat} {i : Instr} {fs : Fields} {s u : State} {x : Iss} (e : Bool) (h1 : isBinding i = false) (h2 : drainSpace i = none) (hs : copyOp i = some (sub, f, z))
    (h : ActUnit x fs (SyncLane i) s u) :
    ∃ t, execLanes e fs (copyIssue sub f z) s = .next t ∧ (Stands x u → UnitDone x u t) := by
  refine act_done h e fun s l u v r => ?_
  cases r with
  | bound h3 => rw [h1] at h3; contradiction
  | nothing h3 => rw [bindRegs_binding h3] at h1; contradiction
  | drain h3 => rw [h2] at h3; contradiction
  | empty h3 h4 h5 =>
    rw [hs] at h3; cases h3
    unfold copyIssue
    unfold copyDesc at h4 h5
    simp only [h4]
    rw [if_pos]
    unfold copyLen at h5
    simpa [List.getD_eq_getElem?_getD] using h5
  | copy h3 h4 h5 h6 h7 =>
    rw [hs] at h3; cases h3
    unfold copyIssue
    unfold copyDesc at h4 h5
    simp only [h4, h6]
    rw [if_neg, if_neg (by omega)]
    · unfold enterCopy copyNew copyDesc State.fresh
      simp only [beq_iff_eq, List.getD_eq_getElem?_getD]
      congr 2
      by_cases h0 : ((List.map (fun j => l.ln.t.reg (z + j)) (List.range 8))[5]?.getD 0) = 0
      · simp only [h0, if_true]
      · simp only [h0, if_false, reduceCtorEq]
    · unfold copyLen at h5
      simpa [List.getD_eq_getElem?_getD] using h5

/-! ### Completion under conditions on the state alone -/

/-- Lanes that may all act do so one after the other. -/
theorem LanesMay.steps {x : Iss} {fs : Fields} {may : State → LaneIn → Prop} {does : State → LaneIn → State × Thread}
    {R : State → LaneIn → State → Thread → Prop} (hR : ∀ s l, may s l → R s l (does s l).1 (does s l).2) {is : List Nat} {s : State}
    (h : LanesMay x fs may (laneOver does) is s) : LaneSteps x fs R is s (lanesDo x fs (laneOver does) is s) := by
  induction is generalizing s with
  | nil => exact .nil s
  | cons i is ih =>
    obtain ⟨l, h1, h2, h3, h4, h5⟩ := h
    rw [lanesDo, h1]
    exact .step h1 h2 h3 (hR s l h4) (ih h5)

/-- A unit whose lanes may all act is one that they carry out. -/
theorem MayUnit.act {x : Iss} {fs : Fields} {may : State → LaneIn → Prop} {does : State → LaneIn → State × Thread}
    {R : State → LaneIn → State → Thread → Prop} {s : State} (h : MayUnit x fs may (laneOver does) s)
    (hR : ∀ s l, may s l → R s l (does s l).1 (does s l).2) : ActUnit x fs R s (lanesDo x fs (laneOver does) x.active s) :=
  ⟨h.issues, h.single, h.lanes.steps hR⟩

theorem beginWait_due {s : State} {k : Nat × Nat × Nat} {r : ThreadRef} {p : Phaser} {m : PhMember} (h1 : s.phaser k = some p)
    (h2 : p.member r = some m) (h3 : phLt m.wp p.phase = true) : ∃ v, (s.beginWait k r).2 = some v := by
  unfold State.beginWait
  simp [h1, h2, h3]

theorem phaser_key {s : State} {k : Nat × Nat × Nat} {p : Phaser} (h : s.phaser k = some p) : p.key = k := by
  simpa using List.find?_some h

/-- A lane that may act acts as one of the lane's rules says. -/
theorem phMay_lane {i : Instr} {s : State} {l : LaneIn} (h : phMay i s l) : PhLane i s l (phDoes i s l).1 (phDoes i s l).2 := by
  cases i <;> try exact h.elim
  case phal e d =>
    unfold phDoes
    simp only []
    split
    · next h1 h2 => exact .alloc h1 h2
    · next hn =>
      refine .none ?_
      by_contra hc
      rw [not_or] at hc
      obtain ⟨a, ha⟩ := Option.ne_none_iff_exists'.mp hc.1
      obtain ⟨b, hb⟩ := Option.ne_none_iff_exists'.mp hc.2
      exact hn a b ha hb
  case phfr e a =>
    obtain ⟨p, h1, h2⟩ := h
    unfold phDoes; simp only [h1.1]
    exact .free h1 h2
  case phrg e a b =>
    obtain ⟨p, h1, h2, h3, h4⟩ := h
    unfold phDoes; simp only [h1.1]
    exact .register h1 h2 h3 h4
  case phdr e a =>
    obtain ⟨p, h1⟩ := h
    unfold phDoes; simp only [h1.1]
    exact .deregister h1
  case phsg e a =>
    obtain ⟨r, h1⟩ | ⟨h0, p, m, h1, h2, h3, h4, h5⟩ := h
    · unfold phDoes; simp only [h1]; exact .signalled h1
    · unfold phDoes; simp only [h0, h1.1]
      exact .signal h1 (by simp [h0]) h2 h3 h4 h5
  case phwt e d a =>
    obtain ⟨r, h1⟩ | ⟨h0, p, m, h1, hk, h2, h3, h4, h5⟩ := h
    · unfold phDoes; simp only [h1]; exact .waited h1
    · unfold phDoes; simp only [h0, h1.1]
      obtain ⟨v, hv⟩ := beginWait_due hk h2 h5
      have : s.beginWait p.key l.ln.r = ((s.beginWait p.key l.ln.r).1, some v) := by rw [← hv]
      unfold phResult
      simp only [hv, Option.getD_some]
      exact .wait h1 h0 h3 h4 this
  case phsw e d a =>
    obtain ⟨r, h1⟩ | ⟨h0, hs, p, m, q, n, h1, h2, h3, h4, h5, h6, h7, h8, h9, h10, h11⟩ := h
    · unfold phDoes; simp only [h1]; exact .met h1
    · unfold phDoes; simp only [h0, h1, h9, Option.getD_some]
      obtain ⟨v, hv⟩ := beginWait_due (k := q.key) (by rw [phaser_key h9]; exact h9) h10 h11
      have : (phSignal (phArrive s l p).1 l p).beginWait q.key l.ln.r = (((phSignal (phArrive s l p).1 l p).beginWait q.key l.ln.r).1, some v) := by rw [← hv]
      unfold phResult
      simp only [hv, Option.getD_some]
      exact .together h1 h0 hs h2 h3 h4 h5 h6 h7 (by rw [← h8]) h9 this
  case phin e a =>
    obtain ⟨p, h1, h2⟩ := h
    unfold phDoes; simp only [h1.1]
    exact .init h1 h2
  case phex e a b =>
    obtain ⟨p, h1, h2⟩ := h
    unfold phDoes; simp only [h1.1]
    exact .expect h1 h2
  case phqy e d a =>
    obtain ⟨p, h1⟩ := h
    unfold phDoes; simp only [h1]
    exact .query h1

theorem syncMay_lane {i : Instr} {s : State} {l : LaneIn} (h : syncMay i s l) : SyncLane i s l (syncDoes i s l).1 (syncDoes i s l).2 := by
  obtain ⟨h1, h2⟩ | ⟨b, h1, h2, h3, h4⟩ | ⟨sp, k, h1, h2, h3⟩ | ⟨sub, f, z, k, h1, h2, h3, h4⟩ := h
  · have : copyOp i = none := by cases i <;> first | rfl | (simp only [isBinding] at h1; contradiction)
    unfold syncDoes; simp only [this]
    exact .bound h1 h2
  · have : copyOp i = none := by cases i <;> first | rfl | (simp only [bindRegs] at h1; contradiction)
    unfold syncDoes; simp only [this]
    exact .nothing h1 h2 h3 h4
  · have : copyOp i = none := by cases i <;> first | rfl | (simp only [drainSpace] at h1; contradiction)
    unfold syncDoes; simp only [this]
    exact .drain h1 h2 h3
  · unfold syncDoes; simp only [h1]
    split_ifs with h
    · exact .empty h1 h2 h
    · exact .copy h1 h2 h h3 h4

/-- Lanes that all wait for one cause. -/
theorem LanesMay.waits {x : Iss} {fs : Fields} {may : State → LaneIn → Prop} {does : State → LaneIn → State × Thread} {f : LaneFn} {why : Stall}
    (hrep : x.g.hint.hrep = none) (hf : ∀ s l, may s l → f s l = ((does s l).1, .wait (does s l).2 why)) {is : List Nat} {s : State}
    (h : LanesMay x fs may does is s) (w : Option Stall) :
    is.foldl (laneStep x fs f) { s := s, wait := w } = { s := lanesDo x fs does is s, wait := if is = [] then w else some why } := by
  induction is generalizing s w with
  | nil => rfl
  | cons i is ih =>
    obtain ⟨l, h1, h2, h3, h4, h5⟩ := h
    have : laneStep x fs f { s := s, wait := w } i =
        { s := (does s l).1.modThread x.c x.g.wslot i fun _ => (does s l).2, wait := some why } := by
      unfold laneStep
      simp only [h1, beq_eq_false_iff_ne.mpr h2, hrep, h3, hf s l h4, Bool.false_eq_true, if_false, Bool.not_true]
    rw [List.foldl_cons, this, ih h5, lanesDo, h1]
    simp

/-- A unit of such an instruction whose lanes all wait: the group stalls. -/
theorem MayUnit.stalls {x : Iss} {fs : Fields} {may : State → LaneIn → Prop} {does : State → LaneIn → State × Thread} {f : LaneFn} {why : Stall} {s : State}
    (h : MayUnit x fs may does s) (e : Bool) (hne : x.active ≠ []) (hf : ∀ s l, may s l → f s l = ((does s l).1, .wait (does s l).2 why)) :
    execLanes e fs f s = .next ((lanesDo x fs does x.active s).stallUnit x why) := by
  unfold execLanes
  rw [onIssue_eq h.issues]
  congr 1
  unfold State.perLane
  rw [h.single]
  simp only [h.lanes.waits h.single hf none, hne, if_false, Bool.false_eq_true]
  rfl

/-- What a `bind` or `bindx` asks its home for. -/
theorem bindFirst_asks {s : State} {l : LaneIn} {b : BindRegs} {t : Tgt} (h0 : regionTgt l.ln.r.core.die b.base = some t) (h1 : bindSpaces l b) (h2 : b.size ≠ 0) (h3 : b.count ≠ 0)
    (h4 : s.spanOk l.ln t (b.size * b.count) = true)
    (h5 : b.kind % 4 = 1 ∨ b.kind % 4 = 2 → ∀ w, wordTgt l.ln.r.core.die b.obj = some w →
          s.spanOk l.ln w ((b.count - 1) * b.stride + if b.kind % 4 = 1 then 4 else 8) = true) :
    bindFirst s l b = ({ s with nextId := s.nextId + 1 }, .ok (some (.bind (bindEntry s l b t)))) := by
  unfold bindFirst
  simp only [h0]
  have e1 : ((b.kind % 4 == 1 || b.kind % 4 == 2) && (wordTgt l.ln.r.core.die b.obj).isNone) = false := by
    by_contra hc
    simp only [Bool.not_eq_false, Bool.and_eq_true, Bool.or_eq_true, beq_iff_eq] at hc
    have := h1.2 hc.1
    rw [Option.isNone_iff_eq_none.mp hc.2] at this
    simp at this
  have e2 : (b.size == 0 || b.count == 0) = false := by simp [h2, h3]
  have e3 : ((b.kind % 4 == 1 || b.kind % 4 == 2) && !s.spanOk l.ln ((wordTgt l.ln.r.core.die b.obj).getD (.inG 0))
      ((b.count - 1) * b.stride + if (b.kind % 4 == 1) = true then 4 else 8)) = false := by
    by_contra hc
    simp only [Bool.not_eq_false, Bool.and_eq_true, Bool.or_eq_true, beq_iff_eq, Bool.not_eq_true'] at hc
    obtain ⟨w, hw⟩ := Option.isSome_iff_exists.mp (h1.2 hc.1)
    have := h5 hc.1 w hw
    rw [hw, Option.getD_some] at hc
    rw [this] at hc
    exact absurd hc.2 (by decide)
  simp only [e1, e2, e3, h4, Bool.false_eq_true, if_false, Bool.not_true]
  unfold State.fresh bindEntry
  simp only [Bool.or_eq_true, beq_iff_eq]
  rfl
/-- A lane that asks its home. -/
theorem ask_lane {i : Instr} {s : State} {l : LaneIn} {first : State → LaneIn → State × Except Stop (Option ReqKind)}
    (h : askMay i s l) (hf : ∀ s l b, bindRegs i l = some b → first s l = bindFirst s l b)
    (hu : ∀ s l t, isBinding i = true → bindRegs i l = none → regionTgt l.ln.r.core.die (l.ln.t.pair l.a) = some t →
      first s l = (s, .ok ((bindLoc l.ln t).map fun k => .unbind (l.ln.t.pair l.a) k))) :
    askLane .binding .bindHomeOrder first bindEnd s l = ((askDoes i s l).1, .wait (askDoes i s l).2 .binding) := by
  obtain ⟨h0, h⟩ := h
  unfold askLane askDoes
  simp only [h0]
  cases hb : bindRegs i l with
  | some b =>
    rw [hb] at h
    obtain ⟨h1, h2, h3, h4, h5⟩ := h
    obtain ⟨t, ht⟩ := Option.isSome_iff_exists.mp h1.1
    simp only [hf s l b hb, bindFirst_asks ht h1 h2 h3 (h4 t ht) h5, ht, Option.getD_some, ask, State.fresh]
  | none =>
    rw [hb] at h
    obtain ⟨h1, t, h2, h3⟩ := h
    obtain ⟨k, hk⟩ := Option.isSome_iff_exists.mp h3
    simp only [hu s l t h1 hb h2, h2, hk, Option.map_some, Option.bind_some, ask, State.fresh]

end Sys2Proof.Machine
end

