-- ==== Sys2Proof/Laws/Ctrl.lean ====
section
/-! SUPPORT. What the units do that move their threads about. -/

namespace Sys2Proof.Machine

open State

/-! ### Cores where no group waits at a `merge` -/

theorem NoMerge.modCtx {s : State} {c : CoreRef} (f : Ctx → Ctx) (h : NoMerge s c)
    (hf : ∀ k, (∀ g ∈ k.groups, g.stall ≠ .merge) → ∀ g ∈ (f k).groups, g.stall ≠ .merge) : NoMerge (s.modCtx c f) c := by
  intro k hk
  rw [core_modCtx_ctx] at hk
  cases hs : (s.core c).ctx with
  | none => rw [hs] at hk; cases hk
  | some k0 => rw [hs] at hk; cases hk; exact hf k0 (h k0 hs)

theorem NoMerge.modGroup {s : State} {c : CoreRef} (slot : Nat) (f : Group → Group) (h : NoMerge s c) (hf : ∀ g, g.stall ≠ .merge → (f g).stall ≠ .merge) :
    NoMerge (s.modGroup c slot f) c := h.modCtx _ fun k hk g hg => by
  unfold Ctx.modGroup mapIf at hg
  obtain ⟨g0, h0, rfl⟩ := List.mem_map.mp hg
  split_ifs
  · exact hf _ (hk _ h0)
  · exact hk _ h0

theorem mem_forall₂ {l l' : List Group} (h : List.Forall₂ SameGroup l l') {g : Group} (hg : g ∈ l') : ∃ g0 ∈ l, SameGroup g0 g := by
  induction h with
  | nil => cases hg
  | @cons a b _ _ h _ ih =>
    rcases List.mem_cons.mp hg with rfl | hg
    · exact ⟨a, by simp, h⟩
    · obtain ⟨g0, h0, h1⟩ := ih hg; exact ⟨g0, by simp [h0], h1⟩

theorem NoMerge.sched {s t : State} {c : CoreRef} (h : OnSched c s t) {k0 : Ctx} (hs : (s.core c).ctx = some k0) (hm : NoMerge s c) : NoMerge t c := by
  intro k hk g hg
  obtain ⟨k', hk', r⟩ := h.ctx k0 hs
  rw [hk] at hk'; cases hk'
  obtain ⟨g0, hg0, sg⟩ := mem_forall₂ r.all hg
  rcases sg.2 with e | e
  · rw [e]; exact hm k0 hs g0 hg0
  · rw [e]; simp

/-- A state with steps posted. -/
def Posts (s t : State) : Prop := ∃ l, t = { s with agenda := s.agenda ++ l }

theorem Posts.refl (s : State) : Posts s s := ⟨[], by simp⟩
theorem Posts.trans {s t u : State} (h1 : Posts s t) (h2 : Posts t u) : Posts s u := by
  obtain ⟨l, rfl⟩ := h1; obtain ⟨m, rfl⟩ := h2; exact ⟨l ++ m, by simp⟩
theorem Posts.postOnce (s : State) (i : Instr) : Posts s (s.postOnce i) := by
  unfold State.postOnce; split_ifs
  · exact Posts.refl s
  · exact ⟨[i], rfl⟩
theorem Posts.foldl {β : Type} (f : State → β → State) (h : ∀ s b, Posts s (f s b)) : ∀ (l : List β) (s : State), Posts s (l.foldl f s)
  | [], s => Posts.refl s
  | b :: l, s => (h s b).trans (Posts.foldl f h l _)
theorem Posts.core {s t : State} (h : Posts s t) (c : CoreRef) : t.core c = s.core c := by obtain ⟨l, rfl⟩ := h; rfl
theorem Posts.onCore {s t : State} (h : Posts s t) (c : CoreRef) : OnCore c s t := by
  obtain ⟨l, rfl⟩ := h
  exact ⟨rfl, ⟨l, rfl⟩, fun _ _ => rfl, rfl, fun k hk => ⟨k, hk, rfl⟩⟩
theorem Posts.wg {s t : State} (h : Posts s t) (c : CoreRef) (w : Nat) : t.wg c w = s.wg c w := by unfold State.wg; rw [h.core]

theorem mem_insertBy {α : Type} {le : α → α → Bool} {a x : α} : ∀ {l : List α}, a ∈ insertBy le x l → a = x ∨ a ∈ l
  | [], h => by simpa [insertBy] using h
  | y :: l, h => by
    unfold insertBy at h
    split_ifs at h
    · rcases List.mem_cons.mp h with rfl | h
      · simp
      · rcases mem_insertBy h with rfl | h <;> simp_all
    · simpa using h

theorem mem_sortBy {α : Type} {le : α → α → Bool} {a : α} {l : List α} (h : a ∈ sortBy le l) : a ∈ l := by
  have : ∀ (l acc : List α), a ∈ l.foldl (fun acc x => insertBy le x acc) acc → a ∈ l ∨ a ∈ acc := by
    intro l
    induction l with
    | nil => exact fun acc h => .inr h
    | cons x l ih =>
      intro acc h
      rcases ih _ h with h | h
      · exact .inl (List.mem_cons_of_mem _ h)
      · rcases mem_insertBy h with rfl | h <;> simp_all
  simpa using this l [] h

theorem mergePair_none {k : Ctx} (h : ∀ g ∈ k.groups, g.stall ≠ .merge) : mergePair k = none := by
  unfold mergePair
  rw [List.findSome?_eq_none_iff]
  intro a ha
  rw [if_pos (by simpa using h a (mem_sortBy ha))]

theorem mergePairs_none {s : State} {c : CoreRef} (h : NoMerge s c) : ∀ n, mergePairs c n s = s
  | 0 => rfl
  | n + 1 => by
    unfold mergePairs
    rw [show (s.core c).ctx.bind mergePair = none from by
      cases hs : (s.core c).ctx with
      | none => rfl
      | some k => exact mergePair_none (h k hs)]

theorem mergeJoin_none {s : State} {c : CoreRef} (h : NoMerge s c) : s.mergeJoin c = s := by
  unfold mergeJoin
  simp only [mergePairs_none h]
  cases hs : (s.core c).ctx with
  | none => rfl
  | some k =>
    have e : (k.groups.filter fun g => g.stall == .merge && (g.st == .waiting || g.st == .pWaiting)) = [] := by
      rw [List.filter_eq_nil_iff]; intro g hg; simp [h k hs g hg]
    simp only [e, List.foldl_nil]

/-- Threads that enter the seedbed where no group waits for them only bring in the former's steps (R28, R31). -/
theorem seeded_posts {s : State} {c : CoreRef} (h : NoMerge s c) : Posts s (s.seeded c) := by
  unfold seeded
  simp only [mergeJoin_none h]
  cases hs : (s.core c).ctx with
  | none => exact Posts.refl s
  | some k =>
    simp only []
    have : Posts s ((seedbed k).foldl (fun s x => if x.2.aged = true then s else s.postOnce (.formAgeExpiry c x.1 x.2.tid)) s) :=
      Posts.foldl _ (fun s b => by split_ifs; exacts [Posts.refl s, Posts.postOnce _ _]) _ _
    split_ifs
    · exact this
    · exact this.trans (Posts.postOnce _ _)

/-- Threads leave their group (R25, R28). -/
theorem leave_spec {s : State} {c : CoreRef} {slot : Nat} {k : Ctx} {g : Group} (out : List Nat) (st : ThreadStatus) (hk : (s.core c).ctx = some k)
    (hg : k.group slot = some g) (hm : NoMerge s c) :
    OnCore c s (s.leave c slot out st) ∧
    (∀ w, w ≠ g.wslot → (s.leave c slot out st).wg c w = s.wg c w) ∧
    (∀ w, s.wg c g.wslot = some w → ∃ ths, (s.leave c slot out st).wg c g.wslot = some { w with threads := ths }) ∧
    (∀ i, (s.leave c slot out st).thread c g.wslot i =
      if i ∈ out then (s.thread c g.wslot i).map fun th => { th.closeWindows with status := st, age := s.clk, aged := false } else s.thread c g.wslot i) ∧
    ((g.members.filter fun t => !out.contains t) = [] → (((s.leave c slot out st).core c).ctx.bind fun k => k.group slot) = none) ∧
    ((g.members.filter fun t => !out.contains t) ≠ [] → ∃ g', (((s.leave c slot out st).core c).ctx.bind fun k => k.group slot) = some g' ∧
      g'.members = (g.members.filter fun t => !out.contains t) ∧ g'.wslot = g.wslot ∧ g'.age = g.age ∧ g'.sched = g.sched ∧ g'.hint = g.hint) := by
  set F : Thread → Thread := fun th => { th.closeWindows with status := st, age := s.clk, aged := false } with hF
  set s1 := out.foldl (fun s t => s.modThread c g.wslot t F) s with hs1
  set M : Group → Group := fun x => { x with members := x.members.filter fun t => !out.contains t } with hM
  set s2 := s1.modGroup c slot M with hs2
  set D : Ctx → Ctx := fun k => { k.dropGroup slot with rot := if g.st == .running then k.rot.set g.sched g.age else k.rot } with hD
  set s3 := if (g.members.filter fun t => !out.contains t).isEmpty then s2.modCtx c D else s2 with hs3
  have clk1 : ∀ (l : List Nat) (y : State), (l.foldl (fun (s : State) t => s.modThread c g.wslot t fun x => { x.closeWindows with status := st, age := s.clk, aged := false }) y) =
      l.foldl (fun s t => s.modThread c g.wslot t fun x => { x.closeWindows with status := st, age := y.clk, aged := false }) y := by
    intro l
    induction l with
    | nil => intro y; rfl
    | cons a l ih => intro y; rw [List.foldl_cons, List.foldl_cons, ih]; rfl
  have e : s.leave c slot out st = (s3.resched c).seeded c := by
    unfold leave; rw [hk]; simp only [Option.bind_some, hg]
    rw [clk1]
  have f1 : OnCore c s s1 := foldl_modThread_onCore c _ F _ _
  have f2 : OnCore c s1 s2 := OnCore.modCtx c s1 (fun k => k.modGroup slot M) fun _ => rfl
  have f3 : OnCore c s2 s3 := by
    rw [hs3]; split_ifs
    · exact OnCore.modCtx c s2 D fun _ => rfl
    · exact OnCore.refl c s2
  obtain ⟨k1, hk1, -⟩ := f1.ctx k hk
  have hg1 : k1.group slot = some g := by
    have := group_foldl_modThread c g.wslot F slot out s
    rw [← hs1, hk1, hk] at this
    simpa [hg] using this
  have hk2 : (s2.core c).ctx = some (k1.modGroup slot M) := by simp [hs2, State.modGroup, hk1]
  have hg2 : (k1.modGroup slot M).group slot = some (M g) := by rw [Ctx.group_modGroup k1 _ _ M (fun _ => rfl), if_pos rfl, hg1]; rfl
  have n1 : NoMerge s1 c := by
    intro k' hk' y hy
    rw [hk1] at hk'; cases hk'
    have hgr : k1.groups = k.groups := by
      have : ∀ (l : List Nat) (s : State) (k : Ctx), (s.core c).ctx = some k → ∃ k', ((l.foldl (fun s t => s.modThread c g.wslot t F) s).core c).ctx = some k' ∧ k'.groups = k.groups := by
        intro l
        induction l with
        | nil => intro s k h; exact ⟨k, h, rfl⟩
        | cons a l ih =>
          intro s k h
          obtain ⟨k', h1, h2⟩ := ih (s.modThread c g.wslot a F) (k.modWg g.wslot fun w => w.modThread a F) (by
            unfold State.modThread State.modWg; rw [core_modCtx_ctx, h]; rfl)
          exact ⟨k', h1, h2⟩
      obtain ⟨k', h1, h2⟩ := this out s k hk
      rw [← hs1, hk1] at h1; cases h1; exact h2
    rw [hgr] at hy
    exact hm k hk y hy
  have n2 : NoMerge s2 c := n1.modGroup slot M fun _ h => h
  have n3 : NoMerge s3 c := by
    rw [hs3]; split_ifs
    · exact n2.modCtx D fun k h g hg => h g (List.mem_of_mem_filter hg)
    · exact n2
  obtain ⟨k3, hk3, -⟩ := f3.ctx _ hk2
  have g4 := resched_onSched s3 c
  have n4 : NoMerge (s3.resched c) c := n3.sched g4 hk3
  have p5 := seeded_posts n4
  obtain ⟨k4, hk4, r4⟩ := g4.ctx k3 hk3
  have wgs3 : ∀ w, (s.leave c slot out st).wg c w = s1.wg c w := fun w => by
    rw [e, p5.wg, g4.wg_eq w (by simp [hk3])]
    have h2 : s2.wg c w = s1.wg c w := by simp [State.wg, hk1, hk2]
    rw [← h2, hs3]
    split_ifs
    · simp [State.wg, hk2, hD, Ctx.wg, Ctx.dropGroup]
    · rfl
  refine ⟨?_, ?_, ?_, ?_, ?_, ?_⟩
  · rw [e]; exact (((f1.trans f2).trans f3).trans g4.frame).trans (p5.onCore c)
  · intro w hw; rw [wgs3, hs1, wg_foldl_modThread c _ _ F hw]
  · intro w hw; rw [wgs3]; exact wg_foldl_modThread_self c _ F _ s w hw
  · intro i
    rw [thread_bind, wgs3, ← thread_bind, hs1, thread_foldl_modThread c _ F (fun _ => rfl) fun th => by simp [hF, Thread.closeWindows, Function.comp_def]]
  · intro hn
    rw [e, p5.core, hk4, Option.bind_some]
    refine r4.none slot ?_
    have : s3 = s2.modCtx c D := by rw [hs3, hn]; rfl
    rw [this, core_modCtx_ctx, hk2] at hk3
    cases hk3
    simp [hD, Ctx.group, Ctx.dropGroup]
  · intro hn
    have h3 : s3 = s2 := by rw [hs3, if_neg (by simpa [List.isEmpty_iff] using hn)]
    rw [h3, hk2] at hk3; cases hk3
    obtain ⟨g', hg', sg⟩ := r4.groups slot _ hg2
    refine ⟨g', by rw [e, p5.core, hk4]; exact hg', ?_⟩
    rw [sg.1]; exact ⟨rfl, rfl, rfl, rfl, rfl⟩

/-! ### The end of a unit, in general -/

/-- The end of a unit for the group that stands in its slot: at most its members' windows close, and its run ends where it must. -/
theorem endUnit_spec {x : Iss} {a : State} {k : Ctx} {g : Group} {w : Workgroup} (e stop : Bool) (hk : (a.core x.c).ctx = some k)
    (hg : k.group x.g.slot = some g) (ha : g.age = x.g.age) (hs : g.wslot = x.g.wslot) (hw : a.wg x.c x.g.wslot = some w) :
    OnCore x.c a (a.endUnit x e stop .none) ∧
    (∀ w, w ≠ x.g.wslot → (a.endUnit x e stop .none).wg x.c w = a.wg x.c w) ∧
    (∃ ths, (a.endUnit x e stop .none).wg x.c x.g.wslot = some { w with threads := ths }) ∧
    (∀ i, i ∉ g.members → (a.endUnit x e stop .none).thread x.c x.g.wslot i = a.thread x.c x.g.wslot i) ∧
    (∀ i th, a.thread x.c x.g.wslot i = some th →
      ∃ o, (a.endUnit x e stop .none).thread x.c x.g.wslot i = some { th with owed := o } ∧ o.map Owed.closed = th.owed.map Owed.closed) ∧
    (∃ g', (((a.endUnit x e stop .none).core x.c).ctx.bind fun k => k.group x.g.slot) = some g' ∧ g'.members = g.members ∧ g'.wslot = g.wslot ∧
      g'.age = g.age ∧ g'.sched = g.sched ∧ g'.hint = {} ∧ ((e || stop) = true → g'.run = 0 ∧ g'.mid = false)) := by
  have hkw : k.wg g.wslot = some w := by rw [hs]; simpa [State.wg, hk] using hw
  set run := x.g.run + x.g.hint.words + 1 with hrun
  set H : Group → Group := fun g => { g with hint := {}, fillOk := false, granted := 0, run := run, mid := true, turn := a.free } with hH
  set b := a.modGroup x.c x.g.slot H with hb
  have f2 : OnCore x.c a b := OnCore.modCtx x.c a (fun k => k.modGroup x.g.slot H) fun _ => rfl
  have hk2 : (b.core x.c).ctx = some (k.modGroup x.g.slot H) := by simp [hb, State.modGroup, hk]
  have hg2 : (k.modGroup x.g.slot H).group x.g.slot = some (H g) := by
    rw [Ctx.group_modGroup k _ _ H (fun _ => rfl), if_pos rfl, hg]; rfl
  have w2 : ∀ w, b.wg x.c w = a.wg x.c w := fun w => by simp [State.wg, hk2, hk]
  have tb : ∀ i, b.thread x.c x.g.wslot i = a.thread x.c x.g.wslot i := fun i => by rw [thread_bind, w2, ← thread_bind]
  set stopNow := (e || stop || decide (24 ≤ run) ||
    (((g.members.head?).bind fun t => w.thread t).map fun (t : Thread) => t.pc) != some x.next) with hstop
  have eq : a.endUnit x e stop .none = if stopNow then b.endRun x.c x.g.slot else b := by
    unfold endUnit
    simp only [hk, Option.bind_some, hg, hkw, Option.map_some, ha, bne_self_eq_false, Bool.false_eq_true, if_false]
    rfl
  rw [eq]
  by_cases hst : stopNow = true
  · rw [if_pos hst]
    have hwH : (H g).wslot = x.g.wslot := hs
    obtain ⟨f3, w3, s3, t3, g', n, hg', sg⟩ := endRun_spec b x.c x.g.slot hk2 hg2
    rw [hwH] at w3 s3 t3
    refine ⟨f2.trans f3, fun w hne => by rw [w3 w hne, w2], s3 w (by rw [w2]; exact hw), ?_, ?_, ?_⟩
    · intro i hi; rw [t3 i, if_neg hi, tb]
    · intro i th hth
      rw [t3 i, tb, hth]
      split_ifs
      · exact ⟨th.owed.map Owed.closed, rfl, by simp [Owed.closed, Function.comp_def]⟩
      · exact ⟨th.owed, rfl, rfl⟩
    · refine ⟨g', hg', ?_⟩
      rw [sg.1]; exact ⟨rfl, rfl, rfl, rfl, rfl, fun _ => ⟨rfl, rfl⟩⟩
  · rw [if_neg hst]
    refine ⟨f2, fun w hne => w2 w, ⟨w.threads, by rw [w2, hw]⟩, fun i _ => tb i, fun i th hth => ⟨th.owed, by rw [tb, hth], rfl⟩, ?_⟩
    refine ⟨H g, by rw [hk2]; exact hg2, rfl, rfl, rfl, rfl, rfl, fun h => ?_⟩
    simp only [Bool.or_eq_true] at h
    simp only [hstop, Bool.or_eq_true] at hst
    rcases h with h | h <;> simp [h] at hst

/-- A unit that ends its run leaves it over. -/
theorem runOver_endUnit {x : Iss} {u : State} (e stop : Bool) (h : Stands x u) (hs : (e || stop) = true) : RunOver x ((u.advance x []).endUnit x e stop .none) := by
  obtain ⟨k, g, hk, hg, hm, hw, ha, -⟩ := h.group
  obtain ⟨w, hwg⟩ := Option.isSome_iff_exists.mp h.wg
  obtain ⟨f1, -, s1, -, p1⟩ := advance_spec u x
  obtain ⟨k1, hk1, -⟩ := f1.ctx k hk
  have hg1 : k1.group x.g.slot = some g := by simpa [hk1, hk, hg] using p1
  obtain ⟨ths, hw1⟩ := s1 w hwg
  obtain ⟨-, -, -, -, -, g', hg', -, -, -, -, -, hr⟩ := endUnit_spec e stop hk1 hg1 ha hw hw1
  exact ⟨g', hg', (hr hs).1, (hr hs).2⟩

/-! ### Threads that leave at the end of a unit -/

theorem filter_not_contains (l out : List Nat) : (l.filter fun t => !out.contains t) = l.filter fun i => i ∉ out := by
  congr 1; funext t; simp

/-- The parting of a group's members at the end of a unit, from the state in which every member's own part is done. -/
theorem parted_of {x : Iss} {u a b : State} {f : Nat → Thread → Thread} {out : List Nat} {st : ThreadStatus} (e stop : Bool) (hu : Stands x u) (hm : NoMerge a x.c)
    (hf : ∀ i th, (f i th).owed = th.owed) (fa : OnCore x.c u a) (wa : ∀ w, w ≠ x.g.wslot → a.wg x.c w = u.wg x.c w)
    (sa : ∀ w, u.wg x.c x.g.wslot = some w → ∃ ths, a.wg x.c x.g.wslot = some { w with threads := ths })
    (ta : ∀ i, a.thread x.c x.g.wslot i = if i ∈ x.g.members then (u.thread x.c x.g.wslot i).map (f i) else u.thread x.c x.g.wslot i)
    (ga : ((a.core x.c).ctx.bind fun k => k.group x.g.slot) = (u.core x.c).ctx.bind fun k => k.group x.g.slot) (hsub : ∀ i ∈ out, i ∈ x.g.members)
    (hb : b = a.leave x.c x.g.slot out st ∨ (b = a ∧ out = [] ∧ x.g.members ≠ [])) : Parted x out st f u (b.endUnit x e stop .none) := by
  obtain ⟨k, g, hk, hg, hgm, hgw, hga, hgs⟩ := hu.group
  obtain ⟨w, hwg⟩ := Option.isSome_iff_exists.mp hu.wg
  obtain ⟨k1, hk1, -⟩ := fa.ctx k hk
  have hg1 : k1.group x.g.slot = some g := by simpa [hk1, hk, hg] using ga
  obtain ⟨ths, hw1⟩ := sa w hwg
  have clk : a.clk = u.clk := by rw [fa.rest]
  -- the state after the members have left
  obtain ⟨fb, wb, sb, tb, nb, mb⟩ : OnCore x.c a b ∧ (∀ w, w ≠ x.g.wslot → b.wg x.c w = a.wg x.c w) ∧
      (∀ w, a.wg x.c x.g.wslot = some w → ∃ ths, b.wg x.c x.g.wslot = some { w with threads := ths }) ∧
      (∀ i, b.thread x.c x.g.wslot i =
        if i ∈ out then (a.thread x.c x.g.wslot i).map fun th => { th.closeWindows with status := st, age := u.clk, aged := false } else a.thread x.c x.g.wslot i) ∧
      ((x.g.members.filter fun i => i ∉ out) = [] → ((b.core x.c).ctx.bind fun k => k.group x.g.slot) = none) ∧
      ((x.g.members.filter fun i => i ∉ out) ≠ [] → ∃ g', ((b.core x.c).ctx.bind fun k => k.group x.g.slot) = some g' ∧
        g'.members = (x.g.members.filter fun i => i ∉ out) ∧ g'.wslot = x.g.wslot ∧ g'.age = x.g.age ∧ g'.sched = x.g.sched) := by
    rcases hb with rfl | ⟨rfl, rfl, hne⟩
    · obtain ⟨l1, l2, l3, l4, l5, l6⟩ := leave_spec (slot := x.g.slot) out st hk1 hg1 hm
      rw [hgw] at l2 l3 l4 l6
      rw [hgm, filter_not_contains] at l5 l6
      refine ⟨l1, l2, l3, fun i => by rw [l4, clk], l5, fun h => ?_⟩
      obtain ⟨g', h1, h2, h3, h4, h5, -⟩ := l6 h
      exact ⟨g', h1, h2, h3, by rw [h4, hga], by rw [h5, hgs]⟩
    · refine ⟨OnCore.refl _ _, fun _ _ => rfl, fun w h => ⟨w.threads, h⟩, fun i => by simp, fun h => ?_, fun _ => ?_⟩
      · exfalso; exact hne (by simpa using h)
      · exact ⟨g, by simp [hk1, hg1], by simp [hgm], hgw, hga, hgs⟩
  obtain ⟨k2, hk2, -⟩ := fb.ctx k1 hk1
  obtain ⟨ths2, hw2⟩ := sb _ hw1
  have tid : ∀ i, i ∉ x.g.members → b.thread x.c x.g.wslot i = u.thread x.c x.g.wslot i := fun i hi => by
    rw [tb, if_neg fun h => hi (hsub i h), ta, if_neg hi]
  have tm : ∀ i ∈ x.g.members, ∀ th, u.thread x.c x.g.wslot i = some th → b.thread x.c x.g.wslot i =
      some (if i ∈ out then { (f i th).closeWindows with status := st, age := u.clk, aged := false } else f i th) := fun i hi th h => by
    rw [tb, ta, if_pos hi, h]; split_ifs <;> rfl
  by_cases hall : (x.g.members.filter fun i => i ∉ out) = []
  · have hn := nb hall
    have hout : ∀ i ∈ x.g.members, i ∈ out := by simpa using hall
    have e1 : b.endUnit x e stop .none = b := by
      unfold endUnit
      simp only [hk2, Option.bind_some] at hn ⊢
      simp [hn]
    rw [e1]
    refine ⟨fa.trans fb, fun w hw => by rw [wb w hw, wa w hw], fun w' h' => ?_, tid, fun i hi th h => ?_, fun _ => hn, fun ⟨i, h1, h2⟩ => absurd (hout i h1) h2⟩
    · obtain ⟨t1, h1⟩ := sa w' h'; obtain ⟨t2, h2⟩ := sb _ h1; exact ⟨t2, h2⟩
    · refine ⟨th.closeWindows.owed, ?_, by simp [Thread.closeWindows, Owed.closed, Function.comp_def]⟩
      rw [tm i hi th h, if_pos (hout i hi), if_pos (hout i hi)]
      simp [Thread.closeWindows, hf]
  · obtain ⟨g2, hg2, m2, w2, a2, s2⟩ := mb hall
    rw [hk2, Option.bind_some] at hg2
    obtain ⟨fc, wc, ⟨ths3, sc⟩, nc, tc, g3, hg3, m3, w3, a3, s3, h3, -⟩ := endUnit_spec e stop hk2 hg2 a2 w2 hw2
    refine ⟨(fa.trans fb).trans fc, fun w hw => by rw [wc w hw, wb w hw, wa w hw], fun w' h' => ?_, fun i hi => ?_, fun i hi th h => ?_, fun h => ?_, fun _ => ?_⟩
    · rw [hwg] at h'; cases h'; exact ⟨ths3, sc⟩
    · rw [nc i (by rw [m2]; simp [hi]), tid i hi]
    · obtain ⟨o, h1, h2⟩ := tc i _ (tm i hi th h)
      refine ⟨o, ?_, ?_⟩
      · rw [h1]; split_ifs <;> rfl
      · rw [h2]; split_ifs <;> simp [hf, Thread.closeWindows, Owed.closed, Function.comp_def]
    · exact absurd (by simpa using h) hall
    · exact ⟨g3, hg3, by rw [m3, m2], by rw [w3, w2], by rw [a3, a2], by rw [s3, s2], h3⟩

end Sys2Proof.Machine
end

