-- ==== Sys2Proof/Laws/Memory.lean ====
section
/-! SUPPORT. What every memory operation can do: reads after writes, and the canonical form kept. -/

namespace Sys2Proof.Machine

variable {α : Type} {d : α}

/-! ### The canonical form -/

theorem sset_keys_above [DecidableEq α] {m : List (Nat × α)} {i n : Nat} {x : α} (h : ∀ kv ∈ m, n < kv.1) (hi : n < i) :
    ∀ kv ∈ sset d m i x, n < kv.1 := by
  induction m with
  | nil => intro kv; simp only [sset]; split <;> simp_all
  | cons p rest ih =>
    obtain ⟨k, v⟩ := p
    have hk : n < k := h (k, v) (by simp)
    have hr := ih fun kv hkv => h kv (by simp [hkv])
    intro kv hkv
    simp only [sset] at hkv
    split_ifs at hkv
    · exact h kv hkv
    · rcases List.mem_cons.mp hkv with rfl | hkv
      · exact hi
      · exact h kv hkv
    · exact h kv (List.mem_cons_of_mem _ hkv)
    · rcases List.mem_cons.mp hkv with rfl | hkv
      · exact hk
      · exact h kv (List.mem_cons_of_mem _ hkv)
    · rcases List.mem_cons.mp hkv with rfl | hkv
      · exact hk
      · exact hr kv hkv

/-- Changing one value keeps the canonical form. -/
theorem sset_wf [DecidableEq α] {m : List (Nat × α)} (h : SparseWf d m) (i : Nat) (x : α) : SparseWf d (sset d m i x) := by
  induction m with
  | nil => simp only [sset]; split <;> simp_all [SparseWf]
  | cons p rest ih =>
    obtain ⟨k, v⟩ := p
    obtain ⟨hp, hd⟩ := h
    obtain ⟨hk, hr⟩ := List.pairwise_cons.mp hp
    have hd' : ∀ kv ∈ rest, kv.2 ≠ d := fun kv hkv => hd kv (by simp [hkv])
    have hv : v ≠ d := hd (k, v) (by simp)
    simp only [sset]
    split_ifs with h1 h2 h3 h4
    · exact ⟨hp, hd⟩
    · refine ⟨List.pairwise_cons.mpr ⟨?_, hp⟩, by simpa [h2] using hd⟩
      rintro kv hkv
      rcases List.mem_cons.mp hkv with rfl | hkv
      · exact h1
      · exact h1.trans (hk kv hkv)
    · exact ⟨hr, hd'⟩
    · exact ⟨List.pairwise_cons.mpr ⟨hk, hr⟩, by simpa [h4] using hd'⟩
    · obtain ⟨ip, id⟩ := ih ⟨hr, hd'⟩
      refine ⟨List.pairwise_cons.mpr ⟨?_, ip⟩, ?_⟩
      · exact sset_keys_above hk (by omega)
      · intro kv hkv
        rcases List.mem_cons.mp hkv with rfl | hkv
        · exact hv
        · exact id kv hkv

/-- Clearing a range keeps the canonical form. -/
theorem sclear_wf {m : List (Nat × α)} (h : SparseWf d m) (lo n : Nat) : SparseWf d (sclear m lo n) :=
  ⟨h.1.filter _, fun kv hkv => h.2 kv (List.mem_of_mem_filter hkv)⟩

/-- Keeping some of the entries keeps the canonical form. -/
theorem filter_wf {m : List (Nat × α)} (h : SparseWf d m) (p : Nat × α → Bool) : SparseWf d (m.filter p) :=
  ⟨h.1.filter _, fun kv hkv => h.2 kv (List.mem_of_mem_filter hkv)⟩

/-- Writing bytes keeps a memory's canonical form. -/
theorem mwrite_wf {m : Mem} (h : Memory.wf m) (a n v : Nat) : Memory.wf (mwrite m a n v) := by
  induction n generalizing m a v with
  | zero => exact h
  | succ n ih => exact ih (sset_wf h a _) _ _

/-! ### Reads after writes -/

theorem sget_below {m : List (Nat × α)} {i : Nat} (h : ∀ kv ∈ m, i < kv.1) : sget d m i = d := by
  cases m with
  | nil => rfl
  | cons p rest =>
    obtain ⟨k, v⟩ := p
    have : i < k := h (k, v) (by simp)
    simp only [sget]
    rw [if_neg (by omega), if_pos this]

/-- A read of the key written gives the value written. -/
theorem sget_sset_same [DecidableEq α] {m : List (Nat × α)} (h : SparseWf d m) (i : Nat) (x : α) : sget d (sset d m i x) i = x := by
  induction m with
  | nil => simp only [sset]; split <;> simp_all [sget]
  | cons p rest ih =>
    obtain ⟨k, v⟩ := p
    obtain ⟨hk, hr⟩ := List.pairwise_cons.mp h.1
    simp only [sset]
    split_ifs with h1 h2 h3 h4
    · simp only [sget]; rw [if_neg (by omega), if_pos h1, h2]
    · simp [sget]
    · subst h3; rw [h4]; exact sget_below hk
    · subst h3; simp [sget]
    · simp only [sget]; rw [if_neg (by omega), if_neg (by omega)]
      exact ih ⟨hr, fun kv hkv => h.2 kv (by simp [hkv])⟩

/-- A read of another key gives what it gave. -/
theorem sget_sset_ne [DecidableEq α] {m : List (Nat × α)} (h : SparseWf d m) {i j : Nat} (hij : i ≠ j) (x : α) :
    sget d (sset d m i x) j = sget d m j := by
  induction m with
  | nil => simp only [sset]; split <;> simp [sget, hij]
  | cons p rest ih =>
    obtain ⟨k, v⟩ := p
    obtain ⟨hk, hr⟩ := List.pairwise_cons.mp h.1
    have ih := ih ⟨hr, fun kv hkv => h.2 kv (by simp [hkv])⟩
    simp only [sset]
    split_ifs with h1 h2 h3 h4
    · rfl
    · simp only [sget]; split_ifs <;> first | rfl | omega
    · subst h3
      simp only [sget, if_neg hij]
      split_ifs with h5
      · exact sget_below fun kv hkv => h5.trans (hk kv hkv)
      · rfl
    · subst h3; simp [sget, hij]
    · simp only [sget, ih]

/-- A register read after it is written gives the low word of the value. -/
theorem wget_wset_same {m : Words} (h : SparseWf 0 m) (i v : Nat) : wget (wset m i v) i = v % 2 ^ 32 := by
  rw [wget, wset, sget_sset_same h, BitVec.toNat_ofNat]

/-- Writing a register leaves the others. -/
theorem wget_wset_ne {m : Words} (h : SparseWf 0 m) {i j : Nat} (hij : i ≠ j) (v : Nat) : wget (wset m i v) j = wget m j := by
  rw [wget, wset, sget_sset_ne h hij, wget]

/-- Writing a register keeps the registers' canonical form. -/
theorem wset_wf {m : Words} (h : SparseWf 0 m) (i v : Nat) : SparseWf 0 (wset m i v) := sset_wf h i _

/-- A byte outside the bytes written reads as before. -/
theorem mbyte_mwrite_outside {m : Mem} (h : Memory.wf m) {a n b : Nat} (v : Nat) (hb : b < a ∨ a + n ≤ b) :
    mbyte (mwrite m a n v) b = mbyte m b := by
  induction n generalizing m a v with
  | zero => rfl
  | succ n ih =>
    simp only [mwrite]
    rw [ih (sset_wf h a _) _ (by omega)]
    exact sget_sset_ne h (by omega) _

/-- The bytes written read as the value's bytes. -/
theorem mread_mwrite_same {m : Mem} (h : Memory.wf m) (a n v : Nat) : mread (mwrite m a n v) a n = v % 256 ^ n := by
  induction n generalizing m a v with
  | zero => simp [mread, Nat.mod_one]
  | succ n ih =>
    simp only [mwrite, mread]
    rw [ih (sset_wf h a _), mbyte_mwrite_outside (sset_wf h a _) _ (by omega), mbyte, sget_sset_same h]
    have := Nat.mod_add_div v (256 ^ (n + 1))
    rw [pow_succ, mul_comm (256 ^ n) 256, Nat.mod_mul]
    simp

/-- Reset memories are in canonical form. -/
theorem reset_memories_wf : Memory.wf State.reset.gmem ∧ Memory.wf State.reset.dmem := by
  refine ⟨⟨List.Pairwise.nil, ?_⟩, List.Pairwise.nil, ?_⟩ <;> intro kv hkv <;> cases hkv

end Sys2Proof.Machine
end

