-- ==== Sys2Proof/Laws/Entry.lean ====
section
/-! SUPPORT. A window that moves, and a link that is pushed. -/

namespace Sys2Proof.Machine

open State

/-- A word is below 2^32. -/
theorem wget_lt (m : Words) (i : Nat) : wget m i < 2 ^ 32 := by unfold wget; exact (sget 0 m i).isLt

/-- A fold of words is canonical and reads as its function. -/
theorem wfold_spec (f : Nat → Nat) : ∀ n, SparseWf 0 ((List.range n).foldl (fun (m : Words) i => wset m i (f i)) []) ∧
    ∀ i < n, wget ((List.range n).foldl (fun (m : Words) i => wset m i (f i)) []) i = f i % 2 ^ 32
  | 0 => ⟨by simp [SparseWf], by omega⟩
  | n + 1 => by
    obtain ⟨h1, h2⟩ := wfold_spec f n
    rw [List.range_succ, List.foldl_append]
    refine ⟨wset_wf h1 _ _, fun i hi => ?_⟩
    show wget (wset _ n (f n)) i = _
    by_cases e : n = i
    · subst e; exact wget_wset_same h1 _ _
    · rw [wget_wset_ne h1 e, h2 i (by omega)]

/-- A register of the old window among the slots that a move knows. -/
theorem find_slot (f : Nat → Nat) (wb : Nat) {n i : Nat} (h : i < n) (rest : List (Nat × Nat)) :
    (((List.range n).map fun i => (wb + i, f i)) ++ rest).find? (fun p => p.1 == wb + i) = some (wb + i, f i) := by
  have : ((List.range n).map fun i => (wb + i, f i)).find? (fun p => p.1 == wb + i) = some (wb + i, f i) := by
    induction n with
    | zero => omega
    | succ n ih =>
      rw [List.range_succ, List.map_append, List.find?_append]
      by_cases hi : i < n
      · rw [ih hi]; rfl
      · have hn : i = n := by omega
        subst hn
        rw [List.find?_eq_none.mpr]
        · simp
        · intro p hp
          obtain ⟨j, hj, rfl⟩ := List.mem_map.mp hp
          have := List.mem_range.mp hj
          simp; omega
  rw [List.find?_append, this]; rfl

/-- The thread that a moved window leaves. -/
theorem moveWindow_thread {s u : State} {ln : Lane} {wb c : Nat} {t : Thread} (h : s.moveWindow ln wb c = (u, .ok t)) :
    t = { ln.t with v := t.v, wb := wb, c := c, spare := [] } ∧ SparseWf 0 t.v ∧
      ∀ i < c, ln.t.wb ≤ wb + i → wb + i < ln.t.wb + ln.t.c → t.reg i = ln.t.reg (wb + i - ln.t.wb) := by
  unfold moveWindow at h
  simp only [] at h
  split at h
  · cases h
  · split at h
    · cases h
    · cases h
      refine ⟨rfl, (wfold_spec _ c).1, fun i hi h1 h2 => ?_⟩
      unfold Thread.reg
      simp only []
      obtain ⟨j, hj⟩ := Nat.exists_eq_add_of_le h1
      rw [(wfold_spec _ c).2 i hi, hj, List.append_assoc, find_slot (fun i => wget ln.t.v i) ln.t.wb (by omega), Nat.add_sub_cancel_left]
      exact Nat.mod_eq_of_lt (wget_lt _ _)

/-- The thread that a pushed link leaves. -/
theorem pushLink_thread {s u : State} {ln : Lane} {pc n : Nat} {t0 t : Thread} (h : s.pushLink ln t0 pc n = (u, .ok t)) : t = { t0 with links := t0.links + 1 } := by
  unfold pushLink at h
  simp only [] at h
  split at h
  · cases h
  · cases h; rfl

end Sys2Proof.Machine
end

