-- ==== Sys2Proof/Laws/Events.lean ====
section
/-! SUPPORT. The conditions of the steps that are no instruction words. -/

namespace Sys2Proof.Machine

open State

/-- Changes of threads leave the clock. -/
theorem foldl_modThread_clk (c : CoreRef) (w : Nat) (f : Thread → Thread) (l : List Nat) (s : State) :
    (l.foldl (fun s t => s.modThread c w t f) s).clk = s.clk := by
  induction l generalizing s with
  | nil => rfl
  | cons a l ih => rw [List.foldl_cons, ih]; simp

/-- No earlier request stands in the way. -/
theorem no_earlier {s : State} {id : Nat} {q : Request} (h3 : ∀ y ∈ s.reqs, isBindReq y = true → y.id < id → y.answer = none → y.t.core = q.t.core → y.t.gen = q.t.gen → y.t.wslot ≠ q.t.wslot) :
    (s.reqs.any fun y => decide (y.id < id) && y.answer.isNone && y.t.core == q.t.core && y.t.gen == q.t.gen && y.t.wslot == q.t.wslot && isBindReq y) = false := by
  rw [List.any_eq_false]
  intro y hy
  have := h3 y hy
  simp only [Bool.and_eq_true, decide_eq_true_eq, beq_iff_eq, Option.isNone_iff_eq_none, not_and]
  rintro ⟨⟨⟨⟨a, b⟩, c⟩, d⟩, e⟩ f
  exact this f a b c d e

/-- The order of a request by its fields. -/
theorem order_eq {s : State} {id : Nat} {q : Request} (h1 : (s.reqs.find? fun q => q.id == id && q.answer.isNone) = some q)
    (h3 : ∀ y ∈ s.reqs, isBindReq y = true → y.id < id → y.answer = none → y.t.core = q.t.core → y.t.gen = q.t.gen → y.t.wslot ≠ q.t.wslot) :
    execBindHomeOrder id s = .next (answerBind s q) := by
  unfold execBindHomeOrder
  rw [h1]
  simp only []
  rw [if_neg]
  have := no_earlier h3
  rw [← Bool.not_eq_true] at this
  exact this

/-- What the head of a queue does, its lane being there. -/
theorem onHead_eq {s : State} {c : CoreRef} {k : Ctx} {q : SeqEntry} {ln : Lane} {f : State → Ctx → SeqEntry → Lane → Option State} {u : State}
    (h : Heads s c k q ln) (hf : f s k q ln = some u) : onHead c f s = .next u := by
  obtain ⟨h1, h2, ⟨h3, h4⟩, h5, h6, h7⟩ := h
  unfold onHead
  simp only [h1, h2, h4, h5, hf]
  rw [if_neg (by simpa using h3), if_neg (by simpa using h7)]

/-- No window is open. -/
theorem noOpen {k : Ctx} (h : NoOpenLoad k) : ¬((k.groups.any fun g => match k.wg g.wslot with
        | some w => openLoad g w
        | none => false) = true) := by
  rw [Bool.not_eq_true, List.any_eq_false]
  intro g hg
  cases hw : k.wg g.wslot with
  | none => simp
  | some w => simpa [hw] using h g hg w hw

/-- A window is open. -/
theorem isOpen {k : Ctx} {g : Group} {w : Workgroup} (hg : g ∈ k.groups) (hw : k.wg g.wslot = some w) (h : openLoad g w = true) : (k.groups.any fun g => match k.wg g.wslot with
        | some w => openLoad g w
        | none => false) = true := by
  rw [List.any_eq_true]
  exact ⟨g, hg, by simpa [hw] using h⟩

/-- The engines stand where a halt may take them. -/
theorem stand {s : State} {c : CoreRef} {k : Ctx} (h : EnginesStand s c k) : ¬(((k.copies.any fun e => !s.mayHalt c k e) || !seqMayHalt s c k) = true) := by
  rw [Bool.not_eq_true, Bool.or_eq_false_iff, List.any_eq_false]
  exact ⟨fun e he => by simp [h.1 e he], by simp [h.2]⟩

/-- The engines stand where a halt may take them. -/
theorem notStand {s : State} {c : CoreRef} {k : Ctx} (h : ¬(((k.copies.any fun e => !s.mayHalt c k e) || !seqMayHalt s c k) = true)) : EnginesStand s c k := by
  rw [Bool.not_eq_true, Bool.or_eq_false_iff, List.any_eq_false] at h
  exact ⟨fun e he => by simpa using h.1 e he, by simpa using h.2⟩

/-- A check that passes. -/
theorem notNot {b : Bool} (h : b = true) : ¬((!b) = true) := by simp [h]

/-- A core that has stood still. -/
theorem still {s : State} {c : CoreRef} (h : StoodStill s c) : (match (s.core c).ctx with
    | some k => k.st == .halted
    | none => true) = true := by
  cases hx : (s.core c).ctx with
  | none => rfl
  | some k => simp [h k hx]

/-- The turn of a launch. -/
theorem launchTurn {s : State} {q : Request} (h : LaunchTurn s q) : ¬((s.reqs.any fun y => decide (y.id < q.id) && y.answer.isNone && y.t.core == q.t.core && y.t.gen == q.t.gen && y.t.wslot == q.t.wslot &&
        match y.kind with
        | .launch _ _ _ _ _ _ => true
        | _ => false) = true) := by
  rw [Bool.not_eq_true, List.any_eq_false]
  intro y hy
  have := h y hy
  cases hk : y.kind with
  | launch a b c d e f =>
    have := this ⟨a, b, c, d, e, f, hk⟩
    simp only [Bool.and_true, Bool.and_eq_true, decide_eq_true_eq, beq_iff_eq, Option.isNone_iff_eq_none, not_and]
    rintro ⟨⟨⟨a, b⟩, c⟩, d⟩ e
    exact this a b c d e
  | _ => simp

/-- A launch that may be read now. -/
theorem launchReady {s : State} {q : Request} {r cid level : Nat} {queue : Option (QRef × Packet)} (h : LaunchReady s q r cid level queue) :
    ¬(((s.reqs.any fun y => decide (y.id < q.id) && y.answer.isNone && y.t.core == q.t.core && y.t.gen == q.t.gen && y.t.wslot == q.t.wslot &&
        match y.kind with
        | .launch _ _ _ _ _ _ => true
        | _ => false) || (queue.isNone && launchHeld s q) || gHeld s level cid r 128) = true) := by
  have h1 := launchTurn h.turn
  rw [Bool.not_eq_true] at h1 ⊢
  rw [h1, h.free]
  cases queue with
  | none => simp [h.released rfl]
  | some v => rfl

/-- What the start of a block comes to where it is ready. -/
theorem starts_eq {s : State} {c : CoreRef} {slot : Nat} {k : Ctx} {w : Workgroup} {g : Grid} {imgs : List Nat} (h : Startable s c slot k w g imgs) :
    execFrameClearingDone c slot s = match clearWait s g (clearRef c k.gen slot) w.block with
      | some (va, ipa, kind) => .next ((s.noteStage2 (clearRef c k.gen slot) true va ipa kind).post (.frameClearingDone c slot))
      | none =>
        if clearHeld s g w.block then .next (s.post (.frameClearingDone c slot)) else
        let s := clearFrames { s with xwaits := s.xwaits.filter fun x => x.t != clearRef c k.gen slot } g w.block
        let cut := g.lrec.cmode && g.cancelledAt c.pkg c.die
        let ths := (w.threads.zip imgs).map fun x => { imageThread g x.2 x.1 s.clk with pcan := cut }
        let s := s.modWg c slot fun w => { w with threads := ths, started := true, cut := cut }
        let s := (launchGroups s c slot g.lrec.wgsize).seeded c
        let s := s.sendCount c g.handle { started := 1 }
        .next (if w.relaunches == 0 then noteBegun s g.handle c.pkg c.die else s) := by
  obtain ⟨h1, h2, h3, h4, h5, h6, h7, h8⟩ := h
  unfold execFrameClearingDone
  simp only [h1, h3, h5, Option.bind_some, Option.map_some, h6, h7, h2, h8]
  rw [if_neg (by decide), if_neg (by decide)]
  cases clearWait s g (clearRef c k.gen slot) w.block <;> rfl

/-- The chunk that an engine serves. -/
theorem served_eq {s : State} {e : Engine} {y : Nat × Nat × Nat × Nat × Nat × Nat} (h : NextChunk s e y) : served s e = some y := by
  obtain ⟨b, h1, h2⟩ := h
  unfold served
  simp only []
  rw [h1, Option.bind_some]
  exact h2

/-- What an engine does with a chunk to accept. -/
theorem accepting_eq {s : State} {h i c r : Nat} {x : ChunkAt} {e : Engine} (a : Accepting s h i c r x e) : execChunkAcceptance h i c r s =
    if bufUsed e x + x.b.cb ≤ 2 ^ x.m.logbuf then .next ((acceptChunk s x h i c r).postOnce (.engineArbitration (x.pkgOf r) (c % 12)))
    else .next (s.post (.chunkAcceptance h i c r)) := by
  obtain ⟨h1, h2, h3, h4, h5, h6⟩ := a
  unfold execChunkAcceptance toAccept bufferRoom
  rw [h1]
  simp only [h3, h5, h2, h6]
  rw [if_neg (by simp [h4])]
  by_cases hb : bufUsed e x + x.b.cb ≤ 2 ^ x.m.logbuf
  · rw [if_pos hb, if_neg]
    unfold bufUsed at hb
    simp only [hb]; decide
  · rw [if_neg hb, if_pos]
    unfold bufUsed at hb
    simp only [hb]; decide

/-- What an engine's step does. -/
theorem step_eq {s : State} {pkg stack h i c r : Nat} {x : ChunkAt} (a : EngineAt s pkg stack h i c r x) : execChunkStepCompletion pkg stack s =
    .next (boundary (chunkStep (stepTaken s pkg stack h i r x) x h i c r) pkg stack) := by
  obtain ⟨⟨e, part, comm, h1, h2⟩, h3, h4, h5, h6⟩ := a
  unfold execChunkStepCompletion
  rw [h1, Option.bind_some, h2]
  simp only [h3, h4, h6]
  rw [if_neg (by decide), if_neg (by decide), if_pos (by simpa using h5)]
  rfl

/-- What a grant does. -/
theorem grant_mod {s : State} {c : CoreRef} {slot : Nat} {k : Ctx} {g : Group} {f : Group → Group} (hf : ∀ x, (f x).slot = x.slot)
    (hk : (s.core c).ctx = some k) (hg : k.group slot = some g) : grant (s.modGroup c slot f) c slot (fun _ => true) =
      ((s.modGroup c slot f).modGroup c slot fun g => { g with fillOk := true }).clearStall c k.gen slot := by
  have h : ((s.modGroup c slot f).core c).ctx = some (k.modGroup slot f) := by simp [State.modGroup, hk]
  have h2 : (k.modGroup slot f).group slot = some (f g) := by rw [Ctx.group_modGroup k slot slot f hf]; simp [hg]
  unfold grant
  rw [h, Option.bind_some, h2]
  rfl

/-- What a copy in progress does. -/
theorem writes_eq {s : State} {c : CoreRef} {id : Nat} {k : Ctx} {e : CopyEntry} (h : Writes s c id k e) : execCopyLineWrite c id s =
    match s.copyPiece c k e with
      | (s, .error (.fault d a)) => .next (s.faultCopy c id d a)
      | (s, .error _) => .next ((s.modCopy c id fun e => { e with stuck := true }).post (.copyLineWrite c id))
      | (s, .ok n) =>
        let s := if n == 0 then s else s.countCopy c k.gen e n 0
        let s := if copyTotal e ≤ (((s.copyOf c id).map fun x => x.2.written).getD 0) then s.endCopy c id else s.post (.copyLineWrite c id)
        .next s.wakeRecalls := by
  obtain ⟨⟨a, b, d⟩, e, f, g⟩ := h
  have hh : (k.st == .halting && s.mayHalt c k ‹_›) = false := by simpa using g
  unfold execCopyLineWrite
  rw [a]
  simp only [e, d, hh]
  rw [if_neg (by simpa using b), if_neg (by omega)]
  rfl

/-- A packet of an open queue whose checks pass. -/
theorem onQueue_next {q : QRef} {p : Packet} {lo : Nat} {ok : Bool} {k : State → Nat → Nat → Nat → State} {s : State} {lv part cid : Nat}
    (h : Served s q lv part cid) (hl : lo ≤ lv) (ho : ok = true) : onQueue q p lo ok k s = .next (k s lv part cid) := by
  unfold Served at h
  simp only [onQueue, h, ho]
  rw [if_neg (by omega)]
  simp

/-- No horizon names the job. -/
theorem job_unnamed {s : State} {cid : Nat} (h : ¬jobNamed s cid) : (s.packages.any fun x => x.hzn.any fun e =>
    (hznOf e.2).valid && !(hznOf e.2).fired && (hznOf e.2).ingen != 0 && (hznOf e.2).incid == cid) = false := by
  rw [List.any_eq_false]; intro x hx; rw [Bool.not_eq_true, List.any_eq_false]; intro y hy hh
  simp only [Bool.and_eq_true, Bool.not_eq_true', bne_iff_ne, beq_iff_eq] at hh
  exact h ⟨x, hx, y, hy, hh.1.1.1, hh.1.1.2, hh.1.2, hh.2⟩

/-- No grid of the job runs. -/
theorem job_complete {s : State} {cid : Nat} (h : ∀ g ∈ s.grids, g.cid = cid → g.complete = true) :
    (s.grids.any fun g => g.cid == cid && !g.complete) = false := by
  rw [List.any_eq_false]; intro x hx hh
  simp only [Bool.and_eq_true, Bool.not_eq_true', beq_iff_eq] at hh
  rw [h x hx hh.1] at hh; simp at hh

/-- No grid uses the communicator. -/
theorem comm_free {s : State} {part comm : Nat} (h : CommFree s part comm) :
    (s.grids.any fun g => g.part == part && !g.complete && g.colls.any fun x => x.comm == comm) = false := by
  rw [List.any_eq_false]; intro g hg hh
  simp only [Bool.and_eq_true, Bool.not_eq_true', beq_iff_eq, List.any_eq_true] at hh
  obtain ⟨⟨a, k⟩, b, hb, hc⟩ := hh
  exact h g hg a k b hb hc

/-- When a heartbeat is heeded. -/
theorem heeds_iff {c : Clock} {h : Beat} : Heeds c h ↔ (decide (h.epoch < c.epoch) || (h.epoch == c.epoch && beats c.best (h.prio, h.pid))) = false := by
  simp only [Heeds, Bool.or_eq_false_iff, decide_eq_false_iff_not, Bool.and_eq_false_iff, beq_eq_false_iff_ne]
  constructor
  · rintro (a | ⟨a, b⟩)
    · exact ⟨by omega, .inl (by omega)⟩
    · exact ⟨by omega, .inr b⟩
  · rintro ⟨a, b | b⟩
    · exact .inl (by omega)
    · by_cases e : c.epoch = h.epoch
      · exact .inr ⟨e, b⟩
      · exact .inl (by omega)

end Sys2Proof.Machine
end

