-- ==== Sys2Proof/Laws/Quant.lean ====
section
/-! SUPPORT. The reads of a complete group, and the special registers. -/

namespace Sys2Proof.Machine

open State

/-- A complete group's register, lane by lane. -/
theorem groupRegs_32 {l : LaneIn} {reg : Nat} (h1 : l.x.g.members.length = 32) (h2 : l.x.active.length = 32) : groupRegs l reg = some (laneRegs l.x reg) := by
  simp [groupRegs, h1, h2, laneRegs]

/-- The registers of `tnow`'s result. -/
theorem tnow_regs (t : Thread) (i ns fr : Nat) :
    t.setSpan i 3 (ns % 2 ^ 64 + 2 ^ 64 * (fr % 2 ^ 16)) = (t.setSpan i 2 ns).setReg (i + 2) (fr % 65536) := by
  have e : ∀ m n : Nat, m % 2 ^ 32 = n % 2 ^ 32 → ∀ (t : Thread) (i : Nat), t.setReg i m = t.setReg i n := fun m n h t i => by
    simp only [Thread.setReg, wset]
    rw [show BitVec.ofNat 32 m = BitVec.ofNat 32 n from BitVec.eq_of_toNat_eq (by simpa using h)]
  simp only [Thread.setSpan]
  generalize ha : ns % 2 ^ 64 + 2 ^ 64 * (fr % 2 ^ 16) = a
  rw [e a ns (by omega), e (a / 2 ^ 32) (ns / 2 ^ 32) (by omega), e (a / 2 ^ 32 / 2 ^ 32) (fr % 65536) (by omega)]

/-- A read of a special register is a lane operation. -/
theorem sreg_row {e : Bool} {d : BitVec 6} (sel : BitVec 12) {f : LaneIn → Nat} (hs : sel.toNat ≠ 0x011) (hf : ∀ l, sregValue l sel.toNat = f l)
    (hp : ∀ i ths, f { i with ln := { i.ln with w := { i.ln.w with threads := ths } } } = f i) :
    RowRuns ⟨dOnly d, fun l => l.ln.t.setReg l.d (f l)⟩ (exec (.sreg e d sel)) := by
  have e0 : exec (.sreg e d sel) = execLanes e (dOnly d) (laneOk fun i => i.ln.t.setReg i.d (f i)) := by
    show execLanes e _ (laneOk _) = _
    congr 2
    funext i
    rw [beq_eq_false_iff_ne.mpr hs, hf]; rfl
  rw [e0]
  exact row_runs (row := ⟨dOnly d, fun l => l.ln.t.setReg l.d (f l)⟩) e ⟨fun i ths => by show i.ln.t.setReg _ _ = _; rw [hp], fun _ => ⟨rfl, rfl⟩⟩ fun l => rfl

end Sys2Proof.Machine
end

