-- ==== Sys2Proof/Laws/Step.lean ====
section
/-! SUPPORT. What a group issues, and what may come next. -/

namespace Sys2Proof.Machine

open State

/-- A group issues, and its core has not been stopped. -/
def Live (s : State) : Prop := ∃ x, Issues s x

/-- What leaves a group issuing. -/
theorem Live.congr {s t : State} (h : Live s) (h1 : t.cur = s.cur) (h2 : t.grids = s.grids) (h3 : ∀ c, (t.core c).ctx = (s.core c).ctx)
    (h4 : ∀ c, (t.core c).stopped = (s.core c).stopped) : Live t := by
  obtain ⟨x, hi, hs⟩ := h
  refine ⟨x, ?_, ?_⟩
  · unfold State.issuing at hi ⊢; simp only [h1, h3, State.grid, h2] at hi ⊢; exact hi
  · rw [h4]; exact hs

/-- A group issues where its core, context, workgroup and grid are there. -/
theorem live_iff {s : State} : Live s ↔ ∃ c slot k g w gr, s.cur = some (c, slot) ∧ (s.core c).ctx = some k ∧ k.group slot = some g ∧ k.wg g.wslot = some w ∧
    s.grid w.grid = some gr ∧ (s.core c).stopped = false := by
  constructor
  · rintro ⟨x, hi, hs⟩
    unfold State.issuing at hi
    simp only [Option.bind_eq_bind, Option.bind_eq_some_iff, Prod.exists, Option.pure_def, Option.some.injEq] at hi
    obtain ⟨c, slot, h1, k, h2, g, h3, w, h4, gr, h5, h6⟩ := hi
    subst h6
    exact ⟨c, slot, k, g, w, gr, h1, h2, h3, h4, h5, hs⟩
  · rintro ⟨c, slot, k, g, w, gr, h1, h2, h3, h4, h5, h6⟩
    refine ⟨{ c := c, k := k, g := g, w := w, grid := gr }, ?_, h6⟩
    unfold State.issuing
    simp [h1, h2, h3, h4, h5]

/-- What leaves a group issuing. -/
theorem Live.modGroup {s : State} (h : Live s) (c : CoreRef) (slot : Nat) (f : Group → Group) (hs : ∀ g, (f g).slot = g.slot)
    (hw : ∀ g, (f g).wslot = g.wslot) : Live (s.modGroup c slot f) := by
  rw [live_iff] at h ⊢
  obtain ⟨c', sl, k, g, w, gr, h1, h2, h3, h4, h5, h6⟩ := h
  refine ⟨c', sl, if c' = c then k.modGroup slot f else k, if c' = c ∧ sl = slot then f g else g, w, gr, h1, ?_, ?_, ?_, h5, ?_⟩
  · unfold State.modGroup; rw [core_modCtx]; split_ifs with e
    · subst e; simp [h2]
    · exact h2
  · by_cases e : c' = c
    · simp only [e, if_true, true_and]; rw [Ctx.group_modGroup _ _ _ _ hs]
      by_cases e2 : sl = slot
      · subst e2; simp [h3]
      · simp [e2, h3]
    · simp [e, h3]
  · have : (if c' = c ∧ sl = slot then f g else g).wslot = g.wslot := by split <;> simp [hw]
    rw [this]; split_ifs <;> simp [h4]
  · unfold State.modGroup; rw [core_modCtx]; split_ifs with e
    · subst e; exact h6
    · exact h6

/-- What leaves a group issuing. -/
theorem Live.modThread {s : State} (h : Live s) (c : CoreRef) (ws t : Nat) (f : Thread → Thread) : Live (s.modThread c ws t f) := by
  rw [live_iff] at h ⊢
  obtain ⟨c', sl, k, g, w, gr, h1, h2, h3, h4, h5, h6⟩ := h
  refine ⟨c', sl, if c' = c then k.modWg ws fun w => w.modThread t f else k, g, if c' = c ∧ g.wslot = ws then w.modThread t f else w, gr, h1, ?_, ?_, ?_, ?_, ?_⟩
  · unfold State.modThread State.modWg; rw [core_modCtx]; split_ifs with e
    · subst e; simp [h2]
    · exact h2
  · split_ifs <;> simp [h3]
  · by_cases e : c' = c
    · simp only [e, if_true, true_and]; rw [Ctx.wg_modWg k ws g.wslot (fun w => w.modThread t f) (fun _ => rfl)]
      by_cases e2 : g.wslot = ws
      · subst e2; simp [h4]
      · simp [e2, h4]
    · simp [e, h4]
  · have : (if c' = c ∧ g.wslot = ws then w.modThread t f else w).grid = w.grid := by split <;> rfl
    rw [this]; exact h5
  · unfold State.modThread State.modWg; rw [core_modCtx]; split_ifs with e
    · subst e; exact h6
    · exact h6

/-- What leaves a group issuing. -/
theorem Live.foldl {β : Type} (f : State → β → State) (h : ∀ s b, Live s → Live (f s b)) : ∀ (l : List β) (s : State), Live s → Live (l.foldl f s)
  | [], _, hs => hs
  | b :: l, s, hs => Live.foldl f h l (f s b) (h s b hs)

/-- Landing results leaves the group issuing. -/
theorem live_landUnit {s t : State} {x : Iss} {w : Nat} (h : Live s) (e : landUnit s x w = .ok t) : Live t := by
  simp only [landUnit] at e
  split at e
  · cases e; exact h
  · split at e
    · cases e
    · cases e
      exact (Live.foldl (fun s t => s.modThread x.c x.g.wslot t fun th => th.landDue _) (fun s b h => h.modThread _ _ _ _) _ _ h).modGroup _ _ _ (fun _ => rfl) (fun _ => rfl)

/-- A translation leaves the group issuing. -/
theorem live_xlate {s t : State} {c l cid va a r} (h : Live s) (e : s.xlate c l cid va a = (t, r)) : Live t := by
  have key : ∀ (f : Core → Core), (∀ x, (f x).at_ = x.at_) → (∀ x, (f x).ctx = x.ctx) → (∀ x, (f x).stopped = x.stopped) → Live (s.modCore c f) := by
    intro f h1 h2 h3
    refine h.congr rfl rfl (fun c' => ?_) (fun c' => ?_)
    · rw [core_modCore _ _ _ _ (by rw [h1, core_at])]; split_ifs with e
      · rw [h2, e]
      · rfl
    · rw [core_modCore _ _ _ _ (by rw [h1, core_at])]; split_ifs with e
      · rw [h3, e]
      · rfl
  have e' : t = (s.xlate c l cid va a).1 := by rw [e]
  subst e'
  unfold xlate
  split
  · exact h
  · simp only []
    repeat' split
    all_goals first | exact h | exact key _ (fun _ => rfl) (fun _ => rfl) fun _ => rfl

/-- An access leaves the group issuing. -/
theorem live_reach {s t : State} {ln tg addr n a r} (h : Live s) (e : s.reach ln tg addr n a = (t, r)) : Live t := by
  simp only [reach] at e
  split at e
  · cases e; exact h
  split at e
  · cases e; exact h
  have key : ∀ u q, (match placeLD ln tg with
      | some l => (s, Except.ok l)
      | none =>
        match s.xlateFor ln (gva ln tg) addr a with
        | (s, .ok pa) => (s, .ok (.g pa))
        | (s, .error e) => (s, .error e)) = (u, q) → Live u := by
    intro u q hq
    split at hq
    · cases hq; exact h
    · have : Live (s.xlateFor ln (gva ln tg) addr a).1 := by
        unfold xlateFor
        split
        · exact h
        · split <;> (rename_i hx; exact live_xlate h hx)
      split at hq <;> (rename_i hx; rw [hx] at this; cases hq; exact this)
  split at e
  · rename_i hq; cases e; exact key _ _ hq
  · rename_i hq
    have := key _ _ hq
    split at e
    · cases e; exact this
    · split at e <;> (cases e; exact this)

/-- A fetch leaves the group issuing. -/
theorem live_fetch {s t : State} {x : Iss} {w : Nat} (h : Live s) (e : fetchWord s x = .ok (t, w)) : Live t := by
  simp only [fetchWord] at e
  split at e
  · cases e
  split at e
  · cases e
  split at e
  · cases e
  · split at e
    · rename_i hr
      have l := live_reach h hr
      simp only [Except.ok.injEq, Prod.mk.injEq] at e
      obtain ⟨rfl, -⟩ := e
      split
      · exact l.modGroup _ _ _ (fun _ => rfl) fun _ => rfl
      · exact l
    all_goals cases e

/-- A row of a word that no event is, or what the rest of its major answers. -/
theorem word_ite {p : Prop} [Decidable p] {a : Instr} {o : Option Instr} (ha : isEvent a = false) (ho : ∀ i, o = some i → isEvent i = false) :
    ∀ i, (if p then some a else o) = some i → isEvent i = false := by
  intro i h
  split at h
  · cases h; exact ha
  · exact ho i h

/-- A row of a word. -/
theorem word_some {a : Instr} (ha : isEvent a = false) : ∀ i, some a = some i → isEvent i = false := by rintro i ⟨⟩; exact ha

/-- No row. -/
theorem word_none : ∀ i, none = some i → isEvent i = false := by rintro i ⟨⟩

/-- The rows of a major are instruction words. -/
theorem word_decodeMaj00 (w : Nat) : ∀ i, decodeMaj00 w = some i → isEvent i = false := by
  unfold decodeMaj00
  repeat' first | exact word_none | refine word_ite rfl ?_

/-- The rows of a major are instruction words. -/
theorem word_decodeMaj01 (w : Nat) : ∀ i, decodeMaj01 w = some i → isEvent i = false := by
  unfold decodeMaj01
  repeat' first | exact word_none | refine word_ite rfl ?_

/-- The rows of a major are instruction words. -/
theorem word_decodeMaj02 (w : Nat) : ∀ i, decodeMaj02 w = some i → isEvent i = false := by
  unfold decodeMaj02
  repeat' first | exact word_none | refine word_ite rfl ?_

/-- The rows of a major are instruction words. -/
theorem word_decodeMaj03 (w : Nat) : ∀ i, decodeMaj03 w = some i → isEvent i = false := by
  unfold decodeMaj03
  repeat' first | exact word_none | refine word_ite rfl ?_

/-- The rows of a major are instruction words. -/
theorem word_decodeMaj04 (w : Nat) : ∀ i, decodeMaj04 w = some i → isEvent i = false := by
  unfold decodeMaj04
  exact word_some rfl

/-- The rows of a major are instruction words. -/
theorem word_decodeMaj05 (w : Nat) : ∀ i, decodeMaj05 w = some i → isEvent i = false := by
  unfold decodeMaj05
  exact word_some rfl

/-- The rows of a major are instruction words. -/
theorem word_decodeMaj06 (w : Nat) : ∀ i, decodeMaj06 w = some i → isEvent i = false := by
  unfold decodeMaj06
  exact word_some rfl

/-- The rows of a major are instruction words. -/
theorem word_decodeMaj07 (w : Nat) : ∀ i, decodeMaj07 w = some i → isEvent i = false := by
  unfold decodeMaj07
  exact word_some rfl

/-- The rows of a major are instruction words. -/
theorem word_decodeMaj08 (w : Nat) : ∀ i, decodeMaj08 w = some i → isEvent i = false := by
  unfold decodeMaj08
  repeat' first | exact word_none | refine word_ite rfl ?_

/-- The rows of a major are instruction words. -/
theorem word_decodeMaj09 (w : Nat) : ∀ i, decodeMaj09 w = some i → isEvent i = false := by
  unfold decodeMaj09
  exact word_some rfl

/-- The rows of a major are instruction words. -/
theorem word_decodeMaj0A (n w : Nat) : ∀ i, decodeMaj0A n w = some i → isEvent i = false := by
  unfold decodeMaj0A
  repeat' first | exact word_none | refine word_ite rfl ?_

/-- The rows of a major are instruction words. -/
theorem word_decodeMaj0B (w : Nat) : ∀ i, decodeMaj0B w = some i → isEvent i = false := by
  unfold decodeMaj0B
  repeat' first | exact word_none | refine word_ite rfl ?_

/-- The rows of a major are instruction words. -/
theorem word_decodeMaj0C (w : Nat) : ∀ i, decodeMaj0C w = some i → isEvent i = false := by
  unfold decodeMaj0C
  exact word_some rfl

/-- The rows of a major are instruction words. -/
theorem word_decodeMaj0D (w : Nat) : ∀ i, decodeMaj0D w = some i → isEvent i = false := by
  unfold decodeMaj0D
  exact word_some rfl

/-- The rows of a major are instruction words. -/
theorem word_decodeMaj0E (w : Nat) : ∀ i, decodeMaj0E w = some i → isEvent i = false := by
  unfold decodeMaj0E
  exact word_some rfl

/-- The rows of a major are instruction words. -/
theorem word_decodeMaj0F (w : Nat) : ∀ i, decodeMaj0F w = some i → isEvent i = false := by
  unfold decodeMaj0F
  repeat' first | exact word_none | refine word_ite rfl ?_

/-- The rows of a major are instruction words. -/
theorem word_decodeMaj10 (w : Nat) : ∀ i, decodeMaj10 w = some i → isEvent i = false := by
  unfold decodeMaj10
  exact word_some rfl

/-- The rows of a major are instruction words. -/
theorem word_decodeMaj11 (w : Nat) : ∀ i, decodeMaj11 w = some i → isEvent i = false := by
  unfold decodeMaj11
  repeat' first | exact word_none | refine word_ite rfl ?_

/-- The rows of a major are instruction words. -/
theorem word_decodeMaj12 (w : Nat) : ∀ i, decodeMaj12 w = some i → isEvent i = false := by
  unfold decodeMaj12
  exact word_some rfl

/-- The rows of a major are instruction words. -/
theorem word_decodeMaj13 (w : Nat) : ∀ i, decodeMaj13 w = some i → isEvent i = false := by
  unfold decodeMaj13
  repeat' first | exact word_none | refine word_ite rfl ?_

/-- The rows of a major are instruction words. -/
theorem word_decodeMaj14 (w : Nat) : ∀ i, decodeMaj14 w = some i → isEvent i = false := by
  unfold decodeMaj14
  exact word_some rfl

/-- The rows of a major are instruction words. -/
theorem word_decodeMaj15 (w : Nat) : ∀ i, decodeMaj15 w = some i → isEvent i = false := by
  unfold decodeMaj15
  repeat' first | exact word_none | refine word_ite rfl ?_

/-- The rows of a major are instruction words. -/
theorem word_decodeMaj16 (w : Nat) : ∀ i, decodeMaj16 w = some i → isEvent i = false := by
  unfold decodeMaj16
  repeat' first | exact word_none | refine word_ite rfl ?_

/-- The rows of a major are instruction words. -/
theorem word_decodeMaj17 (w : Nat) : ∀ i, decodeMaj17 w = some i → isEvent i = false := by
  unfold decodeMaj17
  repeat' first | exact word_none | refine word_ite rfl ?_

/-- The rows of a major are instruction words. -/
theorem word_decodeMaj18 (w : Nat) : ∀ i, decodeMaj18 w = some i → isEvent i = false := by
  unfold decodeMaj18
  repeat' first | exact word_none | refine word_ite rfl ?_

/-- The rows of a major are instruction words. -/
theorem word_decodeMaj19 (w : Nat) : ∀ i, decodeMaj19 w = some i → isEvent i = false := by
  unfold decodeMaj19
  repeat' first | exact word_none | refine word_ite rfl ?_

/-- The rows of a major are instruction words. -/
theorem word_decodeMaj1A (w : Nat) : ∀ i, decodeMaj1A w = some i → isEvent i = false := by
  unfold decodeMaj1A
  repeat' first | exact word_none | refine word_ite rfl ?_

/-- The rows of a major are instruction words. -/
theorem word_decodeMaj1B (w : Nat) : ∀ i, decodeMaj1B w = some i → isEvent i = false := by
  unfold decodeMaj1B
  repeat' first | exact word_none | refine word_ite rfl ?_

/-- The rows of a major are instruction words. -/
theorem word_decodeMaj1C (w : Nat) : ∀ i, decodeMaj1C w = some i → isEvent i = false := by
  unfold decodeMaj1C
  repeat' first | exact word_none | refine word_ite rfl ?_

/-- The rows of a major are instruction words. -/
theorem word_decodeMaj1D (w : Nat) : ∀ i, decodeMaj1D w = some i → isEvent i = false := by
  unfold decodeMaj1D
  repeat' first | exact word_none | refine word_ite rfl ?_

/-- The rows of a major are instruction words. -/
theorem word_decodeMaj1E (w : Nat) : ∀ i, decodeMaj1E w = some i → isEvent i = false := by
  unfold decodeMaj1E
  repeat' first | exact word_none | refine word_ite rfl ?_

/-- The rows of a major are instruction words. -/
theorem word_decodeMaj1F (w : Nat) : ∀ i, decodeMaj1F w = some i → isEvent i = false := by
  unfold decodeMaj1F
  repeat' first | exact word_none | refine word_ite rfl ?_

/-- The rows of a major are instruction words. -/
theorem word_decodeMaj20 (w : Nat) : ∀ i, decodeMaj20 w = some i → isEvent i = false := by
  unfold decodeMaj20
  repeat' first | exact word_none | refine word_ite rfl ?_

/-- The rows of a major are instruction words. -/
theorem word_decodeMaj21 (w : Nat) : ∀ i, decodeMaj21 w = some i → isEvent i = false := by
  unfold decodeMaj21
  repeat' first | exact word_none | refine word_ite rfl ?_

/-- The rows of a major are instruction words. -/
theorem word_decodeMaj22 (w : Nat) : ∀ i, decodeMaj22 w = some i → isEvent i = false := by
  unfold decodeMaj22
  repeat' first | exact word_none | refine word_ite rfl ?_

/-- The rows of a major are instruction words. -/
theorem word_decodeMaj23 (w : Nat) : ∀ i, decodeMaj23 w = some i → isEvent i = false := by
  unfold decodeMaj23
  repeat' first | exact word_none | refine word_ite rfl ?_

/-- The rows of a major are instruction words. -/
theorem word_decodeMaj3F (w : Nat) : ∀ i, decodeMaj3F w = some i → isEvent i = false := by
  unfold decodeMaj3F
  repeat' first | exact word_none | refine word_ite rfl ?_

/-- What the decoder answers is an instruction word's row. -/
theorem word_decodeWord {n w : Nat} {i : Instr} (h : decodeWord n w = .ok i) : isEvent i = false := by
  have key : ∀ j, decodeRow n w = some j → isEvent j = false := by
    intro j h
    unfold decodeRow at h
    split at h
    all_goals first | exact word_decodeMaj00 _ _ h | exact word_decodeMaj01 _ _ h | exact word_decodeMaj02 _ _ h | exact word_decodeMaj03 _ _ h | exact word_decodeMaj04 _ _ h | exact word_decodeMaj05 _ _ h | exact word_decodeMaj06 _ _ h | exact word_decodeMaj07 _ _ h | exact word_decodeMaj08 _ _ h | exact word_decodeMaj09 _ _ h | exact word_decodeMaj0A _ _ _ h | exact word_decodeMaj0B _ _ h | exact word_decodeMaj0C _ _ h | exact word_decodeMaj0D _ _ h | exact word_decodeMaj0E _ _ h | exact word_decodeMaj0F _ _ h | exact word_decodeMaj10 _ _ h | exact word_decodeMaj11 _ _ h | exact word_decodeMaj12 _ _ h | exact word_decodeMaj13 _ _ h | exact word_decodeMaj14 _ _ h | exact word_decodeMaj15 _ _ h | exact word_decodeMaj16 _ _ h | exact word_decodeMaj17 _ _ h | exact word_decodeMaj18 _ _ h | exact word_decodeMaj19 _ _ h | exact word_decodeMaj1A _ _ h | exact word_decodeMaj1B _ _ h | exact word_decodeMaj1C _ _ h | exact word_decodeMaj1D _ _ h | exact word_decodeMaj1E _ _ h | exact word_decodeMaj1F _ _ h | exact word_decodeMaj20 _ _ h | exact word_decodeMaj21 _ _ h | exact word_decodeMaj22 _ _ h | exact word_decodeMaj23 _ _ h | exact word_decodeMaj3F _ _ h | cases h
  unfold decodeWord at h
  split at h
  · cases h
  · split at h
    · cases h
    · rename_i hr
      split at h
      · cases h; exact key _ hr
      · cases h

/-- A word that is issued is an instruction word of an issuing group. -/
theorem live_issueWord {s t : State} {x : Iss} {i : Instr} (h : Live s) (e : issueWord s x = (t, some i)) : Live t ∧ isEvent i = false := by
  simp only [issueWord] at e
  split at e
  · cases e
  split at e
  · cases e
  split at e
  · cases e
  rename_i hf
  have l := live_fetch h hf
  split at e
  · cases e
  rename_i hd
  have hi : isEvent i = false ∧ Live t := by
    split at e
    · cases e; exact ⟨word_decodeWord hd, l⟩
    split at e
    · cases e
    split at e
    · cases e
    · rename_i hl; cases e; exact ⟨word_decodeWord hd, live_landUnit l hl⟩
  exact ⟨hi.2, hi.1⟩

/-- A group that issues a word is issuing. -/
theorem live_issue {s t : State} {c slot} {i : Instr} (e : issue s c slot = (t, some i)) : Live t ∧ isEvent i = false := by
  simp only [issue] at e
  split at e
  · rename_i x hx
    split at e
    · cases e
    · rename_i hs
      refine live_issueWord ⟨x, hx, ?_⟩ e
      simp only [Bool.or_eq_true, not_or, Bool.not_eq_true] at hs
      have : x.c = c := by
        unfold issuing at hx
        simp only [Option.bind_eq_bind, Option.bind_eq_some_iff, Prod.exists, Option.pure_def, Option.some.injEq] at hx
        obtain ⟨c, slot, h1, k, h2, g, h3, w, h4, gr, h5, h6⟩ := hx
        subst h6; cases h1; rfl
      rw [this]; exact hs.1
  · cases e

/-- What may happen is an event. -/
theorem happen_spec (s : State) : ∀ (l e : List Instr) (n m : Nat) (i : Instr), (m, i) ∈ happen s l e n → isEvent i = true
  | [], _, _, _, _, h => by simp [happen] at h
  | j :: l, e, n, m, i, h => by
    unfold happen at h
    split at h
    · rename_i hm
      rcases List.mem_cons.mp h with h | h
      · cases h; simp only [mayHappen, Bool.and_eq_true] at hm; exact hm.1.1.1
      · exact happen_spec s l _ _ _ _ h
    · exact happen_spec s l _ _ _ _ h

/-- The least of a list is one of it. -/
theorem firstBy_mem {α : Type} {lt : α → α → Bool} : ∀ {l : List α} {a : α}, firstBy lt l = some a → a ∈ l
  | x :: xs, a, h => by
    have key : ∀ (l : List α) (b : α), l.foldl (fun best y => if lt y best then y else best) b ∈ b :: l := by
      intro l
      induction l with
      | nil => intro b; simp
      | cons y l ih =>
        intro b
        rw [List.foldl_cons]
        rcases List.mem_cons.1 (ih (if lt y b then y else b)) with e | e
        · rw [e]; split_ifs <;> simp
        · exact List.mem_cons_of_mem _ (List.mem_cons_of_mem _ e)
    cases h
    exact key xs x

/-- A fair choice takes one of what it is given. -/
theorem fairPick_mem {s : State} {l : List Cand} {c : Cand} (h : fairPick s l = some c) : c ∈ l := by
  unfold fairPick at h
  simp only [] at h
  split_ifs at h
  · exact List.mem_of_find?_eq_some h
  · exact List.mem_of_mem_filter (List.mem_of_getElem? h)
  · exact List.mem_of_mem_filter (firstBy_mem h)

/-- A free choice takes one of what it is given. -/
theorem freePick_mem (s : State) (c : Cand) (cs : List Cand) : freePick s c cs ∈ c :: cs := by
  unfold freePick
  cases e : (c :: cs)[Config.choice s.free % (cs.length + 1)]? with
  | none => simp
  | some d => exact List.mem_of_getElem? e

/-- What is picked may come next. -/
theorem pick_spec {s : State} {c : Cand} (h : pick s = some c) : c ∈ candidates s := by
  unfold pick at h
  split at h
  · cases h
  · rename_i hc; cases h; rw [hc]; simp
  · rename_i hc; cases h
    rw [hc]
    rename_i c cs _
    cases e : (if fairTurn s then fairPick s (c :: cs) else none) with
    | none => exact freePick_mem s c cs
    | some d =>
      split_ifs at e
      exact fairPick_mem e

/-- An instruction word of an issuing group completes. -/
theorem words_complete {i : Instr} {s : State} (hi : isEvent i = false) (h : Live s) : ∃ t, exec i s = .next t := by
  obtain ⟨x, hx⟩ := h
  have k : ∀ f, ∃ t, State.onIssue s f = .next t := fun f => ⟨f x, by simp only [State.onIssue, hx.1, hx.2]; rfl⟩
  cases i <;> first
    | exact k _
    | exact absurd hi (by decide)
    | (exfalso; revert hi; unfold isEvent encode; exact Bool.noConfusion)

end Sys2Proof.Machine
end

