-- ==== Sys2Proof/Laws/Sys.lean ====
section
/-! SUPPORT. The system instructions of a group at a level. -/

namespace Sys2Proof.Machine

open State

/-- A field of a word, as a number. -/
theorem bits_field {w : Word} (hi lo n : Nat) (h : hi - lo + 1 = n) : bits w.toNat hi lo = (w.extractLsb' lo n).toNat := by
  subst h; simp [bits, BitVec.extractLsb'_toNat, Nat.shiftRight_eq_div_pow]

/-- Two operands as words. -/
theorem reg_word (l : LaneIn) : l.ln.t.reg l.a = l.ra.toNat ∧ l.ln.t.reg l.b = l.rb.toNat := ⟨(toNat_reg _ _).symm, (toNat_reg _ _).symm⟩

/-- A system instruction completes where its lanes do. -/
theorem sys_done {n : Nat} {fs : Fields} {R : State → LaneIn → State → Thread → Prop} {f : LaneFn} {s u : State} {x : Iss} {g : Iss → State → State} (e : Bool)
    (hn : n ≠ 0) (hl : n ≤ x.grid.level) (h : ActUnit x fs R s u) (hg : g x s = perLane x e fs f s) (hf : ∀ s l u v, R s l u v → f s l = (u, .ok v)) :
    ∃ t, execSys e n g s = .next t ∧ (Stands x u → UnitDone x u t) := by
  refine ⟨_, ?_, unitDone_endUnit e false⟩
  unfold execSys
  rw [onIssue_eq h.issues, if_neg (by simp; omega), if_neg (by omega), hg, h.perLane e hf]

/-- A listed register has its levels. -/
theorem csr_listed {n : Nat} (h : csrListed n = true) : ∃ r w, csrLevels n = some (r, w) := by
  unfold csrLevels
  split_ifs <;> simp
  simp [csrListed] at *
  omega

/-- `csrr` completes where its lanes do. -/
theorem csrr_done {e : Bool} {d : BitVec 6} {n : BitVec 12} {s u : State} {x : Iss} (hw : csrListed n.toNat = true) (hl : 1 ≤ x.grid.level)
    (h : ActUnit x (dOnly d) (SysLane x (.csrr e d n)) s u) : ∃ t, execCsrr e d n s = .next t ∧ (Stands x u → UnitDone x u t) := by
  obtain ⟨r0, w0, hc⟩ := csr_listed hw
  unfold execCsrr
  simp only [hc]
  refine sys_done e one_ne_zero hl h rfl fun s l u v r => ?_
  cases r with
  | csrr h1 h2 => rw [hc] at h1; cases h1; rw [if_neg (by omega)]

/-- `csrw` completes where its lanes do. -/
theorem csrw_done {e : Bool} {d : BitVec 6} {n : BitVec 12} {s u : State} {x : Iss} (hw : csrListed n.toNat = true) (hl : 1 ≤ x.grid.level)
    (h : ActUnit x (dOnly d) (SysLane x (.csrw e d n)) s u) : ∃ t, execCsrw e d n s = .next t ∧ (Stands x u → UnitDone x u t) := by
  obtain ⟨r0, w0, hc⟩ := csr_listed hw
  unfold execCsrw
  simp only [hc]
  refine sys_done e one_ne_zero hl h rfl fun s l u v r => ?_
  cases r with
  | select h1 =>
    rw [show csrLevels (2 : BitVec 12).toNat = some (1, some 1) from rfl] at hc
    cases hc
    rw [if_neg (by simp; omega), if_pos (by rfl), if_pos h1]
  | csrw h1 h2 h3 =>
    rw [hc] at h2; cases h2
    rw [if_neg (by simp [h3]), if_neg]
    simp only [beq_iff_eq]
    intro h
    exact h1 (BitVec.eq_of_toNat_eq h)

/-- `tlbi` completes where its lanes do. -/
theorem tlbi_done {e : Bool} {a : BitVec 5} {b : BitVec 6} {s u : State} {x : Iss} (hl : 1 ≤ x.grid.level)
    (h : ActUnit x (sysFields (.tlbi e a b)) (SysLane x (.tlbi e a b)) s u) : ∃ t, execTlbi e a b s = .next t ∧ (Stands x u → UnitDone x u t) := by
  unfold execTlbi
  refine sys_done e one_ne_zero hl h rfl fun s l u v r => ?_
  cases r with
  | tlbi h1 h2 h3 h4 h5 =>
    simp only [(reg_word l).2, bits_field 2 0 3 rfl, bits_field 15 3 13 rfl, bits_field 31 28 4 rfl, bits_field 27 16 12 rfl]
    rw [if_neg, if_neg]
    · unfold dropTlb tlbiMode tlbiCid at *
      rw [if_neg (by rw [h5]; decide)]
    · unfold tlbiMode at h4; simp; exact h4
    · simp only [tlbiMode] at h3; rw [h1, h2, decide_eq_false (by omega)]; decide

/-- `phld` completes where its lanes do. -/
theorem phld_done {e : Bool} {d a b : BitVec 6} {s u : State} {x : Iss} (hl : 2 ≤ x.grid.level)
    (h : ActUnit x (dab d a b) (SysLane x (.phld e d a b)) s u) : ∃ t, execPhld e d a b s = .next t ∧ (Stands x u → UnitDone x u t) := by
  unfold execPhld
  refine sys_done e two_ne_zero hl h rfl fun s l u v r => ?_
  simp only [(reg_word l).1, bits_field 31 23 9 rfl, bits_field 22 21 2 rfl, bits_field 15 0 16 rfl, bits_field 20 16 5 rfl]
  cases r with
  | noPhaser h1 h2 h3 =>
    rw [if_neg (by rw [h1]; simp; omega)]
    unfold phldKey at h3
    rw [h3]; rfl
  | hold h1 h2 h3 h4 h5 =>
    rw [if_neg (by rw [h1]; simp; omega)]
    unfold phldKey at h3 h5 ⊢
    rw [h3]; simp only []; rw [h4]
    simp only [Bool.not_true, Bool.false_eq_true, if_false, h5]
    rfl

/-- A well-formed register number is listed. -/
theorem wf_csr {n : Nat} (h : req (csrListed n) .csr = none) : csrListed n = true := by
  unfold req at h; by_contra hc; simp [hc] at h

/-- Lane steps are a `perLane`. -/
theorem LaneSteps.perLane {x : Iss} {fs : Fields} {R : State → LaneIn → State → Thread → Prop} {f : LaneFn} {s u : State} (hr : x.g.hint.hrep = none)
    (h : LaneSteps x fs R x.active s u) (e : Bool) (hf : ∀ s l u v, R s l u v → f s l = (u, .ok v)) :
    perLane x e fs f s = (u.advance x []).endUnit x e false .none := by
  unfold State.perLane
  rw [hr]
  simp only [h.foldl hr hf, Bool.false_eq_true, if_false]
  rw [trapsOr_nil]
  rfl

/-- A control instruction completes where its lanes do. -/
theorem ctl_done {fs : Fields} {f : Iss → State → LaneIn → State × CtlRes} {s u w : State} {x : Iss} {n v : Nat} {l : LaneIn} (e : Bool)
    (hi : Issues s x) (hr : x.g.hint.hrep = none) (hl : 2 ≤ x.grid.level) (hn : x.active.head? = some n) (hx : s.laneIn x fs n = some l)
    (hw : fs.within l.ln.t.c none = true) (hf : f x s l = (u, .status v))
    (h : LaneSteps x fs (fun s l u t => u = s ∧ t = l.ln.t.setReg l.d v) x.active u w) :
    ∃ t, coreControl e fs f s = .next t ∧ (Stands x w → UnitDone x w t) := by
  refine ⟨_, ?_, unitDone_endUnit e false⟩
  have hb : (x.active.head?.bind fun t => s.laneIn x fs t) = some l := by rw [hn, Option.bind_some, hx]
  unfold coreControl execSys
  rw [onIssue_eq hi, if_neg (by simp; omega), if_neg (by omega)]
  simp only [hb, hw, hf, Bool.not_true, Bool.false_eq_true, if_false]
  rw [LaneSteps.perLane hr h e]
  rintro s l u t ⟨rfl, rfl⟩
  rfl

/-- The control instructions by their meanings. -/
theorem exec_ctl (s : State) :
    (∀ e d a b, exec (.halt e d a b) s = execHalt e d a b s) ∧ (∀ e d a b, exec (.ctxs e d a b) s = execCtxs e d a b s) ∧
    (∀ e d a b, exec (.ctxl e d a b) s = execCtxl e d a b s) := ⟨fun _ _ _ _ => rfl, fun _ _ _ _ => rfl, fun _ _ _ _ => rfl⟩

/-- A HALTED context does not run, and where a swap is to take it away it was not running as the swap began. -/
theorem halted_stands {y : Core} {k : Ctx} (h : y.isHalted k = true) : k.st ≠ .running ∧ (y.leaving = true → y.swap.ran = false) := by
  simp only [Core.isHalted, Bool.and_eq_true, beq_iff_eq, Bool.or_eq_true, Bool.not_eq_true'] at h
  exact ⟨by simp [h.1], fun hl => h.2.resolve_left (by simp [hl])⟩

/-- A core with a context is not empty. -/
theorem notEmpty {y : Core} {k : Ctx} (h : y.ctx = some k) : isEmptyCore y = false := by simp [isEmptyCore, h]

end Sys2Proof.Machine
end

