-- ==== Sys2Proof/Laws/Units.lean ====
section
/-! SUPPORT. The units of the matrix engine, of projections and of the grid. -/

namespace Sys2Proof.Machine

open State

/-- A result that lands now or later. -/
theorem gets_eq (t : Thread) (la reg n v : Nat) : owe t la reg n v = t.gets la reg n v := by unfold owe Thread.gets; simp

/-- A record's address in range. -/
theorem gridAddr_ok {a : Nat} (h1 : a < 2 ^ 56) (h2 : a % 128 = 0) : gridAddr a = none := by
  unfold gridAddr
  have : bits a 63 56 = 0 := by unfold bits; rw [Nat.div_eq_of_lt h1]; simp
  simp [this, h2]

/-- A chunk of a binding. -/
theorem chunkOf_eq {g : Grid} {b c : Nat} {cb : Coll} (h1 : g.colls[b]? = some cb) (h2 : c < cb.nch) : chunkOf g b c = some cb := by
  unfold chunkOf; rw [h1]; simp [h2]

/-- A ready unit does what its function says. -/
theorem unit_eq {x : Iss} {i : Instr} {s : State} {l : LaneIn} {voc e : Bool} {b : Beside} {fs : Fields} {f : Iss → LaneIn → State → UnitRes}
    (h : UnitReady x i s l) (hb : b = besideOf i) (hf : fs = unitFields i) : execUnitAt voc e b fs f s = .next (match f x l s with
      | .trap c d a p => s.trapAll x e x.active fun t =>
          { tid := t, code := c, detail := d, addr := a, xpc := p, pc := x.upc, ret := x.upc, lane := some (if voc then 0 else l.ln.lane) }
      | .trapLane c n => s.trapAll x e x.active fun t => { tid := t, code := c, detail := 0, addr := 0, xpc := 0, pc := x.upc, ret := x.upc, lane := some n }
      | .wait s why => s.stallUnit x why
      | .again s => s
      | .ok s => ((claim s x.c x.g.wslot).advance x []).endUnit x e false .none) := by
  obtain ⟨hI, ⟨n, h1, h2⟩, hr, hk, hh, hu, ho⟩ := h
  subst hb hf
  unfold execUnitAt
  rw [onIssue_eq hI]
  simp only [h1, Option.bind_some, h2]
  have hs : (x.active.find? fun t => match x.w.thread t with
      | some th => !(unitFields i).within th.c none
      | none => false) = none := by
    rw [List.find?_eq_none]
    intro t ht
    cases hq : x.w.thread t with
    | none => simp
    | some th => simp [hr t ht th hq]
  erw [hs]
  simp only [hk, Bool.false_eq_true, if_false]
  have h3 : (x.k.mtx.holder.isSome && x.k.mtx.holder != some x.g.wslot) = false := by rcases hh with h | h <;> simp [h]
  have h4 : (besideOf i != .always && vocTurn x.k x.g.slot) = false := by
    rcases hu with h | h <;> simp [h]
  have h5 : (besideOf i == .never && x.k.voc.st == .suspended) = false := by
    rcases ho with h | h <;> simp [h]
  simp only [h3, h4, h5, Bool.false_eq_true, if_false]
  all_goals congr 1

/-- A ready unit whose function succeeds is done. -/
theorem unit_done {x : Iss} {i : Instr} {s u : State} {l : LaneIn} {voc e : Bool} {b : Beside} {fs : Fields} {f : Iss → LaneIn → State → UnitRes} (h : UnitReady x i s l)
    (hb : b = besideOf i) (hf : fs = unitFields i) (he : f x l s = .ok u) :
    ∃ t, execUnitAt voc e b fs f s = .next t ∧ (Stands x (claim u x.c x.g.wslot) → UnitDone x (claim u x.c x.g.wslot) t) :=
  ⟨_, by rw [unit_eq h hb hf, he], unitDone_endUnit e false⟩

/-- A tile put in the queue of a sequencer with room. -/
theorem enqueue_ok' {x : Iss} {l : LaneIn} {s : State} {op : SeqOp} (tile : Bool) (h : x.k.mtx.queue.length < 8) :
    enqueue x l s op (fun s q => (if tile then modMtx s x.c fun m => { m with cseq := m.cseq + 1 } else s, q)) = .ok (queued x l s op tile) := by
  unfold enqueue
  rw [if_neg (by omega)]
  unfold queued State.fresh
  have : (claim s x.c x.g.wslot).nextId = s.nextId := rfl
  simp only [this, beq_iff_eq]

/-- An entry put in the queue of a sequencer with room. -/
theorem enqueue_ok {x : Iss} {l : LaneIn} {s : State} {op : SeqOp} (h : x.k.mtx.queue.length < 8) : enqueue x l s op (fun s q => (s, q)) = .ok (queued x l s op) :=
  enqueue_ok' false h

/-- The ranges of a record's buffer in their bounds. -/
theorem recBound_none {s : State} {ln : Lane} {r : BitVec 128} {l : List (Int × Nat)} (h : ∀ y ∈ l, rowInBound s ln r y.1 y.2) : recBound s ln r l = none := by
  unfold recBound
  simp only [Bool.or_eq_true, beq_iff_eq]
  split_ifs with h0
  · rfl
  · rw [Option.map_eq_none_iff, List.find?_eq_none]
    intro y hy
    rcases h y hy with h | h | h | ⟨t, h1, h2, h3⟩
    · exact absurd (.inl h) h0
    · exact absurd (.inr h) h0
    · simp [h]
    · simp only [h1, h3, decide_eq_true h2, Bool.and_self, Bool.or_true, Bool.not_true, Bool.false_eq_true, not_false_eq_true]

/-- No detail where every check passes. -/
theorem firstDetail_zero {l : List Nat} : firstDetail l = 0 ↔ ∀ d ∈ l, d = 0 := by
  unfold firstDetail
  constructor
  · intro h d hd
    by_contra hne
    cases hf : l.find? fun d => d != 0 with
    | none => rw [List.find?_eq_none] at hf; exact hne (by simpa using hf d hd)
    | some y => rw [hf] at h; have := List.find?_some hf; simp at this h; exact this h
  · intro h
    have : (l.find? fun d => d != 0) = none := by rw [List.find?_eq_none]; intro d hd; simp [h d hd]
    rw [this]; rfl

/-- A drain put in the queue with its copies. -/
theorem drainCopies_ok {x : Iss} {l : LaneIn} {s : State} {slot mode : Nat} {rc : BitVec 128} {p : Part4} {tile : Bool} {word : Option Nat} (h : x.k.mtx.queue.length < 8) :
    enqueue x l s (.mdrn slot rc mode word p tile) (fun s q => drainCopies x l s rc p word q) = .ok (drainQueued x l s slot rc mode word p tile) := by
  unfold enqueue
  rw [if_neg (by omega)]
  unfold drainQueued State.fresh drainCopies
  have : (claim s x.c x.g.wslot).nextId = s.nextId := rfl
  cases word with
  | none => simp only [this, beq_iff_eq, State.fresh]; rfl
  | some a => simp only [this, beq_iff_eq, State.fresh]; rfl

/-- A drain whose checks pass. -/
theorem drain_ok {x : Iss} {i : Instr} {s : State} {l : LaneIn} {slot c mode : Nat} {amax : Bool} {p : Part4} {tile : Bool} {e : Bool} {fs : Fields}
    (hr : UnitReady x i s l) (hb : besideOf i = .never) (hf : fs = unitFields i) (h : DrainFits x s l slot (l.ln.w.shape c) amax p tile) {u : State}
    (hu : u = claim (drainQueued x l s slot (l.ln.w.shape c) mode (if amax = true then some (l.ln.t.pair l.a) else none) p tile) x.c x.g.wslot) :
    ∃ t, drainUnit e fs slot c mode amax s = .next t ∧ (Stands x u → UnitDone x u t) := by
  obtain ⟨h1, h2, h3, h4, h5, h6, h7⟩ := h
  subst hu
  unfold drainUnit
  refine unit_done hr hb.symm hf ?_
  unfold recOf
  simp only []
  unfold isTile at h2
  rw [← h2, ← h3, if_neg]
  rotate_left
  · rw [bne_iff_ne, ne_eq, not_not, firstDetail_zero]
    simp only [List.mem_cons, List.not_mem_nil, or_false, forall_eq_or_imp, forall_eq]
    exact ⟨h4, by rw [if_neg (by omega)]⟩
  have hz : recBound s l.ln (l.ln.w.shape c) ((List.range p.mq).map fun m =>
      ((((p.m0 + m) * rStride (l.ln.w.shape c) + p.q0 * (fmtBits (rFmt (l.ln.w.shape c)) / 8) : Nat) : Int), p.nq * (fmtBits (rFmt (l.ln.w.shape c)) / 8))) = none :=
    recBound_none fun y hy => by
      obtain ⟨m, hm, rfl⟩ := List.mem_map.mp hy
      exact h6 m (List.mem_range.mp hm)
  rw [hz]
  cases amax with
  | false => exact drainCopies_ok h1
  | true =>
    obtain ⟨t, ht, ho, hi⟩ := h7 rfl
    simp only [ht, ho, hi, Bool.not_true, Bool.false_eq_true, if_false, if_true, bne_self_eq_false, Option.none_or]
    exact drainCopies_ok h1

/-- A projection that ended. -/
theorem voc_ends_done {x : Iss} {i : Instr} {s u : State} {l : LaneIn} {e : Bool} {b : Beside} {check : Iss → LaneIn → State → Except (Code × Nat × Nat) Vocab}
    {f : Iss → LaneIn → State → Vocab → UnitRes} (hr : UnitReady x i s l) (hb : b = besideOf i) (hf : unitFields i = {}) (h : Machine.VocEnds x)
    (ho : VocOver x s u) : ∃ t, execVoc e b check f s = .next t ∧ (Stands x (claim u x.c x.g.wslot) → UnitDone x (claim u x.c x.g.wslot) t) := by
  obtain ⟨h1, h2, a, d, h3⟩ := h
  unfold execVoc
  refine unit_done hr hb hf.symm ?_
  simp only []
  rw [if_pos (by simp [h1, h2])]
  simp only [h3]
  cases ho with
  | first h4 => simp only [h4, Bool.false_eq_true, if_false]
  | resumed h4 h5 => simp only [h4, if_true, h5]

/-- A group free to begin, whose instruction passes its checks at issue. -/
theorem voc_free {x : Iss} {i : Instr} {s : State} {l : LaneIn} {e : Bool} {b : Beside} {check : Iss → LaneIn → State → Except (Code × Nat × Nat) Vocab}
    {f : Iss → LaneIn → State → Vocab → UnitRes} {v : Vocab} {r : UnitRes} (hr : UnitReady x i s l) (hb : b = besideOf i) (hf : unitFields i = {}) (h : VocFree x)
    (hc : check x l s = .ok v) (hg : f x l (vocTaken x s) v = r) :
    (∀ u, r = .ok u → ∃ t, execVoc e b check f s = .next t ∧ ∀ y, y = claim (u.wakeAll x.c fun w => w == .vocab) x.c x.g.wslot → (Stands x y → UnitDone x y t)) ∧
    (∀ u, r = .wait u .vocab → execVoc e b check f s = .next (u.stallUnit x .vocab)) := by
  obtain ⟨⟨g1, g2⟩, h2, h3, h4⟩ := h
  have hm : (x.k.vwait.bind fun v => if (v.group == x.g.slot && v.tid == l.ln.t.tid && x.g.hint.why != .none) = true then some v else none) = none := by
    cases hv : x.k.vwait with
    | none => rfl
    | some v =>
      simp only [Option.bind_some]
      rw [if_neg]
      simp only [Bool.and_eq_true, beq_iff_eq, bne_iff_ne, not_and, not_not, and_imp]
      exact fun h _ => h4 v hv h
  subst hg
  refine ⟨fun u hu => ?_, fun u hu => ?_⟩
  · refine ⟨_, ?_, fun y hy => by subst hy; exact unitDone_endUnit e false⟩
    unfold execVoc
    rw [unit_eq hr hb hf.symm]
    simp only []
    rw [if_neg (by simpa using h2), if_neg (by simp [fullGroup, g1, g2])]
    simp only [hm, hc, h3, List.isEmpty_nil, Bool.not_true, Bool.false_eq_true, if_false]
    unfold vocTaken at hu
    rw [hu]
  · unfold execVoc
    rw [unit_eq hr hb hf.symm]
    simp only []
    rw [if_neg (by simpa using h2), if_neg (by simp [fullGroup, g1, g2])]
    simp only [hm, hc, h3, List.isEmpty_nil, Bool.not_true, Bool.false_eq_true, if_false]
    unfold vocTaken at hu
    rw [hu]

/-- No row exceeds its capacity. -/
theorem overCap_none {cap b : Nat} {l : List Nat} (h : ∀ n ∈ l, n ≤ cap) : overCap cap b l = none := by
  unfold overCap
  have : l.findIdx? (fun n => decide (cap < n)) = none := by
    rw [List.findIdx?_eq_none_iff]
    intro n hn
    simpa using h n hn
  rw [this]

end Sys2Proof.Machine
end

