-- ==== Sys2Proof/Laws/Xfer.lean ====
section
/-! SUPPORT. Transfers of control: where the members of a group go. -/

namespace Sys2Proof.Machine

open State

/-- A unit without effect. -/
theorem pass_done {s : State} {x : Iss} (h : Issues s x) (e stop : Bool) :
    UnitDone x s ((s.advance x []).endUnit x e stop .none) ∧ ((e || stop) = true → RunOver x ((s.advance x []).endUnit x e stop .none)) :=
  ⟨unitDone_endUnit e stop h.stands, runOver_endUnit e stop h.stands⟩

/-- Messages leave a unit done. -/
theorem UnitDone.posts {x : Iss} {u s t : State} (h : UnitDone x u s) (p : Posts s t) : UnitDone x u t := by
  have ht : ∀ i, t.thread x.c x.g.wslot i = s.thread x.c x.g.wslot i := fun i => by rw [thread_bind, p.wg, ← thread_bind]
  exact ⟨h.frame.trans (p.onCore _), fun w hw => by rw [p.wg, h.wgs w hw], fun w hw => by rw [p.wg]; exact h.wg w hw,
    fun i hi => by rw [ht, h.threads i hi], fun i hi th hth => by rw [ht]; exact h.members i hi th hth, by rw [p.core]; exact h.group⟩

/-- A state with its active lanes moved on. -/
def moved (x : Iss) (u : State) : State :=
  (x.active.foldl (fun s t => s.modThread x.c x.g.wslot t fun th => { th with pend := .none }) u).advance x x.active

/-- Active lanes are members. -/
theorem active_sub (x : Iss) : ∀ i ∈ x.active, i ∈ x.g.members := by
  intro i hi
  unfold Iss.active at hi
  split at hi
  · exact List.mem_of_mem_filter hi
  · split at hi
    · exact List.mem_of_mem_filter hi
    · exact List.mem_of_mem_filter hi

/-- The members that were not active. -/
theorem mem_advance (x : Iss) (a : List Nat) (i : Nat) : i ∈ (x.g.members.filter fun t => !a.contains t) ↔ i ∈ x.g.members ∧ i ∉ a := by simp

/-- The state in which every member's own part is done. -/
theorem moved_spec (x : Iss) (u : State) (hu : Stands x u) (hm : NoMerge u x.c) :
    OnCore x.c u (moved x u) ∧ (∀ w, w ≠ x.g.wslot → (moved x u).wg x.c w = u.wg x.c w) ∧
    (∀ w, u.wg x.c x.g.wslot = some w → ∃ ths, (moved x u).wg x.c x.g.wslot = some { w with threads := ths }) ∧
    (∀ i, (moved x u).thread x.c x.g.wslot i = if i ∈ x.g.members then (u.thread x.c x.g.wslot i).map (afterXfer x i) else u.thread x.c x.g.wslot i) ∧
    ((((moved x u).core x.c).ctx.bind fun k => k.group x.g.slot) = (u.core x.c).ctx.bind fun k => k.group x.g.slot) ∧ NoMerge (moved x u) x.c := by
  obtain ⟨k, g, hk, hg, -⟩ := hu.group
  set F : Thread → Thread := fun th => { th with pend := .none } with hF
  set G : Thread → Thread := fun th => { th with pc := x.next, rep := x.repAfter th.rep, pend := .none } with hG
  have hGG : ∀ th, G (G th) = G th := fun th => by simp only [hG, Iss.repAfter]; split_ifs <;> rfl
  set a1 := x.active.foldl (fun s t => s.modThread x.c x.g.wslot t F) u with ha1
  have e : moved x u = (x.g.members.filter fun t => !x.active.contains t).foldl (fun s t => s.modThread x.c x.g.wslot t G) a1 := advance_eq a1 x x.active
  have f1 : OnCore x.c u a1 := foldl_modThread_onCore _ _ F _ _
  have f2 : OnCore x.c a1 (moved x u) := by rw [e]; exact foldl_modThread_onCore _ _ G _ _
  have nm : ∀ (f : Thread → Thread) (l : List Nat) (s : State), NoMerge s x.c → NoMerge (l.foldl (fun s t => s.modThread x.c x.g.wslot t f) s) x.c := by
    intro f l
    induction l with
    | nil => intro s h; exact h
    | cons a l ih => intro s h; exact ih _ (h.modCtx (fun k => k.modWg x.g.wslot fun w => w.modThread a f) fun k hk => hk)
  refine ⟨f1.trans f2, ?_, ?_, ?_, ?_, ?_⟩
  · intro w hw
    rw [e, wg_foldl_modThread _ _ _ G hw, ha1, wg_foldl_modThread _ _ _ F hw]
  · intro w hw
    obtain ⟨t1, h1⟩ := wg_foldl_modThread_self x.c x.g.wslot F x.active u w hw
    obtain ⟨t2, h2⟩ := wg_foldl_modThread_self x.c x.g.wslot G (x.g.members.filter fun t => !x.active.contains t) a1 _ h1
    exact ⟨t2, by rw [e]; exact h2⟩
  · intro i
    rw [e, thread_foldl_modThread _ _ G (fun _ => rfl) hGG, ha1, thread_foldl_modThread _ _ F (fun _ => rfl) (fun _ => rfl)]
    by_cases h1 : i ∈ x.g.members
    · by_cases h2 : i ∈ x.active
      · rw [if_neg (by simp [h2]), if_pos h2, if_pos h1]
        congr 1; funext th; simp [hF, afterXfer, h2]
      · rw [if_pos (by simp [h1, h2]), if_neg h2, if_pos h1]
        congr 1; funext th; simp [hG, afterXfer, h2]
    · rw [if_neg (by simp [h1]), if_neg fun h => h1 (active_sub x i h), if_neg h1]
  · rw [e, group_foldl_modThread, ha1, group_foldl_modThread]
  · rw [e]; exact nm _ _ _ (nm _ _ _ hm)

/-- Where the members go that a transfer does not take. -/
theorem splitTaken_out {x : Iss} {a : State} {k : Ctx} {g : Group} (tk : List Nat) (hk : (a.core x.c).ctx = some k) (hg : k.group x.g.slot = some g)
    (hm : g.members = x.g.members) (hne : x.g.members ≠ []) :
    a.splitTaken x.c x.g.slot (fun t => tk.contains t) = a.leave x.c x.g.slot (outOfTaken x tk) .seedbed ∨
    (a.splitTaken x.c x.g.slot (fun t => tk.contains t) = a ∧ outOfTaken x tk = [] ∧ x.g.members ≠ []) := by
  have e1 : (x.g.members.filter fun t => tk.contains t) = x.g.members.filter fun i => i ∈ tk := by congr 1; funext t; simp
  have e2 := filter_not_contains x.g.members tk
  unfold splitTaken outOfTaken
  rw [hk, Option.bind_some, hg]
  simp only [hm, e1, e2, List.isEmpty_iff, Bool.or_eq_true]
  by_cases h : (x.g.members.filter fun i => i ∈ tk) = [] ∨ (x.g.members.filter fun i => i ∉ tk) = []
  · right; rw [if_pos (by simpa using h), if_pos h]; exact ⟨rfl, rfl, hne⟩
  · left; rw [if_neg (by simpa using h), if_neg h]

/-- Those out are members. -/
theorem xferOut_sub {x : Iss} {i : Instr} {u : State} {out : List Nat} (h : XferOut x i u out) : ∀ j ∈ out, j ∈ x.g.members := by
  unfold XferOut at h
  split at h
  · subst h; unfold outOfTaken
    intro j hj
    simp only [] at hj
    split_ifs at hj
    · cases hj
    · exact List.mem_of_mem_filter hj
    · exact List.mem_of_mem_filter hj
  · obtain ⟨i, -, rfl, -⟩ := h
    intro j hj; exact List.mem_of_mem_filter hj

/-- A transfer by its lanes. -/
theorem transfer_eq {x : Iss} {i : Instr} {s u : State} {fs : Fields} {f : LaneFn} (e : Bool) (sp : List Nat → Split)
    (h : ActUnit x fs (XferLane x i) s u) (hf : ∀ s l u v, XferLane x i s l u v → f s l = (u, .ok v)) :
    transfer x e fs sp f s = (moved x u).endUnit x e false (sp x.active) := by
  unfold transfer
  simp only [h.lanes.foldl h.single hf, Bool.false_eq_true, if_false]
  rw [trapsOr_nil]
  simp only [List.map_nil, List.nil_append, moved]
  simp

/-- A transfer whose taken lanes are named. -/
theorem taken_done {x : Iss} {u : State} {i : Instr} {tk out : List Nat} (e : Bool) (hne : x.g.members ≠ []) (ht : takenOf x i = some tk) (ho : XferOut x i u out)
    (hu : Stands x u) (hm : NoMerge u x.c) : Parted x out .seedbed (afterXfer x) u ((moved x u).endUnit x e false (.taken tk)) := by
  have ho' := ho
  unfold XferOut at ho
  rw [ht] at ho
  obtain ⟨f1, w1, s1, t1, g1, n1⟩ := moved_spec x u hu hm
  obtain ⟨k, g, hk, hg, hgm, -⟩ := hu.group
  obtain ⟨k1, hk1, -⟩ := f1.ctx k hk
  have hg1 : k1.group x.g.slot = some g := by simpa [hk1, hk, hg] using g1
  have hs := splitTaken_out tk hk1 hg1 hgm hne
  rw [← ho] at hs
  exact parted_of (b := (moved x u).splitTaken x.c x.g.slot fun t => tk.contains t) e false hu n1 (fun _ _ => rfl) f1 w1 s1 t1 g1 (xferOut_sub ho') hs

/-- The first by an order. -/
theorem firstBy_split {c : Nat → Nat} {l : List Nat} {r : Nat} (h : firstBy (fun a b => decide (c a > c b)) l = some r) :
    ∃ p q, l = p ++ r :: q ∧ (∀ y ∈ p, c y < c r) ∧ ∀ y ∈ q, c y ≤ c r := by
  cases l with
  | nil => cases h
  | cons a l =>
    simp only [firstBy, Option.some.injEq] at h
    have key : ∀ (l : List Nat) (L : List Nat) (b : Nat), (∃ p q, L = p ++ b :: q ∧ (∀ y ∈ p, c y < c b) ∧ ∀ y ∈ q, c y ≤ c b) →
        ∃ p q, L ++ l = p ++ (l.foldl (fun best y => if decide (c y > c best) = true then y else best) b) :: q ∧
          (∀ y ∈ p, c y < c (l.foldl (fun best y => if decide (c y > c best) = true then y else best) b)) ∧
          ∀ y ∈ q, c y ≤ c (l.foldl (fun best y => if decide (c y > c best) = true then y else best) b) := by
      intro l
      induction l with
      | nil => intro L b h; simpa using h
      | cons y l ih =>
        rintro L b ⟨p, q, rfl, h1, h2⟩
        rw [List.foldl_cons]
        by_cases hy : c y > c b
        · simp only [hy, decide_true, if_true]
          have := ih (p ++ b :: q ++ [y]) y ⟨p ++ b :: q, [], by simp, by
            intro z hz
            rcases List.mem_append.mp hz with hz | hz
            · exact lt_trans (h1 z hz) hy
            · rcases List.mem_cons.mp hz with rfl | hz
              · exact hy
              · exact lt_of_le_of_lt (h2 z hz) hy, by simp⟩
          simpa using this
        · simp only [hy, decide_false, Bool.false_eq_true, if_false]
          have := ih (p ++ b :: (q ++ [y])) b ⟨p, q ++ [y], rfl, h1, by
            intro z hz
            rcases List.mem_append.mp hz with hz | hz
            · exact h2 z hz
            · simp at hz; subst hz; omega⟩
          simpa using this
    have := key l [a] a ⟨[], [], rfl, by simp, by simp⟩
    rw [h] at this
    simpa using this

/-- The first by an order is greatest. -/
theorem first_max {c : Nat → Nat} {l : List Nat} {r i : Nat} (h : firstBy (fun a b => decide (c a > c b)) l = some r) (hi : i ∈ l)
    (hmax : ∀ j ∈ l, c j < c i ∨ (c j = c i ∧ (l.findIdx fun t => t == i) ≤ l.findIdx fun t => t == j)) : i = r := by
  obtain ⟨p, q, rfl, h1, h2⟩ := firstBy_split h
  have hr : r ∉ p := fun hr => absurd (h1 r hr) (lt_irrefl _)
  have idx : ∀ z, z ∉ p → ((p ++ r :: q).findIdx fun t => t == z) = p.length + (if r = z then 0 else (q.findIdx fun t => t == z) + 1) := by
    intro z hz
    rw [List.findIdx_append, if_neg, List.findIdx_cons]
    · by_cases e : r = z
      · simp [e]
      · rw [if_neg e, show (r == z) = false by simpa using e]; simp; omega
    · rw [List.findIdx_lt_length]
      rintro ⟨y, hy, e⟩
      simp at e; subst e; exact hz hy
  rcases hmax r (by simp) with h3 | ⟨h3, h4⟩
  · exfalso
    rcases List.mem_append.mp hi with hp | hp
    · have := h1 i hp; omega
    · rcases List.mem_cons.mp hp with rfl | hp
      · omega
      · have := h2 i hp; omega
  · have hip : i ∉ p := fun hp => by have := h1 i hp; omega
    rw [idx i hip, idx r hr, if_pos rfl] at h4
    by_contra hne
    rw [if_neg (Ne.symm hne)] at h4
    omega

/-- Where the members go by their program counters. -/
theorem splitByPc_out {x : Iss} {i : Instr} {u : State} {out : List Nat} (ht : takenOf x i = none) (ho : XferOut x i u out) (hu : Stands x u) (hm : NoMerge u x.c) :
    (moved x u).splitByPc x.c x.g.slot = (moved x u).leave x.c x.g.slot out .seedbed ∨
    ((moved x u).splitByPc x.c x.g.slot = moved x u ∧ out = [] ∧ x.g.members ≠ []) := by
  unfold XferOut at ho
  rw [ht] at ho
  obtain ⟨b, hb, rfl, hmax⟩ := ho
  have hne : x.g.members ≠ [] := by rintro h; rw [h] at hb; cases hb
  obtain ⟨f1, -, s1, t1, g1, -⟩ := moved_spec x u hu hm
  obtain ⟨k, g, hk, hg, hgm, hgw, -⟩ := hu.group
  obtain ⟨w, hwg⟩ := Option.isSome_iff_exists.mp hu.wg
  obtain ⟨k1, hk1, -⟩ := f1.ctx k hk
  have hg1 : k1.group x.g.slot = some g := by simpa [hk1, hk, hg] using g1
  obtain ⟨ths, hw1⟩ := s1 w hwg
  have hkw : k1.wg g.wslot = some { w with threads := ths } := by rw [hgw]; simpa [State.wg, hk1] using hw1
  set pc : Nat → Nat := fun j => ((u.thread x.c x.g.wslot j).map fun th => if j ∈ x.active then th.pc else x.next).getD 0 with hpc
  set W : Workgroup := { w with threads := ths } with hW
  have hWt : ∀ j, W.thread j = (moved x u).thread x.c x.g.wslot j := fun j => by rw [thread_bind, hw1]; rfl
  have hpcW : ∀ j ∈ x.g.members, ((W.thread j).map fun (th : Thread) => th.pc).getD 0 = pc j := by
    intro j hj
    rw [hWt, t1, if_pos hj, hpc]
    simp only []
    cases u.thread x.c x.g.wslot j <;> simp [afterXfer]
  have hcnt : ∀ n, (x.g.members.filter fun t => ((W.thread t).map fun (th : Thread) => th.pc).getD 0 == n) = x.g.members.filter fun j => pc j = n := fun n => by
    apply List.filter_congr; intro j hj; rw [hpcW j hj]; simp [Bool.beq_eq_decide_eq]
  obtain ⟨r, hr⟩ : ∃ r, firstBy (fun a b => decide ((x.g.members.filter fun j => pc j = pc a).length > (x.g.members.filter fun j => pc j = pc b).length)) x.g.members = some r := by
    cases hx : x.g.members with
    | nil => exact absurd hx hne
    | cons => exact ⟨_, rfl⟩
  have hbr := first_max (c := fun a => (x.g.members.filter fun j => pc j = pc a).length) hr hb hmax
  subst hbr
  have hout : (x.g.members.filter fun t => ((W.thread t).map fun (th : Thread) => th.pc).getD 0 != ((W.thread b).map fun (th : Thread) => th.pc).getD 0) =
      x.g.members.filter fun j => pc j ≠ pc b := by
    apply List.filter_congr; intro j hj; rw [hpcW j hj, hpcW b hb]; simp [bne, Bool.beq_eq_decide_eq]
  have e : (moved x u).splitByPc x.c x.g.slot = if (x.g.members.filter fun j => pc j ≠ pc b).isEmpty then moved x u
      else (moved x u).leave x.c x.g.slot (x.g.members.filter fun j => pc j ≠ pc b) .seedbed := by
    unfold splitByPc
    rw [hk1]
    simp only [Option.bind_some, hg1, hkw, Option.map_some, hgm, hcnt]
    have hf : firstBy (fun a b => decide ((x.g.members.filter fun j => pc j = ((W.thread a).map fun (th : Thread) => th.pc).getD 0).length >
        (x.g.members.filter fun j => pc j = ((W.thread b).map fun (th : Thread) => th.pc).getD 0).length)) x.g.members = some b := by
      rw [← hr]
      cases hx : x.g.members with
      | nil => rfl
      | cons y l =>
        rw [hx] at hpcW
        simp only [firstBy, Option.some.injEq]
        have : ∀ (l' : List Nat) (z : Nat), (∀ j ∈ l', j ∈ y :: l) → z ∈ y :: l →
            l'.foldl (fun best t => if decide (((y :: l).filter fun j => pc j = ((W.thread t).map fun (th : Thread) => th.pc).getD 0).length >
              ((y :: l).filter fun j => pc j = ((W.thread best).map fun (th : Thread) => th.pc).getD 0).length) = true then t else best) z =
            l'.foldl (fun best t => if decide (((y :: l).filter fun j => pc j = pc t).length > ((y :: l).filter fun j => pc j = pc best).length) = true then t else best) z := by
          intro l'
          induction l' with
          | nil => intros; rfl
          | cons t l' ih =>
            intro z h1 h2
            rw [List.foldl_cons, List.foldl_cons, hpcW t (h1 t (by simp)), hpcW z h2]
            apply ih
            · intro j hj; exact h1 j (by simp [hj])
            · split_ifs
              · exact h1 t (by simp)
              · exact h2
        exact this l y (fun j hj => by simp [hj]) (by simp)
    rw [hf]
    simp only [hout]
  rw [e]
  by_cases hem : (x.g.members.filter fun j => pc j ≠ pc b) = []
  · right; rw [hem]; exact ⟨rfl, rfl, hne⟩
  · left; rw [if_neg (by simpa [List.isEmpty_iff] using hem)]

/-- A transfer by program counters. -/
theorem byPc_done {x : Iss} {u : State} {i : Instr} {out : List Nat} (e : Bool) (ht : takenOf x i = none) (ho : XferOut x i u out)
    (hu : Stands x u) (hm : NoMerge u x.c) : Parted x out .seedbed (afterXfer x) u ((moved x u).endUnit x e false .byPc) := by
  obtain ⟨f1, w1, s1, t1, g1, n1⟩ := moved_spec x u hu hm
  exact parted_of (b := (moved x u).splitByPc x.c x.g.slot) e false hu n1 (fun _ _ => rfl) f1 w1 s1 t1 g1 (xferOut_sub ho) (splitByPc_out ht ho hu hm)

/-- No wait for a spill. -/
theorem spillWait_eq {x : Iss} {l : List Nat} {s : State} (k : State → State) (h : x.g.fillOk = true ∨ l = []) : spillWait x l s k = k s := by
  unfold spillWait
  rw [if_pos]
  rcases h with h | h <;> simp [h]

/-- A call's lane. -/
theorem call_lane {n tg : Nat} {s u v : State} {l : LaneIn} {t1 t2 : Thread} (h1 : n ≤ l.ln.t.c) (h2 : l.ln.t.wb + n + l.ln.t.c + 4 ≤ linkBottom l.ln.g l.ln.t)
    (h3 : s.moveWindow l.ln (l.ln.t.wb + n) l.ln.t.c = (u, .ok t1)) (h4 : u.pushLink l.ln t1 l.x.next n = (v, .ok t2)) :
    callLane n tg s l = (v, .ok { t2 with pc := tg }) := by
  unfold callLane
  rw [if_neg (by omega), if_neg (by omega), h3]
  simp only [h4]

/-- No lane moves. -/
theorem mayMove_nil {x : Iss} {p : Nat → Bool} (h : (x.active.any p) = false) : x.active.filter p = [] := by
  rw [List.filter_eq_nil_iff]; rw [List.any_eq_false] at h; exact h

/-- The lanes that a branch takes. -/
theorem taken_filter (x : Iss) (p : BitVec 3) (n : Bool) :
    (x.active.filter fun t => match x.w.thread t with
      | some th => predIn th p n
      | none => false) = x.active.filter fun i => (x.w.thread i).any fun th => predIn th p n := by
  congr 1; funext t; cases x.w.thread t <;> rfl

/-- A thread of a workgroup is in its list. -/
theorem mem_thread {w : Workgroup} {i : Nat} {th : Thread} (h : w.thread i = some th) : th ∈ w.threads := List.mem_of_find?_eq_some h

/-- The context of a core. -/
theorem place_active {s : State} {c : CoreRef} {k : Ctx} {gen : Nat} (h : (s.core c).ctx = some k) (hg : k.gen = gen) : s.ctxAt c gen = some k := by
  unfold ctxAt place
  simp [h, hg]

/-- A live workgroup does not end. -/
theorem checkEnd_live {s : State} {c : CoreRef} {k : Ctx} {gen wslot : Nat} {w : Workgroup} {th : Thread} (h : (s.core c).ctx = some k) (hg : k.gen = gen)
    (hw : k.wg wslot = some w) (ht : th ∈ w.threads) (hl : th.status = .grouped ∨ th.status = .seedbed ∨ th.status = .waitXlate) : s.checkEnd c gen wslot = s := by
  unfold checkEnd
  rw [place_active h hg]
  simp only [Option.bind_some, hw]
  rw [if_pos]
  have : (w.threads.any fun t => t.status == .grouped || t.status == .seedbed || t.status == .waitXlate) = true := by
    rw [List.any_eq_true]; exact ⟨th, ht, by rcases hl with h | h | h <;> simp [h]⟩
  rw [this]; simp

/-- A state with its active lanes gone. -/
def moved' (x : Iss) (u : State) : State :=
  x.active.foldl (fun s t => s.modThread x.c x.g.wslot t fun th => { th with pend := .none }) (u.advance x x.active)

/-- The state in which every member's own part is done. -/
theorem moved'_spec (x : Iss) (u : State) (hu : Stands x u) (hm : NoMerge u x.c) :
    OnCore x.c u (moved' x u) ∧ (∀ w, w ≠ x.g.wslot → (moved' x u).wg x.c w = u.wg x.c w) ∧
    (∀ w, u.wg x.c x.g.wslot = some w → ∃ ths, (moved' x u).wg x.c x.g.wslot = some { w with threads := ths }) ∧
    (∀ i, (moved' x u).thread x.c x.g.wslot i = if i ∈ x.g.members then (u.thread x.c x.g.wslot i).map (afterXfer x i) else u.thread x.c x.g.wslot i) ∧
    ((((moved' x u).core x.c).ctx.bind fun k => k.group x.g.slot) = (u.core x.c).ctx.bind fun k => k.group x.g.slot) ∧ NoMerge (moved' x u) x.c := by
  obtain ⟨k, g, hk, hg, -⟩ := hu.group
  set F : Thread → Thread := fun th => { th with pend := .none } with hF
  set G : Thread → Thread := fun th => { th with pc := x.next, rep := x.repAfter th.rep, pend := .none } with hG
  have hGG : ∀ th, G (G th) = G th := fun th => by simp only [hG, Iss.repAfter]; split_ifs <;> rfl
  set a1 := (x.g.members.filter fun t => !x.active.contains t).foldl (fun s t => s.modThread x.c x.g.wslot t G) u with ha1
  have e : moved' x u = x.active.foldl (fun s t => s.modThread x.c x.g.wslot t F) a1 := by unfold moved'; rw [advance_eq]
  have f1 : OnCore x.c u a1 := foldl_modThread_onCore _ _ G _ _
  have f2 : OnCore x.c a1 (moved' x u) := by rw [e]; exact foldl_modThread_onCore _ _ F _ _
  have nm : ∀ (f : Thread → Thread) (l : List Nat) (s : State), NoMerge s x.c → NoMerge (l.foldl (fun s t => s.modThread x.c x.g.wslot t f) s) x.c := by
    intro f l
    induction l with
    | nil => intro s h; exact h
    | cons a l ih => intro s h; exact ih _ (h.modCtx (fun k => k.modWg x.g.wslot fun w => w.modThread a f) fun k hk => hk)
  refine ⟨f1.trans f2, ?_, ?_, ?_, ?_, ?_⟩
  · intro w hw
    rw [e, wg_foldl_modThread _ _ _ F hw, ha1, wg_foldl_modThread _ _ _ G hw]
  · intro w hw
    obtain ⟨t1, h1⟩ := wg_foldl_modThread_self x.c x.g.wslot G (x.g.members.filter fun t => !x.active.contains t) u w hw
    obtain ⟨t2, h2⟩ := wg_foldl_modThread_self x.c x.g.wslot F x.active a1 _ h1
    exact ⟨t2, by rw [e]; exact h2⟩
  · intro i
    rw [e, thread_foldl_modThread _ _ F (fun _ => rfl) (fun _ => rfl), ha1, thread_foldl_modThread _ _ G (fun _ => rfl) hGG]
    by_cases h1 : i ∈ x.g.members
    · by_cases h2 : i ∈ x.active
      · rw [if_pos h2, if_neg (by simp [h2]), if_pos h1]
        congr 1; funext th; simp [hF, afterXfer, h2]
      · rw [if_neg h2, if_pos (by simp [h1, h2]), if_pos h1]
        congr 1; funext th; simp [hG, afterXfer, h2]
    · rw [if_neg fun h => h1 (active_sub x i h), if_neg (by simp [h1]), if_neg h1]
  · rw [e, group_foldl_modThread, ha1, group_foldl_modThread]
  · rw [e]; exact nm _ _ _ (nm _ _ _ hm)

/-- A lane of an issuing group. -/
theorem issues_laneIn {s : State} {x : Iss} (h : Issues s x) (fs : Fields) {i : Nat} {th : Thread} (ht : x.w.thread i = some th) :
    ∃ l, s.laneIn x fs i = some l ∧ l.ln.t = th := by
  obtain ⟨-, -, -, -, hg⟩ := issuing_spec h.1
  unfold laneIn
  rw [h.thread, ht, h.wg, hg]
  exact ⟨_, rfl, rfl⟩

/-- A lane of `eret`. -/
theorem eretLane {s v : State} {l : LaneIn} {t : Thread} (h : EretLane s l v t) : s.handlerReturn l.ln = (v, .ok t) := by
  cases h with
  | back h1 h2 => unfold handlerReturn; simp only [h1, h2]

end Sys2Proof.Machine
end

