-- ==== Sys2Proof/Tests/Slice0.lean ====
section
/-! SUPPORT. Tests: a witness for the hypotheses of every statement and for every step that the statements relate, one word of each
instruction decoded, an ill-formed term for each check, and results of single instructions worked out by hand from their rules. -/

namespace Sys2Proof.Tests

open Sys2Proof Machine Machine.State

/- One theorem at a time: the evaluations of many at once take more memory than the check allows. -/
set_option Elab.async false

def core0 : CoreRef := { pkg := 0, die := 0, core := 0 }
def thr (tid : Nat) : Thread := { tid := tid, status := .grouped, pc := 0x10040, c := 64 }
def grp (n : Nat) : Group := { slot := 0, sched := 0, age := 1, wslot := 0, members := List.range n, st := .running }
def wg (ts : List Thread) : Workgroup :=
  { slot := 0, grid := 0x8000, block := 0, threads := ts, lsize := 0x1000, members := [{ core := 0, lbase := 0, lsize := 0x1000 }], started := true, cleared := true }
def ctx (ts : List Thread) (g : Group) : Ctx := { gen := 1, cid := 1, wgs := [wg ts], groups := [g] }
/-- A state in which a group of the given threads issues. -/
def st (ts : List Thread) (g : Group) (gr : Grid) : State :=
  { State.reset with cores := [{ at_ := core0, ctx := some (ctx ts g) }], grids := [gr], cur := some (core0, 0) }
def iss (ts : List Thread) (g : Group) (gr : Grid) : Iss := { c := core0, k := ctx ts g, g := g, w := wg ts, grid := gr }
def s1 : State := st [thr 0] (grp 1) placedGrid
def x1 : Iss := iss [thr 0] (grp 1) placedGrid
theorem test_issues : Issues s1 x1 := ⟨rfl, rfl⟩
theorem test_stands : Stands x1 s1 := ⟨⟨ctx [thr 0] (grp 1), grp 1, rfl, rfl, rfl, rfl, rfl, rfl⟩, rfl⟩
theorem lane1 (fs : Fields) (h : fs.within 64 none = true) : LaneUnit s1 x1 fs :=
  ⟨test_issues, rfl, by decide, by intro i hi; obtain rfl : i = 0 := by simpa [x1, iss, grp] using hi
                                   exact ⟨thr 0, rfl, rfl⟩,
   by intro i hi th hth
      have : th.c = 64 := by
        have := List.mem_of_find?_eq_some hth
        simp [x1, iss, wg] at this; subst this; rfl
      rw [this]; exact h⟩

def word (i : Instr) : Nat := (encode i).getD 0
def placed (i : Instr) : State := { st [thr 0] (grp 1) placedGrid with cur := none, gmem := mwrite [] 0x10040 4 (word i) }

theorem test_witness_DecodeOfEncode : ∃ (i : Instr) (w nhx : Nat), i.Wf ∧ encode i = some w ∧ (∀ e d k, i = .lim e d k → nhx < 2) ∧
    (∀ e d k, i = .limB64 e d k → nhx = 2) :=
  ⟨.lim false 63 0x7FFFF, 0x15FFFFFF, 1, rfl, rfl, fun _ _ _ _ => by decide, fun _ _ _ h => by cases h⟩
theorem test_witness_DecodeOfEncode_pair : ∃ (i : Instr) (w nhx : Nat), i.Wf ∧ encode i = some w ∧ (∀ e d k, i = .lim e d k → nhx < 2) ∧
    (∀ e d k, i = .limB64 e d k → nhx = 2) :=
  ⟨.limB64 true 31 0, 0x95F00000, 2, rfl, rfl, fun _ _ _ h => (by cases h), fun _ _ _ _ => rfl⟩
theorem test_witness_EncodeOfDecode : ∃ (i : Instr) (w nhx : Nat), w < 2 ^ 32 ∧ decodeWord nhx w = .ok i := ⟨.hx 0x3FFFFF, 0x7E3FFFFF, 0, by decide, rfl⟩
theorem test_witness_UnassignedMajorsRefused : (0x24 ≤ 0x48000000 / 2 ^ 25 % 2 ^ 6 ∧ 0x48000000 / 2 ^ 25 % 2 ^ 6 ≤ 0x3E) ∧
    (0x24 ≤ 0x7DFFFFFF / 2 ^ 25 % 2 ^ 6 ∧ 0x7DFFFFFF / 2 ^ 25 % 2 ^ 6 ≤ 0x3E) := by decide
theorem test_witness_StepRunsDecoded : ∃ s c slot x u v w i t, pick s = some (.issue c slot) ∧ ({ s with cur := some (c, slot) } : State).issuing = some x ∧
    (s.core c).stopped = false ∧ mayIssue x.k x.g x.w = true ∧ boundaryStep { s with cur := some (c, slot) } x = none ∧ x.g.run + x.g.hint.words < 24 ∧
    fetchWord { s with cur := some (c, slot) } x = .ok (u, w) ∧ decodeWord x.g.hint.hx.length w = .ok i ∧ isHint w = false ∧
    suits x.g.hint w i = true ∧ landUnit u x w = .ok v ∧ exec i v = .next t :=
  ⟨placed (.nop false), core0, 0, x1, { placed (.nop false) with cur := some (core0, 0) }, _, word (.nop false), .nop false, _, rfl, rfl, rfl, rfl, rfl, by decide,
    rfl, rfl, rfl, rfl, rfl, rfl⟩
theorem test_witness_StepRunsDecoded_posted : ∃ s n i t, pick s = some (.posted n i) ∧ exec i { s with agenda := s.agenda.eraseIdx n } = .next t :=
  ⟨{ State.reset with agenda := [.powerThrottle 0] }, 0, .powerThrottle 0, _, rfl, rfl⟩
theorem test_witness_StepRunsDecoded_idle : pick State.reset = none := rfl
theorem test_witness_EventsComplete : ∃ i, isEvent i = true := ⟨.powerThrottle 0, rfl⟩
theorem test_witness_StepKeepsSettled : ∃ s t, step s = .next t := ⟨State.reset, _, rfl⟩
theorem test_witness_ThreadRegisters : SparseWf 0 (thr 0).v := by decide
theorem test_witness_ArbitrationOrder : (∃ g, nextReady (ctx [] { grp 1 with st := .ready }) 0 = some g) ∧ nextReady (ctx [] { grp 1 with st := .ready }) 1 = none :=
  ⟨⟨_, rfl⟩, rfl⟩
theorem test_witness_IntegerRows : ∃ i row s x, IntRow i row ∧ LaneUnit s x row.fs := ⟨_, _, _, _, .addI32 false 63 0 1, lane1 _ rfl⟩
theorem test_witness_ImmediateRows : ∃ i row s x, ImmRow i row ∧ LaneUnit s x row.fs := ⟨_, _, _, _, .addi false 63 0 1, lane1 _ rfl⟩
theorem test_witness_FloatRows : ∃ i row s x, FloatRow i row ∧ LaneUnit s x row.fs := ⟨_, _, _, _, .faddF32 false 63 0 1, lane1 _ rfl⟩
theorem test_witness_QuantiserRows : ∃ i row s x, QuantRow x i row ∧ LaneUnit s x row.fs := ⟨_, _, _, _, .pkh false 63 0 1, lane1 _ rfl⟩
theorem test_witness_PredicateAndReadRows : ∃ i row s x, MiscRow s x i row ∧ LaneUnit s x row.fs := ⟨_, _, _, _, .sel false 63 0 1 true 7, lane1 _ rfl⟩
def short : Thread := { thr 0 with c := 16 }
theorem only0 {ts gr} : ∀ n ∈ (iss ts (grp 1) gr).g.members, n = 0 := by intro n h; simpa [iss, grp] using h
theorem act0 {ts gr} : ∀ n ∈ (iss ts (grp 1) gr).active, n = 0 := fun n h => by
  simp only [Iss.active, iss, grp] at h; exact (by simpa using h : n = 0 ∧ _).1
theorem test_witness_RangeTraps : ∃ i row s x, (IntRow i row ∨ ImmRow i row ∨ FloatRow i row) ∧ Issues s x ∧ x.g.hint.hrep = none ∧
    (∀ n ∈ x.active, ∃ th, x.w.thread n = some th ∧ th.pend ≠ .done ∧ row.fs.within th.c none = false) ∧
    (∀ n ∈ x.active, s.trapWait x (rangeTrap x n) = none) :=
  ⟨_, _, st [short] (grp 1) placedGrid, iss [short] (grp 1) placedGrid, .inl (.addI32 false 16 0 1), ⟨rfl, rfl⟩, rfl,
    fun n h => by obtain rfl := act0 n h; exact ⟨short, rfl, by decide, rfl⟩, fun n h => by obtain rfl := act0 n h; rfl⟩

theorem test_one {x : Iss} {fs : Fields} {R : State → LaneIn → State → Thread → Prop} {s u : State} {l : LaneIn} {v : Thread} (hi : Issues s x)
    (hh : x.g.hint.hrep = none) (ha : x.active = [0]) (hl : s.laneIn x fs 0 = some l) (hp : l.ln.t.pend ≠ .done)
    (hf : fs.within l.ln.t.c none = true) (hR : R s l u v) :
    ActUnit x fs R s (u.modThread x.c x.g.wslot 0 fun _ => { v with pend := .done }) :=
  ⟨hi, hh, ha ▸ .step hl hp hf hR (.nil _)⟩

def r1 (r v : Nat) : Thread := (thr 0).setReg r v
theorem test_witness_MisalignedTraps : ∃ i a s x, accessOf i = some a ∧ i.Wf ∧ a.present s x ∧ Issues s x ∧ x.g.hint.hrep = none ∧
    (∀ n ∈ x.active, ∃ l, s.laneIn x a.fields n = some l ∧ l.ln.t.pend ≠ .done ∧ a.fields.within l.ln.t.c none = true ∧ a.offset l % a.bytes ≠ 0) ∧
    (∀ n ∈ x.active, s.trapWait x (alignTrap x (a.addrOf s x n) n) = none) :=
  ⟨.ldl false 4 0 2 0 0, _, st [r1 0 6] (grp 1) placedGrid, iss [r1 0 6] (grp 1) placedGrid, rfl, rfl, .inr ⟨rfl, rfl⟩, ⟨rfl, rfl⟩, rfl,
    fun n h => by obtain rfl := act0 n h; exact ⟨_, rfl, by decide, rfl, by decide⟩, fun n h => by obtain rfl := act0 n h; rfl⟩

def user : Grid := { placedGrid with level := 0 }
theorem test_witness_PrivilegeTraps : ∃ i s x, sysLevel i ≠ 0 ∧ Issues s x ∧ x.grid.level < sysLevel i ∧ x.grid.level = 0 :=
  ⟨.csrr false 0 0, st [thr 0] (grp 1) user, iss [thr 0] (grp 1) user, by decide, ⟨rfl, rfl⟩, by decide, rfl⟩
def guest : Grid := { placedGrid with level := 1 }
theorem test_witness_PrivilegeTraps_guest : ∃ i s x, sysLevel i ≠ 0 ∧ Issues s x ∧ x.grid.level < sysLevel i ∧ x.grid.level ≠ 0 :=
  ⟨.halt false 0 0 0, st [thr 0] (grp 1) guest, iss [thr 0] (grp 1) guest, by decide, ⟨rfl, rfl⟩, by decide, by decide⟩

theorem test_witness_LoadsAndStores : ∃ i a s u x, accessOf i = some a ∧ i.Wf ∧ a.present s x ∧ ActUnit x a.fields (fun s l u v => a.Lane s l u v) s u ∧ Stands x u :=
  ⟨.ldl false 4 0 2 0 0, _, s1, _, x1, rfl, rfl, .inr ⟨rfl, rfl⟩, test_one ⟨rfl, rfl⟩ rfl rfl rfl (by decide) rfl (.load rfl rfl rfl), ⟨⟨_, _, rfl, rfl, rfl, rfl, rfl, rfl⟩, rfl⟩⟩
theorem test_witness_StoreFrame : ∃ i a s u x ls, accessOf i = some a ∧ a.store = true ∧ i.Wf ∧ a.present s x ∧ Issues s x ∧ x.g.hint.hrep = none ∧
    a.Stores x x.active s u ls ∧ Stands x u ∧ ls ≠ [] :=
  ⟨.stl false 4 0 2 0, _, s1, _, x1, _, rfl, rfl, rfl, .inr ⟨rfl, rfl⟩, ⟨rfl, rfl⟩, rfl,
    .step (i := 0) rfl (by decide) rfl rfl (fun c g o h => by cases h; rfl) (.nil _), ⟨⟨_, _, rfl, rfl, rfl, rfl, rfl, rfl⟩, rfl⟩, by decide⟩

def ga : Thread := (thr 0).setReg 0 0x20000
def sg (t : Thread) : State := st [t] (grp 1) placedGrid
def xg (t : Thread) : Iss := iss [t] (grp 1) placedGrid
theorem test_witness_Atomics : ∃ i a s u x, atomicOf i = some a ∧ a.unblocked s x ∧ ActUnit x a.fs (a.Lane s.nextId) s u ∧ Stands x u :=
  ⟨.atmAddI32 false 4 0 2 0 0, _, sg ga, _, xg ga, rfl,
    ⟨.inr rfl, fun i hi l hl u e h => by
      obtain rfl := act0 i hi
      cases hl; cases h⟩,
    test_one ⟨rfl, rfl⟩ rfl rfl rfl (by decide) rfl (.asks rfl rfl), ⟨⟨_, _, rfl, rfl, rfl, rfl, rfl, rfl⟩, rfl⟩⟩
theorem test_witness_Phasers : ∃ i s u x, isPhaser i = true ∧ ActUnit x (phFields i) (PhLane i) s u ∧ Stands x u :=
  ⟨.phal false 4, s1, _, x1, rfl, test_one ⟨rfl, rfl⟩ rfl rfl rfl (by decide) rfl (.alloc rfl rfl), ⟨⟨_, _, rfl, rfl, rfl, rfl, rfl, rfl⟩, rfl⟩⟩
theorem test_witness_BindingsDrainsCopies : ∃ i s u x, isSync i = true ∧ ActUnit x (syncFields i) (SyncLane i) s u ∧ Stands x u :=
  ⟨.drainL false, s1, _, x1, rfl, test_one ⟨rfl, rfl⟩ rfl rfl rfl (by decide) rfl (.drain rfl rfl (by intro e h; cases h)),
    ⟨⟨_, _, rfl, rfl, rfl, rfl, rfl, rfl⟩, rfl⟩⟩

theorem test_witness_PausesPass : ∃ i s x, Issues s x ∧ Passes s x i ∧ endsRun i = true := ⟨.yield false, s1, x1, ⟨rfl, rfl⟩, .yield _, rfl⟩
theorem test_witness_HintWords : ∃ i s x h, Issues s x ∧ Hints x.g.hint i h := ⟨.hx 1, s1, x1, _, ⟨rfl, rfl⟩, .hx _ (by decide)⟩
theorem test_witness_BranchTargets : ∃ (x : Iss) (n : Nat), 0 < n ∧ n ≤ 21 ∧ x.g.hint.hx.length ≤ 1 := ⟨x1, 21, by decide, by decide, by decide⟩
theorem test_witness_Transfers : ∃ i s u x out, isXfer i = true ∧ Xfer x i s u ∧ XferOut x i u out ∧ Stands x u ∧ NoMerge u x.c :=
  ⟨.bra false 7 false 8, s1, _, x1, _, rfl,
    ⟨test_one ⟨rfl, rfl⟩ rfl rfl rfl (by decide) rfl .bra, by decide, (fun _ _ _ _ h => by cases h), .inr rfl⟩, rfl, ⟨⟨_, _, rfl, rfl, rfl, rfl, rfl, rfl⟩, rfl⟩,
    fun k hk g hg => by cases hk; obtain rfl := List.mem_singleton.1 hg; decide⟩
def two : List Thread := [thr 0, { thr 1 with status := .seedbed }]
theorem test_witness_ThreadsExit : ∃ s u x, Exits x s u ∧ Stands x u ∧ NoMerge u x.c :=
  ⟨st two (grp 1) placedGrid, _, iss two (grp 1) placedGrid,
    ⟨⟨rfl, rfl⟩, by decide, rfl, ⟨_, rfl, rfl⟩, ⟨1, _, by decide, rfl, .inr (.inl rfl)⟩⟩, ⟨⟨_, _, rfl, rfl, rfl, rfl, rfl, rfl⟩, rfl⟩,
    fun k hk g hg => by cases hk; obtain rfl := List.mem_singleton.1 hg; decide⟩
theorem test_witness_WindowSizes : ∃ i s u x, growGranted x i ∧ ActUnit x {} (SizeLane x i) s u ∧ (∃ e m, i = .wgrow e m ∨ i = .wshr e m) ∧ Stands x u :=
  ⟨.wshr false 8, s1, _, x1, trivial, test_one ⟨rfl, rfl⟩ rfl rfl rfl (by decide) rfl (.shrink (by decide) (by decide)), ⟨_, _, .inr rfl⟩,
    ⟨⟨_, _, rfl, rfl, rfl, rfl, rfl, rfl⟩, rfl⟩⟩
theorem test_witness_TimedSleep : ∃ (a : BitVec 6) (s : State) (x : Iss), Issues s x ∧ (∀ i ∈ x.active, ∀ th, x.w.thread i = some th → a.toNat < th.c) ∧
    sleepOf x a.toNat ≠ 0 :=
  ⟨0, sg ga, xg ga, ⟨rfl, rfl⟩, fun i hi th h => by obtain rfl := act0 i hi; cases h; decide, by decide⟩
theorem test_witness_SoftwareTraps : ∃ (d : BitVec 12) (s : State) (x : Iss), Issues s x ∧ x.g.hint.hrep = none ∧
    (∀ i ∈ x.active, ∃ th, x.w.thread i = some th ∧ th.pend ≠ .done) ∧ (∀ i ∈ x.active, s.trapWait x (softTrap x d.toNat i) = none) :=
  ⟨0xABC, s1, x1, ⟨rfl, rfl⟩, rfl, fun i hi => by obtain rfl := act0 i hi; exact ⟨thr 0, rfl, by decide⟩, fun i hi => by obtain rfl := act0 i hi; rfl⟩

def ln0 (t : Thread) : Lane := { r := { core := core0, gen := 1, wslot := 0, tid := 0 }, t := t, w := wg [t], g := placedGrid }
theorem test_witness_HandlerEntry : ∃ s u ln f ret h t, enterHandler s ln f ret h = (u, .ok (some t)) :=
  ⟨sg (thr 0), _, ln0 (thr 0), { code := 9 }, 0x10044, 0x10080, _, rfl⟩
theorem test_witness_WindowMoves : ∃ s u ln wb c t, moveWindow s ln wb c = (u, .ok t) := ⟨sg (thr 0), _, ln0 (thr 0), 8, 64, _, rfl⟩
def inH : Thread := { thr 0 with inHandler := true, faultTrap := 9, wb := 64, links := 1, entryLinks := 1 }
def grpFill : Group := { grp 1 with fillOk := true }
theorem test_witness_HandlerReturn : ∃ s u x, Returns x s u ∧ Stands x u ∧ NoMerge u x.c :=
  ⟨st [inH] grpFill placedGrid, _, iss [inH] grpFill placedGrid,
    ⟨⟨rfl, rfl⟩, rfl, by decide, fun i hi => by
        obtain rfl : i = 0 := by simpa [iss, grpFill, grp] using hi
        exact ⟨inH, rfl, rfl, by decide⟩, rfl,
      .step (i := 0) rfl (by decide) rfl (.back rfl rfl) (.nil _)⟩,
    ⟨⟨_, _, rfl, rfl, rfl, rfl, rfl, rfl⟩, rfl⟩, fun k hk g hg => by cases hk; obtain rfl := List.mem_singleton.1 hg; decide⟩
theorem test_witness_SystemRegisters : ∃ i s u x, i.Wf ∧ sysLevel i ≠ 0 ∧ isControl i = false ∧ sysLevel i ≤ x.grid.level ∧
    ActUnit x (sysFields i) (SysLane x i) s u ∧ Stands x u :=
  ⟨.csrr false 4 0, s1, _, x1, rfl, by decide, rfl, by decide, test_one ⟨rfl, rfl⟩ rfl rfl rfl (by decide) rfl (.csrr rfl (by decide)),
    ⟨⟨_, _, rfl, rfl, rfl, rfl, rfl, rfl⟩, rfl⟩⟩
def p1 : Package := { Package.reset 0 with parts := [{ part := 0, cores := 2 ^ 40 - 1 }] }
def sp : State := { s1 with packages := [p1] }
theorem test_witness_CoreControl : ∃ i s u w x v n l, isControl i = true ∧ Issues s x ∧ x.g.hint.hrep = none ∧ 2 ≤ x.grid.level ∧
    x.active.head? = some n ∧ s.laneIn x (sysFields i) n = some l ∧ (sysFields i).within l.ln.t.c none = true ∧ Control x i s l u v ∧
    LaneSteps x (sysFields i) (fun s l u t => u = s ∧ t = l.ln.t.setReg l.d v) x.active u w ∧ Stands x w :=
  ⟨.halt false 4 0 2, sp, _, _, x1, 1, 0, laneFirst x1 (sysFields (.halt false 4 0 2)) 0 (thr 0), rfl, ⟨rfl, rfl⟩, rfl, by decide, rfl, rfl, rfl,
    .haltGone (c := core0) (g := 0) rfl (by decide) (fun h => by cases h) (fun k h => by obtain rfl : ctx [thr 0] (grp 1) = k := Option.some.inj h; decide), .step (i := 0) rfl (by decide) rfl ⟨rfl, rfl⟩ (.nil _),
    ⟨⟨_, _, rfl, rfl, rfl, rfl, rfl, rfl⟩, rfl⟩⟩
theorem test_witness_GridsAndCollectives : ∃ i s u x, i.Wf ∧ isGrid i = true ∧ ActUnit x (gridFields i) (GridLane i) s u ∧ Stands x u :=
  ⟨.glch false 2 0 0, sg ga, _, xg ga, rfl, rfl, test_one ⟨rfl, rfl⟩ rfl rfl rfl (by decide) rfl (.launch (by decide) rfl),
    ⟨⟨_, _, rfl, rfl, rfl, rfl, rfl, rfl⟩, rfl⟩⟩
theorem test_witness_RecordChecks : (1 ≤ 5 ∧ 5 ≤ 5) ∧ checkKind 0 5 false ≠ 0 := by decide
def lx : LaneIn := { ln := ln0 (thr 0), x := x1, d := 0, a := 0, b := 0 }
theorem ready1 : UnitReady x1 (.mzro false 1) s1 lx :=
  ⟨⟨rfl, rfl⟩, ⟨0, rfl, rfl⟩, fun n hn th h => by obtain rfl := act0 n hn; cases h; rfl, rfl, .inl rfl, .inr rfl, .inr (by decide)⟩
theorem test_witness_MatrixUnit : ∃ i s u x l, UnitReady x i s l ∧ MtxStep x i s l u ∧ Stands x (claim u x.c x.g.wslot) :=
  ⟨_, _, _, _, _, ready1, .zero (by decide), ⟨⟨_, _, rfl, rfl, rfl, rfl, rfl, rfl⟩, rfl⟩⟩

/-- Some lanes of a unit act as `R` says, and the group stands after them. -/
def Acts (fs : Fields) (R : Iss → State → LaneIn → State → Thread → Prop) : Prop := ∃ s u x, ActUnit x fs (R x) s u ∧ Stands x u
theorem acts {x : Iss} {fs : Fields} {R : Iss → State → LaneIn → State → Thread → Prop} {s u : State} {l : LaneIn} {v : Thread}
    (hR : R x s l u v) (hi : s.issuing = some x) (hl : s.laneIn x fs 0 = some l) (hf : fs.within l.ln.t.c none = true)
    (hk : (((u.modThread x.c x.g.wslot 0 fun _ => { v with pend := .done }).core x.c).ctx.bind fun k => k.group x.g.slot) = some x.g)
    (hw : ((u.modThread x.c x.g.wslot 0 fun _ => { v with pend := .done }).wg x.c x.g.wslot).isSome = true)
    (hc : (s.core x.c).stopped = false := by rfl)
    (hh : x.g.hint.hrep = none := by rfl) (ha : x.active = [0] := by rfl) (hp : l.ln.t.pend ≠ .done := by decide) : Acts fs R := by
  obtain ⟨k, h1, h2⟩ := Option.bind_eq_some_iff.1 hk
  exact ⟨s, _, x, test_one ⟨hi, hc⟩ hh ha hl hp hf hR, ⟨⟨k, x.g, h1, h2, rfl, rfl, rfl, rfl⟩, hw⟩⟩

def ref0 : ThreadRef := { core := core0, gen := 1, wslot := 0, tid := 0 }
def ph1 (phase : Nat) : Phaser :=
  { pkg := 0, die := 0, idx := 0, uid := 1, handle := 0x8000, grid := 0x8000, phase := phase, members := [{ t := ref0, grid := 0x8000, mode := 3 }] }
def sph (t : Thread) (phase : Nat) : State := { sg t with phasers := [ph1 phase] }
def t8 : Thread := (r1 0 0x8000).setReg 2 1
theorem named : NamesPh (sph t8 0) (laneFirst (xg t8) { a := 0, an := 1 } 0 t8) (ph1 0) := ⟨rfl, by decide⟩

theorem test_witness_phasers :
    Acts (phFields (.phfr false 0)) (fun _ => PhLane (.phfr false 0)) ∧ Acts (phFields (.phrg false 0 2)) (fun _ => PhLane (.phrg false 0 2)) ∧
    Acts (phFields (.phdr false 0)) (fun _ => PhLane (.phdr false 0)) ∧ Acts (phFields (.phsg false 0)) (fun _ => PhLane (.phsg false 0)) ∧
    Acts (phFields (.phex false 0 1)) (fun _ => PhLane (.phex false 0 1)) ∧ Acts (phFields (.phqy false 4 0)) (fun _ => PhLane (.phqy false 4 0)) ∧
    Acts (phFields (.phin false 0)) (fun _ => PhLane (.phin false 0)) :=
  ⟨acts (s := sph t8 0) (.free ⟨rfl, by decide⟩ (by decide)) rfl rfl rfl rfl rfl,
   acts (s := sph t8 0) (.register ⟨rfl, by decide⟩ (by decide) (by decide) (.inl rfl)) rfl rfl rfl rfl rfl,
   acts (s := sph t8 0) (.deregister ⟨rfl, by decide⟩) rfl rfl rfl rfl rfl,
   acts (s := sph t8 0) (.signal ⟨rfl, by decide⟩ (fun _ h => by cases h) rfl rfl (by decide) rfl) rfl rfl rfl rfl rfl,
   acts (s := sph t8 0) (.expect ⟨rfl, by decide⟩ (by decide)) rfl rfl rfl rfl rfl,
   acts (s := sph t8 0) (.query rfl) rfl rfl rfl rfl rfl,
   acts (s := sph t8 0) (.init ⟨rfl, by decide⟩ rfl) rfl rfl rfl rfl rfl⟩
theorem of_snd {α β : Type} {p : α × β} {b : β} (h : p.2 = b) : p = (p.1, b) := by cases h; rfl
def tw (p : Pend) : Thread := { t8 with pend := p }
theorem test_witness_waits :
    Acts (phFields (.phwt false 4 0)) (fun _ => PhLane (.phwt false 4 0)) ∧ Acts (phFields (.phsw false 4 0)) (fun _ => PhLane (.phsw false 4 0)) :=
  ⟨acts (s := sph t8 1) (.wait ⟨rfl, by decide⟩ rfl rfl rfl (of_snd (b := some 0) (by decide))) rfl rfl rfl rfl rfl,
   acts (s := sph (tw (.waited 0)) 1) (.met rfl) rfl rfl rfl rfl rfl⟩

/-- A unit whose lanes may end, each as `may` says, and which its group still stands in after them. -/
def MayEnd (fs : Fields) (may : State → LaneIn → Prop) (does : State → LaneIn → State × Thread) : Prop :=
  ∃ s x, x.active ≠ [] ∧ MayUnit x fs may does s ∧ Stands x (lanesDo x fs does x.active s)
theorem mayEnd {fs : Fields} {may : State → LaneIn → Prop} {does : State → LaneIn → State × Thread} (s : State) (x : Iss) (l : LaneIn)
    (hi : s.issuing = some x) (hl : s.laneIn x fs 0 = some l) (hm : may s l) (hf : fs.within l.ln.t.c none = true)
    (hk : (((lanesDo x fs does [0] s).core x.c).ctx.bind fun k => k.group x.g.slot) = some x.g)
    (hw : ((lanesDo x fs does [0] s).wg x.c x.g.wslot).isSome = true)
    (hc : (s.core x.c).stopped = false := by rfl) (hh : x.g.hint.hrep = none := by rfl) (ha : x.active = [0] := by rfl)
    (hp : l.ln.t.pend ≠ .done := by decide) : MayEnd fs may does := by
  obtain ⟨k, h1, h2⟩ := Option.bind_eq_some_iff.1 hk
  exact ⟨s, x, by rw [ha]; decide, ⟨⟨hi, hc⟩, hh, by rw [ha]; exact ⟨l, hl, hp, hf, hm, trivial⟩⟩, by rw [ha]; exact ⟨⟨k, x.g, h1, h2, rfl, rfl, rfl, rfl⟩, hw⟩⟩

/-- Whether a phaser instruction of the given thread may end, at a phase of the phaser that it names. -/
def PhEnds (i : Instr) : Prop := MayEnd (phFields i) (phMay i) (laneOver (phDoes i))
theorem test_witness_Phasers_may : PhEnds (.phal false 4) ∧ PhEnds (.phfr false 0) ∧ PhEnds (.phrg false 0 2) ∧ PhEnds (.phdr false 0) ∧ PhEnds (.phsg false 0) ∧
    PhEnds (.phwt false 4 0) ∧ PhEnds (.phex false 0 1) ∧ PhEnds (.phqy false 4 0) ∧ PhEnds (.phin false 0) :=
  ⟨mayEnd (sph t8 0) (xg t8) _ rfl rfl trivial rfl rfl rfl,
   mayEnd (sph t8 0) (xg t8) _ rfl rfl ⟨_, ⟨rfl, by decide⟩, by decide⟩ rfl rfl rfl,
   mayEnd (sph t8 0) (xg t8) _ rfl rfl ⟨_, ⟨rfl, by decide⟩, by decide, by decide, .inl rfl⟩ rfl rfl rfl,
   mayEnd (sph t8 0) (xg t8) _ rfl rfl ⟨_, ⟨rfl, by decide⟩⟩ rfl rfl rfl,
   mayEnd (sph t8 0) (xg t8) _ rfl rfl (.inr ⟨rfl, _, _, ⟨rfl, by decide⟩, rfl, rfl, by decide, rfl⟩) rfl rfl rfl,
   mayEnd (sph t8 1) (xg t8) _ rfl rfl (.inr ⟨rfl, _, _, ⟨rfl, by decide⟩, rfl, rfl, rfl, rfl, by decide⟩) rfl rfl rfl,
   mayEnd (sph t8 0) (xg t8) _ rfl rfl ⟨_, ⟨rfl, by decide⟩, by decide⟩ rfl rfl rfl,
   mayEnd (sph t8 0) (xg t8) _ rfl rfl ⟨_, rfl⟩ rfl rfl rfl,
   mayEnd (sph t8 0) (xg t8) _ rfl rfl ⟨_, ⟨rfl, by decide⟩, rfl⟩ rfl rfl rfl⟩
/-- The last of a phaser's threads to signal and wait, whose signal completes the phase. -/
theorem test_witness_Phasers_phsw : PhEnds (.phsw false 4 0) :=
  mayEnd (sph t8 0) (xg t8) _ rfl rfl (.inr ⟨rfl, rfl, _, _, _, _, rfl, rfl, rfl, rfl, rfl, by decide, rfl, rfl, rfl, rfl, by decide⟩) rfl rfl rfl

theorem test_witness_bindings :
    Acts (syncFields (.bind false 0 2)) (fun _ => SyncLane (.bind false 0 2)) ∧ Acts (syncFields (.bindx false 0 1)) (fun _ => SyncLane (.bindx false 0 1)) ∧
    Acts (syncFields (.unbind false 0)) (fun _ => SyncLane (.unbind false 0)) :=
  ⟨acts (s := sg (tw (.answer 0))) (.bound rfl rfl) rfl rfl rfl rfl rfl, acts (s := sg (tw (.answer 0))) (.bound rfl rfl) rfl rfl rfl rfl rfl,
   acts (s := sg (tw (.answer 0))) (.bound rfl rfl) rfl rfl rfl rfl rfl⟩
theorem test_witness_drains : Acts {} (fun _ => SyncLane (.drainD false)) ∧ Acts {} (fun _ => SyncLane (.drainS false)) ∧ Acts {} (fun _ => SyncLane (.drainG false)) :=
  ⟨acts (s := s1) (.drain rfl rfl (fun _ h => by cases h)) rfl rfl rfl rfl rfl, acts (s := s1) (.drain rfl rfl (fun _ h => by cases h)) rfl rfl rfl rfl rfl,
   acts (s := s1) (.drain rfl rfl (fun _ h => by cases h)) rfl rfl rfl rfl rfl⟩
/-- A thread with the addresses of a copy in v4-v7, from G to L, and 16 bytes (and a count of 1 where the form has one). -/
def tc : Thread := ((((r1 4 0x20000).setReg 6 0).setReg 7 0xF1000000).setReg 8 16).setReg 9 1
theorem test_witness_copies :
    Acts (syncFields (.cpy false 3 2 1 0)) (fun _ => SyncLane (.cpy false 3 2 1 0)) ∧ Acts (syncFields (.cpy2 false 3 2 1 0)) (fun _ => SyncLane (.cpy2 false 3 2 1 0)) :=
  ⟨acts (s := sg tc) (.copy rfl rfl (by decide) rfl (by decide)) rfl rfl rfl rfl rfl, acts (s := sg tc) (.copy rfl rfl (by decide) rfl (by decide)) rfl rfl rfl rfl rfl⟩

/-- The same with the destination in L and a record list: the index list in G at 0x20000. -/
def tg : Thread := (((r1 4 0x20000).setReg 7 0xF1000000).setReg 8 16).setReg 10 0x20000
theorem test_witness_indexed :
    Acts (syncFields (.cpyg false 3 2 1 0)) (fun _ => SyncLane (.cpyg false 3 2 1 0)) ∧ Acts (syncFields (.cpys false 3 2 1 0)) (fun _ => SyncLane (.cpys false 3 2 1 0)) ∧
    Acts (syncFields (.cpyr false 3 2 1 0 0)) (fun _ => SyncLane (.cpyr false 3 2 1 0 0)) :=
  ⟨acts (s := sg (tg.setReg 9 1)) (.copy rfl rfl (by decide) rfl (by decide)) rfl rfl rfl rfl rfl,
   acts (s := sg (tg.setReg 9 1)) (.copy rfl rfl (by decide) rfl (by decide)) rfl rfl rfl rfl rfl,
   acts (s := sg tg) (.copy rfl rfl (by decide) rfl (by decide)) rfl rfl rfl rfl rfl⟩

/-- Whether a binding, drain or copy of the given thread may end, and whether a binding of it may ask its home. -/
def SyncEnds (i : Instr) : Prop := MayEnd (syncFields i) (syncMay i) (laneOver (syncDoes i))
def SyncAsks (i : Instr) : Prop := MayEnd (syncFields i) (askMay i) (askDoes i)
theorem test_witness_BindingsDrainsCopies_bound : SyncEnds (.bind false 0 2) ∧ SyncEnds (.bindx false 0 1) ∧ SyncEnds (.unbind false 0) :=
  ⟨mayEnd (sg (tw (.answer 0))) (xg (tw (.answer 0))) _ rfl rfl (.inl ⟨rfl, rfl⟩) rfl rfl rfl,
   mayEnd (sg (tw (.answer 0))) (xg (tw (.answer 0))) _ rfl rfl (.inl ⟨rfl, rfl⟩) rfl rfl rfl,
   mayEnd (sg (tw (.answer 0))) (xg (tw (.answer 0))) _ rfl rfl (.inl ⟨rfl, rfl⟩) rfl rfl rfl⟩
/-- A thread with the registers of a `bind` to a counter: the region in G at 0x20000, of the given bytes, and its word at 0x30000. -/
def tb (size : Nat) : Thread := (((r1 0 0x20000).setReg 2 size).setReg 3 1).setReg 4 0x30000
theorem test_witness_BindingsDrainsCopies_nothing : SyncEnds (.bind false 0 2) :=
  mayEnd (sg (tb 0)) (xg (tb 0)) _ rfl rfl (.inr (.inl ⟨_, rfl, rfl, ⟨rfl, fun _ => rfl⟩, .inl rfl⟩)) rfl rfl rfl
theorem test_witness_BindingsDrainsCopies_drains : SyncEnds (.drainL false) ∧ SyncEnds (.drainD false) ∧ SyncEnds (.drainS false) ∧ SyncEnds (.drainG false) :=
  ⟨mayEnd s1 x1 _ rfl rfl (.inr (.inr (.inl ⟨_, _, rfl, rfl, fun _ h => by cases h⟩))) rfl rfl rfl,
   mayEnd s1 x1 _ rfl rfl (.inr (.inr (.inl ⟨_, _, rfl, rfl, fun _ h => by cases h⟩))) rfl rfl rfl,
   mayEnd s1 x1 _ rfl rfl (.inr (.inr (.inl ⟨_, _, rfl, rfl, fun _ h => by cases h⟩))) rfl rfl rfl,
   mayEnd s1 x1 _ rfl rfl (.inr (.inr (.inl ⟨_, _, rfl, rfl, fun _ h => by cases h⟩))) rfl rfl rfl⟩
theorem test_witness_BindingsDrainsCopies_copies : SyncEnds (.cpy false 3 2 1 0) ∧ SyncEnds (.cpy2 false 3 2 1 0) ∧ SyncEnds (.cpyg false 3 2 1 0) ∧
    SyncEnds (.cpys false 3 2 1 0) ∧ SyncEnds (.cpyr false 3 2 1 0 0) :=
  ⟨mayEnd (sg tc) (xg tc) _ rfl rfl (.inr (.inr (.inr ⟨_, _, _, _, rfl, rfl, rfl, by decide⟩))) rfl rfl rfl,
   mayEnd (sg tc) (xg tc) _ rfl rfl (.inr (.inr (.inr ⟨_, _, _, _, rfl, rfl, rfl, by decide⟩))) rfl rfl rfl,
   mayEnd (sg (tg.setReg 9 1)) (xg (tg.setReg 9 1)) _ rfl rfl (.inr (.inr (.inr ⟨_, _, _, _, rfl, rfl, rfl, by decide⟩))) rfl rfl rfl,
   mayEnd (sg (tg.setReg 9 1)) (xg (tg.setReg 9 1)) _ rfl rfl (.inr (.inr (.inr ⟨_, _, _, _, rfl, rfl, rfl, by decide⟩))) rfl rfl rfl,
   mayEnd (sg tg) (xg tg) _ rfl rfl (.inr (.inr (.inr ⟨_, _, _, _, rfl, rfl, rfl, by decide⟩))) rfl rfl rfl⟩
/-- The same of a `bindx`: two regions of 128 bytes, their words 8 bytes apart. -/
def tx (kind : Nat) : Thread := ((((tb 128).setReg 3 2).setReg 6 8).setReg 7 kind)
theorem test_witness_BindingsDrainsCopies_asks : SyncAsks (.bind false 0 2) ∧ SyncAsks (.bindx false 0 1) ∧ SyncAsks (.unbind false 0) :=
  ⟨mayEnd (sg (tb 128)) (xg (tb 128)) _ rfl rfl ⟨rfl, ⟨rfl, fun _ => rfl⟩, by decide, by decide, fun t h => by cases h; rfl, fun _ w h => by cases h; rfl⟩ rfl rfl rfl,
   mayEnd (sg (tx 1)) (xg (tx 1)) _ rfl rfl ⟨rfl, ⟨rfl, fun _ => rfl⟩, by decide, by decide, fun t h => by cases h; rfl, fun _ w h => by cases h; rfl⟩ rfl rfl rfl,
   mayEnd (sg (tb 128)) (xg (tb 128)) _ rfl rfl ⟨rfl, rfl, _, rfl, rfl⟩ rfl rfl rfl⟩

theorem out0 {x : Iss} {pc : Nat → Nat} (h : x.g.members = [0]) : OutByPc x pc [] :=
  ⟨0, by simp [h], by simp [h], fun j hj => by obtain rfl : j = 0 := (by simpa [h] using hj); exact .inr ⟨rfl, Nat.le_refl _⟩⟩

/-- Whether a control transfer of the given thread is one of the statement. -/
def Moves (i : Instr) : Prop := ∃ s u x out, Xfer x i s u ∧ XferOut x i u out ∧ Stands x u ∧ NoMerge u x.c
theorem moves {i : Instr} {t v : Thread} {u : State} {g : Group} {l : LaneIn} {out : List Nat}
    (hR : XferLane (iss [t] g placedGrid) i (st [t] g placedGrid) l u v)
    (hg : g = grpFill)
    (hl : (st [t] g placedGrid).laneIn (iss [t] g placedGrid) (xferFields i) 0 = some l) (hp : l.ln.t.pend ≠ .done) (hf : (xferFields i).within l.ln.t.c none = true)
    (hu : ∀ e p n o, i = .brau e p n o → ∀ tk, takenOf (iss [t] g placedGrid) i = some tk → tk = [] ∨ tk = [0])
    (hk : ((u.modThread core0 0 0 fun _ => { v with pend := .done }).core core0).ctx.map (fun k => k.groups) = some [grpFill])
    (hw : ((u.modThread core0 0 0 fun _ => { v with pend := .done }).wg core0 0).isSome = true)
    (ho : XferOut (iss [t] g placedGrid) i (u.modThread core0 0 0 fun _ => { v with pend := .done }) out)
    (ha : (iss [t] g placedGrid).active = [0] := by rfl) : Moves i := by
  subst hg
  obtain ⟨k, h1, h2⟩ := Option.map_eq_some_iff.1 hk
  refine ⟨_, _, _, out, ⟨test_one ⟨rfl, rfl⟩ rfl ha hl hp hf hR, (by simp [iss, grpFill, grp]), by rw [ha]; exact hu, .inl rfl⟩, ho, ⟨⟨k, grpFill, h1, ?_, rfl, rfl, rfl, rfl⟩, hw⟩,
    fun k' hk' g hg => ?_⟩
  · simp [Ctx.group, h2, grpFill, grp, iss]
  · have hk'' : some k = some k' := h1.symm.trans hk'
    cases hk''; rw [h2] at hg; obtain rfl := List.mem_singleton.1 hg; decide

theorem test_witness_brau : Moves (.brau false 7 false 8) :=
  moves (t := thr 0) (g := grpFill) .brau rfl rfl (by decide) rfl (fun _ _ _ _ _ tk h => .inr (by cases h; rfl)) rfl rfl rfl
theorem test_witness_call : Moves (.call false 4 8) :=
  moves (t := thr 0) (g := grpFill) (.call (by decide) (by decide) rfl rfl) rfl rfl (by decide) rfl (fun _ _ _ _ h => by cases h) rfl rfl rfl
theorem test_witness_callr : Moves (.callr false 0 2) :=
  moves (t := (r1 0 0x10080).setReg 2 4) (g := grpFill) (l := laneFirst (iss [(r1 0 0x10080).setReg 2 4] grpFill placedGrid) (xferFields (.callr false 0 2)) 0 ((r1 0 0x10080).setReg 2 4)) (.callr rfl (by decide) (by decide) rfl rfl) rfl rfl (by decide) rfl (fun _ _ _ _ h => by cases h) rfl rfl
    (out0 rfl)
theorem test_witness_jmpr : Moves (.jmpr false 0) :=
  moves (t := r1 0 0x10080) (g := grpFill) (.jmpr rfl) rfl rfl (by decide) rfl (fun _ _ _ _ h => by cases h) rfl rfl
    (out0 rfl)
theorem test_witness_ret : Moves (.ret false) :=
  moves (t := { thr 0 with links := 1 }) (g := grpFill) (l := laneFirst (iss [{ thr 0 with links := 1 }] grpFill placedGrid) {} 0 { thr 0 with links := 1 }) (.ret (by decide) rfl rfl) rfl rfl (by decide) rfl (fun _ _ _ _ h => by cases h) rfl rfl
    (out0 rfl)

def small : Grid := { placedGrid with kern := { codesize := 0x400, allot := 80 } }
theorem test_witness_wgrow : growGranted (iss [thr 0] (grp 1) small) (.wgrow false 8) ∧
    ∃ s u x, ActUnit x {} (SizeLane x (.wgrow false 8)) s u ∧ Stands x u :=
  ⟨.inr (.inr ⟨fun g hg h => absurd rfl (by rw [List.mem_singleton.1 hg] at h; exact h), by decide⟩),
   acts (R := fun x => SizeLane x (.wgrow false 8)) (s := st [thr 0] (grp 1) small) (.grow rfl (by decide) (by decide) rfl) rfl rfl rfl rfl rfl⟩

theorem test_witness_system :
    Acts (sysFields (.csrw false 0 0x10)) (fun x => SysLane x (.csrw false 0 0x10)) ∧ Acts (sysFields (.tlbi false 0 2)) (fun x => SysLane x (.tlbi false 0 2)) ∧
    Acts (sysFields (.phld false 4 0 2)) (fun x => SysLane x (.phld false 4 0 2)) ∧ Acts (sysFields (.hzn false 16 1 2)) (fun x => SysLane x (.hzn false 16 1 2)) ∧
    Acts (sysFields (.dbgr false 4 1)) (fun x => SysLane x (.dbgr false 4 1)) :=
  ⟨acts (s := s1) (.csrw (by decide) rfl (by decide)) rfl rfl rfl rfl rfl, acts (s := s1) (.tlbi rfl rfl (by decide) (by decide) rfl) rfl rfl rfl rfl rfl,
   acts (s := s1) (.noPhaser rfl (by decide) rfl) rfl rfl rfl rfl rfl, acts (s := s1) (.hzn rfl) rfl rfl rfl rfl rfl,
   acts (s := s1) (.dbgr rfl) rfl rfl rfl rfl rfl⟩

theorem test_witness_ctxs : Control x1 (.ctxs false 4 0 1) sp (laneFirst x1 (sysFields (.ctxs false 4 0 1)) 0 (thr 0)) sp 1 :=
  .saveGone (c := core0) (g := 0) rfl (fun k h => by obtain rfl : ctx [thr 0] (grp 1) = k := Option.some.inj h; decide)
theorem test_witness_ctxl : Control x1 (.ctxl false 4 0 1) sp (laneFirst x1 (sysFields (.ctxl false 4 0 1)) 0 (thr 0)) sp 2 :=
  .loadBusy (c := core0) (g := 0) rfl rfl

def sgrid (t : Thread) : State := { sg t with gmem := mwrite [] 0x8080 8 0x8080 }
def gridC : Grid := { placedGrid with colls := [{ nch := 2, root := 0, chk := 0, efmt := 0, wfmt := 0, op := 0, comm := 0, dz := 0, dy := 0, dx := 0, dst := 0, src := 0 }], chunks := [{ b := 0, c := 1, st := 2 }], fires := [(0, 0)] }
def h8 : Thread := r1 0 0x8080
set_option maxRecDepth 20000 in
theorem test_witness_gcan : Acts (gridFields (.gcan false 0)) (fun _ => GridLane (.gcan false 0)) := acts (s := sgrid h8) (.cancel rfl) rfl rfl rfl rfl rfl
set_option maxRecDepth 20000 in
theorem test_witness_gwt : Acts (gridFields (.gwt false 0)) (fun _ => GridLane (.gwt false 0)) :=
  acts (s := sgrid h8) (.wait rfl (by decide) (fun g h => by cases h)) rfl rfl rfl rfl rfl
set_option maxRecDepth 20000 in
theorem test_witness_gqy : Acts (gridFields (.gqy false 2 0 0 0)) (fun _ => GridLane (.gqy false 2 0 0 0)) :=
  acts (s := sgrid h8) (.ended rfl rfl) rfl rfl rfl rfl rfl
theorem test_witness_chunks :
    Acts (gridFields (.cfr false 4)) (fun _ => GridLane (.cfr false 4)) ∧
    Acts (gridFields (.cwt false 4 5)) (fun _ => GridLane (.cwt false 4 5)) ∧ Acts (gridFields (.cqy false 8 4 5 0)) (fun _ => GridLane (.cqy false 8 4 5 0)) :=
  ⟨acts (s := st [thr 0] (grp 1) gridC) (.fired rfl (by decide)) rfl rfl rfl rfl rfl,
   acts (s := st [r1 5 1] (grp 1) gridC) (.chunk rfl (by decide) rfl (by decide)) rfl rfl rfl rfl rfl,
   acts (s := st [r1 5 1] (grp 1) gridC) (.state rfl (by decide)) rfl rfl rfl rfl rfl⟩

/-! ### The matrix unit and projections -/

theorem standsOf {x : Iss} {u : State} (hk : ((u.core x.c).ctx.bind fun k => k.group x.g.slot) = some x.g) (hw : (u.wg x.c x.g.wslot).isSome = true) :
    Stands x u := by
  obtain ⟨k, h1, h2⟩ := Option.bind_eq_some_iff.1 hk
  exact ⟨⟨k, x.g, h1, h2, rfl, rfl, rfl, rfl⟩, hw⟩

/-- A shape record of R249 from its fields. -/
def shape (kind fmt space stride cols rows base : Nat) : BitVec 128 :=
  BitVec.ofNat 128 (kind * 2 ^ 124 + fmt * 2 ^ 121 + space * 2 ^ 119 + stride * 2 ^ 96 + cols * 2 ^ 80 + rows * 2 ^ 64 + base)
/-- Records of each kind for FP16 with one row (16 B rows) and 16 columns: A, B, its source, C; then VW, VH, VPAR, VST, VF and a second VST. -/
def shapes1 : List (Nat × BitVec 128) :=
  [(0, shape 1 1 1 2 16 1 0), (1, shape 2 1 3 0 16 16 0), (2, shape 3 1 0 2 16 16 0x20000), (3, shape 5 0 1 4 16 1 0x100),
   (4, shape 8 1 0 2 16 1 0x20000), (5, shape 9 1 1 2 16 1 0), (6, BitVec.ofNat 128 (11 * 2 ^ 124 + 2 ^ 112 + 0x3F800000)), (7, shape 12 0 1 9 1 1 0x100),
   (8, shape 13 0 1 9 1 1 0x200), (11, shape 12 0 1 9 1 1 0x300)]
def wgU (ts : List Thread) : Workgroup := { wg ts with shapes := shapes1 }
def ctxU (ts : List Thread) (m : Matrix) (v : Vocab) (l : Mem) : Ctx :=
  { gen := 1, cid := 1, wgs := [wgU ts], groups := [grp ts.length], mtx := m, voc := v, lmem := l }
def sU (ts : List Thread) (m : Matrix := {}) (v : Vocab := {}) (l : Mem := []) : State :=
  { State.reset with cores := [{ at_ := core0, ctx := some (ctxU ts m v l) }], grids := [placedGrid], cur := some (core0, 0), phasers := [ph1 0] }
def xU (ts : List Thread) (m : Matrix := {}) (v : Vocab := {}) (l : Mem := []) : Iss :=
  { c := core0, k := ctxU ts m v l, g := grp ts.length, w := wgU ts, grid := placedGrid }
def lU (i : Instr) (ts : List Thread) (m : Matrix := {}) (v : Vocab := {}) (l : Mem := []) : LaneIn := laneFirst (xU ts m v l) (unitFields i) 0 ((ts.head?).getD (thr 0))
/-- The 32 threads of a full group. -/
def full (t : Thread) : List Thread := (List.range 32).map fun i => { t with tid := i }

theorem readyU {t : Thread} (i : Instr) (m : Matrix) (v : Vocab) (l : Mem)
    (hf : (unitFields i).within t.c none = true) (hh : m.holder = none) (hr : vocTurn (ctxU (full t) m v l) 0 = false) (ho : besideOf i ≠ .never ∨ v.st ≠ .suspended)
    (hb : backHeld (sU (full t) m v l) core0 = false) : UnitReady (xU (full t) m v l) i (sU (full t) m v l) (lU i (full t) m v l) :=
  ⟨⟨rfl, rfl⟩, ⟨0, rfl, rfl⟩, fun n _ th h => by
      have h1 := List.mem_of_find?_eq_some h
      obtain ⟨j, _, rfl⟩ := List.mem_map.1 h1
      exact hf, hb, .inl hh, .inr hr, ho⟩

def Unit (i : Instr) (ts : List Thread) (m : Matrix := {}) (v : Vocab := {}) (l : Mem := []) : Prop :=
  ∃ u, MtxStep (xU ts m v l) i (sU ts m v l) (lU i ts m v l) u ∧ UnitReady (xU ts m v l) i (sU ts m v l) (lU i ts m v l) ∧
    Stands (xU ts m v l) (claim u (xU ts m v l).c (xU ts m v l).g.wslot)

theorem test_witness_mshp : Unit (.mshp false 0 0) (full (thr 0)) :=
  ⟨_, .shape, readyU _ _ _ _ rfl rfl rfl (.inr (by decide)) rfl, standsOf rfl rfl⟩
theorem test_witness_mbld : Unit (.mbld false 1 2 0) (full (thr 0)) :=
  ⟨_, .build (by decide) rfl ⟨rfl, rfl, by decide, ⟨rfl, by decide⟩, ⟨rfl, rfl, by decide⟩, by decide⟩ (fun _ => ⟨fun _ _ => .inl rfl, fun h => absurd h (by decide)⟩),
    readyU _ _ _ _ rfl rfl rfl (.inr (by decide)) rfl, standsOf rfl rfl⟩
theorem test_witness_mlp : Unit (.mlp false 0 0 1 4 0) (full (r1 8 1)) :=
  ⟨_, .loop (by decide) rfl rfl ⟨⟨rfl, rfl⟩, rfl, rfl, rfl, by decide, ⟨rfl, by decide⟩, by decide, fun _ _ _ _ h => absurd rfl h⟩ (fun j hj m hm => by
      obtain rfl := Nat.lt_one_iff.mp hj
      obtain rfl := Nat.lt_one_iff.mp hm
      exact .inr (.inr (.inr ⟨_, rfl, by decide, rfl⟩))),
    readyU _ _ _ _ rfl rfl rfl (.inr (by decide)) rfl, standsOf rfl rfl⟩
theorem test_witness_mwt : Unit (.mwt false) (full (thr 0)) :=
  ⟨_, .waited (fun _ h => by cases h) (fun _ => rfl) rfl, readyU _ _ _ _ rfl rfl rfl (.inr (by decide)) rfl, standsOf rfl rfl⟩
theorem test_witness_mcop : Unit (.mcop false 0) (full (r1 0 0xFFFFFFFF)) :=
  ⟨_, .noSet rfl rfl, readyU _ _ _ _ rfl rfl rfl (.inr (by decide)) rfl, standsOf rfl rfl⟩
theorem test_witness_mwtSg : ∃ u, MtxStep (xU [t8]) (.mwtSg false 0) (sU [t8]) (lU (.mwtSg false 0) [t8]) u :=
  ⟨_, .signal (by decide) (fun l h => ⟨ph1 0, by
    obtain rfl : l = laneFirst (xU [t8]) { a := 0, an := 1 } 0 t8 := List.mem_singleton.1 h
    exact ⟨⟨rfl, by decide⟩, rfl⟩⟩)⟩

theorem test_witness_Drains : drainOf (.mdrn false 0 3 0) = some (0, 3, 0, false) ∧
    UnitReady (xU (full (thr 0))) (.mdrn false 0 3 0) (sU (full (thr 0))) (lU (.mdrn false 0 3 0) (full (thr 0))) ∧
    ∃ p tile, DrainFits (xU (full (thr 0))) (sU (full (thr 0))) (lU (.mdrn false 0 3 0) (full (thr 0))) 0 ((wgU (full (thr 0))).shape 3) false p tile :=
  ⟨rfl, readyU _ _ _ _ rfl rfl rfl (.inr (by decide)) rfl, _, _, ⟨by decide, rfl, rfl, rfl, by decide, fun m hm => by
    obtain rfl := Nat.lt_one_iff.mp hm
    exact .inr (.inr (.inr ⟨_, rfl, by decide, rfl⟩)), fun h => by cases h⟩⟩
theorem test_witness_mdrnAmax : drainOf (.mdrnAmax false 0 3 0 0) = some (0, 3, 0, true) ∧
    UnitReady (xU (full ga)) (.mdrnAmax false 0 3 0 0) (sU (full ga)) (lU (.mdrnAmax false 0 3 0 0) (full ga)) ∧
    ∃ p tile, DrainFits (xU (full ga)) (sU (full ga)) (lU (.mdrnAmax false 0 3 0 0) (full ga)) 0 ((wgU (full ga)).shape 3) true p tile :=
  ⟨rfl, readyU _ _ _ _ rfl rfl rfl (.inr (by decide)) rfl, _, _, ⟨by decide, rfl, rfl, rfl, by decide, fun m hm => by
    obtain rfl := Nat.lt_one_iff.mp hm
    exact .inr (.inr (.inr ⟨_, rfl, by decide, rfl⟩)), fun _ => ⟨_, rfl, rfl, rfl⟩⟩⟩

def vocA : Vocab := { st := .active, group := 0, result := some (0, 0, 0) }
theorem test_witness_ProjectionEnds : isProj (.vpj false 7 4 5 6) = true ∧
    UnitReady (xU (full (thr 0)) {} vocA) (.vpj false 7 4 5 6) (sU (full (thr 0)) {} vocA) (lU (.vpj false 7 4 5 6) (full (thr 0)) {} vocA) ∧
    VocEnds (xU (full (thr 0)) {} vocA) ∧
    ∃ u, VocOver (xU (full (thr 0)) {} vocA) (sU (full (thr 0)) {} vocA) u ∧ Stands (xU (full (thr 0)) {} vocA) (claim u core0 0) :=
  ⟨rfl, readyU _ _ _ _ rfl rfl rfl (.inr (by decide)) rfl, ⟨rfl, rfl, _, _, rfl⟩, _, .first rfl, standsOf rfl rfl⟩
theorem test_witness_vpj : ∃ u w, VocBegin (xU (full (thr 0))) (.vpj false 7 4 5 6) (sU (full (thr 0))) (lU (.vpj false 7 4 5 6) (full (thr 0))) u w :=
  ⟨_, _, .forward rfl rfl rfl⟩
theorem test_witness_ProjectionBegins : ∃ i s u x l v, UnitReady x i s l ∧ VocFree x ∧ VocBegin x i s l u v :=
  ⟨.vpj false 7 4 5 6, sU (full (thr 0)), _, xU (full (thr 0)), _, _, readyU _ _ _ _ rfl rfl rfl (.inr (by decide)) rfl,
    ⟨⟨rfl, rfl⟩, (fun h => by cases h.1), rfl, fun _ h => by cases h⟩, .forward rfl rfl rfl⟩
/-- The header of a final row block of the projection at 0x200, and a row block of rank 1 at 0x300. -/
def lfin : Mem := mwrite (mwrite [] 0x214 8 (2 ^ 18 + 9 + 0x3F800000 * 2 ^ 32)) 0x314 8 (2 ^ 32 + 1)
set_option maxRecDepth 20000 in
theorem test_witness_vpjb : ∃ u w, VocBegin (xU (full (thr 0)) {} {} lfin) (.vpjb false 8 4 5 6) (sU (full (thr 0)) {} {} lfin)
    (lU (.vpjb false 8 4 5 6) (full (thr 0)) {} {} lfin) u w :=
  ⟨_, _, .backward rfl rfl rfl (fun b hb => by
    obtain rfl := List.mem_singleton.1 hb
    exact ⟨rfl, rfl, rfl, rfl, by decide, by decide⟩)⟩
def vocS : Vocab := { st := .suspended, rows := [{}], recs := [0] }
set_option maxRecDepth 20000 in
theorem test_witness_vrsm : ∃ u w, VocBegin (xU (full (thr 0)) {} vocS) (.vrsm false 7) (sU (full (thr 0)) {} vocS) (lU (.vrsm false 7) (full (thr 0)) {} vocS) u w :=
  ⟨_, _, .resume rfl rfl rfl (by decide) rfl rfl (by decide)⟩
set_option maxRecDepth 20000 in
theorem test_witness_RowBlocks : ∃ i s u x l ps, UnitReady x i s l ∧ VocFree x ∧ VocArea x i s l u ps :=
  ⟨.vfin false 8 7, sU (full (thr 0)), _, xU (full (thr 0)), _, _, readyU _ _ _ _ rfl rfl rfl (.inr (by decide)) rfl,
    ⟨⟨rfl, rfl⟩, (fun h => by cases h.1), rfl, fun _ h => by cases h⟩, .final rfl rfl rfl (by decide) rfl⟩
set_option maxRecDepth 20000 in
theorem test_witness_vmrg : ∃ u ps, VocArea (xU (full (thr 0)) {} {} lfin) (.vmrg false 7 11) (sU (full (thr 0)) {} {} lfin) (lU (.vmrg false 7 11) (full (thr 0)) {} {} lfin) u ps :=
  ⟨_, _, .merge rfl rfl rfl rfl (fun b hb => by
    obtain rfl := List.mem_singleton.1 hb
    exact ⟨rfl, rfl, rfl, rfl, rfl, rfl, by decide, by decide, rfl, rfl⟩) (fun b hb => by obtain rfl := List.mem_singleton.1 hb; decide) rfl⟩

/-! ### The other loads, stores and atomics -/

def LoadStore (i : Instr) : Prop := ∃ a s u x, accessOf i = some a ∧ a.present s x ∧ ActUnit x a.fields (fun s l u v => a.Lane s l u v) s u ∧ Stands x u
/-- A state with D for the job of the placed grid, and its group in stack space. -/
def sD : State := { st [thr 0] grpFill placedGrid with dallocs := [{ pkg := 0, die := 0, cid := 0, size := 0x10000 }] }
theorem test_witness_loads : LoadStore (.ldd false 4 0 2 0 0) ∧ LoadStore (.lds false 4 0 5 3 0) ∧ LoadStore (.ldl false 4 0 4 1 0) :=
  ⟨⟨_, sD, _, iss [thr 0] grpFill placedGrid, rfl, .inl rfl, test_one ⟨rfl, rfl⟩ rfl rfl rfl (by decide) rfl (.load rfl rfl rfl), standsOf rfl rfl⟩,
   ⟨_, sD, _, iss [thr 0] grpFill placedGrid, rfl, .inl rfl, test_one ⟨rfl, rfl⟩ rfl rfl rfl (by decide) rfl (.ahead rfl (by decide) rfl), standsOf rfl rfl⟩,
   ⟨_, s1, _, x1, rfl, .inr ⟨rfl, rfl⟩, test_one ⟨rfl, rfl⟩ rfl rfl rfl (by decide) rfl (.ahead rfl (by decide) rfl), standsOf rfl rfl⟩⟩
theorem test_witness_stores : LoadStore (.std false 4 0 3 0) ∧ LoadStore (.sts false 4 0 0 0) :=
  ⟨⟨_, sD, _, iss [thr 0] grpFill placedGrid, rfl, .inl rfl, test_one ⟨rfl, rfl⟩ rfl rfl rfl (by decide) rfl (.store rfl rfl), standsOf rfl rfl⟩,
   ⟨_, sD, _, iss [thr 0] grpFill placedGrid, rfl, .inl rfl, test_one ⟨rfl, rfl⟩ rfl rfl rfl (by decide) rfl (.store rfl rfl), standsOf rfl rfl⟩⟩

def Atom (i : Instr) : Prop := ∃ a s u x, atomicOf i = some a ∧ a.unblocked s x ∧ ActUnit x a.fs (a.Lane s.nextId) s u ∧ Stands x u
theorem test_witness_atomics : Atom (.atmAddF32 false 4 0 2 0 1) ∧ Atom (.atmMaxI32 false 4 0 2 0 2) ∧ Atom (.atmMaxN32 false 4 0 2 0 3) ∧
    Atom (.atmMinI32 false 4 0 2 0 0) ∧ Atom (.atmMinN32 false 4 0 2 0 0) ∧ Atom (.atmAmaxF32 false 4 0 2 0 0) ∧ Atom (.atmAnd false 4 0 2 0 0) ∧
    Atom (.atmOr false 4 0 2 0 0) ∧ Atom (.atmXor false 4 0 2 0 0) ∧ Atom (.atmSwp false 4 0 2 0 0) := by
  refine ⟨?_, ?_, ?_, ?_, ?_, ?_, ?_, ?_, ?_, ?_⟩ <;>
    exact ⟨_, sg ga, _, xg ga, rfl, ⟨.inr rfl, fun i hi l hl u e h => by obtain rfl := act0 i hi; cases hl; cases h⟩,
      test_one ⟨rfl, rfl⟩ rfl rfl rfl (by decide) rfl (.asks rfl rfl), standsOf rfl rfl⟩
theorem test_witness_wide_atomics : Atom (.atmCasB32 false 4 0 2 0 3) ∧ Atom (.atmAddI64 false 4 0 2 0 0) ∧ Atom (.atmCasB64 false 4 0 2 0 0) := by
  refine ⟨?_, ?_, ?_⟩ <;>
    exact ⟨_, sg ga, _, xg ga, rfl, ⟨.inr rfl, fun i hi l hl u e h => by obtain rfl := act0 i hi; cases hl; cases h⟩,
      test_one ⟨rfl, rfl⟩ rfl rfl rfl (by decide) rfl (.asks rfl rfl), standsOf rfl rfl⟩
theorem test_witness_pauses : Passes s1 x1 (.nop true) ∧ Passes s1 x1 (.yieldPd false) ∧ Passes s1 (iss [thr 0] (grp 1) placedGrid) (.merge false) :=
  ⟨.nop _, .yieldPd _ (.inl fun i hi th h => by obtain rfl := only0 (ts := [thr 0]) (gr := placedGrid) i hi; cases h; rfl), .merge _ (.inr fun th h _ => by
    obtain rfl := List.mem_singleton.1 h; decide)⟩
theorem test_witness_hints : Hints {} (.hp 3 true) { hp := some (3, true) } ∧ Hints {} (.hrep 5 1 0 1) { hrep := some (5, 1, 0, 1) } ∧
    Hints {} (.hmod true 2 0) { hmod := some (true, 2, 0) } := ⟨.hp _ _ rfl, .hrep _ _ _ _ rfl, .hmod _ _ _ rfl⟩

/-! ### The steps of a core -/

/-- Whether a step acts as a relation says in some state. -/
def Steps (R : Instr → State → State → Prop) (i : Instr) : Prop := ∃ s t, R i s t
/-- A core whose context holds one workgroup of the threads, and the groups. -/
def sK (ts : List Thread) (gs : List Group) (clk : Nat := 0) : State :=
  { State.reset with cores := [{ at_ := core0, ctx := some { gen := 1, cid := 0, wgs := [wg ts], groups := gs } }], grids := [placedGrid], clk := clk }
def seedT (a : Nat) : Thread := { thr 0 with status := .seedbed, age := a }
def gS (st : SState) (stall : Stall) : Group := { grp 1 with st := st, stall := stall }

theorem test_witness_arbitration : Steps SchedStep (.schedulerArbitration core0 0) :=
  ⟨sK [thr 0] [gS .ready .none], _, .arbitrate ⟨rfl, rfl⟩ rfl rfl rfl⟩
theorem test_witness_exchange : Steps SchedStep (.stallExchange core0 0) :=
  ⟨sK [thr 0] [gS .stalled .result, { gS .pReady .none with slot := 1 }], _, .exchange ⟨rfl, rfl⟩ rfl rfl⟩
theorem test_witness_formation : Steps SchedStep (.groupFormation core0) := ⟨sK [seedT 0] [] 1000, _, .form ⟨rfl, rfl⟩ (by decide) rfl (by decide)⟩
theorem test_witness_aged : Steps SchedStep (.formAgeExpiry core0 0 0) := ⟨sK [seedT 0] [] 1000, _, .aged ⟨rfl, rfl⟩ rfl rfl rfl (by decide)⟩
def fullSlots : List Group := (List.range 64).map fun i => { gS .ready .none with slot := i, age := i }
set_option maxRecDepth 20000 in
theorem test_witness_dissolution : Steps SchedStep (.groupDissolution core0) :=
  ⟨sK [seedT 0] fullSlots 1000, _, .dissolve ⟨rfl, rfl⟩ (by decide) rfl rfl rfl rfl rfl⟩
theorem test_witness_mergeWait : Steps SchedStep (.mergeWaitExpiry core0 0) :=
  ⟨sK [thr 0] [gS .waiting .merge] 1000, _, .mergeOver ⟨rfl, rfl⟩ rfl rfl (by decide)⟩
theorem test_witness_sleep : Steps SchedStep (.tslpExpiry core0 0) := ⟨sK [thr 0] [gS .waiting .sleep] 1000, _, .sleepOver ⟨rfl, rfl⟩ rfl rfl (by decide)⟩
theorem test_witness_fills : Steps SchedStep (.cacheFillArrival core0 0) ∧ Steps SchedStep (.spillFillCompletion core0 0) :=
  ⟨⟨sK [thr 0] [gS .stalled .fill], _, .filled rfl rfl rfl⟩, ⟨sK [thr 0] [gS .stalled .spill], _, .spilled rfl rfl rfl⟩⟩
theorem test_witness_grant : Steps SchedStep (.wgrowGrant core0) := ⟨sK [thr 0] [gS .stalled (.wgrow 8 1)], _, .grown rfl rfl rfl rfl⟩

/-- A request of thread 0. -/
def rq (k : ReqKind) (a : Option Nat := none) : Request := { id := 5, t := ref0, kind := k, answer := a }
def sR (q : Request) : State := { sg (thr 0) with reqs := [q], nextId := 9 }
def atomK (amax : Bool := false) : ReqKind := .atomic (.g 0x20000) 0x20000 4 0 0 [{ tid := 0, b := 1, w := 0 }] amax
theorem test_witness_homes : Steps HomeStep (.atomicHomePerform 5) ∧ Steps HomeStep (.releasePromotion 7) ∧ Steps HomeStep (.bindAnswer 5) ∧
    Steps HomeStep (.releaseCompletion 5) :=
  ⟨⟨sR (rq atomK), _, .perform rfl rfl ⟨rfl, rfl⟩ rfl rfl⟩, ⟨s1, _, .promoted⟩, ⟨sR (rq (.value 0) (some 0)), _, .answer rfl rfl⟩,
   ⟨{ s1 with releases := [{ id := 5, t := ref0, obj := .word (.g 0x20000) 4 }] }, _, .releasedWord rfl rfl rfl rfl⟩⟩
def bind0 : BindEntry := { id := 3, kind := 0, stride := 0, obj := 0x20000, count := 1, size := 128, base := 0x30000, launch := false, where_ := ref0 }
theorem test_witness_bindHome : Steps HomeStep (.bindHomeOrder 5) :=
  ⟨sR (rq (.bind bind0)), _, .binds rfl rfl (fun y hy h1 h2 => by obtain rfl := List.mem_singleton.1 hy; exact absurd h2 (by decide)) rfl rfl rfl⟩
theorem test_witness_results : Steps ResultStep (.atomicResultArrival 5) := ⟨sR (rq atomK (some 0)), _, .one rfl rfl rfl⟩

/-! ### Copies and the sequencer -/

/-- A core with one copy of 16 bytes from G to L. -/
def cp (st : CopySt) (written : Nat := 0) : CopyEntry :=
  { id := 5, wslot := 0, tid := 0, sub := 0, f := 0, x := 0xF1 * 2 ^ 56, y := 0x20000, desc := [16, 0, 0, 0, 0, 0, 0, 0], st := st, pc := 0x10040, written := written }
def sC (c : CopyEntry) : State :=
  { State.reset with cores := [{ at_ := core0, ctx := some { gen := 1, cid := 0, wgs := [wg [thr 0]], groups := [grp 1], copies := [c] } }], grids := [placedGrid] }
theorem test_witness_copySteps : Steps CopyStep (.copyGateOpen core0 5) ∧ Steps CopyStep (.copyLineWrite core0 5) ∧ Steps CopyStep (.copyCompletion core0 5) :=
  ⟨⟨sC (cp .gated), _, .gateGone ⟨rfl, by decide, rfl⟩ rfl (by decide) rfl rfl⟩, ⟨sC (cp .active), _, .writes ⟨⟨rfl, by decide, rfl⟩, rfl, by decide, fun h => by cases h⟩ rfl⟩,
   ⟨sC (cp .ended 16), _, .completes rfl rfl rfl⟩⟩

def sQ (op : SeqOp) (progress : Nat := 0) : State :=
  { State.reset with
    cores := [{ at_ := core0, ctx := some { gen := 1, cid := 0, wgs := [wgU [thr 0]], groups := [grp 1],
                                            mtx := { holder := some 0, st := .busy, queue := [{ id := 5, op := op, tid := 0, pc := 0x10040, progress := progress }] } } }],
    grids := [placedGrid] }
def part1 : Part4 := { mq := 1, nq := 16 }
theorem test_witness_sequencer :
    Steps SeqStep (.mzroEntry core0) ∧ Steps SeqStep (.mbldEntry core0) ∧ Steps SeqStep (.mlpKstep core0) ∧ Steps SeqStep (.mdrnChunk core0) ∧
    Steps SeqStep (.mwtSgEntry core0) :=
  ⟨⟨sQ (.mzro 1), _, .zeroes ⟨rfl, rfl, ⟨by decide, rfl⟩, rfl, rfl, fun h => by cases h⟩ rfl⟩,
   ⟨sQ (.mbld (shape 2 1 3 0 16 16 0) (shape 3 1 0 2 16 16 0x20000) 0 part1) 8, _, .built ⟨rfl, rfl, ⟨by decide, rfl⟩, rfl, rfl, fun h => by cases h⟩ rfl (.inr (by decide))⟩,
   ⟨sQ (.mlp 0 (shape 1 1 1 2 16 1 0) (shape 2 1 3 0 16 16 0) 0 0 0 0 [] part1 none 0), _, .looped ⟨rfl, rfl, ⟨by decide, rfl⟩, rfl, rfl, fun h => by cases h⟩ rfl (.inl (by decide))⟩,
   ⟨sQ (.mdrn 0 (shape 5 0 1 4 16 1 0x100) 0 none part1 false) 64, _, .drained ⟨rfl, rfl, ⟨by decide, rfl⟩, rfl, rfl, fun h => by cases h⟩ rfl (by decide)⟩,
   ⟨sQ (.mwtSg []), _, .signalled ⟨rfl, rfl, ⟨by decide, rfl⟩, rfl, rfl, fun h => by cases h⟩ rfl (by decide)⟩⟩
/-- The steps on which a K-step of work is done: the first of a B-store, of a product and of a drain. -/
theorem test_witness_steps_of_work :
    Steps SeqStep (.mbldEntry core0) ∧ Steps SeqStep (.mlpKstep core0) ∧ Steps SeqStep (.mdrnChunk core0) :=
  ⟨⟨{ sQ (.mbld (shape 2 1 3 0 16 16 0) (shape 3 1 2 2 16 16 0) 0 part1) with dallocs := [{ pkg := 0, die := 0, cid := 0, size := 0x10000 }] }, _, .builds ⟨rfl, rfl, ⟨by decide, rfl⟩, rfl, rfl, fun h => by cases h⟩ rfl (by decide) rfl rfl rfl (by decide) rfl (by decide)⟩,
   ⟨sQ (.mlp 0 (shape 1 1 1 2 16 1 0) (shape 2 1 3 0 16 16 0) 1 0 0 0 [] part1 none 0), _,
    .kstep ⟨rfl, rfl, ⟨by decide, rfl⟩, rfl, rfl, fun h => by cases h⟩ rfl (by decide) (by decide) (by decide) (fun _ h => by cases h) rfl (fun r h => by
      obtain rfl := List.mem_singleton.1 h; exact fun h => by cases h)⟩,
   ⟨sQ (.mdrn 0 (shape 5 0 1 4 16 1 0x100) 0 none part1 false), _, .drains ⟨rfl, rfl, ⟨by decide, rfl⟩, rfl, rfl, fun h => by cases h⟩ rfl (by decide) rfl rfl⟩⟩
def sV (v : Vocab) : State :=
  { State.reset with
    cores := [{ at_ := core0, ctx := some { gen := 1, cid := 0, wgs := [wgU [thr 0]], groups := [grp 1], mtx := { holder := some 0 }, voc := v } }], grids := [placedGrid] }
theorem test_witness_projection : Steps VocStep (.vocabBlockFold core0) :=
  ⟨sV { st := .active, block := 1, recs := [0, shape 8 1 0 2 16 1 0x20000] }, _, .projected ⟨rfl, ⟨rfl, rfl⟩, by decide, ⟨0, rfl, rfl⟩⟩ (by decide)⟩

/-! ### Halts, horizons and translation answers -/

/-- A pod of one booted package with one core. -/
def onCore (c : Core) : State := { State.reset with cores := [c], grids := [placedGrid], parts := [{ part := 0, parent := 0, depth := 0 }] }
def ctxSt (st : CtxSt) (away : Bool := false) : Ctx := { gen := 1, cid := 0, st := st, bgAway := away }
theorem test_witness_HaltSteps : Steps HaltStep (.coreHalted core0) ∧ Steps HaltStep (.backgroundRestore core0) ∧ Steps HaltStep (.backgroundSave core0) ∧
    Steps HaltStep (.outSlotDrainDone core0) ∧ Steps HaltStep (.drainWriteFault core0) :=
  ⟨⟨onCore { at_ := core0, ctx := some (ctxSt .halting) }, _, .halted rfl rfl (fun g h => by cases h) ⟨fun e h => (by cases h), rfl⟩ rfl⟩,
   ⟨onCore { at_ := core0, ctx := some (ctxSt .halted) }, _, .nothingAway rfl rfl⟩,
   ⟨onCore { at_ := core0, expSlot := some { ctxSt .halted with mtx := { holder := some 0 } }, victim := true }, _, .saveWaits rfl rfl rfl⟩,
   ⟨onCore { at_ := core0, outSlot := some (ctxSt .halted) }, _, .drainWaits rfl rfl⟩,
   ⟨onCore { at_ := core0, outSlot := some (ctxSt .halted) }, _, .faulted (i := 0) rfl (by decide) rfl (fun j h => by cases h) rfl (fun x h => by cases h)⟩⟩
/-- An entry of the horizon table for the first core at time 1000. -/
def hz (ingen flags : Nat) : BitVec 256 := BitVec.ofNat 256 (2 ^ 128 + 1000 * 2 ^ 64 + 2 ^ 48 + ingen * 2 ^ 32 + flags)
def onHzn (e : BitVec 256) (busy : List Nat) (c : Core) (ns : Nat) (arm : Bool := true) : State :=
  { onCore c with packages := [{ Package.reset 0 with hzn := [(0, e)], hznBusy := busy, hznArm := arm, clock := { ns := ns, st := .locked } }] }
theorem test_witness_prefill : Steps HaltStep (.prefillDone core0) :=
  ⟨onHzn (hz 2 1) [0] { at_ := core0 } 0, _, .notLoaded rfl rfl rfl rfl rfl⟩
theorem test_witness_horizonPrefill : Steps HorizonStep (.horizonPrefill 0 0) := ⟨onHzn (hz 2 1) [] { at_ := core0 } 0, _, .prefill ⟨rfl, rfl, rfl⟩ rfl (by decide) (by decide)⟩
theorem test_witness_horizonFire : Steps HorizonStep (.horizonFire 0 0) :=
  ⟨onHzn (hz 0 1) [] { at_ := core0 } 1000, _, .fires ⟨rfl, rfl, rfl⟩ rfl (by decide) (by decide) rfl (by decide) (.inl rfl)⟩
theorem test_witness_horizonSkipped : Steps HorizonStep (.horizonFire 0 0) :=
  ⟨onHzn (hz 0 1) [] { at_ := core0 } 1000 false, _, .skipped ⟨rfl, rfl, rfl⟩ rfl (by decide) (by decide) (.inl rfl)⟩
theorem test_witness_horizonSwap : Steps HorizonStep (.horizonSwap core0) :=
  ⟨onCore { at_ := core0, swap := .horizon 0 0 false 0 false }, _, .swaps rfl rfl (fun k h => by cases h) rfl (.inl rfl)⟩
theorem test_witness_victimSwap : Steps HorizonStep (.horizonSwap core0) :=
  ⟨onCore { at_ := core0, swap := .horizon 0 0 false 0 false, victim := true }, _, .swapsVictim rfl rfl rfl (.inl rfl)⟩

theorem test_witness_express : Steps ExpressStep (.expressArrival core0 5 false) ∧ Steps ExpressStep (.lateArrival core0 1 (.line 0 [] 0)) :=
  ⟨⟨onCore { at_ := core0, expSlot := some { ctxSt .halted with cid := 5 } }, _, .empty ⟨rfl, rfl, _, rfl, rfl⟩ rfl⟩, ⟨onCore { at_ := core0 }, _, .lateAway rfl⟩⟩
theorem test_witness_forced : Steps ExpressStep (.preemptBudgetExpiry core0) :=
  ⟨{ onCore { at_ := core0, ctx := some { ctxSt .running with wgs := [wg [thr 0]], groups := [grp 1] }, swap := .express 5 false 0 true } with
      grids := [{ placedGrid with lrec := { placedGrid.lrec with phnd := 0x40 } }] }, _, .forced rfl rfl rfl (by decide) rfl⟩
def link0 : Link := { pkg := 0, die := 0, leaf := 0 }
def onPart (c : Core) : State := { onCore c with packages := [p1] }
theorem test_witness_xload : Steps ExpressStep (.xload link0 0x10000 0) := ⟨onPart { at_ := core0 }, _, .xloadBad rfl rfl (by decide) rfl rfl⟩

def wait (stage : Nat) : XWait :=
  { token := 3, t := ref0, engine := true, stage := stage, part := 0, cid := 0, addr := 0x10000, va := 0x10000, kind := 0, time := 0, notified := true }
def onWait (stage : Nat) : State :=
  { onCore { at_ := core0 } with xwaits := [wait stage], packages := [{ Package.reset 0 with fns := [{ fn := 1, vfmap := 0x80000010 }] }] }
theorem test_witness_NoticeSteps : Steps AnswerStep (.xrespResolve 0 1 3) ∧ Steps AnswerStep (.xrespDecline 0 1 3) ∧ Steps AnswerStep (.hrespResolve 0 3) ∧
    Steps AnswerStep (.hrespDecline 0 3) ∧ Steps AnswerStep (.translationWalk 3) :=
  ⟨⟨onWait 1, _, .resolve rfl ⟨rfl⟩⟩, ⟨onWait 1, _, .decline rfl ⟨rfl⟩ (by decide)⟩, ⟨onWait 2, _, .hResolve ⟨rfl⟩⟩, ⟨onWait 2, _, .hDecline ⟨rfl⟩ (by decide)⟩,
   ⟨onWait 1, _, .walk rfl rfl rfl⟩⟩

/-! ### The dispatch tree and collectives -/

def sG (g : Grid := placedGrid) : State := { State.reset with grids := [g] }
def lk (q : ReqKind) (a : Option Nat := none) : State := { sg (thr 0) with reqs := [rq q a] }
theorem test_witness_launch : Steps TreeStep (.launchRequest 5) ∧ Steps TreeStep (.requestResultArrival 5) :=
  ⟨⟨lk (.launch 1 0 3 0 0 none), _, .refuses rfl rfl rfl ⟨fun y hy _ h => by obtain rfl := List.mem_singleton.1 hy; exact absurd h (by decide), fun _ => rfl, rfl⟩ rfl⟩,
   ⟨lk (.value 0) (some 0), _, .result rfl rfl⟩⟩
theorem test_witness_TreeSteps : Steps TreeStep (.deal link0 0x8000 0 1) ∧
    Steps TreeStep (.start link0 0x8000 { block := 0, core := 0, m := 0, n := 1, lbase := [0], relaunch := false }) ∧
    Steps TreeStep (.go link0 0x8000 0) ∧ Steps TreeStep (.cancel link0 0x8000 true) ∧ Steps TreeStep (.demand link0 0x8000 1) ∧
    Steps TreeStep (.count link0 0x8000 {}) ∧ Steps TreeStep (.faultrec link0 0x8000 {}) :=
  ⟨⟨sG { placedGrid with nodes := placedGrid.nodes ++ [{ level := 2 }] }, _, .deal ⟨rfl, rfl, rfl⟩ rfl (by decide) (by decide)⟩, ⟨sG, _, .start ⟨rfl, rfl, rfl⟩⟩, ⟨sG, _, .go ⟨rfl, rfl, rfl⟩⟩,
   ⟨sG, _, .cancelAtDie rfl rfl⟩, ⟨sG, _, .demand ⟨rfl, rfl, rfl⟩⟩, ⟨sG, _, .count ⟨rfl, rfl, rfl⟩⟩, ⟨sG, _, .faultrec ⟨rfl, rfl, rfl⟩⟩⟩
theorem test_witness_budget : Steps TreeStep (.timeBudgetExpiry 0x8000) :=
  ⟨{ sG { placedGrid with lrec := { placedGrid.lrec with tbudget := 1 } } with packages := [{ Package.reset 0 with clock := { ns := 2000 } }] }, _,
    .budget rfl rfl (by decide) (by decide)⟩
theorem test_witness_noPlace : Steps TreeStep (.neighbourhoodPlacement 0 0) := ⟨State.reset, _, .noPlace rfl⟩
def wgNew : Workgroup := { wg ((List.range 32).map thr) with started := false }
set_option maxRecDepth 20000 in
theorem test_witness_begins : Steps TreeStep (.frameClearingDone core0 0) :=
  ⟨{ sG with cores := [{ at_ := core0, ctx := some { gen := 1, cid := 0, wgs := [wgNew] } }] }, _, .begins ⟨rfl, rfl, rfl, rfl, rfl, rfl, rfl, rfl⟩ rfl rfl rfl⟩

/-- A grid with one collective of one chunk of 4096 bytes over one rank. -/
def collG : Grid := { placedGrid with colls := [{ nch := 1, root := 0, chk := 0, efmt := 0, wfmt := 0, op := 0, comm := 0, dz := 0, dy := 0, dx := 0, dst := 0x40000, src := 0x20000 }] }
def sColl (k : Chunk) (e : Engine) : State :=
  { State.reset with grids := [{ collG with chunks := [k] }], comms := [{ part := 0, comm := 0, cls := 0, seed := 0, ranks := [0], logbuf := 20 }],
                     packages := [{ Package.reset 0 with engines := [e] }] }
theorem test_witness_CollectiveSteps : Steps CollStep (.engineArbitration 0 0) ∧ Steps CollStep (.switchSlotRequest 0x8000 0) :=
  ⟨⟨sColl { b := 0, c := 0 } { stack := 0, waiting := [(0, 0, 0x8000, 0, 0, 0)] }, _, .arbitrates rfl rfl ⟨_, rfl, rfl⟩⟩, ⟨State.reset, _, .switch⟩⟩
set_option maxRecDepth 20000 in
theorem test_witness_chunkTranslation : Steps CollStep (.chunkTranslation 0x8000 0 0 0) :=
  ⟨sColl { b := 0, c := 0, accepted := [0] } { stack := 0 }, _, .translated (ps := [(16, 131072), (33, 262144)]) ⟨rfl, rfl, by decide, by decide⟩ (by decide +kernel)⟩
set_option maxRecDepth 20000 in
theorem test_witness_chunkAcceptance : Steps CollStep (.chunkAcceptance 0x8000 0 0 0) :=
  ⟨{ sColl { b := 0, c := 0, translated := [0] } { stack := 0 } with grids := [{ collG with chunks := [{ b := 0, c := 0, translated := [0] }], fires := [(0, 0)] }] }, _,
    .accepts ⟨rfl, rfl, rfl, by decide, rfl, rfl⟩ (by decide) (by decide) rfl (.inl rfl)⟩
set_option maxRecDepth 20000 in
theorem test_witness_chunkAcceptsFirst : Steps CollStep (.chunkAcceptance 0x8000 0 0 0) :=
  ⟨{ sColl { b := 0, c := 0 } { stack := 0 } with grids := [{ collG with chunks := [{ b := 0, c := 0 }], fires := [(0, 0)] }] }, _,
    .acceptsFirst (ps := [(16, 131072), (33, 262144)]) ⟨rfl, rfl, rfl, by decide, rfl, rfl⟩ (by decide) (by decide) (by decide +kernel)⟩
theorem noHolder {s : State} {x : ChunkAt} {r : Nat} (h : s.cores = []) : stepHeld s x r = false := by simp [stepHeld, State.lineOwned, h]
set_option maxRecDepth 20000 in
theorem test_witness_chunkStep : Steps CollStep (.chunkStepCompletion 0 0) :=
  ⟨{ sColl { b := 0, c := 0 } { stack := 0, current := some (0, 0, 0x8000, 0, 0, 0) } with
      grids := [{ collG with chunks := [{ b := 0, c := 0, accepted := [0], translated := [0], src := [(0, 5)] }], fires := [(0, 0)] }] }, _,
    .writes ⟨⟨_, _, _, rfl, rfl⟩, rfl, rfl, by decide, noHolder rfl⟩ rfl rfl rfl rfl⟩

/-! ### Queues, functions, clocks, errors and resets -/

/-- A pod of one package that serves. -/
def pk : Package := { Package.reset 0 with mgmt := { boot := .ready, pcie := true, versionSeen := true, negotiated := true }, clock := { st := .locked } }
/-- A queue of a function that is the GUEST of partition 0, and of the physical function. -/
def q1 : QRef := { pkg := 0, fn := 1, q := 0 }
def q0 : QRef := { pkg := 0, fn := 0, q := 0 }
def sF (p : Package := pk) : State :=
  { State.reset with packages := [{ p with fns := [{ fn := 0 }, { fn := 1, vfmap := 0x80000010, queues := [{ en := true, log2n := 4 }] }] }],
                     parts := [{ part := 0, parent := 0, depth := 0 }] }
def pkt (a b : Nat) : Packet := { addr := 0, arg0 := a, arg1 := b }
/-- The descriptor of a new partition 1 with one core. -/
def newPart : Nat := 2 ^ 768 + 2 ^ 536 + 2 ^ 528 + 2 ^ 508 + 2 ^ 504

theorem test_witness_PacketSteps : Steps PacketStep (.launch q1 (pkt 1 0)) ∧ Steps PacketStep (.signal q1 (pkt 0 0)) ∧ Steps PacketStep (.jobset q1 (pkt (2 ^ 32 + 5) 0)) ∧
    Steps PacketStep (.commset q1 (pkt (2 ^ 32) 0)) ∧ Steps PacketStep (.express q1 (pkt 5 0)) ∧ Steps PacketStep (.waitsig q0 (pkt 0x20000 0)) :=
  ⟨⟨sF, _, .launchRefused rfl (by decide) rfl⟩, ⟨sF, _, .signalNow rfl rfl rfl rfl⟩, ⟨sF, _, .jobMade rfl (by decide) ⟨by decide, by decide, by decide, by decide⟩ rfl⟩,
   ⟨{ sF with comms := [{ part := 0, comm := 0, cls := 0, seed := 0, ranks := [0], logbuf := 20 }] }, _,
    .commEnds rfl (by decide) ⟨by decide, by decide, by decide⟩ (fun g h => by cases h) (List.mem_singleton.2 rfl) rfl rfl⟩,
   ⟨sF, _, .expressRefused rfl (by decide) (by decide) rfl rfl⟩, ⟨sF, _, .waitReached rfl rfl rfl (by decide)⟩⟩
theorem test_witness_partset : Steps PacketStep (.partset q0 (pkt 0x20000 0)) :=
  ⟨{ sF with gmem := mwrite [] 0x20000 128 newPart }, _,
    .partition (v := newPart) rfl (by decide) rfl (by decide +kernel) (by decide +kernel) (by decide +kernel) (.inr (by decide +kernel)) (by decide +kernel)⟩
theorem test_witness_FunctionSteps : Steps FnStep (.queueService 0) ∧ Steps FnStep (.waitsigWake 0 1) ∧ Steps FnStep (.notify q1 3) ∧ Steps FnStep (.vfmapWrite 0 0 0x80000001) ∧
    Steps FnStep (.budgetPeriodEnd 0) ∧ Steps FnStep (.functionLevelReset 0 0) ∧ Steps FnStep (.pfFunctionLevelReset 0) ∧ Steps FnStep (.save 0 0) ∧
    Steps FnStep (.restore 0 0) :=
  ⟨⟨sF, _, .idle rfl⟩, ⟨sF, _, .wakeHere rfl⟩, ⟨sF, _, .notify (by decide) rfl rfl (by decide) (by decide)⟩, ⟨sF, _, .vfmap (by decide) (by decide) (fun h => by cases h.2.1)⟩, ⟨sF, _, .period⟩,
   ⟨sF, _, .vfReset⟩, ⟨sF, _, .pfReset⟩, ⟨sF, _, .save rfl (by decide)⟩, ⟨sF, _, .restore (by decide)⟩⟩
theorem test_witness_migration : Steps FnStep (.migrationDone 0) ∧ Steps FnStep (.partitionBudgetExhausted 0 0) :=
  ⟨⟨sF { pk with migBusy := some (2, 0) }, _, .migDone rfl (fun h => by cases h)⟩,
   ⟨sF { pk with parts := [{ part := 0, tbudget := 1, charge := 2 ^ 60 }] }, _, .spent (by decide) (by decide)⟩⟩

set_option maxRecDepth 20000 in
theorem test_witness_serves : Steps FnStep (.queueService 0) :=
  ⟨{ sF with packages := [{ pk with fns := [{ fn := 0, queues := [{ en := true, log2n := 4, qbase := 0x30000, qtail := 1 }] }] }] }, _,
    .serves (q := q0) (lv := 2) (part := 0) (cid := 0) (v := 0) rfl rfl rfl rfl rfl rfl rfl rfl⟩

def sP (p : Package := pk) : State := { State.reset with packages := [p] }
def bt : Beat := { prio := 1, pid := 0, epoch := 3, version := 0 }
theorem test_witness_ClockSteps : Steps ClockStep (.peerDelayExchange 0 0 5) ∧ Steps ClockStep (.syncLoss 0) ∧ Steps ClockStep (.holdoverTimeout 0) ∧
    Steps ClockStep (.syncIntervalExpiry 0) ∧ Steps ClockStep (.heartbeat 0 bt) ∧ Steps ClockStep (.zenithClaim 0 bt) ∧ Steps ClockStep (.heartbeatTimer 0) ∧
    Steps ClockStep (.heartbeatLoss 0) ∧ Steps ClockStep (.horizonTableWrite 0 { bt with prio := 256, pid := 512, epoch := 0 } 0 0) ∧ Steps ClockStep (.ppsOutSecond 0) ∧
    Steps ClockStep (.ppsOutFall 0) :=
  ⟨⟨sP, _, .delay⟩, ⟨sP, _, .lost⟩, ⟨sP { pk with up16 := 10 ^ 10 * 2 ^ 16, clock := { st := .holdover } }, _, .holdoverOver rfl (by decide)⟩,
   ⟨sP, _, .interval rfl rfl rfl⟩, ⟨sP, _, .beat (.inl (by decide))⟩, ⟨sP, _, .claim (.inl (by decide))⟩, ⟨sP { pk with clock := { zenith := true } }, _, .beats rfl rfl⟩,
   ⟨sP { pk with up16 := 10 ^ 10 * 2 ^ 16, clock := { candidate := true } }, _, .claims rfl rfl (by decide) rfl⟩, ⟨sP, _, .table rfl rfl⟩, ⟨sP, _, .rise (by decide)⟩,
   ⟨sP, _, .fall⟩⟩
theorem test_witness_sync : Steps ClockStep (.ptpSync 0 5) := ⟨sP, _, .sync ⟨by decide, by decide⟩ (by decide)⟩
theorem test_witness_pps : Steps ClockStep (.ppsInEdge 0) :=
  if h : Config.grandmaster 0 = true then ⟨sP, _, .edge h⟩ else ⟨sP, _, .noMaster (Bool.eq_false_iff.2 h)⟩

def er (u : Nat) : ErrRec := { unit := u }
theorem test_witness_ErrorSteps : Steps ErrorStep (.error link0 (er 1)) ∧ Steps ErrorStep (.correctableError 0 (er 1)) ∧ Steps ErrorStep (.uncorrectableError 0 (er 3)) ∧
    Steps ErrorStep (.fatalPacket 0 1) ∧ Steps ErrorStep (.globalSchedulerCoreFailure 0) ∧ Steps ErrorStep (.retire link0 0) ∧ Steps ErrorStep (.patrolScrub 0 0) ∧
    Steps ErrorStep (.quiesce link0) ∧ Steps ErrorStep (.ping link0) ∧ Steps ErrorStep (.linkResponse link0 0x0D 0) ∧ Steps ErrorStep (.powerThrottle 0) ∧
    Steps ErrorStep (.powerLimitTrip 0) ∧ Steps ErrorStep (.thermalTrip 0) :=
  ⟨⟨sP, _, .error rfl⟩, ⟨sP, _, .corrected rfl⟩, ⟨sP, _, .inG rfl⟩, ⟨sP, _, .fatalPacket (by decide)⟩, ⟨sP, _, .coreFails⟩, ⟨sP, _, .retire rfl rfl⟩, ⟨sP, _, .scrub⟩,
   ⟨sP, _, .quiesce rfl⟩, ⟨sP, _, .ping rfl⟩, ⟨sP, _, .pong⟩, ⟨sP, _, .throttle⟩, ⟨sP, _, .throttles (by decide)⟩, ⟨sP, _, .hot⟩⟩
theorem test_witness_remap : Steps ErrorStep (.remap { link0 with leaf := 16 } 0) := ⟨sP, _, .remap rfl rfl (by decide) rfl rfl⟩
theorem test_witness_pings : Steps ErrorStep (.pingTimer 0) := ⟨sP, _, .watchdog rfl rfl rfl (by decide)⟩

theorem test_witness_SpdmSteps : Steps SpdmStep (.getVersion 0) ∧ Steps SpdmStep (.getCapabilities 0) ∧ Steps SpdmStep (.negotiateAlgorithms 0 1 1) ∧
    Steps SpdmStep (.getDigests 0) ∧ Steps SpdmStep (.getCertificate 0 0 0 16) ∧ Steps SpdmStep (.challenge 0 0 7) ∧ Steps SpdmStep (.getMeasurements 0 4) ∧
    Steps SpdmStep (.unsupportedRequest 0 0x90) := by
  have r : Responds (sP) 0 := ⟨rfl, rfl, rfl, by decide, rfl⟩
  have l : Listens (sP) 0 := ⟨rfl, rfl, rfl⟩
  exact ⟨⟨_, _, .version l⟩, ⟨_, _, .capabilities r⟩, ⟨_, _, .algorithms r⟩, ⟨_, _, .digests r rfl⟩, ⟨_, _, .certificate r rfl⟩, ⟨_, _, .challenge r rfl⟩,
    ⟨_, _, .measurements r rfl (.inl (by decide))⟩, ⟨_, _, .unsupported l (by decide)⟩⟩
theorem test_witness_BoardSteps : Steps BoardStep (.powerGood 0) ∧ Steps BoardStep (.coldReset 0) ∧ Steps BoardStep (.railDrop 0 1) ∧ Steps BoardStep (.warmReset 0) ∧
    Steps BoardStep (.perst 0) ∧ Steps BoardStep (.warm 0) ∧ Steps BoardStep (.apaddr 0 0) ∧ Steps BoardStep (.cmdRetire 0) ∧
    Steps BoardStep (.dynamicAddressAssignment 0 8) ∧ Steps BoardStep (.registerWrite (.mgmt 0) 0x24 7) ∧ Steps BoardStep (.hostDieAccess 0 (.write 0x20000 4 1)) :=
  ⟨⟨State.reset, _, .boots rfl⟩, ⟨sP, _, .cold⟩, ⟨sP, _, .rail⟩, ⟨sP, _, .warm (pkg := 0) (by decide) (by decide)⟩, ⟨sP, _, .warm (pkg := 0) (by decide) (by decide)⟩, ⟨sP, _, .warm (pkg := 0) (by decide) (by decide)⟩,
   ⟨sP, _, .aperture⟩, ⟨sP, _, .retires rfl rfl rfl (by decide) (by decide) rfl⟩, ⟨sP, _, .address⟩, ⟨sP, _, .cmdarg⟩, ⟨sP, _, .hostWrites rfl⟩⟩
theorem test_witness_aperture : Steps BoardStep (.apertureReadDone 0) :=
  ⟨sP { pk with mgmt := { pk.mgmt with apbusy := true } }, _, .apertureReads rfl ⟨by decide, by decide⟩ rfl⟩
theorem test_witness_taisec : Steps BoardStep (.taisec 0) :=
  if h : Config.grandmaster 0 = true then
    if h' : Config.taisec 0 = true then ⟨sP, _, .tai h h'⟩ else ⟨sP, _, .noTai (.inr (Bool.eq_false_iff.2 h'))⟩
  else ⟨sP, _, .noTai (.inl (Bool.eq_false_iff.2 h))⟩
theorem test_witness_shares : Steps BoardStep (.memoryRequestService 0 2) ∧ Steps BoardStep (.portFlitArbitration 0 2) :=
  ⟨⟨{ sP with channels := [((0, 2), [])] }, _, .channel rfl rfl⟩, ⟨{ sP with ports := [((0, 2), [])] }, _, .port rfl rfl⟩⟩

/-! ### Decoding: one word of each instruction, written out from the fields of its row of the opcode table -/

theorem test_decode_maj00a :
    decodeWord 0 0x80B17281 = .ok (.addI32 true 22 11 37) ∧ decodeWord 0 0x80B17282 = .ok (.subI32 true 22 11 37) ∧
    decodeWord 0 0x80B17283 = .ok (.addcN32 true 22 11 37) ∧ decodeWord 0 0x80B17284 = .ok (.subbN32 true 22 11 37) ∧
    decodeWord 0 0x80B17285 = .ok (.mulI32 true 22 11 37) ∧ decodeWord 0 0x80B17286 = .ok (.mulhiI32 true 22 11 37) ∧
    decodeWord 0 0x80B17287 = .ok (.mulhiN32 true 22 11 37) ∧ decodeWord 0 0x80B17288 = .ok (.madI32 true 22 11 37) ∧
    decodeWord 0 0x80B17289 = .ok (.minI32 true 22 11 37) ∧ decodeWord 0 0x80B1728A = .ok (.minN32 true 22 11 37) ∧
    decodeWord 0 0x80B1728B = .ok (.maxI32 true 22 11 37) ∧ decodeWord 0 0x80B1728C = .ok (.maxN32 true 22 11 37) ∧
    decodeWord 0 0x80B1600D = .ok (.absI32 true 22 11) ∧ decodeWord 0 0x80B1600E = .ok (.negI32 true 22 11) ∧
    decodeWord 0 0x80B17290 = .ok (.andB32 true 22 11 37) ∧ decodeWord 0 0x80B17291 = .ok (.orB32 true 22 11 37) :=
  ⟨rfl, rfl, rfl, rfl, rfl, rfl, rfl, rfl, rfl, rfl, rfl, rfl, rfl, rfl, rfl, rfl⟩
theorem test_decode_maj00b :
    decodeWord 0 0x80B17292 = .ok (.xorB32 true 22 11 37) ∧ decodeWord 0 0x80B17293 = .ok (.andnB32 true 22 11 37) ∧
    decodeWord 0 0x80B16014 = .ok (.notB32 true 22 11) ∧ decodeWord 0 0x80B17298 = .ok (.shlB32 true 22 11 37) ∧
    decodeWord 0 0x80B17299 = .ok (.shrB32 true 22 11 37) ∧ decodeWord 0 0x80B1729A = .ok (.sarI32 true 22 11 37) ∧
    decodeWord 0 0x80B1729B = .ok (.rolB32 true 22 11 37) ∧ decodeWord 0 0x80B1729C = .ok (.bfxN32 true 22 11 37) ∧
    decodeWord 0 0x80B1729D = .ok (.bfxI32 true 22 11 37) ∧ decodeWord 0 0x80B1729E = .ok (.bfsB32 true 22 11 37) ∧
    decodeWord 0 0x80B16020 = .ok (.clzB32 true 22 11) ∧ decodeWord 0 0x80B16021 = .ok (.popB32 true 22 11) ∧
    decodeWord 0 0x80B16022 = .ok (.brevB32 true 22 11) ∧ decodeWord 0 0x80B172A3 = .ok (.bpermB32 true 22 11 37) ∧
    decodeWord 0 0x81A4AB28 = .ok (.cmpI32 true 6 4 37 22) ∧ decodeWord 0 0x81A4AB29 = .ok (.cmpN32 true 6 4 37 22) :=
  ⟨rfl, rfl, rfl, rfl, rfl, rfl, rfl, rfl, rfl, rfl, rfl, rfl, rfl, rfl, rfl, rfl⟩
theorem test_decode_maj00c :
    decodeWord 0 0x80B1602C = .ok (.movB32 true 22 11) ∧ decodeWord 0 0x80625330 = .ok (.addI64 true 6 9 19) ∧
    decodeWord 0 0x80625331 = .ok (.subI64 true 6 9 19) ∧ decodeWord 0 0x806252B2 = .ok (.shlB64 true 6 9 37) ∧
    decodeWord 0 0x806252B3 = .ok (.shrB64 true 6 9 37) :=
  ⟨rfl, rfl, rfl, rfl, rfl⟩
theorem test_decode_maj01a :
    decodeWord 0 0x82B17281 = .ok (.faddF32 true 22 11 37) ∧ decodeWord 0 0x82B17282 = .ok (.fsubF32 true 22 11 37) ∧
    decodeWord 0 0x82B17283 = .ok (.fmulF32 true 22 11 37) ∧ decodeWord 0 0x82B17284 = .ok (.ffmaF32 true 22 11 37) ∧
    decodeWord 0 0x82B17285 = .ok (.fminF32 true 22 11 37) ∧ decodeWord 0 0x82B17286 = .ok (.fmaxF32 true 22 11 37) ∧
    decodeWord 0 0x82B16007 = .ok (.fabsF32 true 22 11) ∧ decodeWord 0 0x82B16008 = .ok (.fnegF32 true 22 11) ∧
    decodeWord 0 0x82B16009 = .ok (.frcpF32 true 22 11) ∧ decodeWord 0 0x82B1600A = .ok (.frsqF32 true 22 11) ∧
    decodeWord 0 0x82B1600B = .ok (.fsqrF32 true 22 11) ∧ decodeWord 0 0x82B1600C = .ok (.fex2F32 true 22 11) ∧
    decodeWord 0 0x82B1600D = .ok (.flg2F32 true 22 11) ∧ decodeWord 0 0x83A4AB0E = .ok (.fcmpF32 true 6 4 37 22) ∧
    decodeWord 0 0x82B1600F = .ok (.fclsF32 true 22 11) ∧ decodeWord 0 0x82B17290 = .ok (.hadd2F16 true 22 11 37) :=
  ⟨rfl, rfl, rfl, rfl, rfl, rfl, rfl, rfl, rfl, rfl, rfl, rfl, rfl, rfl, rfl, rfl⟩
theorem test_decode_maj01b :
    decodeWord 0 0x82B17291 = .ok (.hmul2F16 true 22 11 37) ∧ decodeWord 0 0x82B17292 = .ok (.hfma2F16 true 22 11 37) ∧
    decodeWord 0 0x82B17293 = .ok (.hmax2F16 true 22 11 37) ∧ decodeWord 0 0x82B17294 = .ok (.hmin2F16 true 22 11 37) ∧
    decodeWord 0 0x82B17298 = .ok (.bfma2Bf16 true 22 11 37) :=
  ⟨rfl, rfl, rfl, rfl, rfl⟩
theorem test_decode_maj02 :
    decodeWord 0 0x84B16081 = .ok (.fcvt true 22 11 0 1) ∧ decodeWord 0 0x84B16402 = .ok (.fcviI32 true 22 11 1) ∧
    decodeWord 0 0x84B16403 = .ok (.fcviN32 true 22 11 1) ∧ decodeWord 0 0x84B16084 = .ok (.icvfI32 true 22 11 1) ∧
    decodeWord 0 0x84B16085 = .ok (.icvfN32 true 22 11 1) ∧ decodeWord 0 0x84B24288 = .ok (.qcv true 22 9 5) ∧
    decodeWord 0 0x84B18289 = .ok (.qcvs true 22 3 5) ∧ decodeWord 0 0x84B2548A = .ok (.qdq true 22 9 5 1) ∧
    decodeWord 0 0x84B1628B = .ok (.qsc true 22 11 5) ∧ decodeWord 0 0x84B1728C = .ok (.qox true 22 11 37) ∧
    decodeWord 0 0x84B1728D = .ok (.pkh true 22 11 37) :=
  ⟨rfl, rfl, rfl, rfl, rfl, rfl, rfl, rfl, rfl, rfl, rfl⟩
theorem test_decode_maj03 :
    decodeWord 0 0x87848A01 = .ok (.pand true 6 4 true 2 true) ∧ decodeWord 0 0x87848A02 = .ok (.por true 6 4 true 2 true) ∧
    decodeWord 0 0x87848A03 = .ok (.pxor true 6 4 true 2 true) ∧ decodeWord 0 0x87848004 = .ok (.pnot true 6 4 true) ∧
    decodeWord 0 0x87848005 = .ok (.pmov true 6 4 true) ∧ decodeWord 0 0x86B00008 = .ok (.vmovpToReg true 22) ∧
    decodeWord 0 0x8602C088 = .ok (.vmovpToPreds true 22) ∧ decodeWord 0 0x86B0110C = .ok (.sreg true 22 34) ∧
    decodeWord 0 0x8660000D = .ok (.tnow true 6) ∧ decodeWord 0 0x86B1729E = .ok (.sel true 22 11 37 true 6) :=
  ⟨rfl, rfl, rfl, rfl, rfl, rfl, rfl, rfl, rfl, rfl⟩
theorem test_decode_maj04 :
    decodeWord 0 0x88B17A5A = .ok (.addi true 22 11 0x1A5A) :=
  rfl
theorem test_decode_maj05 :
    decodeWord 0 0x8AB17A5A = .ok (.andi true 22 11 0x1A5A) :=
  rfl
theorem test_decode_maj06 :
    decodeWord 0 0x8CB17A5A = .ok (.ori true 22 11 0x1A5A) :=
  rfl
theorem test_decode_maj07 :
    decodeWord 0 0x8EB17A5A = .ok (.xori true 22 11 0x1A5A) :=
  rfl
theorem test_decode_maj08 :
    decodeWord 0 0x90B16013 = .ok (.shli true 22 11 19) ∧ decodeWord 0 0x90B16813 = .ok (.shri true 22 11 19) ∧
    decodeWord 0 0x90B17013 = .ok (.sari true 22 11 19) ∧ decodeWord 0 0x90B17813 = .ok (.roli true 22 11 19) :=
  ⟨rfl, rfl, rfl, rfl⟩
theorem test_decode_maj09 :
    decodeWord 0 0x93A4BA5A = .ok (.cmpi true 6 4 37 0x1A5A) :=
  rfl
theorem test_decode_maj0A :
    decodeWord 0 0x94B25A5A = .ok (.lim true 22 0x25A5A) ∧ decodeWord 2 0x94625A5A = .ok (.limB64 true 6 0x25A5A) :=
  ⟨rfl, rfl⟩
theorem test_decode_maj0B :
    decodeWord 0 0x96616000 = .ok (.leaL true 6 11) ∧ decodeWord 0 0x96616800 = .ok (.leaD true 6 11) ∧
    decodeWord 0 0x96616E00 = .ok (.leaDDie true 6 11 2) ∧ decodeWord 0 0x96617000 = .ok (.leaS true 6 11) :=
  ⟨rfl, rfl, rfl, rfl⟩
theorem test_decode_maj0C :
    decodeWord 0 0x99BA5A5A = .ok (.bra true 6 true 0x1A5A5A) :=
  rfl
theorem test_decode_maj0D :
    decodeWord 0 0x9BBA5A5A = .ok (.brau true 6 true 0x1A5A5A) :=
  rfl
theorem test_decode_maj0E :
    decodeWord 0 0x9CB25A5A = .ok (.call true 22 0x25A5A) :=
  rfl
theorem test_decode_maj0F :
    decodeWord 0 0x9E000000 = .ok (.nop true) ∧ decodeWord 0 0x9E000001 = .ok (.exit true) ∧ decodeWord 0 0x9E000002 = .ok (.ret true) ∧
    decodeWord 0 0x9E000003 = .ok (.merge true) ∧ decodeWord 0 0x9E000004 = .ok (.yield true) ∧ decodeWord 0 0x9E000005 = .ok (.yieldPd true) ∧
    decodeWord 0 0x9E018588 = .ok (.callr true 6 11) ∧ decodeWord 0 0x9E018009 = .ok (.jmpr true 6) ∧ decodeWord 0 0x9E052D0A = .ok (.trap true 0xA5A) ∧
    decodeWord 0 0x9E00080C = .ok (.wgrow true 16) ∧ decodeWord 0 0x9E000C0D = .ok (.wshr true 24) ∧ decodeWord 0 0x9E02C00E = .ok (.tslp true 22) :=
  ⟨rfl, rfl, rfl, rfl, rfl, rfl, rfl, rfl, rfl, rfl, rfl, rfl⟩
theorem test_decode_maj10 :
    decodeWord 0 0xA0B1658B = .ok (.ldl true 22 11 1 6 11) :=
  rfl
theorem test_decode_maj11 :
    decodeWord 0 0xA2B16416 = .ok (.stl true 22 11 1 22) :=
  rfl
theorem test_decode_maj12 :
    decodeWord 0 0xA4B1658B = .ok (.ldd true 22 11 1 6 11) :=
  rfl
theorem test_decode_maj13 :
    decodeWord 0 0xA6B16416 = .ok (.std true 22 11 1 22) :=
  rfl
theorem test_decode_maj14 :
    decodeWord 0 0xA8B1658B = .ok (.lds true 22 11 1 6 11) :=
  rfl
theorem test_decode_maj15 :
    decodeWord 0 0xAAB16416 = .ok (.sts true 22 11 1 22) :=
  rfl
theorem test_decode_maj16 :
    decodeWord 0 0xACB252B2 = .ok (.atmAddI32 true 22 9 37 6 2) ∧ decodeWord 0 0xACB252B6 = .ok (.atmAddF32 true 22 9 37 6 2) :=
  ⟨rfl, rfl⟩
theorem test_decode_maj17 :
    decodeWord 0 0xAEB252B2 = .ok (.atmMaxI32 true 22 9 37 6 2) ∧ decodeWord 0 0xAEB252B6 = .ok (.atmMaxN32 true 22 9 37 6 2) :=
  ⟨rfl, rfl⟩
theorem test_decode_maj18 :
    decodeWord 0 0xB0B252B2 = .ok (.atmMinI32 true 22 9 37 6 2) ∧ decodeWord 0 0xB0B252B6 = .ok (.atmMinN32 true 22 9 37 6 2) :=
  ⟨rfl, rfl⟩
theorem test_decode_maj19 :
    decodeWord 0 0xB2B252B2 = .ok (.atmAmaxF32 true 22 9 37 6 2) ∧ decodeWord 0 0xB2B252B6 = .ok (.atmAnd true 22 9 37 6 2) :=
  ⟨rfl, rfl⟩
theorem test_decode_maj1A :
    decodeWord 0 0xB4B252B2 = .ok (.atmOr true 22 9 37 6 2) ∧ decodeWord 0 0xB4B252B6 = .ok (.atmXor true 22 9 37 6 2) :=
  ⟨rfl, rfl⟩
theorem test_decode_maj1B :
    decodeWord 0 0xB6B252B2 = .ok (.atmSwp true 22 9 37 6 2) ∧ decodeWord 0 0xB6B25336 = .ok (.atmCasB32 true 22 9 19 6 2) :=
  ⟨rfl, rfl⟩
theorem test_decode_maj1C :
    decodeWord 0 0xB8625332 = .ok (.atmAddI64 true 6 9 19 6 2) ∧ decodeWord 0 0xB8625236 = .ok (.atmCasB64 true 6 9 9 6 2) :=
  ⟨rfl, rfl⟩
theorem test_decode_maj1D :
    decodeWord 0 0xBA030901 = .ok (.bind true 6 9) ∧ decodeWord 0 0xBA030602 = .ok (.bindx true 6 3) ∧ decodeWord 0 0xBA018003 = .ok (.unbind true 6) ∧
    decodeWord 0 0xBA000008 = .ok (.fenceAcq true) ∧ decodeWord 0 0xBA000009 = .ok (.fenceRel true) ∧ decodeWord 0 0xBA00000A = .ok (.fenceAr true) ∧
    decodeWord 0 0xBA000010 = .ok (.drainL true) ∧ decodeWord 0 0xBA000011 = .ok (.drainD true) ∧ decodeWord 0 0xBA000012 = .ok (.drainS true) ∧
    decodeWord 0 0xBA000013 = .ok (.drainG true) :=
  ⟨rfl, rfl, rfl, rfl, rfl, rfl, rfl, rfl, rfl, rfl⟩
theorem test_decode_maj1E :
    decodeWord 0 0xBCB00001 = .ok (.phal true 22) ∧ decodeWord 0 0xBC02C002 = .ok (.phfr true 22) ∧ decodeWord 0 0xBC02C583 = .ok (.phrg true 22 11) ∧
    decodeWord 0 0xBC02C004 = .ok (.phdr true 22) ∧ decodeWord 0 0xBC02C005 = .ok (.phsg true 22) ∧ decodeWord 0 0xBCB16006 = .ok (.phwt true 22 11) ∧
    decodeWord 0 0xBCB16007 = .ok (.phsw true 22 11) ∧ decodeWord 0 0xBC02C908 = .ok (.phex true 22 9) ∧ decodeWord 0 0xBC616009 = .ok (.phqy true 6 11) ∧
    decodeWord 0 0xBC02C00A = .ok (.phin true 22) :=
  ⟨rfl, rfl, rfl, rfl, rfl, rfl, rfl, rfl, rfl, rfl⟩
theorem test_decode_maj1F :
    decodeWord 0 0xBE624408 = .ok (.cpy true 6 9 1 1) ∧ decodeWord 0 0xBE624409 = .ok (.cpy2 true 6 9 1 1) ∧
    decodeWord 0 0xBE62440A = .ok (.cpyg true 6 9 1 1) ∧ decodeWord 0 0xBE62440B = .ok (.cpys true 6 9 1 1) ∧
    decodeWord 0 0xBE62444C = .ok (.cpyr true 6 9 1 2 1) :=
  ⟨rfl, rfl, rfl, rfl, rfl⟩
theorem test_decode_maj20 :
    decodeWord 0 0xC0318000 = .ok (.mshp true 6 3) ∧ decodeWord 0 0xC0306481 = .ok (.mbld true 6 3 9) ∧ decodeWord 0 0xC0300002 = .ok (.mzro true 6) ∧
    decodeWord 0 0xC1192613 = .ok (.mlp true 2 3 9 6 2) ∧ decodeWord 0 0xC118000C = .ok (.mdrn true 2 3 1) ∧
    decodeWord 0 0xC1183314 = .ok (.mdrnAmax true 2 3 19 2) ∧ decodeWord 0 0xC0000005 = .ok (.mwt true) ∧ decodeWord 0 0xC002C00D = .ok (.mwtSg true 22) ∧
    decodeWord 0 0xC002C006 = .ok (.mcop true 22) :=
  ⟨rfl, rfl, rfl, rfl, rfl, rfl, rfl, rfl, rfl⟩
theorem test_decode_maj21 :
    decodeWord 0 0xC23064B0 = .ok (.vpj true 6 3 9 6) ∧ decodeWord 0 0xC23064B1 = .ok (.vpjb true 6 3 9 6) ∧
    decodeWord 0 0xC2306002 = .ok (.vmrg true 6 3) ∧ decodeWord 0 0xC2306003 = .ok (.vfin true 6 3) ∧ decodeWord 0 0xC2300004 = .ok (.vrsm true 6) :=
  ⟨rfl, rfl, rfl, rfl, rfl⟩
theorem test_decode_maj22 :
    decodeWord 0 0xC4624048 = .ok (.glch true 6 9 9) ∧ decodeWord 0 0xC4018001 = .ok (.gcan true 6) ∧ decodeWord 0 0xC4018002 = .ok (.gwt true 6) ∧
    decodeWord 0 0xC46243B3 = .ok (.gqy true 6 9 7 6) ∧ decodeWord 0 0xC402C004 = .ok (.cfr true 22) ∧ decodeWord 0 0xC402C585 = .ok (.cwt true 22 11) ∧
    decodeWord 0 0xC4B172B6 = .ok (.cqy true 22 11 37 6) :=
  ⟨rfl, rfl, rfl, rfl, rfl, rfl, rfl⟩
theorem test_decode_maj23 :
    decodeWord 0 0xC6B01001 = .ok (.csrr true 22 32) ∧ decodeWord 0 0xC6B01002 = .ok (.csrw true 22 32) ∧ decodeWord 0 0xC6018583 = .ok (.tlbi true 6 11) ∧
    decodeWord 0 0xC6B25304 = .ok (.ctxs true 22 9 19) ∧ decodeWord 0 0xC6B25305 = .ok (.ctxl true 22 9 19) ∧ decodeWord 0 0xC6000006 = .ok (.eret true) ∧
    decodeWord 0 0xC6B25287 = .ok (.halt true 22 9 37) ∧ decodeWord 0 0xC6B41288 = .ok (.hzn true 22 4 37) ∧
    decodeWord 0 0xC6B17289 = .ok (.phld true 22 11 37) ∧ decodeWord 0 0xC662400A = .ok (.dbgr true 6 9) :=
  ⟨rfl, rfl, rfl, rfl, rfl, rfl, rfl, rfl, rfl, rfl⟩
theorem test_decode_maj3F :
    decodeWord 0 0x7E1A5A5A = .ok (.hx 0x1A5A5A) ∧ decodeWord 0 0x7E540000 = .ok (.hp 2 true) ∧ decodeWord 0 0x7EA96600 = .ok (.hrep 165 2 1 2) ∧
    decodeWord 0 0x7EE90000 = .ok (.hmod true 2 1) :=
  ⟨rfl, rfl, rfl, rfl⟩

/-! ### Ill-formed fields, each refused by its check, and by the decoder -/

theorem test_wf_condition : (Instr.cmpI32 false 0 6 0 0).check = some .condition := rfl
theorem test_wf_format : (Instr.fcvt false 0 0 1 1).check = some .formatPair := rfl
theorem test_wf_align : (Instr.ldl false 3 0 3 0 0).check = some .registerAlign ∧ (Instr.std false 6 0 4 0).check = some .registerAlign := ⟨rfl, rfl⟩
theorem test_wf_size : (Instr.ldl false 0 0 7 0 0).check = some .size ∧ (Instr.stl false 0 0 5 0).check = some .size := ⟨rfl, rfl⟩
theorem test_wf_selector : (Instr.sreg false 0 0x0E).check = some .selector := rfl
theorem test_wf_copy : (Instr.cpyr false 0 0 0 3 0).check = some .copyCode := rfl
theorem test_wf_rounding : (Instr.mdrn false 0 0 4).check = some .rounding ∧ (Instr.hmod true 5 0).check = some .rounding := ⟨rfl, rfl⟩
theorem test_wf_policy : (Instr.hmod false 0 3).check = some .policy := rfl
theorem test_wf_gridSelector : (Instr.gqy false 0 0 9 0).check = some .gridSelector := rfl
theorem test_wf_csr : (Instr.csrr false 0 3).check = some .csr := rfl
theorem test_decode_refuses : decodeWord 0 0x50 = .error .minorOrReserved ∧ decodeWord 0 (word (.sreg false 0 0x0E)) = .error (.check .selector) ∧
    decodeWord 0 0x01770728 = .error (.check .condition) := by decide

/-! ### Every lane row has a unit it runs in, and the group instructions a full one -/

theorem test_witness_any_row (row : LaneRow) (h : row.fs.within 64 none = true) : LaneUnit s1 x1 row.fs := lane1 _ h
theorem fullUnit (fs : Fields) (h : fs.within 64 none = true) : LaneUnit (sU (full (thr 0))) (xU (full (thr 0))) fs := by
  refine ⟨⟨rfl, rfl⟩, rfl, List.nodup_range, fun i hi => ?_, fun i _ th hth => ?_⟩
  · have h1 : i < 32 := by simpa [xU, grp, full] using hi
    have h2 : ∀ i < 32, ∃ th, (xU (full (thr 0))).w.thread i = some th ∧ th.pend = .none := by
      intro i hi; interval_cases i <;> exact ⟨_, rfl, rfl⟩
    exact h2 i h1
  · obtain ⟨j, _, rfl⟩ := List.mem_map.1 (List.mem_of_find?_eq_some hth)
    exact h
theorem test_witness_block_rows : ∃ r1 r2, QuantRow (xU (full (thr 0))) (.qsc false 4 0 3) r1 ∧ QuantRow (xU (full (thr 0))) (.qox false 4 0 1) r2 ∧
    LaneUnit (sU (full (thr 0))) (xU (full (thr 0))) r1.fs ∧ LaneUnit (sU (full (thr 0))) (xU (full (thr 0))) r2.fs :=
  ⟨_, _, .qsc _ _ _ _ rfl rfl, .qox _ _ _ _ rfl rfl, fullUnit _ rfl, fullUnit _ rfl⟩

/-! ### Results of single instructions, by hand from their rules -/

/-- Thread 0 after an instruction, its registers set before. -/
def after (i : Instr) (rs : List (Nat × Nat)) (t : Thread := thr 0) : Thread :=
  match exec i (sg (rs.foldl (fun (t : Thread) r => t.setReg r.1 r.2) t)) with
  | .next s => (s.thread core0 0 0).getD (thr 99)
  | _ => thr 99
/-- Register 4 after an instruction on v0 and v1. -/
def v4 (i : Instr) (a b : Nat) : Nat := (after i [(0, a), (1, b)]).reg 4
/-- Whether p3 is 1 after an instruction on v0 and v1. -/
def q3 (i : Instr) (a b : Nat) : Bool := (after i [(0, a), (1, b)]).getP 3
def m1 : Nat := 0xFFFFFFFF

theorem test_sums : v4 (.addI32 false 4 0 1) m1 1 = 0 ∧ v4 (.subI32 false 4 0 1) 0 1 = m1 ∧ v4 (.mulI32 false 4 0 1) m1 3 = 0xFFFFFFFD ∧
    v4 (.mulhiI32 false 4 0 1) m1 2 = m1 ∧ v4 (.mulhiN32 false 4 0 1) m1 2 = 1 ∧ (after (.madI32 false 4 0 1) [(0, 3), (1, 4), (4, 5)]).reg 4 = 17 := by decide +kernel
theorem test_carry : (after (.addcN32 false 4 0 1) [(0, m1)] { thr 0 with pred := 0x40 }).reg 4 = 0 ∧
    (after (.addcN32 false 4 0 1) [(0, m1)] { thr 0 with pred := 0x40 }).getP 6 = true ∧
    (after (.subbN32 false 4 0 1) [] { thr 0 with pred := 0x40 }).reg 4 = m1 ∧ (after (.subbN32 false 4 0 1) [(0, 2), (1, 1)] { thr 0 with pred := 0x40 }).getP 6 = false := by decide +kernel
theorem test_minmax : v4 (.minI32 false 4 0 1) m1 1 = m1 ∧ v4 (.minN32 false 4 0 1) m1 1 = 1 ∧ v4 (.maxI32 false 4 0 1) m1 1 = 1 ∧ v4 (.maxN32 false 4 0 1) m1 1 = m1 ∧
    v4 (.absI32 false 4 0) 0x80000000 0 = 0x80000000 ∧ v4 (.negI32 false 4 0) 1 0 = m1 := by decide +kernel
theorem test_logic : v4 (.andB32 false 4 0 1) 12 10 = 8 ∧ v4 (.orB32 false 4 0 1) 12 10 = 14 ∧ v4 (.xorB32 false 4 0 1) 12 10 = 6 ∧ v4 (.andnB32 false 4 0 1) 12 10 = 4 ∧
    v4 (.notB32 false 4 0) 0 0 = m1 ∧ v4 (.movB32 false 4 0) 7 0 = 7 := by decide +kernel
theorem test_shifts : v4 (.shlB32 false 4 0 1) 1 31 = 0x80000000 ∧ v4 (.shlB32 false 4 0 1) 1 32 = 0 ∧ v4 (.shrB32 false 4 0 1) 0x80000000 32 = 0 ∧
    v4 (.sarI32 false 4 0 1) 0x80000000 40 = m1 ∧ v4 (.rolB32 false 4 0 1) 0x80000001 33 = 3 := by decide +kernel
theorem test_fields : v4 (.bfxN32 false 4 0 1) 0xABCD1234 0x0808 = 0x12 ∧ v4 (.bfxN32 false 4 0 1) 0xF0000000 0x081C = 0xF ∧ v4 (.bfxI32 false 4 0 1) 0x8000 0x040C = 0xFFFFFFF8 ∧
    v4 (.bfsB32 false 4 0 1) 0xF 0x0404 = 0xF0 ∧ v4 (.clzB32 false 4 0) 1 0 = 31 ∧ v4 (.clzB32 false 4 0) 0 0 = 32 ∧ v4 (.popB32 false 4 0) 0xF0F0 0 = 8 ∧
    v4 (.brevB32 false 4 0) 1 0 = 0x80000000 ∧ (after (.bpermB32 false 4 0 1) [(0, 0x33221100), (1, 0x8740), (4, 0x77665544)]).reg 4 = 0x00774400 := by decide +kernel
theorem test_compares : q3 (.cmpI32 false 3 2 0 1) m1 1 = true ∧ q3 (.cmpN32 false 3 2 0 1) m1 1 = false ∧ q3 (.cmpi false 3 0 0 0x1FFF) m1 0 = true := by decide +kernel
theorem test_wide : (after (.addI64 false 2 0 1) [(0, m1), (1, m1), (2, 1)]).pair 4 = 0 ∧ (after (.subI64 false 2 0 1) [(2, 1)]).pair 4 = 2 ^ 64 - 1 ∧
    (after (.shlB64 false 2 0 2) [(0, 1), (2, 32)]).pair 4 = 2 ^ 32 ∧ (after (.shrB64 false 2 0 2) [(1, 1), (2, 32)]).pair 4 = 1 := by decide +kernel
theorem test_immediates : v4 (.addi false 4 0 0x1FFF) 0 0 = m1 ∧ v4 (.andi false 4 0 0x1FFF) 0x80000001 0 = 0x80000001 ∧ v4 (.ori false 4 0 1) 2 0 = 3 ∧ v4 (.xori false 4 0 3) 1 0 = 2 ∧
    v4 (.shli false 4 0 31) 1 0 = 0x80000000 ∧ v4 (.shri false 4 0 31) 0x80000000 0 = 1 ∧ v4 (.sari false 4 0 31) 0x80000000 0 = m1 ∧ v4 (.roli false 4 0 1) 0x80000001 0 = 3 ∧
    v4 (.lim false 4 0x40000) 0 0 = 0xFFFC0000 := by decide +kernel
theorem test_addresses : (after (.leaL false 2 0) [(0, 5)]).pair 4 = 0xF100000000000005 ∧ (after (.leaD false 2 0) [(0, 5)]).pair 4 = 0xF200000000000005 ∧
    (after (.leaS false 2 0) [(0, 5)]).pair 4 = 0xF300000000000005 ∧ (after (.leaDDie false 2 0 2) [(0, 5)]).pair 4 = 0xF200000600000005 := by decide +kernel
theorem test_float : v4 (.faddF32 false 4 0 1) 0x3F800000 0x33800000 = 0x3F800000 ∧ v4 (.fsubF32 false 4 0 1) 0x3F800000 0x3F800000 = 0 ∧
    v4 (.fmulF32 false 4 0 1) 0 0x7F800000 = 0x7FC00000 ∧ (after (.ffmaF32 false 4 0 1) [(0, 0x40000000), (1, 0x40400000), (4, 0x3F800000)]).reg 4 = 0x40E00000 := by decide +kernel
theorem test_flags : (after (.faddF32 false 4 0 1) [(0, 0x3F800000), (1, 0x33800000)]).flags = 0x10 ∧ (after (.fmulF32 false 4 0 1) [(1, 0x7F800000)]).flags = 1 ∧
    (after (.frcpF32 false 4 0) []).flags = 2 ∧ (after (.fmulF32 false 4 0 1) [(0, 0x7F000000), (1, 0x7F000000)]).flags = 0x14 := by decide +kernel
theorem test_float_order : v4 (.fminF32 false 4 0 1) 0x80000000 0 = 0x80000000 ∧ v4 (.fmaxF32 false 4 0 1) 0x80000000 0 = 0 ∧ v4 (.fabsF32 false 4 0) 0xBF800000 0 = 0x3F800000 ∧
    v4 (.fnegF32 false 4 0) 0x3F800000 0 = 0xBF800000 ∧ q3 (.fcmpF32 false 3 0 0 1) 0x80000000 0 = true ∧ q3 (.fcmpF32 false 3 1 0 1) 0x7FC00000 0 = true ∧
    v4 (.fclsF32 false 4 0) 0xFF800000 0 = 1 ∧ v4 (.fclsF32 false 4 0) 0x7FC00000 0 = 0x100 := by decide +kernel
theorem test_float_functions : v4 (.frcpF32 false 4 0) 0x40000000 0 = 0x3F000000 ∧ v4 (.frcpF32 false 4 0) 0x80000000 0 = 0xFF800000 ∧ v4 (.frsqF32 false 4 0) 0x40800000 0 = 0x3F000000 ∧
    v4 (.fsqrF32 false 4 0) 0x40800000 0 = 0x40000000 ∧ v4 (.fex2F32 false 4 0) 0x40400000 0 = 0x41000000 ∧ v4 (.flg2F32 false 4 0) 0x41000000 0 = 0x40400000 := by decide +kernel
theorem test_packed : v4 (.hadd2F16 false 4 0 1) 0x3C004000 0x3C003C00 = 0x40004200 ∧ v4 (.hmul2F16 false 4 0 1) 0x40003C00 0x40004000 = 0x44004000 ∧
    (after (.hfma2F16 false 4 0 1) [(0, 0x3C003C00), (1, 0x3C003C00), (4, 0x3C000000)]).reg 4 = 0x40003C00 ∧ v4 (.hmax2F16 false 4 0 1) 0x3C008000 0x40000000 = 0x40000000 ∧
    v4 (.hmin2F16 false 4 0 1) 0x3C008000 0x40000000 = 0x3C008000 ∧ (after (.bfma2Bf16 false 4 0 1) [(0, 0x3F803F80), (1, 0x3F803F80), (4, 0x3F800000)]).reg 4 = 0x40003F80 := by decide +kernel
theorem test_conversions : v4 (.fcvt false 4 0 0 1) 0x3F800000 0 = 0x3C00 ∧ v4 (.fcviI32 false 4 0 0) 0xBFC00000 0 = 0xFFFFFFFE ∧ v4 (.fcviN32 false 4 0 0) 0xBF800000 0 = 0 ∧
    v4 (.icvfI32 false 4 0 0) m1 0 = 0xBF800000 ∧ v4 (.icvfN32 false 4 0 0) m1 0 = 0x4F800000 := by decide +kernel
theorem test_quantisers : v4 (.qcv false 4 0 3) 0x3F800000 0x7F = 0x38 ∧ v4 (.qcv false 4 0 3) 0x3F800000 0xFF = 0x7F ∧ v4 (.qdq false 4 0 3 0) 0x38 0x80 = 0x40000000 ∧
    v4 (.qcvs false 4 0 7) 0x40400000 0x7F = 3 ∧ v4 (.pkh false 4 0 1) 0xAAAA1111 0xBBBB2222 = 0x22221111 := by decide +kernel
theorem test_predicates : (after (.pand false 3 7 false 6 true) []).getP 3 = true ∧ (after (.por false 3 0 false 1 false) []).getP 3 = false ∧ (after (.pxor false 3 7 false 7 false) []).getP 3 = false ∧
    (after (.pnot false 3 0 false) []).getP 3 = true ∧ (after (.pmov false 7 0 false) []).getP 7 = true ∧ (after (.vmovpToReg false 4) [] { thr 0 with pred := 5 }).reg 4 = 0x85 ∧
    (after (.vmovpToPreds false 0) [(0, 0xFF)]).pred = 0x7F ∧ v4 (.sel false 4 0 1 true 0) 5 6 = 5 ∧ v4 (.sel false 4 0 1 false 0) 5 6 = 6 := by decide +kernel
theorem test_specials : (after (.sreg false 4 0x001) []).reg 4 = 32 ∧ (after (.sreg false 4 0x011) [] { thr 0 with flags := 3 }).flags = 0 ∧ (after (.sreg false 4 0x012) []).reg 4 = 64 := by decide +kernel
theorem test_memory : (after (.ldl false 4 0 5 0 3) [(0, 0x20)]).reg 4 = 0 ∧
    ((fun o : Host.Outcome State Fault Refusal => match o with
      | .next s => s.readLoc (.l core0 1 0x2C) 2
      | _ => 0) (exec (.stl false 4 0 1 6) (sg ((thr 0).setReg 0 0x20 |>.setReg 4 0xABCD1234)))) = 0x1234 := by decide +kernel
/-- Thread 0 after a control transfer whose windows are there. -/
def gone (i : Instr) : Thread :=
  match exec i (st [thr 0] grpFill placedGrid) with
  | .next s => (s.thread core0 0 0).getD (thr 99)
  | _ => thr 99
theorem test_control : (after (.bra false 7 false 0x1FFFFF) []).pc = 0x1003C ∧ (after (.bra false 7 true 4) []).pc = 0x10044 ∧ (after (.jmpr false 0) [(0, 0x10080)]).pc = 0x10080 ∧
    (gone (.call false 8 4)).pc = 0x10050 ∧ (gone (.call false 8 4)).wb = 8 ∧ (gone (.call false 8 4)).links = 1 ∧ (after (.wshr false 8) []).c = 56 := by decide +kernel
theorem test_trap :
    ((fun o : Host.Outcome State Fault Refusal => match o with
      | .next s => s.agenda.filterMap fun i => match i with
        | .faultrec _ _ r => some (r.code, r.detail, r.pc)
        | _ => none
      | _ => []) (exec (.trap false 0xABC) (sg (thr 0)))) = [(Code.software.num, 0xABC, 0x10040)] := by decide +kernel
/-- FORM_AGE 256 and FORM_MIN 8 at their reset values (R348). -/
theorem test_csrr :
    ((fun o : Host.Outcome State Fault Refusal => match o with
      | .next s => ((s.thread core0 0 0).getD (thr 99)).reg 4
      | _ => 0) (exec (.csrr false 4 0x20)
        { onCore { at_ := core0, ctx := some (ctx [thr 0] (grp 1)) } with cur := some (core0, 0), packages := [p1] })) = 0x01000008 := by decide +kernel
theorem test_block_scale :
    ((fun o : Host.Outcome State Fault Refusal => match o with
      | .next s => ((s.thread core0 0 31).getD (thr 99)).reg 4
      | _ => 0) (exec (.qsc false 4 0 3) (sU (full (r1 0 0x3F800000))))) = 0x77 := by decide +kernel
/-- Thread 0 at iteration `r` of an `hrep` of `n` with strides 1, 2 and 4. -/
def rg (n : Nat) : Group := { grp 1 with hint := { hrep := some (n, 1, 2, 3) } }
def rth (r : Nat) : Thread := { thr 0 with rep := r, v := [(3, 7), (4, 100), (5, 200), (10, 30), (14, 40)] }
def rs (n r : Nat) : State := st [rth r] (rg n) placedGrid
def rx (n r : Nat) : Iss := iss [rth r] (rg n) placedGrid
theorem test_witness_Repeats_skip : Issues (rs 0 0) (rx 0 0) ∧ (rx 0 0).g.hint.hrep = some (0, 1, 2, 3) := ⟨⟨rfl, rfl⟩, rfl⟩
theorem rep_unit (n r : Nat) (fs : Fields) (hr : r < n) (h : fs.within 64 (some (n, 1, 2, 3)) = true) (ha : (rx n r).active = [0]) :
    IterUnit (rs n r) (rx n r) fs n r :=
  ⟨⟨rfl, rfl⟩, ⟨1, 2, 3, rfl⟩, hr, by show List.Nodup (List.range 1); decide, by
    intro i hi; rw [ha] at hi; obtain rfl := List.mem_singleton.1 hi; exact ⟨rth r, rfl, rfl, rfl, h⟩⟩
theorem test_witness_Repeats_first : ∃ row, IntRow (.addI32 false 2 3 6) row ∧ IterUnit (rs 3 0) (rx 3 0) row.fs 3 0 ∧ (rx 3 0).active ≠ [] :=
  ⟨_, .addI32 false 2 3 6, rep_unit 3 0 _ (by decide) rfl rfl, by decide⟩
theorem test_witness_Repeats_last : ∃ row, IntRow (.addI32 false 2 3 6) row ∧ IterUnit (rs 3 2) (rx 3 2) row.fs 3 2 ∧ (rx 3 2).active ≠ [] :=
  ⟨_, .addI32 false 2 3 6, rep_unit 3 2 _ (by decide) rfl rfl, by decide⟩
/-- Iteration 1 of `add.i32 v2, v3, v6` with strides 1, 2 and 4 writes v3 := v5 + v10 (R136, R141). -/
theorem test_hrep_stepped : ((fun o : Host.Outcome State Fault Refusal => match o with
      | .next s => ((s.thread core0 0 0).map fun t => (t.reg 2, t.reg 3, t.rep, t.pc)).getD (0, 0, 0, 0)
      | _ => (0, 0, 0, 0)) (exec (.addI32 false 2 3 6) (rs 3 1))) = (0, 230, 2, 0x10040) := by decide +kernel
/-- The word placed after reset is what the next step runs (R123). -/
theorem test_step_placed : (match step (State.reset.withFetchWord 32 0x80190301) with
    | .next _ => true
    | _ => false) = true := by decide +kernel

end Sys2Proof.Tests
end

/-! SUPPORT. Every step completes: the outcomes that are next states, the operations that several events share, the 129 rows without an
encoding, and what a step may pick. -/

namespace Sys2Proof.Machine

open State

/-! ### Outcomes that are next states -/

/-- An outcome that is a next state: neither a fault nor a refusal. -/
def Answers (o : Host.Outcome State Fault Refusal) : Prop := ∃ t, o = .next t

/-- A meaning that answers a next state in every state. -/
def Total (m : Meaning) : Prop := ∀ s, Answers (m s)

theorem Answers.next (t : State) : Answers (.next t) := ⟨t, rfl⟩

theorem Answers.ite {p : Prop} [Decidable p] {a b : Host.Outcome State Fault Refusal} (ha : Answers a) (hb : Answers b) :
    Answers (if p then a else b) := by
  split
  · exact ha
  · exact hb

/-! ### The operations that several rows share -/

/-- An entry at the head of a queue answers whatever its kind does: where nothing is to be done, the state is left (R272). -/
theorem onHead_total (c : CoreRef) (f : State → Ctx → SeqEntry → Lane → Option State) : Total (onHead c f) := by
  intro s
  unfold onHead
  repeat' first | with_reducible exact .next _ | split

/-- A packet answers whatever its kind does: LEVEL, FORMAT or the kind's own status (R413). -/
theorem onQueue_total (q : QRef) (p : Packet) (least : Nat) (ok : Bool) (f : State → Nat → Nat → Nat → State) :
    Total (onQueue q p least ok f) := by
  intro s
  unfold onQueue
  split
  · exact .next _
  · exact .next _

/-- A request to the responder answers whatever its kind does (R454). -/
theorem spdm_total (pkg : Nat) (algs : Bool) (f : State → State) : Total (spdm pkg algs f) := fun s => by
  unfold spdm
  exact .ite (.next _) (.ite (.next _) (.ite (.next _) (.next _)))

theorem execJobset_total (q : QRef) (p : Packet) : Total (execJobset q p) := by
  unfold execJobset
  exact onQueue_total _ _ _ _ _

theorem execCommset_total (q : QRef) (p : Packet) : Total (execCommset q p) := by
  unfold execCommset
  exact onQueue_total _ _ _ _ _

/-- A packet answers whatever its KIND: each of the seven kinds passes through `onQueue` (R412, R413). -/
theorem runPacket_total (q : QRef) (p : Packet) (v : Nat) : Total (runPacket q p v) := by
  intro s
  unfold runPacket
  refine .ite (.next _) ?_
  split
  case h_4 => exact execJobset_total _ _ s
  case h_5 => exact execCommset_total _ _ s
  case h_8 => exact .next _
  all_goals exact onQueue_total _ _ _ _ _ s

/-- The service of a queue answers: no queue, a packet that waits or cannot be read, or the packet carried out (R412, R415). -/
theorem execQueueService_total (pkg : Nat) : Total (execQueueService pkg) := by
  intro s
  simp only [execQueueService]
  split
  · exact .next _
  split
  · exact .next _
  refine .ite (.next _) ?_
  split
  · exact .next _
  · exact runPacket_total _ _ _ _

/-! ### The rows that a register's write carries out -/

theorem execNotify_total (q : QRef) (t : Nat) : Total (execNotify q t) := fun s => by
  unfold execNotify
  exact .ite (.next _) (.ite (.next _) (.ite (.next _) (.next _)))

theorem execVfmapWrite_total (pkg f v : Nat) : Total (execVfmapWrite pkg f v) := fun s => by
  unfold execVfmapWrite
  exact .ite (.next _) (.next _)

theorem execSave_total (pkg f : Nat) : Total (execSave pkg f) := fun s => by
  unfold execSave
  exact .ite (.next _) (.next _)

theorem execCmdRetire_total (pkg : Nat) : Total (execCmdRetire pkg) := fun s => by
  unfold execCmdRetire
  exact .ite (.next _) (.next _)

/-! ### The writes to registers -/

/-- A write to a function's page answers as its register does: a queue's registers, the two answer registers, VFMAP and MIGCTL (R410). -/
theorem writeFnReg_total (pkg fn off value : Nat) : Total (writeFnReg pkg fn off value) := by
  intro s
  simp only [writeFnReg, ite_apply]
  refine .ite (.next _) <| .ite ?queue <| .ite ?xresp <| .ite (.next _) <| .ite ?hresp <| .ite ?vfmap <| .ite (.next _) <|
    .ite ?migctl (.next _)
  case queue =>
    split
    case h_3 => exact execNotify_total _ _ s
    all_goals exact .next _
  case xresp | hresp => exact .ite (.next _) (.next _)
  case vfmap => exact .ite (execVfmapWrite_total _ _ _ s) (.next _)
  case migctl =>
    refine .ite (.next _) ?_
    split
    case h_1 => exact execSave_total _ _ _
    all_goals exact .next _

/-- A write to the management engine answers as its register or its command does (R457). -/
theorem writeMgmtReg_total (pkg off value : Nat) : Total (writeMgmtReg pkg off value) := by
  intro s
  unfold writeMgmtReg
  split
  case h_2 => exact .ite (.next _) (.ite (execCmdRetire_total _ s) (.ite (.next _) (.next _)))
  all_goals exact .next _

/-! ### The rows without an encoding -/

/-- A row without an encoding answers a next state in every state: it is a next state at once, passes through a shared operation, or
chooses among next states. -/
theorem exec_total_of_isEvent {i : Instr} (h : isEvent i = true) : Total (exec i) := by
  intro s
  unfold exec
  cases i with
  -- a next state at once
  | cacheFillArrival | spillFillCompletion | releasePromotion | error | engineArbitration | retire | quiesce | ping | linkResponse
  | switchSlotRequest | peerDelayExchange | syncLoss | holdoverTimeout | heartbeat | zenithClaim | horizonTableWrite | xrespResolve
  | xrespDecline | hrespResolve | hrespDecline | restore | functionLevelReset | pfFunctionLevelReset | budgetPeriodEnd | patrolScrub
  | fatalPacket | powerGood | railDrop | coldReset | warmReset | perst | apaddr | warm | taisec | ppsOutSecond | ppsOutFall | powerThrottle
  | powerLimitTrip | thermalTrip | globalSchedulerCoreFailure | syncIntervalExpiry | dynamicAddressAssignment => exact .next _
  -- an operation that several rows share
  | mbldEntry | mzroEntry | mlpKstep | mdrnChunk | mwtSgEntry =>
    dsimp only
    exact onHead_total _ _ s
  | partset | express | launch | waitsig | signal =>
    dsimp only
    exact onQueue_total _ _ _ _ _ s
  | getCapabilities | negotiateAlgorithms | getDigests | getCertificate | challenge | getMeasurements =>
    dsimp only
    exact spdm_total _ _ _ s
  | jobset => exact execJobset_total _ _ s
  | commset => exact execCommset_total _ _ s
  | queueService => exact execQueueService_total _ s
  | registerWrite r =>
    cases r with
    | fn => exact writeFnReg_total _ _ _ _ s
    | mgmt => exact writeMgmtReg_total _ _ _ s
  | notify => exact execNotify_total _ _ s
  | vfmapWrite => exact execVfmapWrite_total _ _ _ s
  | save => exact execSave_total _ _ s
  | cmdRetire => exact execCmdRetire_total _ s
  -- a choice among next states: every branch of the meaning ends in one
  | schedulerArbitration | stallExchange | formAgeExpiry | groupFormation | groupDissolution | mergeWaitExpiry | tslpExpiry | wgrowGrant
  | atomicHomePerform | atomicResultArrival | bindHomeOrder | bindAnswer | releaseCompletion | launchRequest | requestResultArrival
  | copyGateOpen | copyLineWrite | copyCompletion | vocabBlockFold
  | frameClearingDone | neighbourhoodPlacement | deal | start | go | cancel | demand | count | faultrec | xload | remap | pingTimer
  | timeBudgetExpiry | chunkTranslation | chunkAcceptance | chunkStepCompletion
  | coreHalted | prefillDone | horizonSwap | backgroundSave | backgroundRestore | expressArrival | lateArrival | preemptBudgetExpiry
  | horizonPrefill | horizonFire
  | waitsigWake | migrationDone | translationWalk | apertureReadDone | memoryRequestService | portFlitArbitration | partitionBudgetExhausted
  | ptpSync | heartbeatTimer | heartbeatLoss | ppsInEdge
  | correctableError | uncorrectableError | getVersion | unsupportedRequest | hostDieAccess =>
    simp only [execSchedulerArbitration, execStallExchange, execFormAgeExpiry, execGroupFormation, execGroupDissolution,
      execMergeWaitExpiry, execTslpExpiry, execWgrowGrant, execAtomicHomePerform, execAtomicResultArrival, execBindHomeOrder,
      execBindAnswer, execReleaseCompletion, execLaunchRequest, execRequestResultArrival, execCopyGateOpen, execCopyLineWrite,
      execCopyCompletion, execVocabBlockFold, execFrameClearingDone, execNeighbourhoodPlacement, execDeal, execStart, execGo, execCancel,
      execDemand, execCount, execFaultrec, execXload, execRemap, execPingTimer, execTimeBudgetExpiry, execChunkTranslation,
      execChunkAcceptance, execChunkStepCompletion, execCoreHalted, execPrefillDone, execHorizonSwap, execBackgroundSave,
      execBackgroundRestore, execExpressArrival, execLateArrival, execPreemptBudgetExpiry, execHorizonPrefill, execHorizonFire,
      execWaitsigWake, execMigrationDone, execTranslationWalk, execApertureReadDone, execMemoryRequestService, execPortFlitArbitration,
      execPartitionBudgetExhausted, execPtpSync, execHeartbeatTimer, execHeartbeatLoss, execPpsInEdge, execCorrectableError,
      execUncorrectableError, execGetVersion, execUnsupportedRequest, execHostDieAccess, execRegisterRead]
    repeat' first | with_reducible exact .next _ | split
  -- a choice as well, however many pages the area has: the number is left open, so that the kernel never computes it
  | outSlotDrainDone | drainWriteFault =>
    obtain ⟨pages, hp⟩ : ∃ f, areaPages = f := ⟨areaPages, rfl⟩
    simp only [execOutSlotDrainDone, execDrainWriteFault, hp]
    repeat' first | with_reducible exact .next _ | split
  -- the rows of the encoding
  | _ => exact absurd h Bool.false_ne_true

/-- Settles O6: each row without an encoding completes, by the shape of its meaning. -/
theorem eventsComplete : Obligations.EventsComplete := by
  unfold Obligations.EventsComplete
  intro i s h
  exact exec_total_of_isEvent h s

/-! ### The step -/

/-- A due step carries out a row without an encoding. -/
theorem runDue_eq_exec_event : ∀ d : Due, ∃ i, isEvent i = true ∧ runDue d = exec i
  | .ping p => ⟨.pingTimer p, rfl, rfl⟩
  | .pong l => ⟨.ping l, rfl, rfl⟩
  | .remap l k => ⟨.remap l k, rfl, rfl⟩
  | .holdover p => ⟨.holdoverTimeout p, rfl, rfl⟩
  | .heartbeat p => ⟨.heartbeatTimer p, rfl, rfl⟩
  | .heartbeatLoss p => ⟨.heartbeatLoss p, rfl, rfl⟩
  | .sync p => ⟨.syncIntervalExpiry p, rfl, rfl⟩
  | .prefill p i => ⟨.horizonPrefill p i, rfl, rfl⟩
  | .fire p i => ⟨.horizonFire p i, rfl, rfl⟩
  | .period p => ⟨.budgetPeriodEnd p, rfl, rfl⟩
  | .budget p r => ⟨.partitionBudgetExhausted p r, rfl, rfl⟩
  | .ppsRise p => ⟨.ppsOutSecond p, rfl, rfl⟩
  | .ppsFall p => ⟨.ppsOutFall p, rfl, rfl⟩
  | .channel p c => ⟨.memoryRequestService p c, rfl, rfl⟩
  | .port p i => ⟨.portFlitArbitration p i, rfl, rfl⟩
  | .preempt c => ⟨.preemptBudgetExpiry c, rfl, rfl⟩
  | .yielded c => ⟨.horizonSwap c, rfl, rfl⟩
  | .timeBudget h => ⟨.timeBudgetExpiry h, rfl, rfl⟩

theorem posted_not_mem_issuers (x : Core) (n : Nat) (i : Instr) : Cand.posted n i ∉ issuers x := by
  unfold issuers
  split
  · simp
  · split
    · simp
    · intro hm
      obtain ⟨g, -, hg⟩ := List.mem_filterMap.1 hm
      split at hg
      · split at hg <;> cases hg
      · cases hg

/-- A posted step that may come next is a row without an encoding. -/
theorem isEvent_of_posted_mem {s : State} {n : Nat} {i : Instr} (h : .posted n i ∈ candidates s) : isEvent i = true := by
  simp only [candidates, List.mem_append, List.mem_map, List.mem_flatMap] at h
  obtain (⟨⟨m, j⟩, hm, he⟩ | ⟨d, -, he⟩) | ⟨x, -, hx⟩ := h
  · cases he
    exact happen_spec s _ _ _ _ _ (List.mem_of_mem_filter hm)
  · cases he
  · exact absurd hx (posted_not_mem_issuers x n i)

/-- Whatever may come next completes: a posted or due step is a row without an encoding, and a group that issues a word is issuing, so that
the word's meaning has its group. -/
theorem run_answers {s : State} {c : Cand} (h : c ∈ candidates s) : Answers (run s c) := by
  cases c with
  | posted n i => exact exec_total_of_isEvent (isEvent_of_posted_mem h) _
  | due d =>
    obtain ⟨i, hi, hd⟩ := runDue_eq_exec_event d
    show Answers (runDue d s)
    rw [hd]
    exact exec_total_of_isEvent hi s
  | issue c slot =>
    simp only [run]
    split
    · exact .next _
    next hissue =>
      obtain ⟨hlive, hi⟩ := live_issue hissue
      exact words_complete hi hlive

/-- Settles O7: nothing may come next, or what is picked completes and time passes. -/
theorem stepCompletes : Obligations.StepCompletes := by
  unfold Obligations.StepCompletes Completes
  intro s
  unfold step
  cases hp : pick s with
  | none => exact ⟨tick s, rfl⟩
  | some c =>
    obtain ⟨t, ht⟩ := run_answers (pick_spec hp)
    exact ⟨tick t, by simp only [ht]⟩

end Sys2Proof.Machine

/-! SUPPORT. Threads, groups and windows: registers and predicates, arbitration, the traps of registers out of range, pauses, transfers and ends
of threads, windows that move or change their size, the steps of the schedulers and the group former, and what a step runs. -/

namespace Sys2Proof.Machine

open State

/-! ### Registers and predicates (R20, R44) -/

/-- A number about one of its bits: what lies above it, the bit, and what lies below. -/
theorem eq_around_bit (p i : Nat) : p = 2 ^ i * (2 * (p / 2 ^ i / 2) + (bit p i).toNat) + p % 2 ^ i := by
  have h : (bit p i).toNat = p / 2 ^ i % 2 := by
    unfold bit
    rcases Nat.mod_two_eq_zero_or_one (p / 2 ^ i) with h | h <;> simp [h]
  rw [h, Nat.div_add_mod, Nat.div_add_mod]

theorem bit_eq_testBit (p i : Nat) : bit p i = p.testBit i := by
  unfold bit; rw [Nat.testBit_eq_decide_div_mod_eq]

/-- The bits of a number put together about bit `i`. -/
theorem bit_around {q r i : Nat} (h : r < 2 ^ i) (b : Bool) (j : Nat) :
    bit (2 ^ i * (2 * q + b.toNat) + r) j = if j < i then bit r j else if j = i then b else bit q (j - i - 1) := by
  simp only [bit_eq_testBit]
  rw [Nat.testBit_two_pow_mul_add _ h]
  split_ifs with h1 h2
  · rfl
  · subst h2; cases b <;> simp
  · obtain ⟨k, rfl⟩ : ∃ k, j = i + k + 1 := ⟨j - i - 1, by omega⟩
    have hq : (2 * q + b.toNat) / 2 = q := by have := b.toNat_lt; omega
    rw [show i + k + 1 - i = k + 1 by omega, Nat.add_sub_cancel, Nat.testBit_add_one, hq]

/-- A bit taken out of a number and another put in its place, as a write of a predicate does it. -/
theorem bit_replace (p i j : Nat) (b : Bool) :
    bit (p - (if bit p i then 2 ^ i else 0) + if b then 2 ^ i else 0) j = if j = i then b else bit p j := by
  have hp := eq_around_bit p i
  have hr := Nat.mod_lt p (Nat.two_pow_pos i)
  have hite : ∀ d : Bool, (if d then 2 ^ i else 0) = 2 ^ i * d.toNat := fun d => by cases d <;> simp
  have e : p - (if bit p i then 2 ^ i else 0) + (if b then 2 ^ i else 0) = 2 ^ i * (2 * (p / 2 ^ i / 2) + b.toNat) + p % 2 ^ i := by
    rw [hite, hite]
    rw [Nat.mul_add] at hp ⊢
    omega
  rw [e, bit_around hr]
  conv_rhs => rw [hp, bit_around hr]
  rcases lt_trichotomy j i with h | rfl | h
  · simp [h, h.ne]
  · simp
  · simp [h.not_gt, h.ne']

theorem getP_setP (t : Thread) {i j : Nat} (b : Bool) (hi : i < 7) (hj : j < 7) : (t.setP i b).getP j = if j = i then b else t.getP j := by
  have h7 : ∀ {n}, n < 7 → (n == 7) = false := fun h => by simpa using Nat.ne_of_lt h
  unfold Thread.setP Thread.getP
  simp only [h7 hi, h7 hj, Bool.false_eq_true, if_false, Bool.false_or, bit_replace]

theorem reg_setReg (t : Thread) (r q v : Nat) (h : SparseWf 0 t.v) : (t.setReg r v).reg q = if q = r then v % 2 ^ 32 else t.reg q := by
  unfold Thread.setReg Thread.reg
  split_ifs with e
  · rw [e]; exact wget_wset_same h r v
  · exact wget_wset_ne h (Ne.symm e) v

/-- Settles O11: a sparse map reads what was last written to it, and a predicate is one bit of the thread's eight. -/
theorem threadRegisters : Obligations.ThreadRegisters := by
  unfold Obligations.ThreadRegisters
  exact ⟨fun t r q v h => reg_setReg t r q v h, fun _ => rfl, fun _ _ => rfl, fun t i j b hi hj => getP_setP t b hi hj⟩

/-! ### Arbitration (R39) -/

/-- What an order by a number puts first has the least number. -/
theorem firstBy_least {α : Type} (key : α → Nat) {l : List α} {a : α} (h : firstBy (fun x y => decide (key x < key y)) l = some a) :
    ∀ y ∈ l, key a ≤ key y := by
  cases l with
  | nil => cases h
  | cons z l =>
    simp only [firstBy, Option.some.injEq] at h
    subst h
    induction l generalizing z with
    | nil => simp
    | cons w l ih =>
      rw [List.foldl_cons]
      split_ifs with hw
      · have hmin := List.forall_mem_cons.1 (ih w)
        exact List.forall_mem_cons.2 ⟨hmin.1.trans (of_decide_eq_true hw).le, List.forall_mem_cons.2 hmin⟩
      · have hmin := List.forall_mem_cons.1 (ih z)
        have hzw : key z ≤ key w := by simpa using hw
        exact List.forall_mem_cons.2 ⟨hmin.1, List.forall_mem_cons.2 ⟨hmin.1.trans hzw, hmin.2⟩⟩

theorem firstBy_eq_none {α : Type} {lt : α → α → Bool} {l : List α} : firstBy lt l = none ↔ l = [] := by
  cases l <;> simp [firstBy]

theorem oldestOf_spec {l : List Group} {g : Group} (h : Ctx.oldestOf l = some g) : g ∈ l ∧ ∀ y ∈ l, g.age ≤ y.age :=
  ⟨firstBy_mem h, firstBy_least Group.age h⟩

theorem nextReady_nextInAge {k : Ctx} {sc : Nat} {g : Group} (h : nextReady k sc = some g) : NextInAge k sc g := by
  unfold nextReady at h
  unfold NextInAge
  simp only [] at h ⊢
  split at h
  next y hy =>
    cases h
    obtain ⟨hm, hle⟩ := oldestOf_spec hy
    obtain ⟨hm, hlast⟩ := List.mem_filter.1 hm
    exact ⟨hm, .inl ⟨by simpa using hlast, fun h hh hl => hle h (List.mem_filter.2 ⟨hh, by simpa using hl⟩)⟩⟩
  next hn =>
    obtain ⟨hm, hle⟩ := oldestOf_spec h
    have hnone := List.filter_eq_nil_iff.1 (firstBy_eq_none.1 hn)
    exact ⟨hm, .inr ⟨fun h hh => by simpa using hnone h hh, hle⟩⟩

theorem no_ready_of_nextReady_none {k : Ctx} {sc : Nat} (h : nextReady k sc = none) : ∀ g ∈ k.onSched sc, g.st ≠ .ready := by
  unfold nextReady at h
  simp only [] at h
  split at h
  · cases h
  · intro g hg he
    exact List.filter_eq_nil_iff.1 (firstBy_eq_none.1 h) g hg (by simp [he])

/-- Settles O12: the oldest of the younger READY groups, or else the oldest of them all. -/
theorem arbitrationOrder : Obligations.ArbitrationOrder := by
  unfold Obligations.ArbitrationOrder
  exact ⟨fun _ _ _ => nextReady_nextInAge, fun _ _ => no_ready_of_nextReady_none⟩

/-! ### REGISTER_RANGE (R45, R69, R327) -/

/-- A lane whose instruction names a register at or above its allotment only notes that trap. -/
theorem laneStep_range {x : Iss} {fs : Fields} {f : LaneFn} {acc : LaneAcc} {i : Nat} {l : LaneIn} (h1 : acc.s.laneIn x fs i = some l)
    (h2 : l.ln.t.pend ≠ .done) (h3 : fs.within l.ln.t.c x.g.hint.hrep = false) :
    laneStep x fs f acc i = { acc with traps := acc.traps ++ [rangeTrap x i] } := by
  unfold laneStep
  simp only [h1, beq_eq_false_iff_ne.mpr h2, h3, Bool.false_eq_true, if_false, Bool.not_false, if_true]
  rfl

/-- Lanes that are all out of range note their traps in order and do nothing else. -/
theorem foldl_laneStep_range {x : Iss} {fs : Fields} {f : LaneFn} {s : State} {is : List Nat}
    (h : ∀ i ∈ is, ∃ l, s.laneIn x fs i = some l ∧ l.ln.t.pend ≠ .done ∧ fs.within l.ln.t.c x.g.hint.hrep = false) (qs : List TrapReq) :
    is.foldl (laneStep x fs f) { s := s, traps := qs } = { s := s, traps := qs ++ is.map (rangeTrap x) } := by
  induction is generalizing qs with
  | nil => simp
  | cons i is ih =>
    obtain ⟨l, h1, h2, h3⟩ := h i (by simp)
    rw [List.foldl_cons, laneStep_range h1 h2 h3, ih (fun j hj => h j (by simp [hj]))]
    simp

/-- Traps none of which meets a wait are taken, and what follows follows. -/
theorem trapsOr_taken {s0 s : State} {x : Iss} {qs : List TrapReq} (h : ∀ q ∈ qs, s.trapWait x q = none) (after : State → State) :
    s0.trapsOr s x qs after = after (s.takeTraps x qs) := by
  unfold trapsOr
  rw [List.findSome?_eq_none_iff.mpr h]

/-- A unit without `hrep` all of whose active lanes are out of range: each takes its trap, and the unit ends. -/
theorem execLanes_range {s : State} {x : Iss} {fs : Fields} {f : LaneFn} (e : Bool) (hs : Issues s x) (hr : x.g.hint.hrep = none)
    (h : ∀ i ∈ x.active, ∃ th, x.w.thread i = some th ∧ th.pend ≠ .done ∧ fs.within th.c none = false)
    (hw : ∀ i ∈ x.active, s.trapWait x (rangeTrap x i) = none) : execLanes e fs f s = .next (allTrapped s x (rangeTrap x) e) := by
  have hl : ∀ i ∈ x.active, ∃ l, s.laneIn x fs i = some l ∧ l.ln.t.pend ≠ .done ∧ fs.within l.ln.t.c x.g.hint.hrep = false := fun i hi => by
    obtain ⟨th, ht, hp, hc⟩ := h i hi
    obtain ⟨l, el, et⟩ := issues_laneIn hs fs ht
    exact ⟨l, el, by rw [et]; exact hp, by rw [et, hr]; exact hc⟩
  unfold execLanes
  rw [onIssue_eq hs]
  unfold perLane
  rw [hr]
  simp only [foldl_laneStep_range hl [], List.nil_append, Bool.false_eq_true, if_false]
  have hm : (x.active.map (rangeTrap x)).map (fun q => q.tid) = x.active := by
    rw [List.map_map]; exact List.map_id _
  rw [trapsOr_taken (fun q hq => by obtain ⟨i, hi, rfl⟩ := List.mem_map.1 hq; exact hw i hi), hm]
  rfl

/-- The integer, immediate and floating-point instructions act lane by lane on the registers of their rows. -/
theorem exec_lanes_of_row {i : Instr} {row : LaneRow} (h : IntRow i row ∨ ImmRow i row ∨ FloatRow i row) :
    ∃ e f, ∀ s, exec i s = execLanes e row.fs f s := by
  rcases h with h | h | h <;> cases h <;> exact ⟨_, _, fun _ => rfl⟩

/-- Settles O19: every active lane only notes its trap, so that the unit's traps are taken from the state in which it issued. -/
theorem rangeTraps : Obligations.RangeTraps := by
  unfold Obligations.RangeTraps
  intro i row s x hrow hs hr h hw
  obtain ⟨e, f, hf⟩ := exec_lanes_of_row hrow
  exact ⟨e, by rw [hf]; exact execLanes_range e hs hr h hw⟩

/-! ### Pauses (R34, R193, R195, R196) -/

theorem exec_nop {s : State} {x : Iss} (h : Issues s x) (e : Bool) : exec (.nop e) s = .next ((s.advance x []).endUnit x e false .none) :=
  onIssue_eq h _

theorem exec_yield {s : State} {x : Iss} (h : Issues s x) (e : Bool) : exec (.yield e) s = .next ((s.advance x []).endUnit x e true .none) :=
  onIssue_eq h _

/-- A `yield.pd` outside a pending swap's PREEMPT handler is a `yield` (R196, R337). -/
theorem exec_yieldPd {s : State} {x : Iss} (h : Issues s x) (e : Bool)
    (hp : (∀ i ∈ x.g.members, ∀ th, x.w.thread i = some th → th.inPre = false) ∨ ∀ a b c d, (s.core x.c).swap ≠ .express a b c d) :
    exec (.yieldPd e) s = .next ((s.advance x []).endUnit x e true .none) := by
  show execYieldPd e s = _
  unfold execYieldPd
  rw [onIssue_eq h]
  congr 1
  apply if_pos
  rw [Bool.or_eq_true, List.isEmpty_iff, List.filter_eq_nil_iff]
  rcases hp with hp | hp
  · left
    intro i hi
    cases ht : x.w.thread i with
    | none => simp
    | some th => simp [hp i hi th ht]
  · right
    unfold expressPending
    split
    next heq => exact absurd heq (hp _ _ _ _)
    next => rfl

/-- A `merge` for which nobody can still come passes at once (R34, R195). -/
theorem exec_merge {s : State} {x : Iss} (h : Issues s x) (e : Bool)
    (hf : 32 ≤ x.g.members.length ∨ ∀ th ∈ x.w.threads, th.status = .grouped ∨ th.status = .seedbed → th.tid ∈ x.g.members) :
    exec (.merge e) s = .next ((s.advance x []).endUnit x true true .none) := by
  have hfull : mergeFull x.k x.g = true := by
    obtain ⟨-, -, -, hwg, -⟩ := issuing_spec h.1
    unfold mergeFull
    simp only [hwg, Bool.or_eq_true, decide_eq_true_eq, List.all_eq_true]
    refine hf.imp_right fun ha th hth => ?_
    by_cases hs : th.status = .grouped ∨ th.status = .seedbed
    · simp [ha th hth hs]
    · rw [not_or] at hs
      simp [hs.1, hs.2]
  show execMerge e s = _
  unfold execMerge
  rw [onIssue_eq h]
  simp only [hfull, if_true]

/-- Settles O27: each of them is the end of a unit without effect. -/
theorem pausesPass : Obligations.PausesPass := by
  unfold Obligations.PausesPass
  intro i s x hs hp
  cases hp with
  | nop e =>
    obtain ⟨hd, hr⟩ := pass_done hs e false
    exact ⟨_, exec_nop hs e, hd, fun he => hr (by simpa [endsRun] using he)⟩
  | yield e =>
    obtain ⟨hd, hr⟩ := pass_done hs e true
    exact ⟨_, exec_yield hs e, hd, fun _ => hr (by simp)⟩
  | yieldPd e hpre =>
    obtain ⟨hd, hr⟩ := pass_done hs e true
    exact ⟨_, exec_yieldPd hs e hpre, hd, fun _ => hr (by simp)⟩
  | merge e hfull =>
    obtain ⟨hd, hr⟩ := pass_done hs true true
    exact ⟨_, exec_merge hs e hfull, hd, fun _ => hr rfl⟩

/-! ### Transfers (R26-R29, R47, R48, R187-R192) -/

/-- The lanes that a branch takes, by whatever test picks them out. -/
theorem filter_taken {x : Iss} {p : BitVec 3} {n : Bool} {f : Nat → Bool} (hf : ∀ t, f t = (x.w.thread t).any fun th => predIn th p n) :
    x.active.filter f = x.active.filter fun i => (x.w.thread i).any fun th => predIn th p n := by
  rw [funext hf]

theorem exec_bra {e p n o} {s u : State} {x : Iss} {tk : List Nat} (h : Xfer x (.bra e p n o) s u) (ht : takenOf x (.bra e p n o) = some tk) :
    exec (.bra e p n o) s = .next ((moved x u).endUnit x e false (.taken tk)) := by
  show execBra e p n o s = _
  unfold execBra
  rw [onIssue_eq h.act.issues]
  simp only []
  rw [filter_taken (p := p) (n := n)]
  · cases ht
    exact congrArg Host.Outcome.next (transfer_eq e _ h.act fun s l u v hl => by cases hl; rfl)
  · intro t; cases x.w.thread t <;> rfl

/-- A `brau` whose lanes agree is a `bra` (R29). -/
theorem exec_brau {e p n o} {s u : State} {x : Iss} {tk : List Nat} (h : Xfer x (.brau e p n o) s u) (ht : takenOf x (.brau e p n o) = some tk) :
    exec (.brau e p n o) s = .next ((moved x u).endUnit x e false (.taken tk)) := by
  have hag := h.uniform e p n o rfl tk ht
  show execBrau e p n o s = _
  unfold execBrau
  rw [onIssue_eq h.act.issues]
  simp only []
  rw [filter_taken (p := p) (n := n)]
  · cases ht
    rw [if_pos (by rcases hag with hag | hag <;> simp [hag])]
    exact congrArg Host.Outcome.next (transfer_eq e _ h.act fun s l u v hl => by cases hl; rfl)
  · intro t; cases x.w.thread t <;> rfl

theorem exec_call {e n o} {s u : State} {x : Iss} (h : Xfer x (.call e n o) s u) :
    exec (.call e n o) s = .next ((moved x u).endUnit x e false (.taken x.active)) := by
  have hm : x.g.fillOk = true ∨ (if n.toNat == 0 then [] else x.active) = [] := h.filled.imp_right fun hm => by
    by_cases hn : n.toNat = 0
    · simp [hn]
    · simpa [mayMove, hn] using hm
  show execCall e n o s = _
  unfold execCall
  rw [onIssue_eq h.act.issues]
  simp only [spillWait_eq _ hm]
  exact congrArg Host.Outcome.next (transfer_eq e _ h.act fun s l u v hl => by cases hl with | call h1 h2 h3 h4 => exact call_lane h1 h2 h3 h4)

theorem exec_callr {e a b} {s u : State} {x : Iss} (h : Xfer x (.callr e a b) s u) :
    exec (.callr e a b) s = .next ((moved x u).endUnit x e false .byPc) := by
  show execCallr e a b s = _
  unfold execCallr
  rw [onIssue_eq h.act.issues]
  simp only []
  rw [spillWait_eq]
  · refine congrArg Host.Outcome.next (transfer_eq e _ h.act fun s l u v hl => ?_)
    cases hl with
    | callr h1 h2 h3 h4 h5 => simp only [h1]; exact call_lane h2 h3 h4 h5
  · refine h.filled.imp_right fun hm => ?_
    rw [← mayMove_nil hm]
    congr 1; funext t; cases x.w.thread t <;> rfl

theorem exec_jmpr {e a} {s u : State} {x : Iss} (h : Xfer x (.jmpr e a) s u) :
    exec (.jmpr e a) s = .next ((moved x u).endUnit x e false .byPc) := by
  show execJmpr e a s = _
  unfold execJmpr execTransfer
  rw [onIssue_eq h.act.issues]
  refine congrArg Host.Outcome.next (transfer_eq e _ h.act fun s l u v hl => ?_)
  cases hl with
  | jmpr h1 => simp only [h1]; rfl

theorem exec_ret {e} {s u : State} {x : Iss} (h : Xfer x (.ret e) s u) :
    exec (.ret e) s = .next ((moved x u).endUnit x e false .byPc) := by
  show execRet e s = _
  unfold execRet
  rw [onIssue_eq h.act.issues, spillWait_eq _ (h.filled.imp_right fun hm => by simpa [mayMove] using hm)]
  refine congrArg Host.Outcome.next (transfer_eq e _ h.act fun s l u v hl => ?_)
  cases hl with
  | ret h1 h2 h3 => simp only [beq_eq_false_iff_ne.mpr h1, Bool.false_eq_true, if_false, h2, h3]

/-- Settles O30: a branch or call parts its group by the lanes taken, the others part it by destination. -/
theorem transfers : Obligations.Transfers := by
  unfold Obligations.Transfers
  intro i s u x out hi h ho
  cases i with
  | bra e p n o => exact ⟨_, exec_bra h rfl, taken_done e h.some_ rfl ho⟩
  | brau e p n o => exact ⟨_, exec_brau h rfl, taken_done e h.some_ rfl ho⟩
  | call e n o => exact ⟨_, exec_call h, taken_done e h.some_ rfl ho⟩
  | callr e a b => exact ⟨_, exec_callr h, byPc_done e rfl ho⟩
  | jmpr e a => exact ⟨_, exec_jmpr h, byPc_done e rfl ho⟩
  | ret e => exact ⟨_, exec_ret h, byPc_done e rfl ho⟩
  | _ => cases hi

/-! ### Ends of threads (R22, R194) -/

/-- A workgroup with a thread that has not ended goes on. -/
theorem checkEnd_of_thread {s : State} {c : CoreRef} {k : Ctx} {wslot i : Nat} {th : Thread} (hk : (s.core c).ctx = some k)
    (ht : s.thread c wslot i = some th) (hl : th.status = .grouped ∨ th.status = .seedbed ∨ th.status = .waitXlate) :
    s.checkEnd c k.gen wslot = s := by
  rw [thread_bind, State.wg, hk, Option.bind_some, Option.bind_eq_some_iff] at ht
  obtain ⟨w, hw, ht⟩ := ht
  exact checkEnd_live hk rfl hw (mem_thread ht) hl

/-- A thread that has not left its group keeps its status. -/
theorem Parted.status_of_not_out {x : Iss} {out : List Nat} {st : ThreadStatus} {u t : State} (h : Parted x out st (afterXfer x) u t) {i : Nat} {th : Thread}
    (hi : i ∉ out) (ht : u.thread x.c x.g.wslot i = some th) : ∃ th', t.thread x.c x.g.wslot i = some th' ∧ th'.status = th.status := by
  by_cases hm : i ∈ x.g.members
  · obtain ⟨o, ho, -⟩ := h.members i hm th ht
    rw [if_neg hi] at ho
    exact ⟨_, ho, rfl⟩
  · exact ⟨th, by rw [h.threads i hm, ht], rfl⟩

/-- The state after an `exit` whose active threads have dropped their registrations, its workgroup not yet looked at. -/
def afterExit (x : Iss) (e : Bool) (u : State) : State :=
  (if x.active.isEmpty then moved' x u else (moved' x u).leave x.c x.g.slot x.active .exited).endUnit x e false .none

theorem exec_exit {s u : State} {x : Iss} (h : Exits x s u) (e : Bool) :
    exec (.exit e) s = .next ((afterExit x e u).checkEnd x.c x.k.gen x.g.wslot) := by
  show execExit e s = _
  unfold execExit
  rw [onIssue_eq h.issues]
  simp only [← h.dropped]
  rfl

theorem afterExit_parted {x : Iss} {u : State} (e : Bool) (hne : x.g.members ≠ []) (hu : Stands x u) (hm : NoMerge u x.c) :
    Parted x x.active .exited (afterXfer x) u (afterExit x e u) := by
  obtain ⟨hf, hwgs, hwg, hth, hg, hnm⟩ := moved'_spec x u hu hm
  refine parted_of e false hu hnm (fun _ _ => rfl) hf hwgs hwg hth hg (active_sub x) ?_
  by_cases ha : x.active = []
  · exact .inr ⟨by simp [ha], ha, hne⟩
  · exact .inl (by simp [ha])

/-- Settles O31: the active threads leave as EXITED, and the thread that remains keeps the workgroup from ending. -/
theorem threadsExit : Obligations.ThreadsExit := by
  unfold Obligations.ThreadsExit
  intro e s u x h
  refine ⟨_, exec_exit h e, fun hu hm => ?_⟩
  have hp := afterExit_parted e h.some_ hu hm
  obtain ⟨i, th, hi, ht, hl⟩ := h.other
  obtain ⟨th', ht', hst⟩ := hp.status_of_not_out hi ht
  obtain ⟨k, hk, hgen⟩ := h.here
  obtain ⟨k', hk', hs⟩ := hp.frame.ctx k hk
  have hgen' : k'.gen = x.k.gen := by rw [hs, ← hgen]
  rw [← hgen', checkEnd_of_thread hk' ht' (by rw [hst]; exact hl)]
  exact hp

/-! ### Windows (R46, R49, R50, R199) -/

/-- A `wgrow` that the core grants does not wait. -/
theorem not_wait_of_growGranted {x : Iss} {e : Bool} {m : BitVec 6} (h : growGranted x (.wgrow e m)) :
    (growBytes x m.toNat != 0 && !canGrow x m.toNat) = false := by
  rcases h with h | h | ⟨hw, hb⟩
  · simp [h]
  · simp [canGrow, h]
  · have hn : (x.k.groups.any fun g => g.slot != x.g.slot && (growSeq g).isSome) = false := by
      rw [List.any_eq_false]
      intro g hg hc
      rw [Bool.and_eq_true, bne_iff_ne] at hc
      obtain ⟨hs, hq⟩ := hc
      unfold growSeq at hq
      split at hq
      next m' n heq => exact hw g hg hs m' n heq
      next => cases hq
    simp [canGrow, hn, hb]

theorem exec_wgrow {x : Iss} {e : Bool} {m : BitVec 6} {s u : State} (hg : growGranted x (.wgrow e m)) (h : ActUnit x {} (SizeLane x (.wgrow e m)) s u) :
    exec (.wgrow e m) s = .next ((u.advance x []).endUnit x e false .none) := by
  show execWgrow e m s = _
  unfold execWgrow
  rw [onIssue_eq h.issues]
  simp only [not_wait_of_growGranted hg, Bool.false_eq_true, if_false]
  refine congrArg Host.Outcome.next (h.perLane e fun s l u v hl => ?_)
  cases hl with
  | grow h8 h0 hc hs =>
    have hbad : growBad x m.toNat l.ln.t = false := by simp [growBad, h8, hc]
    have hm : (m.toNat == 0) = false := by simpa [← BitVec.toNat_inj] using h0
    simp only [hbad, hm, hs, Bool.false_eq_true, if_false]
  | growNone hc =>
    have hbad : growBad x 0 l.ln.t = false := by simp [growBad, hc]
    simp [hbad]

/-- The steps that a `wshr` posts for those who wait for registers (R199, R429). -/
def shrinkPosts (x : Iss) (s : State) : State :=
  (if x.k.groups.any fun g => (growSeq g).isSome then s.postOnce (.wgrowGrant x.c) else s).postOnce (.neighbourhoodPlacement x.c.pkg x.c.die)

theorem shrinkPosts_posts (x : Iss) (s : State) : Posts s (shrinkPosts x s) := by
  unfold shrinkPosts
  split_ifs
  · exact (Posts.postOnce _ _).trans (Posts.postOnce _ _)
  · exact Posts.postOnce _ _

theorem exec_wshr {x : Iss} {e : Bool} {m : BitVec 6} {s u : State} (h : ActUnit x {} (SizeLane x (.wshr e m)) s u) :
    exec (.wshr e m) s = .next (shrinkPosts x ((u.advance x []).endUnit x e false .none)) := by
  show execWshr e m s = _
  unfold execWshr
  rw [onIssue_eq h.issues]
  refine congrArg (fun t => Host.Outcome.next (shrinkPosts x t)) (h.perLane e fun s l u v hl => ?_)
  cases hl with
  | shrink h8 hc => exact if_neg (by simp [h8, hc])

/-- Settles O32: a granted `wgrow` and a `wshr` act lane by lane; what a `wshr` posts beside that leaves the unit done. -/
theorem windowSizes : Obligations.WindowSizes := by
  unfold Obligations.WindowSizes
  rintro i s u x hg h ⟨e, m, rfl | rfl⟩
  · exact ⟨_, exec_wgrow hg h, unitDone_endUnit e false⟩
  · exact ⟨_, exec_wshr h, fun hu => (unitDone_endUnit e false hu).posts (shrinkPosts_posts x _)⟩

/-- Settles O36, by what a moved window leaves of its thread. -/
theorem windowMoves : Obligations.WindowMoves := by
  unfold Obligations.WindowMoves
  intro s u ln wb c t h
  obtain ⟨ht, -, hr⟩ := moveWindow_thread h
  exact ⟨ht, hr⟩

/-! ### Schedulers and the former (R30-R41, R198, R199) -/

theorem slotsFull_eq_false {k : Ctx} (h : freeSlot k ≠ none) : slotsFull k = false := by
  unfold slotsFull; rw [Option.isNone_eq_false_iff, Option.isSome_iff_ne_none]; exact h

theorem slotsFull_eq_true {k : Ctx} (h : freeSlot k = none) : slotsFull k = true := by
  unfold slotsFull; rw [h]; rfl

section
variable {s : State} {c : CoreRef} {k : Ctx}

theorem Runs.not_stopped (h : Runs s c k) : (k.st != .running) = false := by simp [h.2]

theorem Runs.mayForm_eq (h : Runs s c k) : mayForm s c = (k.formedAt != some s.clk) := by
  unfold mayForm; simp only [h.1]

/-- The context of a running core beside the group in a slot. -/
theorem ctx_bind_group {slot : Nat} {g : Group} (hk : (s.core c).ctx = some k) (hg : k.group slot = some g) :
    ((s.core c).ctx.bind fun k => (k.group slot).map fun g => (k, g)) = some (k, g) := by
  rw [hk, Option.bind_some, hg]; rfl

/-- A free slot of a scheduler goes to the group that comes next (R39). -/
theorem exec_schedulerArbitration {sc : Nat} {g : Group} (h : Runs s c k) (hn : k.runningOn sc = none) (hr : (rotate sc k).runningOn sc = none)
    (hg : nextReady (rotate sc k) sc = some g) :
    exec (.schedulerArbitration c sc) s =
      .next (((s.modCtx c (rotate sc)).modGroup c g.slot fun x => { x with st := .running, run := 0, stall := .none }).reschedOne c sc) := by
  show execSchedulerArbitration c sc s = _
  unfold execSchedulerArbitration
  simp only [h.1, h.not_stopped, hn, hr, hg, core_modCtx_ctx, Option.map_some, Option.isSome_none, Bool.or_self, Bool.false_eq_true, if_false]

/-- A stall that lasts gives the group's place to the oldest P-READY group (R40). -/
theorem exec_stallExchange {sc : Nat} {p g : Group} (h : Runs s c k) (hp : k.oldestReady sc = some p)
    (hg : Ctx.oldestOf ((k.onSched sc).filter fun g => g.st == .stalled && g.stall != .none) = some g) :
    exec (.stallExchange c sc) s =
      .next ((s.modCtx c fun k => (k.modGroup g.slot fun x => { x with st := .pStalled }).activate p).reschedOne c sc) := by
  show execStallExchange c sc s = _
  unfold execStallExchange
  simp only [h.1, hp, hg, h.not_stopped, Bool.false_eq_true, if_false]

/-- The former builds a group of the oldest eligible key (R31, R32). -/
theorem exec_groupFormation {x : Nat × Thread} (h : Runs s c k) (hf : k.formedAt ≠ some s.clk) (hx : firstBy seedBefore (s.eligible k) = some x)
    (hs : freeSlot k ≠ none) : exec (.groupFormation c) s = .next (formed s c k x) := by
  show execGroupFormation c s = _
  unfold execGroupFormation
  simp only [h.1, h.not_stopped, h.mayForm_eq, bne_iff_ne.mpr hf, hx, slotsFull_eq_false hs, Bool.not_true, Bool.false_eq_true, if_false]
  rfl

/-- A former that has built a group on this clk builds the next one later (R31). -/
theorem exec_groupFormation_again (h : Runs s c k) (hf : k.formedAt = some s.clk) :
    exec (.groupFormation c) s = .next (s.postOnce (.groupFormation c)) := by
  show execGroupFormation c s = _
  unfold execGroupFormation
  have hm : mayForm s c = false := by rw [h.mayForm_eq, hf, bne_self_eq_false]
  simp only [h.1, h.not_stopped, hm, Bool.not_false, if_true, Bool.false_eq_true, if_false]

/-- A seedbed thread reaches FORM_AGE (R31, R33). -/
theorem exec_formAgeExpiry {wslot tid : Nat} {t : Thread} (h : Runs s c k) (ht : s.thread c wslot tid = some t) (hs : t.status = .seedbed)
    (ha : s.agedOut k t = true) :
    exec (.formAgeExpiry c wslot tid) s =
      .next (if slotsFull k then ((s.modThread c wslot tid fun t => { t with aged := true }).seeded c).postOnce (.groupDissolution c)
        else (s.modThread c wslot tid fun t => { t with aged := true }).seeded c) := by
  show execFormAgeExpiry c wslot tid s = _
  unfold execFormAgeExpiry
  simp only [h.1, ht, hs, ha, h.not_stopped, bne_self_eq_false, Bool.or_self, Bool.not_true, Bool.false_eq_true, if_false]

section
variable {x : Nat × Thread} (h : Runs s c k) (hf : k.formedAt ≠ some s.clk)
  (hx : firstBy seedBefore ((s.eligible k).filter fun x => s.agedOut k x.2) = some x)
include h hf hx

/-- With a slot free the aged thread's key has its group at once (R33). -/
theorem exec_groupDissolution_free (hs : freeSlot k ≠ none) : exec (.groupDissolution c) s = .next (formed s c k x) := by
  show execGroupDissolution c s = _
  unfold execGroupDissolution
  simp only [h.1, hx, h.not_stopped, h.mayForm_eq, bne_iff_ne.mpr hf, slotsFull_eq_false hs, Bool.not_true, Bool.not_false, Bool.false_eq_true,
    if_false, if_true]
  rfl

/-- With every slot full and no group to dissolve, the former tries again later (R33). -/
theorem exec_groupDissolution_noVictim (hs : freeSlot k = none) (hv : dissolveVictim k = none) :
    exec (.groupDissolution c) s = .next (s.postOnce (.groupDissolution c)) := by
  show execGroupDissolution c s = _
  unfold execGroupDissolution
  simp only [h.1, hx, h.not_stopped, h.mayForm_eq, bne_iff_ne.mpr hf, slotsFull_eq_true hs, hv, Bool.not_true, Bool.false_eq_true, if_false]

/-- With every slot full the victim's threads go to the seedbed, and its slot to the aged thread's key (R33). -/
theorem exec_groupDissolution_victim {v : Group} {u : State} {k' : Ctx} (hs : freeSlot k = none) (hv : dissolveVictim k = some v)
    (hu : u = ((v.members.foldl (fun s t => s.modThread c v.wslot t fun th =>
      { th.closeWindows with status := .seedbed, age := s.clk, aged := false }) s).modCtx c fun k => k.dropGroup v.slot).countCore c 0x10)
    (hk : (u.core c).ctx = some k') : exec (.groupDissolution c) s = .next (formed u c k' x) := by
  show execGroupDissolution c s = _
  unfold execGroupDissolution
  simp only [h.1, hx, h.not_stopped, h.mayForm_eq, bne_iff_ne.mpr hf, slotsFull_eq_true hs, hv, ← hu, hk, Bool.not_true, Bool.false_eq_true, if_false]
  rfl

end

/-- MERGE_WAIT has run out for a group that waits (R34). -/
theorem exec_mergeWaitExpiry {slot : Nat} {g : Group} (h : Runs s c k) (hg : k.group slot = some g) (hs : g.stall = .merge)
    (hd : (s.gfc (partOfCid k.cid)).2.2 ≤ g.elapsed + (s.clk - g.endAt)) : exec (.mergeWaitExpiry c slot) s = .next (s.passMerge c slot) := by
  have hm : mergeDue s c slot = true := by unfold mergeDue; rw [ctx_bind_group h.1 hg]; exact decide_eq_true hd
  show execMergeWaitExpiry c slot s = _
  unfold execMergeWaitExpiry
  simp only [ctx_bind_group h.1 hg, hs, h.not_stopped, hm, bne_self_eq_false, Bool.or_self, Bool.false_eq_true, if_false, if_true]

/-- A sleeping group's clk have passed (R198). -/
theorem exec_tslpExpiry {slot : Nat} {g : Group} (h : Runs s c k) (hg : k.group slot = some g) (hs : g.stall = .sleep) (hd : g.left ≤ s.clk - g.endAt) :
    exec (.tslpExpiry c slot) s =
      .next (((g.members.foldl (fun s t => s.modThread c g.wslot t fun th => { th with pc := (th.pc + 4 * (g.hint.words + 1)) % 2 ^ 64 }) s).modCtx c
        fun k => (k.endWait slot).modGroup slot fun x => { x with hint := {} }).resched c) := by
  have hm : tslpDue s c slot = true := by unfold tslpDue; rw [h.1, Option.bind_some, hg]; exact decide_eq_true hd
  show execTslpExpiry c slot s = _
  unfold execTslpExpiry
  simp only [ctx_bind_group h.1 hg, hs, h.not_stopped, hm, bne_self_eq_false, Bool.or_self, Bool.not_true, Bool.false_eq_true, if_false]

/-- The stall that a grant expects is over (R40). -/
theorem grant_expected {slot : Nat} {g : Group} {p : Stall → Bool} (hk : (s.core c).ctx = some k) (hg : k.group slot = some g) (hp : p g.stall = true) :
    grant s c slot p = (s.modGroup c slot fun g => { g with fillOk := true }).clearStall c k.gen slot := by
  unfold grant
  simp only [ctx_bind_group hk hg, hp, if_true]

/-- Waiting `wgrow`s are granted in order (R199). -/
theorem exec_wgrowGrant {slot n : Nat} {u : State} (hr : growReady s c = some (slot, n)) (hk : (s.core c).ctx = some k) (hg : (k.group slot).isSome = true)
    (hu : u = ((s.modGroup c slot fun g => { g with granted := n }).modGroup c slot fun g => { g with fillOk := true }).clearStall c k.gen slot) :
    exec (.wgrowGrant c) s =
      .next (if ((u.core c).ctx.map fun k => k.groups.any fun g => (growSeq g).isSome).getD false then u.postOnce (.wgrowGrant c) else u) := by
  obtain ⟨g, hg⟩ := Option.isSome_iff_exists.1 hg
  show execWgrowGrant c s = _
  unfold execWgrowGrant
  simp only [hr, grant_mod (f := fun g => { g with granted := n }) (fun _ => rfl) hk hg, ← hu]

end

/-- Settles O47, step by step. -/
theorem schedulerSteps : Obligations.SchedulerSteps := by
  unfold Obligations.SchedulerSteps
  intro i s t h
  cases h with
  | arbitrate h hn hr hg => exact exec_schedulerArbitration h hn hr hg
  | exchange h hp hg => exact exec_stallExchange h hp hg
  | form h hf hx hs => exact exec_groupFormation h hf hx hs
  | formNext h hf => exact exec_groupFormation_again h hf
  | aged h ht hs ha hfree => rw [exec_formAgeExpiry h ht hs ha, slotsFull_eq_false hfree]; rfl
  | agedFull h ht hs ha hfull => rw [exec_formAgeExpiry h ht hs ha, slotsFull_eq_true hfull]; rfl
  | dissolve h hf hx hfull hv hu hk => exact exec_groupDissolution_victim h hf hx hfull hv hu hk
  | dissolveNone h hf hx hfree => exact exec_groupDissolution_free h hf hx hfree
  | noVictim h hf hx hfull hv => exact exec_groupDissolution_noVictim h hf hx hfull hv
  | mergeOver h hg hs hd => exact exec_mergeWaitExpiry h hg hs hd
  | sleepOver h hg hs hd => exact exec_tslpExpiry h hg hs hd
  | filled hk hg hs => exact congrArg Host.Outcome.next (grant_expected hk hg (by rw [hs]; rfl))
  | spilled hk hg hs => exact congrArg Host.Outcome.next (grant_expected hk hg (by rw [hs]; rfl))
  | grown hr hk hg hu => exact exec_wgrowGrant hr hk hg hu

/-! ### The step (R35, R38, R137, R147) -/

/-- A group's word that nothing comes before is made ready. -/
theorem issueWord_eq {s u v : State} {x : Iss} {w : Nat} {i : Instr} (hb : boundaryStep s x = none) (hr : x.g.run + x.g.hint.words < 24)
    (hf : fetchWord s x = .ok (u, w)) (hd : decodeWord x.g.hint.hx.length w = .ok i) (hh : isHint w = false) (hs : suits x.g.hint w i = true)
    (hl : landUnit u x w = .ok v) : issueWord s x = (v, some i) := by
  have hrun : (x.g.run != 0 && decide (24 < x.g.run + x.g.hint.words + 1)) = false := by simp; omega
  unfold issueWord
  simp only [hb, hrun, hf, hd, hh, hs, hl, Bool.not_true, Bool.false_eq_true, if_false]

theorem issue_eq {s : State} {c : CoreRef} {slot : Nat} {x : Iss} (hx : ({ s with cur := some (c, slot) } : State).issuing = some x)
    (hs : (s.core c).stopped = false) (hm : mayIssue x.k x.g x.w = true) :
    issue s c slot = issueWord { s with cur := some (c, slot) } x := by
  have hs' : (({ s with cur := some (c, slot) } : State).core c).stopped = false := hs
  unfold issue
  simp only [hx, hs', hm, Bool.not_true, Bool.or_self, Bool.false_eq_true, if_false]

/-- A step is what is picked, carried out, and the passing of time. -/
theorem step_eq_tick_of_run {s t : State} {c : Cand} (hp : pick s = some c) (hr : run s c = .next t) : step s = .next (tick t) := by
  unfold step; simp only [hp, hr]

theorem step_eq_tick_of_pick_none {s : State} (hp : pick s = none) : step s = .next (tick s) := by
  unfold step; simp only [hp]

/-- Settles O5: the issue of a group makes its word ready, and what is picked is carried out before time passes. -/
theorem stepRunsDecoded : Obligations.StepRunsDecoded := by
  unfold Obligations.StepRunsDecoded
  refine ⟨fun s c slot x u v w i t hp hx hstop hm hb hr hf hd hh hs hl he => step_eq_tick_of_run hp ?_,
    fun s n i t hp he => step_eq_tick_of_run hp he, fun s hp => step_eq_tick_of_pick_none hp⟩
  have hi : issue s c slot = (v, some i) := (issue_eq hx hstop hm).trans (issueWord_eq hb hr hf hd hh hs hl)
  unfold run
  simp only [hi, he]

end Sys2Proof.Machine

/-! SUPPORT. Memory spaces: reset, the immediate and address instructions, and loads and stores with their traps of misaligned addresses, their
effect lane by lane, and what a store leaves alone. -/

namespace Sys2Proof.Machine

open State

/-! ### Reset (R55, R365) -/

/-- Settles O9: after reset no group issues, the one clock's fraction is 0, and no byte is listed. -/
theorem resetSettled : Obligations.ResetSettled := by
  unfold Obligations.ResetSettled
  refine ⟨⟨rfl, fun p hp => ?_⟩, reset_memories_wf⟩
  obtain rfl : p = Package.reset 0 := by simpa [State.reset] using hp
  exact Nat.two_pow_pos 16

/-! ### Immediate and address instructions (R64, R129, R139, R167) -/

/-- The pair of `lea.d` with a die number: its flag and its die stand in the high word (R64). -/
theorem leaDDie_hi (n : BitVec 2) : (0xF2000004 + n.setWidth 32 : Word).toNat = 0xF2000004 + n.toNat := by
  have := n.isLt
  rw [BitVec.toNat_add, BitVec.toNat_setWidth, show (0xF2000004 : Word).toNat = 0xF2000004 from rfl]
  omega

theorem ofNat_toNat_add (x y : Word) : BitVec.ofNat 32 (x.toNat + y.toNat) = x + y := by
  rw [BitVec.ofNat_add, BitVec.ofNat_toNat, BitVec.ofNat_toNat, BitVec.setWidth_eq, BitVec.setWidth_eq]

/-- Each immediate or address instruction acts lane by lane as its row says. -/
theorem immRow_runs {i : Instr} {row : LaneRow} (h : ImmRow i row) : RowRuns row (exec i) := by
  cases h with
  | addi e d a i => exact opImm_row (f := (· + ·)) (F := (· + ·)) ofNat_toNat_add
  | andi e d a i => exact opImm_row (f := (· &&& ·)) (F := (· &&& ·)) nat_and
  | ori e d a i => exact opImm_row (f := (· ||| ·)) (F := (· ||| ·)) nat_or
  | xori e d a i => exact opImm_row (f := (· ^^^ ·)) (F := (· ^^^ ·)) nat_xor
  | shli e d a n => exact opUn_row (f := (shl32 · n.toNat)) (F := (· <<< n.toNat)) fun x => shl x n.toNat
  | shri e d a n => exact opUn_row (f := (shr32 · n.toNat)) (F := (· >>> n.toNat)) fun x => shr x n.toNat
  | sari e d a n => exact opUn_row (f := (sar32 · n.toNat)) (F := (·.sshiftRight n.toNat)) fun x => sar x n.toNat
  | roli e d a n => exact opUn_row (f := (rol32 · n.toNat)) (F := (·.rotateLeft n.toNat)) fun x => rol x n.toNat
  | cmpi e p c a i =>
    refine row_runs (row := ⟨{ a := a.toNat, an := 1 }, fun l => l.ln.t.setP p.toNat (immCond c.toNat l.ra (l.imm i))⟩) e
      ⟨fun _ _ => rfl, fun _ => ⟨setP_tid _ _ _, setP_rep _ _ _⟩⟩ fun l => ?_
    show _ = l.ln.t.setP p.toNat _
    rw [← imm_cond c.toNat c.isLt, imm_toNat, LaneIn.ra, toNat_reg]
  | lim e d i =>
    exact row_runs (row := ⟨dOnly d, fun l => l.put (BitVec.ofNat 32 (l.x.simm i.toNat 19 32))⟩) e
      ⟨fun _ _ => rfl, fun _ => ⟨rfl, rfl⟩⟩ fun l => setReg_ofNat _ _ _ _ rfl
  | limB64 e d i => exact span_row (fun _ => rfl) fun _ _ => rfl
  | leaL e d a => exact opLea_row fun _ => rfl
  | leaD e d a => exact opLea_row fun _ => rfl
  | leaDDie e d a n => exact opLea_row fun x => by rw [leaDDie_hi]; ring
  | leaS e d a => exact opLea_row fun _ => rfl

/-- Settles O14: one lemma per operand form of the rows. -/
theorem immediateRows : Obligations.ImmediateRows := by
  unfold Obligations.ImmediateRows
  intro i row s x h hs
  exact (immRow_runs h).done hs

/-! ### Loads and stores (R60, R68-R71, R132, R144, R204, R205) -/

/-- One lane of an access, as the model carries it out. -/
def Access.lane (a : Access) : LaneFn := if a.store then storeLane a.sp a.sz a.off else loadLane a.sp a.sz a.la a.off

theorem accessOf_exec {i : Instr} {a : Access} (h : accessOf i = some a) :
    ∃ e, exec i = execAccess e a.sp (sizeBytes a.sz) a.off { d := a.reg, dn := sizeRegs a.sz, a := a.base, an := 1 } a.lane := by
  cases i with
  | ldl e | stl e | ldd e | std e | lds e | sts e => cases h; exact ⟨e, rfl⟩
  | _ => cases h

/-- A well-formed access has one of the seven sizes (R132). -/
theorem accessOf_sz_lt {i : Instr} {a : Access} (h : accessOf i = some a) (hw : i.Wf) : a.sz < 7 := by
  cases i with
  | ldl | ldd | lds => cases h; exact wf_load hw
  | stl | std | sts => cases h; exact wf_store hw
  | _ => cases h

/-- Settles O22: a load's or a store's lanes act one after the other. -/
theorem loadsAndStores : Obligations.LoadsAndStores := by
  unfold Obligations.LoadsAndStores
  intro i a s u x h hw hp hu
  obtain ⟨e, he⟩ := accessOf_exec h
  have hsz := accessOf_sz_lt h hw
  rw [he, Access.lane]
  cases hst : a.store with
  | false => exact access_load e hsz hst hp hu
  | true => exact access_store e hsz hst hp hu

/-! ### MISALIGNED (R68, R69, R205) -/

@[simp] theorem plainTgt_off (sp : Spc) (die off : Nat) : (plainTgt sp die off).off = off := by
  cases sp <;> rfl

/-- The check of alignment comes first and moves nothing (R69). -/
theorem reach_misaligned {s : State} {ln : Lane} {t : Tgt} {n : Nat} (h : t.off % n ≠ 0) (addr : Nat) (a : Acc) :
    s.reach ln t addr n a = (s, .error (.trap .misaligned 0 addr)) := by
  unfold reach
  rw [if_pos (by simpa using h)]

theorem lane_misaligned {a : Access} {l : LaneIn} (hsz : a.sz < 7) (h : a.offset l % a.bytes ≠ 0) (s : State) :
    a.lane s l = (s, .stop (.trap .misaligned 0 (plainTag a.sp (a.offset l)))) := by
  have hr : ∀ k, s.reach l.ln (plainTgt a.sp l.ln.r.core.die (a.offset l)) (plainTag a.sp (a.offset l)) a.bytes k =
      (s, .error (.trap .misaligned 0 (plainTag a.sp (a.offset l)))) := reach_misaligned (by rwa [plainTgt_off]) _
  have ho : plainOff l.x (l.ln.t.reg l.a) a.off a.bytes = a.offset l := rfl
  unfold Access.lane
  cases a.store with
  | false => simp only [Bool.false_eq_true, if_false, loadLane, ← bytes_eq a hsz, ho, hr]
  | true => simp only [if_true, storeLane, ← bytes_eq a hsz, ho, hr]

/-- Lanes each of which only notes a trap note them in order. -/
theorem foldl_laneStep_traps {x : Iss} {fs : Fields} {f : LaneFn} {s : State} {q : Nat → TrapReq} {is : List Nat}
    (h : ∀ i ∈ is, ∀ qs, laneStep x fs f { s := s, traps := qs } i = { s := s, traps := qs ++ [q i] }) (qs : List TrapReq) :
    is.foldl (laneStep x fs f) { s := s, traps := qs } = { s := s, traps := qs ++ is.map q } := by
  induction is generalizing qs with
  | nil => simp
  | cons i is ih =>
    rw [List.foldl_cons, h i (by simp), ih fun j hj => h j (by simp [hj])]
    simp

/-- A unit without `hrep` each of whose active lanes only notes a trap: the traps are taken from the state in which it issued. -/
theorem perLane_allTrapped {s : State} {x : Iss} {fs : Fields} {f : LaneFn} {q : Nat → TrapReq} (e : Bool) (hr : x.g.hint.hrep = none)
    (hq : ∀ i, (q i).tid = i) (h : ∀ i ∈ x.active, ∀ qs, laneStep x fs f { s := s, traps := qs } i = { s := s, traps := qs ++ [q i] })
    (hw : ∀ i ∈ x.active, s.trapWait x (q i) = none) : perLane x e fs f s = allTrapped s x q e := by
  have hm : (x.active.map q).map (fun r => r.tid) = x.active := by
    rw [List.map_map]; exact (List.map_congr_left fun i _ => hq i).trans (List.map_id _)
  unfold perLane
  rw [hr]
  simp only [foldl_laneStep_traps h [], List.nil_append, Bool.false_eq_true, if_false]
  rw [trapsOr_taken (fun r hr => by obtain ⟨i, hi, rfl⟩ := List.mem_map.1 hr; exact hw i hi), hm]
  rfl

/-- An access whose lines and translations are at hand acts lane by lane (R40, R60, R206). -/
theorem execAccess_present {a : Access} {s : State} {x : Iss} (hsz : a.sz < 7) (hp : a.present s x) (hs : Issues s x) (e : Bool) (f : LaneFn) :
    execAccess e a.sp (sizeBytes a.sz) a.off { d := a.reg, dn := sizeRegs a.sz, a := a.base, an := 1 } f s = .next (perLane x e a.fields f s) := by
  unfold execAccess
  rw [onIssue_eq hs]
  simp only [access_present (bytes_eq a hsz) (regs_eq a) hp, List.isEmpty_nil, Bool.and_self, if_true, Access.fields, regs_eq]

/-- A misaligned lane only notes its trap, with its tagged address. -/
theorem laneStep_misaligned {x : Iss} {a : Access} {s : State} {i : Nat} {l : LaneIn} (hsz : a.sz < 7) (h1 : s.laneIn x a.fields i = some l)
    (h2 : l.ln.t.pend ≠ .done) (h3 : a.fields.within l.ln.t.c x.g.hint.hrep = true) (h4 : a.offset l % a.bytes ≠ 0) (qs : List TrapReq) :
    laneStep x a.fields a.lane { s := s, traps := qs } i = { s := s, traps := qs ++ [alignTrap x (a.addrOf s x i) i] } := by
  unfold laneStep Access.addrOf
  simp only [h1, beq_eq_false_iff_ne.mpr h2, h3, lane_misaligned hsz h4, Bool.false_eq_true, if_false, Bool.not_true]
  rfl

/-- Settles O20: the check of alignment stops every active lane before it has moved a byte, so that the unit's traps are taken from the state in
which it issued. -/
theorem misalignedTraps : Obligations.MisalignedTraps := by
  unfold Obligations.MisalignedTraps
  intro i a s x h hw hp hs hr hl ht
  obtain ⟨e, he⟩ := accessOf_exec h
  have hsz := accessOf_sz_lt h hw
  refine ⟨e, ?_⟩
  rw [he, execAccess_present hsz hp hs, perLane_allTrapped e hr (fun _ => rfl) (fun n hn qs => ?_) ht]
  obtain ⟨l, h1, h2, h3, h4⟩ := hl n hn
  exact laneStep_misaligned hsz h1 h2 (by rw [hr]; exact h3) h4 qs

end Sys2Proof.Machine

/-! SUPPORT. What a store leaves alone: the bytes of G, D and L as the accesses of a unit and the end of the unit leave them. -/

namespace Sys2Proof.Machine

open State

/-! ### The contexts at a core (R377) -/

/-- The contexts at a core, in the order in which a generation is looked for. -/
def Core.contexts (x : Core) : List Ctx := x.ctx.toList ++ x.outSlot.toList ++ x.expSlot.toList ++ x.inSlot.toList

theorem place_eq (s : State) (c : CoreRef) (gen : Nat) : s.place c gen =
    if (s.core c).ctx.any (fun k => k.gen == gen) then some .active else if (s.core c).outSlot.any (fun k => k.gen == gen) then some .outSlot
    else if (s.core c).expSlot.any (fun k => k.gen == gen) then some .expSlot
    else if (s.core c).inSlot.any (fun k => k.gen == gen) then some .inSlot else none := by
  unfold place
  simp only []
  congr 4
  · cases (s.core c).ctx <;> rfl
  · cases (s.core c).outSlot <;> rfl
  · cases (s.core c).expSlot <;> rfl
  · cases (s.core c).inSlot <;> rfl

/-- A slot in which no context of a generation stands. -/
theorem slot_lacks {o : Option Ctx} {gen : Nat} (h : ¬∃ y, o = some y ∧ y.gen = gen) : ∀ y ∈ o.toList, y.gen ≠ gen :=
  fun y hy e => h ⟨y, by simpa using hy, e⟩

/-- Where the context of a generation stands on a core: what stands there before and after it, and what a change of it leaves. -/
theorem place_spec {s : State} {c : CoreRef} {gen : Nat} {p : Place} (h : s.place c gen = some p) (f : Ctx → Ctx) :
    ∃ l k r, (s.core c).contexts = l ++ k :: r ∧ (∀ y ∈ l, y.gen ≠ gen) ∧ k.gen = gen ∧ s.ctxAt c gen = some k ∧
      ((s.modCtxAt c gen f).core c).contexts = l ++ f k :: r := by
  have hm : ∀ g : Core → Core, (g (s.core c)).at_ = (s.core c).at_ → (s.modCore c g).core c = g (s.core c) := fun g hg => by
    rw [core_modCore s c c g (hg.trans (core_at s c)), if_pos rfl]
  unfold ctxAt modCtxAt
  rw [h]
  rw [place_eq] at h
  simp only [Option.any_eq_true, beq_iff_eq] at h
  split_ifs at h with h1 h2 h3 h4 <;> cases h
  · obtain ⟨k, hk, hg⟩ := h1
    exact ⟨[], k, (s.core c).outSlot.toList ++ (s.core c).expSlot.toList ++ (s.core c).inSlot.toList, by simp [Core.contexts, hk],
      List.forall_mem_nil _, hg, hk, by rw [hm _ rfl]; simp [Core.contexts, hk]⟩
  · obtain ⟨k, hk, hg⟩ := h2
    exact ⟨(s.core c).ctx.toList, k, (s.core c).expSlot.toList ++ (s.core c).inSlot.toList, by simp [Core.contexts, hk],
      slot_lacks h1, hg, hk, by rw [hm _ rfl]; simp [Core.contexts, hk]⟩
  · obtain ⟨k, hk, hg⟩ := h3
    exact ⟨(s.core c).ctx.toList ++ (s.core c).outSlot.toList, k, (s.core c).inSlot.toList, by simp [Core.contexts, hk],
      List.forall_mem_append.2 ⟨slot_lacks h1, slot_lacks h2⟩, hg, hk, by rw [hm _ rfl]; simp [Core.contexts, hk]⟩
  · obtain ⟨k, hk, hg⟩ := h4
    exact ⟨(s.core c).ctx.toList ++ (s.core c).outSlot.toList ++ (s.core c).expSlot.toList, k, [], by simp [Core.contexts, hk],
      List.forall_mem_append.2 ⟨List.forall_mem_append.2 ⟨slot_lacks h1, slot_lacks h2⟩, slot_lacks h3⟩, hg, hk,
      by rw [hm _ rfl]; simp [Core.contexts, hk]⟩

/-- What is found where none before it has the generation. -/
theorem find_gen {l r : List Ctx} {k : Ctx} {gen : Nat} (hl : ∀ y ∈ l, y.gen ≠ gen) (hk : k.gen = gen) :
    (l ++ k :: r).find? (fun y => y.gen == gen) = some k := by
  rw [List.find?_append, List.find?_eq_none.mpr (by simpa using hl)]
  simp [hk]

theorem ctxAt_eq_find (s : State) (c : CoreRef) (gen : Nat) : s.ctxAt c gen = (s.core c).contexts.find? fun k => k.gen == gen := by
  cases hp : s.place c gen with
  | some p =>
    obtain ⟨l, k, r, h1, h2, h3, h4, -⟩ := place_spec hp id
    rw [h4, h1, find_gen h2 h3]
  | none =>
    unfold ctxAt
    rw [hp]
    rw [place_eq] at hp
    simp only [Option.any_eq_true, beq_iff_eq] at hp
    split_ifs at hp with h1 h2 h3 h4
    have hc : ∀ y ∈ (s.core c).contexts, y.gen ≠ gen := List.forall_mem_append.2 ⟨List.forall_mem_append.2 ⟨List.forall_mem_append.2
      ⟨slot_lacks h1, slot_lacks h2⟩, slot_lacks h3⟩, slot_lacks h4⟩
    exact (List.find?_eq_none.mpr (by simpa using hc)).symm

theorem core_modCtxAt_other {s : State} {c c' : CoreRef} (h : c' ≠ c) (gen : Nat) (f : Ctx → Ctx) : (s.modCtxAt c gen f).core c' = s.core c' := by
  unfold modCtxAt
  split
  case h_5 => rfl
  all_goals rw [core_modCore _ _ _ _ (core_at s c), if_neg h]

/-- A context after one has been changed by a function that keeps its generation. -/
theorem ctxAt_modCtxAt {s : State} {c : CoreRef} {gen : Nat} (hp : (s.place c gen).isSome) {f : Ctx → Ctx} (hf : ∀ k, (f k).gen = k.gen)
    (c' : CoreRef) (gen' : Nat) :
    (s.modCtxAt c gen f).ctxAt c' gen' = if c' = c ∧ gen' = gen then (s.ctxAt c gen).map f else s.ctxAt c' gen' := by
  by_cases hc : c' = c
  · subst hc
    obtain ⟨p, hp⟩ := Option.isSome_iff_exists.mp hp
    obtain ⟨l, k, r, h1, h2, h3, h4, h5⟩ := place_spec hp f
    by_cases hg : gen' = gen
    · subst hg
      rw [if_pos ⟨rfl, rfl⟩, h4, ctxAt_eq_find, h5, find_gen h2 ((hf k).trans h3)]; rfl
    · have hk : k.gen ≠ gen' := fun e => hg (e.symm.trans h3)
      rw [if_neg fun h => hg h.2, ctxAt_eq_find, ctxAt_eq_find, h5, h1, List.find?_append, List.find?_append]
      simp [hf, hk]
  · rw [if_neg fun h => hc h.1, ctxAt_eq_find, ctxAt_eq_find, core_modCtxAt_other hc]

/-! ### Where a byte stands after an operation -/

/-- A context's generation and its bytes of L. -/
def Ctx.bytes (k : Ctx) : Nat × Mem := (k.gen, k.lmem)

/-- The memory of a place in L is the bytes of the contexts at its core. -/
theorem store_l_congr {s t : State} {c : CoreRef} (h : (t.core c).contexts.map Ctx.bytes = (s.core c).contexts.map Ctx.bytes) (gen off : Nat) :
    t.store (.l c gen off) = s.store (.l c gen off) := by
  have hl : ∀ u : State, (u.ctxAt c gen).map (fun k => k.lmem) =
      (((u.core c).contexts.map Ctx.bytes).find? fun b => b.1 == gen).map Prod.snd := fun u => by
    rw [ctxAt_eq_find, List.find?_map, Option.map_map]; rfl
  simp only [store, hl, h]

theorem store_congr {s t : State} (hg : t.gmem = s.gmem) (hd : t.dmem = s.dmem)
    (hc : ∀ c, (t.core c).contexts.map Ctx.bytes = (s.core c).contexts.map Ctx.bytes) (m : Loc) : t.store m = s.store m := by
  cases m with
  | g pa => simp only [store, hg]
  | d => simp only [store, hd]
  | l c => exact store_l_congr (hc c) _ _

theorem store_modThread (s : State) (c : CoreRef) (w t : Nat) (f : Thread → Thread) (m : Loc) : (s.modThread c w t f).store m = s.store m := by
  apply store_congr
  · rfl
  · rfl
  intro c'
  unfold modThread modWg
  rw [core_modCtx]
  split_ifs with h
  · subst h
    unfold Core.contexts
    cases (s.core c').ctx <;> rfl
  · rfl

/-- A scheduler's work on a core where a context stands moves no byte. -/
theorem OnCore.store_eq {c : CoreRef} {s t : State} (h : OnCore c s t) {k : Ctx} (hk : (s.core c).ctx = some k) (m : Loc) :
    t.store m = s.store m := by
  refine store_congr (by rw [h.rest]) (by rw [h.rest]) (fun c' => ?_) m
  by_cases hc : c' = c
  · subst hc
    obtain ⟨k', hk', e⟩ := h.ctx k hk
    rw [h.core, hk']
    unfold Core.contexts
    rw [hk, e]; rfl
  · rw [h.others c' hc]

/-- A translation may enter a core's translation cache, and moves no byte (R405). -/
theorem store_xlate (s : State) (c : CoreRef) (level cid va : Nat) (a : Acc) (m : Loc) : (s.xlate c level cid va a).1.store m = s.store m := by
  unfold xlate
  simp only []
  split_ifs
  · rfl
  · rfl
  · split
    · rfl
    · apply store_congr
      · rfl
      · rfl
      intro c'
      rw [core_modCore _ _ _ _ (core_at s c)]
      split_ifs with h
      · subst h; rfl
      · rfl

theorem store_xlateFor (s : State) (ln : Lane) (va addr : Nat) (a : Acc) (m : Loc) : (s.xlateFor ln va addr a).1.store m = s.store m := by
  have h := store_xlate s ln.r.core ln.g.level ln.g.cid va a m
  unfold xlateFor
  split_ifs
  · rfl
  · split <;> (rename_i e; rw [e] at h; exact h)

/-- The checks of an access move no byte (R69). -/
theorem store_reach (s : State) (ln : Lane) (t : Tgt) (addr n : Nat) (a : Acc) (m : Loc) : (s.reach ln t addr n a).1.store m = s.store m := by
  have h := store_xlateFor s ln (gva ln t) addr a m
  unfold reach
  split_ifs
  · rfl
  · rfl
  · cases hl : placeLD ln t with
    | some l =>
      simp only []
      split_ifs <;> rfl
    | none =>
      simp only []
      generalize s.xlateFor ln (gva ln t) addr a = r at h ⊢
      obtain ⟨u, _ | pa⟩ := r
      · exact h
      · simp only []
        split_ifs <;> exact h

/-! ### Bytes written -/

/-- From one state to another, `n` bytes written from a place leave the memory of a place as it was, or stand in it from an address on; its
own byte is then among the places written only where their keys agree. -/
def WritesAt (s t : State) (q : Loc) (n v : Nat) (m : Loc) : Prop :=
  t.store m = s.store m ∨ ∃ b, t.store m = (mwrite (s.store m).1 b n v, (s.store m).2) ∧ ∀ j, b + j = (s.store m).2 → (q.add j).key = m.key

theorem store_unmark (s : State) (q : Loc) (n : Nat) (m : Loc) : (s.unmark q n).store m = s.store m := by
  unfold unmark
  split_ifs
  · cases m <;> rfl
  · rfl

theorem place_unmark (s : State) (q : Loc) (n : Nat) (c : CoreRef) (gen : Nat) : (s.unmark q n).place c gen = s.place c gen := by
  unfold unmark
  split_ifs <;> rfl

theorem modCtxAt_gmem (s : State) (c : CoreRef) (gen : Nat) (f : Ctx → Ctx) : (s.modCtxAt c gen f).gmem = s.gmem := by
  unfold modCtxAt
  split <;> rfl

theorem modCtxAt_dmem (s : State) (c : CoreRef) (gen : Nat) (f : Ctx → Ctx) : (s.modCtxAt c gen f).dmem = s.dmem := by
  unfold modCtxAt
  split <;> rfl

/-- Bytes of L of one context written: the other contexts keep theirs. -/
theorem writesAt_modCtxAt {s : State} {c : CoreRef} {gen : Nat} (hp : (s.place c gen).isSome) (off n v : Nat) (m : Loc) :
    WritesAt s (s.modCtxAt c gen fun k => { k with lmem := mwrite k.lmem off n v }) (.l c gen off) n v m := by
  cases m with
  | g pa => exact .inl (by simp only [store, modCtxAt_gmem])
  | d => exact .inl (by simp only [store, modCtxAt_dmem])
  | l c' gen' off' =>
    have h := ctxAt_modCtxAt hp (f := fun k => { k with lmem := mwrite k.lmem off n v }) (fun _ => rfl) c' gen'
    by_cases hc : c' = c ∧ gen' = gen
    · obtain ⟨rfl, rfl⟩ := hc
      obtain ⟨p, hp⟩ := Option.isSome_iff_exists.mp hp
      obtain ⟨-, k, -, -, -, -, hk, -⟩ := place_spec hp id
      rw [if_pos ⟨rfl, rfl⟩, hk] at h
      refine .inr ⟨off, by simp only [store, h, hk, Option.map_some, Option.getD_some], fun j hj => ?_⟩
      simp only [store] at hj
      rw [Loc.add, hj]
    · rw [if_neg hc] at h
      exact .inl (by simp only [store, h])

theorem store_g (s : State) (pa : Nat) : s.store (.g pa) = (s.gmem, pa) := rfl

theorem store_d (s : State) (p di c off : Nat) : s.store (.d p di c off) = (s.dmem, dKey p di c off) := rfl

theorem dKey_add (p di c off j : Nat) : dKey p di c (off + j) = dKey p di c off + j := (Nat.add_assoc _ _ _).symm

/-- Bytes of G written. -/
theorem writesAt_gmem (s : State) (pa n v : Nat) (m : Loc) : WritesAt s { s with gmem := mwrite s.gmem pa n v } (.g pa) n v m := by
  cases m with
  | g pb =>
    refine .inr ⟨pa, by rw [store_g, store_g], fun j h => ?_⟩
    rw [Loc.add, h, store_g]
  | d => exact .inl (by rw [store_d, store_d])
  | l => exact .inl (store_l_congr rfl _ _)

/-- Bytes of D written. -/
theorem writesAt_dmem (s : State) (p di c off n v : Nat) (m : Loc) :
    WritesAt s { s with dmem := mwrite s.dmem (dKey p di c off) n v } (.d p di c off) n v m := by
  cases m with
  | g pb => exact .inl (by rw [store_g, store_g])
  | d p' di' c' off' =>
    refine .inr ⟨dKey p di c off, by rw [store_d, store_d], fun j h => ?_⟩
    rw [store_d] at h
    rw [Loc.add, Loc.key, Loc.key, dKey_add, h]
  | l => exact .inl (store_l_congr rfl _ _)

/-- A write of bytes at a place, L of a context at its core or any place of G and D. -/
theorem writesAt_writeLoc {s : State} {q : Loc} (hq : ∀ c g o, q = .l c g o → (s.place c g).isSome) (n v : Nat) (m : Loc) :
    WritesAt s (s.writeLoc q n v) q n v m := by
  have hu : WritesAt (s.unmark q n) (s.writeLoc q n v) q n v m := by
    unfold writeLoc
    cases q with
    | g pa => exact writesAt_gmem _ pa n v m
    | d p di c off => exact writesAt_dmem _ p di c off n v m
    | l c gen off =>
      have hp : ((s.unmark (.l c gen off) n).place c gen).isSome := by rw [place_unmark]; exact hq c gen off rfl
      simp only [Option.isNone_eq_false_iff.mpr hp, Bool.false_eq_true, if_false]
      exact writesAt_modCtxAt hp off n v m
  unfold WritesAt at hu ⊢
  rwa [store_unmark] at hu

theorem readLoc_one (s : State) (m : Loc) : s.readLoc m 1 = (mbyte (s.store m).1 (s.store m).2).toNat := by
  simp [readLoc, mread]

theorem readLoc_congr {s t : State} {m : Loc} (h : t.store m = s.store m) (n : Nat) : t.readLoc m n = s.readLoc m n := by
  unfold readLoc
  rw [h]

/-- A byte outside the bytes written reads as before, and its memory keeps its canonical form. -/
theorem WritesAt.frame {s t : State} {q m : Loc} {n v : Nat} (h : WritesAt s t q n v m) (hw : Memory.wf (s.store m).1)
    (hk : ∀ j < n, (q.add j).key ≠ m.key) : Memory.wf (t.store m).1 ∧ t.readLoc m 1 = s.readLoc m 1 := by
  rcases h with h | ⟨b, h, hb⟩
  · exact ⟨by rw [h]; exact hw, readLoc_congr h 1⟩
  · have ho : (s.store m).2 < b ∨ b + n ≤ (s.store m).2 := by
      by_contra hc
      exact hk ((s.store m).2 - b) (by omega) (hb _ (by omega))
    rw [readLoc_one, readLoc_one, h]
    exact ⟨mwrite_wf hw _ _ _, by rw [mbyte_mwrite_outside hw v ho]⟩

/-! ### The lanes of a store (R205) -/

/-- The lanes of a store and the places they store to are lanes that act as the access says. -/
theorem Access.Stores.laneSteps {a : Access} {x : Iss} {is : List Nat} {s u : State} {ls : List Loc} (hst : a.store = true)
    (h : a.Stores x is s u ls) : LaneSteps x a.fields (fun s l u v => a.Lane s l u v) is s u := by
  induction h with
  | nil s => exact .nil s
  | skip h1 h2 _ ih => exact .skip h1 h2 ih
  | step h1 h2 h3 h4 _ _ ih => exact .step h1 h2 h3 (.store hst h4) ih

theorem Access.store_place (a : Access) (s : State) (l : LaneIn) (m : Loc) : (a.place s l).1.store m = s.store m :=
  store_reach _ _ _ _ _ _ _

/-- A byte outside the places stored to reads as before after each lane, and so after all of them. -/
theorem Access.Stores.frame {a : Access} {x : Iss} {is : List Nat} {s u : State} {ls : List Loc} (h : a.Stores x is s u ls) {m : Loc}
    (hw : Memory.wf (s.store m).1) (hk : ∀ q ∈ ls, ∀ j < a.bytes, (q.add j).key ≠ m.key) : u.readLoc m 1 = s.readLoc m 1 := by
  induction h with
  | nil s => rfl
  | skip _ _ _ ih => exact ih hw hk
  | @step s t u l loc i is ls _ _ _ hp hl _ ih =>
    have hu : u.store m = s.store m := by rw [← a.store_place s l m, hp]
    obtain ⟨hq, hk⟩ := List.forall_mem_cons.1 hk
    obtain ⟨hw', hr⟩ := (writesAt_writeLoc hl a.bytes (l.ln.t.span l.d a.regs) m).frame (by rw [hu]; exact hw) hq
    rw [ih (by rw [store_modThread]; exact hw') hk, readLoc_congr (store_modThread _ _ _ _ _ _), hr, readLoc_congr hu]

/-- Settles O23: each lane's write, the writes of the other lanes and the end of the unit leave a byte outside the places stored to. -/
theorem storeFrame : Obligations.StoreFrame := by
  unfold Obligations.StoreFrame
  intro i a s u x ls h hst hw hp hs hr hls hv
  obtain ⟨t, ht, hd⟩ := loadsAndStores i a s u x h hw hp ⟨hs, hr, hls.laneSteps hst⟩
  obtain ⟨k, -, hk, -⟩ := hv.group
  refine ⟨t, ht, fun m hm hq => ?_⟩
  rw [readLoc_congr ((hd hv).frame.store_eq hk m), hls.frame hm hq]

end Sys2Proof.Machine

/-! SUPPORT. Homes and copy engines: atomics, releases and changes of bindings at their homes, the results that arrive, and the steps of a copy. -/

namespace Sys2Proof.Machine

open State

/-! ### Atomics at their homes (R90-R93, R210-R212, R397) -/

section
variable {s : State} {id : Nat} {q : Request} {loc : Loc} {va n op ord : Nat} {lanes : List AtomLane} {amax : Bool}

/-- Nothing holds a free atomic, as its step asks for it. -/
theorem HomeFree.not_held (h : HomeFree s q loc n lanes) :
    (!s.atomReady q loc n lanes || !s.locRoom (((s.grid q.grid).map Grid.part).getD 0) loc) = false := by
  obtain ⟨hready, hroom⟩ := h
  unfold partOfReq at hroom
  rw [hready, hroom]
  rfl

/-- Something holds an atomic that is not free, as its step asks for it. -/
theorem held_of_not_homeFree (h : ¬HomeFree s q loc n lanes) :
    (!s.atomReady q loc n lanes || !s.locRoom (((s.grid q.grid).map Grid.part).getD 0) loc) = true := by
  rw [← Bool.not_and, Bool.not_eq_true', ← Bool.not_eq_true, Bool.and_eq_true]
  exact h

section
variable (hq : (s.reqs.find? fun q => q.id == id && q.answer.isNone) = some q) (hk : q.kind = .atomic loc va n op ord lanes amax)
include hq hk

/-- An atomic that is held looks again later (R90-R92, R397). -/
theorem exec_atomicHomePerform_held (hf : ¬HomeFree s q loc n lanes) :
    exec (.atomicHomePerform id) s = .next (s.post (.atomicHomePerform id)) := by
  show execAtomicHomePerform id s = _
  unfold execAtomicHomePerform
  simp only [hq, hk, held_of_not_homeFree hf, if_true]

section
variable (hf : HomeFree s q loc n lanes)
include hf

/-- An acquire of a word whose latest release stands at device scope waits for its promotion (R93). -/
theorem exec_atomicHomePerform_promotes {y : SyncWord} (hn : s.needsPromotion q loc n lanes = some y) :
    exec (.atomicHomePerform id) s =
      .next (({ s with reqs := mapIf (fun (z : Request) => z.id == id) (fun (z : Request) => { z with promote := true }) s.reqs } : State).postOnce
        (.releasePromotion y.rel)) := by
  show execAtomicHomePerform id s = _
  unfold execAtomicHomePerform
  simp only [hq, hk, hf.not_held, hn, Bool.false_eq_true, if_false]

/-- An atomic on a line that is uncorrectable loses its workgroup (R438). -/
theorem exec_atomicHomePerform_marked (hn : s.needsPromotion q loc n lanes = none) (hm : s.marked loc = true) :
    exec (.atomicHomePerform id) s =
      .next (({ s with reqs := s.reqs.filter fun z => z.id != id } : State).loseBlock q.t.core q.t.gen q.t.wslot 1) := by
  show execAtomicHomePerform id s = _
  unfold execAtomicHomePerform
  simp only [hq, hk, hf.not_held, hn, hm, Bool.false_eq_true, if_true, if_false]

/-- Otherwise it is performed, and charged to its partition (R210, R399). -/
theorem exec_atomicHomePerform_performs (hn : s.needsPromotion q loc n lanes = none) (hm : s.marked loc = false) :
    exec (.atomicHomePerform id) s =
      .next (((s.performAtomic q loc va n op ord lanes amax).chargeLoc q.t.core.pkg (partOfReq s q) loc).workOver q.t.core q.grid) := by
  show execAtomicHomePerform id s = _
  unfold execAtomicHomePerform
  simp only [hq, hk, hf.not_held, hn, hm, Bool.false_eq_true, if_false]
  rfl

end

end

end

/-! ### Changes of bindings at their home (R81, R214-R216) -/

section
variable {s : State} {id : Nat} {q : Request} {k : Ctx} {w : Workgroup} {g : Grid}

/-- The grid whose table a thread's request changes. -/
theorem grid_of_thread (hc : s.ctxAny q.t.core q.t.gen = some k) (hw : k.wg q.t.wslot = some w) (hg : s.grid w.grid = some g) :
    ((s.ctxAny q.t.core q.t.gen).bind fun k => (k.wg q.t.wslot).bind fun w => s.grid w.grid) = some g := by
  rw [hc, Option.bind_some, hw, Option.bind_some, hg]

section
variable (ht : ((s.ctxAny q.t.core q.t.gen).bind fun k => (k.wg q.t.wslot).bind fun w => s.grid w.grid) = some g)
include ht

/-- The answer to a new entry (R81, R215). -/
theorem answerBind_bind {e : BindEntry} (hk : q.kind = .bind e) : answerBind s q = bindResult s g q e := by
  unfold answerBind bindResult
  simp only [ht, hk, beq_iff_eq]
  rfl

/-- No entry stands at the place: nothing is removed (R215). -/
theorem answerBind_unbind_none {a : Nat} {l : Loc} (hk : q.kind = .unbind a l)
    (hn : ∀ e ∈ g.binds, ∀ b o i, s.entryAt g none e l = some (b, o, i) → b ≠ l) : answerBind s q = answered s q 0 [] := by
  unfold answerBind
  simp only [ht, hk]
  rw [List.find?_eq_none.2]
  · rfl
  · intro e he
    split
    next b o i heq => simpa using hn e he b o i heq
    next => exact Bool.false_ne_true

/-- The one entry of a table stands at the place, and is removed there (R80, R215). -/
theorem answerBind_unbind_one {a b : Nat} {l : Loc} {e : BindEntry} {o : Option Loc} {i : Option (Nat × Nat × Nat)} (hk : q.kind = .unbind a l)
    (hb : g.binds = [e]) (he : s.entryAt g none e l = some (l, o, i)) (hcopy : b = ((s.fresh.2.launchCopy g e l).map fun c => c.2.2.2).getD 0) :
    answerBind s q =
      answered (s.fresh.2.modGrid g.handle fun g =>
        { g with
            binds := if e.launch then mapIf (fun (y : BindEntry) => y.id == e.id) (fun (y : BindEntry) => { y with removed := y.removed ++ [(b, s.fresh.1)] }) g.binds
              else g.binds,
            changes := g.changes ++ [{ id := s.fresh.1, entry := e.id, add := false, by_ := q.t }] }) q 0 [s.fresh.1] := by
  subst hcopy
  unfold answerBind
  simp only [ht, hk, hb, List.find?_singleton, he, beq_self_eq_true, if_true]
  cases s.fresh.2.launchCopy g e l <;> rfl

end

end

/-! ### Releases (R90, R92, R93) -/

section
variable {s : State} {id : Nat} {q : Release} (hq : (s.releases.find? fun q => q.id == id) = some q)
include hq

/-- A release that copies or atomics hold looks again later (R90, R92). -/
theorem exec_releaseCompletion_held (hl : s.copiesLeft q.t q.copies = true ∨ s.atomsLeft q.atoms = true) :
    exec (.releaseCompletion id) s = .next (s.post (.releaseCompletion id)) := by
  have hor : (s.copiesLeft q.t q.copies || s.atomsLeft q.atoms) = true := by rw [Bool.or_eq_true]; exact hl
  show execReleaseCompletion id s = _
  unfold execReleaseCompletion
  simp only [hq, hor, if_true]

section
variable (hc : s.copiesLeft q.t q.copies = false) (ha : s.atomsLeft q.atoms = false)
include hc ha

/-- A release on a phaser counts the signal that its thread owed (R90). -/
theorem exec_releaseCompletion_phaser {pk di ix : Nat} (ho : q.obj = .ph pk di ix) :
    exec (.releaseCompletion id) s =
      .next ((({ s with releases := s.releases.filter fun y => y.id != id } : State).modPhaser (pk, di, ix) fun y =>
        { y with owed := y.owed - 1, curCarried := joinNat y.curCarried q.carries }).tryComplete (pk, di, ix)) := by
  show execReleaseCompletion id s = _
  unfold execReleaseCompletion
  simp only [hq, hc, ha, ho, Bool.or_self, Bool.false_eq_true, if_false]

/-- A release on a word leaves only its record to take away (R90, R92). -/
theorem exec_releaseCompletion_word {b : Loc} {n : Nat} (ho : q.obj = .word b n) :
    exec (.releaseCompletion id) s = .next { s with releases := s.releases.filter fun y => y.id != id } := by
  show execReleaseCompletion id s = _
  unfold execReleaseCompletion
  simp only [hq, hc, ha, ho, Bool.or_self, Bool.false_eq_true, if_false]

end

end

/-! ### Results that arrive (R83, R212, R216, R377) -/

/-- The answer of a binding's request goes to its thread. -/
theorem exec_bindAnswer {s : State} {id v : Nat} {q : Request} (hq : (s.reqs.find? fun q => q.id == id && q.answer.isSome) = some q)
    (hv : q.answer = some v) : exec (.bindAnswer id) s = .next (deliverAnswer s q v) := by
  show execBindAnswer id s = _
  unfold execBindAnswer
  simp only [hq, hv, Option.getD_some]

section
variable {s : State} {id : Nat} {q : Request} {loc : Loc} {va n op ord : Nat} {l : AtomLane} {amax : Bool}
  (hq : (s.reqs.find? fun q => q.id == id && q.answer.isSome) = some q) (hk : q.kind = .atomic loc va n op ord [l] amax)
include hq hk

/-- The old value reaches a thread whose context is at its core (R212). -/
theorem exec_atomicResultArrival_present (hp : (s.place q.t.core q.t.gen).isSome = true) :
    exec (.atomicResultArrival id) s = .next
      (let u := (s.modThreadAt { q.t with tid := l.tid } fun t =>
         let t := t.fillOwed id l.old
         { t with known := if l.acq then joinNat t.known q.seen else t.known, lastSeen := if t.lastReq == id && ord == 0 then q.seen else t.lastSeen }).wake
           { q.t with tid := l.tid }
       { u with reqs := u.reqs.filter fun z => z.id != id }) := by
  have haway : (s.place q.t.core q.t.gen).isNone = false := by rw [Option.isNone_eq_false_iff, hp]
  show execAtomicResultArrival id s = _
  unfold execAtomicResultArrival
  simp only [hq, hk, haway, List.foldl_cons, List.foldl_nil, Bool.false_eq_true, if_false]

/-- The old value for a thread whose context is away goes to the log of its save area (R377). -/
theorem exec_atomicResultArrival_away (hp : s.place q.t.core q.t.gen = none) :
    exec (.atomicResultArrival id) s = .next
      (let u := (s.lateResult { q.t with tid := l.tid } id l.old).modSaved q.t.core q.t.gen fun k => k.modWg q.t.wslot fun w => w.modThread l.tid fun t =>
         { t with known := if l.acq then joinNat t.known q.seen else t.known, lastSeen := if t.lastReq == id && ord == 0 then q.seen else t.lastSeen }
       { u with reqs := u.reqs.filter fun z => z.id != id }) := by
  show execAtomicResultArrival id s = _
  unfold execAtomicResultArrival
  simp only [hq, hk, hp, Option.isNone_none, List.foldl_cons, List.foldl_nil, if_true]

end

/-! ### Copies (R89-R91, R234-R244) -/

section
variable {s : State} {c : CoreRef} {id : Nat} {k : Ctx} {e : CopyEntry}

/-- No condition of the gate's step passes over a gated copy that its engine may work on. -/
theorem Works.not_skipped (h : Works s c id k e) (hst : e.st = .gated) (hf : e.f ≠ drainF) :
    (e.st != .gated || e.f == drainF || k.st == .halted || k.bgAway) = false := by
  obtain ⟨-, hk, hb⟩ := h
  simp [hst, hf, hk, hb]

/-- The gate's phase is complete: the thread acquires, and the copy takes its lines (R89, R241). -/
theorem exec_copyGateOpen_ready {u : State} (h : Works s c id k e) (hst : e.st = .gated) (hf : e.f ≠ drainF) (hr : e.ready = true)
    (hu : u = s.modThreadAt { core := c, gen := k.gen, wslot := e.wslot, tid := e.tid } fun t => t.acquired (e.gate.getD 0) e.acq) :
    exec (.copyGateOpen c id) s = .next
      ((({ u with nextId := u.nextId + 1 } : State).modCopy c id fun e => { e with st := .active, own := u.nextId }).post (.copyLineWrite c id)) := by
  show execCopyGateOpen c id s = _
  unfold execCopyGateOpen
  simp only [h.1, h.not_skipped hst hf, hr, ← hu, Bool.false_eq_true, if_false, if_true]
  rfl

/-- A gate that is not open yet keeps its copy; one that is gone ends it with COPY_FAULT 0x40 (R241). -/
theorem exec_copyGateOpen_unready (h : Works s c id k e) (hst : e.st = .gated) (hf : e.f ≠ drainF) (hr : e.ready = false) :
    exec (.copyGateOpen c id) s = .next (if (s.phaserUid e.gate).isNone then s.faultCopy c id 0x40 0 else s) := by
  show execCopyGateOpen c id s = _
  unfold execCopyGateOpen
  simp only [h.1, h.not_skipped hst hf, hr, Bool.false_eq_true, if_false]
  split_ifs <;> rfl

/-- A copy in progress every byte of which is written ends (R234). -/
theorem exec_copyLineWrite_allWritten (h : Works s c id k e) (hst : e.st = .active) (hw : copyTotal e ≤ e.written) :
    exec (.copyLineWrite c id) s = .next (s.endCopy c id) := by
  obtain ⟨he, hk, hb⟩ := h
  show execCopyLineWrite c id s = _
  unfold execCopyLineWrite
  simp [he, hst, hk, hb, hw]

/-- A copy at the end of a chunk lets its context halt (R91). -/
theorem exec_copyLineWrite_halts (h : Works s c id k e) (hst : e.st = .active) (hw : e.written < copyTotal e) (hh : k.st = .halting)
    (hm : s.mayHalt c k e = true) : exec (.copyLineWrite c id) s = .next s := by
  obtain ⟨he, -, hb⟩ := h
  show execCopyLineWrite c id s = _
  unfold execCopyLineWrite
  simp [he, hst, hb, hw, hh, hm]

/-- A piece written is counted down, and the copy ends with its last byte (R242). -/
theorem exec_copyLineWrite_writes {u : State} {n : Nat} (h : Writes s c id k e) (hp : s.copyPiece c k e = (u, .ok n)) :
    exec (.copyLineWrite c id) s = .next (pieceDone u c id k e n) := by
  refine (writes_eq h).trans ?_
  simp only [hp, beq_iff_eq]
  rfl

/-- A fault of a piece ends its copy with the fault's detail (R243). -/
theorem exec_copyLineWrite_faults {u : State} {d a : Nat} (h : Writes s c id k e) (hp : s.copyPiece c k e = (u, .error (.fault d a))) :
    exec (.copyLineWrite c id) s = .next ((u.modCopy c id fun e => { e with detail := d, faddr := a }).endCopy c id) := by
  refine (writes_eq h).trans ?_
  rw [hp]
  rfl

/-- A piece that must wait leaves its copy stuck, and its engine tries again later (R91). -/
theorem exec_copyLineWrite_waits {u : State} (h : Writes s c id k e) (hp : s.copyPiece c k e = (u, .error .wait)) :
    exec (.copyLineWrite c id) s = .next ((u.modCopy c id fun e => { e with stuck := true }).post (.copyLineWrite c id)) := by
  refine (writes_eq h).trans ?_
  rw [hp]

/-- An ended copy goes, with its late report, where it has no fault or no thread to take it; all who wait for it look again (R90, R243). -/
theorem exec_copyCompletion (he : s.copyOf c id = some (k, e)) (hst : e.st = .ended) :
    exec (.copyCompletion c id) s = .next
      (let u := if e.detail != 0 && !e.reported && copyGone k e then s.lateReport c k e else s
       copyFreed (if e.detail == 0 || copyGone k e then u.modCtx c fun k => { k with copies := k.copies.filter fun x => x.id != id } else u) c k e) := by
  show execCopyCompletion c id s = _
  unfold execCopyCompletion
  simp only [he, hst, bne_self_eq_false, Bool.false_eq_true, if_false]
  rfl

end

/-- Settles O48, home by home and result by result. -/
theorem homeSteps : Obligations.HomeSteps := by
  unfold Obligations.HomeSteps
  refine ⟨fun i s t h => ?_, fun i s t h => ?_⟩
  · cases h with
    | perform hq hk hf hn hm => exact exec_atomicHomePerform_performs hq hk hf hn hm
    | homeWaits hq hk hf => exact exec_atomicHomePerform_held hq hk hf
    | lostLine hq hk hf hn hm => exact exec_atomicHomePerform_marked hq hk hf hn hm
    | promotes hq hk hf hn => exact exec_atomicHomePerform_promotes hq hk hf hn
    | promoted => rfl
    | binds hq hk hearly hc hw hg =>
      exact (order_eq hq hearly).trans (congrArg _ (answerBind_bind (grid_of_thread hc hw hg) hk))
    | unbindsNone hq hk hearly hc hw hg hn =>
      exact (order_eq hq hearly).trans (congrArg _ (answerBind_unbind_none (grid_of_thread hc hw hg) hk hn))
    | unbinds hq hk hearly hc hw hg hb he hcopy =>
      exact (order_eq hq hearly).trans (congrArg _ (answerBind_unbind_one (grid_of_thread hc hw hg) hk hb he hcopy))
    | answer hq hv => exact exec_bindAnswer hq hv
    | releaseHeld hq hl => exact exec_releaseCompletion_held hq hl
    | released hq hc ha ho => exact exec_releaseCompletion_phaser hq hc ha ho
    | releasedWord hq hc ha ho => exact exec_releaseCompletion_word hq hc ha ho
  · cases h with
    | one hq hk hp => exact exec_atomicResultArrival_present hq hk hp
    | away hq hk hp => exact exec_atomicResultArrival_away hq hk hp

/-- Settles O49, by what the engine's three steps make of a copy. -/
theorem copySteps : Obligations.CopySteps := by
  unfold Obligations.CopySteps
  intro i s t h
  cases h with
  | opens h hst hf hr hu => exact exec_copyGateOpen_ready h hst hf hr hu
  | shut h hst hf hr hp => rw [exec_copyGateOpen_unready h hst hf hr, hp]; rfl
  | gateGone h hst hf hr hp => rw [exec_copyGateOpen_unready h hst hf hr, hp]; rfl
  | writes h hp => exact exec_copyLineWrite_writes h hp
  | faults h hp => exact exec_copyLineWrite_faults h hp
  | waits h hp => exact exec_copyLineWrite_waits h hp
  | halts h hst hw hh hm => exact exec_copyLineWrite_halts h hst hw hh hm
  | allWritten h hst hw => exact exec_copyLineWrite_allWritten h hst hw
  | completes he hst hd => simp [exec_copyCompletion he hst, hd]
  | keeps he hst hd hg => simp [exec_copyCompletion he hst, hd, hg]
  | late he hst hd hr hg => simp [exec_copyCompletion he hst, hd, hr, hg]

end Sys2Proof.Machine

/-! SUPPORT. Floating-point instructions and conversions: their operations in the terms of their rules, and one lemma per operand form. -/

namespace Sys2Proof.Machine

/-! ### Operations in the terms of their rules (R168, R174) -/

theorem faddR_eq_once (f : Fmt) (m : RMode) (a b : Fp) : faddR f m a b = once f m (Fp.add (m == .rdn) a b) (addNv a b) := rfl

theorem fmulR_eq_once (f : Fmt) (m : RMode) (a b : Fp) : fmulR f m a b = once f m (a.mul b) (mulNv a b) := rfl

theorem ffmaR_eq_once (f : Fmt) (m : RMode) (a b d : Fp) :
    ffmaR f m a b d = once f m (Fp.add (m == .rdn) (a.mul b) d) (mulNv a b ||| addNv (a.mul b) d) :=
  Prod.ext rfl (Nat.or_assoc ..)

theorem packed_eq_halves : packed = halves := rfl

theorem sx32_reg (t : Thread) (i : Nat) : sx32 (t.reg i) = (BitVec.ofNat 32 (t.reg i)).toInt := by
  rw [← sx32_toInt, toNat_reg]

/-! ### The operand forms whose rows read registers as codes -/

/-- A result with flags from D's code, A's and B's. -/
theorem opRound3_row {e : Bool} {d a b : BitVec 6} {f : RMode → Nat → Nat → Nat → Nat × Nat} {F : LaneIn → Nat × Nat}
    (hF : ∀ l, f l.mode (l.ln.t.reg l.d) (l.ln.t.reg l.a) (l.ln.t.reg l.b) = F l) :
    RowRuns ⟨dab d a b, fun l => l.putR (F l)⟩ (opRound3 e d a b f) := by
  obtain rfl := funext hF
  exact row_runs (row := ⟨dab d a b, _⟩) e ⟨fun _ _ => rfl, fun _ => ⟨rfl, rfl⟩⟩ fun _ => rfl

/-- A result with flags from A's code. -/
theorem opRound1_row {e : Bool} {d a : BitVec 6} {f : RMode → Nat → Nat × Nat} {F : LaneIn → Nat × Nat}
    (hF : ∀ l, f l.mode (l.ln.t.reg l.a) = F l) : RowRuns ⟨da d a, fun l => l.putR (F l)⟩ (opRound1 e d a f) := by
  obtain rfl := funext hF
  exact row_runs (row := ⟨da d a, _⟩) e ⟨fun _ _ => rfl, fun _ => ⟨rfl, rfl⟩⟩ fun _ => rfl

/-- A packed result with flags (R168). -/
theorem opPacked_row (e : Bool) (d a b : BitVec 6) (op : RMode → Nat → Nat → Nat → Nat × Nat) :
    RowRuns (rowHalves d a b op) (opRound3 e d a b fun m => packed (op m)) :=
  opRound3_row fun _ => by rw [packed_eq_halves]

/-- A value rounded to an integer and saturated, with its flags (R107). -/
theorem opToInt_row (e : Bool) (d a : BitVec 6) (f : RMode → Nat → Int × Nat) :
    RowRuns ⟨da d a, fun l => (l.put (BitVec.ofInt 32 (f l.mode (l.ln.t.reg l.a)).1)).setFlags (f l.mode (l.ln.t.reg l.a)).2⟩
      (opRound1 e d a fun m c => (wrapInt (f m c).1 32, (f m c).2)) :=
  row_runs (row := ⟨da d a, _⟩) e ⟨fun _ _ => rfl, fun _ => ⟨rfl, rfl⟩⟩ fun l =>
    congrArg (Thread.setFlags · (f l.mode (l.ln.t.reg l.a)).2) (setReg_ofNat l.ln.t l.d _ _ (ofNat_wrapInt (f l.mode (l.ln.t.reg l.a)).1 32))

/-- A result without flags from the codes of A and B. -/
theorem opBin_code_row (e : Bool) (d a b : BitVec 6) (f : Nat → Nat → Nat) :
    RowRuns ⟨dab d a b, fun l => l.ln.t.setReg l.d (f (l.ln.t.reg l.a) (l.ln.t.reg l.b))⟩ (opBin e d a b f) :=
  row_runs (row := ⟨dab d a b, _⟩) e ⟨fun _ _ => rfl, fun _ => ⟨rfl, rfl⟩⟩ fun _ => rfl

/-- A result without flags from A's code. -/
theorem opUn_code_row (e : Bool) (d a : BitVec 6) (f : Nat → Nat) :
    RowRuns ⟨da d a, fun l => l.ln.t.setReg l.d (f (l.ln.t.reg l.a))⟩ (opUn e d a f) :=
  row_runs (row := ⟨da d a, _⟩) e ⟨fun _ _ => rfl, fun _ => ⟨rfl, rfl⟩⟩ fun _ => rfl

/-- A predicate from the codes of A and B. -/
theorem opCmp_code_row (e : Bool) (p : BitVec 3) (a b : BitVec 6) (f : Nat → Nat → Bool) :
    RowRuns ⟨ab a b, fun l => l.ln.t.setP p.toNat (f (l.ln.t.reg l.a) (l.ln.t.reg l.b))⟩ (opCmp e p a b f) :=
  row_runs (row := ⟨ab a b, _⟩) e ⟨fun _ _ => rfl, fun _ => ⟨setP_tid _ _ _, setP_rep _ _ _⟩⟩ fun _ => rfl

/-! ### The rows -/

/-- Each floating-point instruction or conversion acts lane by lane as its row says. -/
theorem floatRow_runs {i : Instr} {row : LaneRow} (h : FloatRow i row) : RowRuns row (exec i) := by
  cases h with
  | faddF32 e d a b => exact opRound3_row (f := fun m _ x y => faddR fp32 m (f32 x) (f32 y)) fun l => faddR_eq_once fp32 l.mode l.fa l.fb
  | fsubF32 e d a b =>
    exact opRound3_row (f := fun m _ x y => faddR fp32 m (f32 x) (f32 y).negate) fun l =>
      faddR_eq_once fp32 l.mode l.fa l.fb.negate
  | fmulF32 e d a b => exact opRound3_row (f := fun m _ x y => fmulR fp32 m (f32 x) (f32 y)) fun l => fmulR_eq_once fp32 l.mode l.fa l.fb
  | ffmaF32 e d a b =>
    exact opRound3_row (f := fun m z x y => ffmaR fp32 m (f32 x) (f32 y) (f32 z)) fun l =>
      ffmaR_eq_once fp32 l.mode l.fa l.fb l.fd
  | fminF32 e d a b => exact opBin_code_row e d a b (fminC fp32)
  | fmaxF32 e d a b => exact opBin_code_row e d a b (fmaxC fp32)
  | fabsF32 e d a => exact opUn_row (f := fun x => if (f32 x).isNan then fp32.nan else x % 2 ^ 31) fabs_word
  | fnegF32 e d a => exact opUn_row (f := fun x => if (f32 x).isNan then fp32.nan else x ^^^ 2 ^ 31) fneg_word
  | frcpF32 e d a => exact opRound1_row (f := fun m c => frcpR m (f32 c)) fun _ => rfl
  | frsqF32 e d a => exact opRound1_row (f := fun m c => frsqR m (f32 c)) fun _ => rfl
  | fsqrF32 e d a => exact opRound1_row (f := fun m c => fsqrR m (f32 c)) fun _ => rfl
  | fex2F32 e d a => exact opRound1_row (f := fun _ c => exp2Code c) fun _ => rfl
  | flg2F32 e d a => exact opRound1_row (f := fun m c => flg2R m (f32 c)) fun _ => rfl
  | fcmpF32 e p c a b => exact opCmp_code_row e p a b (fcmpC c.toNat)
  | fclsF32 e d a => exact opUn_code_row e d a fclassC
  | hadd2F16 e d a b => exact opPacked_row e d a b _
  | hmul2F16 e d a b => exact opPacked_row e d a b _
  | hfma2F16 e d a b => exact opPacked_row e d a b _
  | hmax2F16 e d a b =>
    rw [← packed_eq_halves]
    exact opBin_code_row e d a b fun x y => (packed (fun _ x y => (fmaxC fp16 x y, 0)) 0 x y).1
  | hmin2F16 e d a b =>
    rw [← packed_eq_halves]
    exact opBin_code_row e d a b fun x y => (packed (fun _ x y => (fminC fp16 x y, 0)) 0 x y).1
  | bfma2Bf16 e d a b => exact opPacked_row e d a b _
  | fcvt e d a s t => exact opRound1_row (f := fun m c => (fmtOf t.toNat).round m ((fmtOf s.toNat).decode c)) fun _ => rfl
  | fcviI32 e d a s => exact opToInt_row e d a fun m c => roundInt m (-2147483648) 2147483647 ((fmtOf s.toNat).decode c)
  | fcviN32 e d a s => exact opToInt_row e d a fun m c => roundInt m 0 4294967295 ((fmtOf s.toNat).decode c)
  | icvfI32 e d a t => exact opRound1_row (f := fun m c => (fmtOf t.toNat).round m (Fp.ofInt (sx32 c) 0 false)) fun l => by rw [sx32_reg, LaneIn.ra]
  | icvfN32 e d a t => exact opRound1_row (f := fun m c => (fmtOf t.toNat).round m (Fp.ofInt c 0 false)) fun l => by rw [LaneIn.ra, toNat_reg]

/-- Settles O15: one lemma per operand form of the rows. -/
theorem floatRows : Obligations.FloatRows := by
  unfold Obligations.FloatRows
  intro i row s x h hs
  exact (floatRow_runs h).done hs

end Sys2Proof.Machine

/-! SUPPORT. Encoding: the fields of a word that was put together, what the decoder reads from it, and what its rows read put together again. -/

namespace Sys2Proof

/-!
To decode what `encode` put together, a word is described by the fixed bits of its row and the operands put into them (`LaidOut`). What the
decoder reads from it is then known without the operands' values (`readFld`, `readBits`, `readFlag`), so that every row answers by computation.
-/

/-! ### Fields of a word -/

theorem toNat_bvf (w lo n : Nat) : (bvf w lo n).toNat = fld w lo n := BitVec.toNat_ofNat _ _

theorem toNat_flg (w lo : Nat) : (flg w lo).toNat = fld w lo 1 := by
  unfold flg fld
  rcases Nat.mod_two_eq_zero_or_one (w / 2 ^ lo) with h | h <;> simp [h]

theorem fld_or (a b lo n : Nat) : fld (a ||| b) lo n = fld a lo n ||| fld b lo n := by
  rw [fld, Nat.or_div_two_pow, Nat.or_mod_two_pow]; rfl

theorem fld_shifted (v lo n : Nat) (h : v < 2 ^ n) : fld (v * 2 ^ lo) lo n = v := by
  rw [fld, Nat.mul_div_cancel _ (Nat.two_pow_pos lo), Nat.mod_eq_of_lt h]

/-- A value shifted to one place shows nothing at another. -/
theorem fld_shifted_apart {v lo k lo' n : Nat} (hv : v < 2 ^ k) (h : lo' + n ≤ lo ∨ lo + k ≤ lo') : fld (v * 2 ^ lo) lo' n = 0 := by
  unfold fld
  rcases h with h | h
  · obtain ⟨m, rfl⟩ := Nat.exists_eq_add_of_le h
    rw [pow_add, pow_add, mul_comm, mul_assoc, mul_assoc, Nat.mul_div_cancel_left _ (Nat.two_pow_pos lo'), Nat.mul_mod_right]
  · have hlt : v * 2 ^ lo < 2 ^ lo' :=
      calc v * 2 ^ lo < 2 ^ k * 2 ^ lo := Nat.mul_lt_mul_of_pos_right hv (Nat.two_pow_pos lo)
        _ = 2 ^ (lo + k) := by rw [mul_comm, ← pow_add]
        _ ≤ 2 ^ lo' := Nat.pow_le_pow_right (by norm_num) h
    rw [Nat.div_eq_of_lt hlt, Nat.zero_mod]

/-- A value placed where the word is still zero only sets bits. -/
theorem put_eq_or {w lo k v : Nat} (h : fld w lo k = 0) (hv : v < 2 ^ k) : put w lo v = w ||| v * 2 ^ lo := by
  have hw : w = 2 ^ lo * (2 ^ k * (w / 2 ^ lo / 2 ^ k)) + w % 2 ^ lo := by
    have h1 := Nat.div_add_mod w (2 ^ lo)
    have h2 := Nat.div_add_mod (w / 2 ^ lo) (2 ^ k)
    rw [fld] at h
    rw [h, Nat.add_zero] at h2
    rw [h2, h1]
  have hr := Nat.mod_lt w (Nat.two_pow_pos lo)
  generalize w / 2 ^ lo / 2 ^ k = q at hw
  generalize w % 2 ^ lo = r at hw hr
  subst hw
  calc put (2 ^ lo * (2 ^ k * q) + r) lo v = 2 ^ lo * (2 ^ k * q + v) + r := by unfold put; ring
    _ = 2 ^ lo * (2 ^ k * q ||| v) ||| r := by rw [Nat.two_pow_add_eq_or_of_lt hr, Nat.two_pow_add_eq_or_of_lt hv]
    _ = (2 ^ lo * (2 ^ k * q) ||| 2 ^ lo * v) ||| r := by
      simp only [← Nat.shiftLeft_eq_mul_pow, mul_comm (2 ^ lo), Nat.shiftLeft_or_distrib]
    _ = (2 ^ lo * (2 ^ k * q) + r) ||| v * 2 ^ lo := by rw [Nat.two_pow_add_eq_or_of_lt hr, Nat.or_right_comm, mul_comm v]

theorem fld_put_same {w lo k v : Nat} (h : fld w lo k = 0) (hv : v < 2 ^ k) : fld (put w lo v) lo k = v := by
  rw [put_eq_or h hv, fld_or, h, fld_shifted v lo k hv, Nat.zero_or]

theorem fld_put_apart {w lo k v lo' n : Nat} (h : fld w lo k = 0) (hv : v < 2 ^ k) (ha : lo' + n ≤ lo ∨ lo + k ≤ lo') :
    fld (put w lo v) lo' n = fld w lo' n := by
  rw [put_eq_or h hv, fld_or, fld_shifted_apart hv ha, Nat.or_zero]

theorem fld_le_fld_put {w lo k v : Nat} (h : fld w lo k = 0) (hv : v < 2 ^ k) (lo' n : Nat) :
    fld w lo' n ≤ fld (put w lo v) lo' n := by
  rw [put_eq_or h hv, fld_or]
  exact Nat.left_le_or

theorem flag_of_toNat {a b : Bool} (h : a.toNat = b.toNat) : a = b := by
  revert a b; decide

/-! ### The layout of a word -/

/-- An operand in its place: a field of some bits, or one bit. -/
inductive Operand where
  | bits {n : Nat} (lo : Nat) (v : BitVec n)
  | flag (lo : Nat) (b : Bool)

namespace Operand

def lo : Operand → Nat
  | bits lo _ => lo
  | flag lo _ => lo

def width : Operand → Nat
  | @bits n _ _ => n
  | flag _ _ => 1

def value : Operand → Nat
  | bits _ v => v.toNat
  | flag _ b => b.toNat

/-- A function of the operand's place; it computes whatever the value is. -/
def place {α : Type} (f : Nat → Nat → α) : Operand → α
  | @bits n lo _ => f lo n
  | flag lo _ => f lo 1

theorem place_eq {α : Type} (f : Nat → Nat → α) (p : Operand) : p.place f = f p.lo p.width := by cases p <;> rfl

/-- Whether a field lies apart from the operand's place. -/
def apart (p : Operand) (lo n : Nat) : Bool := p.place fun lo' k => Nat.ble (lo + n) lo' || Nat.ble (lo' + k) lo

/-- A word shows the operand where it was placed. -/
def Shown (w : Nat) : Operand → Prop
  | @bits n lo v => bvf w lo n = v
  | flag lo b => flg w lo = b

theorem value_lt (p : Operand) : p.value < 2 ^ p.width := by
  cases p with
  | bits lo v => exact v.isLt
  | flag lo b => exact b.toNat_lt

theorem apart_iff {p : Operand} {lo n : Nat} : p.apart lo n = true ↔ lo + n ≤ p.lo ∨ p.lo + p.width ≤ lo := by
  simp [apart, place_eq]

theorem shown_of_fld {p : Operand} {w : Nat} (h : fld w p.lo p.width = p.value) : p.Shown w := by
  cases p with
  | bits lo v => exact BitVec.eq_of_toNat_eq ((toNat_bvf _ _ _).trans h)
  | flag lo b => exact flag_of_toNat ((toNat_flg _ _).trans h)

end Operand

/-- A word is laid out: operands put one after the other into the fixed bits `C` of its row. -/
inductive LaidOut (C : Nat) : Nat → List Operand → Prop where
  | bits {w l n} (lo : Nat) (v : BitVec n) : LaidOut C w l → LaidOut C (put w lo v.toNat) (.bits lo v :: l)
  | flag {w l} (lo : Nat) (b : Bool) : LaidOut C w l → LaidOut C (put w lo b.toNat) (.flag lo b :: l)
  | fixed : LaidOut C C []

/-- Whether operands have places of their own, where the fixed bits are zero. -/
def ownPlaces (C : Nat) : List Operand → Bool
  | [] => true
  | p :: l => (p.place fun lo n => fld C lo n == 0 && l.all (·.apart lo n)) && ownPlaces C l

namespace LaidOut

variable {C w : Nat} {l : List Operand}

/-- A laid out word is its last operand put into the word of the others. -/
theorem cons {p : Operand} (h : LaidOut C w (p :: l)) : ∃ w', LaidOut C w' l ∧ w = put w' p.lo p.value := by
  cases h with
  | bits lo v h => exact ⟨_, h, rfl⟩
  | flag lo b h => exact ⟨_, h, rfl⟩

theorem nil (h : LaidOut C w []) : w = C := by cases h; rfl

/-- A field apart from every operand shows the fixed bits. -/
theorem fld_fixed (h : LaidOut C w l) (ok : ownPlaces C l = true) {lo n : Nat} (ha : l.all (·.apart lo n) = true) :
    fld w lo n = fld C lo n := by
  induction l generalizing w lo n with
  | nil => rw [h.nil]
  | cons p l ih =>
    obtain ⟨w', h', rfl⟩ := h.cons
    simp only [ownPlaces, Operand.place_eq, Bool.and_eq_true, beq_iff_eq] at ok
    obtain ⟨⟨h0, hl⟩, ok⟩ := ok
    rw [List.all_cons, Bool.and_eq_true, Operand.apart_iff] at ha
    rw [fld_put_apart ((ih h' ok hl).trans h0) p.value_lt ha.1, ih h' ok ha.2]

/-- Every field is at least that of the fixed bits. -/
theorem fld_le (h : LaidOut C w l) (ok : ownPlaces C l = true) (lo n : Nat) : fld C lo n ≤ fld w lo n := by
  induction l generalizing w with
  | nil => rw [h.nil]
  | cons p l ih =>
    obtain ⟨w', h', rfl⟩ := h.cons
    simp only [ownPlaces, Operand.place_eq, Bool.and_eq_true, beq_iff_eq] at ok
    obtain ⟨⟨h0, hl⟩, ok⟩ := ok
    exact (ih h' ok).trans (fld_le_fld_put ((h'.fld_fixed ok hl).trans h0) p.value_lt lo n)

/-- Every operand shows where it was placed. -/
theorem shown (h : LaidOut C w l) (ok : ownPlaces C l = true) : ∀ p ∈ l, p.Shown w := by
  suffices hf : ∀ p ∈ l, fld w p.lo p.width = p.value from fun p hp => Operand.shown_of_fld (hf p hp)
  induction l generalizing w with
  | nil => simp
  | cons p l ih =>
    obtain ⟨w', h', rfl⟩ := h.cons
    simp only [ownPlaces, Operand.place_eq, Bool.and_eq_true, beq_iff_eq] at ok
    obtain ⟨⟨h0, hl⟩, ok⟩ := ok
    have hz : fld w' p.lo p.width = 0 := (h'.fld_fixed ok hl).trans h0
    rintro q (_ | ⟨_, hq⟩)
    · exact fld_put_same hz p.value_lt
    · have ha := Operand.apart_iff.1 (List.all_eq_true.1 hl q hq)
      rw [fld_put_apart hz p.value_lt (ha.symm.imp id id), ih h' ok q hq]

end LaidOut

/-! ### What the decoder reads from a laid out word -/

/-- A field by the fixed bits: exact apart from the operands, and at least theirs elsewhere. -/
def readFld (C : Nat) (l : List Operand) (f : Nat → Nat → Nat) (lo n : Nat) : Nat :=
  bif l.all (·.apart lo n) then fld C lo n else f lo n - fld C lo n + fld C lo n

/-- A field of bits, as the operand placed there. -/
def readBits (f : (lo n : Nat) → BitVec n) : List Operand → (lo n : Nat) → BitVec n
  | [], lo, n => f lo n
  | .flag _ _ :: l, lo, n => readBits f l lo n
  | @Operand.bits m lo' v :: l, lo, n => if h : m = n ∧ lo' = lo then h.1 ▸ v else readBits f l lo n

/-- One bit, as the flag placed there. -/
def readFlag (f : Nat → Bool) : List Operand → Nat → Bool
  | [], lo => f lo
  | .bits _ _ :: l, lo => readFlag f l lo
  | .flag lo' b :: l, lo => if lo' = lo then b else readFlag f l lo

theorem readFld_eq {C w : Nat} {l : List Operand} (h : LaidOut C w l) (ok : ownPlaces C l = true) : readFld C l (fld w) = fld w := by
  funext lo n
  unfold readFld
  cases ha : l.all (·.apart lo n) with
  | true => exact (h.fld_fixed ok ha).symm
  | false => exact Nat.sub_add_cancel (h.fld_le ok lo n)

theorem readBits_eq {w : Nat} {l : List Operand} (h : ∀ p ∈ l, p.Shown w) : readBits (bvf w) l = bvf w := by
  funext lo n
  induction l with
  | nil => rfl
  | cons p l ih =>
    have ih := ih fun q hq => h q (List.mem_cons_of_mem p hq)
    cases p with
    | flag => exact ih
    | bits lo' v =>
      rw [readBits, ih]
      split_ifs with he
      · obtain ⟨rfl, rfl⟩ := he
        exact (h _ List.mem_cons_self).symm
      · rfl

theorem readFlag_eq {w : Nat} {l : List Operand} (h : ∀ p ∈ l, p.Shown w) : readFlag (flg w) l = flg w := by
  funext lo
  induction l with
  | nil => rfl
  | cons p l ih =>
    have ih := ih fun q hq => h q (List.mem_cons_of_mem p hq)
    cases p with
    | bits => exact ih
    | flag lo' b =>
      rw [readFlag, ih]
      split_ifs with he
      · subst he; exact (h _ List.mem_cons_self).symm
      · rfl

/-- The decoder as a function of the fields, flags and operands it reads, found by unfolding its rows and naming the three reads. -/
def rowReader : { R : Nat → (Nat → Nat → Nat) → (Nat → Bool) → ((lo n : Nat) → BitVec n) → Option Instr //
    ∀ nhx w, decodeRow nhx w = R nhx (fld w) (flg w) (bvf w) } := by
  refine ⟨?_, fun nhx w => ?_⟩
  rotate_left
  · unfold decodeRow decodeMaj00 decodeMaj01 decodeMaj02 decodeMaj03 decodeMaj04 decodeMaj05 decodeMaj06 decodeMaj07 decodeMaj08 decodeMaj09
      decodeMaj0A decodeMaj0B decodeMaj0C decodeMaj0D decodeMaj0E decodeMaj0F decodeMaj10 decodeMaj11 decodeMaj12 decodeMaj13 decodeMaj14
      decodeMaj15 decodeMaj16 decodeMaj17 decodeMaj18 decodeMaj19 decodeMaj1A decodeMaj1B decodeMaj1C decodeMaj1D decodeMaj1E decodeMaj1F
      decodeMaj20 decodeMaj21 decodeMaj22 decodeMaj23 decodeMaj3F
    generalize fld w = f
    generalize flg w = g
    generalize bvf w = b
    exact rfl

/-- A laid out word decodes to `i` when the rows answer `i` on its fixed bits and its operands. These are known where the word is not, so the
rows answer by computation. -/
theorem decodeRow_of_read {C w nhx : Nat} {l : List Operand} {i : Instr} (h : LaidOut C w l) (ok : ownPlaces C l = true)
    (hr : ∀ f g b, rowReader.1 nhx (readFld C l f) (readFlag g l) (readBits b l) = some i) : decodeRow nhx w = some i := by
  rw [rowReader.2, ← readFld_eq h ok, ← readFlag_eq (h.shown ok), ← readBits_eq (h.shown ok), hr]

/-! ### Decoding what was encoded (R118-R136, R139) -/

/-- The rows of `hrep` and `hmod`, as functions of the fields, flags and operands they read. -/
def countRows (f : Nat → Nat → Nat) (g : Nat → Bool) (b : (lo n : Nat) → BitVec n) : Option Instr :=
  if f 0 7 = 0 ∧ f 7 1 = 0 ∧ f 22 3 = 2 ∧ f 31 1 = 0 then some (.hrep (b 14 8) (b 12 2) (b 10 2) (b 8 2)) else
  if f 0 7 = 0 ∧ f 7 9 = 0 ∧ f 22 3 = 3 ∧ f 31 1 = 0 then some (.hmod (g 21) (b 18 3) (b 16 2)) else
  none

/-- A hint word whose kind is past that of `hp` is read by these rows. -/
theorem decodeRow_eq_countRows {w : Nat} (nhx : Nat) (hm : fld w 25 6 = 63) (hk : 2 ≤ fld w 22 3) :
    decodeRow nhx w = countRows (fld w) (flg w) (bvf w) := by
  unfold decodeRow
  rw [hm]
  show decodeMaj3F w = _
  unfold decodeMaj3F
  rw [if_neg (by omega), if_neg (by omega), countRows]

theorem decodeRow_of_countRows {C w nhx : Nat} {l : List Operand} {i : Instr} (h : LaidOut C w l) (ok : ownPlaces C l = true)
    (hm : readFld C l (fld w) 25 6 = 63) (hk : Nat.ble 2 (readFld C l (fld w) 22 3) = true)
    (hr : ∀ f g b, countRows (readFld C l f) (readFlag g l) (readBits b l) = some i) : decodeRow nhx w = some i := by
  rw [readFld_eq h ok] at hm hk
  rw [decodeRow_eq_countRows nhx hm (Nat.le_of_ble_eq_true hk), ← readFld_eq h ok, ← readFlag_eq (h.shown ok), ← readBits_eq (h.shown ok), hr]

/-- The row of an encoded instruction is its own: the rows before it fail on the fixed bits. Before the rows of `hrep` and `hmod` stands that of
`hp`, which reads their operands too and fails only on the kind, and which of the rows of `lim` a word has its `hx` words say (R139). -/
theorem decodeRow_of_encode {i : Instr} {w nhx : Nat} (h : encode i = some w) (hl : ∀ e d k, i = .lim e d k → nhx < 2)
    (hp : ∀ e d k, i = .limB64 e d k → nhx = 2) : decodeRow nhx w = some i := by
  cases i with
  | lim e d k =>
    cases h
    have hn := hl e d k rfl
    interval_cases nhx <;> exact decodeRow_of_read (by repeat constructor) rfl fun _ _ _ => rfl
  | limB64 e d k =>
    cases h
    cases hp e d k rfl
    exact decodeRow_of_read (by repeat constructor) rfl fun _ _ _ => rfl
  | hrep c d a b =>
    cases h
    exact decodeRow_of_countRows (by repeat constructor) rfl rfl rfl fun _ _ _ => rfl
  | hmod r m p =>
    cases h
    exact decodeRow_of_countRows (by repeat constructor) rfl rfl rfl fun _ _ _ => rfl
  | _ => cases h <;> exact decodeRow_of_read (by repeat constructor) rfl fun _ _ _ => rfl

theorem majAssigned_of_decodeRow {nhx w : Nat} {i : Instr} (h : decodeRow nhx w = some i) : majAssigned (fld w 25 6) = true := by
  unfold decodeRow at h
  split at h
  case h_38 => cases h
  all_goals next hm => rw [hm]; rfl

theorem decodeWord_eq_ok {nhx w : Nat} {i : Instr} : decodeWord nhx w = .ok i ↔ decodeRow nhx w = some i ∧ i.Wf := by
  constructor
  · intro h
    unfold decodeWord at h
    split at h
    · cases h
    · split at h
      · cases h
      · next j hj =>
        split at h
        · next hc => cases h; exact ⟨hj, hc⟩
        · cases h
  · rintro ⟨hr, hwf⟩
    have hc : i.check = none := hwf
    simp [decodeWord, majAssigned_of_decodeRow hr, hr, hc]

/-- Settles O2: what the row of a word needs to read is known from the fixed bits and the places of its operands. -/
theorem decodeOfEncode : Obligations.DecodeOfEncode := by
  unfold Obligations.DecodeOfEncode
  exact fun i w nhx hwf h hl hp => decodeWord_eq_ok.2 ⟨decodeRow_of_encode h hl hp, hwf⟩

/-! ### Encoding what was decoded (R120, R122, R147) -/

/-- The bits of a word from `k` up. -/
def above (w k : Nat) : Int := (w / 2 ^ k : Nat)

theorem above_zero (w : Nat) : above w 0 = w := by rw [above, pow_zero, Nat.div_one]

theorem above_top {w : Nat} (h : w < 2 ^ 32) : above w 32 = 0 := by rw [above, Nat.div_eq_of_lt h]; rfl

/-- A field is a difference of what stands above its ends, so a sum of fields that meet telescopes. -/
theorem cast_fld (w lo n : Nat) : (fld w lo n : Int) = above w lo - 2 ^ n * above w (lo + n) := by
  have h := Nat.div_add_mod (w / 2 ^ lo) (2 ^ n)
  rw [Nat.div_div_eq_div_mul, ← pow_add] at h
  unfold above fld
  rw [eq_sub_iff_add_eq']
  exact_mod_cast h

theorem fld_eq_iff (w lo n c : Nat) : fld w lo n = c ↔ above w lo - 2 ^ n * above w (lo + n) = c := by
  rw [← cast_fld, Nat.cast_inj]

theorem cast_put (w lo v : Nat) : (put w lo v : Int) = w + v * 2 ^ lo := by simp [put]

theorem some_eq_of_cast {a b : Nat} (h : (a : Int) = b) : some a = some b := congrArg some (Int.ofNat_inj.1 h)

/-- What a decoder answers for a word encodes to that word. -/
def Encodes (w : Nat) (r : Option Instr) : Prop := ∀ i, r = some i → encode i = some w

theorem encodes_none (w : Nat) : Encodes w none := fun _ h => nomatch h

theorem encodes_some {w : Nat} {i : Instr} (h : encode i = some w) : Encodes w (some i) := by rintro _ ⟨⟩; exact h

theorem encodes_row {w : Nat} {c : Prop} [Decidable c] {i : Instr} {r : Option Instr} (hi : c → encode i = some w) (hr : Encodes w r) :
    Encodes w (if c then some i else r) := by
  split_ifs with hc
  · exact encodes_some (hi hc)
  · exact hr

/-- The rows of the decoder, one after the other: each names the fixed bits and the operands that `encode` puts together again. Written as
differences of `above`, the fields of a row add up to the word. -/
theorem encodes_decodeRow {w : Nat} (nhx : Nat) (hw : above w 32 = 0) : Encodes w (decodeRow nhx w) := by
  have h0 := above_zero w
  unfold decodeRow
  split
  all_goals repeat' refine encodes_row (fun hc => ?_) ?_
  any_goals exact encodes_none w
  any_goals refine encodes_some ?_
  all_goals
    refine some_eq_of_cast ?_
    simp only [cast_put, toNat_bvf, toNat_flg, cast_fld, fld_eq_iff, Nat.reduceAdd] at *
    grind

/-- Settles O3: the fields that a row reads and those that it fixes are the whole word. -/
theorem encodeOfDecode : Obligations.EncodeOfDecode := by
  unfold Obligations.EncodeOfDecode
  intro i w nhx hw h
  obtain ⟨hrow, hwf⟩ := decodeWord_eq_ok.1 h
  exact ⟨encodes_decodeRow nhx (above_top hw) i hrow, hwf⟩

/-! ### Words of the tables and majors without instructions (R120-R136, R147) -/

/-- Settles O1: each word decodes by computation. -/
theorem decodeWordsOfSpec : Obligations.DecodeWordsOfSpec := by
  unfold Obligations.DecodeWordsOfSpec
  refine ⟨?_, ?_, ?_, ?_, ?_, ?_, ?_, ?_⟩ <;> rfl

theorem majAssigned_eq_false {m : Nat} (h1 : 0x24 ≤ m) (h2 : m ≤ 0x3E) : majAssigned m = false := by
  simp only [majAssigned, Bool.or_eq_false_iff, decide_eq_false_iff_not, beq_eq_false_iff_ne]
  omega

/-- Settles O4: the major is the first thing that the decoder looks at. -/
theorem unassignedMajorsRefused : Obligations.UnassignedMajorsRefused := by
  unfold Obligations.UnassignedMajorsRefused
  intro nhx w h1 h2
  exact if_pos (majAssigned_eq_false h1 h2)

end Sys2Proof

/-! SUPPORT. Instructions of every kind: the integer instructions and their iterations under `hrep`, atomics, hint words and the targets of
branches. -/

namespace Sys2Proof.Machine

open State

/-! ### The arithmetic of the integer rows (R164-R166) -/

theorem ofNat_toNat_word (x : Word) : BitVec.ofNat 32 x.toNat = x := by rw [BitVec.ofNat_toNat, BitVec.setWidth_eq]

theorem min_signed (x y : Word) : BitVec.ofNat 32 (if sx32 x.toNat ≤ sx32 y.toNat then x.toNat else y.toNat) = if y.slt x then y else x := by
  rw [ite_lt_le, sx32_toInt, sx32_toInt, apply_ite (BitVec.ofNat 32), ofNat_toNat_word, ofNat_toNat_word]
  simp only [BitVec.slt, decide_eq_true_eq]

theorem min_unsigned (x y : Word) : BitVec.ofNat 32 (min x.toNat y.toNat) = if y.ult x then y else x := by
  simp only [BitVec.ult, decide_eq_true_eq]
  split_ifs with h
  · rw [Nat.min_eq_right h.le, ofNat_toNat_word]
  · rw [Nat.min_eq_left (Nat.le_of_not_lt h), ofNat_toNat_word]

theorem max_unsigned (x y : Word) : BitVec.ofNat 32 (max x.toNat y.toNat) = if x.ult y then y else x := by
  simp only [BitVec.ult, decide_eq_true_eq]
  split_ifs with h
  · rw [Nat.max_eq_right h.le, ofNat_toNat_word]
  · rw [Nat.max_eq_left (Nat.le_of_not_lt h), ofNat_toNat_word]

theorem ofNat_toNat_mul (x y : Word) : BitVec.ofNat 32 (x.toNat * y.toNat) = x * y := by
  rw [BitVec.ofNat_mul, ofNat_toNat_word, ofNat_toNat_word]

theorem ofNat_toNat_mad (z x y : Word) : BitVec.ofNat 32 (x.toNat * y.toNat + z.toNat) = x * y + z := by
  rw [BitVec.ofNat_add, ofNat_toNat_mul, ofNat_toNat_word]

theorem ofNat_neg (x : Word) : BitVec.ofNat 32 (2 ^ 32 - x.toNat) = -x :=
  BitVec.eq_of_toNat_eq (by rw [BitVec.toNat_neg, BitVec.toNat_ofNat])

theorem ofNat_pair_add (x y : DWord) : BitVec.ofNat 64 (x.toNat + y.toNat) = x + y := by
  rw [BitVec.ofNat_add]; simp

theorem add_carry (x y : Word) (p : Bool) : BitVec.ofNat 32 (x.toNat + y.toNat + p.toNat) = x + y + BitVec.ofNat 32 p.toNat := by
  rw [BitVec.ofNat_add, ofNat_toNat_add]

theorem carry_of_sum (x y : Word) (p : Bool) : decide (2 ^ 32 ≤ x.toNat + y.toNat + p.toNat) = BitVec.carry 32 x y p := by
  rw [BitVec.carry, Nat.mod_eq_of_lt x.isLt, Nat.mod_eq_of_lt y.isLt]

theorem sub_borrow (x y : Word) (p : Bool) : BitVec.ofNat 32 (x.toNat + 2 ^ 33 - y.toNat - p.toNat) = x - y - BitVec.ofNat 32 p.toNat := by
  have := x.isLt
  have := y.isLt
  have := p.toNat_lt
  apply BitVec.eq_of_toNat_eq
  rw [BitVec.toNat_sub, BitVec.toNat_sub, BitVec.toNat_ofNat, BitVec.toNat_ofNat, Nat.mod_eq_of_lt (show p.toNat < 2 ^ 32 by omega)]
  omega

/-! ### The operand forms with carries and pairs -/

/-- A result and the carry or borrow in p6, from A, B and p6. -/
theorem opCarry_row (e : Bool) (d a b : BitVec 6) {f : Nat → Nat → Nat → Nat × Bool} {F : Word → Word → Bool → Word}
    {P : Word → Word → Bool → Bool}
    (hF : ∀ x y p, BitVec.ofNat 32 (f x.toNat y.toNat p.toNat).1 = F x y p) (hP : ∀ x y p, (f x.toNat y.toNat p.toNat).2 = P x y p) :
    RowRuns ⟨dab d a b, fun l => (l.put (F l.ra l.rb (l.p 6 false))).setP 6 (P l.ra l.rb (l.p 6 false))⟩ (opCarry e d a b f) :=
  row_runs (row := ⟨dab d a b, _⟩) e ⟨fun _ _ => rfl, fun _ => ⟨setP_tid _ _ _, setP_rep _ _ _⟩⟩ fun l => by
    have hr : f (l.ln.t.reg l.a) (l.ln.t.reg l.b) (l.ln.t.getP 6).toNat = f l.ra.toNat l.rb.toNat (l.p 6 false).toNat := by
      rw [LaneIn.ra, LaneIn.rb, toNat_reg, toNat_reg]; rfl
    show (l.ln.t.setReg l.d (f _ _ _).1).setP 6 (f _ _ _).2 = (l.ln.t.setReg l.d (F _ _ _).toNat).setP 6 (P _ _ _)
    rw [hr, hP, setReg_ofNat _ _ _ _ (hF _ _ _)]

/-- A pair from the pairs A and B. -/
theorem opPair_row {e : Bool} {d a b : BitVec 5} {f : Nat → Nat → Nat} {F : DWord → DWord → DWord}
    (hF : ∀ x y : DWord, BitVec.ofNat 64 (f x.toNat y.toNat) = F x y) :
    RowRuns ⟨pairs d a b, fun l => l.put2 (F l.pa l.pb)⟩ (opPair e d a b f) :=
  span_row (f := fun l => f (l.ln.t.pair l.a) (l.ln.t.pair l.b))
    (fun l => by rw [← hF, LaneIn.pa, LaneIn.pb, toNat_pair, toNat_pair]) fun _ _ => rfl

/-- A pair from the pair A and the register B. -/
theorem opPairReg_row {e : Bool} {d a : BitVec 5} {b : BitVec 6} {f : Nat → Nat → Nat} {F : DWord → Word → DWord}
    (hF : ∀ (x : DWord) (y : Word), BitVec.ofNat 64 (f x.toNat y.toNat) = F x y) :
    RowRuns ⟨⟨2 * d.toNat, 2, 2 * a.toNat, 2, b.toNat, 1⟩, fun l => l.put2 (F l.pa l.rb)⟩ (opPairReg e d a b f) :=
  span_row (f := fun l => f (l.ln.t.pair l.a) (l.ln.t.reg l.b))
    (fun l => by rw [← hF, LaneIn.pa, LaneIn.rb, toNat_pair, toNat_reg]) fun _ _ => rfl

/-! ### The rows and their iterations (R141, R201) -/

/-- Each integer instruction acts lane by lane as its row says. -/
theorem intRow_runs {i : Instr} {row : LaneRow} (h : IntRow i row) : RowRuns row (exec i) := by
  cases h with
  | addI32 e d a b => exact opBin_row (f := (· + ·)) ofNat_toNat_add
  | subI32 e d a b => exact opBin_row (f := fun x y => x + (2 ^ 32 - y)) ofNat_sub32
  | mulI32 e d a b => exact opBin_row (f := (· * ·)) ofNat_toNat_mul
  | addcN32 e d a b =>
    exact opCarry_row (f := fun x y p => (x + y + p, decide (2 ^ 32 ≤ x + y + p))) (F := fun x y p => x + y + BitVec.ofNat 32 p.toNat)
      (P := BitVec.carry 32) e d a b add_carry carry_of_sum
  | subbN32 e d a b =>
    exact opCarry_row (f := fun x y p => (x + 2 ^ 33 - y - p, decide (x < y + p))) (F := fun x y p => x - y - BitVec.ofNat 32 p.toNat)
      (P := fun x y p => decide (x.toNat < y.toNat + p.toNat)) e d a b sub_borrow fun _ _ _ => rfl
  | mulhiI32 e d a b => exact opBin_row (f := fun x y => bitsI (sx32 x * sx32 y) 63 32) mulhi_signed
  | mulhiN32 e d a b => exact opBin_row (f := fun x y => x * y / 2 ^ 32) mulhi_unsigned
  | madI32 e d a b => exact opTer_row (f := fun z x y => x * y + z) ofNat_toNat_mad
  | minI32 e d a b => exact opBin_row (f := fun x y => if sx32 x ≤ sx32 y then x else y) min_signed
  | minN32 e d a b => exact opBin_row (f := min) min_unsigned
  | maxI32 e d a b => exact opBin_row (f := fun x y => if sx32 x ≤ sx32 y then y else x) max_signed
  | maxN32 e d a b => exact opBin_row (f := max) max_unsigned
  | absI32 e d a => exact opUn_row (f := fun x => (sx32 x).natAbs) abs32
  | negI32 e d a => exact opUn_row (f := fun x => 2 ^ 32 - x) ofNat_neg
  | andB32 e d a b => exact opBin_row (f := (· &&& ·)) nat_and
  | orB32 e d a b => exact opBin_row (f := (· ||| ·)) nat_or
  | xorB32 e d a b => exact opBin_row (f := (· ^^^ ·)) nat_xor
  | andnB32 e d a b => exact opBin_row (f := fun x y => x &&& (2 ^ 32 - 1 - y)) nat_andn
  | notB32 e d a => exact opUn_row (f := fun x => 2 ^ 32 - 1 - x) nat_not
  | shlB32 e d a b => exact opBin_row (f := shl32) fun x y => shl x y.toNat
  | shrB32 e d a b => exact opBin_row (f := shr32) fun x y => shr x y.toNat
  | sarI32 e d a b => exact opBin_row (f := sar32) fun x y => sar x y.toNat
  | rolB32 e d a b => exact opBin_row (f := rol32) fun x y => rol x y.toNat
  | bfxN32 e d a b => exact opBin_row (f := bfx false) bfx_unsigned
  | bfxI32 e d a b => exact opBin_row (f := bfx true) bfx_signed
  | bfsB32 e d a b => exact opTer_row (f := bfs) bfs_word
  | clzB32 e d a => exact opUn_row (f := clz32) clz
  | popB32 e d a => exact opUn_row (f := pop32) pop
  | brevB32 e d a => exact opUn_row (f := brev32) brev
  | bpermB32 e d a b => exact opTer_row (f := bperm) bperm_word
  | movB32 e d a => exact opUn_row (f := fun x => x) ofNat_toNat_word
  | cmpI32 e p c a b hc => exact opCmp_row (f := fun x y => condI c.toNat (sx32 x) (sx32 y)) (cond_signed _ hc)
  | cmpN32 e p c a b hc => exact opCmp_row (f := fun x y => condI c.toNat x y) (cond_unsigned _ hc)
  | addI64 e d a b => exact opPair_row (f := (· + ·)) ofNat_pair_add
  | subI64 e d a b => exact opPair_row (f := fun x y => x + (2 ^ 64 - y)) pair_sub
  | shlB64 e d a b => exact opPairReg_row (f := fun x n => if n < 64 then x * 2 ^ n else 0) fun x y => pair_shl x y.toNat
  | shrB64 e d a b => exact opPairReg_row (f := fun x n => if n < 64 then x / 2 ^ n else 0) fun x y => pair_shr x y.toNat

theorem row_runs_of {i : Instr} {row : LaneRow} (h : IntRow i row ∨ ImmRow i row ∨ FloatRow i row) : RowRuns row (exec i) := by
  rcases h with h | h | h
  · exact intRow_runs h
  · exact immRow_runs h
  · exact floatRow_runs h

/-- Settles O18: a row that runs lane by lane runs so in each iteration. -/
theorem repeats : Obligations.Repeats := by
  unfold Obligations.Repeats
  intro i row s x h
  have hrow := row_runs_of h
  exact ⟨fun _ _ _ hs hr => hrow.skip hs hr, fun _ _ hs ha => hrow.iter hs ha⟩

/-! ### Atomics (R133, R207-R212) -/

/-- The atomics are one operation at the lanes' locations. -/
theorem atomicOf_exec {i : Instr} {a : Atomic} (h : atomicOf i = some a) : ∃ e, exec i = execAtomic a.op e a.ord a.la a.fs := by
  cases i with
  | atmAddI32 e | atmAddF32 e | atmMaxI32 e | atmMaxN32 e | atmMinI32 e | atmMinN32 e | atmAmaxF32 e | atmAnd e | atmOr e | atmXor e
  | atmSwp e | atmCasB32 e | atmAddI64 e | atmCasB64 e => cases h; exact ⟨e, rfl⟩
  | _ => cases h

/-- Settles O24: every atomic is `execAtomic`, whose unit `atomic_done` describes. -/
theorem atomics : Obligations.Atomics := by
  unfold Obligations.Atomics
  intro i a s u x h hb hu
  obtain ⟨e, he⟩ := atomicOf_exec h
  rw [he]
  exact atomic_done e hb hu

/-! ### Hint words (R136, R137) -/

theorem execHint_of_accepted {s : State} {x : Iss} {f : Hint → Option Hint} {h : Hint} (hs : Issues s x) (hf : f x.g.hint = some h) :
    execHint f s = .next (s.modGroup x.c x.g.slot fun g => { g with hint := { h with words := h.words + 1 } }) := by
  unfold execHint
  rw [onIssue_eq hs, hf]

/-- Settles O28: each hint has a place of its own in the unit, which is free. -/
theorem hintWords : Obligations.HintWords := by
  unfold Obligations.HintWords
  intro i s x h hs hh
  cases hh with
  | hx v hl =>
    show execHx v s = _
    exact execHint_of_accepted hs (if_pos hl)
  | hp p n hn =>
    show execHp p n s = _
    exact execHint_of_accepted hs (if_pos (Option.isNone_iff_eq_none.2 hn))
  | hrep c d a b hn =>
    show execHrep c d a b s = _
    exact execHint_of_accepted hs (if_pos (Option.isNone_iff_eq_none.2 hn))
  | hmod r m p hn =>
    show execHmod r m p s = _
    exact execHint_of_accepted hs (if_pos (Option.isNone_iff_eq_none.2 hn))

/-! ### Targets of branches (R121, R139) -/

theorem wrapInt_toInt {n : Nat} (v : BitVec n) (m : Nat) : wrapInt v.toInt m = (v.signExtend m).toNat := by
  rw [BitVec.signExtend, ← ofNat_wrapInt, BitVec.toNat_ofNat, Nat.mod_eq_of_lt (wrapInt_lt _ _)]

/-- The immediate of a unit without `hx` words: the field, extended with its sign (R139). -/
theorem simm_no_hx {x : Iss} (h : x.g.hint.hx = []) {n : Nat} (hn : 0 < n) (o : BitVec n) (m : Nat) :
    x.simm o.toNat n m = (o.signExtend m).toNat := by
  simp only [Iss.simm, Iss.ext, h, List.foldl_nil, List.length_nil, Nat.zero_mul, Nat.mul_zero, Nat.zero_add, Nat.mod_eq_of_lt o.isLt]
  rw [signExt_bv o hn, wrapInt_toInt]

theorem toNat_append_add {m n : Nat} (v : BitVec m) (o : BitVec n) : (v ++ o).toNat = v.toNat * 2 ^ n + o.toNat := by
  rw [BitVec.toNat_append, ← Nat.shiftLeft_add_eq_or_of_lt o.isLt, Nat.shiftLeft_eq]

theorem ofNat_append (k : Nat) {m n : Nat} (o : BitVec n) : BitVec.ofNat (m + n) (k * 2 ^ n + o.toNat) = BitVec.ofNat m k ++ o := by
  apply BitVec.eq_of_toNat_eq
  rw [toNat_append_add, BitVec.toNat_ofNat, BitVec.toNat_ofNat, mul_comm, pow_add, mul_comm (2 ^ m), Nat.mod_mul, Nat.mul_add_mod,
    Nat.mod_eq_of_lt o.isLt, Nat.mul_add_div (Nat.two_pow_pos n), Nat.div_eq_of_lt o.isLt, Nat.add_zero, Nat.add_comm, mul_comm]

/-- The immediate of a unit with one `hx` word: that word and the field behind it, extended with their sign (R139). -/
theorem simm_one_hx {x : Iss} {k : Nat} (h : x.g.hint.hx = [k]) {n : Nat} (o : BitVec n) (m : Nat) :
    x.simm o.toNat n m = ((BitVec.ofNat 22 k ++ o).signExtend m).toNat := by
  simp only [Iss.simm, Iss.ext, h, List.foldl_cons, List.foldl_nil, List.length_singleton, Nat.zero_mul, Nat.mul_one, Nat.zero_add,
    Nat.mod_eq_of_lt o.isLt]
  rw [signExt_ofNat _ _ (by omega), wrapInt_toInt, ofNat_append]

/-- Settles O29: an offset behind one `hx` word is the value of that word and the field behind it, joined. -/
theorem branchTargets : Obligations.BranchTargets := by
  unfold Obligations.BranchTargets
  intro x n o hn _ hl
  have ht : ∀ v : BitVec 64, (x.tpc + 4 * v.toNat) % 2 ^ 64 = (BitVec.ofNat 64 x.tpc + 4 * v).toNat := fun v => by
    simp [BitVec.toNat_add, BitVec.toNat_mul]
  unfold targetOf
  match hx : x.g.hint.hx, hl with
  | [], _ => simp only [target, simm_no_hx hx hn]; exact ht _
  | [k], _ => simp only [target, simm_one_hx hx]; exact ht _

end Sys2Proof.Machine

/-! SUPPORT. Scalar instructions: the integer instructions, the quantisers, predicates, selection and special registers, and the fences. -/

namespace Sys2Proof.Machine

open State

/-- Settles O13: one lemma per operand form of the rows. -/
theorem integerRows : Obligations.IntegerRows := by
  unfold Obligations.IntegerRows
  intro i row s x h hs
  exact (intRow_runs h).done hs

/-! ### Instructions that read more than their own lane -/

/-- A unit whose active lanes each act as a row says, where that holds of the lanes of this unit only: they may read the group, the core's
context and the package's clock, which the lanes before them leave as they were. -/
theorem row_done_in {s : State} {x : Iss} {row : LaneRow} {f : LaneFn} (e : Bool) (h : LaneUnit s x row.fs) (hr : LanePure row.res)
    (hf : ∀ u ths i th, OnCore x.c s u → i ∈ x.active → x.w.thread i = some th →
      f u ((laneFirst x row.fs i th).after ths) = (u, .ok (row.res ((laneFirst x row.fs i th).after ths)))) :
    ∃ t, execLanes e row.fs f s = .next t ∧ LanesDone x (fun i th => row.res (laneFirst x row.fs i th)) s t :=
  lanes_done_of e h ⟨fun u ths i th hu hi ht => (hf u ths i th hu hi ht).trans (by rw [LaneIn.after, hr.threads]),
    (hr.laneGives s x fun _ _ => rfl).keeps⟩

/-! ### The quantisers (R175-R181) -/

theorem bits_7_0 (n : Nat) : bits n 7 0 = n % 256 := by simp [bits]

theorem bits_15_8 (n : Nat) : bits n 15 8 = n / 256 % 256 := rfl

theorem bits_27_8 (n : Nat) : bits n 27 8 = n / 256 % 2 ^ 20 := rfl

/-- The low half of B above the low half of A (R180). -/
theorem pack_low_halves (v w : Word) :
    BitVec.ofNat 32 (w.toNat % 2 ^ 16 * 2 ^ 16 + v.toNat % 2 ^ 16) = (w.extractLsb' 0 16 ++ v.extractLsb' 0 16 : Word) := by
  apply BitVec.eq_of_toNat_eq
  rw [toNat_append_add, BitVec.extractLsb'_toNat, BitVec.extractLsb'_toNat, BitVec.toNat_ofNat, Nat.shiftRight_zero, Nat.shiftRight_zero]
  exact Nat.mod_eq_of_lt (by omega)

/-- A code with flags from what the lane itself holds. -/
theorem putR_row {e : Bool} {fs : Fields} {f F : LaneIn → Nat × Nat} (hp : ∀ l ths, F (LaneIn.after l ths) = F l) (hF : ∀ l, f l = F l) :
    RowRuns ⟨fs, fun l => l.putR (F l)⟩ (execLanes e fs (laneOk fun l => (l.ln.t.setReg l.d (f l).1).setFlags (f l).2)) := by
  obtain rfl := funext hF
  refine row_runs (row := ⟨fs, _⟩) e ⟨fun l ths => ?_, fun _ => ⟨rfl, rfl⟩⟩ fun _ => rfl
  exact congrArg (LaneIn.putR l) (hp l ths)

/-- Each quantiser, in a complete group where it is an instruction on the whole group, acts lane by lane as its row says. -/
theorem quantRow_done {i : Instr} {row : LaneRow} {s : State} {x : Iss} (h : QuantRow x i row) (hs : LaneUnit s x row.fs) :
    ∃ t, exec i s = .next t ∧ LanesDone x (fun n th => row.res (laneFirst x row.fs n th)) s t := by
  cases h with
  | qcv e d a t =>
    refine RowRuns.done (putR_row (fun _ _ => rfl) fun l => ?_) hs
    simp only [bits_7_0, bits_15_8]; rfl
  | qcvs e d a t =>
    refine RowRuns.done (putR_row (fun _ _ => rfl) fun l => ?_) hs
    simp only [bits_7_0, bits_15_8, bits_27_8, f32, LaneIn.fa, Nat.add_zero, Nat.reducePow]
  | qdq e d a s t =>
    refine RowRuns.done (putR_row (fun _ _ => rfl) fun l => ?_) hs
    simp only [bits_7_0, bits_15_8]; rfl
  | qsc e d a t hm ha =>
    refine row_done_in e hs ⟨fun _ _ => rfl, fun _ => ⟨rfl, rfl⟩⟩ fun u ths i th _ _ _ => ?_
    simp only [groupRegs_32 (l := (laneFirst x (da d a) i th).after ths) hm ha]
    rfl
  | qox e d a b hm ha =>
    refine row_done_in e hs ⟨fun _ _ => rfl, fun _ => ⟨rfl, rfl⟩⟩ fun u ths i th _ _ _ => ?_
    simp only [groupRegs_32 (l := (laneFirst x (dab d a b) i th).after ths) hm ha, bits_7_0]
    rfl
  | pkh e d a b => exact (opBin_row (f := fun v w => w % 2 ^ 16 * 2 ^ 16 + v % 2 ^ 16) pack_low_halves).done hs

/-- Settles O16: the conversions and `pkh` read their own lane, the instructions on whole groups the group as it was before the unit. -/
theorem quantiserRows : Obligations.QuantiserRows := by
  unfold Obligations.QuantiserRows
  intro i row s x h hs
  exact quantRow_done h hs

/-! ### Predicates, selection and special registers (R182-R186) -/

/-- A predicate from two predicates, each read negated where it is so written. -/
theorem opPred_row {e : Bool} {d a b : BitVec 3} {m n : Bool} {f : Bool → Bool → Bool} {F : LaneIn → Bool} (hF : ∀ l, f (l.p a m) (l.p b n) = F l) :
    RowRuns (rowPred d F) (opPred e d a m b n f) := by
  obtain rfl := funext hF
  refine row_runs (row := ⟨{}, _⟩) e ⟨fun _ _ => rfl, fun _ => ⟨setP_tid _ _ _, setP_rep _ _ _⟩⟩ fun l => ?_
  rw [lane_p, lane_p]

/-- `sel` writes A or B, by a predicate that is read negated where it is so written (R184). -/
theorem sel_row (e : Bool) (d a b : BitVec 6) (n : Bool) (q : BitVec 3) :
    RowRuns ⟨dab d a b, fun l => l.put (if l.p q n then l.ra else l.rb)⟩ (exec (.sel e d a b n q)) := by
  refine row_runs (row := ⟨dab d a b, _⟩) e ⟨fun _ _ => rfl, fun _ => ⟨rfl, rfl⟩⟩ fun l => setReg_ofNat _ _ _ _ ?_
  rw [lane_p, apply_ite (BitVec.ofNat 32)]
  rfl

/-- The predicates as a byte, p7 reading 1, and the predicates from the low bits of A (R183). -/
theorem vmovpToReg_row (e : Bool) (d : BitVec 6) : RowRuns (rowRead d fun l => 128 + l.ln.t.pred % 128) (exec (.vmovpToReg e d)) :=
  row_runs (row := rowRead d _) e ⟨fun _ _ => rfl, fun _ => ⟨rfl, rfl⟩⟩ fun _ => rfl

theorem vmovpToPreds_row (e : Bool) (a : BitVec 6) :
    RowRuns ⟨{ a := a.toNat, an := 1 }, fun l => { l.ln.t with pred := l.ln.t.reg l.a % 128 }⟩ (exec (.vmovpToPreds e a)) :=
  row_runs (row := ⟨_, fun l => { l.ln.t with pred := l.ln.t.reg l.a % 128 }⟩) e ⟨fun _ _ => rfl, fun _ => ⟨rfl, rfl⟩⟩ fun _ => rfl

/-- `flagsclr` reads FLAGS and clears it (R185). -/
theorem flagsclr_row (e : Bool) (d : BitVec 6) :
    RowRuns ⟨dOnly d, fun l => { l.ln.t.setReg l.d l.ln.t.flags with flags := 0 }⟩ (exec (.sreg e d 0x011)) :=
  row_runs (row := ⟨dOnly d, _⟩) e ⟨fun _ _ => rfl, fun _ => ⟨rfl, rfl⟩⟩ fun _ => rfl

/-! ### Fences (R94, R212, R217) -/

/-- A release fence is remembered for the thread's next atomic. -/
theorem fenceRel_row (e : Bool) : RowRuns ⟨{}, fun l => { l.ln.t with fenceRel := true }⟩ (exec (.fenceRel e)) :=
  row_runs (row := ⟨{}, fun l => { l.ln.t with fenceRel := true }⟩) e ⟨fun _ _ => rfl, fun _ => ⟨rfl, rfl⟩⟩ fun _ => rfl

theorem OnCore.pkg {c : CoreRef} {s t : State} (h : OnCore c s t) (p : Nat) : t.pkg p = s.pkg p := by
  rw [h.rest]; rfl

/-- The copies that a fence sees in one of its unit's lanes are those of the issuing group's context. -/
theorem OnCore.ctxAt_copies {s u : State} {x : Iss} (hs : Issues s x) (hu : OnCore x.c s u) :
    ∃ k, u.ctxAt x.c x.k.gen = some k ∧ k.copies = x.k.copies := by
  obtain ⟨-, hk, -, -, -⟩ := issuing_spec hs.1
  obtain ⟨k, hk', hsched⟩ := hu.ctx x.k hk
  exact ⟨k, place_active hk' (by rw [hsched]), by rw [hsched]⟩

/-- One lane of an acquire fence acts where the merge that is the thread's last atomic, if it is one, is over. -/
theorem fenceLane_ok {f : Thread → Thread} {s : State} {l : LaneIn} {k : Ctx} (hk : s.ctxAt l.ln.r.core l.ln.r.gen = some k)
    (hover : ∀ c ∈ k.copies, c.id = l.ln.t.lastReq → c.st = .ended) : fenceLane f s l = (s, .ok (f l.ln.t)) := by
  have hnone : (k.copies.any fun c => c.id == l.ln.t.lastReq && c.st != .ended) = false := by
    rw [List.any_eq_false]
    intro c hc hb
    rw [Bool.and_eq_true, beq_iff_eq, bne_iff_ne] at hb
    exact hb.2 (hover c hc hb.1)
  unfold fenceLane
  simp only [hk, hnone, Bool.false_eq_true, if_false]

/-- An acquire fence acts at once where no active lane's last atomic is the merge of a drain under way. -/
theorem fence_done {s : State} {x : Iss} {f : Thread → Thread} (e : Bool) (hs : LaneUnit s x {}) (hl : LastPerformed x)
    (hf : ∀ th, (f th).tid = th.tid ∧ (f th).rep = th.rep) :
    ∃ t, execLanes e {} (fenceLane f) s = .next t ∧ LanesDone x (fun _ th => f th) s t := by
  refine row_done_in (row := ⟨{}, fun l => f l.ln.t⟩) e hs ⟨fun _ _ => rfl, fun l => hf l.ln.t⟩ fun u ths i th hu hi ht => ?_
  obtain ⟨k, hk, hc⟩ := hu.ctxAt_copies hs.issues
  exact fenceLane_ok hk (hc ▸ hl i hi th ht)

/-- Each predicate instruction, read and fence that acts at once acts lane by lane as its row says. -/
theorem miscRow_done {i : Instr} {row : LaneRow} {s : State} {x : Iss} (h : MiscRow s x i row) (hs : LaneUnit s x row.fs) :
    ∃ t, exec i s = .next t ∧ LanesDone x (fun n th => row.res (laneFirst x row.fs n th)) s t := by
  cases h with
  | pand e d a m b n => exact (opPred_row (f := and) fun _ => rfl).done hs
  | por e d a m b n => exact (opPred_row (f := or) fun _ => rfl).done hs
  | pxor e d a m b n => exact (opPred_row (f := fun p q => p != q) fun l => by cases l.p a m <;> cases l.p b n <;> rfl).done hs
  | pnot e d a m => exact (opPred_row (b := a) (n := m) (f := fun p _ => !p) fun _ => rfl).done hs
  | pmov e d a m => exact (opPred_row (b := a) (n := m) (f := fun p _ => p) fun _ => rfl).done hs
  | vmovpToReg e d => exact (vmovpToReg_row e d).done hs
  | vmovpToPreds e a => exact (vmovpToPreds_row e a).done hs
  | flagsclr e d => exact (flagsclr_row e d).done hs
  | tid e d | wgsize e d | blkx e d | blky e d | blkz e d | blk e d | gx e d | gy e d | gz e d | nbm e d | nbn e d | lane e d | lanes e d
  | actmask e d | flags e d | c e d | allot e d | links e d | core e d | die e d | pkg e d | sched e d =>
    exact (sreg_row _ (by decide) (fun _ => rfl) fun _ _ => rfl).done hs
  | tnow e d =>
    refine row_done_in e hs ⟨fun _ _ => rfl, fun _ => ⟨rfl, rfl⟩⟩ fun u ths i th hu _ _ => ?_
    rw [hu.pkg]
    exact congrArg (fun t => (u, LaneRes.ok t)) (tnow_regs _ _ _ _)
  | fenceAcq e hl => exact fence_done (f := fenceAcquire) e hs hl fun _ => ⟨rfl, rfl⟩
  | fenceRel e => exact (fenceRel_row e).done hs
  | fenceAr e hl => exact fence_done (f := fun t => { fenceAcquire t with fenceRel := true }) e hs hl fun _ => ⟨rfl, rfl⟩
  | sel e d a b n q => exact (sel_row e d a b n q).done hs

/-- Settles O17: one lemma per operand form of the rows; a fence and `tnow` read what the unit's lanes leave as it was. -/
theorem predicateAndReadRows : Obligations.PredicateAndReadRows := by
  unfold Obligations.PredicateAndReadRows
  intro i row s x h hs
  exact miscRow_done h hs

end Sys2Proof.Machine

/-! SUPPORT. `trap` and `tslp`: the traps of a unit whose lanes all raise SOFTWARE, and a group that is put to sleep. -/

namespace Sys2Proof.Machine

open State

/-! ### `trap` (R197) -/

/-- A lane of `trap` only notes SOFTWARE with the instruction's value. -/
theorem laneStep_software {x : Iss} {s : State} {i d : Nat} {l : LaneIn} (h1 : s.laneIn x {} i = some l) (h2 : l.ln.t.pend ≠ .done)
    (hr : x.g.hint.hrep = none) (qs : List TrapReq) :
    laneStep x {} (fun s _ => (s, .stop (.trap .software d 0))) { s := s, traps := qs } i = { s := s, traps := qs ++ [softTrap x d i] } := by
  have h3 : ({} : Fields).within l.ln.t.c x.g.hint.hrep = true := by rw [hr]; rfl
  unfold laneStep
  simp only [h1, beq_eq_false_iff_ne.mpr h2, h3, Bool.false_eq_true, if_false, Bool.not_true]
  rfl

/-- Settles O34: every active lane only notes its trap, so that the unit's traps are taken from the state in which it issued; the fault record's
detail and PC are the trap's own. -/
theorem softwareTraps : Obligations.SoftwareTraps := by
  unfold Obligations.SoftwareTraps
  intro e d s x hs hr hl hw
  refine ⟨?_, fun i _ => ⟨rfl, rfl, rfl⟩⟩
  show execLanes e {} _ s = _
  unfold execLanes
  rw [onIssue_eq hs, perLane_allTrapped e hr (fun _ => rfl) (fun i hi qs => ?_) hw]
  obtain ⟨th, ht, hp⟩ := hl i hi
  obtain ⟨l, h1, rfl⟩ := issues_laneIn hs {} ht
  exact laneStep_software h1 hp hr qs

/-! ### `tslp` (R198, R308) -/

theorem mem_agenda_postOnce (s : State) (i : Instr) : i ∈ (s.postOnce i).agenda := by
  unfold postOnce
  split
  · assumption
  · exact List.mem_append_right _ (List.mem_singleton_self i)

/-- A group of a core after it has been changed. -/
theorem group_modGroup_same (s : State) (c : CoreRef) (slot : Nat) (f : Group → Group) (hf : ∀ g, (f g).slot = g.slot := by exact fun _ => rfl) :
    (((s.modGroup c slot f).core c).ctx.bind fun k => k.group slot) = ((s.core c).ctx.bind fun k => k.group slot).map f := by
  unfold State.modGroup
  rw [core_modCtx_ctx]
  cases (s.core c).ctx with
  | none => rfl
  | some k => simpa using Ctx.group_modGroup k slot slot f hf

theorem OnCore.modGroup (c : CoreRef) (s : State) (slot : Nat) (f : Group → Group) : OnCore c s (s.modGroup c slot f) :=
  OnCore.modCtx c s (fun k => k.modGroup slot f) fun _ => rfl

/-- A group that waits between runs: its members' windows close, and it waits for the time given. -/
theorem waitGroup_spec (s : State) (c : CoreRef) (slot : Nat) (why : Stall) (d : Nat) {g : Group}
    (hg : ((s.core c).ctx.bind fun k => k.group slot) = some g) :
    OnCore c s (s.waitGroup c slot why d) ∧
    (∀ w, w ≠ g.wslot → (s.waitGroup c slot why d).wg c w = s.wg c w) ∧
    (∀ w, s.wg c g.wslot = some w → ∃ ths, (s.waitGroup c slot why d).wg c g.wslot = some { w with threads := ths }) ∧
    (∀ i, (s.waitGroup c slot why d).thread c g.wslot i =
      if i ∈ g.members then (s.thread c g.wslot i).map fun th => { th with owed := th.owed.map Owed.closed } else s.thread c g.wslot i) ∧
    (∃ g', (((s.waitGroup c slot why d).core c).ctx.bind fun k => k.group slot) = some g' ∧ g'.members = g.members ∧ g'.wslot = g.wslot ∧
      (g'.st = .waiting ∨ g'.st = .pWaiting) ∧ g'.stall = why ∧ g'.left = d ∧ g'.elapsed = 0) := by
  obtain ⟨k, hk, hg⟩ := Option.bind_eq_some_iff.1 hg
  obtain ⟨hf, hwgs, hwg, hth, g', n, hg', hsame, -⟩ := endRun_spec s c slot hk hg
  have hw : ∀ w, (s.waitGroup c slot why d).wg c w = (s.endRun c slot).wg c w := fun w => State.wg_modGroup _ _ _ _ _
  have hm : g'.members = g.members := by rw [hsame]
  have hws : g'.wslot = g.wslot := by rw [hsame]
  refine ⟨hf.trans (OnCore.modGroup _ _ _ _), fun w hne => by rw [hw, hwgs w hne], fun w h => by rw [hw]; exact hwg w h,
    fun i => by rw [thread_bind, hw, ← thread_bind, hth], _,
    (group_modGroup_same (s.endRun c slot) c slot _).trans (congrArg (Option.map _) hg'), hm, hws, ?_, rfl, rfl, rfl⟩
  dsimp only
  split_ifs
  · exact .inr rfl
  · exact .inl rfl

/-- A sleeper's thread, which stands at its unit again (R308). -/
def Thread.atUnit (x : Iss) (th : Thread) : Thread := { th with pc := x.upc }

/-- The members of the group of a `tslp` back at their unit. -/
def membersAtUnit (x : Iss) (t : State) : State := x.g.members.foldl (fun s i => s.modThread x.c x.g.wslot i (Thread.atUnit x)) t

/-- The group of a `tslp` put to sleep, once its unit is over. -/
def asleep (x : Iss) (d : Nat) (t : State) : State :=
  (((membersAtUnit x t).waitGroup x.c x.g.slot .sleep d).modGroup x.c x.g.slot fun g => { g with hint := { words := x.g.hint.words } }).postOnce
    (.tslpExpiry x.c x.g.slot)

/-- The members back at their unit: no other thread has changed, and the group stands. -/
theorem membersAtUnit_spec (x : Iss) (t : State) :
    OnCore x.c t (membersAtUnit x t) ∧
    (∀ w, w ≠ x.g.wslot → (membersAtUnit x t).wg x.c w = t.wg x.c w) ∧
    (∀ w, t.wg x.c x.g.wslot = some w → ∃ ths, (membersAtUnit x t).wg x.c x.g.wslot = some { w with threads := ths }) ∧
    (∀ i, (membersAtUnit x t).thread x.c x.g.wslot i =
      if i ∈ x.g.members then (t.thread x.c x.g.wslot i).map (Thread.atUnit x) else t.thread x.c x.g.wslot i) ∧
    (((membersAtUnit x t).core x.c).ctx.bind fun k => k.group x.g.slot) = (t.core x.c).ctx.bind fun k => k.group x.g.slot :=
  ⟨foldl_modThread_onCore _ _ _ _ _, fun _ hne => wg_foldl_modThread _ _ _ _ hne _ _, fun _ h => wg_foldl_modThread_self _ _ _ _ _ _ h,
    fun i => thread_foldl_modThread _ _ (Thread.atUnit x) (fun _ => rfl) (fun _ => rfl) i _ _, group_foldl_modThread _ _ _ _ _ _⟩

/-- A unit without effect leaves the issuing group in its slot. -/
theorem pass_group {s : State} {x : Iss} (h : Issues s x) (e stop : Bool) :
    ∃ g, ((((s.advance x []).endUnit x e stop .none).core x.c).ctx.bind fun k => k.group x.g.slot) = some g ∧ g.members = x.g.members ∧
      g.wslot = x.g.wslot ∧ g.age = x.g.age := by
  obtain ⟨-, hk, hg, -, -⟩ := issuing_spec h.1
  obtain ⟨hf, -, hwg, -, hga⟩ := advance_spec s x
  obtain ⟨k, hk', -⟩ := hf.ctx _ hk
  rw [hk, hk', Option.bind_some, Option.bind_some, hg] at hga
  obtain ⟨ths, hw⟩ := hwg _ h.wg
  obtain ⟨-, -, -, -, -, g, hg', hm, hws, hage, -⟩ := endUnit_spec e stop hk' hga rfl rfl hw
  exact ⟨g, hg', hm, hws, hage⟩

/-- A `tslp` whose active lanes' registers all lie in their allotments passes where nobody asks for time, and puts its group to sleep
otherwise. -/
theorem exec_tslp {e : Bool} {a : BitVec 6} {s : State} {x : Iss} (h : Issues s x)
    (hr : ∀ i ∈ x.active, ∀ th, x.w.thread i = some th → a.toNat < th.c) :
    exec (.tslp e a) s = .next (if sleepOf x a.toNat = 0 then (s.advance x []).endUnit x e true .none
      else asleep x (sleepOf x a.toNat) ((s.advance x []).endUnit x e true .none)) := by
  obtain ⟨g, hg, hm, -, hage⟩ := pass_group h e true
  refine (onIssue_eq h _).trans (congrArg _ ?_)
  extract_lets traps d
  have htraps : traps = [] := List.filter_eq_nil_iff.2 fun i hi => by
    cases ht : x.w.thread i with
    | none => simp
    | some th => simpa using hr i hi th ht
  have hd : d = sleepOf x a.toNat := by simp [d, htraps, sleepOf]
  clear_value traps d
  subst htraps hd
  simp only [List.map_nil, withTraps_nil, hg, hage, hm]
  by_cases h0 : sleepOf x a.toNat = 0
  · simp [h0]
  · rw [if_neg (by simp [h0]), if_neg h0]
    rfl

/-- A group put to sleep after a unit without effect. -/
theorem sleeps_asleep {s t : State} {x : Iss} (d : Nat) (h : Issues s x) (hd : UnitDone x s t) : Sleeps x d s (asleep x d t) := by
  obtain ⟨g, hg, hm, hws, -⟩ := hd.group
  obtain ⟨hf1, hwgs1, hwg1, hth1, hg1⟩ := membersAtUnit_spec x t
  obtain ⟨hf2, hwgs2, hwg2, hth2, g', hg2, hm', hws', hst⟩ := waitGroup_spec (membersAtUnit x t) x.c x.g.slot .sleep d (hg1.trans hg)
  rw [hws] at hwgs2 hwg2 hth2
  rw [hm] at hth2
  have hwg3 : ∀ w, (asleep x d t).wg x.c w = ((membersAtUnit x t).waitGroup x.c x.g.slot .sleep d).wg x.c w := fun w =>
    ((Posts.postOnce _ _).wg _ _).trans (State.wg_modGroup _ _ _ _ _)
  have hth3 : ∀ i, (asleep x d t).thread x.c x.g.wslot i = ((membersAtUnit x t).waitGroup x.c x.g.slot .sleep d).thread x.c x.g.wslot i :=
    fun i => by rw [thread_bind, hwg3, ← thread_bind]
  refine ⟨?frame, fun w hne => ?wgs, ?wg, fun i hi => ?others, fun i hi th ht => ?members, ?group, mem_agenda_postOnce _ _⟩
  case frame => exact (((hd.frame.trans hf1).trans hf2).trans (OnCore.modGroup _ _ _ _)).trans (OnCore.postOnce _ _ _)
  case wgs => rw [hwg3, hwgs2 w hne, hwgs1 w hne, hd.wgs w hne]
  case wg =>
    obtain ⟨_, h0⟩ := hd.wg _ h.wg
    obtain ⟨_, h1⟩ := hwg1 _ h0
    obtain ⟨ths, h2⟩ := hwg2 _ h1
    exact ⟨ths, by rw [hwg3, h2]⟩
  case others => rw [hth3, hth2, if_neg hi, hth1, if_neg hi, hd.threads i hi]
  case members =>
    obtain ⟨_, h1, o, rfl, ho⟩ := hd.members i hi th (by rw [h.thread, ht])
    refine ⟨o.map Owed.closed, ?_, ?_⟩
    · rw [hth3, hth2, if_pos hi, hth1, if_pos hi, h1]
      rfl
    · rw [List.map_map, ← ho]
      rfl
  case group =>
    refine ⟨_, (congrArg (fun y : Core => y.ctx.bind fun k => k.group x.g.slot) (core_postOnce _ _ _)).trans
      ((group_modGroup_same _ x.c x.g.slot _).trans (congrArg (Option.map _) hg2)), hm'.trans hm, hws'.trans hws, hst⟩

/-- Settles O33: without a lane out of range the unit passes, and its group goes to sleep where the longest time is not 0. -/
theorem timedSleep : Obligations.TimedSleep := by
  unfold Obligations.TimedSleep
  intro e a s x h hr
  obtain ⟨hd, hover⟩ := pass_done h e true
  refine ⟨_, exec_tslp h hr, fun h0 => ?_, fun h0 => ?_⟩
  · rw [if_pos h0]
    exact ⟨hd, hover (by simp)⟩
  · rw [if_neg h0]
    exact sleeps_asleep _ h hd

end Sys2Proof.Machine

/-! SUPPORT. Phasers, bindings, drains and copies: what one lane of each instruction does, as its rules relate it or as the state and its
registers alone let it act, and the binding instructions whose lanes ask their home. -/

namespace Sys2Proof.Machine

open State

/-! ### Phasers (R219-R230) -/

section
variable {s : State} {l : LaneIn} {p : Phaser}

/-- A phaser that is not the barrier passes the checks of an instruction that may act on a workgroup's phasers (R226). -/
theorem NamesPh.withPhaser_eq (h : NamesPh s l p) (f : Phaser → State × LaneRes) : withPhaser s l (l.ln.t.reg l.a) false true f = f p :=
  withPhaser_names h.1 (.inl h.2) (.inr rfl)

/-- The phaser of an instruction that may act on the barrier too (R226). -/
theorem withPhaser_any (h : s.phaserOf l.ln (l.ln.t.reg l.a) = some p) (f : Phaser → State × LaneRes) :
    withPhaser s l (l.ln.t.reg l.a) true true f = f p :=
  withPhaser_names h (.inr rfl) (.inr rfl)

/-- A signal that is due and that no copy or atomic holds is counted at once (R90, R224). -/
theorem signalWaits_eq_none {m : PhMember} (hm : p.member l.ln.r = some m) (hdue : phLt p.phase m.sp = false)
    (hfree : s.heldRelease l.ln p.obj = false) : signalWaits s l p = none := by
  unfold signalWaits
  simp only [hm, hdue, hfree, Bool.false_eq_true, if_false]

/-- A wait whose phase has completed has its result at once (R224). -/
theorem waitBegin_over {u : State} {r : Nat} (h : s.beginWait p.key l.ln.r = (u, some r)) :
    waitBegin s l p = (u, .ok { ((nowT u l).setReg l.d r).signalMet l.x.upc with pend := .none }) := by
  unfold waitBegin
  rw [h]

end

/-- Each phaser instruction runs lane by lane, and a lane that acts as `PhLane` says is over (R222-R228). -/
theorem phaser_lanes {i : Instr} (hi : isPhaser i = true) :
    ∃ e f, exec i = execLanes e (phFields i) f ∧ ∀ s l u v, PhLane i s l u v → f s l = (u, .ok v) := by
  cases i with
  | phal e d =>
    refine ⟨e, _, rfl, fun s l u v h => ?_⟩
    cases h with
    | alloc hh hn => simp only [hh, hn]
    | none h =>
      rcases h with h | h <;> simp only [h]
      · rfl
      · cases s.freeHandle l.ln.g.handle <;> rfl
  | phfr e a =>
    refine ⟨e, _, rfl, fun s l u v h => ?_⟩
    cases h with
    | free hp hw => exact withPhaser_names hp.1 (.inl hp.2) (.inl hw)
  | phrg e a b =>
    refine ⟨e, _, rfl, fun s l u v h => ?_⟩
    cases h with
    | register hp h1 h3 hroom =>
      rw [hp.withPhaser_eq, if_neg, if_neg]
      · intro hfull
        rw [Bool.and_eq_true, decide_eq_true_eq, Option.isNone_iff_eq_none] at hfull
        obtain ⟨hnone, hlen⟩ := hfull
        rw [hnone] at hroom
        exact hroom.elim Bool.noConfusion fun h => absurd hlen (Nat.not_le.2 h)
      · simp only [Bool.or_eq_true, beq_iff_eq, decide_eq_true_eq]
        omega
  | phdr e a =>
    refine ⟨e, _, rfl, fun s l u v h => ?_⟩
    cases h with
    | deregister hp => exact hp.withPhaser_eq _
  | phsg e a =>
    refine ⟨e, _, rfl, fun s l u v h => ?_⟩
    cases h with
    | signalled h => simp only [h]
    | signal hp hpend hm hmay hdue hfree =>
      split
      · next r hr => exact absurd hr (hpend r)
      · rw [hp.withPhaser_eq]
        simp only [hmay, signalWaits_eq_none hm hdue hfree, Bool.not_true, Bool.false_eq_true, if_false]
  | phwt e d a =>
    refine ⟨e, _, rfl, fun s l u v h => ?_⟩
    cases h with
    | waited h => simp only [h]
    | wait hp hpend hmay hrep hover =>
      simp only [hpend, hp.withPhaser_eq, hmay, hrep, waitBegin_over hover, Bool.not_true, Bool.false_eq_true, if_false]
  | phsw e d a =>
    refine ⟨e, _, rfl, fun s l u v h => ?_⟩
    cases h with
    | met h => simp only [h]
    | together hp hpend hnew hm hsig hwait hrep hdue hfree harr hq hover =>
      simp only [hpend, withPhaser_any hp, hnew, hsig, hwait, hrep, signalWaits_eq_none hm hdue hfree, harr, hq, waitBegin_over hover,
        Bool.not_true, Bool.not_false, Bool.and_false, Bool.or_self, Bool.false_eq_true, if_false, ite_self]
  | phex e a b =>
    refine ⟨e, _, rfl, fun s l u v h => ?_⟩
    cases h with
    | expect hp hlt => rw [hp.withPhaser_eq, if_neg (by omega)]
  | phqy e d a =>
    refine ⟨e, _, rfl, fun s l u v h => ?_⟩
    cases h with
    | query hp => simp only [withPhaser_any hp, beq_iff_eq]
  | phin e a =>
    refine ⟨e, _, rfl, fun s l u v h => ?_⟩
    cases h with
    | init hp hidle => simp only [hp.withPhaser_eq, hidle, Bool.false_eq_true, if_false]
  | _ => cases hi

/-- A phaser instruction whose lanes act as the rules relate it completes with their effect. -/
theorem phaser_done {i : Instr} {s u : State} {x : Iss} (hi : isPhaser i = true) (h : ActUnit x (phFields i) (PhLane i) s u) :
    ∃ t, exec i s = .next t ∧ (Stands x u → UnitDone x u t) := by
  obtain ⟨e, f, he, hf⟩ := phaser_lanes hi
  rw [he]
  exact act_done h e hf

/-- Settles O25: lanes that may act by the state and their registers act as the rules relate it (`phMay_lane`). -/
theorem phasers : Obligations.Phasers :=
  ⟨fun _ _ _ _ hi h => phaser_done hi h, fun _ _ _ hi h => phaser_done hi (h.act fun _ _ => phMay_lane)⟩

/-! ### Bindings, drains and copies (R213-R218, R231-R234) -/

/-- The binding instructions ask their home and end with its answer; each asks for what its registers give, or its address (R213-R216). -/
theorem binding_lanes {i : Instr} (hi : isBinding i = true) :
    ∃ e first, exec i = execLanes e (syncFields i) (askLane .binding .bindHomeOrder first bindEnd) ∧
      (∀ s l b, bindRegs i l = some b → first s l = bindFirst s l b) ∧
      ∀ s l t, bindRegs i l = none → regionTgt l.ln.r.core.die (l.ln.t.pair l.a) = some t →
        first s l = (s, .ok ((bindLoc l.ln t).map fun k => .unbind (l.ln.t.pair l.a) k)) := by
  cases i with
  | bind e | bindx e =>
    refine ⟨e, _, rfl, fun s l b hb => ?_, fun s l t hb => by cases hb⟩
    cases hb
    rfl
  | unbind e =>
    refine ⟨e, _, rfl, fun s l b hb => (by cases hb), fun s l t _ ht => ?_⟩
    simp only [ht]
  | _ => cases hi

theorem binding_no_drain {i : Instr} (hi : isBinding i = true) : drainSpace i = none := by
  cases i with
  | bind | bindx | unbind => rfl
  | _ => cases hi

theorem binding_no_copy {i : Instr} (hi : isBinding i = true) : copyOp i = none := by
  cases i with
  | bind | bindx | unbind => rfl
  | _ => cases hi

/-- The drains look at the copies to one space (R218). -/
theorem drain_lanes {i : Instr} {sp : Spc} (hi : drainSpace i = some sp) :
    isBinding i = false ∧ copyOp i = none ∧ ∃ e, exec i = execLanes e (syncFields i) (drainLane sp) := by
  cases i with
  | drainL e | drainD e | drainS e | drainG e => cases hi; exact ⟨rfl, rfl, e, rfl⟩
  | _ => cases hi

/-- The copies differ in their subcode and format field (R231). -/
theorem copy_lanes {i : Instr} {sub f z : Nat} (hi : copyOp i = some (sub, f, z)) :
    isBinding i = false ∧ drainSpace i = none ∧ ∃ e, exec i = execLanes e (syncFields i) (copyIssue sub f z) := by
  cases i with
  | cpy e | cpy2 e | cpyg e | cpys e | cpyr e => cases hi; exact ⟨rfl, rfl, e, rfl⟩
  | _ => cases hi

/-- The instructions of this part are of three kinds. -/
theorem isSync_cases {i : Instr} (hi : isSync i = true) :
    isBinding i = true ∨ (∃ sp, drainSpace i = some sp) ∨ ∃ sub f z, copyOp i = some (sub, f, z) := by
  unfold isSync at hi
  rw [Bool.or_eq_true, Bool.or_eq_true, Option.isSome_iff_exists, Option.isSome_iff_exists, or_assoc] at hi
  exact hi.imp_right (Or.imp_right fun ⟨⟨sub, f, z⟩, h⟩ => ⟨sub, f, z, h⟩)

/-- A binding instruction, a drain or a copy whose lanes act as the rules relate it completes with their effect. -/
theorem sync_done {i : Instr} {s u : State} {x : Iss} (hi : isSync i = true) (h : ActUnit x (syncFields i) (SyncLane i) s u) :
    ∃ t, exec i s = .next t ∧ (Stands x u → UnitDone x u t) := by
  obtain hb | ⟨sp, hs⟩ | ⟨sub, f, z, hc⟩ := isSync_cases hi
  · obtain ⟨e, first, he, hf, -⟩ := binding_lanes hb
    rw [he]
    exact bind_done e rfl hf (binding_no_drain hb) (binding_no_copy hb) h
  · obtain ⟨hb, hc, e, he⟩ := drain_lanes hs
    rw [he]
    exact drain_done e hb hs hc h
  · obtain ⟨hb, hs, e, he⟩ := copy_lanes hc
    rw [he]
    exact copy_done e hb hs hc h

/-- A binding instruction whose lanes ask their home leaves its group waiting for the answers (R216). -/
theorem binding_asks {i : Instr} {s : State} {x : Iss} (hi : isBinding i = true) (ha : x.active ≠ [])
    (h : MayUnit x (syncFields i) (askMay i) (askDoes i) s) :
    exec i s = .next ((lanesDo x (syncFields i) (askDoes i) x.active s).stallUnit x .binding) := by
  obtain ⟨e, first, he, hf, hu⟩ := binding_lanes hi
  rw [he]
  exact h.stalls e ha fun s l hl => ask_lane hl hf fun s l t _ => hu s l t

/-- Settles O26: lanes that may end by the state and their registers act as the rules relate it (`syncMay_lane`). -/
theorem bindingsDrainsCopies : Obligations.BindingsDrainsCopies :=
  ⟨fun _ _ _ _ hi h => sync_done hi h, fun _ _ _ hi h => sync_done hi (h.act fun _ _ => syncMay_lane), fun _ _ _ => binding_asks⟩

end Sys2Proof.Machine

/-! SUPPORT. The matrix unit and projections: the check of a shape record, the matrix instructions and drains at issue, and the steps of the
sequencer and of a projection's engine. -/

namespace Sys2Proof.Machine

open State

/-! ### The check of a matrix record (R249-R251) -/

/-- The conditions of a kind's rule on a record (R250, R251), for the kinds that use ROWS. -/
structure RuleMet (r : BitVec 128) (kind : Nat) (q : KindRule) (coop : Bool) : Prop where
  ofKind : rKind r = kind
  space : rSpace r ∈ q.spaces
  die : (rSpace r ≠ 2 → rDt r = 0) ∧ (rDt r = 0 → rDie r = 0)
  format : rFmt r ∈ q.fmts
  sizes : rRows r ≠ 0 ∧ rCols r ≠ 0
  unused : kind ≠ 5 → rXs r = 0
  base : (rSpace r = 1 ∨ rSpace r = 2 → rBase r < 2 ^ 32) ∧ (rSpace r = 3 → rBase r < 2 ^ 10) ∧ (q.base16 = true → rBase r % 16 = 0)
  stride : kind = 2 → rStride r = 0
  steps : (q.kCols = true → rCols r % kStep (rFmt r) = 0) ∧ (q.kRows = true → rRows r % kStep (rFmt r) = 0)
  limits : rRows r ≤ (if coop = true then q.coopRows else q.rows) ∧ rCols r ≤ (if coop = true then q.coopCols else q.cols)

/-- A chain of checks answers no detail exactly where its first check finds nothing and the rest answers none. -/
theorem detail_eq_zero_iff {b : Prop} [Decidable b] {d e : Nat} (hd : d ≠ 0) : (if b then d else e) = 0 ↔ ¬b ∧ e = 0 := by
  split_ifs with h <;> simp [h, hd]

/-- The DIE and DT fields that the checks of the space and of the other fields let pass together. -/
theorem die_iff {sp dt die : Nat} :
    (sp ≠ 2 → dt = 0) ∧ (dt = 0 → die = 0) ↔ (sp ≠ 2 → dt = 0 ∧ die = 0) ∧ (sp = 2 → dt = 0 → die = 0) := by
  by_cases h : sp = 2
  · simp [h]
  · simp [h]; tauto

/-- A record passes the check of a kind exactly where it meets the conditions of the kind's rule (R251). -/
theorem checkRec_eq_zero_iff {r : BitVec 128} {kind : Nat} {q : KindRule} {coop : Bool} (h6 : kind ≠ 6) (h7 : kind ≠ 7) (hrows : q.rowsUsed = true)
    (hbig : q.big ≠ 0) : checkRec r kind q coop = 0 ↔ RuleMet r kind q coop := by
  have hlt (b n : Nat) (hn : 0 < n) : b / n = 0 ↔ b < n := by rw [Nat.div_eq_zero_iff]; omega
  unfold checkRec
  simp only [hrows, Bool.true_and, detail_eq_zero_iff (Nat.succ_ne_zero _), detail_eq_zero_iff hbig, and_true, Bool.or_eq_true, Bool.and_eq_true,
    beq_iff_eq, bne_iff_ne, Bool.not_eq_true', List.contains_eq_mem, decide_eq_true_eq, decide_eq_false_iff_not, not_or, not_not, not_and, not_lt]
  simp only [hlt _ (2 ^ 32) (by norm_num), hlt _ (2 ^ 10) (by norm_num)]
  constructor
  · rintro ⟨-, ofKind, ⟨space, die⟩, format, ⟨⟨⟨⟨⟨⟨⟨rows, cols⟩, unused⟩, home⟩, ld⟩, store⟩, stride⟩, base⟩, ⟨kRows, kCols⟩, limits⟩
    exact ⟨ofKind, space, die_iff.2 ⟨die, fun hs hd => home ⟨hs, hd⟩⟩, format, ⟨rows, cols⟩, not_imp_comm.1 unused, ⟨ld, store, base⟩, stride,
      ⟨kCols, kRows⟩, limits⟩
  · rintro ⟨ofKind, space, die, format, ⟨rows, cols⟩, unused, ⟨ld, store, base⟩, stride, ⟨kCols, kRows⟩, limits⟩
    obtain ⟨away, home⟩ := die_iff.1 die
    exact ⟨by omega, ofKind, ⟨space, away⟩, format,
      ⟨⟨⟨⟨⟨⟨⟨rows, cols⟩, not_imp_comm.1 unused⟩, fun ⟨hs, hd⟩ => home hs hd⟩, ld⟩, store⟩, stride⟩, base⟩, ⟨kRows, kCols⟩, limits⟩

/-- The rule of every matrix kind counts ROWS and has a detail for a record that is too big (R250, R251). -/
theorem kindRule_counts (kind : Nat) : (kindRule kind).rowsUsed = true ∧ (kindRule kind).big ≠ 0 := by
  unfold kindRule
  split <;> exact ⟨rfl, by decide⟩

/-! The rules of the five matrix kinds, field by field (R250). -/

section
variable {kind : Nat} (h1 : 1 ≤ kind) (h5 : kind ≤ 5)
include h1 h5

theorem mem_kindRule_spaces {sp : Nat} : sp ∈ (kindRule kind).spaces ↔ (kind = 1 ∧ sp = 1) ∨ (kind = 2 ∧ sp = 3) ∨
    ((kind = 3 ∨ kind = 4) ∧ (sp = 0 ∨ sp = 2)) ∨ (kind = 5 ∧ (sp = 1 ∨ sp = 2)) := by
  interval_cases kind <;> simp [kindRule]

theorem mem_kindRule_fmts {f : Nat} : f ∈ (kindRule kind).fmts ↔ if kind = 5 then f ≤ 4 else 1 ≤ f ∧ f ≤ 7 := by
  interval_cases kind <;> simp [kindRule] <;> omega

theorem kindRule_base16 : (kindRule kind).base16 = true ↔ kind = 1 ∨ kind = 3 ∨ kind = 5 := by
  interval_cases kind <;> simp [kindRule]

theorem kindRule_kCols : (kindRule kind).kCols = true ↔ kind = 1 := by
  interval_cases kind <;> simp [kindRule]

theorem kindRule_kRows : (kindRule kind).kRows = true ↔ kind = 2 ∨ kind = 3 ∨ kind = 4 := by
  interval_cases kind <;> simp [kindRule]

theorem kindRule_maxRows (coop : Bool) : (if coop = true then (kindRule kind).coopRows else (kindRule kind).rows) =
    if kind = 1 ∨ kind = 5 then (if coop = true then 256 else 128) else 32768 := by
  interval_cases kind <;> simp [kindRule]

theorem kindRule_maxCols (coop : Bool) : (if coop = true then (kindRule kind).coopCols else (kindRule kind).cols) =
    if kind = 1 then 32768 else if coop = true then 512 else 256 := by
  interval_cases kind <;> simp [kindRule]

/-- The conditions of the five matrix kinds' rules are those that R249-R251 give. -/
theorem ruleMet_iff_recordOk {r : BitVec 128} {coop : Bool} : RuleMet r kind (kindRule kind) coop ↔ RecordOk r kind coop := by
  have hspace := mem_kindRule_spaces h1 h5 (sp := rSpace r)
  have hformat := mem_kindRule_fmts h1 h5 (f := rFmt r)
  have hbase := kindRule_base16 h1 h5
  have hcols := kindRule_kCols h1 h5
  have hrows := kindRule_kRows h1 h5
  have hmaxRows := kindRule_maxRows h1 h5 coop
  have hmaxCols := kindRule_maxCols h1 h5 coop
  constructor
  · rintro ⟨ofKind, space, die, format, sizes, unused, ⟨ld, store, base⟩, stride, ⟨kCols, kRows⟩, rows, cols⟩
    exact ⟨ofKind, hspace.1 space, die, hformat.1 format, sizes, unused, ⟨ld, store, fun h => base (hbase.2 h)⟩, stride,
      ⟨fun h => kCols (hcols.2 h), fun h => kRows (hrows.2 h)⟩, hmaxRows ▸ rows, hmaxCols ▸ cols⟩
  · rintro ⟨ofKind, space, die, format, sizes, unused, ⟨ld, store, base⟩, stride, ⟨kCols, kRows⟩, rows, cols⟩
    exact ⟨ofKind, hspace.2 space, die, hformat.2 format, sizes, unused, ⟨ld, store, fun h => base (hbase.1 h)⟩, stride,
      ⟨fun h => kCols (hcols.1 h), fun h => kRows (hrows.1 h)⟩, hmaxRows.symm ▸ rows, hmaxCols.symm ▸ cols⟩

end

/-- Settles O41: the check passes where the rule of the record's kind is met, and the five rules are those of R249-R251. -/
theorem recordChecks : Obligations.RecordChecks := by
  unfold Obligations.RecordChecks
  intro r kind coop h1 h5
  obtain ⟨hrows, hbig⟩ := kindRule_counts kind
  exact (checkRec_eq_zero_iff (by omega) (by omega) hrows hbig).trans (ruleMet_iff_recordOk h1 h5)

/-! ### The matrix instructions at issue (R246-R271) -/

/-- How a matrix instruction ends whose effect is `u`: the unit is claimed for its workgroup, and its group stands at the next word (R35, R246). -/
def UnitEnds (x : Iss) (m : Meaning) (s u : State) : Prop :=
  ∃ t, m s = .next t ∧ (Stands x (claim u x.c x.g.wslot) → UnitDone x (claim u x.c x.g.wslot) t)

/-- A ready instruction of MAJ 0x20 ends with what its function answers. -/
theorem unit_ends {x : Iss} {i : Instr} {s u : State} {l : LaneIn} {e : Bool} {b : Beside} {fs : Fields} {f : Iss → LaneIn → State → UnitRes}
    (h : UnitReady x i s l) (hb : b = besideOf i) (hf : fs = unitFields i) (he : f x l s = .ok u) : UnitEnds x (execUnit e b fs f) s u :=
  unit_done h hb hf he

/-- Checks that find nothing let an instruction of the matrix unit go on. -/
theorem details_pass {l : List Nat} (h : ∀ d ∈ l, d = 0) : ¬(firstDetail l != 0) = true := by
  rw [bne_iff_ne, ne_eq, not_not, firstDetail_zero]; exact h

/-- The ranges of a record's buffer that a family gives lie in their bounds. -/
theorem recBound_map_none {α : Type} {s : State} {ln : Lane} {r : BitVec 128} {l : List α} {f : α → Int × Nat}
    (h : ∀ a ∈ l, rowInBound s ln r (f a).1 (f a).2) : recBound s ln r (l.map f) = none :=
  recBound_none (List.forall_mem_map.2 h)

section
variable {x : Iss} {s : State} {l : LaneIn} {ln : Lane} {p : Part4}

/-- `mshp` writes the record that its lowest active lane holds (R249, R259). -/
theorem execMshp_ends {e : Bool} {h y : BitVec 4} (hr : UnitReady x (.mshp e h y) s l) :
    UnitEnds x (execMshp e h y) s
      (s.modWg x.c x.g.wslot fun w => { w with shapes := sset 0 w.shapes h.toNat (BitVec.ofNat 128 (l.ln.t.span l.a 4)) }) :=
  unit_ends hr rfl rfl rfl

/-- `mzro` puts its mask into the queue (R260). -/
theorem execMzro_ends {e : Bool} {m : BitVec 4} (hr : UnitReady x (.mzro e m) s l) (hq : x.k.mtx.queue.length < 8) :
    UnitEnds x (execMzro e m) s (queued x l s (.mzro m.toNat)) :=
  unit_ends hr rfl rfl (enqueue_ok hq)

/-- The ranges of an `mbld`'s source lie in their bounds (R255, R261). -/
theorem buildInBound.source {rb rs rc : BitVec 128} (h : buildInBound s ln rb rs rc p) :
    (if (p.nq == 0) = true then none else recBound s ln rs ((List.range (rRows rb)).map fun k =>
      (((k * rStride rs + p.q0 * fmtBits (rFmt rb) / 8 : Nat) : Int), (p.nq * fmtBits (rFmt rb) + 7) / 8))) = none :=
  ite_eq_left_iff.2 fun hn => recBound_map_none fun k hk => (h (by simpa using hn)).1 k (List.mem_range.1 hk)

/-- The ranges of an `mbld`'s scales, in a narrow format, lie in their bounds (R255, R261). -/
theorem buildInBound.scales {rb rs rc : BitVec 128} (h : buildInBound s ln rb rs rc p) :
    (if (p.nq == 0 || !isNarrow (rFmt rb)) = true then none else recBound s ln rc ((List.range (rRows rb / 32)).map fun k =>
      (((k * rStride rc + p.q0 * (if (rFmt rb == 6) = true then 2 else 1) : Nat) : Int),
        p.nq * (if (rFmt rb == 6) = true then 2 else 1)))) = none := by
  refine ite_eq_left_iff.2 fun hn => ?_
  rw [Bool.or_eq_true, not_or, beq_iff_eq, Bool.not_eq_true', Bool.not_eq_false] at hn
  obtain ⟨hnq, hnarrow⟩ := hn
  simp only [beq_iff_eq]
  exact recBound_map_none fun k hk => (h hnq).2 hnarrow k (List.mem_range.1 hk)

/-- The rows of A that an `mlp` reads lie in their bounds (R255, R262). -/
theorem loopInBound.rows {ra : BitVec 128} {n : Nat} {ainc : Int} (h : loopInBound s ln ra n ainc p) :
    recBound s ln ra ((List.range n).flatMap fun (j : Nat) => (List.range p.mq).map fun m =>
      ((((p.m0 + m) * rStride ra : Nat) : Int) + (j : Int) * ainc, kStep (rFmt ra) * fmtBits (rFmt ra) / 8)) = none := by
  refine recBound_none fun y hy => ?_
  obtain ⟨j, hj, hy⟩ := List.mem_flatMap.1 hy
  obtain ⟨m, hm, rfl⟩ := List.mem_map.1 hy
  exact h j (List.mem_range.1 hj) m (List.mem_range.1 hm)

/-- `mbld` puts its captured records and its part of B into the queue (R261). -/
theorem execMbld_ends {e : Bool} {b r c : BitVec 4} (hr : UnitReady x (.mbld e b r c) s l) (hq : x.k.mtx.queue.length < 8)
    (hp : p = partOf x (x.k.mtx.coop.isSome && decide (256 < rCols (l.ln.w.shape b.toNat))) 0 (rCols (l.ln.w.shape b.toNat)))
    (hfit : BuildFits x.k.mtx.coop.isSome (l.ln.w.shape b.toNat) (l.ln.w.shape r.toNat) (l.ln.w.shape c.toNat) p)
    (hin : buildInBound s l.ln (l.ln.w.shape b.toNat) (l.ln.w.shape r.toNat) (l.ln.w.shape c.toNat) p) :
    UnitEnds x (execMbld e b r c) s (queued x l s (.mbld (l.ln.w.shape b.toNat) (l.ln.w.shape r.toNat) (l.ln.w.shape c.toNat) p)) := by
  obtain ⟨htarget, hsource, hscales, hformat, hshape, hroom⟩ := hfit
  refine unit_ends hr rfl rfl ?_
  dsimp only [recOf]
  rw [← hp]
  generalize l.ln.w.shape b.toNat = rb at *
  generalize l.ln.w.shape r.toNat = rs at *
  generalize l.ln.w.shape c.toNat = rc at *
  refine (if_neg (details_pass ?_)).trans ?_
  · simp only [List.forall_mem_cons, List.not_mem_nil, false_imp_iff, implies_true, and_true]
    refine ⟨htarget, hsource, ite_eq_right_iff.2 hscales, ?_, ?_, if_neg (not_lt.2 hroom)⟩
    · simpa using hformat
    · simpa [and_assoc] using hshape
  · rw [hin.source, hin.scales]
    exact enqueue_ok hq

/-- The registers of scales that an `mlp` counts (R262). -/
theorem scaleRegs_eq (fmt n : Nat) : (if !isNarrow fmt then 0 else if fmt == 6 then 2 * n else n) = scaleRegs fmt n := by
  unfold scaleRegs; cases isNarrow fmt <;> simp

/-- `mlp` puts its captured records, control register and scales into the queue, numbered where its tile is cooperative (R262, R269). -/
theorem execMlp_ends {e : Bool} {k sel : BitVec 2} {a b : BitVec 4} {z : BitVec 5} {tile : Bool} (hr : UnitReady x (.mlp e k a b z sel) s l)
    (hq : x.k.mtx.queue.length < 8) (htile : tile = isTile x (rRows (l.ln.w.shape a.toNat)) (rCols (l.ln.w.shape b.toNat)))
    (hp : p = partOf x tile (rRows (l.ln.w.shape a.toNat)) (rCols (l.ln.w.shape b.toNat)))
    (hfit : LoopFits x k.toNat (l.ln.w.shape a.toNat) (l.ln.w.shape b.toNat) (l.ln.t.reg l.a) (sx32 (l.ln.t.reg (l.a + 1))) p)
    (hin : loopInBound s l.ln (l.ln.w.shape a.toNat) (bits (l.ln.t.reg l.a) 10 0) (sx32 (l.ln.t.reg (l.a + 1))) p) :
    UnitEnds x (execMlp e k a b z sel) s
      (queued x l s (.mlp k.toNat (l.ln.w.shape a.toNat) (l.ln.w.shape b.toNat) (bits (l.ln.t.reg l.a) 10 0)
        (bits (l.ln.t.reg l.a) 20 11) (sx32 (l.ln.t.reg (l.a + 1))) sel.toNat
        (loopScales x (bits (l.ln.t.reg l.a) 26 21) (scaleRegs (rFmt (l.ln.w.shape a.toNat)) (bits (l.ln.t.reg l.a) 10 0))) p
        (if tile then some x.k.mtx.cseq else none) (bits (l.ln.t.reg l.a) 26 21)) tile) := by
  obtain ⟨⟨hmembers, hactive⟩, ha, hb, hformat, hcontrol, hshape, hslots, hscales⟩ := hfit
  refine unit_ends hr rfl rfl ?_
  dsimp only [recOf]
  unfold isTile at htile
  rw [← htile, ← hp, scaleRegs_eq]
  generalize l.ln.w.shape a.toNat = ra at *
  generalize l.ln.w.shape b.toNat = rb at *
  generalize l.ln.t.reg l.a = d at *
  generalize sx32 (l.ln.t.reg (l.a + 1)) = ainc at *
  refine (if_neg (by simp [hmembers, hactive])).trans ?_
  refine (if_neg (details_pass ?_)).trans ?_
  · simp only [List.forall_mem_cons, List.not_mem_nil, false_imp_iff, implies_true, and_true]
    refine ⟨ha, hb, if_pos hformat, if_neg ?_, if_neg ?_, if_neg (not_lt.2 hslots)⟩
    · obtain ⟨hd, hn, hainc⟩ := hcontrol
      rw [Nat.div_eq_of_lt hd]
      simp [hn, hainc]
    · obtain ⟨hk, hn⟩ := hshape
      rw [hk] at hn
      simp [hk, hn]
  · split
    next t hshort =>
      have hmember := hscales t (List.mem_of_find?_eq_some hshort)
      have hover := List.find?_some hshort
      split at hover
      next th hth =>
        rw [Bool.and_eq_true, bne_iff_ne, decide_eq_true_eq] at hover
        obtain ⟨hreg, hover⟩ := hover
        exact absurd (hmember th hth hreg) (not_le.2 hover)
      next => cases hover
    next =>
      rw [hin.rows]
      exact enqueue_ok' tile hq

/-- `mwt` goes on once the entries queued before it are done, where no fault is deferred (R256, R268). -/
theorem execMwt_ends {e : Bool} (hr : UnitReady x (.mwt e) s l) (hlast : ∀ n, l.ln.t.pend = .request n → ∀ q ∈ x.k.mtx.queue, n < q.id)
    (hempty : (∀ n, l.ln.t.pend ≠ .request n) → x.k.mtx.queue = []) (hfault : x.k.mtx.fault = none) : UnitEnds x (execMwt e) s s := by
  refine unit_ends hr rfl rfl ?_
  refine (if_neg ?_).trans (by rw [hfault])
  rw [Bool.not_eq_true, List.any_eq_false]
  intro q hqueue
  rw [decide_eq_true_eq, not_le]
  split
  next n hn => exact hlast n hn q hqueue
  next hn => rw [hempty hn] at hqueue; cases hqueue

/-- `mwt.sg` puts the phasers that its lanes may signal into the queue (R268). -/
theorem execMwtSg_ends {e : Bool} {a : BitVec 6} (hr : UnitReady x (.mwtSg e a) s l) (hq : x.k.mtx.queue.length < 8)
    (hsig : ∀ l' ∈ signalLanes s x a.toNat, ∃ p, NamesPh s l' p ∧ maySignal p l'.ln.r = true) :
    UnitEnds x (execMwtSg e a) s (queued x l s (.mwtSg ((signalLanes s x a.toNat).filterMap fun l' =>
        (s.phaserOf l'.ln (l'.ln.t.reg l'.a)).map fun p => (l'.ln.t.tid, p.uid)))) := by
  refine unit_ends hr rfl rfl ?_
  refine (if_neg (details_pass ?_)).trans (enqueue_ok hq)
  rw [List.forall_mem_map]
  intro l' hl'
  obtain ⟨p, ⟨hp, hh⟩, hmay⟩ := hsig l' hl'
  simp [hp, hh, hmay]

section
variable {e : Bool} {a : BitVec 6} (hr : UnitReady x (.mcop e a) s l)
include hr

/-- Without a set there is none to dissolve (R271). -/
theorem execMcop_ends_noSet (hv : l.ln.t.reg l.a = 0xFFFFFFFF) (hset : x.k.mtx.coop = none) : UnitEnds x (execMcop e a) s s := by
  refine unit_ends hr rfl rfl ?_
  simp only [hv, hset, beq_self_eq_true, if_true]

/-- The set that stands is not formed again (R269). -/
theorem execMcop_ends_sameSet (hv : l.ln.t.reg l.a ≠ 0xFFFFFFFF) (hset : x.k.mtx.coop = some (l.ln.t.reg l.a)) :
    UnitEnds x (execMcop e a) s s := by
  refine unit_ends hr rfl rfl ?_
  simp only [hset, beq_eq_false_iff_ne.2 hv, beq_self_eq_true, Bool.false_eq_true, if_false, if_true]

/-- A set that all four members ask for is formed (R269). -/
theorem execMcop_ends_form (hv : l.ln.t.reg l.a ≠ 0xFFFFFFFF) (hset : x.k.mtx.coop = none) (hvalid : coopValid x (l.ln.t.reg l.a) = true)
    (hclash : ∀ m ∈ coopMembers (l.ln.t.reg l.a), ∀ u, unitOf s x m = some u → u.coopWait = none ∨ u.coopWait = some (l.ln.t.reg l.a))
    (hask : ∀ m ∈ coopMembers (l.ln.t.reg l.a), ∃ u, unitOf (asks x s (l.ln.t.reg l.a)) x m = some u ∧ u.coopWait = some (l.ln.t.reg l.a)) :
    UnitEnds x (execMcop e a) s (coopAll (asks x s (l.ln.t.reg l.a)) x (coopMembers (l.ln.t.reg l.a)) fun u =>
        { u with coop := some (l.ln.t.reg l.a), coopWait := none, cseq := 0, cdone := 0 }) := by
  refine unit_ends hr rfl rfl ?_
  simp only [hset, beq_eq_false_iff_ne.2 hv, Bool.false_eq_true, if_false]
  refine (if_neg ?_).trans (if_pos ?_)
  · rw [hvalid, Bool.not_true, Bool.false_or, Bool.not_eq_true, List.any_eq_false]
    intro m hm
    split
    next u hu => rcases hclash m hm u hu with h | h <;> simp [h]
    next => exact Bool.false_ne_true
  · rw [List.all_eq_true]
    intro m hm
    obtain ⟨u, hu, hwait⟩ := hask m hm
    unfold asks at hu
    simp only [hu, hwait, beq_self_eq_true, Bool.and_self]

/-- A set that all four members, none with a cooperative entry left, ask to end is dissolved (R271). -/
theorem execMcop_ends_dissolve {set : Nat} (hv : l.ln.t.reg l.a = 0xFFFFFFFF) (hset : x.k.mtx.coop = some set)
    (hask : ∀ m ∈ coopMembers set, ∃ u, unitOf (asks x s 0xFFFFFFFF) x m = some u ∧ u.coopWait = some 0xFFFFFFFF ∧ hasCoop u = false) :
    UnitEnds x (execMcop e a) s (coopAll (asks x s 0xFFFFFFFF) x (coopMembers set) fun u =>
        { u with coop := none, coopWait := none, cseq := 0, cdone := 0 }) := by
  refine unit_ends hr rfl rfl ?_
  simp only [hset, hv, beq_self_eq_true, if_true]
  refine if_pos ?_
  rw [List.all_eq_true]
  intro m hm
  obtain ⟨u, hu, hwait, hnone⟩ := hask m hm
  unfold asks at hu
  simp only [hu, hwait, hnone, beq_self_eq_true, Bool.not_false, Bool.and_self]

end

end

/-- Settles O42, instruction by instruction. -/
theorem matrixUnit : Obligations.MatrixUnit := by
  unfold Obligations.MatrixUnit
  intro i s u x l hr h
  cases h with
  | shape => exact execMshp_ends hr
  | zero hq => exact execMzro_ends hr hq
  | build hq hp hfit hin => exact execMbld_ends hr hq hp hfit hin
  | loop hq htile hp hfit hin => exact execMlp_ends hr hq htile hp hfit hin
  | waited hlast hempty hfault => exact execMwt_ends hr hlast hempty hfault
  | signal hq hsig => exact execMwtSg_ends hr hq hsig
  | noSet hv hset => exact execMcop_ends_noSet hr hv hset
  | sameSet hv hset => exact execMcop_ends_sameSet hr hv hset
  | form hv hset hvalid hclash hask => exact execMcop_ends_form hr hv hset hvalid hclash hask
  | dissolve hv hset hask => exact execMcop_ends_dissolve hr hv hset hask

/-- Settles O43: both forms of the drain are `drainUnit`, which differs in the word of the maximum. -/
theorem drains : Obligations.Drains := by
  unfold Obligations.Drains
  intro i s u x l slot c mode amax tile p hi hr hfit hu
  cases i with
  | mdrn e k c m => cases hi; exact drain_ok (e := e) hr rfl rfl hfit hu
  | mdrnAmax e k c z m => cases hi; exact drain_ok (e := e) hr rfl rfl hfit hu
  | _ => cases hi

/-! ### The sequencer and a projection's engine (R253-R293) -/

/-- Where every value is there, none is missing. -/
theorem any_isNone_eq_false {α : Type} {l : List (Option α)} (h : ∀ v ∈ l, v ≠ none) : (l.any fun v => v.isNone) = false := by
  simp only [List.any_eq_false, Option.isNone_iff_eq_none]
  exact h

section
variable {s : State} {c : CoreRef} {k : Ctx} {q : SeqEntry} {ln : Lane}

section
variable (h : Heads s c k q ln)
include h

/-- A sequencer that works on an entry has no deferred fault (R256). -/
theorem Heads.no_fault : k.mtx.fault.isSome = false := by rw [h.sound]; rfl

/-- `mzro` zeroes the slots of its mask (R260). -/
theorem execMzroEntry_zeroes {mask : Nat} (ho : q.op = .mzro mask) :
    execMzroEntry c s = .next (retire (modMtx s c fun m => { m with acc := zeroed mask m.acc }) c k q) :=
  onHead_eq h (by simp only [ho, h.no_fault, Bool.false_eq_true, if_false]; rfl)

section
variable {rb rs rc : BitVec 128} {p : Part4} (ho : q.op = .mbld rb rs rc p)
include ho

/-- The chunks of a B row that are read without a stop are built (R261). -/
theorem execMbldEntry_builds {u : State} {me : CopyEntry} {l : List (Nat × List (Option Nat))} {w j ch : Nat} (hn : p.nq ≠ 0)
    (hw : w = if p.nq ≤ 128 then 1 else 2) (hj : j = q.progress / (8 * w)) (hch : ch = q.progress % 8) (hlt : j < rRows rb / kStep (rFmt rb))
    (hrow : rowChunks s ln rb rs rc p j (q.progress / 8 % w) (8 - ch) ch (seqAgent s q) = (u, me, l, none)) (hl : ∀ y ∈ l, ∀ v ∈ y.2, v ≠ none) :
    execMbldEntry c s = .next
      (progress (modMtx u c fun m => l.foldl (fun (m : Matrix) y =>
          buildChunk rb p ((rBase rb + j * w + q.progress / 8 % w) % 1024) (q.progress / 8 % w) y.1 (y.2.map fun v => v.getD 0) m) m) c q
          fun y => { y with progress := y.progress + 8 - ch, snaps := me.snaps }) := by
  subst hw hj hch
  refine onHead_eq h ?_
  have hkept : (l.any fun y => y.2.any fun v => v.isNone) = false :=
    List.any_eq_false.2 fun y hy => by rw [any_isNone_eq_false (hl y hy)]; exact Bool.false_ne_true
  simp only [ho]
  rw [if_neg (by simpa [h.no_fault, hn] using hlt)]
  simp only [hrow, hkept, Bool.false_eq_true, if_false]

/-- An `mbld` with every row built leaves the queue (R261). -/
theorem execMbldEntry_built (hd : p.nq = 0 ∨ rRows rb / kStep (rFmt rb) ≤ q.progress / (8 * if p.nq ≤ 128 then 1 else 2)) :
    execMbldEntry c s = .next (retire s c k q) := by
  refine onHead_eq h ?_
  simp only [ho]
  rw [if_pos (by simpa [h.no_fault] using hd)]

end

section
variable {slot n binc sel sb : Nat} {ra rb : BitVec 128} {ainc : Int} {scales : Words} {p : Part4} {num : Option Nat}
  (ho : q.op = .mlp slot ra rb n binc ainc sel scales p num sb)
include ho

/-- An `mlp` with every K-step done leaves the queue (R263). -/
theorem execMlpKstep_looped (hd : n ≤ q.progress ∨ p.mq = 0 ∨ p.nq = 0) : execMlpKstep c s = .next (retire s c k q) := by
  refine onHead_eq h ?_
  simp only [ho]
  rw [if_pos (by simpa [h.no_fault, or_assoc] using hd)]

section
variable (hlt : q.progress < n) (hm : p.mq ≠ 0) (hn : p.nq ≠ 0)
include hlt hm hn

/-- A cooperative K-step waits for its partners (R270). -/
theorem execMlpKstep_partners {i : Nat} (hi : num = some i) (hp : partnersReady s c k ln.w (rRows ra) (rCols rb) i q.progress = false) :
    execMlpKstep c s = .next ((modMtx s c fun m => { m with st := .partner }).postOnce (.mlpKstep c)) := by
  subst hi
  refine onHead_eq h ?_
  simp only [ho]
  rw [if_neg (by simp [h.no_fault, hlt, hm, hn]), if_pos (by simp [hp])]

/-- A K-step whose rows of A are read adds its products (R263). -/
theorem execMlpKstep_steps {u : State} {rows : List (Option Nat)}
    (hp : ∀ i, num = some i → partnersReady s c k ln.w (rRows ra) (rCols rb) i q.progress = true)
    (hr : readRowsA (seqBusy s c) ln q ra p q.progress ainc = (u, none, rows)) (hrows : ∀ r ∈ rows, r ≠ none) :
    execMlpKstep c s = .next (stepped (modMtx u c (kstepAcc slot ra rb n q.progress binc sel scales p rows)) c q) := by
  refine onHead_eq h ?_
  simp only [ho]
  rw [if_neg (by simp [h.no_fault, hlt, hm, hn]), if_neg (by simpa [Option.any_eq_true] using hp)]
  unfold seqBusy at hr
  simp only [hr, any_isNone_eq_false hrows, Bool.false_eq_true, if_false]
  rfl

end
end

section
variable {slot mode : Nat} {rc : BitVec 128} {amax : Option Nat} {p : Part4} {tile : Bool} (ho : q.op = .mdrn slot rc mode amax p tile)
include ho

/-- A drain writes the bytes that lie in its next line, and keeps the maximum (R265, R266). -/
theorem execMdrnChunk_drains {t : Tgt} {n : Nat} {u : State} {l : Loc} (hlt : q.progress < p.mq * (p.nq * (fmtBits (rFmt rc) / 8)))
    (hp : drainPiece ln rc p q.progress = (t, n)) (hl : s.engLoc ln (drainAgent s c ln q q.copy) t (recAddr rc 0) n .write = (u, .ok l)) :
    execMdrnChunk c s = .next
        ((progress (((u.chargeLoc c.pkg ln.g.part l).writeLoc l n (drainBytes rc mode (drainAccs k.mtx slot rc p q.progress n))).modCopy c q.copy
            fun e => { e with written := q.progress + n }) c q
          fun y => { y with
            progress := y.progress + n,
            rmax := (drainAccs k.mtx slot rc p q.progress n).foldl (fun r a => maxMag r (a % 2 ^ 31)) q.rmax }).wakeRecalls) := by
  refine onHead_eq h ?_
  simp only [ho, h.no_fault, hlt, hp, hl, Bool.false_eq_true, if_true, if_false]

section
variable (hd : p.mq * (p.nq * (fmtBits (rFmt rc) / 8)) ≤ q.progress)
include hd

/-- A drain without a maximum's word ends with its last byte (R265, R267). -/
theorem execMdrnChunk_drained (ha : amax = none) : execMdrnChunk c s = .next (retire (endDrain s c q) c k q) := by
  refine onHead_eq h ?_
  simp only [ho, ha, h.no_fault, not_lt.2 hd, Bool.false_eq_true, if_false]

/-- A drain's maximum is merged into its word, and the drain ends (R266, R267). -/
theorem execMdrnChunk_merged {a : Nat} {t : Tgt} {u : State} {l : Loc} (ha : amax = some a) (ht : atomTgt ln a = some t)
    (hfree : ∀ cs rs as, q.rel = some (cs, rs, as) → s.copiesLeft ln.r rs = false ∧ s.atomsLeft as = false)
    (hl : s.engLoc ln (drainAgent s c ln q q.word) t a 4 .atomic = (u, .ok l)) :
    execMdrnChunk c s = .next (retire (endDrain (mergeMax u c k q ln l) c q) c k q) := by
  refine onHead_eq h ?_
  simp only [ho, ha, ht, h.no_fault, not_lt.2 hd, Bool.false_eq_true, if_false]
  refine (if_neg ?_).trans (by rw [hl])
  split
  next cs rs as hrel => simp [hfree _ _ _ hrel]
  next => exact Bool.false_ne_true

end
end

section
variable {sigs : List (Nat × Nat)} (ho : q.op = .mwtSg sigs)
include ho

/-- An `mwt.sg` whose signals are all counted leaves the queue (R268). -/
theorem execMwtSgEntry_signalled (hd : sigs.length ≤ q.progress) : execMwtSgEntry c s = .next (retire s c k q) := by
  refine onHead_eq h ?_
  simp only [ho, List.getElem?_eq_none hd]

section
variable {tid uid : Nat} {p : Phaser} {m : PhMember} {l : Lane} (hs : sigs[q.progress]? = some (tid, uid)) (hp : s.phaserUid (some uid) = some p)
  (hm : p.member { ln.r with tid := tid } = some m) (hl : s.laneOf { ln.r with tid := tid } = some l)
include hs hp hm hl

/-- A signal that is due and not held is counted (R224, R268). -/
theorem execMwtSgEntry_signals (hdue : phLt p.phase m.sp = false) (hfree : s.heldBefore l p.obj q.id = false) :
    execMwtSgEntry c s = .next
      (progress (s.countSignalUpTo p.key { ln.r with tid := tid } q.id) c q fun y => { y with progress := y.progress + 1 }) := by
  refine onHead_eq h ?_
  simp only [ho, hs, hp, hm, hl, hdue, hfree, h.no_fault, Bool.or_self, Bool.false_eq_true, if_false]

/-- A signal that is early or held waits (R90, R224, R268). -/
theorem execMwtSgEntry_waits (hwait : phLt p.phase m.sp = true ∨ s.heldBefore l p.obj q.id = true) :
    execMwtSgEntry c s = .next (seqWait s c q []) := by
  refine onHead_eq h ?_
  simp only [ho, hs, hp, hm, hl, Bool.or_eq_true, hwait, if_true]

end
end
end
end

section
variable {s u : State} {c : CoreRef} {k : Ctx} {ln : Lane} (h : Projects s c k ln)
include h

/-- A projection in progress is not over, nor does its context stand still (R287, R292). -/
theorem Projects.not_over : (k.voc.st != .active || k.voc.result.isSome || k.st == .halted) = false := by
  obtain ⟨-, ⟨hst, hres⟩, hruns, -⟩ := h
  simp [hst, hres, hruns]

/-- The lane that a projection in progress acts for. -/
theorem Projects.lane_eq :
    (k.mtx.holder.bind fun w => s.laneOf { core := c, gen := k.gen, wslot := w, tid := k.voc.tid }) = some ln := by
  obtain ⟨w, hw, hln⟩ := h.lane
  rw [hw, Option.bind_some, hln]

/-- With every block folded the projection is at its end (R287, R291). -/
theorem execVocabBlockFold_projected (hd : rRows (k.voc.rc 1) ≤ k.voc.block) : execVocabBlockFold c s = .next (endProj s c k ln (0, 0, 0)) := by
  unfold execVocabBlockFold
  simp only [h.ctx, h.not_over, h.lane_eq, hd, Bool.false_eq_true, if_true, if_false]

section
variable (hd : k.voc.block < rRows (k.voc.rc 1)) {ss : List (Nat × Option Nat)}
include hd

/-- A read that faults ends the projection with COPY_FAULT (R293). -/
theorem execVocabBlockFold_faults {d a : Nat} (hr : vocReadsFrom s ln k.voc.snaps (blockReads k.voc) = (u, ss, .error (.fault d a))) :
    execVocabBlockFold c s = .next (endProj u c k ln (Code.copyFault.num, d, a)) := by
  unfold execVocabBlockFold
  simp only [h.ctx, h.not_over, h.lane_eq, not_le.2 hd, hr, Bool.false_eq_true, if_false]

section
variable {ds : List Nat} (hr : vocReadsFrom s ln k.voc.snaps (blockReads k.voc) = (u, ss, .ok ds))
include hr

/-- A block of a `vpj` is folded into its rows, whose heaps hold what it adds (R287). -/
theorem execVocabBlockFold_forward (hb : k.voc.back = false) (hheap : ∀ r ∈ blockRows k.voc ds, r.heap.length ≤ rCols (k.voc.rc 0)) :
    execVocabBlockFold c s = .next (nextBlock u c fun v => { v with rows := blockRows k.voc ds, snaps := ss }) := by
  have hcap : overCap (rCols (k.voc.rc 0)) k.voc.block ((blockRows k.voc ds).map fun r => r.heap.length) = none :=
    overCap_none (List.forall_mem_map.2 hheap)
  unfold execVocabBlockFold
  simp only [h.ctx, h.not_over, h.lane_eq, not_le.2 hd, hr, hb, hcap, Bool.not_false, Bool.false_eq_true, if_true, if_false]

/-- A block of a `vpjb` is written (R291). -/
theorem execVocabBlockFold_backward {w : State} {ps : List (Loc × Nat × Nat)} (hb : k.voc.back = true)
    (hp : vocPlaces u ln (blockWrites k.voc ds) = (w, .ok ps)) :
    execVocabBlockFold c s = .next (nextBlock (writePieces w ps) c fun v => { v with snaps := ss }) := by
  unfold execVocabBlockFold
  simp only [h.ctx, h.not_over, h.lane_eq, not_le.2 hd, hr, hb, hp, Bool.not_true, Bool.false_eq_true, if_false]

end
end
end

/-- Settles O50, step by step. -/
theorem unitSteps : Obligations.UnitSteps := by
  unfold Obligations.UnitSteps
  refine ⟨fun i s t h => ?_, fun i s t h => ?_⟩
  · cases h with
    | zeroes h ho => exact execMzroEntry_zeroes h ho
    | builds h ho hn hw hj hch hlt hrow hl => exact execMbldEntry_builds h ho hn hw hj hch hlt hrow hl
    | built h ho hd => exact execMbldEntry_built h ho hd
    | kstep h ho hlt hm hn hp hr hrows => exact execMlpKstep_steps h ho hlt hm hn hp hr hrows
    | partners h ho hlt hm hn hp => exact execMlpKstep_partners h ho hlt hm hn rfl hp
    | looped h ho hd => exact execMlpKstep_looped h ho hd
    | drains h ho hlt hp hl => exact execMdrnChunk_drains h ho hlt hp hl
    | drained h ho hd => exact execMdrnChunk_drained h ho hd rfl
    | merged h ho hd ht hfree hl => exact execMdrnChunk_merged h ho hd rfl ht hfree hl
    | signals h ho hs hp hm hdue hl hfree => exact execMwtSgEntry_signals h ho hs hp hm hl hdue hfree
    | signalWaits h ho hs hp hm hl hwait => exact execMwtSgEntry_waits h ho hs hp hm hl hwait
    | signalled h ho hd => exact execMwtSgEntry_signalled h ho hd
  · cases h with
    | forward h hd hr hb hheap => exact execVocabBlockFold_forward h hd hr hb hheap
    | backward h hd hr hb hp => exact execVocabBlockFold_backward h hd hr hb hp
    | faults h hd hr => exact execVocabBlockFold_faults h hd hr
    | projected h hd => exact execVocabBlockFold_projected h hd

end Sys2Proof.Machine

/-! SUPPORT. Vocabulary projection at issue: a projection that ends, one that begins, and the row blocks folded or made final. -/

namespace Sys2Proof.Machine

open State

/-! ### A projection at its end (R287, R288, R291) -/

/-- `vpj` and `vpjb` pass through the part that all vocabulary instructions share (R285). -/
theorem projUnit_shared (e back : Bool) (h w z p : Nat) : ∃ check f, projUnit e back h w z p = execVoc e .never check f :=
  ⟨_, _, rfl⟩

/-- `vrsm` passes through the part that all vocabulary instructions share (R285). -/
theorem execVrsm_shared (e : Bool) (h : BitVec 4) : ∃ check f, execVrsm e h = execVoc e .suspended check f :=
  ⟨_, _, rfl⟩

/-- The instructions that a projection runs for pass through the part that all vocabulary instructions share (R285). -/
theorem proj_shared {i : Instr} (hi : isProj i = true) : unitFields i = {} ∧ ∃ e check f, exec i = execVoc e (besideOf i) check f := by
  cases i with
  | vpj e h w z p => exact ⟨rfl, e, projUnit_shared e false h.toNat w.toNat z.toNat p.toNat⟩
  | vpjb e h w z p => exact ⟨rfl, e, projUnit_shared e true h.toNat w.toNat z.toNat p.toNat⟩
  | vrsm e h => exact ⟨rfl, e, execVrsm_shared e h⟩
  | _ => cases hi

/-- Settles O44: a projection ends in the part that its instructions share. -/
theorem projectionEnds : Obligations.ProjectionEnds := by
  unfold Obligations.ProjectionEnds
  intro i s u x l hi hr hends hover
  obtain ⟨hfs, e, check, f, hexec⟩ := proj_shared hi
  rw [hexec]
  exact voc_ends_done hr rfl hfs hends hover

/-! ### A projection that begins (R284-R288, R291) -/

section
variable {x : Iss} {s u : State} {l : LaneIn}

/-- The state in which a projection has begun: the engine stands ready with it, and the group waits (R285, R287). -/
def begun (x : Iss) (u : State) (v : Vocab) : State :=
  (vocPost (modVoc (claim u x.c x.g.wslot) x.c fun _ => { v with st := .active, result := none }) x.c).stallUnit x .vocab

/-- A vocabulary instruction whose check passes and whose function begins a projection leaves it begun. -/
theorem voc_begins {i : Instr} {e : Bool} {b : Beside} {check : Iss → LaneIn → State → Except (Code × Nat × Nat) Vocab}
    {f : Iss → LaneIn → State → Vocab → UnitRes} {v w : Vocab} (hr : UnitReady x i s l) (hfree : VocFree x) (hb : b = besideOf i)
    (hfs : unitFields i = {}) (hc : check x l s = .ok v) (hf : f x l (vocTaken x s) v = beginVoc x u w) :
    execVoc e b check f s = .next (begun x u w) :=
  (voc_free hr hb hfs hfree hc hf).2 _ rfl

section
variable {e : Bool} {h w z p : BitVec 4} {v : Vocab} {ls : List Nat}

/-- A `vpj` whose records pass begins with its rows empty (R287). -/
theorem execVpj_begins (hr : UnitReady x (.vpj e h w z p) s l) (hfree : VocFree x)
    (hv : v = projection x l false h.toNat w.toNat z.toNat p.toNat) (hdetail : vocDetail false v = 0) (hrange : vocRanges s l.ln v = none)
    (hread : vocReads (vocTaken x s) l.ln ((List.range (rRows (v.rc 2))).map fun r => (v.rc 0, r * rStride (v.rc 0) + 64, 32)) = (u, .ok ls)) :
    execVpj e h w z p s = .next (begun x u { v with rows := ls.map (firstRow (v.rc 3)) }) := by
  unfold execVpj projUnit
  refine voc_begins (v := v) hr hfree rfl rfl ?check ?begins
  case check =>
    subst hv
    unfold projection at hdetail hrange ⊢
    simp only [hdetail, hrange, bne_self_eq_false, Bool.false_eq_true, if_false]
  case begins =>
    simp only [hread, Bool.not_false, if_true]
    rfl

/-- A `vpjb` whose records and final row blocks pass begins with the rows that these give (R291). -/
theorem execVpjb_begins (hr : UnitReady x (.vpjb e h w z p) s l) (hfree : VocFree x)
    (hv : v = projection x l true h.toNat w.toNat z.toNat p.toNat) (hdetail : vocDetail true v = 0) (hrange : vocRanges s l.ln v = none)
    (hread : vocReads (vocTaken x s) l.ln ((List.range (rRows (v.rc 2))).map fun r => (v.rc 0, r * rStride (v.rc 0), 96)) = (u, .ok ls))
    (hfit : ∀ b ∈ ls, finalFits v b) :
    execVpjb e h w z p s = .next (begun x u { v with rows := ls.map backRow }) := by
  unfold execVpjb projUnit
  refine voc_begins (v := v) hr hfree rfl rfl ?check ?begins
  case check =>
    subst hv
    unfold projection at hdetail hrange ⊢
    simp only [hdetail, hrange, bne_self_eq_false, Bool.false_eq_true, if_false]
  case begins =>
    simp only [hread, Bool.not_true, Bool.false_eq_true, if_false]
    refine (if_neg ?_).trans rfl
    rw [Bool.not_eq_true, List.any_eq_false]
    intro b hb
    obtain ⟨hres, hw, hz, hcols, hc, hlo, hhi⟩ := hfit b hb
    simp only [hres, hw, hz, hcols, hc, not_lt.2 hlo, not_lt.2 hhi, bne_self_eq_false, decide_false, Bool.or_self, Bool.false_eq_true, not_false_eq_true]

/-- The suspended projection of a core as a `vrsm` takes it up: with the record of another area, for the group that issues it (R288). -/
def resuming (x : Iss) (l : LaneIn) (h : Nat) : Vocab :=
  { x.k.voc with recs := l.ln.w.shape h :: x.k.voc.recs.drop 1, group := x.g.slot, tid := l.ln.t.tid, resumed := true }

/-- A row of a suspended projection with the state that its row block in memory holds (R288). -/
def resumedRow (b : RowBlk) (old : RowSt) : RowSt :=
  { old with m := b.st.m, s := b.st.s, lmax := b.st.lmax, lmask := b.st.lmask, llog := b.st.llog, heap := b.st.heap }

/-- A `vrsm` whose record and row blocks pass takes the suspended projection up with the rows in memory (R288). -/
theorem execVrsm_begins {r : BitVec 128} {bs : List RowBlk} (hr : UnitReady x (.vrsm e h) s l) (hfree : VocFree x) (hrec : r = recOf l h.toNat)
    (hst : x.k.voc.st = .suspended) (hkind : checkVoc r 12 [1] = 0) (hrows : rRows r = x.k.voc.rows.length) (hstride : 128 + 8 * rCols r ≤ rStride r)
    (hrange : vocBound s l.ln [(r, rRows r, 128 + 8 * rCols r)] = none) (hread : readRows (vocTaken x s) l.ln r = (u, .ok bs))
    (hfit : ∀ b ∈ bs, b.res = 0 ∧ b.cnt ≤ rCols r) :
    execVrsm e h s = .next (begun x u { resuming x l h.toNat with rows := (bs.zip x.k.voc.rows).map fun b => resumedRow b.1 b.2 }) := by
  unfold execVrsm
  refine voc_begins (v := resuming x l h.toNat) hr hfree rfl rfl ?check ?begins
  case check =>
    subst hrec
    refine (if_neg (by simp [hst])).trans <| (if_neg (details_pass ?_)).trans ?_
    · simp [hkind, hrows, hstride]
    · rw [hrange]
      rfl
  case begins =>
    have hcnt : (bs.any fun b => b.res != 0 || decide (rCols r < b.cnt)) = false := by
      rw [List.any_eq_false]
      intro b hb
      obtain ⟨hres, hcnt⟩ := hfit b hb
      simp [hres, hcnt]
    have h0 : (resuming x l h.toNat).rc 0 = r := hrec.symm
    simp only [h0, hread, hcnt, Bool.false_eq_true, if_false]
    rfl

end
end

/-- Settles O45, instruction by instruction. -/
theorem projectionBegins : Obligations.ProjectionBegins := by
  unfold Obligations.ProjectionBegins
  intro i s u x l v hr hfree h
  cases h with
  | forward hdetail hrange hread => exact execVpj_begins hr hfree rfl hdetail hrange hread
  | backward hdetail hrange hread hfit => exact execVpjb_begins hr hfree rfl hdetail hrange hread hfit
  | resume hst hkind hrows hstride hrange hread hfit => exact execVrsm_begins hr hfree rfl hst hkind hrows hstride hrange hread hfit

/-! ### The row blocks of two areas (R276, R289, R290) -/

section
variable {x : Iss} {s u : State} {l : LaneIn}

/-- What `vmrg` and `vfin` capture at issue: the records of their two areas (R285). -/
def areas (x : Iss) (l : LaneIn) (h y : Nat) : Vocab :=
  { x.k.voc with recs := [l.ln.w.shape h, l.ln.w.shape y], group := x.g.slot, tid := l.ln.t.tid }

/-- Two areas' records that pass together and lie in their bounds are captured (R275, R285). -/
theorem areaCheck_ok {kx h y : Nat} {spx : List Nat} {a b : BitVec 128} (ha : a = l.ln.w.shape h) (hb : b = l.ln.w.shape y)
    (hdetail : areaDetail a b kx spx = 0) (hrange : vocBound s l.ln [(a, rRows a, 128 + 8 * rCols a), (b, rRows b, 128 + 8 * rCols b)] = none) :
    areaCheck kx spx h y x l s = .ok (areas x l h y) := by
  subst ha hb
  unfold areaCheck
  simp only [recOf, hdetail, hrange, bne_self_eq_false, Bool.false_eq_true, if_false]
  rfl

/-- How a vocabulary instruction ends that writes row blocks: the places written, the groups that wait for the engine looking again, and
the unit claimed and over (R285, R289, R290). -/
def BlocksWritten (x : Iss) (m : Meaning) (s u : State) (ps : List (Loc × Nat × Nat)) : Prop :=
  ∀ v, v = claim ((writePieces u ps).wakeAll x.c fun w => w == .vocab) x.c x.g.wslot → ∃ t, m s = .next t ∧ (Stands x v → UnitDone x v t)

/-- A vocabulary instruction whose check passes and whose function writes its places is over with them written. -/
theorem voc_writes {i : Instr} {e : Bool} {b : Beside} {check : Iss → LaneIn → State → Except (Code × Nat × Nat) Vocab}
    {f : Iss → LaneIn → State → Vocab → UnitRes} {v : Vocab} {ps : List (Loc × Nat × Nat)} (hr : UnitReady x i s l) (hfree : VocFree x)
    (hb : b = besideOf i) (hfs : unitFields i = {}) (hc : check x l s = .ok v) (hf : f x l (vocTaken x s) v = .ok (writePieces u ps)) :
    BlocksWritten x (execVoc e b check f) s u ps := by
  obtain ⟨t, ht, hdone⟩ := (voc_free hr hb hfs hfree hc hf).1 _ rfl
  exact fun v hv => ⟨t, ht, hdone v hv⟩

section
variable {e : Bool} {h y : BitVec 4} {a b : BitVec 128} {ps : List (Loc × Nat × Nat)} {w : State} (hfree : VocFree x) (ha : a = l.ln.w.shape h.toNat)
  (hb : b = l.ln.w.shape y.toNat) (hrange : vocBound s l.ln [(a, rRows a, 128 + 8 * rCols a), (b, rRows b, 128 + 8 * rCols b)] = none)
include hfree ha hb hrange

/-- A `vmrg` whose rows may be folded, and hold what they add, writes them folded (R289). -/
theorem execVmrg_writes {u' : State} {ds ss : List RowBlk} (hr : UnitReady x (.vmrg e h y) s l) (hdetail : areaDetail a b 12 [1] = 0)
    (hd : readRows (vocTaken x s) l.ln a = (u, .ok ds)) (hs : readRows u l.ln b = (u', .ok ss))
    (hmay : ∀ q ∈ ds.zip ss, mayMerge (rCols a) (rCols b) q.1 q.2) (hheap : ∀ q ∈ ds.zip ss, (mergeRows q.1 q.2).heap.length ≤ rCols a)
    (hp : vocPlaces u' l.ln ((((ds.zip ss).map fun q => mergeRows q.1 q.2).zip ds).zipIdx.flatMap fun q =>
      rowWrites a q.2 q.1.1 q.1.2.form q.1.2.c q.1.2.delta (q.1.2.form / 2 ^ 7 % 16)) = (w, .ok ps)) :
    BlocksWritten x (execVmrg e h y) s w ps := by
  unfold execVmrg
  refine voc_writes hr hfree rfl rfl (areaCheck_ok ha hb hdetail hrange) ?_
  have h0 : (areas x l h.toNat y.toNat).rc 0 = a := ha.symm
  have h1 : (areas x l h.toNat y.toNat).rc 1 = b := hb.symm
  have hcap : overCap (rCols a) 0 (((ds.zip ss).map fun q => mergeRows q.1 q.2).map fun r => r.heap.length) = none :=
    overCap_none (List.forall_mem_map.2 (List.forall_mem_map.2 hheap))
  simp only [h0, h1, hd, hs]
  refine (if_neg ?head).trans <| (if_neg ?rank).trans ?_
  case head =>
    rw [Bool.not_eq_true, List.any_eq_false]
    rintro ⟨d, t⟩ hq
    have hdt : mayMerge (rCols a) (rCols b) d t := hmay _ hq
    obtain ⟨hres, hres', hform, hc, hdelta, hlab, hcnt, hcnt', -⟩ := hdt
    simp only [hres, hres', ← hform, hc, hdelta, hlab, not_lt.2 hcnt, not_lt.2 hcnt', bne_self_eq_false, decide_false, Bool.or_self,
      Bool.false_eq_true, not_false_eq_true]
  case rank =>
    rw [Bool.not_eq_true, List.any_eq_false]
    rintro ⟨d, t⟩ hq
    have hdt : mayMerge (rCols a) (rCols b) d t := hmay _ hq
    obtain ⟨-, -, -, -, -, -, -, -, hone, hnext⟩ := hdt
    simp only [← hone, hnext, bne_self_eq_false, Bool.or_self, Bool.false_eq_true, not_false_eq_true]
  simp only [hcap, hp]

/-- A `vfin` whose rows pass, and fit the final area, writes their final row blocks (R290). -/
theorem execVfin_writes {rows : List RowBlk} (hr : UnitReady x (.vfin e h y) s l) (hdetail : areaDetail a b 13 [1, 2] = 0)
    (hread : readRows (vocTaken x s) l.ln b = (u, .ok rows)) (hfit : ∀ r ∈ rows, r.res = 0 ∧ r.cnt ≤ rCols b ∧ r.cnt ≤ rCols a)
    (hp : vocPlaces u l.ln (rows.zipIdx.map fun r => (a, r.2 * rStride a, 128 + 8 * r.1.cnt, finalBytes r.1)) = (w, .ok ps)) :
    BlocksWritten x (execVfin e h y) s w ps := by
  unfold execVfin
  refine voc_writes hr hfree rfl rfl (areaCheck_ok ha hb hdetail hrange) ?_
  have h0 : (areas x l h.toNat y.toNat).rc 0 = a := ha.symm
  have h1 : (areas x l h.toNat y.toNat).rc 1 = b := hb.symm
  have hcap : overCap (rCols a) 0 (rows.map fun r => r.cnt) = none := by
    refine overCap_none (List.forall_mem_map.2 fun r hr => ?_)
    obtain ⟨-, -, hcnt⟩ := hfit r hr
    exact hcnt
  simp only [h0, h1, hread]
  refine (if_neg ?head).trans ?_
  case head =>
    rw [Bool.not_eq_true, List.any_eq_false]
    intro r hr
    obtain ⟨hres, hcnt, -⟩ := hfit r hr
    simp [hres, hcnt]
  simp only [hcap, hp]

end
end

/-- Settles O46: both instructions check their areas alike and write the places of what they compute. -/
theorem rowBlocks : Obligations.RowBlocks := by
  unfold Obligations.RowBlocks
  intro i s u x l ps hr hfree h
  cases h with
  | merge hdetail hrange hd hs hmay hheap hp => exact execVmrg_writes hfree rfl rfl hrange hr hdetail hd hs hmay hheap hp
  | final hdetail hrange hread hfit hp => exact execVfin_writes hfree rfl rfl hrange hr hdetail hread hfit hp

end Sys2Proof.Machine

/-! SUPPORT. The instructions of grids and of collectives, lane by lane. -/

namespace Sys2Proof.Machine

open State

/-! ### The instructions of grids and of collectives (R311-R315, R318, R325, R326, R341) -/

/-- The address of a launch record that is G and a multiple of 128 passes the checks of R311. -/
theorem gridAddr_eq_none {a : Nat} (hg : a < 2 ^ 56) (ha : a % 128 = 0) : gridAddr a = none := by
  have htag : bits a 63 56 = 0 := by unfold bits; rw [Nat.div_eq_of_lt hg, Nat.zero_mod]
  unfold gridAddr
  rw [htag, ha]
  rfl

/-- A result that `cqy` or `gqy` owes is the one of R144. -/
theorem owe_eq_gets (t : Thread) (la reg n v : Nat) : owe t la reg n v = t.gets la reg n v := by
  unfold owe Thread.gets
  simp only [beq_iff_eq]

/-- While a grid is listed, `gqy` answers from its root by the order of R315's selectors. -/
theorem gqyValue_of_grid {s : State} {key v sel n : Nat} {g : Grid} (hg : s.grid key = some g) (hn : (rootValues g)[sel]? = some n) :
    gqyValue s key v sel = n := by
  have hsel : sel < 9 := (List.getElem?_eq_some_iff.1 hn).1
  unfold gqyValue
  rw [hg]
  interval_cases sel <;> exact Option.some.inj hn

/-- A chunk that two registers name (R326). -/
theorem chunkOf_eq_some {g : Grid} {b c : Nat} {x : Coll} (hx : g.colls[b]? = some x) (hc : c < x.nch) : chunkOf g b c = some x := by
  unfold chunkOf
  rw [hx, Option.bind_some, if_pos hc]

/-- The state word of a chunk is R325's. -/
theorem chunkWord_eq_bits (s : State) (g : Grid) (b c : Nat) (cb : Coll) : chunkWord s g b c cb = chunkBits s g b c cb := by
  unfold chunkWord chunkBits
  simp only [Bool.and_eq_true, beq_iff_eq]

/-- Each of these instructions runs lane by lane, and a lane that acts as `GridLane` says is over. -/
theorem grid_lanes {i : Instr} (hi : isGrid i = true) :
    ∃ e f, exec i = execLanes e (gridFields i) f ∧ ∀ s l u v, GridLane i s l u v → f s l = (u, .ok v) := by
  cases i with
  | glch e x y la =>
    refine ⟨e, _, rfl, fun s l u v h => ?_⟩
    cases h with
    | launch hg ha => simp only [gridAddr_eq_none hg ha]; rfl
  | gcan e y =>
    refine ⟨e, _, rfl, fun s l u v h => ?_⟩
    cases h with
    | cancel hh => simp only [hh]
  | gwt e y =>
    refine ⟨e, _, rfl, fun s l u v h => ?_⟩
    cases h with
    | @wait _ _ _ _ u key _ hh hown hdone =>
      simp only [hh, beq_iff_eq, hown, if_false]
      cases hg : u.grid key with
      | none => rfl
      | some g => simp only [hdone g hg, Bool.not_true, Bool.false_and, Bool.false_eq_true, if_false, if_true]
  | gqy e x y sel la =>
    refine ⟨e, _, rfl, fun s l u v h => ?_⟩
    cases h with
    | query hh hg hn => simp only [hh, gqyValue_of_grid hg hn, owe_eq_gets]
    | ended hh => simp only [hh, owe_eq_gets]
  | cfr e y =>
    refine ⟨e, _, rfl, fun s l u v h => ?_⟩
    cases h with
    | fired hcb hin => simp only [hcb, List.contains_eq_mem, hin, decide_true, if_true]
    | fire hcb hnew hfree =>
      simp only [hcb, List.contains_eq_mem, hnew, slotSrc, hfree, decide_false, Bool.false_eq_true, if_false]
  | cwt e y z =>
    refine ⟨e, _, rfl, fun s l u v h => ?_⟩
    cases h with
    | @chunk _ _ _ _ _ _ k hcb hc hk hst =>
      have hover : chunkState l.ln.g (l.ln.t.reg l.a) (l.ln.t.reg l.b) = k.st := by unfold chunkState; rw [hk]; rfl
      simp only [chunkOf_eq_some hcb hc, hover, hst, if_true]
  | cqy e x y z la =>
    refine ⟨e, _, rfl, fun s l u v h => ?_⟩
    cases h with
    | state hcb hc => simp only [chunkOf_eq_some hcb hc, owe_eq_gets, chunkWord_eq_bits]
  | _ => cases hi

/-- Settles O40: each of the instructions runs lane by lane, as the rules relate it (`grid_lanes`). -/
theorem gridsAndCollectives : Obligations.GridsAndCollectives := by
  unfold Obligations.GridsAndCollectives
  intro i s u x _ hi h
  obtain ⟨e, f, he, hf⟩ := grid_lanes hi
  rw [he]
  exact act_done h e hf

end Sys2Proof.Machine

/-! SUPPORT. The steps of a launch and of the dispatch tree, and the start of a block. -/

namespace Sys2Proof.Machine

open State

/-! ### Launches (R296, R300, R311) -/

/-- A launch that may be read now is answered by what the checks of its record find: its handle where they pass, or their status. -/
theorem exec_launchRequest_ready {s : State} {id : Nat} {q : Request} {rec_ cid level part pkg : Nat} {queue : Option (QRef × Packet)}
    (hq : (s.reqs.find? fun q => q.id == id && q.answer.isNone) = some q) (hid : q.id = id) (hk : q.kind = .launch rec_ cid level part pkg queue)
    (hr : LaunchReady s q rec_ cid level queue) :
    exec (.launchRequest id) s = .next (match checkLaunch s level cid rec_ with
      | .ok l => launchAnswer (accept s level cid pkg l queue) id l.r.rcba
      | .error st => launchAnswer s id (st + 0xFFFFFFFF * 2 ^ 32)) := by
  obtain ⟨hturn, hreleased, hfree⟩ := hr
  show execLaunchRequest id s = _
  unfold execLaunchRequest
  simp only [hq, hk]
  refine (if_neg ?held).trans ?_
  case held =>
    rw [Bool.not_eq_true, hfree, Bool.or_false, Bool.or_eq_false_iff, List.any_eq_false]
    refine ⟨fun y hy => ?_, ?_⟩
    · simp only [Bool.and_eq_true, decide_eq_true_eq, beq_iff_eq, Option.isNone_iff_eq_none]
      rintro ⟨⟨⟨⟨⟨hlt, hopen⟩, hcore⟩, hgen⟩, hslot⟩, hlaunch⟩
      split at hlaunch
      next a b c d e f hy' => exact hturn y hy ⟨a, b, c, d, e, f, hy'⟩ (hid ▸ hlt) hopen hcore hgen hslot
      next => cases hlaunch
    · cases queue with
      | none => exact hreleased rfl
      | some _ => rfl
  cases checkLaunch s level cid rec_ <;> rfl

/-- An answer that has been given goes to its thread. -/
theorem exec_requestResultArrival {s : State} {id v : Nat} {q : Request} (hq : (s.reqs.find? fun q => q.id == id && q.answer.isSome) = some q)
    (hv : q.answer = some v) : exec (.requestResultArrival id) s = .next (deliverAnswer s q v) := by
  show execRequestResultArrival id s = _
  unfold execRequestResultArrival
  simp only [hq, hv, Option.getD_some]

/-! ### Placement and the commands of the tree (R301, R303, R306, R307, R425-R431) -/

section
variable {s : State} {l : Link} {h : Nat} {g : Grid}

/-- A die leader places the head neighbourhood that finds a rectangle, and searches again (R429, R431). -/
theorem exec_neighbourhoodPlacement_places {pkg die first : Nat} {again : Bool} {r : List (Nat × Nat)}
    (hp : placeable s pkg die = some (g, first, again, r)) :
    exec (.neighbourhoodPlacement pkg die) s = .next ((placeNb s g pkg die first again r).postOnce (.neighbourhoodPlacement pkg die)) := by
  show execNeighbourhoodPlacement pkg die s = _
  unfold execNeighbourhoodPlacement
  rw [hp]

/-- A die leader to whom no grid offers a neighbourhood with a place does nothing. -/
theorem exec_neighbourhoodPlacement_none {pkg die : Nat} (hp : placeable s pkg die = none) : exec (.neighbourhoodPlacement pkg die) s = .next s := by
  show execNeighbourhoodPlacement pkg die s = _
  unfold execNeighbourhoodPlacement
  rw [hp]

/-- A CANCEL that its receiver takes goes to the die leader by tag 0, and to a leaf otherwise (R307, R308). -/
theorem exec_cancel {cmode : Bool} (hl : l.malformed = false) :
    exec (.cancel l h cmode) s = .next (if l.tag = 0 then cancelDie s l h cmode else cancelLeaf s (leafCores s l) h cmode) := by
  show execCancel l h cmode s = _
  unfold execCancel
  rw [hl]
  simp only [Bool.false_eq_true, if_false, beq_iff_eq]
  split_ifs <;> rfl

section
variable (ht : Takes s l h g)
include ht

/-- No condition of a command passes over one that its receiver takes. -/
theorem Takes.not_dropped : (l.malformed || g.complete) = false := by rw [ht.wellformed, ht.lives]; rfl

/-- A die that is not cancelled takes the range that a DEAL brings, and looks for places (R301). -/
theorem exec_deal {lo hi : Nat} {n : Node} (hn : g.dieNode l.pkg l.die = some n) (hst : n.st ≠ 3) (hlt : lo < hi) :
    exec (.deal l h lo hi) s = .next ((dealt s l h lo hi).postOnce (.neighbourhoodPlacement l.pkg l.die)) := by
  have hg : ((s.grid h).bind fun g => (g.dieNode l.pkg l.die).map fun n => (g, n)) = some (g, n) := by
    rw [ht.grid, Option.bind_some, hn, Option.map_some]
  show execDeal l h lo hi s = _
  unfold execDeal
  simp only [hg, ht.not_dropped, beq_eq_false_iff_ne.2 hst, decide_eq_false (Nat.not_le.2 hlt), Bool.or_self, Bool.false_eq_true, if_false]
  rfl

/-- A command to a grid does for its receiver what it does for the grid, where the receiver takes it. -/
theorem Takes.answer (f : Grid → State) :
    (match s.grid h with
      | none => .next s
      | some g => if l.malformed || g.complete then .next s else .next (f g)) = (.next (f g) : Host.Outcome State Fault Refusal) := by
  simp only [ht.grid, ht.not_dropped, Bool.false_eq_true, if_false]

/-- A START admits its workgroup or says why not, and the leader takes that status (R427). -/
theorem exec_start {a : StartArgs} : exec (.start l h a) s = .next (startAnswered (admitStart s l g a).1 l h a (admitStart s l g a).2) :=
  ht.answer fun g => startAnswered (admitStart s l g a).1 l h a (admitStart s l g a).2

/-- A GO sends every workgroup of its neighbourhood on the leaf's cores to have its frames cleared (R427). -/
theorem exec_go {first : Nat} : exec (.go l h first) s = .next ((toStart s l h first g).foldl goneOn s) :=
  ht.answer fun g => (toStart s l h first g).foldl goneOn s

/-- A DEMAND has the package's dies served (R301). -/
theorem exec_demand {n : Nat} : exec (.demand l h n) s = .next (servePkg s h l.pkg) := ht.answer fun _ => servePkg s h l.pkg

/-- A COUNT is added up the tree, after which blocks may be dealt and the grid may complete (R303). -/
theorem exec_count {d : Deltas} : exec (.count l h d) s = .next (tryFinish (servePkg (addCount s h l.pkg l.die d) h l.pkg) h) :=
  ht.answer fun _ => tryFinish (servePkg (addCount s h l.pkg l.die d) h l.pkg) h

/-- A FAULTREC reaches the fault area (R306). -/
theorem exec_faultrec {r : FaultRec} : exec (.faultrec l h r) s = .next (tryFinish (takeFault s h r) h) :=
  ht.answer fun _ => tryFinish (takeFault s h r) h

end

/-- A grid whose time budget has run out is cancelled with CCAUSE bit 2 (R300). -/
theorem exec_timeBudgetExpiry (hg : s.grid h = some g) (hlives : g.complete = false) (hbudget : g.lrec.tbudget ≠ 0)
    (hdue : g.accepted + 1000 * g.lrec.tbudget ≤ s.time g.rootPkg) : exec (.timeBudgetExpiry h) s = .next (tryFinish (cancelGrid s h 4) h) := by
  show execTimeBudgetExpiry h s = _
  unfold execTimeBudgetExpiry
  simp only [hg, hlives, beq_eq_false_iff_ne.2 hbudget, decide_eq_false (Nat.not_lt.2 hdue), Bool.or_self, Bool.false_eq_true, if_false]

end

/-! ### The start of a block (R23, R51-R53, R63) -/

section
variable {s : State} {c : CoreRef} {wslot : Nat} {k : Ctx} {w : Workgroup} {g : Grid} {imgs : List Nat}

/-- The context, workgroup and grid of a block that may start. -/
theorem Startable.found (h : Startable s c wslot k w g imgs) :
    ((s.core c).ctx.bind fun k => (k.wg wslot).bind fun w => (s.grid w.grid).map fun g => (k, w, g)) = some (k, w, g) := by
  rw [h.ctx, Option.bind_some, h.wg, Option.bind_some, h.grid, Option.map_some]

/-- No condition of the step passes over a block that may start. -/
theorem Startable.not_skipped (h : Startable s c wslot k w g imgs) : (w.started || !w.cleared) = false ∧ (k.st != .running) = false := by
  rw [h.fresh, h.told, h.runs]
  exact ⟨rfl, rfl⟩

/-- A page of the frames whose clearing meets a second-stage fault waits for the hypervisor (R404). -/
theorem exec_frameClearingDone_faults {va ipa kind : Nat} (h : Startable s c wslot k w g imgs)
    (hw : clearWait s g (clearRef c k.gen wslot) w.block = some (va, ipa, kind)) :
    exec (.frameClearingDone c wslot) s = .next ((s.noteStage2 (clearRef c k.gen wslot) true va ipa kind).post (.frameClearingDone c wslot)) := by
  obtain ⟨hskip, hruns⟩ := h.not_skipped
  show execFrameClearingDone c wslot s = _
  unfold execFrameClearingDone
  simp only [h.found, hskip, hruns, hw, Bool.false_eq_true, if_false]

section
variable (h : Startable s c wslot k w g imgs) (hw : clearWait s g (clearRef c k.gen wslot) w.block = none)
include h hw

/-- A line of the frames that a copy engine owns holds the clearing back (R91). -/
theorem exec_frameClearingDone_held (hheld : clearHeld s g w.block = true) :
    exec (.frameClearingDone c wslot) s = .next (s.post (.frameClearingDone c wslot)) := by
  obtain ⟨hskip, hruns⟩ := h.not_skipped
  show execFrameClearingDone c wslot s = _
  unfold execFrameClearingDone
  simp only [h.found, hskip, hruns, hw, h.images, hheld, Bool.false_eq_true, if_false, if_true]

/-- A block starts with clear frames; its first start is noted at its die and package, a relaunch's is not (R301). -/
theorem exec_frameClearingDone_starts (hfree : clearHeld s g w.block = false) :
    exec (.frameClearingDone c wslot) s =
      .next (if w.relaunches = 0 then noteBegun (blockStarts s c k.gen w g imgs) g.handle c.pkg c.die else blockStarts s c k.gen w g imgs) := by
  obtain ⟨hskip, hruns⟩ := h.not_skipped
  obtain rfl := h.slot
  show execFrameClearingDone c w.slot s = _
  unfold execFrameClearingDone
  simp only [h.found, hskip, hruns, hw, h.images, hfree, Bool.false_eq_true, if_false, beq_iff_eq]
  rfl

end

end

/-- Settles O54, step by step: each condition of a rule is one that the step's own checks let pass. -/
theorem treeSteps : Obligations.TreeSteps := by
  unfold Obligations.TreeSteps
  intro i s t h
  cases h with
  | launches hq hid hk hr hc => rw [exec_launchRequest_ready hq hid hk hr, hc]
  | refuses hq hid hk hr hc => rw [exec_launchRequest_ready hq hid hk hr, hc]
  | result hq hv => exact exec_requestResultArrival hq hv
  | places hp => exact exec_neighbourhoodPlacement_places hp
  | noPlace hp => exact exec_neighbourhoodPlacement_none hp
  | deal ht hn hst hlt => exact exec_deal ht hn hst hlt
  | start ht => exact exec_start ht
  | go ht => exact exec_go ht
  | cancelAtDie hl htag => rw [exec_cancel hl, if_pos htag]
  | cancelAtLeaf hl htag => rw [exec_cancel hl, if_neg htag]
  | demand ht => exact exec_demand ht
  | count ht => exact exec_count ht
  | faultrec ht => exact exec_faultrec ht
  | budget hg hlives hbudget hdue => exact exec_timeBudgetExpiry hg hlives hbudget hdue
  | begins h hw hfree hfirst => rw [exec_frameClearingDone_starts h hw hfree, if_pos hfirst]
  | beginsAgain h hw hfree hagain => rw [exec_frameClearingDone_starts h hw hfree, if_neg hagain]
  | clearingFaults h hw => exact exec_frameClearingDone_faults h hw
  | clearingHeld h hw hheld => exact exec_frameClearingDone_held h hw hheld

end Sys2Proof.Machine

/-! SUPPORT. The steps of the collective engines: a chunk accepted, translated, served, read and written. -/

namespace Sys2Proof.Machine

open State

section
variable {s : State} {h i c r : Nat} {x : ChunkAt}

/-! ### Acceptance (R323) -/

section
variable {e : Engine} (ha : Accepting s h i c r x e)
include ha

/-- The engine of a rank has the chunk to accept. -/
theorem Accepting.toAccept : toAccept s x i r = true := by
  unfold Machine.toAccept
  simp [ha.lives, ha.waits, ha.turn]

/-- The buffer's room is counted in the bytes that the communicator uses of it. -/
theorem Accepting.bufferRoom : bufferRoom s x r = decide (bufUsed e x + x.b.cb ≤ 2 ^ x.m.logbuf) := by
  unfold Machine.bufferRoom bufUsed
  simp only [ha.number, ha.engine]

/-- A chunk for which there is room is accepted, and its engine looks for one to serve. -/
theorem exec_chunkAcceptance_accepts (hroom : bufUsed e x + x.b.cb ≤ 2 ^ x.m.logbuf) :
    exec (.chunkAcceptance h i c r) s = .next ((acceptChunk s x h i c r).postOnce (.engineArbitration (x.pkgOf r) (c % 12))) := by
  show execChunkAcceptance h i c r s = _
  unfold execChunkAcceptance
  simp only [ha.chunk, ha.toAccept, ha.bufferRoom, hroom, decide_true, Bool.not_true, Bool.false_eq_true, if_false]

/-- A chunk for which there is no room asks again later. -/
theorem exec_chunkAcceptance_noRoom (hroom : 2 ^ x.m.logbuf < bufUsed e x + x.b.cb) :
    exec (.chunkAcceptance h i c r) s = .next (s.post (.chunkAcceptance h i c r)) := by
  show execChunkAcceptance h i c r s = _
  unfold execChunkAcceptance
  simp only [ha.chunk, ha.toAccept, ha.bufferRoom, Nat.not_le.2 hroom, decide_false, Bool.not_true, Bool.not_false, Bool.false_eq_true, if_false,
    if_true]

end

/-- An accepted chunk that its engine has translated before enters the arbitration at once. -/
theorem acceptChunk_translated (hr : r ∈ x.k.translated) : acceptChunk s x h i c r = enterEngine (reserved s h i c r x) h i c r := by
  unfold acceptChunk
  simp only [List.contains_eq_mem, hr, decide_true, if_true]
  rfl

/-- An accepted chunk that its engine has not translated is translated. -/
theorem acceptChunk_untranslated (hr : r ∉ x.k.translated) : acceptChunk s x h i c r = translateChunk (reserved s h i c r x) x h i c r := by
  unfold acceptChunk
  simp only [List.contains_eq_mem, hr, decide_false, Bool.false_eq_true, if_false]
  rfl

/-- A chunk whose step can be made waits to be served. -/
theorem enterEngine_waits (hx : chunkAt s h i c = some x) (hmay : x.mayRead s i r = true ∨ x.mayWrite s i r = true) :
    enterEngine s h i c r =
      modEngine s (x.pkgOf r) (c % 12) fun e => { e with waiting := e.waiting ++ [(x.m.part, x.m.comm, h, i, c, r)] } := by
  unfold enterEngine
  simp only [hx, Bool.or_eq_true, hmay, if_true]

/-! ### Translation (R463) -/

/-- An engine whose translation of a chunk succeeds notes the pages and goes on. -/
theorem translateChunk_ok {ps : List (Nat × Nat)} (hp : chunkPages s x c r = .ok ps) : translateChunk s x h i c r = translatedBy s h i c r ps := by
  unfold translateChunk
  rw [hp]
  rfl

/-- A chunk that an engine cannot translate is LOST on every rank. -/
theorem translateChunk_fail (hp : chunkPages s x c r = .fail) : translateChunk s x h i c r =
    (let u : State := { s with xwaits := s.xwaits.filter fun w => !(w.stage == 2 && w.engine && w.t == engineRef (x.pkgOf r) (c % 12) r) }
     loseChunk u ((chunkAt u h i c).getD x) h i (x.pkgOf r) true) := by
  unfold translateChunk
  rw [hp]

/-- An engine goes on with the translation that had to wait. -/
theorem exec_chunkTranslation (ht : Translating s h i c r x) :
    exec (.chunkTranslation h i c r) s = .next ((translateChunk s x h i c r).postOnce (.engineArbitration (x.pkgOf r) (c % 12))) := by
  obtain ⟨hx, hlives, hacc, hwaits⟩ := ht
  show execChunkTranslation h i c r s = _
  unfold execChunkTranslation
  simp only [hx, hlives, List.contains_eq_mem, hacc, hwaits, decide_true, decide_false, Bool.not_true, Bool.or_self, Bool.false_eq_true, if_false]

end

/-! ### Arbitration (R323) -/

section
variable {s : State} {pkg stack : Nat} {e : Engine} {y : Nat × Nat × Nat × Nat × Nat × Nat}

/-- An engine serves the chunk that comes first in the highest class that waits. -/
theorem NextChunk.served (hn : NextChunk s e y) : served s e = some y := by
  obtain ⟨best, hbest, hy⟩ := hn
  unfold Machine.served
  simp only [hbest, Option.bind_some]
  exact hy

section
variable (he : ((s.pkg pkg).engines.find? fun e => e.stack == stack) = some e)
include he

/-- An idle engine begins the step of the chunk that it serves next. -/
theorem arbitrate_begins (hidle : e.current = none) (hn : NextChunk s e y) : arbitrate s pkg stack =
    (modEngine s pkg stack fun e =>
      { e with current := some y, waiting := e.waiting.erase y,
               lastComm := sset 0 e.lastComm (classOf s y.1 y.2.1) ((commTurn y.1 y.2.1 + 1) % 1024) }).post (.chunkStepCompletion pkg stack) := by
  unfold arbitrate
  simp only [he, hidle, hn.served, Option.isSome_none, Bool.false_eq_true, if_false]

/-- An engine at work begins no other step. -/
theorem arbitrate_busy (hbusy : e.current = some y) : arbitrate s pkg stack = s := by
  unfold arbitrate
  simp only [he, hbusy, Option.isSome_some, if_true]

end

end

/-! ### The steps of a chunk (R319, R321, R325, R342) -/

section
variable {s : State} {pkg stack h i c r : Nat} {x : ChunkAt}

/-- A completed step leaves the engine idle and its bytes of the buffer free, does what the rank's turn is, and makes a chunk boundary. -/
theorem exec_chunkStepCompletion (ha : EngineAt s pkg stack h i c r x) :
    exec (.chunkStepCompletion pkg stack) s = .next (boundary (chunkStep (stepTaken s pkg stack h i r x) x h i c r) pkg stack) := by
  obtain ⟨⟨e, part, comm, he, hcur⟩, hx, hlives, hacc, hfree⟩ := ha
  have hstep : (((s.pkg pkg).engines.find? fun e => e.stack == stack).bind fun e => e.current) = some (part, comm, h, i, c, r) := by
    rw [he, Option.bind_some, hcur]
  show execChunkStepCompletion pkg stack s = _
  unfold execChunkStepCompletion
  simp only [hstep, hx, hlives, hfree, List.contains_eq_mem, hacc, decide_true, Bool.not_false, Bool.and_false, Bool.false_eq_true, if_false, if_true]
  rfl

/-- A rank whose turn is to read takes its source in. -/
theorem chunkStep_reads {v : Nat} (hread : x.mayRead s i r = true) (hv : engBytes s x.k.pages (x.b.cb / 2 ^ 16 + 2) (x.srcAt r) x.b.cb = some v) :
    chunkStep s x h i c r =
      nextSteps ((chargeChunk s x r .read).modGrid h fun g => modChunk g i c fun k => { k with src := k.src ++ [(r, v)] }) h i c := by
  unfold chunkStep
  simp only [hread, hv, if_true]

/-- A rank whose turn is to write puts the result at its destinations; the last writer ends the chunk COMPLETE. -/
theorem chunkStep_writes {v : State} (hread : x.mayRead s i r = false) (hwrite : x.mayWrite s i r = true)
    (hv : v = ((x.dstAt r).foldl (fun s d => engPut s x.k.pages (x.b.cb / 2 ^ 16 + 2) d.1 x.b.cb (chunkResult x d.2)) (chargeChunk s x r .write)).modGrid h
      (fun g => modChunk g i c fun k => { k with written := k.written ++ [r] })) :
    chunkStep s x h i c r = if x.k.written.length + 1 = x.writers.length then endChunk v h i c 2 false else nextSteps v h i c := by
  subst hv
  unfold chunkStep
  simp only [hread, hwrite, Bool.false_eq_true, if_false, if_true, beq_iff_eq]

end

/-- Settles O55, by what each step makes of the chunk that it is of. -/
theorem collectiveSteps : Obligations.CollectiveSteps := by
  unfold Obligations.CollectiveSteps
  intro i s t h
  cases h with
  | acceptsFirst ha hroom hnew hp => rw [exec_chunkAcceptance_accepts ha hroom, acceptChunk_untranslated hnew, translateChunk_ok hp]
  | accepts ha hroom hr hy hmay => rw [exec_chunkAcceptance_accepts ha hroom, acceptChunk_translated hr, enterEngine_waits hy hmay]
  | noRoom ha hroom => exact exec_chunkAcceptance_noRoom ha hroom
  | translated ht hp => rw [exec_chunkTranslation ht, translateChunk_ok hp]
  | lost ht hp => rw [exec_chunkTranslation ht, translateChunk_fail hp]
  | arbitrates he hidle hn => exact congrArg _ (arbitrate_begins he hidle hn)
  | serving he hbusy => exact congrArg _ (arbitrate_busy he hbusy)
  | reads ha hu hread hv => rw [exec_chunkStepCompletion ha, ← hu, chunkStep_reads hread hv]
  | writes ha hu hread hwrite hv => rw [exec_chunkStepCompletion ha, ← hu, chunkStep_writes hread hwrite hv]
  | switch => rfl

end Sys2Proof.Machine

/-! SUPPORT. Time that passes, what reset leaves, privileged instructions below their level and at it, the control of cores, and the entry into a
handler with the return from it. -/

namespace Sys2Proof.Machine

open State

/-! ### Time that passes (R38, R365) -/

/-- The fraction of a nanosecond that a tick leaves is what remains modulo 2^16. -/
theorem frac_tickPackage (n e : Nat) (p : Package) : (tickPackage n e p).clock.frac < 2 ^ 16 := Nat.mod_lt _ (Nat.two_pow_pos 16)

/-- A tick ends the issue and leaves every package's clock as `tickPackage` makes it. -/
theorem settled_tick (s : State) : (tick s).settled := by
  refine ⟨rfl, fun p hp => ?_⟩
  obtain ⟨q, -, rfl⟩ := List.mem_map.1 hp
  exact frac_tickPackage s.free (Config.elapsed q.id s.free) q

/-- What a step answers has passed a tick. -/
theorem eq_tick_of_step {s t : State} (h : step s = .next t) : ∃ u, t = tick u := by
  unfold step at h
  split at h
  · cases h; exact ⟨s, rfl⟩
  · split at h <;> cases h
    exact ⟨_, rfl⟩

/-- Settles O8: every step ends in a tick, which leaves the state settled. -/
theorem stepKeepsSettled : Obligations.StepKeepsSettled := by
  unfold Obligations.StepKeepsSettled
  intro s t h
  obtain ⟨u, rfl⟩ := eq_tick_of_step h
  exact settled_tick u

/-! ### What reset leaves (R348, R366, R410, R440, R451, R457) -/

/-- Settles O10: the one package is `Package.reset 0`, whose fields are the listed ones. -/
theorem reset_leaves : Obligations.ResetLeaves := by
  unfold Obligations.ResetLeaves
  refine ⟨Package.reset 0, rfl, ?_⟩
  and_intros <;> rfl

/-! ### Privileged instructions below their level (R345, R350) -/

/-- Each instruction with a level passes the check of that level before anything else. -/
theorem exec_sys {i : Instr} (h : sysLevel i ≠ 0) : ∃ e f, exec i = execSys e (sysLevel i) f := by
  unfold sysLevel at h ⊢
  split at h
  case h_10 => exact absurd rfl h
  all_goals exact ⟨_, _, rfl⟩

/-- Settles O21: what `execSys` answers below the level. -/
theorem privilegeTraps : Obligations.PrivilegeTraps := by
  unfold Obligations.PrivilegeTraps
  intro i s x hn hs hl
  obtain ⟨e, f, hf⟩ := exec_sys hn
  rw [hf]
  unfold execSys
  rw [onIssue_eq hs]
  refine ⟨fun h0 => ?_, fun h0 => ⟨e, ?_⟩⟩
  · rw [if_pos (beq_iff_eq.2 h0)]
  · rw [if_neg (by simpa using h0), if_pos hl]

/-! ### Special registers, translations, phaser holds, the horizon table and the aperture (R346-R363) -/

/-- `hzn` completes where its lanes do. -/
theorem hzn_done {e : Bool} {d b : BitVec 6} {a : BitVec 3} {s u : State} {x : Iss} (hl : 3 ≤ x.grid.level)
    (h : ActUnit x (sysFields (.hzn e d a b)) (SysLane x (.hzn e d a b)) s u) : ∃ t, execHzn e d a b s = .next t ∧ (Stands x u → UnitDone x u t) := by
  unfold execHzn
  refine sys_done e three_ne_zero hl h rfl fun s l u v r => ?_
  cases r with
  | hzn hw => simp only [hw]

/-- `dbgr` completes where its lanes do. -/
theorem dbgr_done {e : Bool} {d a : BitVec 5} {s u : State} {x : Iss} (hl : 2 ≤ x.grid.level)
    (h : ActUnit x (sysFields (.dbgr e d a)) (SysLane x (.dbgr e d a)) s u) : ∃ t, execDbgr e d a s = .next t ∧ (Stands x u → UnitDone x u t) := by
  unfold execDbgr
  refine sys_done e two_ne_zero hl h rfl fun s l u v r => ?_
  cases r with
  | dbgr ha => simp only [ha, beq_iff_eq]; rfl

/-- Settles O38, instruction by instruction. -/
theorem systemRegisters : Obligations.SystemRegisters := by
  unfold Obligations.SystemRegisters
  intro i s u x hw hn hc hl h
  cases i with
  | csrr e d n => exact csrr_done (wf_csr hw) hl h
  | csrw e d n => exact csrw_done (wf_csr hw) hl h
  | tlbi e a b => exact tlbi_done hl h
  | phld e d a b => exact phld_done hl h
  | hzn e d a b => exact hzn_done hl h
  | dbgr e d a => exact dbgr_done hl h
  | halt | ctxs | ctxl => cases hc
  | _ => exact absurd rfl hn

/-! ### Core control (R353-R357) -/

section
variable {s u w : State} {x : Iss} {v n : Nat} {l : LaneIn} (hi : Issues s x) (hr : x.g.hint.hrep = none) (hl : 2 ≤ x.grid.level)
  (hn : x.active.head? = some n)
include hi hr hl hn

/-- What `halt` does where it ends at once (R354, R355). -/
theorem halt_done {e : Bool} {d b : BitVec 6} {a : BitVec 5} (hx : s.laneIn x (sysFields (.halt e d a b)) n = some l) (hw : (sysFields (.halt e d a b)).within l.ln.t.c none = true)
    (hc : Control x (.halt e d a b) s l u v) (h : LaneSteps x (sysFields (.halt e d a b)) (fun s l u t => u = s ∧ t = l.ln.t.setReg l.d v) x.active u w) :
    ∃ t, execHalt e d a b s = .next t ∧ (Stands x w → UnitDone x w t) := by
  unfold execHalt
  refine ctl_done e hi hr hl hn hx hw ?_ h
  cases hc with
  | free hs hm he => simp [hs, hm, he]
  | haltGone hs hm he hk =>
    simp only [hs]
    rw [if_neg (by omega), if_neg (by simpa using he)]
    split
    · rfl
    next k hctx => rw [if_pos (by simpa using hk k hctx)]
  | haltSelf hs hm hk hg =>
    simp only [hs, hk, hg, notEmpty hk]
    rw [if_neg (by omega)]
    simp
  | halted hs hm hne hk hg hh => simp [hs, hm, hne, hk, hg, hh]
  | runs hs hm hne hk hg hh => simp [hs, hm, hne, hk, hg, hh, notEmpty hk]
  | resume hs hm hne hk hg hh hlv => simp [hs, hm, hne, hk, hg, hh, hlv, notEmpty hk, (halted_stands hh).1]
  | resumeLater hs hm hne hk hg hh hlv =>
    simp [hs, hm, hne, hk, hg, hh, hlv, notEmpty hk, (halted_stands hh).1, (halted_stands hh).2 hlv]

/-- What `ctxs` does (R354, R356). -/
theorem ctxs_done {e : Bool} {d : BitVec 6} {a b : BitVec 5} (hx : s.laneIn x (sysFields (.ctxs e d a b)) n = some l) (hw : (sysFields (.ctxs e d a b)).within l.ln.t.c none = true)
    (hc : Control x (.ctxs e d a b) s l u v) (h : LaneSteps x (sysFields (.ctxs e d a b)) (fun s l u t => u = s ∧ t = l.ln.t.setReg l.d v) x.active u w) :
    ∃ t, execCtxs e d a b s = .next t ∧ (Stands x w → UnitDone x w t) := by
  unfold execCtxs
  refine ctl_done e hi hr hl hn hx hw ?_ h
  cases hc with
  | saveGone hs hk =>
    simp only [hs]
    split
    · rfl
    next k hctx => rw [if_pos (by simpa using hk k hctx)]
  | saveBusy hs hk hg hh => simp [hs, hk, hg, hh]
  | save hs hk hg hh h0 hp =>
    simp only [hs, hk, hg, hh, h0, hp, Nat.reducePow]
    simp

/-- What `ctxl` does (R357, R379, R439). -/
theorem ctxl_done {e : Bool} {d : BitVec 6} {a b : BitVec 5} (hx : s.laneIn x (sysFields (.ctxl e d a b)) n = some l) (hw : (sysFields (.ctxl e d a b)).within l.ln.t.c none = true)
    (hc : Control x (.ctxl e d a b) s l u v) (h : LaneSteps x (sysFields (.ctxl e d a b)) (fun s l u t => u = s ∧ t = l.ln.t.setReg l.d v) x.active u w) :
    ∃ t, execCtxl e d a b s = .next t ∧ (Stands x w → UnitDone x w t) := by
  unfold execCtxl
  refine ctl_done e hi hr hl hn hx hw ?_ h
  cases hc with
  | loadBusy hs he => simp [hs, he]
  | load hs he h0 hd hk =>
    simp only [hs, he, h0, hd, hk, Nat.reducePow]
    simp

end

/-- Settles O39, instruction by instruction. -/
theorem coreControls : Obligations.CoreControl := by
  unfold Obligations.CoreControl
  intro i s u w x v n l hi hs hr hl hn hx hw hc h
  cases i with
  | halt e d a b => exact halt_done hs hr hl hn hx hw hc h
  | ctxs e d a b => exact ctxs_done hs hr hl hn hx hw hc h
  | ctxl e d a b => exact ctxl_done hs hr hl hn hx hw hc h
  | _ => cases hi

/-! ### Handlers (R46, R333-R335) -/

/-- A thread that begins its handler, once its window has moved up and its return has been pushed (R333). -/
def atHandler (f : FaultRec) (h : Nat) (t : Thread) : Thread :=
  let t' := (t.setReg 0 f.code).setReg 1 f.detail
  { t' with pc := h, inHandler := true, entryLinks := t.links, faultTrap := f.code, fault := f, entryRec := f, held := none, spillPc := none,
            ppre := false, yielded := t'.yielded || t'.ppre }

theorem entered_atHandler {f : FaultRec} {h ret : Nat} {s u u' v : State} {ln : Lane} {t1 t2 : Thread}
    (hm : s.moveWindow ln (ln.t.wb + ln.t.c) ln.t.c = (u, .ok t1)) (hp : u'.pushLink ln t1 ret ln.t.c = (v, .ok t2)) : Entered f h ln.t (atHandler f h t2) := by
  obtain ⟨ht1, hv, -⟩ := moveWindow_thread hm
  obtain rfl := pushLink_thread hp
  have hv' : SparseWf 0 (t1.setReg 0 f.code).v := wset_wf hv _ _
  constructor
  case pc => rfl
  case handler => exact ⟨rfl, rfl, rfl⟩
  case code => exact fun _ => (reg_setReg _ 1 0 _ hv').trans (by rw [if_neg zero_ne_one]; exact (reg_setReg t1 0 0 _ hv).trans (if_pos rfl))
  case detail => exact fun _ => (reg_setReg _ 1 1 _ hv').trans (if_pos rfl)
  case window | link | kept =>
    rw [ht1]
    and_intros <;> rfl

/-- Settles O35: an entry that answers a thread has found room, moved the window, pushed the return and written the two registers. -/
theorem handlerEntry : Obligations.HandlerEntry := by
  unfold Obligations.HandlerEntry
  intro s u ln f ret h t he
  unfold enterHandler at he
  simp only [] at he
  split at he
  · cases he
  split at he
  · cases he
  next hroom =>
    split at he
    · cases he
    next hm =>
      split at he
      · cases he
      next hp =>
        cases he
        exact ⟨by omega, entered_atHandler hm hp⟩

/-- A member that has returned (R334). -/
def backHome (th : Thread) : Thread := { th with pend := .none }

/-- Every member's own part of an `eret` done, the group still together. -/
def returned (x : Iss) (u : State) : State := x.g.members.foldl (fun s t => s.modThread x.c x.g.wslot t backHome) u

theorem returned_spec (x : Iss) (u : State) :
    OnCore x.c u (returned x u) ∧ (∀ w, w ≠ x.g.wslot → (returned x u).wg x.c w = u.wg x.c w) ∧
    (∀ w, u.wg x.c x.g.wslot = some w → ∃ ths, (returned x u).wg x.c x.g.wslot = some { w with threads := ths }) ∧
    (∀ i, (returned x u).thread x.c x.g.wslot i = if i ∈ x.g.members then (u.thread x.c x.g.wslot i).map backHome else u.thread x.c x.g.wslot i) ∧
    (((returned x u).core x.c).ctx.bind fun k => k.group x.g.slot) = (u.core x.c).ctx.bind fun k => k.group x.g.slot :=
  ⟨foldl_modThread_onCore _ _ _ _ _, fun _ hne => wg_foldl_modThread _ _ _ _ hne _ _, fun _ h => wg_foldl_modThread_self _ _ _ _ _ _ h,
    fun i => thread_foldl_modThread _ _ backHome (fun _ => rfl) (fun _ => rfl) i _ _, group_foldl_modThread _ _ _ _ _ _⟩

theorem returned_noMerge {x : Iss} {u : State} (hm : NoMerge u x.c) : NoMerge (returned x u) x.c := by
  unfold returned
  generalize x.g.members = l
  induction l generalizing u with
  | nil => exact hm
  | cons a l ih => exact ih (hm.modCtx (fun k => k.modWg x.g.wslot fun w => w.modThread a backHome) fun k hk => hk)

/-- No member of a group that returns stands outside a handler, by whatever test finds one. -/
theorem Returns.any_outside {s u : State} {x : Iss} (h : Returns x s u) {p : Nat → Bool} (hp : ∀ t th, x.w.thread t = some th → p t = !th.inHandler) :
    x.g.members.any p = false :=
  List.any_eq_false.2 fun t ht => by
    obtain ⟨th, hth, hin, -⟩ := h.inside t ht
    simp [hp t th hth, hin]

/-- No member of a group that returns came by a CANCEL, by whatever test finds one. -/
theorem Returns.filter_cancelled {s u : State} {x : Iss} (h : Returns x s u) {p : Nat → Bool}
    (hp : ∀ t th, x.w.thread t = some th → p t = (th.faultTrap == Code.cancel.num)) : x.g.members.filter p = [] :=
  List.filter_eq_nil_iff.2 fun t ht => by
    obtain ⟨th, hth, -, hc⟩ := h.inside t ht
    simpa [hp t th hth] using hc

theorem Returns.filter_home {s u : State} {x : Iss} (h : Returns x s u) {p : Nat → Bool}
    (hp : ∀ t th, x.w.thread t = some th → p t = (th.faultTrap == Code.cancel.num)) :
    (x.g.members.filter fun t => !(x.g.members.filter p).contains t) = x.g.members := by
  rw [h.filter_cancelled hp]
  simp

/-- An `eret` from handlers that no CANCEL entered sends every member to the seedbed (R334). -/
theorem exec_eret {s u : State} {x : Iss} (h : Returns x s u) (e : Bool) :
    exec (.eret e) s = .next (((returned x u).leave x.c x.g.slot x.g.members .seedbed).endUnit x e true .none) := by
  have hall : (x.g.members.filter fun t => !([] : List Nat).contains t) = x.g.members := by simp
  show execEret e s = _
  unfold execEret
  rw [onIssue_eq h.issues]
  dsimp only
  rw [h.any_outside fun t th ht => by simp only [ht], if_neg Bool.false_ne_true, spillWait_eq _ (.inl h.filled), h.lanes.foldl h.single ?_]
  · dsimp only
    rw [if_neg Bool.false_ne_true, trapsOr_nil, List.map_nil, hall, h.filter_home fun t th ht => by simp only [ht],
      h.filter_cancelled fun t th ht => by simp only [ht], if_neg (by simpa using h.some_)]
    rfl
  · intro s l u v hl
    simp only [eretLane hl]

/-- Settles O37: each member's own part, and then all of them leave for the seedbed. -/
theorem handlerReturn : Obligations.HandlerReturn := by
  unfold Obligations.HandlerReturn
  intro e s u x h
  refine ⟨_, exec_eret h e, fun hu hm => ?_⟩
  obtain ⟨hf, hwgs, hwg, hth, hg⟩ := returned_spec x u
  exact parted_of (f := fun _ => backHome) e true hu (returned_noMerge hm) (fun _ _ => rfl) hf hwgs hwg hth hg (fun _ hi => hi) (.inl rfl)

end Sys2Proof.Machine

/-! SUPPORT. The steps of a context's halt, of its pre-fill, of its background part and of its drain. -/

namespace Sys2Proof.Machine

open State

/-! ### Halts (R54, R91, R245, R272, R354, R373) -/

section
variable {s : State} {c : CoreRef} {k : Ctx} (hk : (s.core c).ctx = some k) (hst : k.st = .halting)
include hk hst

/-- A context whose groups and engines have stopped is HALTED, and answers who asked for the halt or goes on to its swap. -/
theorem exec_coreHalted (hw : NoOpenLoad k) (he : EnginesStand s c k) :
    exec (.coreHalted c) s = .next (if (s.core c).leaving then (s.modCtx c (haltCtx s c.pkg)).post (.horizonSwap c)
      else answerHalts (s.modCtx c (haltCtx s c.pkg)) c k.gen 0) := by
  show execCoreHalted c s = _
  unfold execCoreHalted
  simp only [hk, hst]
  rw [if_neg (by decide)]
  refine (if_neg ?_).trans (if_neg (stand he))
  exact noOpen hw

/-- A halt that an open window or an engine holds up is looked at again. -/
theorem exec_coreHalted_again (h : (∃ g ∈ k.groups, ∃ w, k.wg g.wslot = some w ∧ openLoad g w = true) ∨ ¬EnginesStand s c k) :
    exec (.coreHalted c) s = .next (s.post (.coreHalted c)) := by
  show execCoreHalted c s = _
  unfold execCoreHalted
  simp only [hk, hst]
  rw [if_neg (by decide)]
  split_ifs with hopen hengines
  · rfl
  · rfl
  all_goals
    rcases h with ⟨g, hg, w, hw, ho⟩ | h
    · exact absurd (isOpen hg hw ho) hopen
    · exact absurd (notStand hengines) h

end

/-! ### Pre-fills (R372, R379) -/

section
variable {s : State} {c : CoreRef} {h : Hzn} (hp : prefillEntry s c = some h) (hr : (s.core c).inReady = false) (hi : (s.core c).inSlot = none)
  (hw : (s.core c).swap = .none)
include hp hr hi hw

/-- A context that the directory names stands in the in-slot. -/
theorem exec_prefillDone_loaded {u : State} {a : Nat} {k : Ctx} (hd : dirWord s h (64 * c.die + c.core) = some a) (h0 : a ≠ 0) (ha : a % 2 ^ 16 = 0)
    (hl : loadCtx s c h.ingen a (enginePa s h.incid .read) = (u, .ok k)) (hc : k.cid = h.incid) :
    exec (.prefillDone c) s = .next ((u.modCore c fun x => { x with inSlot := some { k with bgAway := true }, inReady := true }).wakeRecalls) := by
  show execPrefillDone c s = _
  unfold execPrefillDone
  simp only [hp, hr, hi, hw, hd]
  simp only [ha, hl, hc, bne_self_eq_false, Bool.or_self, Option.isSome_none, Bool.false_eq_true, if_false, beq_self_eq_true, if_true]

/-- A core for which the directory names no context, or cannot be read, has an empty in-slot. -/
theorem exec_prefillDone_empty (hd : dirWord s h (64 * c.die + c.core) = some 0) :
    exec (.prefillDone c) s = .next (s.modCore c fun x => { x with inSlot := none, inReady := true }) := by
  show execPrefillDone c s = _
  unfold execPrefillDone
  simp only [hp, hr, hi, hw, hd]
  rfl

theorem exec_prefillDone_unread (hd : dirWord s h (64 * c.die + c.core) = none) :
    exec (.prefillDone c) s = .next ((s.modCore c fun x => { x with inSlot := none, inReady := true }).countCore c 0x30) := by
  show execPrefillDone c s = _
  unfold execPrefillDone
  simp only [hp, hr, hi, hw, hd]
  rfl

end

/-! ### The background part (R374, R449) -/

/-- A background part that is away is read back, and the context goes on. -/
theorem exec_backgroundRestore_away {s : State} {c : CoreRef} {k : Ctx} (hk : (s.core c).ctx = some k) (ha : k.bgAway = true) :
    exec (.backgroundRestore c) s = .next (restart (s.modCtx c fun _ => { readBack s k with bgAway := false }) c) := by
  show execBackgroundRestore c s = _
  unfold execBackgroundRestore
  simp only [hk, ha, Bool.not_true, Bool.false_eq_true, if_false]

theorem exec_backgroundRestore_here {s : State} {c : CoreRef} {k : Ctx} (hk : (s.core c).ctx = some k) (ha : k.bgAway = false) :
    exec (.backgroundRestore c) s = .next s := by
  show execBackgroundRestore c s = _
  unfold execBackgroundRestore
  simp only [hk, ha, Bool.not_false, if_true]

section
variable {s : State} {c : CoreRef} {k : Ctx} (hk : (s.core c).expSlot = some k) (hh : backHeld s c = true)
include hk hh

/-- A victim's background part waits while a page of its save area is not mapped. -/
theorem exec_backgroundSave_waits {r : XFail} (hp : areaMap (enginePa s k.cid .save) k.saveHome 0 (areaPages 0xC40000) = .error r) :
    exec (.backgroundSave c) s = .next (s.post (.backgroundSave c)) := by
  show execBackgroundSave c s = _
  unfold execBackgroundSave
  simp only [hk, hh, hp, Bool.not_true, Bool.false_eq_true, if_false]

/-- A victim's background part is written to its sections of the save area, and who waits for it goes on. -/
theorem exec_backgroundSave {pages : List Nat} (hp : areaMap (enginePa s k.cid .save) k.saveHome 0 (areaPages 0xC40000) = .ok pages) :
    exec (.backgroundSave c) s = .next (((areaPut s pages (backArea s c k pages)).modCore c fun x =>
      { x with expSlot := some { k with bgAway := true } }).wakeAll c fun w => w == .background) := by
  show execBackgroundSave c s = _
  unfold execBackgroundSave
  simp only [hk, hh, hp, Bool.not_true, Bool.false_eq_true, if_false]

end

/-! ### Drains (R375, R376, R439)

The number of an area's pages is left open in these proofs, so that the kernel never computes it. -/

section
variable {s : State} {c : CoreRef} {k : Ctx} (hk : (s.core c).outSlot = some k)
include hk

/-- A drain stalls on a page of its save area that is not mapped. -/
theorem exec_outSlotDrainDone_stalls {r : XFail}
    (hp : areaMap (enginePa s k.cid .save) k.saveHome 0 (areaPages (toArea s c k k.saveHome).2) = .error r) :
    exec (.outSlotDrainDone c) s = .next (s.postOnce (.drainWriteFault c)) := by
  show execOutSlotDrainDone c s = _
  obtain ⟨f, hf⟩ : ∃ f, areaPages = f := ⟨areaPages, rfl⟩
  rw [hf] at hp
  simp only [execOutSlotDrainDone, hf]
  simp only [hk, hp]

/-- A drain whose pages are mapped ends: its context is lost where a line of its L is marked, and stands in its save area otherwise. -/
theorem exec_outSlotDrainDone {pages : List Nat}
    (hp : areaMap (enginePa s k.cid .save) k.saveHome 0 (areaPages (toArea s c k k.saveHome).2) = .ok pages) :
    exec (.outSlotDrainDone c) s = .next (drainOver (if lMarked s c k.gen then loseDrain s c k pages
      else (saveCtx s c k k.saveHome pages).modCore c fun x => { x with outSlot := none, stalledDrain := false }) c (partOfCid k.cid)) := by
  show execOutSlotDrainDone c s = _
  obtain ⟨f, hf⟩ : ∃ f, areaPages = f := ⟨areaPages, rfl⟩
  rw [hf] at hp
  simp only [execOutSlotDrainDone, hf]
  simp only [hk, hp]

/-- A drain whose pages are all mapped again goes on. -/
theorem exec_drainWriteFault_mapped
    (hp : ∀ i, i < areaPages (toArea s c k k.saveHome).2 → ∃ pa, enginePa s k.cid .save (k.saveHome + 2 ^ 16 * i) = .ok pa) :
    exec (.drainWriteFault c) s = .next (s.postOnce (.outSlotDrainDone c)) := by
  show execDrainWriteFault c s = _
  obtain ⟨f, hf⟩ : ∃ f, areaPages = f := ⟨areaPages, rfl⟩
  rw [hf] at hp
  simp only [execDrainWriteFault, hf]
  simp only [hk]
  rw [List.find?_eq_none.2 fun i hi => ?_]
  obtain ⟨pa, hpa⟩ := hp i (List.mem_range.1 hi)
  simp only [hpa]
  decide

/-- The hypervisor is given notice of the first page of a drain that is not mapped. -/
theorem exec_drainWriteFault {u : State} {i : Nat} {r : XFail} (hi : i < areaPages (toArea s c k k.saveHome).2)
    (hr : enginePa s k.cid .save (k.saveHome + 2 ^ 16 * i) = .error r)
    (hp : ∀ j, j < i → ∃ pa, enginePa s k.cid .save (k.saveHome + 2 ^ 16 * j) = .ok pa)
    (hu : u = (s.modCore c fun x => { x with stalledDrain := true }).modPart (partOfCid k.cid) (fun p => { p with saveStalled := true }))
    (hn : ∀ x ∈ u.xwaits, x.stage = 2 → x.t = { core := c, gen := k.gen, wslot := 2 ^ 20, tid := 0 } → x.va ≠ k.saveHome + 2 ^ 16 * i) :
    exec (.drainWriteFault c) s = .next (u.addWait
      { token := 0, t := { core := c, gen := k.gen, wslot := 2 ^ 20, tid := 0 }, engine := true, stage := 2, part := partOfCid k.cid, cid := k.cid,
        addr := k.saveHome + 2 ^ 16 * i, va := k.saveHome + 2 ^ 16 * i, kind := Acc.save.kind, time := u.time c.pkg }) := by
  show execDrainWriteFault c s = _
  obtain ⟨f, hf⟩ : ∃ f, areaPages = f := ⟨areaPages, rfl⟩
  rw [hf] at hi
  simp only [execDrainWriteFault, hf]
  simp only [hk]
  rw [List.find?_range_eq_some.2 ⟨?_, List.mem_range.2 hi, fun j hj => ?_⟩]
  · simp only [← hu]
    rw [if_neg]
    simp only [List.any_eq_true, Bool.and_eq_true, beq_iff_eq, not_exists, not_and]
    rintro x hx ⟨h2, ht⟩
    exact hn x hx h2 ht
  · simp only [hr]
  · obtain ⟨pa, hpa⟩ := hp j hj
    simp only [hpa]
    rfl

end

/-- Settles O51, step by step. -/
theorem haltSteps : Obligations.HaltSteps := by
  unfold Obligations.HaltSteps
  intro i s t h
  cases h with
  | halted hk hst hw he hl => rw [exec_coreHalted hk hst hw he, hl]; rfl
  | haltedToSwap hk hst hw he hl => rw [exec_coreHalted hk hst hw he, hl]; rfl
  | enginesGo hk hst he => exact exec_coreHalted_again hk hst (.inr he)
  | openWindow hk hst hg hw ho => exact exec_coreHalted_again hk hst (.inl ⟨_, hg, _, hw, ho⟩)
  | loaded hp hr hi hsw hd h0 ha hl hc hu => exact exec_prefillDone_loaded hp hr hi hsw hd h0 ha hl hc
  | loadedEmpty hp hr hi hsw hd => exact exec_prefillDone_empty hp hr hi hsw hd
  | notLoaded hp hr hi hsw hd => exact exec_prefillDone_unread hp hr hi hsw hd
  | restored hk ha => exact exec_backgroundRestore_away hk ha
  | nothingAway hk ha => exact exec_backgroundRestore_here hk ha
  | saveWaits hk hh hp => exact exec_backgroundSave_waits hk hh hp
  | saved hk hh hp => exact exec_backgroundSave hk hh hp
  | drainWaits hk hp => exact exec_outSlotDrainDone_stalls hk hp
  | drained hk hp hm => rw [exec_outSlotDrainDone hk hp, hm]; rfl
  | drainLost hk hp hm => rw [exec_outSlotDrainDone hk hp, hm]; rfl
  | mapped hk hp => exact exec_drainWriteFault_mapped hk hp
  | faulted hk hi hr hp hu hn => exact exec_drainWriteFault hk hi hr hp hu hn

end Sys2Proof.Machine

/-! SUPPORT. The steps of horizons and of express pre-emption. -/

namespace Sys2Proof.Machine

open State

/-! ### Horizons that fall due (R366, R371, R372) -/

section
variable {s : State} {pkg i : Nat} {h : Hzn} (ha : Armed s pkg i h)
include ha

/-- The pre-fills of an entry begin 100 µs before its TIME (R372). -/
theorem exec_horizonPrefill (hs : hznStarted (s.pkg pkg) i = false) (hg : h.ingen ≠ 0) (ht : h.time ≤ s.time pkg + 100000) :
    exec (.horizonPrefill pkg i) s = .next (beginPrefill s pkg i h) := by
  obtain ⟨rfl, hv, hf⟩ := ha
  show execHorizonPrefill pkg i s = _
  unfold execHorizonPrefill
  simp [hv, hf, hs, hg, ht]

theorem exec_horizonPrefill_early (ht : s.time pkg + 100000 < h.time) : exec (.horizonPrefill pkg i) s = .next s := by
  obtain ⟨rfl, hv, hf⟩ := ha
  show execHorizonPrefill pkg i s = _
  unfold execHorizonPrefill
  simp [ht]

/-- An entry does not fire before the earlier ones (R371). -/
theorem exec_horizonFire_notYet (hu : hznTurn (s.pkg pkg) h = false) : exec (.horizonFire pkg i) s = .next s := by
  obtain ⟨rfl, hv, hf⟩ := ha
  show execHorizonFire pkg i s = _
  unfold execHorizonFire
  simp [hu]

variable (hb : (s.pkg pkg).hznBusy.contains (i + 256) = false) (ht : h.time ≤ (s.pkg pkg).clock.ns) (hu : hznTurn (s.pkg pkg) h = true)
include hb ht hu

/-- A horizon that falls due while the clock is FREE or ARM is 0 is skipped by every core of its set (R366). -/
theorem exec_horizonFire_skipped (hoff : (s.pkg pkg).hznArm = false ∨ (s.pkg pkg).clock.st = .free) :
    exec (.horizonFire pkg i) s = .next ((h.cores pkg).foldl (fun s c => (dropIn s c).countCore c 0x38) (setFired s pkg i)) := by
  obtain ⟨rfl, hv, hf⟩ := ha
  have hskip : (!(s.pkg pkg).hznArm || (s.pkg pkg).clock.st == .free) = true := by
    rcases hoff with h | h <;> simp [h]
  show execHorizonFire pkg i s = _
  unfold execHorizonFire
  simp only [hv, hf, hb, hu, hskip, Nat.not_lt.2 ht, decide_false, Bool.not_true, Bool.or_self, Bool.false_eq_true, if_false, if_true]

/-- A horizon that falls due makes every core of its set act, its pre-fills beginning now where they have not begun (R371). -/
theorem exec_horizonFire (harm : (s.pkg pkg).hznArm = true) (hc : (s.pkg pkg).clock.st ≠ .free) :
    exec (.horizonFire pkg i) s = .next (settleFired (orderXloads ((h.cores pkg).foldl (fun s c => coreHorizon s i h c)
      ((if h.ingen != 0 && !(s.pkg pkg).hznBusy.contains i then beginPrefill s pkg i h else s).modPkg pkg fun p =>
        { p with hznBusy := p.hznBusy ++ [i + 256], hznHold := false })) pkg h) pkg) := by
  obtain ⟨rfl, hv, hf⟩ := ha
  show execHorizonFire pkg i s = _
  unfold execHorizonFire
  simp only [hv, hf, hb, hu, harm, beq_eq_false_iff_ne.2 hc, Nat.not_lt.2 ht, decide_false, Bool.not_true, Bool.or_self, Bool.false_eq_true, if_false]

end

/-! ### The swap of a core (R371-R376, R389, R390) -/

/-- A core that may swap does not wait for its context to halt, by whatever test tells that the context has. -/
theorem MaySwap.not_waiting {s : State} {c : CoreRef} (hm : MaySwap s c) {st : Bool} (hst : StoodStill s c → st = true) :
    ¬(!(s.core c).victim && !st) = true := by
  rcases hm with h | h
  · simp [h]
  · simp [hst h]

section
variable {s : State} {c : CoreRef} {g d t : Nat} {b r : Bool} (hsw : (s.core c).swap = .horizon g d b t r) (hm : MaySwap s c)
include hsw hm

/-- A core's swap at a horizon is held while a core of its set on the die still drains (R376). -/
theorem exec_horizonSwap_holds (hd : dieHeld s c (s.core c).swap = true) :
    exec (.horizonSwap c) s = .next ((s.modCore c fun x => { x with swap := .horizon g d true t r }).modPkg c.pkg fun p => { p with hznHold := true }) := by
  rw [hsw] at hd
  show execHorizonSwap c s = _
  unfold execHorizonSwap
  simp only [hsw, hd, if_true]
  exact if_neg (hm.not_waiting still)

/-- A core's swap at a horizon waits for the in-slot (R372). -/
theorem exec_horizonSwap_waits (hd : dieHeld s c (s.core c).swap = false) (hg : g ≠ 0) (hi : (s.core c).inReady = false) :
    exec (.horizonSwap c) s = .next s := by
  rw [hsw] at hd
  show execHorizonSwap c s = _
  unfold execHorizonSwap
  simp only [hsw, hd, hi, bne_iff_ne.2 hg, Bool.not_false, Bool.and_self, Bool.false_eq_true, if_false, if_true]
  exact if_neg (hm.not_waiting still)

/-- A core swaps at a horizon once its in-slot is filled (R375, R390). -/
theorem exec_horizonSwap (hd : dieHeld s c (s.core c).swap = false) (hi : g = 0 ∨ (s.core c).inReady = true) :
    exec (.horizonSwap c) s = .next (settleFired (if (s.core c).victim then swapVictim s c g else swapHorizon s c g r) c.pkg) := by
  have hfilled : (g != 0 && !(s.core c).inReady) = false := by rcases hi with h | h <;> simp [h]
  rw [hsw] at hd
  show execHorizonSwap c s = _
  unfold execHorizonSwap
  simp only [hsw, hd, hfilled, Bool.false_eq_true, if_false]
  exact if_neg (hm.not_waiting still)

end

/-- A victim comes back once the express job has left its core and the core has its cluster (R390). -/
theorem exec_horizonSwap_back {s : State} {c : CoreRef} {l : Leaf} (hsw : (s.core c).swap = .none) (hv : (s.core c).victim = true)
    (hk : (s.core c).ctx = none) (hl : clusterLeaf s c = some l) (hr : l.retired = false) : exec (.horizonSwap c) s = .next (swapBack s c) := by
  show execHorizonSwap c s = _
  unfold execHorizonSwap
  simp only [hsw, hv, hk, hl, hr, Option.map_some]
  rfl

section
variable {s : State} {c : CoreRef} {d l : Nat} {e r : Bool} (hsw : (s.core c).swap = .express d e l r)
include hsw

/-- A victim whose threads have all yielded halts (R336, R389). -/
theorem exec_horizonSwap_yielded {k : Ctx} (hk : (s.core c).ctx = some k) (hst : k.st = .running) (hy : allYielded s k = true) :
    exec (.horizonSwap c) s = .next (beginHalt s c) := by
  show execHorizonSwap c s = _
  unfold execHorizonSwap
  simp only [hsw, hk, hst, hy]
  rfl

/-- A core of an express job's set whose context has halted looks at the set (R389). -/
theorem exec_horizonSwap_exchanges (hs : StoodStill s c) : exec (.horizonSwap c) s = .next (execHorizonSwap.expressSwaps s c d r) := by
  show execHorizonSwap c s = _
  unfold execHorizonSwap
  simp only [hsw]
  split
  next k hk =>
    rw [hs k hk]
    rfl
  next => rfl

end

/-! ### Pre-emption (R336, R337, R387-R389) -/

section
variable {s : State} {c : CoreRef} {cid : Nat} {ev : Bool} (h : MayPreempt s c cid)
include h

/-- An EMPTY core is exchanged as it stands. -/
theorem exec_expressArrival_empty (hk : (s.core c).ctx = none) :
    exec (.expressArrival c cid ev) s = .next ((s.modCore c fun x => { x with swap := .express cid ev s.clk true }).post (.horizonSwap c)) := by
  obtain ⟨hsw, hv, k, hs, rfl⟩ := h
  show execExpressArrival c k.cid ev s = _
  unfold execExpressArrival
  simp [hsw, hv, hs, hk]

/-- A core whose context is HALTED is exchanged as it stands, and the context comes back HALTED. -/
theorem exec_expressArrival_halted {k : Ctx} (hk : (s.core c).ctx = some k) (hst : k.st = .halted) :
    exec (.expressArrival c cid ev) s = .next ((s.modCore c fun x => { x with swap := .express cid ev s.clk false }).post (.horizonSwap c)) := by
  obtain ⟨hsw, hv, k', hs, rfl⟩ := h
  show execExpressArrival c k'.cid ev s = _
  unfold execExpressArrival
  simp [hsw, hv, hs, hk, hst]

/-- A running victim is told, and halts where all of its threads count as having yielded. -/
theorem exec_expressArrival_running {k k' : Ctx} {n : Nat} (hk : (s.core c).ctx = some k) (hst : k.st = .running)
    (hn : n = s.clk + ((s.part (partOfCid k.cid)).map fun p => p.pbudget).getD 1400) (hk' : ((told s c cid ev n).core c).ctx = some k') :
    exec (.expressArrival c cid ev) s = if allYielded (told s c cid ev n) k' then .next (beginHalt (told s c cid ev n) c)
      else .next (wakeBoundary (told s c cid ev n) c) := by
  obtain ⟨hsw, hv, kx, hs, rfl⟩ := h
  subst hn
  unfold told at hk' ⊢
  show execExpressArrival c kx.cid ev s = _
  unfold execExpressArrival
  simp only [hsw, hv, hs, hk, hst, hk']
  simp

end

/-- A pre-emption comes after a swap that is in progress (R388). -/
theorem exec_expressArrival_later {s : State} {c : CoreRef} {cid : Nat} {ev : Bool} (h : (s.core c).swap ≠ .none) :
    exec (.expressArrival c cid ev) s = .next (s.post (.expressArrival c cid ev)) := by
  show execExpressArrival c cid ev s = _
  unfold execExpressArrival
  rw [if_pos (bne_iff_ne.2 h)]

/-- A victim that has not yielded when its budget runs out is forced to halt (R337, R389). -/
theorem exec_preemptBudgetExpiry {s : State} {c : CoreRef} {d l : Nat} {e r : Bool} {k : Ctx} (hsw : (s.core c).swap = .express d e l r)
    (hk : (s.core c).ctx = some k) (hst : k.st = .running) (hl : l ≤ s.clk) (hy : allYielded s k = false) :
    exec (.preemptBudgetExpiry c) s = .next (beginHalt ((s.modCtx c fun k =>
      { k with forced := true, wgs := k.wgs.map fun w => { w with threads := w.threads.map fun t => { t with ppre := false } } }).modPart
        (partOfCid k.cid) fun p => { p with saveForced := true }) c) := by
  show execPreemptBudgetExpiry c s = _
  unfold execPreemptBudgetExpiry
  simp only [hsw, hk, hst, hy, Nat.not_lt.2 hl, bne_self_eq_false, decide_false, Bool.or_self, Bool.false_eq_true, if_false]

/-! ### Packets from the fabric (R377, R387, R432) -/

/-- A packet for a context on a core is applied where the context stands, and kept in the log where it is away. -/
theorem exec_lateArrival_here {s : State} {c : CoreRef} {gen : Nat} {item : LateItem} {p : Place} (h : s.place c gen = some p) :
    exec (.lateArrival c gen item) s =
      .next ((s.modCtxAt c gen fun k => applyLate k item).wakeAll c fun w => w == .result || w == .phaser || w == .request) := by
  show execLateArrival c gen item s = _
  unfold execLateArrival
  simp only [h]

theorem exec_lateArrival_away {s : State} {c : CoreRef} {gen : Nat} {item : LateItem} (h : s.place c gen = none) :
    exec (.lateArrival c gen item) s = .next (s.logItem c gen item) := by
  show execLateArrival c gen item s = _
  unfold execLateArrival
  simp only [h]

section
variable {s : State} {l : Link} {addr core p : Nat} (hl : l.malformed = false) (he : (s.core { pkg := l.pkg, die := l.die, core := core }).expSlot = none)
  (hc : ({ pkg := l.pkg, die := l.die, core := core } : CoreRef) ∈ leafCores s l) (hp : corePart s { pkg := l.pkg, die := l.die, core := core } = some p)
include hl he hc hp

/-- A save area that is not mapped is counted (R432). -/
theorem exec_xload_unmapped {r : XFail} (hr : enginePa s (4096 * p) .read addr = .error r) :
    exec (.xload l addr core) s = .next (s.countDie l.pkg l.die 0x1020) := by
  show execXload l addr core s = _
  unfold execXload
  simp only [hl, he, List.contains_eq_mem, hc, hp, hr, decide_true, Option.isSome_none, Bool.or_self, Bool.not_true, Bool.false_eq_true, if_false]

/-- The save area of a job that may hold the express slot is loaded into it (R387, R432). -/
theorem exec_xload {pa : Nat} {q : Part} {j : Job} {u : State} {k : Ctx} (hpa : enginePa s (4096 * p) .read addr = .ok pa) (ha : addr % 2 ^ 16 = 0)
    (hq : s.part (partOfCid (s.readLoc (.g (pa + 28)) 2)) = some q) (hx : q.expr = true) (hj : s.job (s.readLoc (.g (pa + 28)) 2) = some j)
    (hg : j.gen = s.readLoc (.g (pa + 30)) 2)
    (hk : loadCtx s { pkg := l.pkg, die := l.die, core := core } (s.readLoc (.g (pa + 30)) 2) addr (enginePa s (4096 * p) .read) = (u, .ok k)) :
    exec (.xload l addr core) s = .next ((u.modCore { pkg := l.pkg, die := l.die, core := core } fun x =>
      { x with expSlot := some { k with bgAway := true } }).wakeRecalls) := by
  show execXload l addr core s = _
  unfold execXload
  simp only [hl, he, List.contains_eq_mem, hc, hp, hpa, ha, hq, hx, hj, hg, hk, decide_true, Option.isSome_none, Option.map_some, Option.getD_some,
    bne_self_eq_false, beq_self_eq_true, Bool.and_self, Bool.or_self, Bool.not_true, Bool.false_eq_true, if_false]

end

/-- Settles O52, step by step. -/
theorem swapSteps : Obligations.SwapSteps := by
  unfold Obligations.SwapSteps
  refine ⟨fun i s t h => ?_, fun i s t h => ?_⟩
  · cases h with
    | prefill ha hs hg ht => exact exec_horizonPrefill ha hs hg ht
    | early ha ht => exact exec_horizonPrefill_early ha ht
    | notYet ha hu => exact exec_horizonFire_notYet ha hu
    | skipped ha hb ht hu hoff => exact exec_horizonFire_skipped ha hb ht hu hoff
    | fires ha hb ht hu harm hc hbegun => rw [exec_horizonFire ha hb ht hu harm hc, if_neg (by rcases hbegun with h | h <;> rw [h] <;> simp)]
    | firesLate ha hb ht hu harm hc hg hbegun => rw [exec_horizonFire ha hb ht hu harm hc, if_pos (by rw [hbegun]; simpa using hg)]
    | swaps hsw hv hs hd hi => rw [exec_horizonSwap hsw (.inr hs) hd hi, hv]; rfl
    | swapsVictim hsw hv hd hi => rw [exec_horizonSwap hsw (.inl hv) hd hi, hv]; rfl
    | holds hsw hm hd => exact exec_horizonSwap_holds hsw hm hd
    | waits hsw hm hd hg hi => exact exec_horizonSwap_waits hsw hm hd hg hi
    | back hsw hv hk hl hr => exact exec_horizonSwap_back hsw hv hk hl hr
    | yielded hsw hk hst hy => exact exec_horizonSwap_yielded hsw hk hst hy
    | exchanged hsw hs hset => exact exec_horizonSwap_exchanges hsw hs
  · cases h with
    | empty h hk => exact exec_expressArrival_empty h hk
    | halted h hk hst => exact exec_expressArrival_halted h hk hst
    | running h hk hst hn hk' hy => rw [exec_expressArrival_running h hk hst hn hk', hy]; rfl
    | ready h hk hst hn hk' hy => rw [exec_expressArrival_running h hk hst hn hk', hy]; rfl
    | later h => exact exec_expressArrival_later h
    | forced hsw hk hst hl hy => exact exec_preemptBudgetExpiry hsw hk hst hl hy
    | lateHere h => exact exec_lateArrival_here h
    | lateAway h => exact exec_lateArrival_away h
    | xloadBad hl he hc hp hr => exact exec_xload_unmapped hl he hc hp hr
    | xloaded hl he hc hp hpa ha hq hx hj hg hk => exact exec_xload hl he hc hp hpa ha hq hx hj hg hk

end Sys2Proof.Machine

/-! SUPPORT. The steps of clocks, of the Zenith election and of the PPS signals, and the answers to translation notices. -/

namespace Sys2Proof.Machine

open State

/-! ### Sync messages (R364-R366) -/

section
variable {s : State} {pkg : Nat} {off : Int}

theorem Booted.not_down (h : Booted s pkg) : ((s.pkg pkg).mgmt.boot == .booting || (s.pkg pkg).mgmt.boot == .bootfail) = false := by
  simp [h.1, h.2]

/-- A Sync message gives the servo its rate and is judged by its offset. -/
theorem exec_ptpSync (h : Booted s pkg) (hs : ¬((s.pkg pkg).clock.st = .free ∧ off < -20)) :
    exec (.ptpSync pkg off) s = .next (judgeOffset (modClock s pkg fun c => { c with slew := servoRate s.free }) pkg off) := by
  have hstep : ((s.pkg pkg).clock.st == .free && decide (off < -20)) = false := by simpa using hs
  show execPtpSync pkg off s = _
  unfold execPtpSync
  simp only [h.not_down, hstep, Bool.false_eq_true, if_false]
  rfl

/-- A FREE clock that lags steps to the master's time, and is judged as one without offset. -/
theorem exec_ptpSync_steps (h : Booted s pkg) (hf : (s.pkg pkg).clock.st = .free) (ho : off < -20) :
    exec (.ptpSync pkg off) s =
      .next (judgeOffset (modClock s pkg fun c => { c with slew := servoRate s.free, ns := c.ns + off.natAbs }) pkg 0) := by
  have hstep : ((s.pkg pkg).clock.st == .free && decide (off < -20)) = true := by simp [hf, ho]
  show execPtpSync pkg off s = _
  unfold execPtpSync
  simp only [h.not_down, hstep, Bool.false_eq_true, if_false, if_true]
  rfl

/-- HOLDOVER that has lasted 10 s ends with the clock FREE. -/
theorem exec_holdoverTimeout (hh : (s.pkg pkg).clock.st = .holdover) (ht : (s.pkg pkg).clock.heldAt + 10 * 10 ^ 9 ≤ (s.pkg pkg).up) :
    exec (.holdoverTimeout pkg) s = .next (modClock s pkg fun c => { c with st := .free, good := 0 }) := by
  show execHoldoverTimeout pkg s = _
  unfold execHoldoverTimeout holdoverLimit
  simp only [hh, ht, decide_true, beq_self_eq_true, Bool.and_self, if_true]

/-- A Sync interval of a package that is no grandmaster sends its Sync messages. -/
theorem exec_syncIntervalExpiry {u : State} (hu : u = modClock s pkg (fun c => { c with syncAt := (s.pkg pkg).up })) (hp : (u.pkg pkg).mgmt.ppsSeen = false) :
    exec (.syncIntervalExpiry pkg) s =
      .next { u with out := u.out ++ ((List.range 16).filter fun i => Config.masterPort pkg i).map fun i => .ptpSync pkg i } := by
  subst hu
  exact congrArg Host.Outcome.next (if_neg (by simp only [Bool.not_eq_true]; exact hp))

end

/-! ### The Zenith election (R367, R368) -/

section
variable {s : State} {pkg : Nat} {h : Beat}

/-- A beat that a package heeds names its Zenith peer; another leaves it as it was. -/
theorem hearBeat_heeds (hh : Heeds (s.pkg pkg).clock h) : hearBeat s pkg h = heeded s pkg h := by
  unfold hearBeat
  exact if_neg (Bool.eq_false_iff.1 (heeds_iff.1 hh))

theorem hearBeat_not_heeds (hh : ¬Heeds (s.pkg pkg).clock h) : hearBeat s pkg h = s := by
  rw [heeds_iff, Bool.not_eq_false] at hh
  unfold hearBeat
  exact if_pos hh

/-- The Zenith peer multicasts its heartbeat. -/
theorem exec_heartbeatTimer {u : State} (hz : (s.pkg pkg).clock.zenith = true) (hu : u = modClock s pkg (fun c => { c with beatAt := (s.pkg pkg).up })) :
    exec (.heartbeatTimer pkg) s =
      .next (multicast { u with out := u.out ++ [.heartbeat (beatOf (s.pkg pkg))] } pkg fun t q => hearBeat t q (beatOf (s.pkg pkg))) := by
  subst hu
  show execHeartbeatTimer pkg s = _
  unfold execHeartbeatTimer
  simp only [hz, Bool.not_true, Bool.false_eq_true, if_false]

/-- A candidate that has missed three heartbeats claims the role and publishes its entries. -/
theorem exec_heartbeatLoss {u : State} (hc : (s.pkg pkg).clock.candidate = true) (hz : (s.pkg pkg).clock.zenith = false)
    (ht : (s.pkg pkg).clock.beatAt + 3000000 ≤ (s.pkg pkg).up)
    (hu : u = modClock s pkg (fun c =>
      { c with zenith := true, epoch := c.epoch + 1, best := (c.prio, pkg), beatAt := (s.pkg pkg).up, version := topVersion s + 1 })) :
    exec (.heartbeatLoss pkg) s =
      .next (multicast { u with out := u.out ++ [.claim (beatOf (u.pkg pkg))] } pkg fun t q =>
        ((s.pkg pkg).hzn.filter fun e => (hznOf e.2).valid && !(hznOf e.2).fired).foldl (fun t e => tableWrite t q (beatOf (u.pkg pkg)) e.1 e.2)
          (hearClaim t q (beatOf (u.pkg pkg)))) := by
  subst hu
  show execHeartbeatLoss pkg s = _
  unfold execHeartbeatLoss
  simp only [hc, hz, Nat.not_lt.2 ht, decide_false, Bool.not_true, Bool.or_self, Bool.false_eq_true, if_false]

/-- A table write of the Zenith peer of the highest epoch is applied; another is discarded and counted. -/
theorem tableWrite_applied {i : Nat} {e : BitVec 256} (he : h.epoch = (s.pkg pkg).clock.epoch) (hb : (h.prio, h.pid) = (s.pkg pkg).clock.best) :
    tableWrite s pkg h i e = modClock (hznWrite s pkg i e).1 pkg fun c => { c with version := max c.version h.version } := by
  unfold tableWrite
  simp only [he, hb, bne_self_eq_false, Bool.or_self, Bool.false_eq_true, if_false]

theorem tableWrite_discarded {i : Nat} {e : BitVec 256} (hn : h.epoch ≠ (s.pkg pkg).clock.epoch ∨ (h.prio, h.pid) ≠ (s.pkg pkg).clock.best) :
    tableWrite s pkg h i e = s.countPkg pkg 0x2028 := by
  unfold tableWrite
  exact if_pos (by rw [Bool.or_eq_true, bne_iff_ne, bne_iff_ne]; exact hn)

end

/-! ### PPS (R458) -/

section
variable {s : State} {pkg : Nat}

/-- A rising edge of PPS_IN begins a second on a grandmaster. -/
theorem exec_ppsInEdge (hg : Config.grandmaster pkg = true) :
    exec (.ppsInEdge pkg) s =
      .next (modClock (modMgmt s pkg fun m => { m with tai := none, ppsSeen := true, ppsSec := edgeSecond (s.pkg pkg) }) pkg
        (clockAtEdge s (edgeSecond (s.pkg pkg)))) := by
  show execPpsInEdge pkg s = _
  unfold execPpsInEdge
  simp only [hg, Bool.not_true, Bool.false_eq_true, if_false]
  refine congrArg Host.Outcome.next (congrArg (modClock _ pkg) (funext fun c => if_congr ?_ rfl rfl))
  show (c.st == .free && decide (c.ns < edgeSecond (s.pkg pkg) * 10 ^ 9)) = true ↔ _
  rw [Bool.and_eq_true, beq_iff_eq, decide_eq_true_iff]

theorem exec_ppsInEdge_noMaster (hg : Config.grandmaster pkg = false) : exec (.ppsInEdge pkg) s = .next s := by
  show execPpsInEdge pkg s = _
  unfold execPpsInEdge
  simp only [hg, Bool.not_false, if_true]

/-- PPS_OUT rises at a whole second of a clock that is not FREE. -/
theorem exec_ppsOutSecond (h : (s.pkg pkg).clock.st ≠ .free) :
    exec (.ppsOutSecond pkg) s = .next (modMgmt s pkg fun m => { m with ppsOut := true, ppsRose := (s.pkg pkg).clock.ns }) :=
  congrArg Host.Outcome.next (if_neg (by simpa using h))

theorem exec_ppsOutSecond_free (h : (s.pkg pkg).clock.st = .free) : exec (.ppsOutSecond pkg) s = .next s :=
  congrArg Host.Outcome.next (if_pos (by simpa using h))

end

/-- Settles O58, step by step. -/
theorem clockSteps : Obligations.ClockSteps := by
  unfold Obligations.ClockSteps
  intro i s t h
  cases h with
  | sync h hs => exact exec_ptpSync h hs
  | step h hf ho => exact exec_ptpSync_steps h hf ho
  | delay => rfl
  | lost => rfl
  | holdoverOver hh ht => exact exec_holdoverTimeout hh ht
  | interval hp hu hq => exact exec_syncIntervalExpiry hu hq
  | beat hh => exact congrArg _ (hearBeat_heeds hh)
  | beatOld hh => exact congrArg _ (hearBeat_not_heeds hh)
  | claim hh => exact congrArg _ (hearBeat_heeds hh)
  | beats hz hu => exact exec_heartbeatTimer hz hu
  | claims hc hz ht hu => exact exec_heartbeatLoss hc hz ht hu
  | table he hb => exact congrArg _ (tableWrite_applied he hb)
  | tableOther hn => exact congrArg _ (tableWrite_discarded hn)
  | edge hg => exact exec_ppsInEdge hg
  | noMaster hg => exact exec_ppsInEdge_noMaster hg
  | rise h => exact exec_ppsOutSecond h
  | freeClock h => exact exec_ppsOutSecond_free h
  | fall => rfl

/-! ### Answers to translation notices (R404, R407, R408) -/

section
variable {s : State} {pkg token : Nat} {p : XWait → Bool} {x : XWait}

/-- A response to a notice that stands is its answer, unless it declines a save. -/
theorem respond_answers {decline : Bool} (hx : Noticed s token p x) (hk : decline = true → x.kind ≠ Acc.save.kind) :
    respond s pkg token decline p = answerNotice s x decline := by
  unfold respond
  rw [hx.found]
  refine if_neg ?_
  rw [Bool.and_eq_true, beq_iff_eq, not_and]
  exact hk

/-- A decline of a save is ignored and counted. -/
theorem respond_save (hx : Noticed s token p x) (hk : x.kind = Acc.save.kind) : respond s pkg token true p = s.countPkg pkg 0x2030 := by
  unfold respond
  rw [hx.found]
  exact if_pos (by rw [hk, beq_self_eq_true, Bool.and_self])

theorem respond_unknown {decline : Bool} (hx : (s.xwaits.find? fun x => x.token == token && x.notified && p x && outstanding s x) = none) :
    respond s pkg token decline p = s.countPkg pkg 0x2030 := by
  unfold respond
  rw [hx]

/-- A write of XRESP answers in the ring of the function's partition, and does nothing where the function has none. -/
theorem guestRespond_guest {fn part : Nat} {decline : Bool} (hg : guestPart s pkg fn = some part) :
    guestRespond s pkg fn token decline = respond s pkg token decline fun x => x.stage == 1 && x.part == part := by
  unfold guestRespond
  rw [hg]

theorem guestRespond_other {fn : Nat} {decline : Bool} (hg : guestPart s pkg fn = none) : guestRespond s pkg fn token decline = s := by
  unfold guestRespond
  rw [hg]

/-- A walk tries its notice again; a resolved access goes on where its context runs. -/
theorem exec_translationWalk (hx : (s.xwaits.find? fun x => x.token == token) = some x) :
    exec (.translationWalk token) s =
      .next (if (x.resolved || x.declined) && x.stage == 1 && runsAt (s.tryNotify token) x.t.core x.t.gen then settleXlate (s.tryNotify token) x
        else s.tryNotify token) := by
  show execTranslationWalk token s = _
  unfold execTranslationWalk
  rw [hx]

end

/-- Settles O53: each response is the answer of the notice that it names. -/
theorem noticeSteps : Obligations.NoticeSteps := by
  unfold Obligations.NoticeSteps
  intro i s t h
  cases h with
  | resolve hg hx => exact congrArg _ ((guestRespond_guest hg).trans (respond_answers hx Bool.false_ne_true.elim))
  | decline hg hx hk => exact congrArg _ ((guestRespond_guest hg).trans (respond_answers hx fun _ => hk))
  | notGuest hg => exact congrArg _ (guestRespond_other hg)
  | hResolve hx => exact congrArg _ (respond_answers hx Bool.false_ne_true.elim)
  | hDecline hx hk => exact congrArg _ (respond_answers hx fun _ => hk)
  | hSave hx hk => exact congrArg _ (respond_save hx hk)
  | hUnknown hx => exact congrArg _ (respond_unknown hx)
  | walk hx hr hd => rw [exec_translationWalk hx, hr, hd]; rfl
  | walkAgain hx hr hs hrun => rw [exec_translationWalk hx, hr, hs, hrun]; rfl

end Sys2Proof.Machine

/-! SUPPORT. The packets of launch queues. -/

namespace Sys2Proof.Machine

open State

/-! ### LAUNCH, WAITSIG and SIGNAL (R413, R414) -/

section
variable {q : QRef} {p : Packet} {s : State} {lv part cid : Nat} (h : Served s q lv part cid)
include h

theorem exec_launch {l : Launching} (h1 : p.arg1 < 2) (hl : checkLaunch s lv cid p.arg0 = .ok l) :
    exec (.launch q p) s = .next (finishPacket (accept s lv cid q.pkg (inStream l p) (some (q, p))) q p 0 l.r.rcba (p.arg1 == 0)) := by
  show execLaunch q p s = _
  unfold execLaunch
  rw [onQueue_next h lv.zero_le (decide_eq_true h1)]
  simp only [hl]
  rfl

theorem exec_launch_refused {st : Nat} (h1 : p.arg1 < 2) (hl : checkLaunch s lv cid p.arg0 = .error st) :
    exec (.launch q p) s = .next (ended s q p st) := by
  show execLaunch q p s = _
  unfold execLaunch
  rw [onQueue_next h lv.zero_le (decide_eq_true h1)]
  simp only [hl]
  rfl

/-- The word that a queue watches, read at the queue's level. -/
theorem watched_of {va v : Nat} (hv : gBytes s lv cid va 8 = .ok v) : watched s q va = some v := by
  unfold Served at h
  unfold watched
  simp only [h, hv]

/-- WAITSIG ends at once where its word has reached the value, and otherwise leaves a watch. -/
theorem exec_waitsig {v : Nat} (h8 : p.arg0 % 8 = 0) (hv : gBytes s lv cid p.arg0 8 = .ok v) :
    exec (.waitsig q p) s = .next (if p.arg1 ≤ v then ended s q p 0x10
      else (s.modQueue q fun x => { x with watch := some (p, p.arg0, p.arg1) }).postOnce (.waitsigWake q.pkg q.fn)) := by
  show execWaitsig q p s = _
  unfold execWaitsig
  rw [onQueue_next h lv.zero_le (beq_iff_eq.2 h8)]
  simp only [watched_of h hv]
  rfl

/-- SIGNAL waits while a grid that the queue launched is incomplete. -/
theorem exec_signal (h0 : p.arg0 = 0) (h1 : p.arg1 = 0) :
    exec (.signal q p) s = .next (if queueBusy s q then s.modQueue q fun x => { x with signal := some p } else ended s q p 0x10) := by
  show execSignal q p s = _
  unfold execSignal
  rw [onQueue_next h lv.zero_le (by rw [h0, h1]; rfl)]
  rfl

/-! ### PARTSET (R391-R394) -/

/-- A descriptor that passes every check changes its partition, unless what it takes away is in use. -/
theorem exec_partset {v : Nat} (hlv : 1 ≤ lv) (h1 : p.arg1 = 0) (hv : gBytes s lv cid p.arg0 128 = .ok v)
    (hf : partFormatOk s q.pkg v (partDesc v) = true) (hlev : if (partDesc v).depth = 0 then lv = 2 else lv = 1 ∧ part = (partDesc v).parent)
    (hr : (partDesc v).op = 2 ∨ partResourceOk s q.pkg (partDesc v) = true) :
    exec (.partset q p) s = .next (if partBusy s q.pkg (partDesc v) then ended s q p 0x13 else ended (applyPart s q.pkg (partDesc v)) q p 0x10) := by
  have hlev' : (if (partDesc v).depth == 0 then lv == 2 else lv == 1 && part == (partDesc v).parent) = true := by
    by_cases h0 : (partDesc v).depth = 0 <;> simpa [h0] using hlev
  have hres : ((partDesc v).op != 2 && !partResourceOk s q.pkg (partDesc v)) = false := by rcases hr with hr | hr <;> simp [hr]
  show execPartset q p s = _
  unfold execPartset
  rw [onQueue_next h hlv (beq_iff_eq.2 h1)]
  simp only [hv, hf, hlev', hres, Bool.not_true, Bool.false_eq_true, if_false]
  rfl

theorem exec_partset_low (hlv : lv = 0) : exec (.partset q p) s = .next (ended s q p 0x11) := by
  unfold Served at h
  show execPartset q p s = _
  unfold execPartset onQueue
  simp only [h, hlv, if_pos Nat.zero_lt_one]
  rfl

/-! ### JOBSET (R395) -/

omit h in
/-- What a JOBSET checks in its arguments, with its operation. -/
theorem JobArgs.checks {create : Bool} (ha : JobArgs p create) :
    ((bits p.arg0 14 13 == 0) = create) ∧
    (!bit p.arg0 15 && bits p.arg0 31 30 == 0 && p.arg0 / 2 ^ 48 == 0 && decide (bits p.arg0 14 13 < 2) && bits p.arg0 11 0 != 0 &&
      decide (bits p.arg0 29 16 ≤ 8192) && p.arg1 % 2 ^ 16 == 0 && (!(bits p.arg0 14 13 == 0) || bits p.arg0 47 32 != 0)) = true := by
  obtain ⟨⟨r1, r2, r3, r4⟩, hop, ⟨j1, j2⟩, hg⟩ := ha
  rw [r3, r4]
  cases create with
  | false => simp [r1, r2, hop, j1, j2]
  | true => simp [r1, r2, hop, j1, j2, hg rfl]

/-- A JOBSET that creates: BUSY where the job is there. -/
theorem exec_jobset_create (hlv : 1 ≤ lv) (ha : JobArgs p true) :
    exec (.jobset q p) s = .next (if (s.job (jobOf p part)).isSome then ended s q p 0x13
      else ended { s with jobs := s.jobs ++ [{ cid := jobOf p part, gen := bits p.arg0 47 32, dunits := bits p.arg0 29 16, evict := bit p.arg0 12, s1root := p.arg1 }] }
        q p 0x10) := by
  obtain ⟨hop, hok⟩ := ha.checks
  show execJobset q p s = _
  unfold execJobset
  rw [onQueue_next h hlv hok]
  simp only [hop]
  rfl

/-- A JOBSET that ends a job: none of its grids runs and no horizon will bring it in. -/
theorem exec_jobset_end {j : Job} (hlv : 1 ≤ lv) (ha : JobArgs p false) (hj : s.job (jobOf p part) = some j)
    (hg : ∀ g ∈ s.grids, g.cid = jobOf p part → g.complete = true) (hn : ¬jobNamed s (jobOf p part)) :
    exec (.jobset q p) s = .next (ended (jobGone s (jobOf p part)) q p 0x10) := by
  obtain ⟨hop, hok⟩ := ha.checks
  have hg' := job_complete hg
  have hn' := job_unnamed hn
  unfold jobOf at hj hg' hn'
  show execJobset q p s = _
  unfold execJobset
  rw [onQueue_next h hlv hok]
  simp only [hop, hj, hg', hn']
  rfl

/-! ### COMMSET (R320, R413) -/

omit h in
/-- What a COMMSET checks in its arguments. -/
theorem CommArgs.checks {gone : Bool} (ha : CommArgs p gone) :
    (bits p.arg0 7 6 == 0 && bits p.arg0 11 10 == 0 && bits p.arg0 23 21 == 0 && bits p.arg0 31 29 == 0 && p.arg0 / 2 ^ 33 == 0 &&
      (bit p.arg0 32 || (decide (12 ≤ bits p.arg0 28 24) && decide (bits p.arg0 28 24 ≤ 20)))) = true := by
  obtain ⟨⟨r1, r2, r3, r4, r5⟩, hop, hs⟩ := ha
  rw [r5]
  cases gone with
  | false => simp [r1, r2, r3, r4, hs rfl]
  | true => simp [r1, r2, r3, r4, hop]

theorem exec_commset_make {v : Nat} (hlv : 1 ≤ lv) (ha : CommArgs p false) (hf : CommFree s part (bits p.arg0 5 0))
    (hv : gBytes s lv cid p.arg1 (8 + 2 * (bits p.arg0 20 12 + 1)) = .ok v) :
    exec (.commset q p) s = .next
      (ended { s with comms := upsert (fun (c : Comm) => c.part == part && c.comm == bits p.arg0 5 0) (commMade p part v) s.comms } q p 0x10) := by
  show execCommset q p s = _
  unfold execCommset
  rw [onQueue_next h hlv ha.checks]
  simp only [comm_free hf, ha.op, hv]
  rfl

theorem exec_commset_end {c : Comm} (hlv : 1 ≤ lv) (ha : CommArgs p true) (hf : CommFree s part (bits p.arg0 5 0)) (hc : c ∈ s.comms)
    (hp : c.part = part) (hn : c.comm = bits p.arg0 5 0) :
    exec (.commset q p) s = .next
      (ended { s with comms := s.comms.filter fun c => !(c.part == part && c.comm == bits p.arg0 5 0) } q p 0x10) := by
  have hany : (s.comms.any fun c => c.part == part && c.comm == bits p.arg0 5 0) = true := List.any_eq_true.2 ⟨c, hc, by simp [hp, hn]⟩
  show execCommset q p s = _
  unfold execCommset
  rw [onQueue_next h hlv ha.checks]
  simp only [comm_free hf, ha.op, hany]
  rfl

/-! ### EXPRESS (R387) -/

/-- An EXPRESS that is not accepted changes nothing; an accepted one goes out to every core of its set. -/
theorem exec_express {cs : List CoreRef} (hlv : 1 ≤ lv) (ha : p.arg0 < 4096)
    (hcs : cs = (hznOf (BitVec.ofNat 256 (p.arg1 % 2 ^ 64 * 2 ^ 128))).cores q.pkg) :
    exec (.express q p) s = .next (if expressOk s q.pkg part (4096 * part + p.arg0) cs = false then ended s q p 0x15
      else ended (cs.foldl (fun s' c => s'.post (.expressArrival c (4096 * part + p.arg0) (losesD s q.pkg (4096 * part + p.arg0) cs c))) s) q p 0x10) := by
  subst hcs
  show execExpress q p s = _
  unfold execExpress
  rw [onQueue_next h hlv (decide_eq_true ha)]
  simp only [Bool.not_eq_true']
  rfl

end

/-- Settles O56: each packet ends in the state, and with the status, that its kind gives; the clauses are those of the packet's
kind. -/
theorem packetSteps : Obligations.PacketSteps := by
  intro i s t h
  cases h with
  | launch h h1 hl => exact exec_launch h h1 hl
  | launchRefused h h1 hl => exact exec_launch_refused h h1 hl
  | waitReached h h8 hv hle => rw [exec_waitsig h h8 hv, if_pos hle]
  | waitBegins h h8 hv hlt => rw [exec_waitsig h h8 hv, if_neg (Nat.not_le.2 hlt)]
  | signalNow h h0 h1 hb => rw [exec_signal h h0 h1, hb]; rfl
  | signalLater h h0 h1 hb => rw [exec_signal h h0 h1, if_pos hb]
  | jobMade h hlv ha hj => rw [exec_jobset_create h hlv ha, hj]; rfl
  | jobExists h hlv ha hj => rw [exec_jobset_create h hlv ha, hj]; rfl
  | jobEnds h hlv ha hj hg hn => exact exec_jobset_end h hlv ha hj hg hn
  | commMade h hlv ha hf hv => exact exec_commset_make h hlv ha hf hv
  | commEnds h hlv ha hf hc hp hn => exact exec_commset_end h hlv ha hf hc hp hn
  | expressRefused h hlv ha hcs he => rw [exec_express h hlv ha hcs, if_pos he]
  | express h hlv ha hcs he => rw [exec_express h hlv ha hcs, if_neg (by simp [he])]
  | partition h hlv h1 hv hf hlev hr hb => rw [exec_partset h hlv h1 hv hf hlev hr, hb]; rfl
  | partitionLevel h hlv => exact exec_partset_low h hlv
  | partitionBusy h hlv h1 hv hf hlev hr hb => rw [exec_partset h hlv h1 hv hf hlev hr, if_pos hb]

end Sys2Proof.Machine

/-! SUPPORT. Queues, functions and migration. -/

namespace Sys2Proof.Machine

open State

/-! ### The nested scheduler (R411, R415) -/

section
variable {pkg : Nat} {s : State} {q : QRef} {lv part cid : Nat} (hq : nextQueue (settleSignals s pkg) pkg = some q) (hp : q.pkg = pkg)
  (hs : Served (settleSignals s pkg) q lv part cid)
include hq hs

/-- A packet in a line that a copy engine owns waits (R91). -/
theorem exec_queueService_held (hh : packetHeld (settleSignals s pkg) lv cid (packetAddr ((settleSignals s pkg).queueOf q)) = true) :
    exec (.queueService pkg) s = .next ((settleSignals s pkg).postOnce (.queueService pkg)) := by
  unfold Served at hs
  unfold packetAddr at hh
  show execQueueService pkg s = _
  unfold execQueueService
  simp only [hq, hs, hh, if_true]

include hp

/-- A packet that is free is taken and carried out. -/
theorem exec_queueService {u : State} {a v : Nat} (hu : u = settleSignals s pkg) (ha : a = packetAddr (u.queueOf q))
    (hh : packetHeld u lv cid a = false) (hv : gBytes (taken u q lv part cid a) lv cid a 64 = .ok v) :
    exec (.queueService pkg) s = runPacket q (packetOf a v) v (taken u q lv part cid a) := by
  subst hp hu ha
  unfold Served at hs
  unfold taken packetAddr at hv
  unfold packetAddr at hh
  show execQueueService q.pkg s = _
  unfold execQueueService
  simp only [hq, hs, hh, hv, Bool.false_eq_true, if_false]
  rfl

end

theorem exec_queueService_idle {pkg : Nat} {s : State} (hq : nextQueue (settleSignals s pkg) pkg = none) :
    exec (.queueService pkg) s = .next (settleSignals s pkg) := by
  show execQueueService pkg s = _
  unfold execQueueService
  simp only [hq]

/-- A notify of a queue that is served: QTAIL is written where it lies in the ring (R410, R411). -/
theorem exec_notify {q : QRef} {t : Nat} {s : State} (hq : q.q < 8) (he : (s.queueOf q).en = true) (hf : (s.fnOf q.pkg q.fn).frozen = false)
    (hn : q.fn ≤ (s.pkg q.pkg).numVfs) :
    exec (.notify q t) s = if t < 2 ^ (s.queueOf q).log2n then .next ((s.modQueue q fun x => { x with qtail := t }).postOnce (.queueService q.pkg))
      else .next (s.modQueue q fun x => { x with outOfRange := true }) := by
  show execNotify q t s = _
  unfold execNotify
  simp only [if_neg (Nat.not_le.2 hq), he, hf, decide_eq_false (Nat.not_lt.2 hn)]
  rfl

theorem exec_notify_lost {q : QRef} {t : Nat} {s : State} (hq : q.q < 8)
    (h : (s.queueOf q).en = false ∨ (s.fnOf q.pkg q.fn).frozen = true ∨ (s.pkg q.pkg).numVfs < q.fn) :
    exec (.notify q t) s = .next (s.modFn q.pkg q.fn fun f => { f with notdrop := f.notdrop + 1 }) := by
  have hd : (!(s.queueOf q).en || (s.fnOf q.pkg q.fn).frozen || decide ((s.pkg q.pkg).numVfs < q.fn)) = true := by
    rcases h with h | h | h <;> simp [h]
  show execNotify q t s = _
  unfold execNotify
  simp only [if_neg (Nat.not_le.2 hq), hd]
  rfl

/-! ### VFMAP (R409) -/

/-- What `execVfmapWrite` ignores: a function out of range, a reserved LEVEL, and a second GUEST function. -/
theorem vfmapIgnored_iff {s : State} {pkg f v : Nat} :
    (decide (512 ≤ f) || decide (2 ≤ bits v 5 4) || (bit v 31 && bits v 5 4 == 1 && (s.pkg pkg).fns.any fun x =>
      x.fn != f + 1 && bit x.vfmap 31 && bits x.vfmap 5 4 == 1 && bits x.vfmap 3 0 == bits v 3 0)) = true ↔
    512 ≤ f ∨ 2 ≤ bits v 5 4 ∨ secondGuest s pkg f v := by
  unfold secondGuest
  simp only [Bool.or_eq_true, decide_eq_true_eq, Bool.and_eq_true, beq_iff_eq, List.any_eq_true, bne_iff_ne, and_assoc, or_assoc]

theorem exec_vfmapWrite {pkg f value : Nat} {s : State} (hf : f < 512) (hb : bits (vfmapOf value) 5 4 < 2)
    (hs : ¬secondGuest s pkg f (vfmapOf value)) :
    exec (.vfmapWrite pkg f value) s = .next ((s.modFn pkg (f + 1) fun x => { x with vfmap := vfmapOf value }).postOnce (.queueService pkg)) :=
  if_neg (vfmapIgnored_iff.not.2 (not_or.2 ⟨Nat.not_le.2 hf, not_or.2 ⟨Nat.not_le.2 hb, hs⟩⟩))

theorem exec_vfmapWrite_second {pkg f value : Nat} {s : State} (hs : secondGuest s pkg f (vfmapOf value)) :
    exec (.vfmapWrite pkg f value) s = .next s :=
  if_pos (vfmapIgnored_iff.2 (.inr (.inr hs)))

/-! ### Budgets (R396) -/

theorem exec_partitionBudgetExhausted {pkg part : Nat} {s : State} (h0 : (s.partRes pkg part).tbudget ≠ 0)
    (h1 : budgetOf (s.partRes pkg part) ≤ (s.partRes pkg part).charge) :
    exec (.partitionBudgetExhausted pkg part) s =
      .next (s.modPkg pkg fun p => { p with parts := mapIf (fun (x : PartRes) => x.part == part) (fun x => { x with spent := true }) p.parts }) :=
  if_neg (by rw [beq_false_of_ne h0, decide_eq_false (Nat.not_lt.2 h1)]; decide)

/-! ### Wakes and migration (R414, R418) -/

theorem exec_save {pkg f : Nat} {s : State} (hb : (s.pkg pkg).migBusy = none) (hf : f < 512) :
    exec (.save pkg f) s = .next (beginMig { s.modFn pkg (f + 1) (fun x => { x with frozen := true }) with
      redirects := ((s.modFn pkg (f + 1) fun x => { x with frozen := true }).redirects.filter fun x => x.1 != (pkg, f + 1)) ++ [((pkg, f + 1), none)] } pkg 1 f) :=
  if_neg (by rw [hb, decide_eq_false (Nat.not_le.2 hf)]; decide)

theorem exec_restore {pkg f : Nat} {s : State} (hf : f < 512) : exec (.restore pkg f) s = .next (beginMig s pkg 2 f) :=
  congrArg Host.Outcome.next (if_neg (Nat.not_le.2 hf))

theorem exec_migrationDone_waits {pkg f : Nat} {s : State} (hb : (s.pkg pkg).migBusy = some (1, f))
    (hx : ∃ x ∈ (s.fnOf pkg (f + 1)).queues, x.signal.isSome = true) :
    exec (.migrationDone pkg) s = .next (s.postOnce (.migrationDone pkg)) := by
  show execMigrationDone pkg s = _
  unfold execMigrationDone
  simp only [hb, List.any_eq_true.2 hx]
  rfl

theorem exec_migrationDone {pkg op f : Nat} {s : State} (hb : (s.pkg pkg).migBusy = some (op, f))
    (hx : op = 1 → ∀ x ∈ (s.fnOf pkg (f + 1)).queues, x.signal = none) :
    exec (.migrationDone pkg) s =
      .next ((migrated s pkg op f).1.modPkg pkg fun p => { p with migBusy := none, migStatus := (migrated s pkg op f).2 }) := by
  have hw : (op == 1 && (s.fnOf pkg (f + 1)).queues.any fun x => x.signal.isSome) = false := by
    by_cases h1 : op = 1
    · rw [h1, BEq.rfl, Bool.true_and, List.any_eq_false]
      intro x hm
      rw [hx h1 x hm]
      decide
    · rw [beq_false_of_ne h1, Bool.false_and]
  show execMigrationDone pkg s = _
  unfold execMigrationDone migrated
  simp only [hb, hw, beq_iff_eq]
  rfl

/-- Settles O57: each notify, service, register write, reset and step of a migration answers what its rule gives. -/
theorem functionSteps : Obligations.FunctionSteps := by
  intro i s t h
  cases h with
  | serves hu hq hp hs ha hh hv hr => subst hu; exact (exec_queueService hq hp hs rfl ha hh hv).trans hr
  | heldPacket hu hq hp hs hh => subst hu; exact exec_queueService_held hq hs hh
  | idle hq => exact exec_queueService_idle hq
  | wakeHere hr => show execWaitsigWake _ _ s = _; simp only [execWaitsigWake, hr]
  | wakeHeld hr => show execWaitsigWake _ _ s = _; simp only [execWaitsigWake, hr]
  | wakeThere hr => show execWaitsigWake _ _ s = _; simp only [execWaitsigWake, hr]
  | notify hq he hf hn ht => rw [exec_notify hq he hf hn, if_pos ht]
  | notifyOut hq he hf hn ht => rw [exec_notify hq he hf hn, if_neg (Nat.not_lt.2 ht)]
  | notifyLost hq h => exact exec_notify_lost hq h
  | vfmap hf hb hs => exact exec_vfmapWrite hf hb hs
  | vfmapSecond hs => exact exec_vfmapWrite_second hs
  | spent h0 h1 => exact exec_partitionBudgetExhausted h0 h1
  | period => rfl
  | vfReset => rfl
  | pfReset => rfl
  | save hb hf => exact exec_save hb hf
  | restore hf => exact exec_restore hf
  | migWaits hb hx => exact exec_migrationDone_waits hb hx
  | migDone hb hx => exact exec_migrationDone hb hx

end Sys2Proof.Machine

/-! SUPPORT. Errors, retirement and the fatal state. -/

namespace Sys2Proof.Machine

open State

/-! ### Errors in storage (R437-R439) -/

theorem exec_correctableError {pkg : Nat} {r : ErrRec} {s : State} (hu : r.unit = 1) :
    exec (.correctableError pkg r) s =
      .next (reported s (noteCorrected s { pkg := pkg, die := r.die, core := r.core }) pkg { r with kind := 0 }) :=
  if_pos (beq_iff_eq.2 hu)

theorem exec_correctableError_elsewhere {pkg : Nat} {r : ErrRec} {s : State} (hu : r.unit ≠ 1) :
    exec (.correctableError pkg r) s = .next (recordErr s pkg { r with kind := 0 }) :=
  if_neg (mt beq_iff_eq.1 hu)

section
variable {pkg : Nat} {r : ErrRec} {s : State} (hu : r.unit = 2)
include hu

/-- Uncorrectable data in a phaser's state, in what a dispatcher's table holds, or in D, where the line is marked (R438, R439). -/
theorem exec_uncorrectableError_phaser (hk : Config.nimbusKind (4 * pkg + r.die) r.addr = 1) :
    exec (.uncorrectableError pkg r) s =
      .next (phaserError (recordErr s pkg { r with kind := 1 }) pkg r.die (Config.nimbusOwner (4 * pkg + r.die) r.addr % 65536)) := by
  show execUncorrectableError pkg r s = _
  unfold execUncorrectableError
  simp only [hu, hk]

theorem exec_uncorrectableError_table (hk : Config.nimbusKind (4 * pkg + r.die) r.addr = 2) :
    exec (.uncorrectableError pkg r) s =
      .next (loseGrid (recordErr s pkg { r with kind := 1 }) (Config.nimbusOwner (4 * pkg + r.die) r.addr)) := by
  show execUncorrectableError pkg r s = _
  unfold execUncorrectableError
  simp only [hu, hk]

theorem exec_uncorrectableError_d (h1 : Config.nimbusKind (4 * pkg + r.die) r.addr ≠ 1) (h2 : Config.nimbusKind (4 * pkg + r.die) r.addr ≠ 2) :
    exec (.uncorrectableError pkg r) s =
      .next (recordErr { s with marks := joinNat s.marks [Config.nimbusLine (4 * pkg + r.die) r.addr] } pkg { r with kind := 1 }) := by
  show execUncorrectableError pkg r s = _
  unfold execUncorrectableError
  simp only [hu]

end

theorem exec_uncorrectableError_fatal {pkg : Nat} {r : ErrRec} {s : State} (hu : r.unit = 5 ∨ r.unit = 6) :
    exec (.uncorrectableError pkg r) s = .next (goFatal (recordErr s pkg { r with kind := 1 }) pkg r.unit) := by
  show execUncorrectableError pkg r s = _
  unfold execUncorrectableError
  rcases hu with hu | hu
  · simp only [hu]
  · simp only [hu]

/-! ### Retirement and the watch on the leaves (R428, R434) -/

/-- A cluster without a logical identity takes one (R434). -/
theorem exec_remap {l : Link} {k : Nat} {s : State} {f : Leaf} (hf : leafAt s l.pkg l.die l.leaf = some f) (hm : l.malformed = false)
    (hk : k < 16) (hr : f.retired = false) (hl : f.logical = none) :
    exec (.remap l k) s = .next (((victimsOf (remapped s l k) l k).foldl (fun s c => s.postOnce (.horizonSwap c)) (remapped s l k)).postOnce
      (.neighbourhoodPlacement l.pkg l.die)) := by
  show execRemap l k s = _
  unfold execRemap
  simp only [hf, hm, hr, hl, decide_eq_false (Nat.not_le.2 hk)]
  rfl

/-- Where every leaf answers in time the watch retires none. -/
theorem exec_pingTimer {pkg : Nat} {s : State} {ls : List Leaf} (hb : (s.pkg pkg).mgmt.boot = .ready) (hf : (s.pkg pkg).mgmt.fatal = false)
    (hls : ls = (s.pkg pkg).leaves.map (fun f => if f.retired then f else { f with missed := if f.answered then 0 else f.missed + 1, answered := false }))
    (hlt : ∀ f ∈ ls, f.retired = false → f.missed < 3) :
    exec (.pingTimer pkg) s = .next (s.setPkg { s.pkg pkg with pingAt := (s.pkg pkg).up, leaves := ls }) := by
  have hnone : (ls.filter fun f => !f.retired && decide (3 ≤ f.missed)) = [] := by
    refine List.filter_eq_nil_iff.2 fun f hm => ?_
    rw [Bool.and_eq_true, Bool.not_eq_true', decide_eq_true_eq]
    exact fun ⟨hr, h3⟩ => Nat.not_le.2 (hlt f hm hr) h3
  show execPingTimer pkg s = _
  unfold execPingTimer
  simp only [hb, hf, ← hls, hnone]
  rfl

/-- Settles O59: each error, retirement and step of a failing package answers what its rule gives. -/
theorem errorSteps : Obligations.ErrorSteps := by
  intro i s t h
  cases h with
  | error hm => exact congrArg Host.Outcome.next (if_neg (by rw [hm]; decide))
  | errorBad hm => exact congrArg Host.Outcome.next (if_pos hm)
  | corrected hu => exact exec_correctableError hu
  | correctedElsewhere hu => exact exec_correctableError_elsewhere hu
  | inCore hu => show execUncorrectableError _ _ s = _; simp only [execUncorrectableError, hu]; rfl
  | inPhaser hu hk => exact exec_uncorrectableError_phaser hu hk
  | inTable hu hk => exact exec_uncorrectableError_table hu hk
  | inD hu h1 h2 => exact exec_uncorrectableError_d hu h1 h2
  | inG hu => show execUncorrectableError _ _ s = _; simp only [execUncorrectableError, hu]
  | fatalUnit hu => exact exec_uncorrectableError_fatal hu
  | fatalPacket hne => exact congrArg Host.Outcome.next (if_neg (mt beq_iff_eq.1 hne))
  | coreFails => rfl
  | retire hm hk => exact congrArg Host.Outcome.next (if_neg (by rw [hm, hk, bne_self_eq_false]; decide))
  | remap hf hm hk hr hl => exact exec_remap hf hm hk hr hl
  | scrub => rfl
  | quiesce hm => exact congrArg Host.Outcome.next (if_neg (by rw [hm]; decide))
  | ping hm => exact congrArg Host.Outcome.next (if_neg (by rw [hm]; decide))
  | pong => rfl
  | otherResponse hne => exact congrArg Host.Outcome.next (if_neg (by rw [beq_false_of_ne hne, Bool.false_and]; decide))
  | watchdog hb hf hls hlt => exact exec_pingTimer hb hf hls hlt
  | throttle => rfl
  | overCap ht => exact congrArg Host.Outcome.next (if_pos (beq_iff_eq.2 ht))
  | throttles ht => exact congrArg Host.Outcome.next (if_neg (mt beq_iff_eq.1 ht))
  | hot => rfl

end Sys2Proof.Machine

/-! SUPPORT. The SPDM responder, resets, the management engine and the shares. -/

namespace Sys2Proof.Machine

open State

/-! ### The SPDM responder (R453-R455) -/

/-- A responder whose mailbox is there does not pass a request over. -/
theorem Listens.hears {s : State} {pkg : Nat} (h : Listens s pkg) :
    (!(s.pkg pkg).mgmt.pcie || (s.pkg pkg).mgmt.fatal || (s.pkg pkg).mgmt.rootPort) = false := by
  rw [h.pcie, h.lives, h.endpoint]
  rfl

theorem Responds.listens {s : State} {pkg : Nat} (h : Responds s pkg) : Listens s pkg := ⟨h.pcie, h.lives, h.endpoint⟩

/-- A request is carried out by a responder that answers; one that needs the algorithms waits for them. -/
theorem spdm_responds {s : State} {pkg : Nat} {algs : Bool} {f : State → State} (h : Responds s pkg)
    (ha : algs = true → (s.pkg pkg).mgmt.negotiated = true) : spdm pkg algs f s = .next (f s) := by
  have hn : (!(s.pkg pkg).mgmt.versionSeen || (algs && !(s.pkg pkg).mgmt.negotiated)) = false := by
    rw [h.version]
    cases algs with
    | false => rfl
    | true => rw [ha rfl]; rfl
  unfold spdm
  simp only [h.listens.hears, beq_false_of_ne h.booted, hn, Bool.false_eq_true, if_false]

/-- In BOOTFAIL a request receives ResponseNotReady (R454). -/
theorem spdm_bootfail {s : State} {pkg : Nat} {algs : Bool} {f : State → State} (h : Listens s pkg) (hb : (s.pkg pkg).mgmt.boot = .bootfail) :
    spdm pkg algs f s = .next (answerSpdm s pkg 0x7F [0x42]) := by
  unfold spdm
  simp only [h.hears, hb]
  rfl

theorem exec_getVersion {s : State} {pkg : Nat} (h : Listens s pkg) :
    exec (.getVersion pkg) s = .next (answerSpdm (modMgmt s pkg fun m => { m with versionSeen := true, negotiated := false }) pkg 0x04 [0x1300]) :=
  if_neg (by rw [h.hears]; decide)

theorem exec_getMeasurements {s : State} {pkg i : Nat} (h : Responds s pkg) (hn : (s.pkg pkg).mgmt.negotiated = true) (hi : i ≤ 4 ∨ i = 0xFF) :
    exec (.getMeasurements pkg i) s = .next (answerSpdm s pkg 0x60 (measurementOf (s.pkg pkg).mgmt i)) := by
  show execGetMeasurements pkg i s = _
  unfold execGetMeasurements measurementOf
  rw [spdm_responds h fun _ => hn]
  by_cases h0 : i = 0
  · rw [if_pos h0, if_pos (beq_iff_eq.2 h0)]
  · rw [if_neg h0, if_neg (mt beq_iff_eq.1 h0)]
    rcases hi with hi | rfl
    · rw [if_pos hi, if_neg (by omega)]
    · rfl

/-- A request that is not supported is answered so, or as not ready in BOOTFAIL. -/
theorem exec_unsupportedRequest {s : State} {pkg code : Nat} (h : Listens s pkg) :
    exec (.unsupportedRequest pkg code) s =
      .next (answerSpdm s pkg 0x7F [if (s.pkg pkg).mgmt.boot == .bootfail then 0x42 else 0x07]) :=
  if_neg (by rw [h.hears]; decide)

theorem exec_spdmStep {i : Instr} {s t : State} (h : SpdmStep i s t) : exec i s = .next t := by
  cases h with
  | version h => exact exec_getVersion h
  | capabilities h => show execGetCapabilities _ s = _; exact spdm_responds h nofun
  | algorithms h => show execNegotiateAlgorithms _ _ _ s = _; exact spdm_responds h nofun
  | digests h hn => show execGetDigests _ s = _; exact spdm_responds h fun _ => hn
  | certificate h hn => show execGetCertificate _ 0 _ _ s = _; exact spdm_responds h fun _ => hn
  | challenge h hn => show execChallenge _ 0 _ s = _; exact spdm_responds h fun _ => hn
  | measurements h hn hi => exact exec_getMeasurements h hn hi
  | unsupported h hb => rw [exec_unsupportedRequest h, beq_false_of_ne hb]; rfl
  | notReady h hb => rw [exec_unsupportedRequest h, hb]; rfl
  | notReadyYet h hb => show execGetCapabilities _ s = _; exact spdm_bootfail h hb

/-! ### Resets (R450) -/

/-- A warm reset boots the package again where its rails are good. -/
theorem exec_warm {i : Instr} {s : State} {pkg : Nat} (hi : i ∈ [Instr.warmReset pkg, .perst pkg, .warm pkg]) :
    exec i s = .next (if (s.pkg pkg).mgmt.boot != .booting then bootPackage (resetPackage s pkg true) pkg else resetPackage s pkg true) := by
  simp only [List.mem_cons, List.not_mem_nil, or_false] at hi
  rcases hi with rfl | rfl | rfl <;> rfl

/-! ### The management engine (R457) -/

theorem exec_apertureReadDone {s : State} {pkg v st n : Nat} (hb : (s.pkg pkg).mgmt.apbusy = true) (hr : Booted s pkg)
    (ha : aperture s 3 (fun _ => true) (s.pkg pkg).mgmt.apaddr = .ok (v, st, n)) :
    exec (.apertureReadDone pkg) s = .next (modMgmt s pkg fun m => { m with apdata := v, apstatus := st, apbusy := false }) := by
  obtain ⟨h1, h2⟩ := hr
  show execApertureReadDone pkg s = _
  unfold execApertureReadDone
  simp only [hb, beq_false_of_ne h1, beq_false_of_ne h2, ha]
  rfl

theorem exec_cmdRetire {s : State} {pkg a : Nat} (hb : (s.pkg pkg).mgmt.boot = .ready) (hf : (s.pkg pkg).mgmt.fatal = false)
    (ha : a = (s.pkg pkg).mgmt.cmdarg) (h16 : a % 32 ≤ 16) (h10 : a < 1024) (h7 : bits a 7 5 = 0) :
    exec (.cmdRetire pkg) s = .next (retireCluster s pkg (bits a 9 8) (a % 32)) := by
  subst ha
  have h0 : (s.pkg pkg).mgmt.cmdarg / 1024 = 0 := Nat.div_eq_of_lt h10
  show execCmdRetire pkg s = _
  unfold execCmdRetire
  simp only [hb, hf, decide_eq_false (Nat.not_lt.2 h16), h0, h7]
  rfl

theorem exec_taisec {s : State} {pkg : Nat} : exec (.taisec pkg) s =
    .next (if Config.grandmaster pkg && Config.taisec pkg then modMgmt s pkg fun m => { m with tai := some (m.cmdargh * 2 ^ 32 + m.cmdarg) } else s) := rfl

/-! ### Registers of the functions (R5, R410) -/

/-- A function's page takes accesses: the package is READY, not fatal, and no root port. -/
theorem fnPage_taken {s : State} {pkg : Nat} (hb : (s.pkg pkg).mgmt.boot = .ready) (hf : (s.pkg pkg).mgmt.fatal = false)
    (hr : (s.pkg pkg).mgmt.rootPort = false) :
    ((s.pkg pkg).mgmt.boot != .ready || (s.pkg pkg).mgmt.fatal || (s.pkg pkg).mgmt.rootPort) = false := by
  rw [hb, hf, hr]
  rfl

theorem exec_registerWrite_qbase {s : State} {pkg fn off v : Nat} (hb : (s.pkg pkg).mgmt.boot = .ready) (hf : (s.pkg pkg).mgmt.fatal = false)
    (hr : (s.pkg pkg).mgmt.rootPort = false) (h2 : off < 0x200) (h4 : off % 0x40 = 0) :
    exec (.registerWrite (.fn pkg fn) off v) s =
      .next (s.modQueue { pkg := pkg, fn := fn, q := off / 0x40 } fun x => { x with qbase := v % 2 ^ 64 / 4096 * 4096 }) := by
  show writeFnReg pkg fn off v s = _
  unfold writeFnReg
  simp only [fnPage_taken hb hf hr, h4, if_pos h2]
  rfl

theorem exec_registerWrite_migaddr {s : State} {pkg v : Nat} (hb : (s.pkg pkg).mgmt.boot = .ready) (hf : (s.pkg pkg).mgmt.fatal = false)
    (hr : (s.pkg pkg).mgmt.rootPort = false) :
    exec (.registerWrite (.fn pkg 0) 0xC00 v) s = .next (s.modPkg pkg fun p => { p with migaddr := v % 2 ^ 64 }) := by
  show writeFnReg pkg 0 0xC00 v s = _
  unfold writeFnReg
  simp only [fnPage_taken hb hf hr]
  rfl

/-- A read of a function's page after the boot (R5). -/
theorem exec_registerRead_fn {s : State} {pkg p fn off : Nat} (hv : (s.pkg p).mgmt.recovery = false) (hb : (s.pkg p).mgmt.boot = .ready)
    (hf : (s.pkg p).mgmt.fatal = false) (hr : (s.pkg p).mgmt.rootPort = false) :
    exec (.hostDieAccess pkg (.register (.fn p fn) off)) s = .next { s with out := s.out ++ [.hostValue pkg (readFnReg s p fn off)] } := by
  show execRegisterRead pkg (.fn p fn) off s = _
  unfold execRegisterRead
  simp only [fnPage_taken hb hf hr, hv]
  rfl

/-- In the recovery form of the link a function's page reads 0 (R451). -/
theorem exec_registerRead_recovery {s : State} {pkg p fn off : Nat} (hv : (s.pkg p).mgmt.recovery = true) (hc : (s.pkg p).mgmt.pcie = true)
    (hr : (s.pkg p).mgmt.rootPort = false) :
    exec (.hostDieAccess pkg (.register (.fn p fn) off)) s = .next { s with out := s.out ++ [.hostValue pkg 0] } := by
  show execRegisterRead pkg (.fn p fn) off s = _
  unfold execRegisterRead
  simp only [hv, hc, hr]
  rfl

/-- The two words of QBASE, low and high, in a function's page (R410). -/
theorem readFnReg_qbase {s : State} {p fn q h : Nat} (hq : q < 8) (hh : h < 2) :
    readFnReg s p fn (0x40 * q + 4 * h) = (s.queueOf { pkg := p, fn := fn, q := q }).qbase / 2 ^ (32 * h) % 2 ^ 32 := by
  have hd : (0x40 * q + 4 * h) / 0x40 = q := by omega
  have hm : (0x40 * q + 4 * h) % 0x40 = 4 * h := by omega
  unfold readFnReg
  simp only [hd, hm, if_pos (show 0x40 * q + 4 * h < 0x200 by omega)]
  obtain rfl | rfl : h = 0 ∨ h = 1 := by omega
  · simp only [Nat.mul_zero, Nat.pow_zero, Nat.div_one]
  · rfl

/-! ### The host die's accesses (R87) -/

/-- A read of bytes none of whose lines is marked brings them out. -/
theorem exec_hostDieAccess_read {s : State} {pkg a n : Nat} (hf : (s.pkg pkg).mgmt.fatal = false)
    (hm : ∀ i, a / 128 + i ≤ (a + n - 1) / 128 → s.marked (.g (a + 128 * i)) = false) :
    exec (.hostDieAccess pkg (.read a n)) s =
      .next { hostCharge s pkg a n with out := (hostCharge s pkg a n).out ++ [.hostValue pkg (s.readLoc (.g a) n)] } := by
  have hclean : ((List.range (n / 128 + 2)).any fun i => decide (a / 128 + i ≤ (a + n - 1) / 128) && s.marked (.g (a + 128 * i))) = false := by
    refine List.any_eq_false.2 fun i _ => ?_
    rw [Bool.and_eq_true, decide_eq_true_eq, not_and]
    exact fun hi => by rw [hm i hi]; decide
  show execHostDieAccess pkg (.read a n) s = _
  unfold execHostDieAccess
  simp only [hf, hclean, Bool.false_eq_true, if_false]

theorem exec_hostDieAccess_write {s : State} {pkg a n v : Nat} (hf : (s.pkg pkg).mgmt.fatal = false) :
    exec (.hostDieAccess pkg (.write a n v)) s = .next (((hostCharge s pkg a n).writeLoc (.g a) n v).wakeRecalls) := by
  show execHostDieAccess pkg (.write a n v) s = _
  unfold execHostDieAccess
  simp only [hf]
  rfl

/-! ### The shares (R397-R400) -/

theorem exec_memoryRequestService {s u : State} {pkg ctrl : Nat} {l v : List Share}
    (hc : (s.channels.find? fun c => c.1 == (pkg, ctrl)) = some ((pkg, ctrl), l)) (hs : serveShare s pkg ctrl (fun r => r.hbmw) l = (u, v)) :
    exec (.memoryRequestService pkg ctrl) s =
      .next (wakeEvery { u with channels := mapIf (fun c => c.1 == (pkg, ctrl)) (fun c => (c.1, v)) u.channels } fun w => w == .channel) := by
  show execMemoryRequestService pkg ctrl s = _
  unfold execMemoryRequestService
  simp only [hc, hs]

theorem exec_portFlitArbitration {s u : State} {pkg port : Nat} {l v : List Share}
    (hc : (s.ports.find? fun c => c.1 == (pkg, port)) = some ((pkg, port), l)) (hs : serveShare s pkg (1000 + port) (fun r => r.fabw) l = (u, v)) :
    exec (.portFlitArbitration pkg port) s = .next { u with ports := mapIf (fun c => c.1 == (pkg, port)) (fun c => (c.1, v)) u.ports } := by
  show execPortFlitArbitration pkg port s = _
  unfold execPortFlitArbitration
  simp only [hc, hs]

theorem exec_boardStep {i : Instr} {s t : State} (h : BoardStep i s t) : exec i s = .next t := by
  cases h with
  | boots hb => exact congrArg Host.Outcome.next (if_pos (beq_iff_eq.2 hb))
  | cold => rfl
  | rail => rfl
  | warm hi hb => rw [exec_warm hi, if_pos (bne_iff_ne.2 hb)]
  | warmBoot hi hb => rw [exec_warm hi, hb]; rfl
  | aperture => rfl
  | apertureReads hb hr ha => exact exec_apertureReadDone hb hr ha
  | retires hb hf ha h16 h10 h7 => exact exec_cmdRetire hb hf ha h16 h10 h7
  | tai hg ht => rw [exec_taisec, hg, ht]; rfl
  | noTai h =>
    rw [exec_taisec]
    exact congrArg Host.Outcome.next (if_neg (by rcases h with h | h <;> simp [h]))
  | address => rfl
  | qbase hb hf hr h2 h4 => exact exec_registerWrite_qbase hb hf hr h2 h4
  | migaddr hb hf hr => exact exec_registerWrite_migaddr hb hf hr
  | cmdarg => rfl
  | hostReads hf hm => exact exec_hostDieAccess_read hf hm
  | hostWrites hf => exact exec_hostDieAccess_write hf
  | mgmtReads => rfl
  | recoveryReads hv hc hr => exact exec_registerRead_recovery hv hc hr
  | fnReads hv hb hf hr => exact exec_registerRead_fn hv hb hf hr
  | qbaseReads hv hb hf hr hq hh => rw [exec_registerRead_fn hv hb hf hr, readFnReg_qbase hq hh]
  | channel hc hs => exact exec_memoryRequestService hc hs
  | port hc hs => exact exec_portFlitArbitration hc hs

/-- Settles O60: the responder's requests by the state of its package, and the other steps each by their own rule. -/
theorem boardSteps : Obligations.BoardSteps := ⟨fun _ _ _ => exec_spdmStep, fun _ _ _ => exec_boardStep⟩

end Sys2Proof.Machine
